-- ==== Sys2Proof/Word.lean ====
section
/-! DEFINITION. The word types of the model (R4, R6): a byte, a 64-bit word and the 256-byte value that
a move carries. -/

namespace Sys2Proof

/-- One byte (R6). -/
abbrev Byte := BitVec 8

/-- A 64-bit word: addresses (R75), scalar operands (R302), packet words (R164). -/
abbrev W64 := BitVec 64

/-- The widest value of the machine, 256 bytes (R341). Every source value of a move is carried at this
width, zero-extended above its own. -/
abbrev Vec := BitVec 2048

end Sys2Proof
end

