-- ==== Sys2Proof/Syntax.lean ====
section
/-! DEFINITION. The instructions and events of the Kalop Z9: one constructor for each row of
spec/opcode_table.json: the moves first, then the events, each in the table's order.

A row with an encoding is a MOVE of 24 bits (R240); its constructor carries the move's variable
fields. A row without one is an EVENT of the package; what the event brings with it (a slot number, an
address, the bytes that arrive, the identifier of a pending access) stands in the state's operand
record `State.ev`, which the step fills before it runs the row. -/

namespace Sys2Proof

/-- R240. The fields that every move has beside its destination: the guard, the source port and F. -/
structure Mv where
  /-- GUARD, [23:21] -/
  g : BitVec 3
  /-- SRC, [20:11] -/
  s : BitVec 10
  /-- F, [0] -/
  f : Bool
  deriving DecidableEq, Repr

inductive Instr where
  /-- R242. A move writes a register, ephemerally when F = 1 and the source is not a register. -/
  | moveRegister (d : BitVec 9) (m : Mv)
  /-- R259. A move writes a unit operand port of this context, which keeps the value until rewritten. -/
  | operandPortWrite (d : BitVec 10) (m : Mv)
  /-- R263. A move sets a guard g1-g7 from bit 0 of the value, for later bundles. -/
  | guardWrite (d : BitVec 3) (m : Mv)
  /-- R264. A move pushes an 8-byte entry onto a queue tail, holding the bundle while the queue is full. -/
  | queuePush (q : BitVec 4) (m : Mv)
  /-- R258. A move reads its source and writes nothing; the empty slot is #0 -> nul. -/
  | moveNul (m : Mv)
  /-- R304. a + value modulo 2^64, latency 1. -/
  | iaAdd (u : BitVec 1) (m : Mv)
  /-- R304. a - value. -/
  | iaSub (u : BitVec 1) (m : Mv)
  /-- R304. Bitwise and. -/
  | iaAnd (u : BitVec 1) (m : Mv)
  /-- R304. Bitwise or. -/
  | iaOr (u : BitVec 1) (m : Mv)
  /-- R304. Bitwise xor. -/
  | iaXor (u : BitVec 1) (m : Mv)
  /-- R304. a and not value. -/
  | iaAndn (u : BitVec 1) (m : Mv)
  /-- R305. Shift left, with 0 for a count of 64 or more. -/
  | iaShl (u : BitVec 1) (m : Mv)
  /-- R305. Logical shift right. -/
  | iaShr (u : BitVec 1) (m : Mv)
  /-- R305. Arithmetic shift right. -/
  | iaSar (u : BitVec 1) (m : Mv)
  /-- R305. Rotate left by value mod 64. -/
  | iaRotl (u : BitVec 1) (m : Mv)
  /-- R304. Signed minimum. -/
  | iaMin (u : BitVec 1) (m : Mv)
  /-- R304. Signed maximum. -/
  | iaMax (u : BitVec 1) (m : Mv)
  /-- R304. Unsigned minimum. -/
  | iaMinu (u : BitVec 1) (m : Mv)
  /-- R304. Unsigned maximum. -/
  | iaMaxu (u : BitVec 1) (m : Mv)
  /-- R304. 1 if a = value. -/
  | iaEq (u : BitVec 1) (m : Mv)
  /-- R304. 1 if a differs from value. -/
  | iaNe (u : BitVec 1) (m : Mv)
  /-- R304. 1 if a < value, signed. -/
  | iaLt (u : BitVec 1) (m : Mv)
  /-- R304. 1 if a < value, unsigned. -/
  | iaLtu (u : BitVec 1) (m : Mv)
  /-- R304. 1 if a <= value, signed. -/
  | iaLe (u : BitVec 1) (m : Mv)
  /-- R304. 1 if a <= value, unsigned. -/
  | iaLeu (u : BitVec 1) (m : Mv)
  /-- R304. a if b[0] = 1, else value. -/
  | iaSel (u : BitVec 1) (m : Mv)
  /-- R305. Extracts a field of a from bit b[5:0], value bits wide. -/
  | iaExt (u : BitVec 1) (m : Mv)
  /-- R304. Count of leading zero bits. -/
  | iaClz (u : BitVec 1) (m : Mv)
  /-- R304. Count of set bits. -/
  | iaPopc (u : BitVec 1) (m : Mv)
  /-- R307. a + value, latency 3. -/
  | amAdd (m : Mv)
  /-- R307. a - value, latency 3. -/
  | amSub (m : Mv)
  /-- R307. 128-bit signed product to am.o and am.hi. -/
  | amMul (m : Mv)
  /-- R307. 128-bit unsigned product. -/
  | amMulu (m : Mv)
  /-- R307. Signed a × b + value, 128 bits. -/
  | amMad (m : Mv)
  /-- R307. Unsigned a × b + value, 128 bits. -/
  | amMadu (m : Mv)
  /-- R307. a + value × 2^(b[5:0]). -/
  | amLsa (m : Mv)
  /-- R308. (a + value) mod b, or mod 2^64 when b = 0. -/
  | amWrap (m : Mv)
  /-- R309. Writes index base xs, effective after 3 cycles. -/
  | amWxs (m : Mv)
  /-- R309. Writes index base xd. -/
  | amWxd (m : Mv)
  /-- R309. Writes index base xv. -/
  | amWxv (m : Mv)
  /-- R309. Writes index base xh. -/
  | amWxh (m : Mv)
  /-- R311. Jump to bundle value after 2 delay bundles. -/
  | brJmp (m : Mv)
  /-- R311. Call: br.lk := p + 4, and transfer after 3 delay bundles. -/
  | brCall (m : Mv)
  /-- R311. Return to bundle value after 3 delay bundles. -/
  | brRet (m : Mv)
  /-- R270. Repeats the next value bundles .a[31:0] times, with no overhead. -/
  | brLoop (m : Mv)
  /-- R312. Jumps if a = 0; always opens a 2-bundle shadow. -/
  | brJz (m : Mv)
  /-- R312. Jumps if a is nonzero. -/
  | brJnz (m : Mv)
  /-- R312. Jumps if a = b. -/
  | brJeq (m : Mv)
  /-- R312. Jumps if a differs from b. -/
  | brJne (m : Mv)
  /-- R312. Jumps if a < b, signed. -/
  | brJlt (m : Mv)
  /-- R312. Jumps if a >= b, signed. -/
  | brJge (m : Mv)
  /-- R312. Jumps if a < b, unsigned. -/
  | brJltu (m : Mv)
  /-- R312. Jumps if a >= b, unsigned. -/
  | brJgeu (m : Mv)
  /-- R316. The innermost loop ends after its current pass. -/
  | brLbrk (m : Mv)
  /-- R317. Writes br.lk := value[31:0] at t + 1. -/
  | brLkset (m : Mv)
  /-- R320. Loads a byte, zero-extended. -/
  | lsLd8 (u : BitVec 1) (m : Mv)
  /-- R320. Loads a byte, sign-extended. -/
  | lsLd8s (u : BitVec 1) (m : Mv)
  /-- R320. Loads 2 bytes, zero-extended. -/
  | lsLd16 (u : BitVec 1) (m : Mv)
  /-- R320. Loads 2 bytes, sign-extended. -/
  | lsLd16s (u : BitVec 1) (m : Mv)
  /-- R320. Loads 4 bytes, zero-extended. -/
  | lsLd32 (u : BitVec 1) (m : Mv)
  /-- R320. Loads 4 bytes, sign-extended. -/
  | lsLd32s (u : BitVec 1) (m : Mv)
  /-- R320. Loads 8 bytes. -/
  | lsLd64 (u : BitVec 1) (m : Mv)
  /-- R320. Loads 16 bytes. -/
  | lsLd128 (u : BitVec 1) (m : Mv)
  /-- R324. Loads 128 bytes, with the block scales on block-format pages. -/
  | lsLdvh (u : BitVec 1) (m : Mv)
  /-- R320. Loads 256 bytes. -/
  | lsLdv (u : BitVec 1) (m : Mv)
  /-- R320. Loads a word into all 64 lanes. -/
  | lsLdbc (u : BitVec 1) (m : Mv)
  /-- R320. Stores 1 byte. -/
  | lsSt8 (u : BitVec 1) (m : Mv)
  /-- R320. Stores 2 bytes. -/
  | lsSt16 (u : BitVec 1) (m : Mv)
  /-- R321. Stores 4 bytes: to a scratchpad, into an open patch, or as a swap on an ATOMIC page. -/
  | lsSt32 (u : BitVec 1) (m : Mv)
  /-- R320. Stores 8 bytes. -/
  | lsSt64 (u : BitVec 1) (m : Mv)
  /-- R320. Stores 16 bytes. -/
  | lsSt128 (u : BitVec 1) (m : Mv)
  /-- R324. Stores 128 bytes, with the block scales on block-format pages. -/
  | lsStvh (u : BitVec 1) (m : Mv)
  /-- R320. Stores 256 bytes. -/
  | lsStv (u : BitVec 1) (m : Mv)
  /-- R320. Stores the 4-byte lanes selected by the mask in .b. -/
  | lsStvm (u : BitVec 1) (m : Mv)
  /-- R320. Stores 256 zero bytes. -/
  | lsStz (u : BitVec 1) (m : Mv)
  /-- R346. Lanewise a + v. -/
  | vxAdd (m : Mv)
  /-- R346. Lanewise a - v. -/
  | vxSub (m : Mv)
  /-- R346. Lanewise a × v. -/
  | vxMul (m : Mv)
  /-- R345. a × b + v, rounded once, latency 6. -/
  | vxFma (m : Mv)
  /-- R345. a × b - v, rounded once. -/
  | vxFms (m : Mv)
  /-- R345. -(a × b) + v, rounded once. -/
  | vxFnma (m : Mv)
  /-- R346. Lanewise minimum under R74. -/
  | vxMin (m : Mv)
  /-- R346. Lanewise maximum under R74. -/
  | vxMax (m : Mv)
  /-- R346. Lanewise magnitude. -/
  | vxAbs (m : Mv)
  /-- R346. Lanewise negation. -/
  | vxNeg (m : Mv)
  /-- R347. Saturating integer addition. -/
  | vxAddsat (m : Mv)
  /-- R347. Saturating integer subtraction. -/
  | vxSubsat (m : Mv)
  /-- R347. High half of the integer product. -/
  | vxMulhi (m : Mv)
  /-- R346. Bitwise and over 256 bytes. -/
  | vxAnd (m : Mv)
  /-- R346. Bitwise or. -/
  | vxOr (m : Mv)
  /-- R346. Bitwise xor. -/
  | vxXor (m : Mv)
  /-- R346. a and not v. -/
  | vxAndn (m : Mv)
  /-- R348. Lanewise shift left. -/
  | vxShl (m : Mv)
  /-- R348. Lanewise logical shift right. -/
  | vxShr (m : Mv)
  /-- R348. Lanewise arithmetic shift right. -/
  | vxSar (m : Mv)
  /-- R349. Mask of lanes where a = v. -/
  | vxCeq (m : Mv)
  /-- R349. Mask of lanes where a differs from v. -/
  | vxCne (m : Mv)
  /-- R349. Mask of lanes where a < v. -/
  | vxClt (m : Mv)
  /-- R349. Mask of lanes where a <= v. -/
  | vxCle (m : Mv)
  /-- R349. Unsigned bit-pattern compare a < v. -/
  | vxCltu (m : Mv)
  /-- R349. Unsigned bit-pattern compare a <= v. -/
  | vxCleu (m : Mv)
  /-- R346. a where m is nonzero, else v. -/
  | vxSel (m : Mv)
  /-- R346. min(max(v, a), b). -/
  | vxClamp (m : Mv)
  /-- R346. Magnitude of a with the sign of v. -/
  | vxCopysign (m : Mv)
  /-- R346. |a - v|, rounded once. -/
  | vxAbsd (m : Mv)
  /-- R346. Set bits of each lane. -/
  | vxPopc (m : Mv)
  /-- R346. Integer (a + v + 1) >> 1. -/
  | vxAvg (m : Mv)
  /-- R346. Lane 0 of v in every lane. -/
  | vxBcast (m : Mv)
  /-- R346. Lane k := lane 0 of v + k. -/
  | vxIota (m : Mv)
  /-- R350. INT32 lane + four 8-bit products. -/
  | vxDot4 (m : Mv)
  /-- R350. FP32 lane + two 16-bit products, rounded once. -/
  | vxDot2 (m : Mv)
  /-- R351. Bitwise function of three inputs from an 8-bit table. -/
  | vsLut3 (m : Mv)
  /-- R351. Lanewise funnel shift left. -/
  | vsFsl (m : Mv)
  /-- R351. Lanewise funnel shift right. -/
  | vsFsr (m : Mv)
  /-- R351. Rotates lanes toward higher indices by n. -/
  | vsVrot (m : Mv)
  /-- R351. Moves lanes up by n, with zero fill. -/
  | vsVshl (m : Mv)
  /-- R351. Moves lanes down by n, with zero fill. -/
  | vsVshr (m : Mv)
  /-- R351. Lane permutation. -/
  | vsPerm (m : Mv)
  /-- R351. Byte permutation. -/
  | vsBperm (m : Mv)
  /-- R351. Packs the selected lanes low. -/
  | vsCompress (m : Mv)
  /-- R351. Spreads lanes to the selected positions. -/
  | vsExpand (m : Mv)
  /-- R352. Converts lanes from STYPE to TYPE, or copies them when the types are equal. -/
  | vsCvt (m : Mv)
  /-- R353. Converts blocks of 8 to ZB4. -/
  | vsCvtzb4 (m : Mv)
  /-- R353. Converts blocks of 32 to an MX format. -/
  | vsCvtmx (m : Mv)
  /-- R354. Exact sum of the lanes, rounded once, ignoring -0 padding. -/
  | vsRedsum (m : Mv)
  /-- R354. Maximum over the lanes. -/
  | vsRedmax (m : Mv)
  /-- R354. Minimum over the lanes. -/
  | vsRedmin (m : Mv)
  /-- R351. Bitwise and over the lanes. -/
  | vsRedand (m : Mv)
  /-- R351. Bitwise or over the lanes. -/
  | vsRedor (m : Mv)
  /-- R351. Bitwise xor over the lanes. -/
  | vsRedxor (m : Mv)
  /-- R351. Bit k := 1 where lane k is nonzero. -/
  | vsPack (m : Mv)
  /-- R351. Lane k := all ones where bit k is set. -/
  | vsUnpack (m : Mv)
  /-- R351. Table lookup over the 2L lanes of .a and .b. -/
  | vsTbl (m : Mv)
  /-- R355. Inclusive prefix sum, each step rounded. -/
  | vsScan (m : Mv)
  /-- R351. Interleaves the lanes of .a and value. -/
  | vsZip (m : Mv)
  /-- R351. Takes the even lanes of .a followed by value. -/
  | vsUnzip (m : Mv)
  /-- R351. Broadcasts lane n of .a. -/
  | vsBcastl (m : Mv)
  /-- R351. Extracts lane n as a scalar. -/
  | vsExtr (m : Mv)
  /-- R351. Inserts .b into lane n of .a. -/
  | vsInsr (m : Mv)
  /-- R351. Counts the nonzero lanes. -/
  | vsPcnt (m : Mv)
  /-- R351. Reverses the lane order. -/
  | vsRev (m : Mv)
  /-- R358. Allocates a run of free banks with exponent E, and returns the first bank. -/
  | mxAlloc (m : Mv)
  /-- R358. Releases banks held by the team. -/
  | mxFree (m : Mv)
  /-- R60. Renormalises one accumulator row. -/
  | mxNorm (m : Mv)
  /-- R360. Reads a row out in TYPE to mx.o. -/
  | mxRd (m : Mv)
  /-- R360. Sets a row from the lanes of .a. -/
  | mxWr (m : Mv)
  /-- R376. Routine 0x00: ZB4 or MXFP4 GEMM into the accumulator. -/
  | mmB4 (m : Mv)
  /-- R376. Routine 0x01: FP8 or MXFP8 GEMM. -/
  | mmF8 (m : Mv)
  /-- R376. Routine 0x02: INT8 or UINT8 GEMM. -/
  | mmI8 (m : Mv)
  /-- R376. Routine 0x03: INT16 GEMM. -/
  | mmI16 (m : Mv)
  /-- R376. Routine 0x04: BF16 or FP16 GEMM. -/
  | mmH (m : Mv)
  /-- R376. Routine 0x05: BF16 or FP16 GEMM with A transposed. -/
  | mmTn (m : Mv)
  /-- R63. Routine 0x06: recombined BF16 or FP16 GEMM on 128 × 128 tiles. -/
  | mmS (m : Mv)
  /-- R70. Routine 0x07: FP32 GEMM on three BF16 parts. -/
  | mmS3 (m : Mv)
  /-- R377. Routine 0x08: enters tile X into the accumulator. -/
  | accLd (m : Mv)
  /-- R377. Routine 0x09: writes the accumulator out to tile X in ATYPE. -/
  | accSt (m : Mv)
  /-- R377. Routine 0x0A: renormalises the rows of each block. -/
  | accNorm (m : Mv)
  /-- R377. Routine 0x0B: zeroes the elements of each tile. -/
  | accZero (m : Mv)
  /-- R102. Opens a named patch of a kind on a line, or onto a siding. -/
  | ecPopen (m : Mv)
  /-- R105. Closes the open patch, appending it at the tip or siding by the name table. -/
  | ecPclose (m : Mv)
  /-- R110. Swaps two adjacent commuting patches. -/
  | ecPcomm (m : Mv)
  /-- R111. Removes a chain patch that commutes with every later patch. -/
  | ecPinv (m : Mv)
  /-- R115. Makes the target line LIVE with the source base and its chain prefix. -/
  | ecPfork (m : Mv)
  /-- R116. Transplants a patch to the tip of another line. -/
  | ecPxpl (m : Mv)
  /-- R118. Moves the patches of the selected sidings onto the chain. -/
  | ecPfold (m : Mv)
  /-- R112. Squashes the chain into a new sealed base. -/
  | ecPsq (m : Mv)
  /-- R121. Registers a producer launch handle for a LIVE line. -/
  | ecPreg (m : Mv)
  /-- R121. Releases a line's base, chain and sidings; the line becomes DROPPED or VACANT. -/
  | ecPdrop (m : Mv)
  /-- R386. Freight copies and converts a nest of up to 6 dimensions. -/
  | ecCopy (m : Mv)
  /-- R386. Freight copies with dimensions 0 and 1 transposed. -/
  | ecTcopy (m : Mv)
  /-- R386. Freight fills the destination with raw bits from p0. -/
  | ecFill (m : Mv)
  /-- R394. Shuttle sends LEN bytes in chunks to a peer channel. -/
  | ecSend (m : Mv)
  /-- R394. Shuttle writes the matched incoming chunks in place. -/
  | ecRecv (m : Mv)
  /-- R394. Shuttle adds the incoming chunks into the destination. -/
  | ecRecva (m : Mv)
  /-- R394. Shuttle sends and receives with one peer. -/
  | ecStep (m : Mv)
  /-- R327. Waits for the word to be full, takes it and sets it empty. -/
  | syLdf (m : Mv)
  /-- R327. Waits for the word to be full and takes it, leaving it full. -/
  | syLdk (m : Mv)
  /-- R327. Waits for the word to be empty, stores it and sets it full. -/
  | syStf (m : Mv)
  /-- R327. Stores the word and sets it full without waiting. -/
  | syStx (m : Mv)
  /-- R329. Atomic swap returning the old word. -/
  | sySwap (m : Mv)
  /-- R329. Atomic compare-and-swap. -/
  | syCas (m : Mv)
  /-- R329. Returning integer atomic add. -/
  | syFadd (m : Mv)
  /-- R329. Returning FP32 atomic add. -/
  | syFaddf (m : Mv)
  /-- R329. Non-returning integer add. -/
  | syRadd (m : Mv)
  /-- R329. Non-returning FP32 add. -/
  | syRaddf (m : Mv)
  /-- R329. Non-returning INT32 maximum. -/
  | syRmax (m : Mv)
  /-- R329. Non-returning INT32 minimum. -/
  | syRmin (m : Mv)
  /-- R329. Non-returning FP32 maximum. -/
  | syRmaxf (m : Mv)
  /-- R329. Non-returning and. -/
  | syRand (m : Mv)
  /-- R329. Non-returning or. -/
  | syRor (m : Mv)
  /-- R329. Non-returning xor. -/
  | syRxor (m : Mv)
  /-- R139. Holds later memory bundles until earlier accesses are performed at the scope. -/
  | syFence (m : Mv)
  /-- R140. Holds until the pending-byte counter of the scope is 0. -/
  | syPwait (m : Mv)
  /-- R178. Fences at pkg and waits at the team barrier. -/
  | syTbar (m : Mv)
  /-- R179. Crew barrier: 1 for a member after all arrive, 0 at once for a non-member. -/
  | syCbar (m : Mv)
  /-- R179. Joins a crew. -/
  | syJoin (m : Mv)
  /-- R179. Leaves a crew. -/
  | syLeave (m : Mv)
  /-- R336. Returns a queue's entry count. -/
  | syQlen (m : Mv)
  /-- R336. Returns a queue's head entry without popping it. -/
  | syQpeek (m : Mv)
  /-- R186. Pops the eligible item of greatest gain, waiting if none is eligible. -/
  | sySpop (m : Mv)
  /-- R337. Pops an item, or answers 0xFFFF_FFFE at once when none is eligible. -/
  | sySpoll (m : Mv)
  /-- R185. Adds a delta to an item's gain exactly. -/
  | sySgadd (m : Mv)
  /-- R185. Sets an item's gain. -/
  | sySgset (m : Mv)
  /-- R187. Completes a popped item with a residual, updating the register and testing for the end. -/
  | sySdone (m : Mv)
  /-- R403. Ends the task after the exit checks. -/
  | sysExit (m : Mv)
  /-- R410. Arrives at the launch-wide step boundary and returns the step number. -/
  | sysStepb (m : Mv)
  /-- R409. Posts a launch packet and holds until Zitrum validates it. -/
  | sysLaunch (m : Mv)
  /-- R406. Trap-return: clears TACT, restores the snapshot and resumes at trap.pc. -/
  | sysTret (m : Mv)
  /-- R404. Sets or clears a trap vector. -/
  | sysVec (m : Mv)
  /-- R405. Writes a trap-record word. -/
  | sysTrw (m : Mv)
  /-- R407. Writes the S view base. -/
  | sysWvws (m : Mv)
  /-- R407. Writes the D view base. -/
  | sysWvwd (m : Mv)
  /-- R407. Writes the V view base. -/
  | sysWvwv (m : Mv)
  /-- R407. Writes the H view base. -/
  | sysWvwh (m : Mv)
  /-- R407. Reads a view base. -/
  | sysVwrd (m : Mv)
  /-- R408. Reads the flag word. -/
  | sysFlrd (m : Mv)
  /-- R408. Writes TEN and clears flags. -/
  | sysFlwr (m : Mv)
  /-- R411. Service 0x01: writes an attestation report. -/
  | sysSvcReport (m : Mv)
  /-- R411. Service 0x02: creates a shared window entry. -/
  | sysSvcShare (m : Mv)
  /-- R411. Service 0x03: revokes a shared window entry after host accesses drain. -/
  | sysSvcUnshare (m : Mv)
  /-- R412. Returns the die's order-log word. -/
  | sysLogc (m : Mv)
  /-- R414. Configures an event counter. -/
  | sysCtrcfg (m : Mv)
  /-- R414. Reads an event counter. -/
  | sysCtrrd (m : Mv)
  /-- R415. Treats the next bundle as blocked for one cycle, so the core switches context. -/
  | sysYield (m : Mv)
  /-- R193. Power is applied; the root-of-trust ROM starts from reset values and runs the boot steps. -/
  | powerUp
  /-- R193. A boot source's 30 s or 60 s limit expires; the source fails with FAIL 0x01 and the next source is taken. -/
  | bootFetchTimeout
  /-- R193. After every source has failed, the 10 s wait expires and the ROM starts again at step 2. -/
  | bootRetryWait
  /-- R197. The Stationmaster writes its SVN to the root of trust's ALIVE register, for a boot commit or a hand-over commit. -/
  | alivePost
  /-- R197. 2,000 ms after the Stationmaster starts, the boot commits to STATE 5, or fails with FAIL 0x07 and goes to the next source. -/
  | bootCommitDeadline
  /-- R197. A Stationmaster core's watchdog expires; before the deadline, the boot or hand-over fails. -/
  | stationmasterWatchdog
  /-- R433. The host link trains as PCIe 6.0 or CXL and comes up. -/
  | hostLinkUp
  /-- R435. A host write of 1 to STAGECTL.GO marks the staging window as holding an image, for the ROM or Zitrum to copy out and clear. -/
  | stageGo
  /-- R203. A host read or write through BAR2 reaches a shared window; an access outside a valid window gets an unsupported-request response. -/
  | hostWindowAccess
  /-- R8. A write to a register that has no row of its own acts by its field access codes. -/
  | hostRegisterWrite
  /-- R437. A host write of STATE 1 posts a request slot when it is FREE, or reposts it when it is DONE. -/
  | slotPost
  /-- R437. A host write of STATE 0 withdraws a POSTED request or frees a DONE slot. -/
  | slotFree
  /-- R437. A host write of STATE 2 to 255 to a FREE, POSTED or DONE slot completes it BADREQ with SUB 0x01. -/
  | slotBadState
  /-- R438. Request 0x01 posts a launch packet from the slot body; RES0 returns the LID. -/
  | launch
  /-- R438. Request 0x02 kills a launch and returns after its teams have ended. -/
  | kill
  /-- R438. Request 0x03 creates the lowest free compartment with the given record. -/
  | mkcomp
  /-- R438. Request 0x04 kills the compartment's launches, revokes its windows and erases its keys. -/
  | rmcomp
  /-- R438. Request 0x05 maps pages with the given descriptor fields and returns the first physical address. -/
  | map
  /-- R438. Request 0x06 removes pages and returns after the invalidation. -/
  | unmap
  /-- R438. Request 0x07 writes Timetable class blocks or the control word on the named dies, or is refused when it would break a limit. -/
  | budget
  /-- R438. Request 0x08 returns a signed attestation report for a compartment and a nonce. -/
  | report
  /-- R438. Request 0x09 stages a firmware image from the staging window for a hand-over. -/
  | stage
  /-- R438. Request 0x0A writes a checkpoint manifest with its bases and patches at a step boundary. -/
  | ckpt
  /-- R438. Request 0x0B abandons a step of a launch. -/
  | abandon
  /-- R438. Request 0x0C releases a launch's held order log. -/
  | logrel
  /-- R438. Request 0x0D sets PKGINFO, once per power-up. -/
  | pkgnum
  /-- R438. Request 0x0E returns shared-window entries. -/
  | winlist
  /-- R231. Request 0x0F restores a checkpoint into a compartment and resumes its launch. -/
  | restore
  /-- R444. A UDP datagram on port 7410 of a management port carries one request into Zitrum's queue. -/
  | mgmtRequest
  /-- R165. Zitrum takes the next packet from its queue, applies the checks in order, and accepts the packet with the next acceptance number or refuses it. -/
  | launchAcceptance
  /-- R184. At the start of a gain launch, Zitrum reads GAINS and distributes the items and residuals over the Setts. -/
  | settFill
  /-- R206. At each period boundary, remaining budgets reset with carried overdraft, new budgets and periods take effect, and held activities may proceed. -/
  | timetablePeriodBoundary
  /-- R235. The ALIVE deadline of a hand-over expires, and the hand-over commits or reverts. -/
  | handoverDeadline
  /-- R168. The Stationmaster writes a Board slot over the management fabric. -/
  | boardSlotWrite
  /-- R176. A team is stopped, waits for its counters and matrix calls, and is saved to its swap area. -/
  | swapOut
  /-- R176. A team is restored to the same cluster, cores and contexts, and resumes. -/
  | swapIn
  /-- R219. The Stationmaster stops a context at a bundle boundary outside a shadow and takes its snapshot. -/
  | preempt
  /-- R372. On resume, the core reissues a stopped matrix call from the restored parameters before the context's first bundle. -/
  | matrixCallReissue
  /-- R223. Zitrum ends the teams of a launch after a fatal trap or a kill, and TEAMDOWN goes to every member. -/
  | teamEnd
  /-- R223. A member still running 16,384 cycles after TEAMDOWN is stopped by Zitrum. -/
  | teamdownTimeout
  /-- R166. After the launch's last team leaves its Board, Zitrum writes the completion record, with word 7 last under release. -/
  | launchCompletion
  /-- R186. A waiting pop is given the eligible item of greatest gain when one becomes eligible, or the end value. -/
  | settPopAnswer
  /-- R227. When every task has arrived at sys.stepb, Zitrum drains, records name sets, saves teams, logs STEP and arms the journal. -/
  | stepBoundary
  /-- R229. Zitrum stops the launch, inverts the step's patches, restores journalled pages and teams, and reruns the step in replay. -/
  | stepAbandon
  /-- R92. The Stationmaster services a PAGE fault in a D = 1 range: it installs a descriptor, or declines so that PAGE is raised. -/
  | demandMapService
  /-- R93. An invalidation completes once every buffer has dropped the entries, old accesses have performed, and walks have restarted. -/
  | compartmentInvalidation
  /-- R122. A read of a DROPPED line holds its bundle, and the Stationmaster launches the line's producer once. -/
  | producerLaunch
  /-- R122. When the producer's launch ends, held reads are performed against the new chain, or raise RECOMPUTE. -/
  | producerComplete
  /-- R217. An instruction-store bundle that fails ECC is reloaded from IMAGE by Zitrum and issued, with no trap. -/
  | ibundleEccReload
  /-- R18. The Stationmaster substitutes a spare core for a numbered core of a cluster that no team is bound to. -/
  | coreSubstitute
  /-- R19. A numbered core fails: it stops and is marked absent, and its team is restored or its launch ended. -/
  | coreFailure
  /-- R265. A context's bundle is decoded, guarded, checked, blocked or issued; a blocked bundle retries in a later cycle. -/
  | bundleIssue
  /-- R22. After 4,096 consecutive bundles, the core switches to another ready context. -/
  | fairnessLimit
  /-- R260. A fixed-latency result lands in its result port and write-back register at its scheduled cycle. -/
  | resultLanding
  /-- R262. A variable-latency value arrives, and its register becomes full or failed from the next cycle. -/
  | variableArrival
  /-- R252. At its expiry cycle, an ephemeral register unit becomes empty. -/
  | ephemeralExpiry
  /-- R323. A cluster-path access is accepted by the target arbiter, which releases the held bundle. -/
  | clusterAccessAccept
  /-- R130. A global write is accepted into its memory port's write queue and becomes visible to all. -/
  | globalWritePerformed
  /-- R135. An atomic executes in its memory port's write queue or at its arbiter, with reductions merged in plain modes. -/
  | atomicQueuePerform
  /-- R136. In deterministic mode, a non-returning reduction arrives and is held in its bank's holding buffer. -/
  | reductionHold
  /-- R107. A read of a LINED page is ordered at the home Badger and walks the chain. -/
  | chainRead
  /-- R103. A write into an open patch arrives at the home Badger and extends its footprint and payload. -/
  | patchWriteArrival
  /-- R390. Freight performs one burst of up to 4 KiB of a command's elements, charged at its start. -/
  | freightBurst
  /-- R382. A data command reaches its completion point and pushes or discards its status. -/
  | dataCommandRetire
  /-- R335. An engine status held for a full queue is pushed when the queue has room. -/
  | statusPushWait
  /-- R393. The n-th send on a channel matches the peer's n-th receive, or both retire MISMATCH. -/
  | shuttleMatch
  /-- R395. A whole chunk that passes its CRC is written or added in one burst. -/
  | shuttleChunkArrival
  /-- R384. The receiving package acknowledges a sent chunk, and its bytes are performed at sys. -/
  | shuttleChunkAck
  /-- R396. A peer is declared lost after 1 ms unacknowledged, a teardown or a TAG failure, and its commands retire PARTIAL or LINKLOST. -/
  | peerLost
  /-- R366. A matrix step begins once its operands have been loaded. -/
  | matrixStepBegin
  /-- R366. A step ends at a row-progress boundary, with its clamp check and flags, and the call completes or goes on. -/
  | matrixStepEnd
  /-- R443. A Nimmet port trains, exchanges PKG and port, and changes state. -/
  | nimmetLinkTrain
  /-- R204. The roots of trust exchange reports and ML-KEM encapsulations to set up a session. -/
  | nimmetSessionSetup
  /-- R204. A session is rekeyed before its frame counter reaches 2^48. -/
  | sessionRekey
  /-- R442. A frame is received: delivered in sequence once, or discarded on a CRC or tag failure. -/
  | nimmetFrameReceive
  /-- R442. An unacknowledged frame is resent. -/
  | nimmetFrameResend
  /-- R441. A CXL port whose link is down, or that misses 10 ms, is marked failed until power-up. -/
  | secondTierPortFail
  /-- R445. At 100 °C Zitrum posts a thermal notice. -/
  | thermalWarning
  /-- R445. At 110 °C the package removes core power and loses all state. -/
  | thermalShutdown
  /-- R193. A boot image fetched by TFTP over a management port arrives whole and goes to verification. -/
  | tftpImageArrival
  /-- R91. A walk of the die's shared walker ends with a translation or a fault, answering every access that joined it so that the waiting bundles issue or fault. -/
  | translationWalkEnd
  /-- R190. The receiving Sett inserts the items of a rebalance move, which stop being in transit and become eligible. -/
  | receiverInsertsItems
  /-- R447. A word of scratchpad, HBM or second-tier memory takes an uncorrectable error and becomes a failing word. -/
  | uncorrectableError
  /-- R9. Power is removed from the package, and all its state is lost until the next power-up. -/
  | powerRemoved
  deriving DecidableEq, Repr

end Sys2Proof
end

