-- ==== Sys2Proof/Machine/Ports.lean ====
section
/-! DEFINITION. The port map (R245, R254, R258, R288, R300, R301): which source and destination numbers
are assigned, and how many bytes wide each port is. -/

namespace Sys2Proof.Machine

/-- R245. A port number below 0x200 names a register, as a source and as a destination. -/
def isRegPort (p : Nat) : Bool := decide (p < 0x200)

/-- R245. Bytes of the view that a register port names: S 4, D 8, V 256, H 2 (VIEW = bits [7:6]). -/
def viewBytes (view : Nat) : Nat :=
  match view with
  | 0 => 4
  | 1 => 8
  | 2 => 256
  | _ => 2

/-- R245. VIEW of a register port. -/
def portView (p : Nat) : Nat := (p / 64) % 4

/-- R300. Width in bytes of a result port; `none` for a reserved one. -/
def resultWidth (p : Nat) : Option Nat :=
  match p with
  | 0x200 => some 8
  | 0x210 => some 8
  | 0x220 => some 8
  | 0x221 => some 8
  | 0x230 => some 4
  | 0x240 => some 256
  | 0x250 => some 256
  | 0x260 => some 256
  | 0x270 => some 256
  | 0x280 => some 8
  | 0x281 => some 8
  | 0x282 => some 256
  | 0x290 => some 8
  | 0x2A0 => some 8
  | 0x2B0 => some 8
  | _ => none

/-- R301. Width in bytes of a state port; `none` for a reserved one. -/
def stateWidth (p : Nat) : Option Nat :=
  if 0x3C0 ≤ p ∧ p ≤ 0x3CB then some 4
  else if 0x3D0 ≤ p ∧ p ≤ 0x3D2 then some 4
  else if p = 0x3D3 ∨ p = 0x3D4 then some 8
  else none

/-- R254, R271. The source ports that are assigned. -/
def srcAssigned (p : Nat) : Bool :=
  isRegPort p || (resultWidth p).isSome || decide (0x300 ≤ p ∧ p ≤ 0x342) ||
    decide (0x380 ≤ p ∧ p ≤ 0x38F) || (stateWidth p).isSome

/-- R288. Width in bytes of a unit operand port, by destination number; `none` if the number is no
operand port. -/
def operandWidth (p : Nat) : Option Nat :=
  if 0x200 ≤ p ∧ p ≤ 0x202 then some 8              -- ia0 .a .b .w
  else if 0x220 ≤ p ∧ p ≤ 0x222 then some 8         -- ia1
  else if 0x240 ≤ p ∧ p ≤ 0x242 then some 8         -- am
  else if 0x260 ≤ p ∧ p ≤ 0x261 then some 8         -- br .a .b
  else if p = 0x280 ∨ p = 0x2A0 then some 256       -- ls .a
  else if 0x281 ≤ p ∧ p ≤ 0x282 then some 8         -- ls0 .b .w
  else if 0x2A1 ≤ p ∧ p ≤ 0x2A2 then some 8         -- ls1 .b .w
  else if 0x2C0 ≤ p ∧ p ≤ 0x2C2 then some 256       -- vx .a .b .m
  else if p = 0x2C3 then some 8                     -- vx .ty
  else if p = 0x2C4 ∨ p = 0x2C5 then some 4         -- vx .sd .ix
  else if p = 0x2C6 then some 8                     -- vx .w
  else if 0x300 ≤ p ∧ p ≤ 0x303 then some 256       -- vs .a .b .c .m
  else if p = 0x304 then some 8                     -- vs .ty
  else if p = 0x305 ∨ p = 0x306 then some 4         -- vs .sd .ix
  else if p = 0x307 then some 8                     -- vs .w
  else if 0x340 ≤ p ∧ p ≤ 0x347 then some 8         -- mp0 to mp7
  else if p = 0x348 then some 256                   -- mx .a
  else if 0x349 ≤ p ∧ p ≤ 0x34A then some 8         -- mx .ty .w
  else if 0x360 ≤ p ∧ p ≤ 0x368 then some 8         -- ec.p0 to ec.p7, ec.w
  else if 0x380 ≤ p ∧ p ≤ 0x382 then some 8         -- sy .a .b .w
  else if 0x3A0 ≤ p ∧ p ≤ 0x3A2 then some 8         -- sys .a .b .w
  else none

/-- R261, R288. The write-back operand ports, whose value at bind is 0x3FF. -/
def isWbPort (p : Nat) : Bool :=
  p == 0x202 || p == 0x222 || p == 0x242 || p == 0x282 || p == 0x2A2 || p == 0x2C6 || p == 0x307 ||
    p == 0x34A || p == 0x368 || p == 0x382 || p == 0x3A2

/-- R259, R288. What an operand port holds at a member's first bind. -/
def operandReset (p : Nat) : Vec := if isWbPort p then 0x3FF else 0

end Sys2Proof.Machine
end

