-- ==== Sys2Proof/WellFormed.lean ====
section
/-! DEFINITION. Which terms of Instr the spec's encodings can express. -/

namespace Sys2Proof

open Machine (srcAssigned isRegPort operandWidth)

/-- R254, R271. The move names an assigned source. -/
def Mv.srcOk (m : Mv) : Bool := srcAssigned m.s.toNat

/-- R242. F = 1 is refused where neither the source nor the destination is a register. -/
def Mv.fOk (m : Mv) (dstIsReg : Bool) : Bool := !m.f || isRegPort m.s.toNat || dstIsReg

/-- A move into a port that is no register. -/
def Mv.wf (m : Mv) : Bool := m.srcOk && m.fOk false

/-- An instruction term that some encoding, or some event, of the spec stands for. Every trigger row
asks the same of its move; the destination rows ask for an assigned destination as well. An event
row has no operand of its own. -/
def Instr.wf : Instr → Bool
  | .moveRegister _ m => m.srcOk && m.fOk true
  | .operandPortWrite d m => (operandWidth d.toNat).isSome && m.wf
  | .guardWrite d m => d != 0 && m.wf
  | .queuePush _ m => m.wf
  | .moveNul m => m.wf
  | .iaAdd _ m => m.wf
  | .iaSub _ m => m.wf
  | .iaAnd _ m => m.wf
  | .iaOr _ m => m.wf
  | .iaXor _ m => m.wf
  | .iaAndn _ m => m.wf
  | .iaShl _ m => m.wf
  | .iaShr _ m => m.wf
  | .iaSar _ m => m.wf
  | .iaRotl _ m => m.wf
  | .iaMin _ m => m.wf
  | .iaMax _ m => m.wf
  | .iaMinu _ m => m.wf
  | .iaMaxu _ m => m.wf
  | .iaEq _ m => m.wf
  | .iaNe _ m => m.wf
  | .iaLt _ m => m.wf
  | .iaLtu _ m => m.wf
  | .iaLe _ m => m.wf
  | .iaLeu _ m => m.wf
  | .iaSel _ m => m.wf
  | .iaExt _ m => m.wf
  | .iaClz _ m => m.wf
  | .iaPopc _ m => m.wf
  | .amAdd m => m.wf
  | .amSub m => m.wf
  | .amMul m => m.wf
  | .amMulu m => m.wf
  | .amMad m => m.wf
  | .amMadu m => m.wf
  | .amLsa m => m.wf
  | .amWrap m => m.wf
  | .amWxs m => m.wf
  | .amWxd m => m.wf
  | .amWxv m => m.wf
  | .amWxh m => m.wf
  | .brJmp m => m.wf
  | .brCall m => m.wf
  | .brRet m => m.wf
  | .brLoop m => m.wf
  | .brJz m => m.wf
  | .brJnz m => m.wf
  | .brJeq m => m.wf
  | .brJne m => m.wf
  | .brJlt m => m.wf
  | .brJge m => m.wf
  | .brJltu m => m.wf
  | .brJgeu m => m.wf
  | .brLbrk m => m.wf
  | .brLkset m => m.wf
  | .lsLd8 _ m => m.wf
  | .lsLd8s _ m => m.wf
  | .lsLd16 _ m => m.wf
  | .lsLd16s _ m => m.wf
  | .lsLd32 _ m => m.wf
  | .lsLd32s _ m => m.wf
  | .lsLd64 _ m => m.wf
  | .lsLd128 _ m => m.wf
  | .lsLdvh _ m => m.wf
  | .lsLdv _ m => m.wf
  | .lsLdbc _ m => m.wf
  | .lsSt8 _ m => m.wf
  | .lsSt16 _ m => m.wf
  | .lsSt32 _ m => m.wf
  | .lsSt64 _ m => m.wf
  | .lsSt128 _ m => m.wf
  | .lsStvh _ m => m.wf
  | .lsStv _ m => m.wf
  | .lsStvm _ m => m.wf
  | .lsStz _ m => m.wf
  | .vxAdd m => m.wf
  | .vxSub m => m.wf
  | .vxMul m => m.wf
  | .vxFma m => m.wf
  | .vxFms m => m.wf
  | .vxFnma m => m.wf
  | .vxMin m => m.wf
  | .vxMax m => m.wf
  | .vxAbs m => m.wf
  | .vxNeg m => m.wf
  | .vxAddsat m => m.wf
  | .vxSubsat m => m.wf
  | .vxMulhi m => m.wf
  | .vxAnd m => m.wf
  | .vxOr m => m.wf
  | .vxXor m => m.wf
  | .vxAndn m => m.wf
  | .vxShl m => m.wf
  | .vxShr m => m.wf
  | .vxSar m => m.wf
  | .vxCeq m => m.wf
  | .vxCne m => m.wf
  | .vxClt m => m.wf
  | .vxCle m => m.wf
  | .vxCltu m => m.wf
  | .vxCleu m => m.wf
  | .vxSel m => m.wf
  | .vxClamp m => m.wf
  | .vxCopysign m => m.wf
  | .vxAbsd m => m.wf
  | .vxPopc m => m.wf
  | .vxAvg m => m.wf
  | .vxBcast m => m.wf
  | .vxIota m => m.wf
  | .vxDot4 m => m.wf
  | .vxDot2 m => m.wf
  | .vsLut3 m => m.wf
  | .vsFsl m => m.wf
  | .vsFsr m => m.wf
  | .vsVrot m => m.wf
  | .vsVshl m => m.wf
  | .vsVshr m => m.wf
  | .vsPerm m => m.wf
  | .vsBperm m => m.wf
  | .vsCompress m => m.wf
  | .vsExpand m => m.wf
  | .vsCvt m => m.wf
  | .vsCvtzb4 m => m.wf
  | .vsCvtmx m => m.wf
  | .vsRedsum m => m.wf
  | .vsRedmax m => m.wf
  | .vsRedmin m => m.wf
  | .vsRedand m => m.wf
  | .vsRedor m => m.wf
  | .vsRedxor m => m.wf
  | .vsPack m => m.wf
  | .vsUnpack m => m.wf
  | .vsTbl m => m.wf
  | .vsScan m => m.wf
  | .vsZip m => m.wf
  | .vsUnzip m => m.wf
  | .vsBcastl m => m.wf
  | .vsExtr m => m.wf
  | .vsInsr m => m.wf
  | .vsPcnt m => m.wf
  | .vsRev m => m.wf
  | .mxAlloc m => m.wf
  | .mxFree m => m.wf
  | .mxNorm m => m.wf
  | .mxRd m => m.wf
  | .mxWr m => m.wf
  | .mmB4 m => m.wf
  | .mmF8 m => m.wf
  | .mmI8 m => m.wf
  | .mmI16 m => m.wf
  | .mmH m => m.wf
  | .mmTn m => m.wf
  | .mmS m => m.wf
  | .mmS3 m => m.wf
  | .accLd m => m.wf
  | .accSt m => m.wf
  | .accNorm m => m.wf
  | .accZero m => m.wf
  | .ecPopen m => m.wf
  | .ecPclose m => m.wf
  | .ecPcomm m => m.wf
  | .ecPinv m => m.wf
  | .ecPfork m => m.wf
  | .ecPxpl m => m.wf
  | .ecPfold m => m.wf
  | .ecPsq m => m.wf
  | .ecPreg m => m.wf
  | .ecPdrop m => m.wf
  | .ecCopy m => m.wf
  | .ecTcopy m => m.wf
  | .ecFill m => m.wf
  | .ecSend m => m.wf
  | .ecRecv m => m.wf
  | .ecRecva m => m.wf
  | .ecStep m => m.wf
  | .syLdf m => m.wf
  | .syLdk m => m.wf
  | .syStf m => m.wf
  | .syStx m => m.wf
  | .sySwap m => m.wf
  | .syCas m => m.wf
  | .syFadd m => m.wf
  | .syFaddf m => m.wf
  | .syRadd m => m.wf
  | .syRaddf m => m.wf
  | .syRmax m => m.wf
  | .syRmin m => m.wf
  | .syRmaxf m => m.wf
  | .syRand m => m.wf
  | .syRor m => m.wf
  | .syRxor m => m.wf
  | .syFence m => m.wf
  | .syPwait m => m.wf
  | .syTbar m => m.wf
  | .syCbar m => m.wf
  | .syJoin m => m.wf
  | .syLeave m => m.wf
  | .syQlen m => m.wf
  | .syQpeek m => m.wf
  | .sySpop m => m.wf
  | .sySpoll m => m.wf
  | .sySgadd m => m.wf
  | .sySgset m => m.wf
  | .sySdone m => m.wf
  | .sysExit m => m.wf
  | .sysStepb m => m.wf
  | .sysLaunch m => m.wf
  | .sysTret m => m.wf
  | .sysVec m => m.wf
  | .sysTrw m => m.wf
  | .sysWvws m => m.wf
  | .sysWvwd m => m.wf
  | .sysWvwv m => m.wf
  | .sysWvwh m => m.wf
  | .sysVwrd m => m.wf
  | .sysFlrd m => m.wf
  | .sysFlwr m => m.wf
  | .sysSvcReport m => m.wf
  | .sysSvcShare m => m.wf
  | .sysSvcUnshare m => m.wf
  | .sysLogc m => m.wf
  | .sysCtrcfg m => m.wf
  | .sysCtrrd m => m.wf
  | .sysYield m => m.wf
  | .powerUp => true
  | .bootFetchTimeout => true
  | .bootRetryWait => true
  | .alivePost => true
  | .bootCommitDeadline => true
  | .stationmasterWatchdog => true
  | .hostLinkUp => true
  | .stageGo => true
  | .hostWindowAccess => true
  | .hostRegisterWrite => true
  | .slotPost => true
  | .slotFree => true
  | .slotBadState => true
  | .launch => true
  | .kill => true
  | .mkcomp => true
  | .rmcomp => true
  | .map => true
  | .unmap => true
  | .budget => true
  | .report => true
  | .stage => true
  | .ckpt => true
  | .abandon => true
  | .logrel => true
  | .pkgnum => true
  | .winlist => true
  | .restore => true
  | .mgmtRequest => true
  | .launchAcceptance => true
  | .settFill => true
  | .timetablePeriodBoundary => true
  | .handoverDeadline => true
  | .boardSlotWrite => true
  | .swapOut => true
  | .swapIn => true
  | .preempt => true
  | .matrixCallReissue => true
  | .teamEnd => true
  | .teamdownTimeout => true
  | .launchCompletion => true
  | .settPopAnswer => true
  | .stepBoundary => true
  | .stepAbandon => true
  | .demandMapService => true
  | .compartmentInvalidation => true
  | .producerLaunch => true
  | .producerComplete => true
  | .ibundleEccReload => true
  | .coreSubstitute => true
  | .coreFailure => true
  | .bundleIssue => true
  | .fairnessLimit => true
  | .resultLanding => true
  | .variableArrival => true
  | .ephemeralExpiry => true
  | .clusterAccessAccept => true
  | .globalWritePerformed => true
  | .atomicQueuePerform => true
  | .reductionHold => true
  | .chainRead => true
  | .patchWriteArrival => true
  | .freightBurst => true
  | .dataCommandRetire => true
  | .statusPushWait => true
  | .shuttleMatch => true
  | .shuttleChunkArrival => true
  | .shuttleChunkAck => true
  | .peerLost => true
  | .matrixStepBegin => true
  | .matrixStepEnd => true
  | .nimmetLinkTrain => true
  | .nimmetSessionSetup => true
  | .sessionRekey => true
  | .nimmetFrameReceive => true
  | .nimmetFrameResend => true
  | .secondTierPortFail => true
  | .thermalWarning => true
  | .thermalShutdown => true
  | .tftpImageArrival => true
  | .translationWalkEnd => true
  | .receiverInsertsItems => true
  | .uncorrectableError => true
  | .powerRemoved => true

end Sys2Proof
end

