-- ==== Sys2Proof/Decode.lean ====
section
/-! DEFINITION. The decoder of a move (R240, R254, R258, R271), total on any 24 bits and rejecting by
name, and after it the encoder, written from the same tables.

One port can stand for several rows of the opcode table: `mx.call` (DST 0x350) starts the routine that
the TRIGGER VALUE names (R357, R374) and `sys.svc` (DST 0x3B1) the service that it names (R411). A word
alone does not hold that value, so the decoder answers the first row of the port, and `portRow` says
which row that is; the row proper is found when the move's value is known (Machine/Issue.lean). -/

namespace Sys2Proof

/-- Why a 24-bit word is no move (R271). -/
inductive Reject where
  /-- R271: a reserved source port; ILLPORT with [8] = 0. -/
  | badSrc (port : Nat)
  /-- R271: an unassigned destination port; ILLPORT with [8] = 1. -/
  | badDst (port : Nat)
  /-- R242: F = 1 with neither a register source nor a register destination; ILLMOVE. -/
  | illMove
  deriving DecidableEq, Repr

/-- Bits [hi:lo] of a number (R5). -/
def bits (x hi lo : Nat) : Nat := (x >>> lo) % 2 ^ (hi + 1 - lo)

/-- R240. The move fields of a 24-bit word. -/
def mvOfWord (w : Nat) : Mv :=
  { g := BitVec.ofNat 3 (bits w 23 21), s := BitVec.ofNat 10 (bits w 20 11), f := bits w 0 0 == 1 }

/-- Trigger offsets of the integer units (R290, R304). -/
def decodeIa (off : Nat) (u : BitVec 1) (m : Mv) : Option Instr :=
  match off with
  | 0x08 => some (.iaAdd u m)
  | 0x09 => some (.iaSub u m)
  | 0x0A => some (.iaAnd u m)
  | 0x0B => some (.iaOr u m)
  | 0x0C => some (.iaXor u m)
  | 0x0D => some (.iaAndn u m)
  | 0x0E => some (.iaShl u m)
  | 0x0F => some (.iaShr u m)
  | 0x10 => some (.iaSar u m)
  | 0x11 => some (.iaRotl u m)
  | 0x12 => some (.iaMin u m)
  | 0x13 => some (.iaMax u m)
  | 0x14 => some (.iaMinu u m)
  | 0x15 => some (.iaMaxu u m)
  | 0x16 => some (.iaEq u m)
  | 0x17 => some (.iaNe u m)
  | 0x18 => some (.iaLt u m)
  | 0x19 => some (.iaLtu u m)
  | 0x1A => some (.iaLe u m)
  | 0x1B => some (.iaLeu u m)
  | 0x1C => some (.iaSel u m)
  | 0x1D => some (.iaExt u m)
  | 0x1E => some (.iaClz u m)
  | 0x1F => some (.iaPopc u m)
  | _ => none

/-- Trigger offsets of `am` (R291, R307). -/
def decodeAm (off : Nat) (m : Mv) : Option Instr :=
  match off with
  | 0x04 => some (.amAdd m)
  | 0x05 => some (.amSub m)
  | 0x06 => some (.amMul m)
  | 0x07 => some (.amMulu m)
  | 0x08 => some (.amMad m)
  | 0x09 => some (.amMadu m)
  | 0x0A => some (.amLsa m)
  | 0x0B => some (.amWrap m)
  | 0x0C => some (.amWxs m)
  | 0x0D => some (.amWxd m)
  | 0x0E => some (.amWxv m)
  | 0x0F => some (.amWxh m)
  | _ => none

/-- Trigger offsets of `br` (R292, R310). -/
def decodeBr (off : Nat) (m : Mv) : Option Instr :=
  match off with
  | 0x04 => some (.brJmp m)
  | 0x05 => some (.brCall m)
  | 0x06 => some (.brRet m)
  | 0x07 => some (.brLoop m)
  | 0x08 => some (.brJz m)
  | 0x09 => some (.brJnz m)
  | 0x0A => some (.brJeq m)
  | 0x0B => some (.brJne m)
  | 0x0C => some (.brJlt m)
  | 0x0D => some (.brJge m)
  | 0x0E => some (.brJltu m)
  | 0x0F => some (.brJgeu m)
  | 0x10 => some (.brLbrk m)
  | 0x11 => some (.brLkset m)
  | _ => none

/-- Trigger offsets of the load and store units (R293, R320). -/
def decodeLs (off : Nat) (u : BitVec 1) (m : Mv) : Option Instr :=
  match off with
  | 0x04 => some (.lsLd8 u m)
  | 0x05 => some (.lsLd8s u m)
  | 0x06 => some (.lsLd16 u m)
  | 0x07 => some (.lsLd16s u m)
  | 0x08 => some (.lsLd32 u m)
  | 0x09 => some (.lsLd32s u m)
  | 0x0A => some (.lsLd64 u m)
  | 0x0B => some (.lsLd128 u m)
  | 0x0C => some (.lsLdvh u m)
  | 0x0D => some (.lsLdv u m)
  | 0x0E => some (.lsLdbc u m)
  | 0x0F => some (.lsSt8 u m)
  | 0x10 => some (.lsSt16 u m)
  | 0x11 => some (.lsSt32 u m)
  | 0x12 => some (.lsSt64 u m)
  | 0x13 => some (.lsSt128 u m)
  | 0x14 => some (.lsStvh u m)
  | 0x15 => some (.lsStv u m)
  | 0x16 => some (.lsStvm u m)
  | 0x17 => some (.lsStz u m)
  | _ => none

/-- Trigger offsets of `vx`, both blocks (R294, R346). -/
def decodeVx (off : Nat) (m : Mv) : Option Instr :=
  match off with
  | 0x08 => some (.vxAdd m)
  | 0x09 => some (.vxSub m)
  | 0x0A => some (.vxMul m)
  | 0x0B => some (.vxFma m)
  | 0x0C => some (.vxFms m)
  | 0x0D => some (.vxFnma m)
  | 0x0E => some (.vxMin m)
  | 0x0F => some (.vxMax m)
  | 0x10 => some (.vxAbs m)
  | 0x11 => some (.vxNeg m)
  | 0x12 => some (.vxAddsat m)
  | 0x13 => some (.vxSubsat m)
  | 0x14 => some (.vxMulhi m)
  | 0x15 => some (.vxAnd m)
  | 0x16 => some (.vxOr m)
  | 0x17 => some (.vxXor m)
  | 0x18 => some (.vxAndn m)
  | 0x19 => some (.vxShl m)
  | 0x1A => some (.vxShr m)
  | 0x1B => some (.vxSar m)
  | 0x1C => some (.vxCeq m)
  | 0x1D => some (.vxCne m)
  | 0x1E => some (.vxClt m)
  | 0x1F => some (.vxCle m)
  | 0x20 => some (.vxCltu m)
  | 0x21 => some (.vxCleu m)
  | 0x22 => some (.vxSel m)
  | 0x23 => some (.vxClamp m)
  | 0x24 => some (.vxCopysign m)
  | 0x25 => some (.vxAbsd m)
  | 0x26 => some (.vxPopc m)
  | 0x27 => some (.vxAvg m)
  | 0x28 => some (.vxBcast m)
  | 0x29 => some (.vxIota m)
  | 0x2A => some (.vxDot4 m)
  | 0x2B => some (.vxDot2 m)
  | _ => none

/-- Trigger offsets of `vs`, both blocks (R295, R351). -/
def decodeVs (off : Nat) (m : Mv) : Option Instr :=
  match off with
  | 0x08 => some (.vsLut3 m)
  | 0x09 => some (.vsFsl m)
  | 0x0A => some (.vsFsr m)
  | 0x0B => some (.vsVrot m)
  | 0x0C => some (.vsVshl m)
  | 0x0D => some (.vsVshr m)
  | 0x0E => some (.vsPerm m)
  | 0x0F => some (.vsBperm m)
  | 0x10 => some (.vsCompress m)
  | 0x11 => some (.vsExpand m)
  | 0x12 => some (.vsCvt m)
  | 0x13 => some (.vsCvtzb4 m)
  | 0x14 => some (.vsCvtmx m)
  | 0x15 => some (.vsRedsum m)
  | 0x16 => some (.vsRedmax m)
  | 0x17 => some (.vsRedmin m)
  | 0x18 => some (.vsRedand m)
  | 0x19 => some (.vsRedor m)
  | 0x1A => some (.vsRedxor m)
  | 0x1B => some (.vsPack m)
  | 0x1C => some (.vsUnpack m)
  | 0x1D => some (.vsTbl m)
  | 0x1E => some (.vsScan m)
  | 0x1F => some (.vsZip m)
  | 0x20 => some (.vsUnzip m)
  | 0x21 => some (.vsBcastl m)
  | 0x22 => some (.vsExtr m)
  | 0x23 => some (.vsInsr m)
  | 0x24 => some (.vsPcnt m)
  | 0x25 => some (.vsRev m)
  | _ => none

/-- Trigger offsets of `mx` (R296, R357). -/
def decodeMx (off : Nat) (m : Mv) : Option Instr :=
  match off with
  | 0x10 => some (.mmB4 m)
  | 0x11 => some (.mxAlloc m)
  | 0x12 => some (.mxFree m)
  | 0x13 => some (.mxNorm m)
  | 0x14 => some (.mxRd m)
  | 0x15 => some (.mxWr m)
  | _ => none

/-- Trigger offsets of `ec` (R297, R379). -/
def decodeEc (off : Nat) (m : Mv) : Option Instr :=
  match off with
  | 0x0A => some (.ecPopen m)
  | 0x0B => some (.ecPclose m)
  | 0x0C => some (.ecPcomm m)
  | 0x0D => some (.ecPinv m)
  | 0x0E => some (.ecPfork m)
  | 0x0F => some (.ecPxpl m)
  | 0x10 => some (.ecPfold m)
  | 0x11 => some (.ecPsq m)
  | 0x12 => some (.ecPreg m)
  | 0x13 => some (.ecPdrop m)
  | 0x14 => some (.ecCopy m)
  | 0x15 => some (.ecTcopy m)
  | 0x16 => some (.ecFill m)
  | 0x17 => some (.ecSend m)
  | 0x18 => some (.ecRecv m)
  | 0x19 => some (.ecRecva m)
  | 0x1A => some (.ecStep m)
  | _ => none

/-- Trigger offsets of `sy` (R298). -/
def decodeSy (off : Nat) (m : Mv) : Option Instr :=
  match off with
  | 0x03 => some (.syLdf m)
  | 0x04 => some (.syLdk m)
  | 0x05 => some (.syStf m)
  | 0x06 => some (.syStx m)
  | 0x07 => some (.sySwap m)
  | 0x08 => some (.syCas m)
  | 0x09 => some (.syFadd m)
  | 0x0A => some (.syFaddf m)
  | 0x0B => some (.syRadd m)
  | 0x0C => some (.syRaddf m)
  | 0x0D => some (.syRmax m)
  | 0x0E => some (.syRmin m)
  | 0x0F => some (.syRmaxf m)
  | 0x10 => some (.syRand m)
  | 0x11 => some (.syRor m)
  | 0x12 => some (.syRxor m)
  | 0x13 => some (.syFence m)
  | 0x14 => some (.syPwait m)
  | 0x15 => some (.syTbar m)
  | 0x16 => some (.syCbar m)
  | 0x17 => some (.syJoin m)
  | 0x18 => some (.syLeave m)
  | 0x19 => some (.syQlen m)
  | 0x1A => some (.syQpeek m)
  | 0x1B => some (.sySpop m)
  | 0x1C => some (.sySpoll m)
  | 0x1D => some (.sySgadd m)
  | 0x1E => some (.sySgset m)
  | 0x1F => some (.sySdone m)
  | _ => none

/-- Trigger offsets of `sys` (R299, R401). -/
def decodeSys (off : Nat) (m : Mv) : Option Instr :=
  match off with
  | 0x04 => some (.sysExit m)
  | 0x05 => some (.sysStepb m)
  | 0x06 => some (.sysLaunch m)
  | 0x07 => some (.sysTret m)
  | 0x08 => some (.sysVec m)
  | 0x09 => some (.sysTrw m)
  | 0x0A => some (.sysWvws m)
  | 0x0B => some (.sysWvwd m)
  | 0x0C => some (.sysWvwv m)
  | 0x0D => some (.sysWvwh m)
  | 0x0E => some (.sysVwrd m)
  | 0x0F => some (.sysFlrd m)
  | 0x10 => some (.sysFlwr m)
  | 0x11 => some (.sysSvcReport m)
  | 0x12 => some (.sysLogc m)
  | 0x13 => some (.sysCtrcfg m)
  | 0x14 => some (.sysCtrrd m)
  | 0x15 => some (.sysYield m)
  | _ => none

/-- R258, R259. The trigger that a destination number names. Offsets are counted from the block's base;
`ia0` and `ia1`, and `ls0` and `ls1`, have identical maps, and `vx` and `vs` span two blocks each. -/
def decodeTrigger (dst : Nat) (m : Mv) : Option Instr :=
  if dst < 0x200 then none
  else if dst < 0x220 then decodeIa (dst - 0x200) 0 m
  else if dst < 0x240 then decodeIa (dst - 0x220) 1 m
  else if dst < 0x260 then decodeAm (dst - 0x240) m
  else if dst < 0x280 then decodeBr (dst - 0x260) m
  else if dst < 0x2A0 then decodeLs (dst - 0x280) 0 m
  else if dst < 0x2C0 then decodeLs (dst - 0x2A0) 1 m
  else if dst < 0x300 then decodeVx (dst - 0x2C0) m
  else if dst < 0x340 then decodeVs (dst - 0x300) m
  else if dst < 0x360 then decodeMx (dst - 0x340) m
  else if dst < 0x380 then decodeEc (dst - 0x360) m
  else if dst < 0x3A0 then decodeSy (dst - 0x380) m
  else if dst < 0x3C0 then decodeSys (dst - 0x3A0) m
  else none

/-- R258. The move that a destination number and the other fields make; `none` for an unassigned
destination. -/
def decodeDst (dst : Nat) (m : Mv) : Option Instr :=
  if dst < 0x200 then some (.moveRegister (BitVec.ofNat 9 dst) m)
  else if (Machine.operandWidth dst).isSome then some (.operandPortWrite (BitVec.ofNat 10 dst) m)
  else if dst < 0x3C0 then decodeTrigger dst m
  else if 0x3C1 ≤ dst ∧ dst ≤ 0x3C7 then some (.guardWrite (BitVec.ofNat 3 (dst - 0x3C0)) m)
  else if 0x3D0 ≤ dst ∧ dst ≤ 0x3DF then some (.queuePush (BitVec.ofNat 4 (dst - 0x3D0)) m)
  else if dst = 0x3FF then some (.moveNul m)
  else none

/-- R240, R242, R271. Decode one move. Within one word a reserved source is named before an unassigned
destination, and both before the F rule (assumption 7). -/
def decodeMove (w : BitVec 24) : Except Reject Instr :=
  let n := w.toNat
  let m := mvOfWord n
  let dst := bits n 10 1
  if !m.srcOk then .error (.badSrc m.s.toNat)
  else
    match decodeDst dst m with
    | none => .error (.badDst dst)
    | some i => if m.fOk (Machine.isRegPort dst) then .ok i else .error .illMove

/-- The instruction that the decoder reads from a word numbered as spec/opcode_table.json numbers it:
a move has 24 bits. -/
def decodeTableWord (nbits w : Nat) : Option Instr :=
  if nbits = 24 then
    match decodeMove (BitVec.ofNat 24 w) with
    | .ok i => some i
    | .error _ => none
  else none

/-- The destination number and the move fields of a move; `none` for an event, which has no word. -/
def moveOf : Instr → Option (Nat × Mv)
  | .moveRegister d m => some (d.toNat, m)
  | .operandPortWrite d m => some (d.toNat, m)
  | .guardWrite d m => some (0x3C0 + d.toNat, m)
  | .queuePush q m => some (0x3D0 + q.toNat, m)
  | .moveNul m => some (0x3FF, m)
  | .iaAdd u m => some (0x208 + 0x20 * u.toNat, m)
  | .iaSub u m => some (0x209 + 0x20 * u.toNat, m)
  | .iaAnd u m => some (0x20A + 0x20 * u.toNat, m)
  | .iaOr u m => some (0x20B + 0x20 * u.toNat, m)
  | .iaXor u m => some (0x20C + 0x20 * u.toNat, m)
  | .iaAndn u m => some (0x20D + 0x20 * u.toNat, m)
  | .iaShl u m => some (0x20E + 0x20 * u.toNat, m)
  | .iaShr u m => some (0x20F + 0x20 * u.toNat, m)
  | .iaSar u m => some (0x210 + 0x20 * u.toNat, m)
  | .iaRotl u m => some (0x211 + 0x20 * u.toNat, m)
  | .iaMin u m => some (0x212 + 0x20 * u.toNat, m)
  | .iaMax u m => some (0x213 + 0x20 * u.toNat, m)
  | .iaMinu u m => some (0x214 + 0x20 * u.toNat, m)
  | .iaMaxu u m => some (0x215 + 0x20 * u.toNat, m)
  | .iaEq u m => some (0x216 + 0x20 * u.toNat, m)
  | .iaNe u m => some (0x217 + 0x20 * u.toNat, m)
  | .iaLt u m => some (0x218 + 0x20 * u.toNat, m)
  | .iaLtu u m => some (0x219 + 0x20 * u.toNat, m)
  | .iaLe u m => some (0x21A + 0x20 * u.toNat, m)
  | .iaLeu u m => some (0x21B + 0x20 * u.toNat, m)
  | .iaSel u m => some (0x21C + 0x20 * u.toNat, m)
  | .iaExt u m => some (0x21D + 0x20 * u.toNat, m)
  | .iaClz u m => some (0x21E + 0x20 * u.toNat, m)
  | .iaPopc u m => some (0x21F + 0x20 * u.toNat, m)
  | .amAdd m => some (0x244, m)
  | .amSub m => some (0x245, m)
  | .amMul m => some (0x246, m)
  | .amMulu m => some (0x247, m)
  | .amMad m => some (0x248, m)
  | .amMadu m => some (0x249, m)
  | .amLsa m => some (0x24A, m)
  | .amWrap m => some (0x24B, m)
  | .amWxs m => some (0x24C, m)
  | .amWxd m => some (0x24D, m)
  | .amWxv m => some (0x24E, m)
  | .amWxh m => some (0x24F, m)
  | .brJmp m => some (0x264, m)
  | .brCall m => some (0x265, m)
  | .brRet m => some (0x266, m)
  | .brLoop m => some (0x267, m)
  | .brJz m => some (0x268, m)
  | .brJnz m => some (0x269, m)
  | .brJeq m => some (0x26A, m)
  | .brJne m => some (0x26B, m)
  | .brJlt m => some (0x26C, m)
  | .brJge m => some (0x26D, m)
  | .brJltu m => some (0x26E, m)
  | .brJgeu m => some (0x26F, m)
  | .brLbrk m => some (0x270, m)
  | .brLkset m => some (0x271, m)
  | .lsLd8 u m => some (0x284 + 0x20 * u.toNat, m)
  | .lsLd8s u m => some (0x285 + 0x20 * u.toNat, m)
  | .lsLd16 u m => some (0x286 + 0x20 * u.toNat, m)
  | .lsLd16s u m => some (0x287 + 0x20 * u.toNat, m)
  | .lsLd32 u m => some (0x288 + 0x20 * u.toNat, m)
  | .lsLd32s u m => some (0x289 + 0x20 * u.toNat, m)
  | .lsLd64 u m => some (0x28A + 0x20 * u.toNat, m)
  | .lsLd128 u m => some (0x28B + 0x20 * u.toNat, m)
  | .lsLdvh u m => some (0x28C + 0x20 * u.toNat, m)
  | .lsLdv u m => some (0x28D + 0x20 * u.toNat, m)
  | .lsLdbc u m => some (0x28E + 0x20 * u.toNat, m)
  | .lsSt8 u m => some (0x28F + 0x20 * u.toNat, m)
  | .lsSt16 u m => some (0x290 + 0x20 * u.toNat, m)
  | .lsSt32 u m => some (0x291 + 0x20 * u.toNat, m)
  | .lsSt64 u m => some (0x292 + 0x20 * u.toNat, m)
  | .lsSt128 u m => some (0x293 + 0x20 * u.toNat, m)
  | .lsStvh u m => some (0x294 + 0x20 * u.toNat, m)
  | .lsStv u m => some (0x295 + 0x20 * u.toNat, m)
  | .lsStvm u m => some (0x296 + 0x20 * u.toNat, m)
  | .lsStz u m => some (0x297 + 0x20 * u.toNat, m)
  | .vxAdd m => some (0x2C8, m)
  | .vxSub m => some (0x2C9, m)
  | .vxMul m => some (0x2CA, m)
  | .vxFma m => some (0x2CB, m)
  | .vxFms m => some (0x2CC, m)
  | .vxFnma m => some (0x2CD, m)
  | .vxMin m => some (0x2CE, m)
  | .vxMax m => some (0x2CF, m)
  | .vxAbs m => some (0x2D0, m)
  | .vxNeg m => some (0x2D1, m)
  | .vxAddsat m => some (0x2D2, m)
  | .vxSubsat m => some (0x2D3, m)
  | .vxMulhi m => some (0x2D4, m)
  | .vxAnd m => some (0x2D5, m)
  | .vxOr m => some (0x2D6, m)
  | .vxXor m => some (0x2D7, m)
  | .vxAndn m => some (0x2D8, m)
  | .vxShl m => some (0x2D9, m)
  | .vxShr m => some (0x2DA, m)
  | .vxSar m => some (0x2DB, m)
  | .vxCeq m => some (0x2DC, m)
  | .vxCne m => some (0x2DD, m)
  | .vxClt m => some (0x2DE, m)
  | .vxCle m => some (0x2DF, m)
  | .vxCltu m => some (0x2E0, m)
  | .vxCleu m => some (0x2E1, m)
  | .vxSel m => some (0x2E2, m)
  | .vxClamp m => some (0x2E3, m)
  | .vxCopysign m => some (0x2E4, m)
  | .vxAbsd m => some (0x2E5, m)
  | .vxPopc m => some (0x2E6, m)
  | .vxAvg m => some (0x2E7, m)
  | .vxBcast m => some (0x2E8, m)
  | .vxIota m => some (0x2E9, m)
  | .vxDot4 m => some (0x2EA, m)
  | .vxDot2 m => some (0x2EB, m)
  | .vsLut3 m => some (0x308, m)
  | .vsFsl m => some (0x309, m)
  | .vsFsr m => some (0x30A, m)
  | .vsVrot m => some (0x30B, m)
  | .vsVshl m => some (0x30C, m)
  | .vsVshr m => some (0x30D, m)
  | .vsPerm m => some (0x30E, m)
  | .vsBperm m => some (0x30F, m)
  | .vsCompress m => some (0x310, m)
  | .vsExpand m => some (0x311, m)
  | .vsCvt m => some (0x312, m)
  | .vsCvtzb4 m => some (0x313, m)
  | .vsCvtmx m => some (0x314, m)
  | .vsRedsum m => some (0x315, m)
  | .vsRedmax m => some (0x316, m)
  | .vsRedmin m => some (0x317, m)
  | .vsRedand m => some (0x318, m)
  | .vsRedor m => some (0x319, m)
  | .vsRedxor m => some (0x31A, m)
  | .vsPack m => some (0x31B, m)
  | .vsUnpack m => some (0x31C, m)
  | .vsTbl m => some (0x31D, m)
  | .vsScan m => some (0x31E, m)
  | .vsZip m => some (0x31F, m)
  | .vsUnzip m => some (0x320, m)
  | .vsBcastl m => some (0x321, m)
  | .vsExtr m => some (0x322, m)
  | .vsInsr m => some (0x323, m)
  | .vsPcnt m => some (0x324, m)
  | .vsRev m => some (0x325, m)
  | .mxAlloc m => some (0x351, m)
  | .mxFree m => some (0x352, m)
  | .mxNorm m => some (0x353, m)
  | .mxRd m => some (0x354, m)
  | .mxWr m => some (0x355, m)
  | .mmB4 m => some (0x350, m)
  | .mmF8 m => some (0x350, m)
  | .mmI8 m => some (0x350, m)
  | .mmI16 m => some (0x350, m)
  | .mmH m => some (0x350, m)
  | .mmTn m => some (0x350, m)
  | .mmS m => some (0x350, m)
  | .mmS3 m => some (0x350, m)
  | .accLd m => some (0x350, m)
  | .accSt m => some (0x350, m)
  | .accNorm m => some (0x350, m)
  | .accZero m => some (0x350, m)
  | .ecPopen m => some (0x36A, m)
  | .ecPclose m => some (0x36B, m)
  | .ecPcomm m => some (0x36C, m)
  | .ecPinv m => some (0x36D, m)
  | .ecPfork m => some (0x36E, m)
  | .ecPxpl m => some (0x36F, m)
  | .ecPfold m => some (0x370, m)
  | .ecPsq m => some (0x371, m)
  | .ecPreg m => some (0x372, m)
  | .ecPdrop m => some (0x373, m)
  | .ecCopy m => some (0x374, m)
  | .ecTcopy m => some (0x375, m)
  | .ecFill m => some (0x376, m)
  | .ecSend m => some (0x377, m)
  | .ecRecv m => some (0x378, m)
  | .ecRecva m => some (0x379, m)
  | .ecStep m => some (0x37A, m)
  | .syLdf m => some (0x383, m)
  | .syLdk m => some (0x384, m)
  | .syStf m => some (0x385, m)
  | .syStx m => some (0x386, m)
  | .sySwap m => some (0x387, m)
  | .syCas m => some (0x388, m)
  | .syFadd m => some (0x389, m)
  | .syFaddf m => some (0x38A, m)
  | .syRadd m => some (0x38B, m)
  | .syRaddf m => some (0x38C, m)
  | .syRmax m => some (0x38D, m)
  | .syRmin m => some (0x38E, m)
  | .syRmaxf m => some (0x38F, m)
  | .syRand m => some (0x390, m)
  | .syRor m => some (0x391, m)
  | .syRxor m => some (0x392, m)
  | .syFence m => some (0x393, m)
  | .syPwait m => some (0x394, m)
  | .syTbar m => some (0x395, m)
  | .syCbar m => some (0x396, m)
  | .syJoin m => some (0x397, m)
  | .syLeave m => some (0x398, m)
  | .syQlen m => some (0x399, m)
  | .syQpeek m => some (0x39A, m)
  | .sySpop m => some (0x39B, m)
  | .sySpoll m => some (0x39C, m)
  | .sySgadd m => some (0x39D, m)
  | .sySgset m => some (0x39E, m)
  | .sySdone m => some (0x39F, m)
  | .sysExit m => some (0x3A4, m)
  | .sysStepb m => some (0x3A5, m)
  | .sysLaunch m => some (0x3A6, m)
  | .sysTret m => some (0x3A7, m)
  | .sysVec m => some (0x3A8, m)
  | .sysTrw m => some (0x3A9, m)
  | .sysWvws m => some (0x3AA, m)
  | .sysWvwd m => some (0x3AB, m)
  | .sysWvwv m => some (0x3AC, m)
  | .sysWvwh m => some (0x3AD, m)
  | .sysVwrd m => some (0x3AE, m)
  | .sysFlrd m => some (0x3AF, m)
  | .sysFlwr m => some (0x3B0, m)
  | .sysSvcReport m => some (0x3B1, m)
  | .sysSvcShare m => some (0x3B1, m)
  | .sysSvcUnshare m => some (0x3B1, m)
  | .sysLogc m => some (0x3B2, m)
  | .sysCtrcfg m => some (0x3B3, m)
  | .sysCtrrd m => some (0x3B4, m)
  | .sysYield m => some (0x3B5, m)
  | .powerUp => none
  | .bootFetchTimeout => none
  | .bootRetryWait => none
  | .alivePost => none
  | .bootCommitDeadline => none
  | .stationmasterWatchdog => none
  | .hostLinkUp => none
  | .stageGo => none
  | .hostWindowAccess => none
  | .hostRegisterWrite => none
  | .slotPost => none
  | .slotFree => none
  | .slotBadState => none
  | .launch => none
  | .kill => none
  | .mkcomp => none
  | .rmcomp => none
  | .map => none
  | .unmap => none
  | .budget => none
  | .report => none
  | .stage => none
  | .ckpt => none
  | .abandon => none
  | .logrel => none
  | .pkgnum => none
  | .winlist => none
  | .restore => none
  | .mgmtRequest => none
  | .launchAcceptance => none
  | .settFill => none
  | .timetablePeriodBoundary => none
  | .handoverDeadline => none
  | .boardSlotWrite => none
  | .swapOut => none
  | .swapIn => none
  | .preempt => none
  | .matrixCallReissue => none
  | .teamEnd => none
  | .teamdownTimeout => none
  | .launchCompletion => none
  | .settPopAnswer => none
  | .stepBoundary => none
  | .stepAbandon => none
  | .demandMapService => none
  | .compartmentInvalidation => none
  | .producerLaunch => none
  | .producerComplete => none
  | .ibundleEccReload => none
  | .coreSubstitute => none
  | .coreFailure => none
  | .bundleIssue => none
  | .fairnessLimit => none
  | .resultLanding => none
  | .variableArrival => none
  | .ephemeralExpiry => none
  | .clusterAccessAccept => none
  | .globalWritePerformed => none
  | .atomicQueuePerform => none
  | .reductionHold => none
  | .chainRead => none
  | .patchWriteArrival => none
  | .freightBurst => none
  | .dataCommandRetire => none
  | .statusPushWait => none
  | .shuttleMatch => none
  | .shuttleChunkArrival => none
  | .shuttleChunkAck => none
  | .peerLost => none
  | .matrixStepBegin => none
  | .matrixStepEnd => none
  | .nimmetLinkTrain => none
  | .nimmetSessionSetup => none
  | .sessionRekey => none
  | .nimmetFrameReceive => none
  | .nimmetFrameResend => none
  | .secondTierPortFail => none
  | .thermalWarning => none
  | .thermalShutdown => none
  | .tftpImageArrival => none
  | .translationWalkEnd => none
  | .receiverInsertsItems => none
  | .uncorrectableError => none
  | .powerRemoved => none

/-- R240. The 24 bits of a move with the given destination. -/
def packMove (dst : Nat) (m : Mv) : BitVec 24 :=
  BitVec.ofNat 24 (m.g.toNat * 2 ^ 21 + m.s.toNat * 2 ^ 11 + dst % 1024 * 2 + (if m.f then 1 else 0))

/-- The word of a move; `none` for an event. -/
def encode (i : Instr) : Option (BitVec 24) := (moveOf i).map fun p => packMove p.1 p.2

/-- The row that the decoder answers for the port of a move: the row itself, but for the twelve rows of
`mx.call` and the three of `sys.svc`, which share a word each (R357, R411). -/
def portRow : Instr → Instr
  | .mmB4 m => .mmB4 m
  | .mmF8 m => .mmB4 m
  | .mmI8 m => .mmB4 m
  | .mmI16 m => .mmB4 m
  | .mmH m => .mmB4 m
  | .mmTn m => .mmB4 m
  | .mmS m => .mmB4 m
  | .mmS3 m => .mmB4 m
  | .accLd m => .mmB4 m
  | .accSt m => .mmB4 m
  | .accNorm m => .mmB4 m
  | .accZero m => .mmB4 m
  | .sysSvcReport m => .sysSvcReport m
  | .sysSvcShare m => .sysSvcReport m
  | .sysSvcUnshare m => .sysSvcReport m
  | i => i

end Sys2Proof
end

