-- ==== Sys2Proof/Config.lean ====
section
/-! DEFINITION. What the manual leaves to the implementation or to a cipher, as constants without a value
(assumption 1), and the fuses of a package (R193, R195). -/

namespace Sys2Proof

/-- Assumption 2. The n-th value that the manual leaves open. -/
opaque Config.freeValue : Nat → Vec

/-- R441, R447. What firmware reads, in a cycle, of a byte of memory that cannot be corrected (assumption 2). -/
opaque Config.badByte : Nat → Nat → Byte

/-- R193. The fuse field BOOTSRC, 0 to 3. -/
opaque Config.bootSrc : Nat

/-- R195. The key hash fused for a key slot, and whether its revocation fuse is intact. -/
opaque Config.slotHash : Nat → BitVec 256
opaque Config.slotIntact : Nat → Bool

/-- R195. Whether a Falcon-1024 signature over a digest verifies under a public key. -/
opaque Config.falconVerify : BitVec 512 → List Byte → List Byte → Bool

/-- R198. The fused seed, the fused helper data, the PUF's response, and that response corrected with helper data. -/
opaque Config.fusedSeed : List Byte
opaque Config.pufHelper : List Byte
opaque Config.pufResponse : List Byte
opaque Config.pufCorrect : List Byte → List Byte → List Byte

/-- R198. The Falcon-1024 key pair that a seed gives: its public and its private key. -/
opaque Config.falconKeys : List Byte → List Byte × List Byte

/-- R199. The 1,280 bytes of the Falcon-1024 signature of a digest by a private key. -/
opaque Config.falconSign : List Byte → BitVec 512 → List Byte

/-- R232. The floor that a Zitrum body declares for another kind of firmware (2 Badger, 3 Shuttle, 4 matrix). -/
opaque Config.declaredFloor : BitVec 512 → Nat → Nat

/-- R234. The digest of the firmware of a kind that the booted Zitrum body carries. -/
opaque Config.bundledDigest : BitVec 512 → Nat → BitVec 512

/-- R233. Whether new firmware accepts a version of the hand-over record. -/
opaque Config.recordAccepted : BitVec 512 → Nat → Bool

/-- R233. The version of the hand-over record that firmware writes. -/
opaque Config.recordVersion : BitVec 512 → Nat

end Sys2Proof
end

