-- ==== Sys2Proof/Machine/State.lean ====
section
/-! DEFINITION. The state of the package: everything the manual gives the Kalop Z9, as plain data, and the
state at reset (R9).

A table that is mostly at its reset value is a `Tab`, a list of (key, entry) pairs; a key that is not listed
holds the entry's default. Contexts carry their package number (R17), cores theirs, clusters die × 9 +
cluster, Board slots cluster × 64 + slot, lines compartment × 2^24 + line. -/

namespace Sys2Proof.Machine

/-- A sparse table keyed by numbers. -/
abbrev Tab (α : Type) := List (Nat × α)

/-- A memory in canonical form: addresses strictly rising, no byte 0 listed (an unlisted byte reads 0). -/
abbrev Memory := List Host.Cell

/-- A trap about to be taken: the cause code of R211 and the two information words. -/
structure Trap where
  code : Nat
  info0 : W64 := 0
  info1 : W64 := 0
  deriving DecidableEq, Repr

/-- Bytes of the register space that a result goes to (R247): first byte and size. -/
structure Dest where
  first : Nat
  size : Nat
  deriving DecidableEq, Repr

/-- R250. What a 2-byte register unit holds when it is not plainly full. A failed unit keeps the address and
the location code that MEMUE reports (R217). -/
inductive UnitSt where
  | empty
  | ephemeral (expiry : Nat)
  | failed (addr : W64) (loc : Nat)
  deriving DecidableEq, Repr

/-- One effect of a fixed-latency result when it lands (R260, R248, R407, R51). -/
inductive Land where
  | port (p : Nat) (v : Vec)
  | reg (d : Dest) (v : Vec)
  | xbase (view : Nat) (v : BitVec 6)
  | view (view : Nat) (v : BitVec 15)
  | flags (f : BitVec 8)
  /-- R336: a read of a queue, brought up to date by the engine pushes of its issuing cycle -/
  | queue (peek : Bool) (q : Nat) (v : W64) (dest : Option Dest)
  deriving DecidableEq, Repr

/-- R260. A fixed-latency result in flight: its cycle, its unit block (in the order of R300) and its effects. -/
structure Flight where
  due : Nat
  unit : Nat
  acts : List Land
  deriving DecidableEq, Repr

/-- R270. One active counted loop. -/
structure Loop where
  start : Nat
  stop : Nat
  left : Nat
  deriving DecidableEq, Repr

/-- R267. A pending transfer: shadow bundles still to issue, and the target. -/
structure Shadow where
  left : Nat
  target : BitVec 32
  deriving DecidableEq, Repr

/-- R414. One event counter. -/
structure Counter where
  count : BitVec 48 := 0
  en : Bool := false
  evt : BitVec 8 := 0
  deriving DecidableEq, Repr

/-- R140. The six pending-byte counters, scopes ctx to sys (R124). -/
structure Pend where
  ctx : BitVec 56 := 0
  core : BitVec 56 := 0
  clu : BitVec 56 := 0
  die : BitVec 56 := 0
  pkg : BitVec 56 := 0
  sys : BitVec 56 := 0
  deriving DecidableEq, Repr

/-- R215. What a snapshot captures; results in flight keep their offset in `due`. -/
structure Snap where
  opnd : Tab Vec
  res : Tab Vec
  flights : List Flight
  guards : BitVec 8
  loops : List Loop
  deriving DecidableEq, Repr

/-- What a hardware context is doing. -/
inductive Run where
  /-- no team is bound to it -/
  | unbound
  | running
  /-- stopped by a fatal trap (R214), or by Zitrum (R223) -/
  | stopped
  /-- it has exited (R403) -/
  | exited
  /-- stopped by the Stationmaster at a bundle boundary (R219) -/
  | preempted
  deriving DecidableEq, Repr

/-- Why a bundle of a context does not issue (R265). -/
inductive Wait where
  | none
  | register
  | queue
  | walk
  | tbar
  | cbar (crew : Nat)
  | tagged
  | fence
  | pwait
  | budget
  | array
  | cluster
  | stepb
  | launch
  | service
  | patch
  | line
  | engine
  | other
  deriving DecidableEq, Repr

/-- R180, R223. TEAMDOWN to be delivered, with the cycle at which it was raised. -/
structure Down where
  info0 : W64
  info1 : W64
  since : Nat
  delivered : Bool
  /-- R223: bundles that had issued when it was delivered -/
  num : Nat := 0
  deriving DecidableEq, Repr

/-- R139. A fence in force: accesses of bundles numbered below `limit` must be performed. -/
structure Fence where
  scope : Nat
  limit : Nat
  deriving DecidableEq, Repr

/-- R91, R92. How a walk answered: the descriptor found, or a PAGE fault with its subcode (R88), which the
demand-mapping service may have declined to mend. -/
inductive WalkAns where
  | desc (low high : W64) (level : Nat)
  | fault (sub : Nat) (declined : Bool)
  deriving DecidableEq, Repr

/-- The answer to a request that holds a bundle (R409, R410, R411, R101): the value to land, or the trap of a
refusal. -/
inductive Answer where
  | value (v : W64)
  | trap (t : Trap)
  deriving DecidableEq, Repr

/-- R134. A request that waits on a tagged word, with the word's number (core × 2^19 + word). -/
structure TagReq where
  ctx : Nat
  num : Nat
  word : Nat
  /-- 0 ldf, 1 ldk, 2 stf -/
  op : Nat
  data : BitVec 32
  dest : Option Dest
  va : W64
  deriving DecidableEq, Repr

/-- R186. A pop waiting at a Sett. -/
structure PopWait where
  ctx : Nat
  dest : Option Dest
  poll : Bool
  deriving DecidableEq, Repr

/-- R369, R370, R372. A stopped call to be issued again: its routine, the slot of its trigger, and the register that
`.w` named there. -/
structure Reissue where
  rout : Nat
  slot : Nat
  wb : Option Dest
  /-- bundle number of the trigger (R139, R368) -/
  num : Nat
  /-- the context has resumed: its first turn issues the call again -/
  ready : Bool
  deriving DecidableEq, Repr

/-- R323. A load of a held bundle that its arbiter has accepted: its slot, its address, and the bytes read. -/
structure Early where
  slot : Nat
  va : Nat
  bytes : List Byte
  deriving DecidableEq, Repr

/-- A hardware context (R20): everything of R170, R213, R215, and the context's own bookkeeping. -/
structure Ctx where
  run : Run := .unbound
  /-- the Board slot that binds it (cluster × 64 + slot) -/
  slot : Nat := 0
  pc : BitVec 32 := 0
  regs : BitVec 262144 := 0
  units : Tab UnitSt := []
  guards : BitVec 8 := 0
  xs : BitVec 6 := 0
  xd : BitVec 6 := 0
  xv : BitVec 6 := 0
  xh : BitVec 6 := 0
  vws : BitVec 15 := 0
  vwd : BitVec 15 := 0
  vwv : BitVec 15 := 0
  vwh : BitVec 15 := 0
  opnd : Tab Vec := []
  res : Tab Vec := []
  flags : BitVec 32 := 0
  pend : Pend := {}
  flights : List Flight := []
  loops : List Loop := []
  shadow : Option Shadow := none
  cause : BitVec 32 := 0
  tpc : BitVec 32 := 0
  tnext : BitVec 32 := 0
  info0 : W64 := 0
  info1 : W64 := 0
  vectors : Tab (BitVec 32) := []
  snap : Option Snap := none
  /-- R216: captured results, by offset from the next bundle's issue -/
  replay : List Flight := []
  psnap : Option Snap := none
  queues : Tab (List W64) := []
  counters : Tab Counter := []
  /-- R338: items held by this context -/
  held : List Nat := []
  /-- R381: data commands accepted since bind, and the latest one to Freight and to Shuttle (R380) -/
  seq : BitVec 32 := 0
  lastFreight : Option Nat := none
  lastShuttle : Option Nat := none
  /-- R178: team barriers completed, and whether ec, mx or sy work followed the latest -/
  bars : Nat := 0
  dirty : Bool := false
  /-- arrival at sy.tbar, sy.cbar, sys.stepb standing -/
  atTbar : Bool := false
  atCbar : Option Nat := none
  atStep : Bool := false
  /-- R179: crews whose barrier has been completed for this context, each to be consumed by its bundle -/
  released : List Nat := []
  /-- R71, R369: an ARITH or MEMUE pending of a matrix call -/
  pendTrap : Option Trap := none
  /-- R364 check 1: end of the interval of the context's own latest call, while it has not stopped -/
  callEnd : Option Nat := none
  down : Option Down := none
  fences : List Fence := []
  /-- R128: target core of the latest scratchpad access -/
  lastCore : Option Nat := none
  /-- R90: answers of walks, by (compartment, 4 KiB page of the table address) -/
  walked : List (Nat × Nat × WalkAns) := []
  answer : Option Answer := none
  /-- R122: lines whose producer has failed while the bundle was held on them -/
  unmade : List Nat := []
  /-- a request of the held bundle has been sent -/
  sent : Bool := false
  /-- R323: the held cluster-path accesses may issue from this cycle on -/
  clusterAt : Option Nat := none
  /-- R323: the load that its arbiter has accepted ahead of the held bundle's other accesses -/
  early : Option Early := none
  /-- R414: the cycle in which the context, or a command of it, was last held by the Timetable -/
  heldAt : Option Nat := none
  /-- R206: units of its accesses that the held bundle has been served: resource, site, units -/
  paid : List (Nat × Nat × Nat) := []
  /-- R122: the bundle is held for the producer of a line -/
  onLine : Bool := false
  /-- no bundle issues before this cycle (R52, R415) -/
  notBefore : Nat := 0
  /-- bundles issued since bind (R224) -/
  bundles : Nat := 0
  blocked : Wait := .none
  /-- the cycle in which the context's bundle last came to issue -/
  tried : Option Nat := none
  /-- R262: bytes that moves wrote, or triggers marked empty, in a cycle -/
  wrote : List Dest := []
  wroteAt : Nat := 0
  /-- the bundle in hand sets the next one: past the loop test (trap-return) or before it (R270, count 0) -/
  jump : Option (Bool × BitVec 32) := none
  /-- R219: a pre-emption requested, or R372: a stopped call to reissue first -/
  preempt : Bool := false
  reissue : Option Reissue := none
  /-- R134, R219: tagged requests and pops withdrawn, to queue again at resume -/
  pulled : List TagReq := []
  pulledPops : List PopWait := []
  /-- R410: the step boundary completed for this context, to be consumed by its bundle -/
  stepped : Bool := false
  deriving DecidableEq, Repr

/-- A core (R22): the context that issues and its run of consecutive bundles. -/
structure Core where
  cur : Nat := 0
  run : Nat := 0
  deriving DecidableEq, Repr

/-- R56. State of an accumulator element. -/
inductive AccSt where
  | finite | posInf | negInf | nan
  deriving DecidableEq, Repr

/-- An accumulator element: its integer (R55) and its state. -/
structure Elem where
  int : Int := 0
  st : AccSt := .finite
  deriving DecidableEq, Repr

/-- A held accumulator bank (R20, R55): the task that holds it, the four row exponents, its elements that are
not integer 0 and finite, keyed row × 64 + element. -/
structure Bank where
  holder : Nat
  e0 : BitVec 16
  e1 : BitVec 16
  e2 : BitVec 16
  e3 : BitVec 16
  els : Tab Elem
  deriving DecidableEq, Repr

/-- A matrix call on a core's array (R361, R366). -/
structure Call where
  ctx : Nat
  slot : Nat
  rout : Nat
  mp0 : W64
  mp1 : W64
  mp2 : W64
  mp3 : W64
  mp4 : W64
  mp5 : W64
  mp6 : W64
  mp7 : W64
  /-- next step, number of steps, cycles of one step -/
  step : Nat
  steps : Nat
  cyc : Nat
  begun : Bool
  stop : Bool
  wb : Option Dest
  /-- bundle number of the trigger (R139, R368) -/
  num : Nat
  /-- R378: bytes of a mask row -/
  stride : Nat
  /-- R369: flags of the step that runs, by accumulator row (4 × bank + row) -/
  flags : List (Nat × BitVec 8)
  /-- R368: writes of the step of `acc.st` that runs, not yet performed: cycle, place, bytes -/
  stores : List (Nat × Nat × List Byte) := []
  deriving DecidableEq, Repr

/-- R366, R368. A scratchpad word as it was before a write, and the cores whose call's loaders may still have read it so. -/
structure Former where
  word : Nat
  old : BitVec 32
  cores : List Nat
  deriving DecidableEq, Repr

/-- R329. The atomic operations. -/
inductive AtomOp where
  | swap | cas | fadd | faddf | radd | raddf | rmax | rmin | rmaxf | rand | ror | rxor
  deriving DecidableEq, Repr

/-- R320. How a load's bytes become its 256-byte result. -/
structure Post where
  size : Nat
  sext : Bool := false
  bcast : Bool := false
  deriving DecidableEq, Repr

/-- What an access that has left its context does when it is performed. -/
inductive AccKind where
  | load (p : Post)
  | store
  /-- a store of the lanes chosen by the mask (R320, stvm) -/
  | lanes (mask : BitVec 64)
  | atom (op : AtomOp) (ret : Bool)
  | chain (p : Post)
  | patch
  /-- a tagged store of the cluster path: 2 stf, 3 stx -/
  | tag (op : Nat)
  deriving DecidableEq, Repr

/-- Where an access goes. -/
inductive Place where
  /-- HBM or second tier, physical address -/
  | phys (pa : Nat)
  /-- a scratchpad byte, core package number × 2^21 + offset -/
  | spad (a : Nat)
  /-- a LINED page: line key and region offset -/
  | line (l off : Nat)
  deriving DecidableEq, Repr

/-- An access on its way (R125): who, in which bundle and slot, where, and what. -/
structure Acc where
  id : Nat
  ctx : Nat
  num : Nat
  slot : Nat
  rank : Nat
  lid : Nat
  kind : AccKind
  place : Place
  va : W64
  /-- physical address, of a global access -/
  pa : Nat
  size : Nat
  data : Vec
  /-- `.b` of a compare-and-swap; of a store, the words done; of a read of a line, 1 once it is ordered -/
  cmp : BitVec 32
  dest : Option Dest
  deriving DecidableEq, Repr

/-- R262. A variable-latency value on its way to a register; `val = none` is a failed value. -/
structure Arrival where
  id : Nat
  ctx : Nat
  dest : Option Dest
  val : Option Vec
  addr : W64
  loc : Nat
  deriving DecidableEq, Repr

/-- R136. One update held in a bank's holding buffer. -/
structure Upd where
  rank : Nat
  num : Nat
  slot : Nat
  op : AtomOp
  place : Place
  data : BitVec 32
  deriving DecidableEq, Repr

/-- R136, R137, R138. A bank's holding buffer and the entries of its round so far. -/
structure HoldBuf where
  lid : Nat
  site : W64
  die : Nat
  held : List Upd
  fallback : Bool
  entries : List W64
  applied : Nat
  /-- R138: entries of returning accesses that ended rounds of a replay still list -/
  owed : List W64
  deriving DecidableEq, Repr

/-- A range entry (R79), its four words. -/
structure Range where
  w0 : W64
  w1 : W64
  w2 : W64
  w3 : W64
  deriving DecidableEq, Repr

/-- R120, R98, R448. A granule of a patch: its offset and its payload bytes. -/
abbrev Gran := Nat × List Byte

/-- R98. A closed patch. -/
structure Patch where
  name : Nat
  kind : Nat
  pay : List Gran
  digest : BitVec 256
  deriving DecidableEq, Repr

/-- R102, R103. An open patch; `siding` as opened. -/
structure OpenPatch where
  ctx : Nat
  name : Nat
  kind : Nat
  siding : Option Nat
  pay : List Gran
  deriving DecidableEq, Repr

/-- R113. An entry of a name table. -/
structure NameEnt where
  name : Nat
  digest : BitVec 256
  squashed : Bool
  deriving DecidableEq, Repr

/-- R95. The states of a line. -/
inductive LineSt where
  | vacant | live | dropped
  deriving DecidableEq, Repr

/-- R95. A line: geometry, home Badger (die × 4 + Badger), base, chain, sidings, names, producer. -/
structure Line where
  st : LineSt
  fmt : Nat
  xlog : Nat
  cols8 : Nat
  home : Nat
  base : Memory
  hash : BitVec 256
  chain : List Patch
  sidings : Tab (List Patch)
  names : List NameEnt
  opens : List OpenPatch
  producer : Option W64
  /-- R122: the producer's launch in progress, or just posted (LID 0) -/
  making : Option Nat
  /-- R122: contexts (and commands, 2^20 + number) that wait for the producer -/
  waiters : List Nat
  /-- R227: launches that have written the line in the current step, and their step-start names -/
  written : List Nat
  startNames : Tab (List Nat)
  deriving DecidableEq, Repr

/-- R201. A compartment's record, measurement (R200), page-table root, memory use and key identity. -/
structure Comp where
  isol : Bool
  poolmax : W64
  /-- R120: the units of the patch pool as Zitrum has sized it from the launches in progress -/
  pool : Nat
  quota : W64
  tag : BitVec 256
  kchain : BitVec 512
  kcount : W64
  root : Nat
  pages : Nat
  key : Nat
  deriving DecidableEq, Repr

/-- R206. Remaining budget of a class on a die, per resource and site. -/
structure Budget where
  die : Nat
  cls : Nat
  /-- 0 HBM slots, 1 flits, 2 walk, 3 Shuttle sent, 4 Shuttle received, 5 matrix -/
  res : Nat
  site : Nat
  left : Int
  deriving DecidableEq, Repr

/-- R210. A class that waits for a resource at a site of a die, as of a cycle. -/
structure Want where
  die : Nat
  cls : Nat
  res : Nat
  site : Nat
  /-- who waits: a context, or 2^20 + the number of a data command or of an access -/
  who : Nat
  deriving DecidableEq, Repr

/-- R91. A walk in flight, or waiting for a slot. -/
structure Walk where
  id : Nat
  die : Nat
  comp : Nat
  page : Nat
  ctxs : List Nat
  started : Bool
  deriving DecidableEq, Repr

/-- R90. A translation held in a core's page translation buffer. -/
structure Tlb where
  core : Nat
  comp : Nat
  page : Nat
  low : W64
  high : W64
  level : Nat
  deriving DecidableEq, Repr

/-- R173. A swapped-out team that waits for placement, with the period in which it began to wait. -/
structure Waiting where
  lid : Nat
  team : Nat
  since : Nat
  deriving DecidableEq, Repr

/-- R175. A resident team's latest bind: the period, and whether it stood at the period's first cycle. -/
structure Resident where
  key : Nat
  lid : Nat
  team : Nat
  bound : Nat
  /-- the cycle of the bind -/
  at_ : Nat
  cycle : Bool
  deriving DecidableEq, Repr

/-- R174, step 2. Room that Zitrum makes for a candidate: its launch and team, the slot and its word, whether it was
swapped out, and the teams (by launch and number) that are swapped out for it. -/
structure Reserve where
  lid : Nat
  team : Nat
  key : Nat
  word : BitVec 512
  saved : Bool
  victims : List (Nat × Nat)
  deriving DecidableEq, Repr

/-- Where the response to a packet goes (R165). -/
inductive Route where
  | host (slot : Nat)
  | mgmt (port : Nat) (ticket : Nat)
  | ctx (lid rank : Nat)
  | producer (line : Nat)
  deriving DecidableEq, Repr

/-- R224. One record of an order log: header words and entries. -/
structure LogRec where
  kind : Nat
  die : Nat
  seq : Nat
  site : W64
  entries : List W64
  deriving DecidableEq, Repr

/-- R224, R226, R229. A launch's log on one die, the records still to replay, and both as they stood when the
current step began. -/
structure Log where
  lid : Nat
  die : Nat
  recs : List LogRec
  replay : List LogRec
  markRecs : List LogRec := []
  markReplay : List LogRec := []
  deriving DecidableEq, Repr

/-- R224. A log held after its launch, by compartment, image digest and packet (header and range entries). -/
structure HeldLog where
  comp : Nat
  lid : Nat
  digest : BitVec 512
  packet : List Byte
  logs : List Log
  deriving DecidableEq, Repr

/-- R184. An item of a Sett. -/
structure Item where
  gain : Int
  residual : Nat
  runner : Option Nat
  transit : Bool
  deriving DecidableEq, Repr

/-- R184. The Sett of a die while a gain launch uses it. -/
structure Sett where
  lid : Nat
  items : Tab Item
  waits : List PopWait
  deriving DecidableEq, Repr

/-- R185 to R187, R337, R428. A Sett operation on its way: its context and bundle, the Sett it goes to, what it is (0 sgadd,
1 sgset, 2 sdone, 3 pop, 4 poll), its item and value, and the cycle in which it arrives. -/
structure SettOp where
  id : Nat
  ctx : Nat
  num : Nat
  lid : Nat
  key : Nat
  kind : Nat
  idx : Nat
  val : W64
  dest : Option Dest
  at_ : Nat
  deriving DecidableEq, Repr

/-- R190. Items in transit. -/
structure Transit where
  lid : Nat
  donor : Nat
  receiver : Nat
  items : Tab Item
  deriving DecidableEq, Repr

/-- How a launch ends (R166). -/
structure Ending where
  status : Nat
  sub : Nat := 0
  cause : Nat := 0
  fteam : Nat := 0
  finfo : W64 := 0
  deriving DecidableEq, Repr

/-- An accepted launch (R163 to R166). -/
structure Launch where
  lid : Nat
  accept : Nat
  comp : Nat
  mode : Nat
  replay : Bool
  prio : Nat
  spread : Bool
  teamsz : Nat
  banks : Nat
  wsize : Nat
  nteams : Nat
  lclust : Nat
  /-- the 24 header words, the range entries, and the packet's bytes -/
  words : List W64
  ranges : List Range
  packet : List Byte
  digest : BitVec 512
  image : List Byte
  tdone : Nat
  /-- R173: the period of acceptance; teams from `nextTeam` on, and those of `skipped`, have never been bound -/
  since : Nat
  nextTeam : Nat
  skipped : List Nat
  /-- R182: the physical cluster of each logical one -/
  cmap : Tab Nat
  /-- R223: the cycle at which Zitrum ended its teams -/
  down : Option Nat
  /-- R229: the step is being abandoned, for this reason: 0x18 MEMUE, 0x09 LINKLOST, 0 a request -/
  aband : Option Nat
  ending : Option Ending
  /-- R410: step boundaries completed, and R228: abandonments of the current step -/
  steps : Nat
  abandons : Nat
  /-- R228: the peer packages that its Shuttle commands have named -/
  links : List Nat
  route : Route
  /-- gain launches (R184 to R192): the residual register, END, and whether the Setts were filled -/
  residual : Nat
  endCode : Nat
  filled : Bool
  /-- R227: the step journal: physical page to its 4,096 bytes -/
  armed : Bool
  /-- R229: the step squashed or dropped a line, so it cannot be undone -/
  noUndo : Bool
  journal : Tab (List Byte)
  writtenPages : List Nat
  /-- R229: the Setts as they stood when the step began -/
  markSetts : Tab Sett
  markTransits : List Transit
  markResidual : Nat
  markEnd : Nat
  deriving DecidableEq, Repr

/-- A member's context as a swap or a step saves it, with its context number. -/
structure SavedBank where
  key : Nat
  bank : Bank
  deriving DecidableEq, Repr

/-- R176, R227. A saved team: Board slot, contexts, windows with tags, banks. -/
structure Saved where
  lid : Nat
  team : Nat
  key : Nat
  word : BitVec 512
  ctxs : Tab Ctx
  spad : Memory
  full : List Nat
  /-- failing words of its windows -/
  bad : List Nat
  banks : List SavedBank
  /-- members of the eight crews, and those whom their open barriers await -/
  crews : List (List Nat)
  opens : List (List Nat)
  /-- updates of its words whose round, in replay, was open when it was saved -/
  held : List Upd
  deriving DecidableEq, Repr

/-- The data commands of R380 to R397. -/
inductive CmdOp where
  | copy | tcopy | fill | send | recv | recva | step
  deriving DecidableEq, Repr

/-- R125, R388. A write that an engine has issued and that is still to be performed: its command and context, the
issuer's rank, where it goes, its bytes, whether it fills tags (R391), and the words of it that are done (R325). -/
structure EngWrite where
  id : Nat
  cmd : Nat
  ctx : Nat
  lid : Nat
  team : Nat
  rank : Nat
  num : Nat
  slot : Nat
  place : Place
  bytes : List Byte
  /-- of a LINED page: the granules -/
  grans : List Gran
  /-- R391: the words that the write fills -/
  fill : List Nat
  /-- bytes of the command that it counts for (R384) -/
  count : Nat
  done : Nat
  /-- R132: its command has stopped with a failure status -/
  stopped : Bool
  deriving DecidableEq, Repr

/-- A data command accepted and not yet retired (R381). -/
structure Cmd where
  id : Nat
  ctx : Nat
  num : Nat
  lid : Nat
  team : Nat
  comp : Nat
  seq : BitVec 32
  op : CmdOp
  /-- Freight: the cluster; Shuttle: the base die -/
  eng : Nat
  ctl : W64
  p0 : W64
  p1 : W64
  p2 : W64
  p3 : W64
  p4 : W64
  p5 : W64
  p6 : W64
  p7 : W64
  /-- elements done -/
  next : Nat
  flags : BitVec 8
  /-- R384: bytes counted and still unperformed, at the scopes ctx to pkg and at sys -/
  left : Nat
  leftSys : Nat
  /-- Shuttle: chunks acknowledged and received; a chunk sent and not acknowledged; places in the count of R393 -/
  sent : BitVec 64
  rcvd : BitVec 64
  flying : Option Nat
  sendIx : Nat
  recvIx : Nat
  matchedSend : Bool
  matchedRecv : Bool
  /-- Shuttle: the command has begun -/
  begun : Bool
  /-- Freight: when its latest burst came, among those of its engine -/
  order : Nat
  parked : Bool
  withdrawn : Bool
  /-- R92: pages whose demand mapping was declined -/
  declined : List Nat
  /-- slot of the trigger -/
  slot : Nat
  /-- R389: bands written: 1 + the line, or 0, and the band's index -/
  bandsDone : List (Nat × Nat)
  /-- R390: elements of a started burst still to move -/
  burst : Nat
  /-- R94: translations that walks have answered to the command -/
  walked : List (Nat × Nat × WalkAns)
  /-- R380: the context's previous data command to the same engine -/
  prev : Option Nat
  /-- R206: bytes of a chunk received (by number) or sent (64 + number) that have been charged -/
  paid : Tab Nat
  /-- R396: chunks that have arrived whole; the peer has been declared lost -/
  arrived : BitVec 64
  lost : Bool
  /-- R384: chunks sent that stand at their destination -/
  written : BitVec 64
  /-- R442: the port of the command's route -/
  port : Option Nat
  /-- R122: the producer that a read waits for has failed -/
  recomp : Bool
  status : Option (Nat × Nat × W64)
  deriving DecidableEq, Repr

/-- R335, R382. A status waiting at its engine for room in a queue. -/
structure StatusWait where
  ctx : Nat
  cmd : Nat
  queue : Nat
  entries : List W64
  deriving DecidableEq, Repr

/-- R393. What a peer package has posted: its package, the channel, the compartment, whether it is a receive, its
place in the count, and its transfer word. -/
structure PeerPost where
  peer : Nat
  chan : Nat
  comp : Nat
  recv : Bool
  ix : Nat
  word : W64
  deriving DecidableEq, Repr

/-- R204. A Nimmet session. -/
structure Session where
  peer : Nat
  up : Bool
  key : Nat
  counter : Nat
  /-- TAG of each compartment as the peer reported it -/
  tags : Tab (BitVec 256)
  deriving DecidableEq, Repr

/-- R442. One direction's sequence state of a Nimmet port. -/
structure Nimmet where
  status : W64
  rxSeq : Nat
  txSeq : Nat
  unacked : List (Nat × List Byte)
  deriving DecidableEq, Repr

/-- R436. A request slot: header words, body, and the copy that Zitrum acts on. -/
structure HostSlot where
  hdr : List W64
  body : List Byte
  result : List Byte
  deriving DecidableEq, Repr

/-- A request in Zitrum's queue, or one whose answer waits for a later event (R163, R437, R444): the compartment of
a launch by a program; of a packet in memory, the physical addresses of its 64-byte blocks, read when its validation
begins (R409). -/
structure Request where
  route : Route
  code : Nat
  ticket : Nat
  len : Nat
  body : List Byte
  own : Option Nat := none
  blocks : List (Option Nat) := []
  /-- R93: the number of a packet that stands in memory, in the order of accesses -/
  num : Nat := 0
  /-- R437: the slot has been taken and copied -/
  taken : Bool := false
  deriving DecidableEq, Repr

/-- R231. A line as a manifest names it: its number, its geometry, the hash of its base, and the names and digests of its
chain. -/
structure CkptLine where
  line : Nat
  fmt : Nat
  xlog : Nat
  cols8 : Nat
  hash : BitVec 256
  chain : List (Nat × BitVec 256)
  deriving DecidableEq, Repr

/-- R231. What a manifest holds: compartment and step, lines, the images of the teams, ATOMIC pages (by table page) and the
packet. -/
structure Ckpt where
  comp : Nat
  step : Nat
  lines : List CkptLine
  teams : List Saved
  pages : Tab (List Byte)
  packet : List Byte
  deriving DecidableEq, Repr

/-- R195. A firmware image as the root of trust holds it. -/
structure Firmware where
  svn : Nat
  digest : BitVec 512
  deriving DecidableEq, Repr

/-- R193. What the ROM is doing. -/
inductive Boot where
  | idle
  /-- fetching from a source: index in the order of BOOTSRC, and for the network which port -/
  | network (source port : Nat)
  | hostLink (source : Nat)
  | hostImage (source : Nat)
  /-- verifying an image that has arrived -/
  | verifying (source : Nat) (image : List Byte)
  | started (source : Nat)
  | committed
  | waiting
  deriving DecidableEq, Repr

/-- R233 to R235. A hand-over in progress: its kind, the new image and the retained old one. -/
structure Hand where
  kind : Nat
  image : Firmware
  old : Firmware
  switched : Bool
  alive : Bool
  deriving DecidableEq, Repr

/-- R233. The hand-over record, by section. -/
structure HandRec where
  version : Nat
  kind : Nat
  oldSvn : Nat
  newSvn : Nat
  /-- Boards: slots, slot writes decided, slots that are left, room that is made -/
  boards : Tab (BitVec 512)
  placing : Tab (BitVec 512)
  leaving : List Nat
  reserved : List Reserve
  /-- launch tables: accepted launches, candidate order, compartments, windows, logs, areas, requests -/
  launches : Tab Launch
  accepted : Nat
  nextLid : Nat
  waiting : List Waiting
  resident : List Resident
  comps : Tab Comp
  windows : Tab (BitVec 128)
  winPages : Tab (List (Option Nat))
  logs : List Log
  heldLogs : List HeldLog
  swaps : List Saved
  stepAreas : List Saved
  requests : List Request
  asked : List Request
  /-- Sett placement -/
  setts : Tab Sett
  transits : List Transit
  /-- Timetable: control words and class blocks, in force and for the next boundary -/
  ctl : Tab W64
  cls : Tab (BitVec 256)
  ctlNext : Tab W64
  clsNext : Tab (BitVec 256)
  /-- fabric routes and session handles -/
  sessions : Tab Session
  nimmet : Tab Nimmet
  deriving DecidableEq, Repr

/-- R93. An invalidation in progress: its compartment, and the number that accesses made before it lie below. -/
structure Invalidation where
  comp : Nat
  upto : Nat
  /-- the memory that is released at its completion: addresses and bytes -/
  pages : List (Nat × Nat) := []
  deriving DecidableEq, Repr

/-- Operands of an event: what it names, and the bytes it brings. -/
structure EvArg where
  a : Nat := 0
  b : Nat := 0
  c : Nat := 0
  d : Nat := 0
  body : List Byte := []
  deriving DecidableEq, Repr

/-- An event from outside, or one that falls due. -/
structure Event where
  row : Instr
  arg : EvArg
  deriving DecidableEq, Repr

/-- An event that falls due at a cycle; an early one comes before the issue of that cycle. -/
structure Due where
  cyc : Nat
  early : Bool
  ev : Event
  deriving DecidableEq, Repr

/-- The bundle being issued, as its moves see it (R237): the context, the slot, LIMM, the slot's INV and MALIAS
bits, and the bundle's number. -/
structure Issue where
  ctx : Nat := 0
  slot : Nat := 0
  limm : BitVec 32 := 0
  inv : Bool := false
  malias : Bool := false
  deriving DecidableEq, Repr

/-- Why a machine stops: only a step of a package without power. -/
inductive Fault where
  /-- Raised by `step` when the package has no power and no power-up is at hand (R9): nothing executes.
  Safe: no hardware runs either. -/
  | unpowered
  deriving DecidableEq, Repr

/-- Why an instruction has no meaning. -/
inductive Refusal where
  /-- Raised by an arm of `exec` whose instruction has no meaning yet, by name. Safe: nothing is claimed. -/
  | notModelled (mnemonic : String)
  deriving DecidableEq, Repr

/-- The cores and what stands beside them (R20, R22): which context issues, the instruction stores, the
accumulator banks held, the matrix calls running, failing bundles and elements (R217), absent cores and spares
used (R18). -/
structure Cores where
  cores : Tab Core := []
  istore : Tab (BitVec 256) := []
  failBundle : List Nat := []
  banks : Tab Bank := []
  failAcc : List Nat := []
  calls : Tab Call := []
  absent : List Nat := []
  spares : Tab Nat := []
  deriving DecidableEq, Repr

/-- Memory (R84, R77), tags, failing words (R447) and ports (R441), and everything on its way to or from it. -/
structure MemSt where
  mem : Memory := []
  spad : Memory := []
  /-- scratchpad words whose tag is full (core × 2^19 + word) -/
  full : List Nat := []
  failMem : List Nat := []
  failSpad : List Nat := []
  former : List Former := []
  failPorts : List Nat := []
  accs : List Acc := []
  arrivals : List Arrival := []
  tagq : List TagReq := []
  holds : Tab HoldBuf := []
  tlb : List Tlb := []
  walks : List Walk := []
  /-- R209: the class whose walk each die began last -/
  walkLast : Tab Nat := []
  /-- R92: PAGE faults with the demand-mapping service (context, compartment, page) -/
  demand : List (Nat × Nat × Nat) := []
  invals : List Invalidation := []
  lines : Tab Line := []
  deriving DecidableEq, Repr

/-- Teams (R163 to R192): Boards, crews, launches, Zitrum's queue, waiting and resident teams, swap and step
areas, order logs, AGE and QUANTUM, the Setts. -/
structure Teams where
  boards : Tab (BitVec 512) := []
  /-- R174: slot writes that Zitrum has decided and not yet made; slots whose team is being swapped out -/
  placing : Tab (BitVec 512) := []
  leaving : List Nat := []
  reserved : List Reserve := []
  /-- R179: members of each crew (Board slot × 8 + crew), and those whom its open barrier awaits -/
  crews : Tab (List Nat) := []
  crewOpen : Tab (List Nat) := []
  launches : Tab Launch := []
  accepted : Nat := 0
  nextLid : Nat := 1
  waiting : List Waiting := []
  resident : List Resident := []
  swaps : List Saved := []
  stepAreas : List Saved := []
  logs : List Log := []
  heldLogs : List HeldLog := []
  age : Nat := 32
  quantum : Nat := 8
  setts : Tab Sett := []
  settOps : List SettOp := []
  transits : List Transit := []
  deriving DecidableEq, Repr

/-- The engines and links (R24, R204, R442): commands not retired, statuses waiting, sends and receives posted
per channel, sessions, Nimmet ports. -/
structure Engines where
  cmds : List Cmd := []
  writes : List EngWrite := []
  /-- R395: chunks that have arrived to be added, by command and number, in the order of their arrival -/
  landing : List (Nat × Nat) := []
  statusWaits : List StatusWait := []
  posted : Tab (Nat × Nat) := []
  peerPosts : List PeerPost := []
  sessions : Tab Session := []
  nimmet : Tab Nimmet := []
  deriving DecidableEq, Repr

/-- Compartments (R201) and the Timetable (R206, R207): registers in force and as written for the next
boundary, remaining budgets, the period and the next boundary, pages handed out per stack or port. -/
structure Table where
  comps : Tab Comp := []
  ctl : Tab W64 := []
  cls : Tab (BitVec 256) := []
  ctlNext : Tab W64 := []
  clsNext : Tab (BitVec 256) := []
  budgets : List Budget := []
  /-- R210: units that each lender has lent in this period (in `left`), and the classes that wait -/
  lentOut : List Budget := []
  wants : List Want := []
  period : Nat := 16384
  nextBoundary : Nat := 16384
  periods : Nat := 0
  freePages : Tab Nat := []
  /-- R93: memory that has been released: addresses and bytes, rising -/
  freed : List (Nat × Nat) := []
  nextKey : Nat := 1
  deriving DecidableEq, Repr

/-- The host port (R433 to R440): slots, Zitrum's requests, notices, staging window and GO, PKGINFO, shared
windows, what the latest host read returned, the link. -/
structure HostPort where
  slots : Tab HostSlot := []
  requests : List Request := []
  /-- requests taken whose answer waits for a later event; replies sent on the management ports -/
  waiting : List Request := []
  replies : List (Nat × List Byte) := []
  ncount : Nat := 0
  notices : Tab (W64 × W64) := []
  stageGo : Bool := false
  staging : Memory := []
  pkginfo : W64 := 0
  windows : Tab (BitVec 128) := []
  /-- the physical pages of each window; none for one that has been unmapped -/
  winPages : Tab (List (Option Nat)) := []
  /-- R434: host accesses that have been accepted and wait, in order, behind one that a replay holds -/
  behind : List Event := []
  readback : List Byte := []
  hostLink : Bool := false
  /-- R433: the MSI-X messages sent, by vector, in order -/
  msix : List Nat := []
  deriving DecidableEq, Repr

/-- The root of trust (R193 to R198, R232 to R236). -/
structure Rot where
  boot : Boot := .idle
  /-- the Stationmaster runs Zitrum -/
  zitrum : Bool := true
  bootStatus : W64 := 0
  handStatus : W64 := 0
  floor : Nat := 0
  floors : Tab Nat := []
  firmware : Tab Firmware := []
  alive : Option Nat := none
  hand : Option Hand := none
  /-- R235: the deadline of a hand-over, in ms -/
  deadline : Nat := 50
  /-- R233: where the hand-over record stands in the memory of compartment 0: address and bytes -/
  record : Option (Nat × Nat) := none
  /-- R198: the device key has been derived -/
  devKey : Bool := true
  deriving DecidableEq, Repr

/-- The package. -/
structure State where
  powered : Bool
  /-- R252: cycles from power-up -/
  cycle : Nat
  /-- the model's own: operands of the running event -/
  ev : EvArg
  /-- the model's own: events from outside, in order of arrival -/
  inputs : List Event
  /-- the model's own: events that fall due -/
  agenda : List Due
  /-- the model's own: latencies that the manual leaves open, to be used next; 1 when none is listed -/
  delays : List Nat
  /-- the model's own: the next free value -/
  free : Nat
  /-- the model's own: the bundle being issued -/
  iss : Issue
  /-- the model's own: the next identifier -/
  nextId : Nat
  ctxs : Tab Ctx
  cr : Cores
  ms : MemSt
  tm : Teams
  en : Engines
  tt : Table
  ho : HostPort
  rt : Rot
  deriving DecidableEq, Repr

/-- The machine right after reset (R9): the root of trust has handed the package to the Stationmaster. No
program is bound (R168: every V is 0), the Timetable's period is 64 × 256 cycles with every class out of use
(R207), AGE is 32 and QUANTUM 8 (R173, R175), and every register map holds its reset column. -/
def State.reset : State where
  powered := true
  cycle := 0
  ev := {}
  inputs := []
  agenda := []
  delays := []
  free := 0
  iss := {}
  nextId := 0
  ctxs := []
  cr := {}
  ms := {}
  tm := {}
  en := {}
  tt := {}
  ho := {}
  rt := {}

end Sys2Proof.Machine
end

