-- ==== Sys2Proof/Machine/Ops.lean ====
section
/-! DEFINITION. The named operations over tables, memory, registers, ports and queues; results in flight
(R260, R262); the snapshot (R215); taking a trap (R214) and returning from one (R406). Every meaning uses
these and nothing else to touch the state. -/

namespace Sys2Proof.Machine

/-! ### Tables and sets -/

/-- The entry of a key, if listed. -/
def tget {α : Type} : Tab α → Nat → Option α
  | [], _ => none
  | (k, v) :: t, n => if k = n then some v else tget t n

/-- Sets the entry of a key, keys kept rising. -/
def tput {α : Type} (n : Nat) (v : α) : Tab α → Tab α
  | [] => [(n, v)]
  | (k, w) :: t => if k = n then (n, v) :: t else if n < k then (n, v) :: (k, w) :: t else (k, w) :: tput n v t

/-- Removes a key. -/
def tdel {α : Type} (n : Nat) : Tab α → Tab α
  | [] => []
  | (k, w) :: t => if k = n then tdel n t else (k, w) :: tdel n t

/-- Adds a number to a rising list without repeats. -/
def sins (n : Nat) : List Nat → List Nat
  | [] => [n]
  | k :: t => if k = n then k :: t else if n < k then n :: k :: t else k :: sins n t

/-- Removes a number. -/
def sdel (n : Nat) : List Nat → List Nat
  | [] => []
  | k :: t => if k = n then sdel n t else k :: sdel n t

/-! ### Memory (R6) -/

/-- What a byte reads as: an unlisted byte reads 0 (R170, R202; assumption 3). -/
def rdByte : Memory → Nat → Byte
  | [], _ => 0
  | (a, b) :: t, n => if a = n then b else rdByte t n

/-- Writes a byte, keeping the canonical form. -/
def wrByte (n : Nat) (v : Byte) : Memory → Memory
  | [] => if v = 0 then [] else [(n, v)]
  | (a, b) :: t =>
    if a = n then (if v = 0 then t else (n, v) :: t)
    else if n < a then (if v = 0 then (a, b) :: t else (n, v) :: (a, b) :: t)
    else (a, b) :: wrByte n v t

/-- Every address of a memory is at or above a bound, they rise strictly, and no byte is 0. -/
def memOk (lo : Nat) : Memory → Bool
  | [] => true
  | (a, b) :: t => decide (lo ≤ a) && (b != 0) && memOk (a + 1) t

/-- The canonical form of a memory. -/
def memWf (m : Memory) : Bool := memOk 0 m

/-- The n bytes from an address, as a list. -/
def rdBytes (m : Memory) (a : Nat) : Nat → List Byte
  | 0 => []
  | n + 1 => rdByte m a :: rdBytes m (a + 1) n

/-- Writes bytes from an address upward. -/
def wrBytes (a : Nat) : List Byte → Memory → Memory
  | [], m => m
  | b :: t, m => wrBytes (a + 1) t (wrByte a b m)

/-- R6. Bytes as a value, the first lowest. -/
def vecOf : List Byte → Vec
  | [] => 0
  | b :: t => (b.setWidth 2048) ||| (vecOf t <<< 8)

/-- R6. The low n bytes of a value, the lowest first. -/
def bytesOf (v : Vec) : Nat → List Byte
  | 0 => []
  | n + 1 => v.setWidth 8 :: bytesOf (v >>> 8) n

/-- The n-byte little-endian number at an address. -/
def rdNat (m : Memory) (a n : Nat) : Nat := (vecOf (rdBytes m a n)).toNat

/-- The n-byte little-endian encoding of a number. -/
def natBytes (x : Nat) : Nat → List Byte
  | 0 => []
  | n + 1 => BitVec.ofNat 8 x :: natBytes (x / 256) n

/-- The number that little-endian bytes encode. -/
def bytesNat : List Byte → Nat
  | [] => 0
  | b :: t => b.toNat + 256 * bytesNat t

/-- Removes the listed bytes of a region. -/
def memDrop (lo n : Nat) (m : Memory) : Memory := m.filter fun c => decide (c.1 < lo ∨ lo + n ≤ c.1)

/-- The listed bytes of a region. -/
def memTake (lo n : Nat) (m : Memory) : Memory := m.filter fun c => decide (lo ≤ c.1 ∧ c.1 < lo + n)

/-- The low n bytes of a value, zero-extended (R255). -/
def lowBytes (n : Nat) (v : Vec) : Vec := v &&& (BitVec.allOnes 2048 >>> (2048 - 8 * n))

/-- A 64-bit word as a value. -/
def ofW (w : W64) : Vec := w.setWidth 2048
/-- The low 64 bits of a value. -/
def toW (v : Vec) : W64 := v.setWidth 64

/-! ### Contexts and identifiers (R17) -/

/-- A context's state. -/
def State.ctx (s : State) (c : Nat) : Ctx := (tget s.ctxs c).getD {}
def State.setCtx (s : State) (c : Nat) (x : Ctx) : State := { s with ctxs := tput c x s.ctxs }

/-- R22. The latest cycle in which a context came to issue and was not held. -/
def Ctx.spentAt (x : Ctx) : Option Nat := if x.blocked = .none then x.tried else none

/-- R169, R22. A context number takes on the state of a member; the core's use of the cycle stands. -/
def State.bindCtx (s : State) (c : Nat) (x : Ctx) : State := s.setCtx c { x with tried := (s.ctx c).spentAt }
def State.modCtx (s : State) (c : Nat) (f : Ctx → Ctx) : State := s.setCtx c (f (s.ctx c))

/-- R17. Package numbers. -/
def coreOf (c : Nat) : Nat := c / 4
def clusterOf (c : Nat) : Nat := c / 64
def dieOf (c : Nat) : Nat := c / 576
def clusterDie (cl : Nat) : Nat := cl / 9

def State.core (s : State) (k : Nat) : Core := (tget s.cr.cores k).getD {}
def State.setCore (s : State) (k : Nat) (x : Core) : State := { s with cr := { s.cr with cores := tput k x s.cr.cores } }

/-- Field [hi:lo] of a number. -/
def fld (x hi lo : Nat) : Nat := (x >>> lo) % 2 ^ (hi + 1 - lo)

/-- R168. Word k of a Board slot, as a number. -/
def bword (b : BitVec 512) (k : Nat) : Nat := (b >>> (64 * k)).toNat % 2 ^ 64

/-- The Board slot of a context, all zero when it has none. -/
def State.board (s : State) (c : Nat) : BitVec 512 := (tget s.tm.boards (s.ctx c).slot).getD 0
def bComp (b : BitVec 512) : Nat := fld (bword b 0) 61 56
def bMode (b : BitVec 512) : Nat := fld (bword b 0) 55 54
def bPrio (b : BitVec 512) : Nat := fld (bword b 0) 53 51
def bTeamsz (b : BitVec 512) : Nat := fld (bword b 0) 50 44
def bTeam (b : BitVec 512) : Nat := fld (bword b 0) 31 0
def bMemb (b : BitVec 512) : Nat := bword b 1
def bBanks (b : BitVec 512) : Nat := fld (bword b 2) 42 35
def bWsize (b : BitVec 512) : Nat := fld (bword b 2) 34 25
def bIlen (b : BitVec 512) : Nat := fld (bword b 2) 24 12
def bIbase (b : BitVec 512) : Nat := fld (bword b 2) 11 0
def bLclus (b : BitVec 512) : Nat := fld (bword b 3) 23 16
def bLid (b : BitVec 512) : Nat := fld (bword b 3) 15 0
def bWbase (b : BitVec 512) (core : Nat) : Nat := fld (b >>> 256).toNat (9 * core + 8) (9 * core)
def bLcore (b : BitVec 512) (core : Nat) : Nat := fld (bword b 7) (4 * core + 3) (4 * core)

/-- Whether a mode is deterministic (R181), or a gain mode (R164). -/
def modeDet (m : Nat) : Bool := m % 2 == 1
def modeGain (m : Nat) : Bool := decide (2 ≤ m)

/-- The number of set bits below n. -/
def popBelow (x : Nat) : Nat → Nat
  | 0 => 0
  | n + 1 => popBelow x n + (if x.testBit n then 1 else 0)

/-- R168, R171. Whether a context of the cluster (core × 4 + context) is a member, and its team rank. -/
def isMember (b : BitVec 512) (i : Nat) : Bool := (bMemb b).testBit i
def teamRank (b : BitVec 512) (i : Nat) : Nat := popBelow (bMemb b) i

/-- The members of a slot of a cluster, as package numbers. -/
def membersOf (key : Nat) (b : BitVec 512) : List Nat :=
  ((List.range 64).filter (isMember b)).map fun i => (key / 64) * 64 + i

/-- R171. Rank of a context. -/
def State.rank (s : State) (c : Nat) : Nat :=
  let b := s.board c
  bTeam b * bTeamsz b + teamRank b (c % 64)

/-- R171, R181, R301. The core, cluster and die numbers that a program sees. -/
def State.seenCore (s : State) (c : Nat) : Nat :=
  let b := s.board c
  if modeDet (bMode b) then bLcore b (c / 4 % 16) else c / 4 % 16
def State.seenCluster (s : State) (c : Nat) : Nat :=
  let b := s.board c
  if modeDet (bMode b) then bLclus b % 9 else clusterOf c % 9
def State.seenDie (s : State) (c : Nat) : Nat :=
  let b := s.board c
  if modeDet (bMode b) then bLclus b / 9 else dieOf c
/-- The launch of a context. -/
def State.launchOf (s : State) (c : Nat) : Option Launch := tget s.tm.launches (bLid (s.board c))

/-- R181. The logical position of a team rank: slot × TEAMSZ + team rank. -/
def logicalPos (team teamsz lclust rank : Nat) : Nat := team / lclust % (64 / teamsz) * teamsz + rank

/-- R181, R301. The logical context of a member in a deterministic mode; otherwise the physical one. -/
def State.seenCtx (s : State) (c : Nat) : Nat :=
  let b := s.board c
  if modeDet (bMode b) then
    logicalPos (bTeam b) (bTeamsz b) (((s.launchOf c).map (·.lclust)).getD 1) (teamRank b (c % 64)) % 4
  else c % 4

/-- The text of a launch changed. -/
def State.modLaunch (s : State) (lid : Nat) (f : Launch → Launch) : State :=
  match tget s.tm.launches lid with
  | some l => { s with tm := { s.tm with launches := tput lid (f l) s.tm.launches } }
  | none => s

/-! ### Scheduling -/

/-- A latency that the manual leaves open: the next listed one, at least 1, or 1. -/
def State.delay (s : State) : Nat × State :=
  match s.delays with
  | [] => (1, s)
  | d :: t => (max 1 d, { s with delays := t })

/-- The next open choice among several outcomes that the manual allows; 0 where none is listed. -/
def State.pick (s : State) : Nat × State :=
  match s.delays with
  | [] => (0, s)
  | d :: t => (d, { s with delays := t })

/-- Puts an event on the agenda. -/
def State.after (s : State) (cyc : Nat) (early : Bool) (row : Instr) (arg : EvArg) : State :=
  { s with agenda := s.agenda ++ [{ cyc := cyc, early := early, ev := { row := row, arg := arg } }] }

/-- Takes an event off the agenda, by its row and first operand. -/
def State.cancel (s : State) (row : Instr) (a : Nat) : State :=
  { s with agenda := s.agenda.filter fun d => !(decide (d.ev.row = row) && d.ev.arg.a == a) }

/-- A fresh identifier. -/
def State.fresh (s : State) : Nat × State := (s.nextId, { s with nextId := s.nextId + 1 })

/-- Assumption 2. The next free value. -/
def State.freeVal (s : State) : Vec × State := (Config.freeValue s.free, { s with free := s.free + 1 })

/-! ### Register space (R247, R250, R252) -/

/-- Index base of a view (R248). -/
def xbaseOf (x : Ctx) (view : Nat) : Nat :=
  match view with
  | 0 => x.xs.toNat
  | 1 => x.xd.toNat
  | 2 => x.xv.toNat
  | _ => x.xh.toNat

/-- BASE of a view (R246). -/
def baseOf (x : Ctx) (view : Nat) : Nat :=
  match view with
  | 0 => x.vws.toNat
  | 1 => x.vwd.toNat
  | 2 => x.vwv.toNat
  | _ => x.vwh.toNat

/-- R247. The bytes that a register port names. -/
def resolve (x : Ctx) (port : Nat) : Dest :=
  let view := portView port
  let size := viewBytes view
  let number := if port.testBit 8 then (port % 64 + xbaseOf x view) % 64 else port % 64
  { first := (baseOf x view + size * number) % 32768, size := size }

/-- Bytes of the register space, zero-extended. -/
def regRead (x : Ctx) (d : Dest) : Vec := lowBytes d.size ((x.regs >>> (8 * d.first)).setWidth 2048)

/-- Writes the low bytes of a value into the register space. -/
def regPut (r : BitVec 262144) (d : Dest) (v : Vec) : BitVec 262144 :=
  let mask := (lowBytes d.size (BitVec.allOnes 2048)).setWidth 262144 <<< (8 * d.first)
  (r &&& ~~~mask) ||| ((lowBytes d.size v).setWidth 262144 <<< (8 * d.first))

/-- The units of a range become full. -/
def unitsFull (d : Dest) (u : Tab UnitSt) : Tab UnitSt :=
  u.filter fun e => decide (e.1 < d.first / 2 ∨ (d.first + d.size + 1) / 2 ≤ e.1)

/-- Lists a state for n units from one on. -/
def unitsList (st : UnitSt) (lo : Nat) : Nat → Tab UnitSt → Tab UnitSt
  | 0, u => u
  | n + 1, u => unitsList st (lo + 1) n (tput lo st u)

/-- The units of a range take a state. -/
def unitsSet (d : Dest) (st : UnitSt) (u : Tab UnitSt) : Tab UnitSt :=
  unitsList st (d.first / 2) ((d.first + d.size + 1) / 2 - d.first / 2) (unitsFull d u)

/-- R250. Every write sets the units full and clears a failed mark. -/
def regWrite (x : Ctx) (d : Dest) (v : Vec) : Ctx :=
  { x with regs := regPut x.regs d v, units := unitsFull d x.units }

/-- R252. The cycle at which an ephemeral write of cycle c expires. -/
def expiryOf (c : Nat) : Nat := 512 * (c / 512) + 1023

/-- R252. An ephemeral write. -/
def regWriteEph (x : Ctx) (d : Dest) (v : Vec) (cycle : Nat) : Ctx :=
  { x with regs := regPut x.regs d v, units := unitsSet d (.ephemeral (expiryOf cycle)) x.units }

/-- What a register read finds (R250). -/
inductive RegSt where
  | full
  | empty
  | failed (addr : W64) (loc : Nat)
  deriving DecidableEq, Repr

/-- R250. The state of a range: failed if any unit is failed, else empty if any is empty or has expired. Where loads of
several addresses failed its units, the first failed unit says what MEMUE reports (assumption 151). -/
def regState (x : Ctx) (d : Dest) (cycle : Nat) : RegSt :=
  let us := x.units.filter fun e => decide (d.first / 2 ≤ e.1 ∧ e.1 < (d.first + d.size + 1) / 2)
  match us.findSome? (fun e => match e.2 with | .failed a l => some (a, l) | _ => none) with
  | some (a, l) => .failed a l
  | none =>
    if us.any (fun e => match e.2 with
      | .empty => true
      | .ephemeral t => decide (t ≤ cycle)
      | .failed _ _ => false) then .empty else .full

/-! ### Ports (R259, R260, R301) -/

/-- What an operand port holds. -/
def opnd (x : Ctx) (p : Nat) : Vec := (tget x.opnd p).getD (operandReset p)

/-- R255, R288. Writes an operand port at its width. -/
def setOpnd (x : Ctx) (p : Nat) (v : Vec) : Ctx :=
  { x with opnd := tput p (lowBytes ((operandWidth p).getD 0) v) x.opnd }

/-- What a result port holds. -/
def resPort (x : Ctx) (p : Nat) : Vec := (tget x.res p).getD 0

/-- Writes a result port at its width. -/
def setRes (x : Ctx) (p : Nat) (v : Vec) : Ctx :=
  { x with res := tput p (lowBytes ((resultWidth p).getD 0) v) x.res }

/-- TACT of the trap record (R213). -/
def tact (x : Ctx) : Bool := x.cause.getLsbD 20

/-- R301. The value of a state port. -/
def stateVal (s : State) (c p : Nat) : Vec :=
  let x := s.ctx c
  let b := s.board c
  let n (v : Nat) : Vec := BitVec.ofNat 2048 (v % 2 ^ 32)
  match p with
  | 0x3C0 => n (s.seenCtx c)
  | 0x3C1 => n (s.rank c)
  | 0x3C2 => n (teamRank b (c % 64))
  | 0x3C3 => n (bTeamsz b)
  | 0x3C4 => n (bTeam b)
  | 0x3C5 => n (s.seenCore c)
  | 0x3C6 => n (s.seenCluster c)
  | 0x3C7 => n (s.seenDie c)
  | 0x3C8 => n (bLid b)
  | 0x3C9 => n (bMode b)
  | 0x3CA => n s.cycle
  | 0x3CB => n (s.cycle / 2 ^ 32)
  | 0x3D0 => x.cause.setWidth 2048
  | 0x3D1 => x.tpc.setWidth 2048
  | 0x3D2 => x.tnext.setWidth 2048
  | 0x3D3 => ofW x.info0
  | 0x3D4 => ofW x.info1
  | _ => 0

/-- The entries of a queue, oldest first (R334). -/
def queueOf (x : Ctx) (q : Nat) : List W64 := (tget x.queues q).getD []
def setQueue (x : Ctx) (q : Nat) (l : List W64) : Ctx := { x with queues := tput q l x.queues }

/-- R254, R255. The value of a source, carried as R341 says: a scalar extended to 8 bytes, other bytes 0.
Queue heads give the entry at the head. -/
def srcValue (s : State) (c : Nat) (src : Nat) (limm : BitVec 32) : Vec :=
  let x := s.ctx c
  if isRegPort src then regRead x (resolve x src)
  else if src < 0x300 then resPort x src
  else if src < 0x340 then ofW ((BitVec.ofNat 6 src).signExtend 64)
  else if src = 0x340 then limm.setWidth 2048
  else if src = 0x341 then ofW (limm.signExtend 64)
  else if src = 0x342 then ofW (x.pc.setWidth 64 + limm.signExtend 64)
  else if src < 0x390 then ofW ((queueOf x (src - 0x380)).headD 0)
  else stateVal s c src

/-! ### Results in flight (R260, R261, R262) -/

/-- One effect of a landing result. -/
def landOne (x : Ctx) : Land → Ctx
  | .port p v => setRes x p v
  | .reg d v => regWrite x d v
  | .xbase 0 v => { x with xs := v }
  | .xbase 1 v => { x with xd := v }
  | .xbase 2 v => { x with xv := v }
  | .xbase _ v => { x with xh := v }
  | .view 0 v => { x with vws := v }
  | .view 1 v => { x with vwd := v }
  | .view 2 v => { x with vwv := v }
  | .view _ v => { x with vwh := v }
  | .flags f => { x with flags := x.flags ||| f.setWidth 32 }
  | .queue _ _ v d =>
    let y := setRes x 0x2A0 (ofW v)
    match d with
    | some d => regWrite y d (ofW v)
    | none => y

/-- Lands results in the order given. -/
def landAll (x : Ctx) (fs : List Flight) : Ctx := fs.foldl (fun y f => f.acts.foldl landOne y) x

/-- R262. Lands every result due at a cycle: in unit-block order, within one unit in trigger order. -/
def landDue (x : Ctx) (cycle : Nat) : Ctx :=
  let due := x.flights.filter fun f => decide (f.due ≤ cycle)
  let sorted := (List.range 12).flatMap fun u => due.filter fun f => f.unit == u
  landAll { x with flights := x.flights.filter fun f => decide (cycle < f.due) } sorted

/-- Adds a result in flight. -/
def State.fly (s : State) (c : Nat) (f : Flight) : State :=
  s.modCtx c fun x => { x with flights := x.flights ++ [f] }

/-! ### Pending bytes (R140) -/

/-- R140. Adds to, and subtracts from, the pending-byte counters. -/
def pendAdd (p : Pend) (n : Nat) : Pend :=
  let b := BitVec.ofNat 56 n
  { ctx := p.ctx + b, core := p.core + b, clu := p.clu + b, die := p.die + b, pkg := p.pkg + b, sys := p.sys + b }
def pendSub (p : Pend) (n : Nat) : Pend :=
  let b := BitVec.ofNat 56 n
  { ctx := p.ctx - b, core := p.core - b, clu := p.clu - b, die := p.die - b, pkg := p.pkg - b, sys := p.sys - b }
/-- R384. Subtracts bytes that are performed at ctx to pkg, and bytes that are performed at sys. -/
def pendPart (p : Pend) (n m : Nat) : Pend := { pendSub p n with sys := p.sys - BitVec.ofNat 56 m }
/-- R140. Counter of a scope code. -/
def pendOf (p : Pend) (scope : Nat) : BitVec 56 :=
  match scope with
  | 0 => p.ctx | 1 => p.core | 2 => p.clu | 3 => p.die | 4 => p.pkg | _ => p.sys
/-- R140. Whether an addition fits every counter. -/
def pendFits (p : Pend) (n : Nat) : Bool := (List.range 6).all fun k => decide ((pendOf p k).toNat + n < 2 ^ 56)

/-! ### Event counters (R414) -/

/-- Counts n events of a kind in a context. -/
def bumpCtx (evt n : Nat) (x : Ctx) : Ctx :=
  { x with counters := x.counters.map fun e =>
      (e.1, if e.2.en ∧ e.2.evt.toNat = evt then { e.2 with count := e.2.count + BitVec.ofNat 48 n } else e.2) }

def State.bump (s : State) (c evt n : Nat) : State := s.modCtx c (bumpCtx evt n)

/-- R414. A cycle in which the Timetable holds a context, or a command of it: counted as the cycle ends, once however many
of its activities are held. -/
def State.noteHeld (s : State) (c : Nat) : State := s.modCtx c fun x => { x with heldAt := some s.cycle }

/-! ### Snapshot, trap, return (R213 to R219, R406) -/

/-- R216. Results in flight at cycle t, by offset. -/
def offsets (t : Nat) (fs : List Flight) : List Flight :=
  (fs.filter fun f => decide (t < f.due)).map fun f => { f with due := f.due - t }

/-- R215. The snapshot of a context at a cycle. -/
def capture (x : Ctx) (t : Nat) : Snap :=
  { opnd := x.opnd, res := x.res, flights := x.replay ++ offsets t x.flights, guards := x.guards, loops := x.loops }

/-- R215. `mx.st` and `mx.row` keep their values when a snapshot is restored. -/
def restoreRes (cur old : Tab Vec) : Tab Vec :=
  let keep (p : Nat) (r : Tab Vec) : Tab Vec := match tget cur p with
    | some v => tput p v r
    | none => tdel p r
  keep 0x280 (keep 0x281 old)

/-- R215. Restores a snapshot; its results in flight wait for the next bundle's issue (R216). -/
def restore (x : Ctx) (p : Snap) : Ctx :=
  { x with opnd := p.opnd, res := restoreRes x.res p.res, replay := p.flights, guards := p.guards, loops := p.loops }

/-- R213. `trap.cause` of a trap: the delay state of R218, TACT and the code. -/
def causeWord (x : Ctx) (code : Nat) (act : Bool) : BitVec 32 :=
  let dly := match x.shadow with | some h => h.left | none => 0
  let shd := x.shadow.isSome
  BitVec.ofNat 32 (code + (if act then 2 ^ 20 else 0) + (if shd then 2 ^ 21 else 0) + dly % 4 * 2 ^ 22)

/-- R218. `trap.next` of a trap. -/
def nextWord (x : Ctx) : BitVec 32 := match x.shadow with | some h => h.target | none => 0

/-- R213. The record of a trap. -/
def writeRecord (x : Ctx) (t : Trap) (act : Bool) : Ctx :=
  { x with cause := causeWord x t.code act, tpc := x.pc, tnext := nextWord x, info0 := t.info0, info1 := t.info1 }

/-- The bookkeeping of a held bundle forgotten. -/
def unhold (x : Ctx) : Ctx :=
  { x with
    blocked := .none, sent := false, answer := none, clusterAt := none, early := none, walked := [], unmade := [], paid := [], onLine := false }

/-- R178, R179, R214, R227. A bundle that does not issue leaves no arrival at a barrier. -/
def noArrival (x : Ctx) : Ctx := { unhold x with atTbar := false, atCbar := none, atStep := false }

/-- R214. The context after a trap at a cycle: at the vector, or stopped when no vector is set or a handler
runs. -/
def trapCtx (x : Ctx) (t : Trap) (cycle : Nat) : Ctx :=
  match tget x.vectors t.code with
  | some v =>
    if tact x then noArrival { writeRecord x t true with run := .stopped }
    else
      noArrival { writeRecord x t true with
        snap := some (capture x cycle), pc := v, loops := [], shadow := none, replay := [] }
  | none => noArrival { writeRecord x t (tact x) with run := .stopped }

/-- R214. Whether the trap is fatal. -/
def trapFatal (x : Ctx) (t : Trap) : Bool := tact x || (tget x.vectors t.code).isNone

/-- R19, R228, R229. A step is to be abandoned: Zitrum stops the launch at the event. -/
def State.askAbandon (s : State) (lid : Nat) (why : Nat) : State :=
  s.after s.cycle false .stepAbandon { a := lid, b := why, c := 1 }

/-- R180, R214. A fatal trap: the first one of a launch decides its ending, and Zitrum ends the teams. -/
def State.fatal (s : State) (c : Nat) (t : Trap) : State :=
  let b := s.board c
  let s := s.modLaunch (bLid b) fun l =>
    { l with ending := l.ending <|> some { status := 0x06, cause := t.code, fteam := bTeam b, finfo := t.info0 } }
  s.after s.cycle false .teamEnd { a := bLid b, b := s.rank c, c := t.code }

/-- R214. Takes a trap. MEMUE of a deterministic launch is not delivered: its step is abandoned (R228). -/
def takeTrap (c : Nat) (t : Trap) (s : State) : State :=
  let x := s.ctx c
  let b := s.board c
  if t.code = 0x18 ∧ modeDet (bMode b) then
    (s.setCtx c { unhold x with run := .preempted }).askAbandon (bLid b) 0x18
  else
    let s1 := (s.setCtx c (trapCtx x t s.cycle)).bump c 5 1
    if trapFatal x t then s1.fatal c t else s1

/-- R406, R211. Trap-return with TACT = 1: the snapshot restored, TACT cleared, the context at `trap.pc` with
the pending transfer that the record holds; with SHD = 1 and DLY = 0 it goes on at `trap.next` at once. -/
def trapReturn (x : Ctx) : Ctx :=
  let y := match x.snap with | some p => restore x p | none => x
  let dly := (y.cause.extractLsb' 22 2).toNat
  let shd := y.cause.getLsbD 21
  { y with
    cause := y.cause &&& ~~~(1 <<< 20 : BitVec 32)
    snap := none
    pc := if shd ∧ dly = 0 then y.tnext else y.tpc
    shadow := if shd ∧ dly ≠ 0 then some { left := dly, target := y.tnext } else none }

/-! ### The host port (R433, R440) -/

/-- R433. An MSI-X message of a vector goes to the host, over a link that has trained. -/
def sendMsix (s : State) (vector : Nat) : State :=
  if s.ho.hostLink then { s with ho := { s.ho with msix := s.ho.msix ++ [vector] } } else s

/-- R440, R433. Posts a notice, and the message of vector 1. -/
def postNotice (s : State) (kind subject word1 : Nat) : State :=
  let w0 : W64 := BitVec.ofNat 64 (kind + subject * 2 ^ 16)
  sendMsix { s with ho := { s.ho with
    notices := tput (s.ho.ncount % 256) (w0, BitVec.ofNat 64 word1) s.ho.notices, ncount := s.ho.ncount + 1 } } 1

end Sys2Proof.Machine
end

