-- ==== Sys2Proof/Machine/Budget.lean ====
section
/-! DEFINITION. The Timetable's charges (R205 to R207, R210): what a class may use of a resource in a period,
what remains, and whether an activity is served. -/

namespace Sys2Proof.Machine

/-- R207. Word k of the block of a class on a die, as in force. -/
def clsWord (s : State) (die cls k : Nat) : Nat :=
  (((tget s.tt.cls (die * 64 + cls)).getD 0) >>> (64 * k)).toNat % 2 ^ 64

/-- R207. Whether a class is in use on a die. -/
def clsV (s : State) (die cls : Nat) : Bool := fld (clsWord s die cls 0) 63 63 == 1

/-- R205. What a class may use in a period at one site of a resource: 0 slots of a pseudo-channel, and as many of a
second-tier port (assumption 145); 1 flits, 2 walk units of a Badger, 3 and 4 Shuttle units sent and received, 5 matrix
cycles. A class that is not in use is served nothing (assumption 146). -/
def allot (s : State) (die cls res : Nat) : Int :=
  if ¬ clsV s die cls then 0
  else match res with
    | 0 => (fld (clsWord s die cls 0) 55 32 / 4096 : Nat)
    | 1 => fld (clsWord s die cls 0) 23 0
    | 2 => (fld (clsWord s die cls 1) 23 0 / 64 : Nat)
    | 3 => fld (clsWord s die cls 1) 55 32
    | 4 => fld (clsWord s die cls 1) 55 32
    | _ => fld (clsWord s die cls 2) 23 0

/-- R206. What remains in this period. -/
def remaining (s : State) (die cls res site : Nat) : Int :=
  match s.tt.budgets.find? fun b => b.die == die && b.cls == cls && b.res == res && b.site == site with
  | some b => b.left
  | none => allot s die cls res

/-- R210. Units at a site that a class has lent in this period. -/
def lentBy (s : State) (die cls res site : Nat) : Int :=
  match s.tt.lentOut.find? fun b => b.die == die && b.cls == cls && b.res == res && b.site == site with
  | some b => b.left
  | none => 0

/-- R210. LEND and BORROW of a class. -/
def lends (s : State) (die cls : Nat) : Bool := fld (clsWord s die cls 3) 0 0 == 1
def borrows (s : State) (die cls : Nat) : Bool := fld (clsWord s die cls 3) 1 1 == 1

/-- R206. Whether what asked for units still waits for them: a bundle that is held, a command that has not stopped, an
access on its way. -/
def wantStands (s : State) (w : Want) : Bool :=
  if w.who < 2 ^ 20 then
    let x := s.ctx w.who
    x.run == .running && (x.blocked == .budget || x.blocked == .patch)
  else s.en.cmds.any (fun k => k.id + 2 ^ 20 == w.who && k.status.isNone) || s.ms.accs.any fun a => a.id + 2 ^ 20 == w.who

/-- R210. Whether a request of a class waits at a site. -/
def waitsAt (s : State) (die cls res site : Nat) : Bool :=
  s.tt.wants.any fun w => w.die == die && w.cls == cls && w.res == res && w.site == site && wantStands s w

/-- R210. The slots of a lender that are idle: those of its budget that neither it nor a borrower has used, while no request
of its own waits at the site. -/
def idleOf (s : State) (die cls res site : Nat) : Nat :=
  if lends s die cls && !waitsAt s die cls res site then (remaining s die cls res site - lentBy s die cls res site).toNat else 0

/-- R210. The idle slots at a site that a class may be lent. -/
def lendable (s : State) (die cls res site : Nat) : Nat :=
  (List.range 64).foldl (fun n k => if k = cls then n else n + idleOf s die k res site) 0

/-- R210. Whether a borrower of lower number, whose own slots are used up, waits at the site. -/
def outbid (s : State) (die cls res site : Nat) : Bool :=
  s.tt.wants.any fun w => w.die == die && w.res == res && w.site == site && decide (w.cls < cls) &&
    wantStands s w && borrows s die w.cls && decide (0 < allot s die w.cls res) && decide (remaining s die w.cls res site ≤ 0)

/-- R210, R206. In slack mode, the idle slots that go to a class once its own are used up; none to a class whose budget is
0, which is served nothing. -/
def lentUnits (s : State) (die cls res site : Nat) : Nat :=
  if (((tget s.tt.ctl die).getD 0).getLsbD 0) && borrows s die cls && decide (0 < allot s die cls res) &&
      !outbid s die cls res site then lendable s die cls res site else 0

/-- R210. Whether n idle slots go to the class. -/
def lentN (s : State) (die cls res site n : Nat) : Bool := decide (n ≤ lentUnits s die cls res site)

/-- R206, R210. The units that a class can be served now at a site: its own, then idle ones. -/
def avail (s : State) (die cls res site : Nat) : Nat := (remaining s die cls res site).toNat + lentUnits s die cls res site

/-- R206. Whether an activity is served now. -/
def served (s : State) (die cls res site : Nat) : Bool := decide (0 < avail s die cls res site)

/-- R210. Notes n units that a class has lent. -/
def lendUnits (s : State) (die k res site n : Nat) : State :=
  let rest := s.tt.lentOut.filter fun b => !(b.die == die && b.cls == k && b.res == res && b.site == site)
  { s with tt := { s.tt with
    lentOut := rest ++ [{ die := die, cls := k, res := res, site := site, left := lentBy s die k res site + n }] } }

/-- R210. Shares n units out among lenders with their idle slots, in order; the last takes what is over. -/
def shareOut : List (Nat × Nat) → Nat → List (Nat × Nat)
  | [], _ => []
  | [e], n => [(e.1, n)]
  | e :: t, n => (e.1, min n e.2) :: shareOut t (n - min n e.2)

/-- R210. Notes n units as lent to a class, from the lender of lowest number on. -/
def noteLent (die cls res site n : Nat) (s : State) : State :=
  let lenders := ((List.range 64).filter (· != cls)).map fun k => (k, idleOf s die k res site)
  ((shareOut (lenders.filter fun e => e.2 != 0) n).filter fun e => e.2 != 0).foldl
    (fun t e => lendUnits t die e.1 res site e.2) s

/-- Takes units from the remaining budget of a class. -/
def spend (s : State) (die cls res site n : Nat) : State :=
  let left := remaining s die cls res site
  let rest := s.tt.budgets.filter fun b => !(b.die == die && b.cls == cls && b.res == res && b.site == site)
  { s with tt := { s.tt with
    budgets := rest ++ [{ die := die, cls := cls, res := res, site := site, left := left - n }] } }

/-- R206, R210. Serves n units that a class can be served, its own first. -/
def takeUnits (s : State) (die cls res site n : Nat) : State :=
  let own := min n (remaining s die cls res site).toNat
  noteLent die cls res site (n - own) (if own = 0 then s else spend s die cls res site own)

/-- R206. Charges a burst of an engine or a matrix call, whole: what it uses past the budget is an overdraft. A borrower,
whose own slots are used up, is not charged (R210). -/
def charge (s : State) (die cls res site n : Nat) : State :=
  if remaining s die cls res site ≤ 0 then noteLent die cls res site n s else spend s die cls res site n

/-- What an activity needs of one resource: the resource, the site and the units. -/
abbrev Need := Nat × Nat × Nat

/-- R206. Whether an activity is served now on every resource it uses. -/
def servedAll (s : State) (die cls : Nat) (l : List Need) : Bool := l.all fun n => served s die cls n.1 n.2.1

/-- R206. The charge of an activity on every resource it uses. -/
def chargeAll (s : State) (die cls : Nat) (l : List Need) : State :=
  l.foldl (fun t n => charge t die cls n.1 n.2.1 n.2.2) s

/-- R210. Where an activity waits, in place of where it waited before. -/
def State.waitFor (s : State) (die cls who : Nat) (l : List Need) : State :=
  let lack := l.map fun n => ({ die := die, cls := cls, res := n.1, site := n.2.1, who := who } : Want)
  { s with tt := { s.tt with wants := (s.tt.wants.filter fun w => w.who != who && wantStands s w) ++ lack } }

/-- R210. An activity waits for what it lacks now of its needs. -/
def State.want (s : State) (die cls who : Nat) (l : List Need) : State :=
  s.waitFor die cls who (l.filter fun n => decide (avail s die cls n.1 n.2.1 < max 1 n.2.2))

/-- R206. What is still to be served of needs of which some units have been. -/
def paidAt (paid : List Need) (res site : Nat) : Nat :=
  ((paid.find? fun n => n.1 == res && n.2.1 == site).map (·.2.2)).getD 0
def unpaid (paid : List Need) (l : List Need) : List Need := l.map fun n => (n.1, n.2.1, n.2.2 - paidAt paid n.1 n.2.1)
def notePaid (res site n : Nat) (paid : List Need) : List Need :=
  (res, site, paidAt paid res site + n) :: paid.filter fun p => !(p.1 == res && p.2.1 == site)

/-- R206. Whether a class can be served all units of some needs now. -/
def fitsAll (s : State) (die cls : Nat) (l : List Need) : Bool := l.all fun n => decide (n.2.2 ≤ avail s die cls n.1 n.2.1)

/-- R206. Serves the units of needs, as far as the class can be served them; a context notes them. -/
def payNeeds (die cls c : Nat) (l : List Need) (s : State) : State :=
  l.foldl (fun t n =>
    let k := min n.2.2 (avail t die cls n.1 n.2.1)
    (takeUnits t die cls n.1 n.2.1 k).modCtx c fun x => { x with paid := notePaid n.1 n.2.1 k x.paid }) s

/-- R206. At a boundary an overdraft alone carries over. -/
def carryOver (s : State) (bs : List Budget) : List Budget :=
  (bs.filter fun b => decide (b.left < 0)).map fun b => { b with left := allot s b.die b.cls b.res + b.left }

/-- R420, R84. The site of a 64-byte block: its pseudo-channel, or 4096 + its port. -/
def hbmSite (pa : Nat) : Nat := if 2 ^ 44 ≤ pa then 4096 + fld pa 43 40 else 256 * fld pa 39 36 + fld pa 13 6

/-- The 64-byte blocks of an access. -/
def blocksOf (pa n : Nat) : List Nat := (List.range ((pa + n + 63) / 64 - pa / 64)).map fun k => (pa / 64 + k) * 64

/-- R206. What bursts to 64-byte blocks need: a slot each at its site, counted together per site, and a flit each. -/
def burstNeeds (blocks : List Nat) : List Need :=
  let sites := blocks.map hbmSite
  if blocks.isEmpty then [] else (1, 0, blocks.length) :: sites.eraseDups.map fun k => (0, k, sites.count k)

/-- R206. What the accesses of a context's bundle to blocks of global memory still need: a slot and a flit for each. -/
def blockNeeds (s : State) (c : Nat) (blocks : List Nat) : List Need :=
  if blocks.isEmpty then [] else unpaid (s.ctx c).paid (burstNeeds blocks)

/-- R206. Whether the accesses of a context's bundle to blocks of global memory are served now. -/
def blocksServed (s : State) (c : Nat) (blocks : List Nat) : Bool := fitsAll s (dieOf c) (bComp (s.board c)) (blockNeeds s c blocks)

/-- R206. A bundle whose accesses are not all served is held; those of its bursts that can be are. -/
def holdBlocks (s : State) (c : Nat) (blocks : List Nat) : State :=
  let die := dieOf c
  let comp := bComp (s.board c)
  let t := payNeeds die comp c (blockNeeds s c blocks) s
  (t.noteHeld c).want die comp c (blockNeeds t c blocks)

/-- R206. The accesses of a context's bundle are charged. -/
def chargeBlocks (s : State) (c : Nat) (blocks : List Nat) : State :=
  (blockNeeds s c blocks).foldl (fun t n => takeUnits t (dieOf c) (bComp (s.board c)) n.1 n.2.1 n.2.2) s

end Sys2Proof.Machine
end

