-- ==== Sys2Proof/Machine/Issue.lean ====
section
/-! DEFINITION. Issuing a bundle (R265): what a move of a bundle does, what a trigger checks, waits for and
starts, and the one procedure that issues a list of moves, whole or not at all. -/

namespace Sys2Proof.Machine

/-- A trigger of a bundle as the others see it: its unit, slot and value; whether it is a memory access that may write
(R126), whether it is performed as its bundle issues on the cluster path too (R323), and its bytes, by offset and number. -/
structure Peer where
  unit : Nat
  slot : Nat
  v : Vec
  writes : Bool
  at3 : Bool
  words : List (Nat × Nat)

/-- What a trigger sees of its bundle: the context, the slot, the trigger value, the operand ports that the
bundle's other moves write (R259), the slot's MALIAS bit, and every trigger of the bundle. -/
structure Req where
  c : Nat
  slot : Nat
  v : Vec
  ov : Tab Vec
  malias : Bool
  peers : List Peer

/-- R259. An operand port as the trigger reads it, after every move of its bundle. -/
def Req.port (r : Req) (s : State) (p : Nat) : Vec := (tget r.ov p).getD (opnd (s.ctx r.c) p)

/-- The trigger value as an address. -/
def Req.va (r : Req) : Nat := (toW r.v).toNat

/-- R75. Path of an address. -/
def pathOf (va : Nat) : Nat := fld va 63 60

/-- R78. Whether the team has members on a core of the cluster. -/
def teamOn (b : BitVec 512) (core : Nat) : Bool := bMemb b / 2 ^ (4 * core) % 16 != 0

/-- R75, R181. The physical core of the cluster that a cluster-path core field names, if the team has a window
there. -/
def targetCore (b : BitVec 512) (t : Nat) : Option Nat :=
  if modeDet (bMode b) then (List.range 16).find? fun k => teamOn b k && bLcore b k == t
  else if teamOn b t then some t else none

/-- R323. The core of the cluster whose scratchpad an address names, none on the global paths. -/
def spadTarget (s : State) (c va : Nat) : Option Nat :=
  if pathOf va = 2 then some (coreOf c % 16)
  else if pathOf va = 3 then targetCore (s.board c) (fld va 59 56) else none

/-- R323. Whether the `ls` slots of a bundle name two different target cores. -/
def splitTargets (r : Req) (s : State) : Bool :=
  let ts := (r.peers.filterMap fun e =>
    if e.unit = 4 ∨ e.unit = 5 then spadTarget s r.c (toW e.v).toNat else none).eraseDups
  decide (2 ≤ ts.length)

/-- What a request that must be sent before its bundle issues answers. -/
inductive Commit where
  | go (s : State)
  | held (b : Wait) (s : State)
  | trap (t : Trap)
  /-- R118: a trap of a command that has been performed in part -/
  | refuse (t : Trap) (s : State)

/-- A trigger (R259): its unit block, whether it loads (R126), whether it counts for EXITBAR (R178), whether it
reaches memory or `ec` (R139), and its parts in the order of R265. -/
structure Op where
  unit : Nat
  load : Bool := false
  taint : Bool := true
  /-- R126, R323: a memory access that may write; and one performed as its bundle issues on the cluster path too; its bytes,
  by offset and number -/
  writes : Bool := false
  at3 : Bool := false
  words : Req → State → List (Nat × Nat) := fun _ _ => [(0, 4)]
  /-- R266, R268, R406: BRSHADOW and ILLMOVE, which need no operand -/
  dec : Ctx → Nat → Option Trap := fun _ _ => none
  /-- R314: BRSHADOW of the trigger value, and of the operand ports whose values can be read -/
  shape : Req → (Nat → Bool) → State → Option Trap := fun _ _ _ => none
  /-- R364: checks made before any hold -/
  early : Req → State → List (Nat × Trap) := fun _ _ => []
  /-- holds that only wait, with what waiting starts (a walk) -/
  hold : Req → State → Option (Wait × State) := fun _ _ => none
  /-- R140: bytes that the issue adds to the pending-byte counters -/
  adds : Req → State → Nat := fun _ _ => 0
  /-- R206: the 64-byte blocks of global memory that the access is charged for -/
  blocks : Req → State → List Nat := fun _ _ => []
  /-- R212: the traps that apply, with their class -/
  checks : Req → State → List (Nat × Trap) := fun _ _ => []
  /-- requests sent, or arrivals made, while the bundle is held -/
  commit : Req → State → Commit := fun _ s => .go s
  /-- R101: a patch command, performed or refused as the bundle issues -/
  last : Req → State → Commit := fun _ s => .go s
  effect : Req → State → State

/-- A trigger as the others of its bundle see it. -/
def Op.peer (o : Op) (r : Req) (s : State) : Peer :=
  { unit := o.unit, slot := r.slot, v := r.v, writes := o.writes, at3 := o.at3, words := o.words r s }

/-- R258. What a move does with its value. -/
inductive Act where
  | reg (port : Nat)
  | opnd (port : Nat)
  | guard (g : Nat)
  | queue (q : Nat)
  | nul
  | trig (o : Op)

/-- Whether a move writes a register. -/
def Act.isReg : Act → Bool
  | .reg _ => true
  | .opnd _ => false
  | .guard _ => false
  | .queue _ => false
  | .nul => false
  | .trig _ => false

/-- A move in its slot. -/
structure Part where
  slot : Nat
  mv : Mv
  act : Act
  inv : Bool
  malias : Bool

/-- Source port number of a move. -/
def Part.src (i : Part) : Nat := i.mv.s.toNat

/-- R241. Whether the guard of a move holds. -/
def Part.active (i : Part) (x : Ctx) : Bool :=
  if i.mv.g = 0 then true else x.guards.getLsbD i.mv.g.toNat != i.inv

/-- R211. The traps of this file's checks. -/
def trapIllbundle (slot : Nat) (reserved : Bool) : Trap :=
  { code := 0x01, info1 := BitVec.ofNat 64 (if reserved then slot + 0x100 else slot) }
def trapIllport (port slot : Nat) (dst : Bool) : Trap :=
  { code := 0x02, info0 := BitVec.ofNat 64 port, info1 := BitVec.ofNat 64 (if dst then slot + 0x100 else slot) }
def trapIllmove (slot : Nat) : Trap := { code := 0x03, info1 := BitVec.ofNat 64 slot }
def trapEmpty (first slot : Nat) : Trap :=
  { code := 0x04, info0 := BitVec.ofNat 64 first, info1 := BitVec.ofNat 64 slot }
def trapBrshadow (slot : Nat) : Trap := { code := 0x05, info1 := BitVec.ofNat 64 slot }
/-- R211, R217. MEMUE at a consumer in a slot. -/
def trapMemue (info0 : W64) (loc slot : Nat) : Trap :=
  { code := 0x18, info0 := info0, info1 := BitVec.ofNat 64 (loc + 16 * slot) }

/-- R271, R242. The decode checks of one move. -/
def Part.decode (i : Part) (x : Ctx) : Option Trap :=
  if ¬ srcAssigned i.src then some (trapIllport i.src i.slot false)
  else if i.mv.f && !isRegPort i.src && !i.act.isReg then
    some (trapIllmove i.slot)
  else match i.act with
    | .trig o => if i.active x then o.dec x i.slot else none
    | _ => none

/-- R265. The traps of a register read: MEMUE of a failed register, EMPTY of an empty one with F = 1. -/
def Part.readTrap (i : Part) (x : Ctx) (cycle : Nat) : Option Trap :=
  if isRegPort i.src then
    match regState x (resolve x i.src) cycle with
    | .failed a l => some (trapMemue a l i.slot)
    | .empty => if i.mv.f then some (trapEmpty (resolve x i.src).first i.slot) else none
    | .full => none
  else none

/-- R257. The queue that a move pops. -/
def Part.pops (i : Part) : Option Nat :=
  if decide (0x380 ≤ i.src) && decide (i.src < 0x390) then some (i.src - 0x380) else none

/-- R264, R265. Whether a move waits: an empty register with F = 0, an empty queue head, or a queue tail that is full
after the pops of the bundle (assumption 8). -/
def Part.blocks (i : Part) (popped : List Nat) (x : Ctx) (cycle : Nat) : Wait :=
  if isRegPort i.src ∧ regState x (resolve x i.src) cycle = .empty then .register
  else if (match i.pops with | some q => (queueOf x q).isEmpty | none => false) then .queue
  else match i.act with
    | .queue q => if 16 ≤ (if popped.contains q then (queueOf x q).tail else queueOf x q).length then .queue else .none
    | _ => .none

/-- The first trap of a list of moves. -/
def firstTrap (f : Part → Option Trap) (l : List Part) : Option Trap := l.findSome? f

/-- R212. Of decode causes in slot order, the first in the order ILLBUNDLE, ILLPORT, ILLMOVE, BRSHADOW, in which their
codes rise, and the lowest slot of it. -/
def leastCode : List Trap → Option Trap
  | [] => none
  | t :: rest => match leastCode rest with
    | some u => if u.code < t.code then some u else some t
    | none => some t

/-- The first reason to wait. -/
def firstBlock (popped : List Nat) (x : Ctx) (cycle : Nat) : List Part → Wait
  | [] => .none
  | i :: t => match i.blocks popped x cycle with
    | .none => firstBlock popped x cycle t
    | b => b

/-- R259. The operand-port writes of a bundle, at their widths. -/
def overrides (s : State) (c : Nat) (limm : BitVec 32) (l : List Part) : Tab Vec :=
  l.foldl (fun t i => match i.act with
    | .opnd p => tput p (lowBytes ((operandWidth p).getD 0) (srcValue s c i.src limm)) t
    | _ => t) []

/-- The triggers of a bundle with what each sees. -/
def requests (s : State) (c : Nat) (limm : BitVec 32) (l : List Part) : List (Op × Req) :=
  let ov := overrides s c limm l
  let req (i : Part) (peers : List Peer) : Req :=
    { c := c, slot := i.slot, v := srcValue s c i.src limm, ov := ov, malias := i.malias, peers := peers }
  let peers := l.filterMap fun i => match i.act with
    | .trig o => some (o.peer (req i []) s)
    | _ => none
  l.filterMap fun i => match i.act with
    | .trig o => some (o, req i peers)
    | _ => none

/-- R265. Whether the source of a move can be read now. -/
def Part.readable (i : Part) (x : Ctx) (cycle : Nat) : Bool :=
  (!isRegPort i.src || regState x (resolve x i.src) cycle == .full) &&
    (match i.pops with | some q => !(queueOf x q).isEmpty | none => true)

/-- R314, R212. The BRSHADOW of triggers whose value can be read; it is judged on the operand ports that can be. -/
def shapeTraps (s : State) (c : Nat) (limm : BitVec 32) (l : List Part) : List Trap :=
  let blind := l.filter fun i => !i.readable (s.ctx c) s.cycle
  let known (p : Nat) : Bool := blind.all fun i => match i.act with | .opnd q => q != p | _ => true
  (requests s c limm l).filterMap fun e =>
    if blind.any fun i => i.slot == e.2.slot then none else e.1.shape e.2 known s

/-- R140. Whether the bytes that the triggers of a bundle add together fit every counter. -/
def addsFit (rs : List (Op × Req)) (s : State) (c : Nat) : Bool :=
  pendFits (s.ctx c).pend (rs.foldl (fun n e => n + e.1.adds e.2 s) 0)

/-- R206. The blocks of global memory that the accesses of a bundle are charged for. -/
def blocksOfAll (rs : List (Op × Req)) (s : State) : List Nat := rs.flatMap fun e => e.1.blocks e.2 s

/-- R212, R52. The trap of least class, and within a class of the lowest slot (the list is in slot order); the
ARITH of checked mode, class 6, names the flags and the slots of all its triggers. -/
def leastTrap : List (Nat × Trap) → Option (Nat × Trap)
  | [] => none
  | (n, t) :: rest => match leastTrap rest with
    | some (m, u) =>
      if m < n then some (m, u)
      else if n = 6 ∧ m = 6 then some (6, { t with info0 := t.info0 ||| u.info0, info1 := t.info1 ||| u.info1 })
      else some (n, t)
    | none => some (n, t)

/-- R265, R364. A matrix call that fails its checks traps without waiting; the order of R212 stands. -/
def earlyTrap (rs : List (Op × Req)) (s : State) : Option (Nat × Trap) :=
  if (rs.flatMap fun e => e.1.early e.2 s).isEmpty then none
  else leastTrap (rs.flatMap fun e => e.1.early e.2 s ++ e.1.checks e.2 s)

/-- The holds of the triggers: what each wait has started, and the first reason. -/
def holdAll : List (Op × Req) → State → Wait × State
  | [], s => (.none, s)
  | (o, r) :: t, s => match o.hold r s with
    | some (b, s1) =>
      let (_, s2) := holdAll t s1
      (b, s2)
    | none => holdAll t s

/-- The requests of the triggers in slot order: a trap, or the first reason to wait. -/
def commitAll : List (Op × Req) → Wait → State → Commit
  | [], .none, s => .go s
  | [], b, s => .held b s
  | (o, r) :: t, b, s => match o.commit r s with
    | .go s1 => commitAll t b s1
    | .held b1 s1 => commitAll t (match b with | .none => b1 | _ => b) s1
    | .trap t => .trap t
    | .refuse t _ => .trap t

/-- R101, R212. The commands and line-state checks at the home Badgers, in slot order: also of a patch command beside a load
or store of its own bundle on its line (assumption 148). A wait, or a command performed in part, keeps of the bundle only
its own change. -/
def lastAll (s0 : State) : List (Op × Req) → State → Commit
  | [], s => .go s
  | (o, r) :: rest, s => match o.last r s with
    | .go s1 => lastAll s0 rest s1
    | .trap t => .trap t
    | .held b _ => .held b (match o.last r s0 with
      | .held _ u => u
      | .go _ => s0
      | .trap _ => s0
      | .refuse _ _ => s0)
    | .refuse t _ => .refuse t (match o.last r s0 with
      | .refuse _ u => u
      | .go _ => s0
      | .trap _ => s0
      | .held _ _ => s0)

/-- R257. Pops each queue that the moves read, once. -/
def popQueues (l : List Part) (x : Ctx) : Ctx :=
  (l.filterMap Part.pops).eraseDups.foldl (fun y q => setQueue y q (queueOf y q).tail) x

/-- R262. Notes bytes written by a move, or marked empty by a trigger, in this cycle. -/
def noteWrite (x : Ctx) (d : Dest) (cycle : Nat) : Ctx :=
  { x with wrote := d :: (if x.wroteAt = cycle then x.wrote else []), wroteAt := cycle }

/-- R265. One move that is no trigger: `old` is the context before the bundle, whose views resolve (R247). -/
def moveWrite (old : Ctx) (cycle : Nat) (v : Vec) (i : Part) (x : Ctx) : Ctx :=
  match i.act with
  | .reg p =>
    let d := resolve old p
    noteWrite (if i.mv.f ∧ ¬ isRegPort i.src then regWriteEph x d v cycle else regWrite x d v) d cycle
  | .opnd p => setOpnd x p v
  | .guard g => { x with guards := if v.getLsbD 0 then x.guards ||| ((1 : BitVec 8) <<< g) else x.guards &&& ~~~((1 : BitVec 8) <<< g) }
  | .queue q => setQueue x q (queueOf x q ++ [toW v])
  | .nul => x
  | .trig _ => x

/-- R265. The moves that are no trigger, in slot order. -/
def moveAll (s : State) (c : Nat) (limm : BitVec 32) (l : List Part) (x : Ctx) : Ctx :=
  l.foldl (fun y i => moveWrite (s.ctx c) s.cycle (srcValue s c i.src limm) i y) x

/-- R178. Work that EXITBAR looks for. -/
def taints (l : List (Op × Req)) : Bool :=
  l.any fun e => e.1.taint && (e.1.unit == 8 || e.1.unit == 9 || e.1.unit == 10)

/-- R126. A write of `sy` before the `ls` load of a later slot from the same scratchpad. -/
def beforeLoad (l : List (Op × Req)) (s : State) (e : Op × Req) : Bool :=
  !e.1.load && e.1.unit == 10 && l.any fun f => f.1.load && decide (e.2.slot < f.2.slot) &&
    spadTarget s f.2.c f.2.va == spadTarget s e.2.c e.2.va

/-- R126, R323, R265, R403, R406. The rank in which an operation starts: loads first, then the others, and the one of `sys`
last; beside a second target core the `ls` slots keep their order, with a load of `sy` before them, and a write of `sy` after
the load that it must not precede. Within a rank the slots keep their order. -/
def startRank (l : List (Op × Req)) (s : State) (e : Op × Req) : Nat :=
  let split := splitTargets e.2 s
  if e.1.load then (if split ∧ e.1.unit ≠ 10 then 1 else 0)
  else if e.1.unit = 11 then 3
  else if split ∧ beforeLoad l s e then 2
  else 1

/-- Starts the operations by rank. -/
def effectAll (l : List (Op × Req)) (s : State) : State :=
  ([0, 1, 2, 3].flatMap fun k => l.filter fun e => startRank l s e == k).foldl (fun t e => e.1.effect e.2 t) s

/-- R270. The end tests of the loops after the bundle at pc: repeat, or pop. -/
def loopTest (pc : Nat) : List Loop → Option Nat × List Loop
  | [] => (none, [])
  | l :: t =>
    if l.stop = pc then
      if 1 < l.left then (some l.start, { l with left := l.left - 1 } :: t) else loopTest pc t
    else (none, l :: t)

/-- R267, R270. The next bundle of a context whose bundle has issued; `old` is the shadow it issued in. -/
def advance (old : Option Shadow) (x : Ctx) : Ctx :=
  match x.jump with
  | some (true, p) => { x with pc := p, jump := none }
  | j =>
    match old with
    | some h =>
      if h.left ≤ 1 then { x with pc := h.target, shadow := none, jump := none }
      else { x with pc := x.pc + 1, shadow := some { h with left := h.left - 1 }, jump := none }
    | none =>
      let (n, ls) := loopTest x.pc.toNat x.loops
      { x with
        loops := ls
        jump := none
        pc := match n with
          | some p => BitVec.ofNat 32 p
          | none => match j with
            | some (_, p) => p
            | none => x.pc + 1 }

/-- R22. The core goes on with the context whose bundle has issued; a bundle that traps uses its cycle, and neither counts
here nor makes its context the selected one (assumption 113). -/
def State.noteIssue (s : State) (c : Nat) : State :=
  let k := s.core (coreOf c)
  s.setCore (coreOf c) { cur := c % 4, run := if k.cur = c % 4 then k.run + 1 else 1 }

/-- R216. The results captured by a snapshot land at their offsets from the bundle that issues now. -/
def replayNow (x : Ctx) (cycle : Nat) : Ctx :=
  { x with flights := (x.replay.map fun f => { f with due := f.due + cycle }) ++ x.flights, replay := [] }

/-- Marks a bundle as held. -/
def State.holdBundle (s : State) (c : Nat) (b : Wait) : State := s.modCtx c fun x => { x with blocked := b }

/-- R265. The bundle issues: pops, writes, operations, and the next bundle. -/
def issueNow (c : Nat) (limm : BitVec 32) (active : List Part) (rs : List (Op × Req)) (s : State) : State :=
  let old := (s.ctx c).shadow
  let x := { unhold (replayNow (popQueues active (s.ctx c)) s.cycle) with
    answer := (s.ctx c).answer, walked := (s.ctx c).walked, early := (s.ctx c).early }
  let x := moveAll s c limm active x
  let x := { x with dirty := x.dirty || taints rs }
  let s := effectAll rs (((chargeBlocks s c (blocksOfAll rs s)).setCtx c x).noteIssue c)
  (s.modCtx c fun y => advance old { y with bundles := y.bundles + 1, answer := none, walked := [], early := none }).bump c 2 1

/-- R265. Issues a list of moves in slot order: a trap, a wait, or every move. A page that the demand-mapping service is to
map is waited for before a direct fault of another slot is raised (assumption 115). -/
def issueItems (c : Nat) (limm : BitVec 32) (items : List Part) (s : State) : State :=
  let x := s.ctx c
  let active := items.filter fun i => i.active x
  match leastCode ((items.filterMap fun i => i.decode x) ++ shapeTraps s c limm active) with
  | some t => takeTrap c t s
  | none =>
    match firstTrap (fun i => i.readTrap x s.cycle) active with
    | some t => takeTrap c t s
    | none =>
      match firstBlock (active.filterMap Part.pops) x s.cycle active with
      | .none =>
        let rs := requests s c limm active
        match earlyTrap rs s with
        | some (_, t) => takeTrap c t s
        | none =>
          match holdAll rs s with
          | (.none, _) =>
            if ¬ addsFit rs s c then s.holdBundle c .pwait
            else if ¬ blocksServed s c (blocksOfAll rs s) then (holdBlocks s c (blocksOfAll rs s)).holdBundle c .budget
            else match leastTrap (rs.flatMap fun e => e.1.checks e.2 s) with
            | some (_, t) => takeTrap c t s
            | none =>
              match commitAll rs .none s with
              | .trap t => takeTrap c t s
              | .refuse t _ => takeTrap c t s
              | .held b s1 => s1.holdBundle c b
              | .go s1 =>
                match lastAll s1 rs s1 with
                | .trap t => takeTrap c t s1
                | .refuse t s2 => takeTrap c t s2
                | .held b s2 => s2.holdBundle c b
                | .go s2 => issueNow c limm active rs s2
          | (b, s1) => s1.holdBundle c b
      | b => s.holdBundle c b

/-- A move alone in its bundle, by the issue latch of the state: the meaning of every move. -/
def issueOne (m : Mv) (a : Act) (s : State) : Host.Outcome State Fault Refusal :=
  .next (issueItems s.iss.ctx s.iss.limm
    [{ slot := s.iss.slot, mv := m, act := a, inv := s.iss.inv, malias := s.iss.malias }] s)

/-! ### Results of triggers -/

/-- R261. The write-back port of a unit block (in the order of R300). -/
def wbPort (unit : Nat) : Nat :=
  match unit with
  | 0 => 0x202 | 1 => 0x222 | 2 => 0x242 | 4 => 0x282 | 5 => 0x2A2 | 6 => 0x2C6 | 7 => 0x307
  | 8 => 0x34A | 9 => 0x368 | 10 => 0x382 | _ => 0x3A2

/-- R261. The value of `.w` [9:0]. -/
def wbSel (unit : Nat) (r : Req) (s : State) : Nat := (r.port s (wbPort unit)).toNat % 1024

/-- R261. The issue check of `.w`. -/
def wbCheck (unit : Nat) (r : Req) (s : State) : List (Nat × Trap) :=
  let w := wbSel unit r s
  if w < 0x200 ∨ w = 0x3FF then [] else [(4, trapIllport w r.slot true)]

/-- R261. The register that `.w` names, resolved at the trigger. -/
def wbDest (unit : Nat) (r : Req) (s : State) : Option Dest :=
  let w := wbSel unit r s
  if w < 0x200 then some (resolve (s.ctx r.c) w) else none

/-- The write-back of a fixed-latency result. -/
def wbLand (unit : Nat) (r : Req) (s : State) (v : Vec) : List Land :=
  match wbDest unit r s with
  | some d => [.reg d v]
  | none => []

/-- R260, R303. A result of fixed latency: to the port, and to the register that `.w` names. -/
def landResult (unit lat port : Nat) (v : Vec) (r : Req) (s : State) : State :=
  s.fly r.c { due := s.cycle + lat, unit := unit, acts := .port port v :: wbLand unit r s v }

/-- A trigger that computes one result of fixed latency. -/
def opResult (unit lat port : Nat) (f : Req → State → Vec) : Op where
  unit := unit
  checks := wbCheck unit
  effect := fun r s => landResult unit lat port (f r s) r s

end Sys2Proof.Machine
end

