-- ==== Sys2Proof/Machine/Ia.lean ====
section
/-! DEFINITION. The `ia0` and `ia1` operations (R302 to R306): 64-bit integer results of latency 1. The
argument `u` is 0 for `ia0` and 1 for `ia1`. -/

namespace Sys2Proof.Machine

/-- 1 or 0 as a 64-bit value (R306). -/
def ofBool64 (b : Bool) : W64 := if b then 1 else 0

/-- R305. The field of x from a position, some bits wide; bits above 63 read as 0. -/
def fieldOf (x : W64) (position width : Nat) : W64 := BitVec.ofNat 64 ((x.toNat >>> position) % 2 ^ width)

/-- R304. Leading zero bits of the low n bits, counted from bit n - 1 down. -/
def zerosFrom (x : W64) : Nat → Nat
  | 0 => 0
  | n + 1 => if x.getLsbD n then 0 else zerosFrom x n + 1

/-- R304. Number of leading zero bits, 64 for 0. -/
def leadingZeros (x : W64) : W64 := BitVec.ofNat 64 (zerosFrom x 64)

/-- R304. Number of set bits. -/
def setBits (x : W64) : W64 := BitVec.ofNat 64 (popBelow x.toNat 64)

/-- R304. Base of the operand ports of `ia0` or `ia1`. -/
def iaBase (u : BitVec 1) : Nat := 0x200 + 0x20 * u.toNat

/-- R302. An `ia` operation from its result over a, b and value. -/
def opIa (u : BitVec 1) (f : W64 → W64 → W64 → W64) : Op :=
  opResult u.toNat 1 (0x200 + 0x10 * u.toNat) fun r s =>
    ofW (f (toW (r.port s (iaBase u))) (toW (r.port s (iaBase u + 1))) (toW r.v))

/-- R304. A + value. -/
def opIaAdd (u : BitVec 1) : Op := opIa u (fun a _ v => a + v)

/-- The meaning of `ia.add`. -/
def execIaAdd (u : BitVec 1) (m : Mv) (s : State) : Host.Outcome State Fault Refusal := issueOne m (.trig (opIaAdd u)) s

/-- R304. A - value. -/
def opIaSub (u : BitVec 1) : Op := opIa u (fun a _ v => a - v)

/-- The meaning of `ia.sub`. -/
def execIaSub (u : BitVec 1) (m : Mv) (s : State) : Host.Outcome State Fault Refusal := issueOne m (.trig (opIaSub u)) s

/-- R304. A and value. -/
def opIaAnd (u : BitVec 1) : Op := opIa u (fun a _ v => a &&& v)

/-- The meaning of `ia.and`. -/
def execIaAnd (u : BitVec 1) (m : Mv) (s : State) : Host.Outcome State Fault Refusal := issueOne m (.trig (opIaAnd u)) s

/-- R304. A or value. -/
def opIaOr (u : BitVec 1) : Op := opIa u (fun a _ v => a ||| v)

/-- The meaning of `ia.or`. -/
def execIaOr (u : BitVec 1) (m : Mv) (s : State) : Host.Outcome State Fault Refusal := issueOne m (.trig (opIaOr u)) s

/-- R304. A xor value. -/
def opIaXor (u : BitVec 1) : Op := opIa u (fun a _ v => a ^^^ v)

/-- The meaning of `ia.xor`. -/
def execIaXor (u : BitVec 1) (m : Mv) (s : State) : Host.Outcome State Fault Refusal := issueOne m (.trig (opIaXor u)) s

/-- R304. A and (not value). -/
def opIaAndn (u : BitVec 1) : Op := opIa u (fun a _ v => a &&& ~~~v)

/-- The meaning of `ia.andn`. -/
def execIaAndn (u : BitVec 1) (m : Mv) (s : State) : Host.Outcome State Fault Refusal := issueOne m (.trig (opIaAndn u)) s

/-- R305. Shl. -/
def opIaShl (u : BitVec 1) : Op := opIa u (fun a _ v => if 64 ≤ v.toNat then 0 else a <<< v.toNat)

/-- The meaning of `ia.shl`. -/
def execIaShl (u : BitVec 1) (m : Mv) (s : State) : Host.Outcome State Fault Refusal := issueOne m (.trig (opIaShl u)) s

/-- R305. Shr. -/
def opIaShr (u : BitVec 1) : Op := opIa u (fun a _ v => if 64 ≤ v.toNat then 0 else a >>> v.toNat)

/-- The meaning of `ia.shr`. -/
def execIaShr (u : BitVec 1) (m : Mv) (s : State) : Host.Outcome State Fault Refusal := issueOne m (.trig (opIaShr u)) s

/-- R305. Sar. -/
def opIaSar (u : BitVec 1) : Op := opIa u (fun a _ v => if 64 ≤ v.toNat then (if a.msb then BitVec.allOnes 64 else 0) else a.sshiftRight v.toNat)

/-- The meaning of `ia.sar`. -/
def execIaSar (u : BitVec 1) (m : Mv) (s : State) : Host.Outcome State Fault Refusal := issueOne m (.trig (opIaSar u)) s

/-- R305. Rotl. -/
def opIaRotl (u : BitVec 1) : Op := opIa u (fun a _ v => a.rotateLeft (v.toNat % 64))

/-- The meaning of `ia.rotl`. -/
def execIaRotl (u : BitVec 1) (m : Mv) (s : State) : Host.Outcome State Fault Refusal := issueOne m (.trig (opIaRotl u)) s

/-- R304. A if s(a) ≤ s(value), else value. -/
def opIaMin (u : BitVec 1) : Op := opIa u (fun a _ v => if a.sle v then a else v)

/-- The meaning of `ia.min`. -/
def execIaMin (u : BitVec 1) (m : Mv) (s : State) : Host.Outcome State Fault Refusal := issueOne m (.trig (opIaMin u)) s

/-- R304. A if s(a) ≥ s(value), else value. -/
def opIaMax (u : BitVec 1) : Op := opIa u (fun a _ v => if v.sle a then a else v)

/-- The meaning of `ia.max`. -/
def execIaMax (u : BitVec 1) (m : Mv) (s : State) : Host.Outcome State Fault Refusal := issueOne m (.trig (opIaMax u)) s

/-- R304. A if a ≤ value, else value. -/
def opIaMinu (u : BitVec 1) : Op := opIa u (fun a _ v => if a.ule v then a else v)

/-- The meaning of `ia.minu`. -/
def execIaMinu (u : BitVec 1) (m : Mv) (s : State) : Host.Outcome State Fault Refusal := issueOne m (.trig (opIaMinu u)) s

/-- R304. A if a ≥ value, else value. -/
def opIaMaxu (u : BitVec 1) : Op := opIa u (fun a _ v => if v.ule a then a else v)

/-- The meaning of `ia.maxu`. -/
def execIaMaxu (u : BitVec 1) (m : Mv) (s : State) : Host.Outcome State Fault Refusal := issueOne m (.trig (opIaMaxu u)) s

/-- R304. 1 if a = value, else 0. -/
def opIaEq (u : BitVec 1) : Op := opIa u (fun a _ v => ofBool64 (a == v))

/-- The meaning of `ia.eq`. -/
def execIaEq (u : BitVec 1) (m : Mv) (s : State) : Host.Outcome State Fault Refusal := issueOne m (.trig (opIaEq u)) s

/-- R304. 1 if a differs from value, else 0. -/
def opIaNe (u : BitVec 1) : Op := opIa u (fun a _ v => ofBool64 (a != v))

/-- The meaning of `ia.ne`. -/
def execIaNe (u : BitVec 1) (m : Mv) (s : State) : Host.Outcome State Fault Refusal := issueOne m (.trig (opIaNe u)) s

/-- R304. 1 if s(a) < s(value), else 0. -/
def opIaLt (u : BitVec 1) : Op := opIa u (fun a _ v => ofBool64 (a.slt v))

/-- The meaning of `ia.lt`. -/
def execIaLt (u : BitVec 1) (m : Mv) (s : State) : Host.Outcome State Fault Refusal := issueOne m (.trig (opIaLt u)) s

/-- R304. 1 if a < value, else 0. -/
def opIaLtu (u : BitVec 1) : Op := opIa u (fun a _ v => ofBool64 (a.ult v))

/-- The meaning of `ia.ltu`. -/
def execIaLtu (u : BitVec 1) (m : Mv) (s : State) : Host.Outcome State Fault Refusal := issueOne m (.trig (opIaLtu u)) s

/-- R304. 1 if s(a) ≤ s(value), else 0. -/
def opIaLe (u : BitVec 1) : Op := opIa u (fun a _ v => ofBool64 (a.sle v))

/-- The meaning of `ia.le`. -/
def execIaLe (u : BitVec 1) (m : Mv) (s : State) : Host.Outcome State Fault Refusal := issueOne m (.trig (opIaLe u)) s

/-- R304. 1 if a ≤ value, else 0. -/
def opIaLeu (u : BitVec 1) : Op := opIa u (fun a _ v => ofBool64 (a.ule v))

/-- The meaning of `ia.leu`. -/
def execIaLeu (u : BitVec 1) (m : Mv) (s : State) : Host.Outcome State Fault Refusal := issueOne m (.trig (opIaLeu u)) s

/-- R304. A if b[0] = 1, else value. -/
def opIaSel (u : BitVec 1) : Op := opIa u (fun a b v => if b.getLsbD 0 then a else v)

/-- The meaning of `ia.sel`. -/
def execIaSel (u : BitVec 1) (m : Mv) (s : State) : Host.Outcome State Fault Refusal := issueOne m (.trig (opIaSel u)) s

/-- R305. Ext: the field of a from bit b[5:0], value bits wide, at most 64. -/
def opIaExt (u : BitVec 1) : Op := opIa u (fun a b v => fieldOf a (b.toNat % 64) (min v.toNat 64))

/-- The meaning of `ia.ext`. -/
def execIaExt (u : BitVec 1) (m : Mv) (s : State) : Host.Outcome State Fault Refusal := issueOne m (.trig (opIaExt u)) s

/-- R304. Leading zero bits of value. -/
def opIaClz (u : BitVec 1) : Op := opIa u (fun _ _ v => leadingZeros v)

/-- The meaning of `ia.clz`. -/
def execIaClz (u : BitVec 1) (m : Mv) (s : State) : Host.Outcome State Fault Refusal := issueOne m (.trig (opIaClz u)) s

/-- R304. Set bits of value. -/
def opIaPopc (u : BitVec 1) : Op := opIa u (fun _ _ v => setBits v)

/-- The meaning of `ia.popc`. -/
def execIaPopc (u : BitVec 1) (m : Mv) (s : State) : Host.Outcome State Fault Refusal := issueOne m (.trig (opIaPopc u)) s

end Sys2Proof.Machine
end

