-- ==== Sys2Proof/Machine/Am.lean ====
section
/-! DEFINITION. The `am` operations (R307 to R309): results of latency 3, products of 128 bits, and the
index-base writes. -/

namespace Sys2Proof.Machine

/-- R307. An `am` operation that lands one result in `am.o`. -/
def opAm (f : W64 → W64 → W64 → W64) : Op :=
  opResult 2 3 0x220 fun r s => ofW (f (toW (r.port s 0x240)) (toW (r.port s 0x241)) (toW r.v))

/-- R307. An `am` operation whose exact 128-bit result lands its low half in `am.o` and `.w`, and its high half
in `am.hi`. -/
def opAmWide (f : W64 → W64 → W64 → BitVec 128) : Op where
  unit := 2
  checks := wbCheck 2
  effect := fun r s =>
    let p := f (toW (r.port s 0x240)) (toW (r.port s 0x241)) (toW r.v)
    let lo := ofW (p.setWidth 64)
    s.fly r.c { due := s.cycle + 3, unit := 2,
                acts := .port 0x220 lo :: .port 0x221 (ofW ((p >>> 64).setWidth 64)) :: wbLand 2 r s lo }

/-- R309, R248. An index-base write, effective three cycles later; it lands no result. -/
def opAmBase (view : Nat) : Op where
  unit := 2
  effect := fun r s =>
    s.fly r.c { due := s.cycle + 3, unit := 2, acts := [.xbase view (r.v.setWidth 6)] }

/-- R307. a + value. -/
def opAmAdd : Op := opAm fun a _ v => a + v

/-- The meaning of `am.add`. -/
def execAmAdd (m : Mv) (s : State) : Host.Outcome State Fault Refusal := issueOne m (.trig opAmAdd) s

/-- R307. a - value. -/
def opAmSub : Op := opAm fun a _ v => a - v

/-- The meaning of `am.sub`. -/
def execAmSub (m : Mv) (s : State) : Host.Outcome State Fault Refusal := issueOne m (.trig opAmSub) s

/-- R307. Signed product of a and value. -/
def opAmMul : Op := opAmWide fun a _ v => a.signExtend 128 * v.signExtend 128

/-- The meaning of `am.mul`. -/
def execAmMul (m : Mv) (s : State) : Host.Outcome State Fault Refusal := issueOne m (.trig opAmMul) s

/-- R307. Unsigned product of a and value. -/
def opAmMulu : Op := opAmWide fun a _ v => a.setWidth 128 * v.setWidth 128

/-- The meaning of `am.mulu`. -/
def execAmMulu (m : Mv) (s : State) : Host.Outcome State Fault Refusal := issueOne m (.trig opAmMulu) s

/-- R307. Signed a × b + value. -/
def opAmMad : Op := opAmWide fun a b v => a.signExtend 128 * b.signExtend 128 + v.signExtend 128

/-- The meaning of `am.mad`. -/
def execAmMad (m : Mv) (s : State) : Host.Outcome State Fault Refusal := issueOne m (.trig opAmMad) s

/-- R307. Unsigned a × b + value. -/
def opAmMadu : Op := opAmWide fun a b v => a.setWidth 128 * b.setWidth 128 + v.setWidth 128

/-- The meaning of `am.madu`. -/
def execAmMadu (m : Mv) (s : State) : Host.Outcome State Fault Refusal := issueOne m (.trig opAmMadu) s

/-- R307. a + value × 2^(b[5:0]). -/
def opAmLsa : Op := opAm fun a b v => a + v <<< (b.toNat % 64)

/-- The meaning of `am.lsa`. -/
def execAmLsa (m : Mv) (s : State) : Host.Outcome State Fault Refusal := issueOne m (.trig opAmLsa) s

/-- R307. (a + value) mod b, exact; the sum modulo 2^64 for b = 0 (R308). -/
def opAmWrap : Op := opAm fun a b v =>
  BitVec.ofNat 64 (if b = 0 then a.toNat + v.toNat else (a.toNat + v.toNat) % b.toNat)

/-- The meaning of `am.wrap`. -/
def execAmWrap (m : Mv) (s : State) : Host.Outcome State Fault Refusal := issueOne m (.trig opAmWrap) s

/-- R307. xs := value[5:0] (R309). -/
def opAmWxs : Op := opAmBase 0

/-- The meaning of `am.wxs`. -/
def execAmWxs (m : Mv) (s : State) : Host.Outcome State Fault Refusal := issueOne m (.trig opAmWxs) s

/-- R307. xd := value[5:0] (R309). -/
def opAmWxd : Op := opAmBase 1

/-- The meaning of `am.wxd`. -/
def execAmWxd (m : Mv) (s : State) : Host.Outcome State Fault Refusal := issueOne m (.trig opAmWxd) s

/-- R307. xv := value[5:0] (R309). -/
def opAmWxv : Op := opAmBase 2

/-- The meaning of `am.wxv`. -/
def execAmWxv (m : Mv) (s : State) : Host.Outcome State Fault Refusal := issueOne m (.trig opAmWxv) s

/-- R307. xh := value[5:0] (R309). -/
def opAmWxh : Op := opAmBase 3

/-- The meaning of `am.wxh`. -/
def execAmWxh (m : Mv) (s : State) : Host.Outcome State Fault Refusal := issueOne m (.trig opAmWxh) s

end Sys2Proof.Machine
end

