-- ==== Sys2Proof/Machine/Br.lean ====
section
/-! DEFINITION. The `br` operations (R310 to R317): transfers with their delay shadows, counted loops, and the
link write. -/

namespace Sys2Proof.Machine

/-- R314. A transfer is refused in a delay shadow and while a loop is active. -/
def decTransfer (x : Ctx) (slot : Nat) : Option Trap :=
  if x.shadow.isSome ∨ x.loops ≠ [] then some (trapBrshadow slot) else none

/-- R314. `loop` is refused in a delay shadow. -/
def decLoop (x : Ctx) (slot : Nat) : Option Trap := if x.shadow.isSome then some (trapBrshadow slot) else none

/-- R311, R267. Opens a shadow with its target. -/
def openShadow (x : Ctx) (n : Nat) (target : BitVec 32) : Ctx := { x with shadow := some { left := n, target := target } }

/-- R312. A conditional transfer: a shadow of 2 whether taken or not; not taken, the target is p + 3. -/
def opBranch (taken : W64 → W64 → Bool) : Op where
  unit := 3
  dec := decTransfer
  effect := fun r s =>
    let t := taken (toW (r.port s 0x260)) (toW (r.port s 0x261))
    s.modCtx r.c fun x => openShadow x 2 (if t then r.v.setWidth 32 else x.pc + 3)

/-- R314, R270. The BRSHADOW of `loop` by its length, and by its count once that can be read. -/
def loopShape (r : Req) (known : Nat → Bool) (s : State) : Option Trap :=
  let x := s.ctx r.c
  let n := (toW r.v).toNat
  let count := (r.port s 0x260).toNat % 2 ^ 32
  let stop := x.pc.toNat + n
  if n = 0 ∨ 64 < n then some (trapBrshadow r.slot)
  else if known 0x260 ∧ count ≠ 0 ∧ (3 ≤ x.loops.length ∨ x.loops.any (fun l => decide (l.stop < stop))) then
    some (trapBrshadow r.slot)
  else none

/-- R311. Bundles p + 1 and p + 2 issue, then the target. -/
def opBrJmp : Op where
  unit := 3
  dec := decTransfer
  effect := fun r s => s.modCtx r.c fun x => openShadow x 2 (r.v.setWidth 32)

/-- The meaning of `br.jmp`. -/
def execBrJmp (m : Mv) (s : State) : Host.Outcome State Fault Refusal := issueOne m (.trig opBrJmp) s

/-- R311. `br.lk` := p + 4 at t + 1; bundles p + 1 to p + 3 issue, then the target. -/
def opBrCall : Op where
  unit := 3
  dec := decTransfer
  effect := fun r s =>
    let s1 := s.fly r.c { due := s.cycle + 1, unit := 3, acts := [.port 0x230 (((s.ctx r.c).pc + 4).setWidth 2048)] }
    s1.modCtx r.c fun x => openShadow x 3 (r.v.setWidth 32)

/-- The meaning of `br.call`. -/
def execBrCall (m : Mv) (s : State) : Host.Outcome State Fault Refusal := issueOne m (.trig opBrCall) s

/-- R311. Bundles p + 1 to p + 3 issue, then the target; `br.lk` is not changed. -/
def opBrRet : Op where
  unit := 3
  dec := decTransfer
  effect := fun r s => s.modCtx r.c fun x => openShadow x 3 (r.v.setWidth 32)

/-- The meaning of `br.ret`. -/
def execBrRet (m : Mv) (s : State) : Host.Outcome State Fault Refusal := issueOne m (.trig opBrRet) s

/-- R270, R315. Pushes a loop of the next n bundles; with count 0 goes on after them. -/
def opBrLoop : Op where
  unit := 3
  dec := decLoop
  shape := loopShape
  effect := fun r s =>
    let n := (toW r.v).toNat
    let count := (r.port s 0x260).toNat % 2 ^ 32
    s.modCtx r.c fun x =>
      if count = 0 then { x with jump := some (false, x.pc + BitVec.ofNat 32 (n + 1)) }
      else { x with loops := { start := x.pc.toNat + 1, stop := x.pc.toNat + n, left := count } :: x.loops }

/-- The meaning of `br.loop`. -/
def execBrLoop (m : Mv) (s : State) : Host.Outcome State Fault Refusal := issueOne m (.trig opBrLoop) s

/-- R312. Taken when its relation of a and b holds. -/
def opBrJz : Op := opBranch fun a _ => a == 0

/-- The meaning of `br.jz`. -/
def execBrJz (m : Mv) (s : State) : Host.Outcome State Fault Refusal := issueOne m (.trig opBrJz) s

/-- R312. Taken when its relation of a and b holds. -/
def opBrJnz : Op := opBranch fun a _ => a != 0

/-- The meaning of `br.jnz`. -/
def execBrJnz (m : Mv) (s : State) : Host.Outcome State Fault Refusal := issueOne m (.trig opBrJnz) s

/-- R312. Taken when its relation of a and b holds. -/
def opBrJeq : Op := opBranch fun a b => a == b

/-- The meaning of `br.jeq`. -/
def execBrJeq (m : Mv) (s : State) : Host.Outcome State Fault Refusal := issueOne m (.trig opBrJeq) s

/-- R312. Taken when its relation of a and b holds. -/
def opBrJne : Op := opBranch fun a b => a != b

/-- The meaning of `br.jne`. -/
def execBrJne (m : Mv) (s : State) : Host.Outcome State Fault Refusal := issueOne m (.trig opBrJne) s

/-- R312. Taken when its relation of a and b holds. -/
def opBrJlt : Op := opBranch fun a b => a.slt b

/-- The meaning of `br.jlt`. -/
def execBrJlt (m : Mv) (s : State) : Host.Outcome State Fault Refusal := issueOne m (.trig opBrJlt) s

/-- R312. Taken when its relation of a and b holds. -/
def opBrJge : Op := opBranch fun a b => b.sle a

/-- The meaning of `br.jge`. -/
def execBrJge (m : Mv) (s : State) : Host.Outcome State Fault Refusal := issueOne m (.trig opBrJge) s

/-- R312. Taken when its relation of a and b holds. -/
def opBrJltu : Op := opBranch fun a b => a.ult b

/-- The meaning of `br.jltu`. -/
def execBrJltu (m : Mv) (s : State) : Host.Outcome State Fault Refusal := issueOne m (.trig opBrJltu) s

/-- R312. Taken when its relation of a and b holds. -/
def opBrJgeu : Op := opBranch fun a b => b.ule a

/-- The meaning of `br.jgeu`. -/
def execBrJgeu (m : Mv) (s : State) : Host.Outcome State Fault Refusal := issueOne m (.trig opBrJgeu) s

/-- R316. The innermost loop ends after its current pass. -/
def opBrLbrk : Op where
  unit := 3
  effect := fun r s => s.modCtx r.c fun x =>
    { x with loops := match x.loops with | [] => [] | l :: t => { l with left := 1 } :: t }

/-- The meaning of `br.lbrk`. -/
def execBrLbrk (m : Mv) (s : State) : Host.Outcome State Fault Refusal := issueOne m (.trig opBrLbrk) s

/-- R317. `br.lk` := value[31:0] at t + 1. -/
def opBrLkset : Op where
  unit := 3
  effect := fun r s => s.fly r.c { due := s.cycle + 1, unit := 3, acts := [.port 0x230 (lowBytes 4 r.v)] }

/-- The meaning of `br.lkset`. -/
def execBrLkset (m : Mv) (s : State) : Host.Outcome State Fault Refusal := issueOne m (.trig opBrLkset) s

end Sys2Proof.Machine
end

