-- ==== Sys2Proof/Machine/Move.lean ====
section
/-! DEFINITION. Moves that start no operation: to a register, an operand port, a guard, a queue tail or `nul`
(R242, R258, R259, R263, R264). -/

namespace Sys2Proof.Machine

/-- R242, R255. The meaning of a move to a register. -/
def execMoveRegister (d : BitVec 9) (m : Mv) (s : State) : Host.Outcome State Fault Refusal := issueOne m (.reg d.toNat) s

/-- R259. The meaning of a move to a unit operand port. -/
def execOperandPortWrite (d : BitVec 10) (m : Mv) (s : State) : Host.Outcome State Fault Refusal :=
  issueOne m (.opnd d.toNat) s

/-- R263. The meaning of a move to a guard. -/
def execGuardWrite (d : BitVec 3) (m : Mv) (s : State) : Host.Outcome State Fault Refusal := issueOne m (.guard d.toNat) s

/-- R264. The meaning of a move to a queue tail. -/
def execQueuePush (q : BitVec 4) (m : Mv) (s : State) : Host.Outcome State Fault Refusal := issueOne m (.queue q.toNat) s

/-- R258. The meaning of a move to `nul`. -/
def execMoveNul (m : Mv) (s : State) : Host.Outcome State Fault Refusal := issueOne m .nul s

end Sys2Proof.Machine
end

