-- ==== Sys2Proof/Machine/Codec.lean ====
section
/-! DEFINITION. How Zitrum's records stand in memory as bytes (R227, R231, R233): the manual lists what they hold and gives
no encoding, so the encoding here is the model's choice (assumption 58). A codec is a pair of a writer and a reader,
with the proof that what is written is read back. -/

namespace Sys2Proof.Machine

/-- A way to write values as bytes and to read them back. -/
structure Codec (α : Type) where
  put : α → List Byte
  get : List Byte → Option (α × List Byte)
  law : ∀ a r, get (put a ++ r) = some (a, r)

/-- A number in groups of seven bits, the lowest first; bit 7 of a byte says that more follow. -/
def putNat : Nat → Nat → List Byte
  | 0, n => [BitVec.ofNat 8 n]
  | f + 1, n => if n < 128 then [BitVec.ofNat 8 n] else BitVec.ofNat 8 (n % 128 + 128) :: putNat f (n / 128)

/-- Reads a number that `putNat` wrote. -/
def getNat : List Byte → Option (Nat × List Byte)
  | [] => none
  | b :: t =>
    if b.toNat < 128 then some (b.toNat, t)
    else (getNat t).map fun p => (p.1 * 128 + (b.toNat - 128), p.2)

theorem getNat_putNat (f n : Nat) (r : List Byte) (h : n ≤ f) : getNat (putNat f n ++ r) = some (n, r) := by
  induction f generalizing n with
  | zero =>
    obtain rfl : n = 0 := by omega
    rfl
  | succ f ih =>
    by_cases hn : n < 128
    · have e : n % 256 = n := Nat.mod_eq_of_lt (by omega)
      simp [putNat, getNat, hn, e]
    · have e : (n % 128 + 128) % 256 = n % 128 + 128 := Nat.mod_eq_of_lt (by omega)
      simp only [putNat, hn, if_false, List.cons_append, getNat, BitVec.toNat_ofNat]
      rw [show (2 : Nat) ^ 8 = 256 from rfl, e, if_neg (by omega), ih (n / 128) (by omega)]
      simp only [Option.map_some, Option.some.injEq, Prod.mk.injEq, and_true]
      omega

namespace Codec

variable {α β : Type}

/-- A number. -/
def nat : Codec Nat := ⟨fun n => putNat n n, getNat, fun n r => getNat_putNat n n r (Nat.le_refl n)⟩

/-- Nothing. -/
def unit : Codec Unit := ⟨fun _ => [], fun r => some ((), r), fun _ _ => rfl⟩

/-- A value by way of another. -/
def iso (f : α → β) (g : β → α) (h : ∀ a, g (f a) = a) (c : Codec β) : Codec α :=
  ⟨fun a => c.put (f a), fun r => (c.get r).map fun p => (g p.1, p.2), fun a r => by simp [c.law, h]⟩

/-- Two values, one after the other. -/
def pair (a : Codec α) (b : Codec β) : Codec (α × β) :=
  ⟨fun p => a.put p.1 ++ b.put p.2,
    fun r => (a.get r).bind fun p => (b.get p.2).map fun q => ((p.1, q.1), q.2),
    fun p r => by simp [a.law, b.law, List.append_assoc]⟩

/-- One of two kinds of value. -/
def sum (a : Codec α) (b : Codec β) : Codec (α ⊕ β) :=
  ⟨fun
    | .inl x => 0 :: a.put x
    | .inr y => 1 :: b.put y,
    fun
    | [] => none
    | t :: r => if t = 0 then (a.get r).map fun p => (.inl p.1, p.2) else (b.get r).map fun p => (.inr p.1, p.2),
    fun v r => by cases v <;> simp [a.law, b.law]⟩

/-- Reads values until a count of them has been read. -/
def getMany (c : Codec α) : Nat → List Byte → Option (List α × List Byte)
  | 0, r => some ([], r)
  | n + 1, r => (c.get r).bind fun p => (getMany c n p.2).map fun q => (p.1 :: q.1, q.2)

theorem getMany_put (c : Codec α) (l : List α) (r : List Byte) :
    getMany c l.length (l.flatMap c.put ++ r) = some (l, r) := by
  induction l with
  | nil => rfl
  | cons a l ih => simp [getMany, List.append_assoc, c.law, ih]

/-- A list: its length, then its entries. -/
def list (c : Codec α) : Codec (List α) :=
  ⟨fun l => nat.put l.length ++ l.flatMap c.put, fun r => (nat.get r).bind fun p => getMany c p.1 p.2,
    fun l r => by rw [List.append_assoc, nat.law]; exact getMany_put c l r⟩

/-- A word of bits. -/
def word (n : Nat) : Codec (BitVec n) := iso BitVec.toNat (BitVec.ofNat n) (by simp) nat

/-- A signed number: from 0 up, or from -1 down. -/
def int : Codec Int :=
  iso (fun | .ofNat n => Sum.inl n | .negSucc n => .inr n) (fun | .inl n => .ofNat n | .inr n => .negSucc n)
    (fun a => by cases a <;> rfl) (sum nat nat)

/-- A truth value. -/
def bool : Codec Bool := iso (fun b => if b then 1 else 0) (fun n => n == 1) (fun b => by cases b <;> rfl) nat

/-- A value that may be absent. -/
def option (c : Codec α) : Codec (Option α) :=
  iso (fun | none => Sum.inl () | some a => .inr a) (fun | .inl _ => none | .inr a => some a)
    (fun a => by cases a <;> rfl) (sum unit c)

/-- A name of a fixed set, by its number. -/
def enum (f : α → Nat) (g : Nat → α) (h : ∀ a, g (f a) = a) : Codec α := iso f g h nat

end Codec

/-! ### The parts of the state, each field in the order of its structure, each alternative by its place -/

def codecRun : Codec Run :=
  .enum (fun
    | .unbound => 0
    | .running => 1
    | .stopped => 2
    | .exited => 3
    | .preempted => 4)
    (fun
    | 0 => .unbound
    | 1 => .running
    | 2 => .stopped
    | 3 => .exited
    | _ => .preempted)
    (fun a => by cases a <;> rfl)

def codecUnitSt : Codec UnitSt :=
  .iso (fun
    | .empty => (.inl ())
    | .ephemeral expiry => (.inr (.inl expiry))
    | .failed addr loc => (.inr (.inr (addr, loc))))
    (fun
    | (.inl ()) => .empty
    | (.inr (.inl expiry)) => .ephemeral expiry
    | (.inr (.inr (addr, loc))) => .failed addr loc)
    (fun a => by cases a <;> rfl)
    (.sum .unit <| .sum .nat <| (.pair (.word 64) .nat))

def codecPend : Codec Pend :=
  .iso (fun x => (x.ctx, x.core, x.clu, x.die, x.pkg, x.sys))
    (fun (a0, a1, a2, a3, a4, a5) => ⟨a0, a1, a2, a3, a4, a5⟩) (fun _ => rfl)
    (.pair (.word 56) <| .pair (.word 56) <| .pair (.word 56) <| .pair (.word 56) <| .pair (.word 56) <| (.word 56))

def codecDest : Codec Dest :=
  .iso (fun x => (x.first, x.size))
    (fun (a0, a1) => ⟨a0, a1⟩) (fun _ => rfl)
    (.pair .nat <| .nat)

def codecLand : Codec Land :=
  .iso (fun
    | .port p v => (.inl (p, v))
    | .reg d v => (.inr (.inl (d, v)))
    | .xbase view v => (.inr (.inr (.inl (view, v))))
    | .view view v => (.inr (.inr (.inr (.inl (view, v)))))
    | .flags f => (.inr (.inr (.inr (.inr (.inl f)))))
    | .queue peek q v dest => (.inr (.inr (.inr (.inr (.inr (peek, q, v, dest)))))))
    (fun
    | (.inl (p, v)) => .port p v
    | (.inr (.inl (d, v))) => .reg d v
    | (.inr (.inr (.inl (view, v)))) => .xbase view v
    | (.inr (.inr (.inr (.inl (view, v))))) => .view view v
    | (.inr (.inr (.inr (.inr (.inl f))))) => .flags f
    | (.inr (.inr (.inr (.inr (.inr (peek, q, v, dest)))))) => .queue peek q v dest)
    (fun a => by cases a <;> rfl)
    (.sum (.pair .nat (.word 2048)) <| .sum (.pair codecDest (.word 2048)) <| .sum (.pair .nat (.word 6)) <| .sum
        (.pair .nat (.word 15)) <| .sum (.word 8) <| (.pair .bool (.pair .nat (.pair (.word 64) (.option
        codecDest)))))

def codecFlight : Codec Flight :=
  .iso (fun x => (x.due, x.unit, x.acts))
    (fun (a0, a1, a2) => ⟨a0, a1, a2⟩) (fun _ => rfl)
    (.pair .nat <| .pair .nat <| (.list codecLand))

def codecLoop : Codec Loop :=
  .iso (fun x => (x.start, x.stop, x.left))
    (fun (a0, a1, a2) => ⟨a0, a1, a2⟩) (fun _ => rfl)
    (.pair .nat <| .pair .nat <| .nat)

def codecShadow : Codec Shadow :=
  .iso (fun x => (x.left, x.target))
    (fun (a0, a1) => ⟨a0, a1⟩) (fun _ => rfl)
    (.pair .nat <| (.word 32))

def codecSnap : Codec Snap :=
  .iso (fun x => (x.opnd, x.res, x.flights, x.guards, x.loops))
    (fun (a0, a1, a2, a3, a4) => ⟨a0, a1, a2, a3, a4⟩) (fun _ => rfl)
    (.pair (.list (.pair .nat (.word 2048))) <| .pair (.list (.pair .nat (.word 2048))) <| .pair (.list codecFlight)
        <| .pair (.word 8) <| (.list codecLoop))

def codecCounter : Codec Counter :=
  .iso (fun x => (x.count, x.en, x.evt))
    (fun (a0, a1, a2) => ⟨a0, a1, a2⟩) (fun _ => rfl)
    (.pair (.word 48) <| .pair .bool <| (.word 8))

def codecTrap : Codec Trap :=
  .iso (fun x => (x.code, x.info0, x.info1))
    (fun (a0, a1, a2) => ⟨a0, a1, a2⟩) (fun _ => rfl)
    (.pair .nat <| .pair (.word 64) <| (.word 64))

def codecDown : Codec Down :=
  .iso (fun x => (x.info0, x.info1, x.since, x.delivered, x.num))
    (fun (a0, a1, a2, a3, a4) => ⟨a0, a1, a2, a3, a4⟩) (fun _ => rfl)
    (.pair (.word 64) <| .pair (.word 64) <| .pair .nat <| .pair .bool <| .nat)

def codecFence : Codec Fence :=
  .iso (fun x => (x.scope, x.limit))
    (fun (a0, a1) => ⟨a0, a1⟩) (fun _ => rfl)
    (.pair .nat <| .nat)

def codecWalkAns : Codec WalkAns :=
  .iso (fun
    | .desc low high level => (.inl (low, high, level))
    | .fault sub declined => (.inr (sub, declined)))
    (fun
    | (.inl (low, high, level)) => .desc low high level
    | (.inr (sub, declined)) => .fault sub declined)
    (fun a => by cases a <;> rfl)
    (.sum (.pair (.word 64) (.pair (.word 64) .nat)) <| (.pair .nat .bool))

def codecAnswer : Codec Answer :=
  .iso (fun
    | .value v => (.inl v)
    | .trap t => (.inr t))
    (fun
    | (.inl v) => .value v
    | (.inr t) => .trap t)
    (fun a => by cases a <;> rfl)
    (.sum (.word 64) <| codecTrap)

def codecEarly : Codec Early :=
  .iso (fun x => (x.slot, x.va, x.bytes))
    (fun (a0, a1, a2) => ⟨a0, a1, a2⟩) (fun _ => rfl)
    (.pair .nat <| .pair .nat <| (.list (.word 8)))

def codecWait : Codec Wait :=
  .iso (fun
    | .none => (0, 0)
    | .register => (1, 0)
    | .queue => (2, 0)
    | .walk => (3, 0)
    | .tbar => (4, 0)
    | .cbar crew => (5, crew)
    | .tagged => (6, 0)
    | .fence => (7, 0)
    | .pwait => (8, 0)
    | .budget => (9, 0)
    | .array => (10, 0)
    | .cluster => (11, 0)
    | .stepb => (12, 0)
    | .launch => (13, 0)
    | .service => (14, 0)
    | .patch => (15, 0)
    | .line => (16, 0)
    | .engine => (17, 0)
    | .other => (18, 0))
    (fun p => match p.1 with
    | 0 => .none
    | 1 => .register
    | 2 => .queue
    | 3 => .walk
    | 4 => .tbar
    | 5 => .cbar p.2
    | 6 => .tagged
    | 7 => .fence
    | 8 => .pwait
    | 9 => .budget
    | 10 => .array
    | 11 => .cluster
    | 12 => .stepb
    | 13 => .launch
    | 14 => .service
    | 15 => .patch
    | 16 => .line
    | 17 => .engine
    | _ => .other)
    (fun a => by cases a <;> rfl)
    (.pair .nat .nat)

def codecReissue : Codec Reissue :=
  .iso (fun x => (x.rout, x.slot, x.wb, x.num, x.ready))
    (fun (a0, a1, a2, a3, a4) => ⟨a0, a1, a2, a3, a4⟩) (fun _ => rfl)
    (.pair .nat <| .pair .nat <| .pair (.option codecDest) <| .pair .nat <| .bool)

def codecTagReq : Codec TagReq :=
  .iso (fun x => (x.ctx, x.num, x.word, x.op, x.data, x.dest, x.va))
    (fun (a0, a1, a2, a3, a4, a5, a6) => ⟨a0, a1, a2, a3, a4, a5, a6⟩) (fun _ => rfl)
    (.pair .nat <| .pair .nat <| .pair .nat <| .pair .nat <| .pair (.word 32) <| .pair (.option codecDest) <| (.word
        64))

def codecPopWait : Codec PopWait :=
  .iso (fun x => (x.ctx, x.dest, x.poll))
    (fun (a0, a1, a2) => ⟨a0, a1, a2⟩) (fun _ => rfl)
    (.pair .nat <| .pair (.option codecDest) <| .bool)

def codecCtx : Codec Ctx :=
  .iso (fun x => (x.run, x.slot, x.pc, x.regs, x.units, x.guards, x.xs, x.xd, x.xv, x.xh, x.vws, x.vwd, x.vwv, x.vwh,
      x.opnd, x.res, x.flags, x.pend, x.flights, x.loops, x.shadow, x.cause, x.tpc, x.tnext, x.info0, x.info1,
      x.vectors, x.snap, x.replay, x.psnap, x.queues, x.counters, x.held, x.seq, x.lastFreight, x.lastShuttle,
      x.bars, x.dirty, x.atTbar, x.atCbar, x.atStep, x.released, x.pendTrap, x.callEnd, x.down, x.fences, x.lastCore,
      x.walked, x.answer, x.unmade, x.sent, x.clusterAt, x.early, x.heldAt, x.paid, x.onLine, x.notBefore, x.bundles,
      x.blocked, x.tried, x.wrote, x.wroteAt, x.jump, x.preempt, x.reissue, x.pulled, x.pulledPops, x.stepped))
    (fun (a0, a1, a2, a3, a4, a5, a6, a7, a8, a9, a10, a11, a12, a13, a14, a15, a16, a17, a18, a19, a20, a21, a22,
        a23, a24, a25, a26, a27, a28, a29, a30, a31, a32, a33, a34, a35, a36, a37, a38, a39, a40, a41, a42, a43, a44,
        a45, a46, a47, a48, a49, a50, a51, a52, a53, a54, a55, a56, a57, a58, a59, a60, a61, a62, a63, a64, a65, a66,
        a67) => ⟨a0, a1, a2, a3, a4, a5, a6, a7, a8, a9, a10, a11, a12, a13, a14, a15, a16, a17, a18, a19, a20, a21,
        a22, a23, a24, a25, a26, a27, a28, a29, a30, a31, a32, a33, a34, a35, a36, a37, a38, a39, a40, a41, a42, a43,
        a44, a45, a46, a47, a48, a49, a50, a51, a52, a53, a54, a55, a56, a57, a58, a59, a60, a61, a62, a63, a64, a65,
        a66, a67⟩) (fun _ => rfl)
    (.pair codecRun <| .pair .nat <| .pair (.word 32) <| .pair (.word 262144) <| .pair (.list (.pair .nat
        codecUnitSt)) <| .pair (.word 8) <| .pair (.word 6) <| .pair (.word 6) <| .pair (.word 6) <| .pair (.word 6)
        <| .pair (.word 15) <| .pair (.word 15) <| .pair (.word 15) <| .pair (.word 15) <| .pair (.list (.pair .nat
        (.word 2048))) <| .pair (.list (.pair .nat (.word 2048))) <| .pair (.word 32) <| .pair codecPend <| .pair
        (.list codecFlight) <| .pair (.list codecLoop) <| .pair (.option codecShadow) <| .pair (.word 32) <| .pair
        (.word 32) <| .pair (.word 32) <| .pair (.word 64) <| .pair (.word 64) <| .pair (.list (.pair .nat (.word
        32))) <| .pair (.option codecSnap) <| .pair (.list codecFlight) <| .pair (.option codecSnap) <| .pair (.list
        (.pair .nat (.list (.word 64)))) <| .pair (.list (.pair .nat codecCounter)) <| .pair (.list .nat) <| .pair
        (.word 32) <| .pair (.option .nat) <| .pair (.option .nat) <| .pair .nat <| .pair .bool <| .pair .bool <|
        .pair (.option .nat) <| .pair .bool <| .pair (.list .nat) <| .pair (.option codecTrap) <| .pair (.option
        .nat) <| .pair (.option codecDown) <| .pair (.list codecFence) <| .pair (.option .nat) <| .pair (.list (.pair
        .nat (.pair .nat codecWalkAns))) <| .pair (.option codecAnswer) <| .pair (.list .nat) <| .pair .bool <| .pair
        (.option .nat) <| .pair (.option codecEarly) <| .pair (.option .nat) <| .pair (.list (.pair .nat (.pair .nat
        .nat))) <| .pair .bool <| .pair .nat <| .pair .nat <| .pair codecWait <| .pair (.option .nat) <| .pair (.list
        codecDest) <| .pair .nat <| .pair (.option (.pair .bool (.word 32))) <| .pair .bool <| .pair (.option
        codecReissue) <| .pair (.list codecTagReq) <| .pair (.list codecPopWait) <| .bool)

def codecAccSt : Codec AccSt :=
  .enum (fun
    | .finite => 0
    | .posInf => 1
    | .negInf => 2
    | .nan => 3)
    (fun
    | 0 => .finite
    | 1 => .posInf
    | 2 => .negInf
    | _ => .nan)
    (fun a => by cases a <;> rfl)

def codecElem : Codec Elem :=
  .iso (fun x => (x.int, x.st))
    (fun (a0, a1) => ⟨a0, a1⟩) (fun _ => rfl)
    (.pair .int <| codecAccSt)

def codecBank : Codec Bank :=
  .iso (fun x => (x.holder, x.e0, x.e1, x.e2, x.e3, x.els))
    (fun (a0, a1, a2, a3, a4, a5) => ⟨a0, a1, a2, a3, a4, a5⟩) (fun _ => rfl)
    (.pair .nat <| .pair (.word 16) <| .pair (.word 16) <| .pair (.word 16) <| .pair (.word 16) <| (.list (.pair .nat
        codecElem)))

def codecSavedBank : Codec SavedBank :=
  .iso (fun x => (x.key, x.bank))
    (fun (a0, a1) => ⟨a0, a1⟩) (fun _ => rfl)
    (.pair .nat <| codecBank)

def codecAtomOp : Codec AtomOp :=
  .enum (fun
    | .swap => 0
    | .cas => 1
    | .fadd => 2
    | .faddf => 3
    | .radd => 4
    | .raddf => 5
    | .rmax => 6
    | .rmin => 7
    | .rmaxf => 8
    | .rand => 9
    | .ror => 10
    | .rxor => 11)
    (fun
    | 0 => .swap
    | 1 => .cas
    | 2 => .fadd
    | 3 => .faddf
    | 4 => .radd
    | 5 => .raddf
    | 6 => .rmax
    | 7 => .rmin
    | 8 => .rmaxf
    | 9 => .rand
    | 10 => .ror
    | _ => .rxor)
    (fun a => by cases a <;> rfl)

def codecPlace : Codec Place :=
  .iso (fun
    | .phys pa => (.inl pa)
    | .spad a => (.inr (.inl a))
    | .line l off => (.inr (.inr (l, off))))
    (fun
    | (.inl pa) => .phys pa
    | (.inr (.inl a)) => .spad a
    | (.inr (.inr (l, off))) => .line l off)
    (fun a => by cases a <;> rfl)
    (.sum .nat <| .sum .nat <| (.pair .nat .nat))

def codecUpd : Codec Upd :=
  .iso (fun x => (x.rank, x.num, x.slot, x.op, x.place, x.data))
    (fun (a0, a1, a2, a3, a4, a5) => ⟨a0, a1, a2, a3, a4, a5⟩) (fun _ => rfl)
    (.pair .nat <| .pair .nat <| .pair .nat <| .pair codecAtomOp <| .pair codecPlace <| (.word 32))

def codecSaved : Codec Saved :=
  .iso (fun x => (x.lid, x.team, x.key, x.word, x.ctxs, x.spad, x.full, x.bad, x.banks, x.crews, x.opens, x.held))
    (fun (a0, a1, a2, a3, a4, a5, a6, a7, a8, a9, a10, a11) => ⟨a0, a1, a2, a3, a4, a5, a6, a7, a8, a9, a10, a11⟩)
        (fun _ => rfl)
    (.pair .nat <| .pair .nat <| .pair .nat <| .pair (.word 512) <| .pair (.list (.pair .nat codecCtx)) <| .pair
        (.list (.pair .nat (.word 8))) <| .pair (.list .nat) <| .pair (.list .nat) <| .pair (.list codecSavedBank) <|
        .pair (.list (.list .nat)) <| .pair (.list (.list .nat)) <| (.list codecUpd))

def codecPatch : Codec Patch :=
  .iso (fun x => (x.name, x.kind, x.pay, x.digest))
    (fun (a0, a1, a2, a3) => ⟨a0, a1, a2, a3⟩) (fun _ => rfl)
    (.pair .nat <| .pair .nat <| .pair (.list (.pair .nat (.list (.word 8)))) <| (.word 256))

def codecWaiting : Codec Waiting :=
  .iso (fun x => (x.lid, x.team, x.since))
    (fun (a0, a1, a2) => ⟨a0, a1, a2⟩) (fun _ => rfl)
    (.pair .nat <| .pair .nat <| .nat)

def codecResident : Codec Resident :=
  .iso (fun x => (x.key, x.lid, x.team, x.bound, x.at_, x.cycle))
    (fun (a0, a1, a2, a3, a4, a5) => ⟨a0, a1, a2, a3, a4, a5⟩) (fun _ => rfl)
    (.pair .nat <| .pair .nat <| .pair .nat <| .pair .nat <| .pair .nat <| .bool)

def codecReserve : Codec Reserve :=
  .iso (fun x => (x.lid, x.team, x.key, x.word, x.saved, x.victims))
    (fun (a0, a1, a2, a3, a4, a5) => ⟨a0, a1, a2, a3, a4, a5⟩) (fun _ => rfl)
    (.pair .nat <| .pair .nat <| .pair .nat <| .pair (.word 512) <| .pair .bool <| (.list (.pair .nat .nat)))

def codecRange : Codec Range :=
  .iso (fun x => (x.w0, x.w1, x.w2, x.w3))
    (fun (a0, a1, a2, a3) => ⟨a0, a1, a2, a3⟩) (fun _ => rfl)
    (.pair (.word 64) <| .pair (.word 64) <| .pair (.word 64) <| (.word 64))

def codecEnding : Codec Ending :=
  .iso (fun x => (x.status, x.sub, x.cause, x.fteam, x.finfo))
    (fun (a0, a1, a2, a3, a4) => ⟨a0, a1, a2, a3, a4⟩) (fun _ => rfl)
    (.pair .nat <| .pair .nat <| .pair .nat <| .pair .nat <| (.word 64))

def codecRoute : Codec Route :=
  .iso (fun
    | .host slot => (.inl slot)
    | .mgmt port ticket => (.inr (.inl (port, ticket)))
    | .ctx lid rank => (.inr (.inr (.inl (lid, rank))))
    | .producer line => (.inr (.inr (.inr line))))
    (fun
    | (.inl slot) => .host slot
    | (.inr (.inl (port, ticket))) => .mgmt port ticket
    | (.inr (.inr (.inl (lid, rank)))) => .ctx lid rank
    | (.inr (.inr (.inr line))) => .producer line)
    (fun a => by cases a <;> rfl)
    (.sum .nat <| .sum (.pair .nat .nat) <| .sum (.pair .nat .nat) <| .nat)

def codecItem : Codec Item :=
  .iso (fun x => (x.gain, x.residual, x.runner, x.transit))
    (fun (a0, a1, a2, a3) => ⟨a0, a1, a2, a3⟩) (fun _ => rfl)
    (.pair .int <| .pair .nat <| .pair (.option .nat) <| .bool)

def codecSett : Codec Sett :=
  .iso (fun x => (x.lid, x.items, x.waits))
    (fun (a0, a1, a2) => ⟨a0, a1, a2⟩) (fun _ => rfl)
    (.pair .nat <| .pair (.list (.pair .nat codecItem)) <| (.list codecPopWait))

def codecTransit : Codec Transit :=
  .iso (fun x => (x.lid, x.donor, x.receiver, x.items))
    (fun (a0, a1, a2, a3) => ⟨a0, a1, a2, a3⟩) (fun _ => rfl)
    (.pair .nat <| .pair .nat <| .pair .nat <| (.list (.pair .nat codecItem)))

def codecLaunch : Codec Launch :=
  .iso (fun x => (x.lid, x.accept, x.comp, x.mode, x.replay, x.prio, x.spread, x.teamsz, x.banks, x.wsize, x.nteams,
      x.lclust, x.words, x.ranges, x.packet, x.digest, x.image, x.tdone, x.since, x.nextTeam, x.skipped, x.cmap,
      x.down, x.aband, x.ending, x.steps, x.abandons, x.links, x.route, x.residual, x.endCode, x.filled, x.armed,
      x.noUndo, x.journal, x.writtenPages, x.markSetts, x.markTransits, x.markResidual, x.markEnd))
    (fun (a0, a1, a2, a3, a4, a5, a6, a7, a8, a9, a10, a11, a12, a13, a14, a15, a16, a17, a18, a19, a20, a21, a22,
        a23, a24, a25, a26, a27, a28, a29, a30, a31, a32, a33, a34, a35, a36, a37, a38, a39) => ⟨a0, a1, a2, a3, a4,
        a5, a6, a7, a8, a9, a10, a11, a12, a13, a14, a15, a16, a17, a18, a19, a20, a21, a22, a23, a24, a25, a26, a27,
        a28, a29, a30, a31, a32, a33, a34, a35, a36, a37, a38, a39⟩) (fun _ => rfl)
    (.pair .nat <| .pair .nat <| .pair .nat <| .pair .nat <| .pair .bool <| .pair .nat <| .pair .bool <| .pair .nat
        <| .pair .nat <| .pair .nat <| .pair .nat <| .pair .nat <| .pair (.list (.word 64)) <| .pair (.list
        codecRange) <| .pair (.list (.word 8)) <| .pair (.word 512) <| .pair (.list (.word 8)) <| .pair .nat <| .pair
        .nat <| .pair .nat <| .pair (.list .nat) <| .pair (.list (.pair .nat .nat)) <| .pair (.option .nat) <| .pair
        (.option .nat) <| .pair (.option codecEnding) <| .pair .nat <| .pair .nat <| .pair (.list .nat) <| .pair
        codecRoute <| .pair .nat <| .pair .nat <| .pair .bool <| .pair .bool <| .pair .bool <| .pair (.list (.pair
        .nat (.list (.word 8)))) <| .pair (.list .nat) <| .pair (.list (.pair .nat codecSett)) <| .pair (.list
        codecTransit) <| .pair .nat <| .nat)

def codecComp : Codec Comp :=
  .iso (fun x => (x.isol, x.poolmax, x.pool, x.quota, x.tag, x.kchain, x.kcount, x.root, x.pages, x.key))
    (fun (a0, a1, a2, a3, a4, a5, a6, a7, a8, a9) => ⟨a0, a1, a2, a3, a4, a5, a6, a7, a8, a9⟩) (fun _ => rfl)
    (.pair .bool <| .pair (.word 64) <| .pair .nat <| .pair (.word 64) <| .pair (.word 256) <| .pair (.word 512) <|
        .pair (.word 64) <| .pair .nat <| .pair .nat <| .nat)

def codecLogRec : Codec LogRec :=
  .iso (fun x => (x.kind, x.die, x.seq, x.site, x.entries))
    (fun (a0, a1, a2, a3, a4) => ⟨a0, a1, a2, a3, a4⟩) (fun _ => rfl)
    (.pair .nat <| .pair .nat <| .pair .nat <| .pair (.word 64) <| (.list (.word 64)))

def codecLog : Codec Log :=
  .iso (fun x => (x.lid, x.die, x.recs, x.replay, x.markRecs, x.markReplay))
    (fun (a0, a1, a2, a3, a4, a5) => ⟨a0, a1, a2, a3, a4, a5⟩) (fun _ => rfl)
    (.pair .nat <| .pair .nat <| .pair (.list codecLogRec) <| .pair (.list codecLogRec) <| .pair (.list codecLogRec)
        <| (.list codecLogRec))

def codecHeldLog : Codec HeldLog :=
  .iso (fun x => (x.comp, x.lid, x.digest, x.packet, x.logs))
    (fun (a0, a1, a2, a3, a4) => ⟨a0, a1, a2, a3, a4⟩) (fun _ => rfl)
    (.pair .nat <| .pair .nat <| .pair (.word 512) <| .pair (.list (.word 8)) <| (.list codecLog))

def codecSession : Codec Session :=
  .iso (fun x => (x.peer, x.up, x.key, x.counter, x.tags))
    (fun (a0, a1, a2, a3, a4) => ⟨a0, a1, a2, a3, a4⟩) (fun _ => rfl)
    (.pair .nat <| .pair .bool <| .pair .nat <| .pair .nat <| (.list (.pair .nat (.word 256))))

def codecNimmet : Codec Nimmet :=
  .iso (fun x => (x.status, x.rxSeq, x.txSeq, x.unacked))
    (fun (a0, a1, a2, a3) => ⟨a0, a1, a2, a3⟩) (fun _ => rfl)
    (.pair (.word 64) <| .pair .nat <| .pair .nat <| (.list (.pair .nat (.list (.word 8)))))

def codecRequest : Codec Request :=
  .iso (fun x => (x.route, x.code, x.ticket, x.len, x.body, x.own, x.blocks, x.num, x.taken))
    (fun (a0, a1, a2, a3, a4, a5, a6, a7, a8) => ⟨a0, a1, a2, a3, a4, a5, a6, a7, a8⟩) (fun _ => rfl)
    (.pair codecRoute <| .pair .nat <| .pair .nat <| .pair .nat <| .pair (.list (.word 8)) <| .pair (.option .nat) <|
        .pair (.list (.option .nat)) <| .pair .nat <| .bool)

end Sys2Proof.Machine
end

