-- ==== Sys2Proof/Machine/Num.lean ====
section
/-! DEFINITION. Arithmetic promise I (R30 to R52): formats, exact decoding, the rounding helpers, the
conversions, and the rules of sums and extremes that every unit shares (R72 to R74). Everything is
computed on exact integers and narrowed once, at the end. -/

namespace Sys2Proof.Machine

/-- The eight arithmetic flags of R50, bit k as there: INX 0, UNF 1, OVF 2, INV 3, SAT 4, EMPTY 5, AOVF 6,
RINEX 7. -/
abbrev Flags := BitVec 8

def fINX : Flags := 0x01
def fUNF : Flags := 0x02
def fOVF : Flags := 0x04
def fINV : Flags := 0x08
def fSAT : Flags := 0x10
def fEMPTY : Flags := 0x20
def fAOVF : Flags := 0x40
def fRINEX : Flags := 0x80

/-- A flag when a condition holds. -/
def flagIf (c : Bool) (f : Flags) : Flags := if c then f else 0

/-- The floating-point element and scale formats of R32. -/
inductive Fp where
  | e2m1 | e4m3 | e5m2 | fp16 | bf16 | fp32 | e3m5
  deriving DecidableEq, Repr

namespace Fp

/-- Exponent bits (R32). -/
def ebits : Fp → Nat
  | e2m1 => 2 | e4m3 => 4 | e5m2 => 5 | fp16 => 5 | bf16 => 8 | fp32 => 8 | e3m5 => 3

/-- Mantissa bits M (R32). -/
def mbits : Fp → Nat
  | e2m1 => 1 | e4m3 => 3 | e5m2 => 2 | fp16 => 10 | bf16 => 7 | fp32 => 23 | e3m5 => 5

/-- Exponent bias (R32). -/
def bias : Fp → Int
  | e2m1 => 1 | e4m3 => 7 | e5m2 => 15 | fp16 => 15 | bf16 => 127 | fp32 => 127 | e3m5 => 3

/-- R32: the formats with infinity codes. -/
def hasInf : Fp → Bool
  | e5m2 => true | fp16 => true | bf16 => true | fp32 => true
  | e2m1 => false | e4m3 => false | e3m5 => false

/-- Exponent of the smallest normal value. -/
def emin (f : Fp) : Int := 1 - f.bias

/-- Largest finite value, as an integer and a power of two (R32). -/
def maxFin : Fp → Nat × Int
  | e2m1 => (3, 1) | e4m3 => (7, 6) | e5m2 => (7, 13) | fp16 => (2047, 5) | bf16 => (255, 120)
  | fp32 => (2 ^ 24 - 1, 104) | e3m5 => (31, 0)

/-- Code of the largest finite magnitude. -/
def maxCode : Fp → Nat
  | e2m1 => 0x7 | e4m3 => 0x7E | e5m2 => 0x7B | fp16 => 0x7BFF | bf16 => 0x7F7F
  | fp32 => 0x7F7FFFFF | e3m5 => 0xFE

/-- The canonical NaN code of R34; a format without NaN codes answers 0. -/
def nanCode : Fp → Nat
  | bf16 => 0x7FC0 | fp16 => 0x7E00 | fp32 => 0x7FC00000 | e5m2 => 0x7E | e4m3 => 0x7F
  | e3m5 => 0xFF | e2m1 => 0

/-- Width in bits without the sign. -/
def magBits (f : Fp) : Nat := f.ebits + f.mbits

/-- The code of an infinity, or of the largest finite value where the format has none (R45). -/
def infCode (f : Fp) : Nat := if f.hasInf then (2 ^ f.ebits - 1) * 2 ^ f.mbits else f.maxCode

/-- The sign bit, added to a magnitude code. -/
def signed (f : Fp) (neg : Bool) (mag : Nat) : Nat := if neg then 2 ^ f.magBits + mag else mag

end Fp

/-- The exact value of an encoded element (R33): a NaN, which may be signalling (R34), an infinity, or
the finite value (-1)^neg · n · 2^e, where a zero keeps its sign. -/
inductive Num where
  | nan (sig : Bool)
  | inf (neg : Bool)
  | fin (neg : Bool) (n : Nat) (e : Int)
  deriving DecidableEq, Repr

namespace Num

def isNan : Num → Bool
  | nan _ => true | inf _ => false | fin _ _ _ => false
def isSig : Num → Bool
  | nan s => s | inf _ => false | fin _ _ _ => false
def isInf : Num → Bool
  | inf _ => true | nan _ => false | fin _ _ _ => false
def isZero : Num → Bool
  | fin _ n _ => n == 0 | nan _ => false | inf _ => false
def neg? : Num → Bool
  | nan _ => false | inf s => s | fin s _ _ => s
/-- The value with its sign changed; a NaN stays a NaN. -/
def negate : Num → Num
  | nan s => nan s | inf s => inf (!s) | fin s n e => fin (!s) n e
def absolute : Num → Num
  | nan s => nan s | inf _ => inf false | fin _ n e => fin false n e
/-- An integer as a value; 0 is +0 (R45). -/
def ofInt (i : Int) : Num := fin (decide (i < 0)) i.natAbs 0

/-- Exact product; 0 × Inf is a NaN (R345, R56). -/
def mul : Num → Num → Num
  | nan s, nan t => nan (s || t)
  | nan s, inf _ => nan s
  | nan s, fin _ _ _ => nan s
  | inf _, nan s => nan s
  | fin _ _ _, nan s => nan s
  | inf s, inf t => inf (s != t)
  | inf s, fin t n _ => if n = 0 then nan false else inf (s != t)
  | fin s n _, inf t => if n = 0 then nan false else inf (s != t)
  | fin s n e, fin t m f => fin (s != t) (n * m) (e + f)

end Num

/-- x · 2^e as a fraction. -/
def scaleFrac (x : Int) (e : Int) : Int × Nat :=
  if 0 ≤ e then (x * 2 ^ e.toNat, 1) else (x, 2 ^ (-e).toNat)

/-- R33. `decode` of the signed floating-point formats and E3M5. -/
def decodeFp (f : Fp) (code : Nat) : Num :=
  let m := code % 2 ^ f.mbits
  let ef := code / 2 ^ f.mbits % 2 ^ f.ebits
  let s := f != .e3m5 && code / 2 ^ f.magBits % 2 == 1
  if f.hasInf && ef == 2 ^ f.ebits - 1 then
    if m = 0 then .inf s else .nan (m / 2 ^ (f.mbits - 1) == 0)
  else if f == .e4m3 && ef == 15 && m == 7 then .nan false
  else if f == .e3m5 && code % 256 == 0xFF then .nan false
  else if ef = 0 then .fin s m (1 - f.bias - f.mbits)
  else .fin s (2 ^ f.mbits + m) (ef - f.bias - f.mbits)

/-- R33. An E8M0 scale code: 2^(c - 127), or NaN for 0xFF. -/
def decodeE8m0 (c : Nat) : Num := if c % 256 = 0xFF then .nan false else .fin false 1 (c % 256 - 127)

/-- `sext(x, w)` of R13. -/
def sextInt (x w : Nat) : Int :=
  let y := x % 2 ^ w
  if y < 2 ^ (w - 1) then y else (y : Int) - 2 ^ w

/-- R30. Element width in bits of a type code. -/
def tyBits (t : Nat) : Nat :=
  match t with
  | 0x0 => 4 | 0x1 => 4 | 0x2 => 8 | 0x3 => 8 | 0x4 => 8 | 0x5 => 8 | 0x6 => 16 | 0x7 => 16 | 0x8 => 32
  | 0x9 => 8 | 0xA => 8 | 0xB => 16 | _ => 32

/-- R30. Reserved type codes. -/
def tyReserved (t : Nat) : Bool := decide (0xD ≤ t)

/-- R30. Reserved rounding codes. -/
def rndReserved (r : Nat) : Bool := decide (5 ≤ r)

/-- R30. The unblocked floating-point format of a type code. -/
def fpOf (t : Nat) : Option Fp :=
  match t with
  | 0x4 => some .e4m3 | 0x5 => some .e5m2 | 0x6 => some .bf16 | 0x7 => some .fp16 | 0x8 => some .fp32
  | _ => none

/-- R30, R40. Integer type codes. -/
def tyIsInt (t : Nat) : Bool := decide (0x9 ≤ t ∧ t ≤ 0xC)

/-- R40. Range of an integer type. -/
def intRange (t : Nat) : Int × Int :=
  match t with
  | 0x9 => (-128, 127) | 0xA => (0, 255) | 0xB => (-32768, 32767) | _ => (-(2 ^ 31), 2 ^ 31 - 1)

/-- R40. The integer that a code of an integer type stands for. -/
def decodeInt (t code : Nat) : Int := if t = 0xA then ((code % 256 : Nat) : Int) else sextInt code (tyBits t)

/-- The w-bit two's-complement encoding of an integer. -/
def encodeInt (w : Nat) (i : Int) : Nat := (i % (2 ^ w : Int)).toNat

/-- R33, R40. The exact value of an element of an unblocked type. -/
def decodeElem (t code : Nat) : Num :=
  match fpOf t with
  | some f => decodeFp f code
  | none => Num.ofInt (decodeInt t code)

/-- R42. The hash of the stochastic rounding. -/
def srhHash (seed index : Nat) : Nat :=
  let h0 := Nat.xor (seed % 2 ^ 32) (index % 2 ^ 32)
  let h1 := Nat.xor h0 (h0 >>> 16)
  let h2 := h1 * 0x85EBCA6B % 2 ^ 32
  let h3 := Nat.xor h2 (h2 >>> 13)
  let h4 := h3 * 0xC2B2AE35 % 2 ^ 32
  Nat.xor h4 (h4 >>> 16)

/-- How a result is rounded: the rounding code of R30, and for SRH the seed and the element's index. -/
structure Rnd where
  mode : Nat
  seed : Nat := 0
  index : Nat := 0
  deriving DecidableEq, Repr

/-- Round to nearest, ties to even. -/
def rneMode : Rnd := { mode := 0 }

/-- R41, R42. The multiple of `2^w` that num/den (den > 0) rounds to, as the number of units 2^w. -/
def roundUnits (r : Rnd) (num : Int) (den : Nat) (w : Int) : Int :=
  let n : Int := if 0 ≤ w then num else num * 2 ^ (-w).toNat
  let d : Nat := if 0 ≤ w then den * 2 ^ w.toNat else den
  let low := n.fdiv d
  let rem := (n - low * d).toNat
  let up := match r.mode with
    | 0 => decide (d < 2 * rem) || (decide (2 * rem = d) && low % 2 == 1)
    | 1 => decide (num < 0) && rem != 0
    | 2 => rem != 0
    | 3 => false
    | _ => decide (2 ^ 32 ≤ rem * 2 ^ 32 / d + srhHash r.seed r.index)
  if up then low + 1 else low

/-- Whether k · 2^w is exactly num/den. -/
def exactUnits (num : Int) (den : Nat) (k : Int) (w : Int) : Bool :=
  if 0 ≤ w then num == k * 2 ^ w.toNat * den else num * 2 ^ (-w).toNat == k * den

/-- floor(log2(n/d)) of a positive fraction. -/
def log2Frac (n d : Nat) : Int :=
  let e : Int := (Nat.log2 n : Int) - Nat.log2 d
  let ge := if 0 ≤ e then decide (d * 2 ^ e.toNat ≤ n) else decide (d ≤ n * 2 ^ (-e).toNat)
  if ge then e else e - 1

/-- n · 2^e compared with m · 2^f. -/
def dyLt (n : Nat) (e : Int) (m : Nat) (f : Int) : Bool :=
  if e ≤ f then decide (n < m * 2 ^ (f - e).toNat) else decide (n * 2 ^ (e - f).toNat < m)

/-- The signed comparison of two finite values. -/
def finLt (s : Bool) (n : Nat) (e : Int) (t : Bool) (m : Nat) (f : Int) : Bool :=
  match s, t with
  | false, false => dyLt n e m f
  | true, true => dyLt m f n e
  | true, false => n != 0 || m != 0
  | false, true => false

/-- R44. The result of an overflow, and its flags. -/
def overflowCode (f : Fp) (saturating : Bool) (r : Rnd) (neg : Bool) : Nat :=
  if !f.hasInf || saturating then f.signed neg f.maxCode
  else
    match r.mode with
    | 1 => f.signed neg f.maxCode
    | 2 => if neg then f.signed true f.maxCode else f.infCode
    | 3 => if neg then f.signed true f.infCode else f.maxCode
    | _ => f.signed neg f.infCode

/-- R43, R44. Round the nonzero value ±n/d to the format `f`. `saturating` marks an MX element. -/
def roundFp (f : Fp) (saturating : Bool) (r : Rnd) (neg : Bool) (n d : Nat) : Nat × Flags :=
  let p := f.mbits + 1
  let ex0 := log2Frac n d
  let ex := if ex0 < f.emin then f.emin else ex0
  let w := ex - p + 1
  let num : Int := if neg then -(n : Int) else n
  let q := roundUnits r num d w
  let k := q.natAbs
  let inexact := !exactUnits num d q w
  if dyLt f.maxFin.1 f.maxFin.2 k w then (overflowCode f saturating r neg, fOVF ||| fINX)
  else
    let tiny := decide (k < 2 ^ f.mbits)
    let code :=
      if k < 2 ^ f.mbits then k
      else if k = 2 ^ p then (ex + 1 + f.bias).toNat * 2 ^ f.mbits
      else (ex + f.bias).toNat * 2 ^ f.mbits + (k - 2 ^ f.mbits)
    (f.signed neg code, flagIf inexact fINX ||| flagIf (inexact && tiny) fUNF)

/-- Round a finite value, where an exact zero keeps its sign and sets nothing (R43). -/
def roundFin (f : Fp) (saturating : Bool) (r : Rnd) (neg : Bool) (n : Nat) (e : Int) : Nat × Flags :=
  if n = 0 then (f.signed neg 0, 0)
  else
    let q := scaleFrac n e
    roundFp f saturating r neg q.1.toNat q.2

/-- R45. Any exact value to a floating-point format. -/
def toFp (f : Fp) (r : Rnd) (x : Num) : Nat × Flags :=
  match x with
  | .nan sig => (f.nanCode, flagIf sig fINV)
  | .inf s => (f.signed s f.infCode, flagIf (!f.hasInf) fOVF)
  | .fin s n e => roundFin f false r s n e

/-- R47. Limit an integer to a type's range; the flag says that it was limited. -/
def limitInt (t : Nat) (i : Int) : Int × Flags :=
  let b := intRange t
  if b.2 < i then (b.2, fSAT) else if i < b.1 then (b.1, fSAT) else (i, 0)

/-- R47. Any exact value to an integer type. -/
def toInt (t : Nat) (r : Rnd) (x : Num) : Nat × Flags :=
  match x with
  | .nan _ => (0, fINV)
  | .inf s => (encodeInt (tyBits t) (if s then (intRange t).1 else (intRange t).2), fSAT)
  | .fin s n e =>
    let q := scaleFrac (if s then -(n : Int) else n) e
    let y := roundUnits r q.1 q.2 0
    let l := limitInt t y
    (encodeInt (tyBits t) l.1, if l.2 = 0 then flagIf (!exactUnits q.1 q.2 y 0) fINX else l.2)

/-- Any exact value to an unblocked type (R45, R47). -/
def toElem (t : Nat) (r : Rnd) (x : Num) : Nat × Flags :=
  match fpOf t with
  | some f => toFp f r x
  | none => toInt t r x

/-- R45 to R47, R446. Convert one element between unblocked types; a conversion within one type is a
copy, bit for bit. -/
def convertElem (st tt : Nat) (r : Rnd) (code : Nat) : Nat × Flags :=
  if st = tt then (code % 2 ^ tyBits tt, 0) else toElem tt r (decodeElem st code)

/-- The exact sum of finite values, as an integer at the least exponent among them. -/
def sumFin : List Num → Int × Int
  | [] => (0, 0)
  | x :: xs =>
    let s := sumFin xs
    match x with
    | .fin neg n e =>
      let v : Int := if neg then -(n : Int) else n
      if s.1 = 0 then (v, e)
      else if e ≤ s.2 then (v + s.1 * 2 ^ (s.2 - e).toNat, e)
      else (v * 2 ^ (e - s.2).toNat + s.1, s.2)
    | .nan _ => s
    | .inf _ => s

/-- R72. The sign of a zero sum of the terms in a mode: true is -0. -/
def zeroSign (mode : Nat) (terms : List Num) : Bool :=
  if terms.isEmpty then false
  else if terms.all (fun t => t.isZero && !t.neg?) then false
  else if terms.all (fun t => t.isZero && t.neg?) then true
  else mode == 3

/-- R345. One floating-point result from its exact terms, rounded once; `operands` are the values whose
NaNs count. -/
def fplane (f : Fp) (r : Rnd) (operands terms : List Num) : Nat × Flags :=
  if operands.any Num.isNan then (f.nanCode, flagIf (operands.any Num.isSig) fINV)
  else if terms.any Num.isNan || (terms.contains (.inf false) && terms.contains (.inf true)) then
    (f.nanCode, fINV)
  else if terms.contains (.inf false) then (f.infCode, 0)
  else if terms.contains (.inf true) then (f.signed true f.infCode, 0)
  else
    let s := sumFin terms
    if s.1 = 0 then (f.signed (zeroSign r.mode terms) 0, 0)
    else roundFin f false r (decide (s.1 < 0)) s.1.natAbs s.2

/-- The order of R74 on values that are no NaN: whether a stands strictly below b, -0 below +0. -/
def numLt (a b : Num) : Bool :=
  match a, b with
  | .inf s, .inf t => s && !t
  | .inf s, .fin _ _ _ => s
  | .fin _ _ _, .inf t => !t
  | .fin s n e, .fin t m f => if n = 0 ∧ m = 0 then s && !t else finLt s n e t m f
  | .nan _, .inf _ => false
  | .nan _, .nan _ => false
  | .nan _, .fin _ _ _ => false
  | .inf _, .nan _ => false
  | .fin _ _ _, .nan _ => false

/-- R74. Whether the extreme takes the second operand: `mx` asks for the maximum. -/
def takesSecond (mx : Bool) (a b : Num) : Bool := if mx then numLt a b else numLt b a

/-- R74, R346. The extreme of two codes of one type: an operand's own bits, or the canonical NaN, with
INV for a signalling NaN. -/
def extremeCode (t : Nat) (mx : Bool) (a b : Nat) : Nat × Flags :=
  let x := decodeElem t a
  let y := decodeElem t b
  if x.isNan || y.isNan then
    (match fpOf t with
      | some f => f.nanCode
      | none => 0, flagIf (x.isSig || y.isSig) fINV)
  else (if takesSecond mx x y then b else a, 0)

/-- R329. FP32 addition of the atomics and of Shuttle: R345 without flags, in a rounding mode. -/
def fpAdd32 (r : Rnd) (old a : Nat) : Nat × Flags :=
  fplane .fp32 r [decodeFp .fp32 old, decodeFp .fp32 a] [decodeFp .fp32 old, decodeFp .fp32 a]

/-! ### Block formats (R36 to R39, R48, R49) -/

/-- R37. A ZB4 element through its scale and band. -/
def decodeZb4 (elem scale band : Nat) : Num :=
  if scale % 256 = 0xFF then .nan false
  else
    match decodeFp .bf16 band with
    | .nan _ => .nan false
    | .inf s =>
      let e := decodeFp .e2m1 elem
      if e.isZero || (decodeFp .e3m5 scale).isZero then .nan false else .inf (e.neg? != s)
    | .fin s n x =>
      let p := (decodeFp .e2m1 elem).mul (decodeFp .e3m5 scale)
      p.mul (.fin s n x)

/-- R39. An MX element through its E8M0 scale. -/
def decodeMx (f : Fp) (elem scale : Nat) : Num :=
  match decodeE8m0 scale with
  | .nan _ => .nan false
  | s =>
    match decodeFp f elem with
    | .nan _ => .nan false
    | x => x.mul s

/-- Elements per block of a block type (R30); 1 for the others. -/
def blockSize (t : Nat) : Nat :=
  match t with
  | 0x0 => 8 | 0x1 => 32 | 0x2 => 32 | 0x3 => 32 | _ => 1

/-- R30, R39. The element format of an MX type. -/
def mxFp (t : Nat) : Fp := if t = 0x1 then .e2m1 else if t = 0x2 then .e4m3 else .e5m2

/-- One converted block: its element codes, its scale code and the flags. -/
structure Block where
  elems : List Nat
  scale : Nat
  flags : Flags
  deriving DecidableEq, Repr

/-- |x| of a finite value as n · 2^e; specials count as 0. -/
def magOf : Num → Nat × Int
  | .fin _ n e => (n, e)
  | .inf _ => (0, 0)
  | .nan _ => (0, 0)

/-- The greatest magnitude of a list. -/
def peakMag : List Num → Nat × Int
  | [] => (0, 0)
  | x :: xs =>
    let p := peakMag xs
    let m := magOf x
    if dyLt p.1 p.2 m.1 m.2 then m else p

/-- R48. The least scale code c, counting up from `c`, with 6 · E3M5(c) · band ≥ peak. -/
def zb4Scale (pn : Nat) (pe : Int) (bn : Nat) (be : Int) : Nat → Nat → Option Nat
  | 0, _ => none
  | fuel + 1, c =>
    let s := magOf (decodeFp .e3m5 c)
    if dyLt (6 * s.1 * bn) (s.2 + be) pn pe then zb4Scale pn pe bn be fuel (c + 1) else some c

/-- x / (m · 2^f) rounded to E2M1 in a mode. -/
def zb4Elem (r : Rnd) (x : Num) (m : Nat) (f : Int) : Nat × Flags :=
  match x with
  | .fin s n e =>
    if n = 0 then (Fp.e2m1.signed s 0, 0)
    else
      let q := scaleFrac n (e - f)
      roundFp .e2m1 false r s q.1.toNat (q.2 * m)
  | .inf _ => (0, 0)
  | .nan _ => (0, 0)

/-- Elements with the flags of each, the index rising by one. -/
def mapElems (g : Rnd → Num → Nat × Flags) (r : Rnd) : List Num → List Nat × Flags
  | [] => ([], 0)
  | x :: xs =>
    let a := g r x
    let b := mapElems g { r with index := r.index + 1 } xs
    (a.1 :: b.1, a.2 ||| b.2)

/-- R48, R34. Eight values to one ZB4 block; an infinity or a signalling NaN sets INV. The rounding's index is that of element 0. -/
def toZb4 (r : Rnd) (band : Nat) (xs : List Num) : Block :=
  let nanBlock (inv : Bool) : Block := { elems := xs.map (fun _ => 0), scale := 0xFF, flags := flagIf inv fINV }
  match decodeFp .bf16 band with
  | .nan _ => nanBlock true
  | .inf _ => nanBlock true
  | .fin s bn be =>
    if s || bn == 0 then nanBlock true
    else if xs.any (fun x => x.isNan || x.isInf) then nanBlock (xs.any fun x => x.isInf || x.isSig)
    else
      let p := peakMag xs
      if p.1 = 0 then { elems := xs.map (fun x => Fp.e2m1.signed x.neg? 0), scale := 0, flags := 0 }
      else
        let found := zb4Scale p.1 p.2 bn be 254 1
        let c := found.getD 0xFE
        let sc := magOf (decodeFp .e3m5 c)
        let es := mapElems (fun r x => zb4Elem r x (sc.1 * bn) (sc.2 + be)) r xs
        { elems := es.1, scale := c, flags := es.2 ||| flagIf found.isNone fOVF }

/-- R49. One finite or special element of an MX block whose scale exponent is `se`. -/
def mxElem (f : Fp) (se : Int) (r : Rnd) (x : Num) : Nat × Flags :=
  match x with
  | .nan sig => (f.nanCode, flagIf sig fINV)
  | .inf s => if f.hasInf then (f.signed s f.infCode, 0) else (f.signed s f.maxCode, fOVF)
  | .fin s n e => roundFin f true r s n (e - se)

/-- R49, R34. Thirty-two values to one MX block of type `t`. -/
def toMx (t : Nat) (r : Rnd) (xs : List Num) : Block :=
  let f := mxFp t
  if f == .e2m1 && xs.any (fun x => x.isNan || x.isInf) then
    { elems := xs.map (fun _ => 0), scale := 0xFF, flags := flagIf (xs.any fun x => x.isInf || x.isSig) fINV }
  else
    let p := peakMag xs
    let emax : Int := match f with
      | .e2m1 => 2 | .e4m3 => 8 | _ => 15
    let c0 : Int := if p.1 = 0 then 0 else
      let q := scaleFrac p.1 p.2
      log2Frac q.1.toNat q.2 - emax + 127
    let c : Int := if p.1 = 0 then 0 else if c0 < 0 then 0 else if 254 < c0 then 254 else c0
    let es := mapElems (mxElem f (c - 127)) r xs
    { elems := es.1, scale := c.toNat, flags := es.2 ||| flagIf (decide (254 < c0)) fOVF }

end Sys2Proof.Machine
end

