-- ==== Sys2Proof/Machine/Flags.lean ====
section
/-! DEFINITION. The arithmetic flag word (R50 to R52): which results set flags, when they enter the word, the
clearing write, and checked mode. -/

namespace Sys2Proof.Machine

/-- R50. TEN: the flags whose traps are enabled. -/
def ten (x : Ctx) : Flags := x.flags.extractLsb' 8 8

/-- R408, R50. `flwr`: TEN := value[15:8], and each flag whose bit is 1 is cleared. -/
def flagWrite (w : BitVec 32) (v : W64) : BitVec 32 :=
  ((w.setWidth 8 &&& ~~~(v.setWidth 8)).setWidth 32) ||| ((v.extractLsb' 8 8).setWidth 32 <<< 8)

/-- R52. ARITH of checked mode: the enabled flags that a trigger of a slot would set. -/
def checkedTrap (x : Ctx) (slot : Nat) (f : Flags) : List (Nat × Trap) :=
  if f &&& ten x = 0 then []
  else [(6, { code := 0x17, info0 := (f &&& ten x).setWidth 64, info1 := (1 : W64) <<< slot })]

/-- R52. After a bundle in checked mode, the next one waits for the longest checked latency. -/
def checkedWait (x : Ctx) (able : Flags) (cycle lat : Nat) : Ctx :=
  if ten x &&& able = 0 then x else { x with notBefore := max x.notBefore (cycle + lat) }

/-- R51. The flags of a result, as an effect of its landing. -/
def landFlags (f : Flags) : List Land := if f = 0 then [] else [.flags f]

end Sys2Proof.Machine
end

