-- ==== Sys2Proof/Machine/Sha.lean ====
section
/-! DEFINITION. SHAKE256, the hash of R96, R98, R195, R199 and R200. The manual names it and does not define
it; this is the function of FIPS 202 (PRESUMED, assumption 4). -/

namespace Sys2Proof.Machine

/-- Rotation offsets of the lanes, index x + 5y. -/
def keccakRot : List Nat :=
  [0, 1, 62, 28, 27, 36, 44, 6, 55, 20, 3, 10, 43, 25, 39, 41, 45, 15, 21, 8, 18, 2, 61, 56, 14]

/-- Round constants. -/
def keccakRc : List W64 :=
  [0x0000000000000001, 0x0000000000008082, 0x800000000000808A, 0x8000000080008000,
   0x000000000000808B, 0x0000000080000001, 0x8000000080008081, 0x8000000000008009,
   0x000000000000008A, 0x0000000000000088, 0x0000000080008009, 0x000000008000000A] ++
  [0x000000008000808B, 0x800000000000008B, 0x8000000000008089, 0x8000000000008003,
   0x8000000000008002, 0x8000000000000080, 0x000000000000800A, 0x800000008000000A,
   0x8000000080008081, 0x8000000000008080, 0x0000000080000001, 0x8000000080008008]

/-- Lane i of a state of 25 lanes. -/
def lane (a : List W64) (i : Nat) : W64 := a.getD i 0

/-- One round. -/
def keccakRound (a : List W64) (rc : W64) : List W64 :=
  let c := (List.range 5).map fun x =>
    lane a x ^^^ lane a (x + 5) ^^^ lane a (x + 10) ^^^ lane a (x + 15) ^^^ lane a (x + 20)
  let d := (List.range 5).map fun x => lane c ((x + 4) % 5) ^^^ (lane c ((x + 1) % 5)).rotateLeft 1
  let t := (List.range 25).map fun i => lane a i ^^^ lane d (i % 5)
  -- the lane that moves to (x, y) comes from (x + 3y, x)
  let b := (List.range 25).map fun i =>
    let x := i % 5
    let y := i / 5
    let src := (x + 3 * y) % 5 + 5 * x
    (lane t src).rotateLeft (keccakRot.getD src 0)
  let e := (List.range 25).map fun i =>
    let x := i % 5
    let y := 5 * (i / 5)
    lane b i ^^^ (~~~(lane b (y + (x + 1) % 5)) &&& lane b (y + (x + 2) % 5))
  match e with
  | [] => []
  | z :: t => (z ^^^ rc) :: t

/-- The permutation. -/
def keccakF (a : List W64) : List W64 := keccakRc.foldl keccakRound a

/-- Eight bytes as a lane. -/
def laneOf : List Byte → W64
  | [] => 0
  | b :: t => b.setWidth 64 ||| (laneOf t <<< 8)

/-- The eight bytes of a lane. -/
def laneBytes (w : W64) : List Byte := (List.range 8).map fun i => (w >>> (8 * i)).setWidth 8

/-- Adds up to 17 lanes of input to a state. -/
def xorBlock : List W64 → List Byte → List W64
  | [], _ => []
  | a :: t, [] => a :: t
  | a :: t, m => (a ^^^ laneOf (m.take 8)) :: xorBlock t (m.drop 8)

/-- Absorbs blocks of 136 bytes. -/
def absorb : Nat → List W64 → List Byte → List W64
  | 0, a, _ => a
  | n + 1, a, m => absorb n (keccakF (xorBlock a (m.take 136))) (m.drop 136)

/-- The padding of a message to whole blocks. -/
def shakePad (len : Nat) : List Byte :=
  let k := 136 - len % 136
  if k = 1 then [0x9F] else 0x1F :: (List.replicate (k - 2) 0 ++ [0x80])

/-- Output of up to 136 bytes. -/
def shake256 (out : Nat) (m : List Byte) : List Byte :=
  ((absorb (m.length / 136 + 1) (List.replicate 25 0) (m ++ shakePad m.length)).flatMap laneBytes).take out

/-- SHAKE256 with 256 bits of output, and with 512 (R96, R194). -/
def shake32 (m : List Byte) : BitVec 256 := (shake256 32 m).foldr (fun b t => b.setWidth 256 ||| (t <<< 8)) 0
def shake64 (m : List Byte) : BitVec 512 := (shake256 64 m).foldr (fun b t => b.setWidth 512 ||| (t <<< 8)) 0

/-- The bytes of a digest, first byte lowest. -/
def digestBytes {w : Nat} (d : BitVec w) : List Byte := (List.range (w / 8)).map fun i => (d >>> (8 * i)).setWidth 8

end Sys2Proof.Machine
end

