-- ==== Sys2Proof/Machine/Trans.lean ====
section
/-! DEFINITION. Addresses, paths and translation (R75 to R94): the fields of an address, scratchpad windows,
range entries, the walk of the page tables, and the checks of R88 in their order. -/

namespace Sys2Proof.Machine

/-- What an access is for; it decides the checks of the page kind (R85, R100, R121, R327, R409). -/
inductive Use where
  | load | store | atom | tagged
  /-- read and write of an engine's command (R94, R388) -/
  | eread | ewrite
  /-- the line operand of a patch command -/
  | line
  /-- a launch packet (R409), a producer handle (R121) -/
  | packet | handle
  deriving DecidableEq, Repr

/-- R89. Whether the access counts as a write in the trap record. -/
def Use.writes : Use → Bool
  | .store => true
  | .atom => true
  | .ewrite => true
  | .eread => false
  | .load => false
  | .tagged => false
  | .line => false
  | .packet => false
  | .handle => false

/-- Where an address leads. -/
inductive Route3 where
  /-- the fault of R88: cause code and subcode -/
  | fault (code sub : Nat)
  /-- the translation is missing (R90) -/
  | miss (comp page : Nat)
  /-- a PAGE fault with the demand-mapping service (R92) -/
  | demand (comp page : Nat)
  /-- a scratchpad byte: key (core × 2^21 + offset), and the target core -/
  | spad (a core : Nat)
  /-- a page: physical address, descriptor words, table address -/
  | page (pa : Nat) (low high : W64) (ta : Nat)
  deriving DecidableEq, Repr

/-- R82. Descriptor fields. -/
def dV (low : W64) : Bool := low.getLsbD 0
def dLeaf (low : W64) : Bool := low.getLsbD 1
def dW (low : W64) : Bool := low.getLsbD 6
def dKind (low : W64) : Nat := fld low.toNat 8 7
def dSize (low : W64) : Nat := fld low.toNat 11 9
def dPa (low : W64) : Nat := fld low.toNat 44 12 * 4096
def dComp (high : W64) : Nat := fld high.toNat 63 58
def dLine (high : W64) : Nat := fld high.toNat 57 34
def dFmt (high : W64) : Nat := fld high.toNat 33 30
def dXlog (high : W64) : Nat := fld high.toNat 29 24
def dCols8 (high : W64) : Nat := fld high.toNat 23 8

/-- R82. The page kinds. -/
def kLined : Nat := 0
def kAtomic : Nat := 1
def kCode : Nat := 2
def kConst : Nat := 3

/-- R81, R82. log2 of a page size. -/
def sizeLog (size : Nat) : Nat :=
  match size with
  | 0 => 12 | 1 => 16 | 2 => 21 | _ => 30

/-- R81. Whether a leaf of a size may stand at a level. -/
def sizeAt (size level : Nat) : Bool :=
  match level with
  | 4 => size == 0 || size == 1
  | 3 => size == 2
  | 2 => size == 3
  | _ => false

/-- R84. Whether a physical address lies in HBM or the second tier. -/
def paOk (pa : Nat) : Bool := decide (pa < 2 ^ 40) || decide (2 ^ 44 ≤ pa)

/-- R83. Whether a descriptor reached at a level is bad; so is one at level 4 that is no leaf (assumption 114). -/
def badDesc (low high : W64) (level : Nat) : Bool :=
  let l := low.toNat
  let h := high.toNat
  if fld l 63 45 ≠ 0 ∨ fld l 5 2 ≠ 0 ∨ ¬ paOk (dPa low) then true
  else if ¬ dLeaf low then fld l 11 6 != 0 || h != 0 || level == 4
  else
    fld h 7 0 != 0 || decide (4 ≤ dSize low) || !sizeAt (dSize low) level ||
      dPa low % 2 ^ sizeLog (dSize low) != 0 || decide (0xD ≤ dFmt high) ||
      (if dKind low = kLined then
        decide (dXlog high < 12) || decide (30 < dXlog high) ||
          decide (dXlog high + 1 < sizeLog (dSize low)) || dCols8 high == 0 ||
          (decide (1 ≤ dFmt high ∧ dFmt high ≤ 3) && dCols8 high % 4 != 0)
      else fld h 57 8 != 0)

/-- R81. Index of a table address at a level. -/
def tblIndex (ta level : Nat) : Nat := if level = 0 then fld ta 55 48 else fld ta (56 - 9 * level) (48 - 9 * level)

/-- R81, R83, R88. The walk from a table, over the levels that remain. -/
def walkFrom (m : Memory) (ta : Nat) : Nat → Nat → Nat → WalkAns
  | 0, _, _ => .fault 3 false
  | fuel + 1, table, level =>
    let at_ := table + 16 * tblIndex ta level
    let low : W64 := BitVec.ofNat 64 (rdNat m at_ 8)
    let high : W64 := BitVec.ofNat 64 (rdNat m (at_ + 8) 8)
    if ¬ dV low then .fault 2 false
    else if badDesc low high level then .fault 3 false
    else if dLeaf low then .desc low high level
    else walkFrom m ta fuel (dPa low) (level + 1)

/-- R81. The walk of a compartment's tables; a compartment without tables has no valid descriptor. -/
def walkTables (s : State) (comp ta : Nat) : WalkAns :=
  match tget s.tt.comps comp with
  | some k => walkFrom s.ms.mem ta 5 k.root 0
  | none => .fault 2 false

/-- R79. Fields of a range entry. -/
def rBase (r : Range) : Nat := fld r.w0.toNat 55 12
def rLast (r : Range) : Nat := fld r.w1.toNat 55 12
def rV (r : Range) : Bool := r.w3.getLsbD 0
def rW (r : Range) : Bool := r.w3.getLsbD 1
def rG (r : Range) : Bool := r.w3.getLsbD 2
def rC (r : Range) : Bool := r.w3.getLsbD 3
def rD (r : Range) : Bool := r.w3.getLsbD 4

/-- R80. The valid entry of lowest number that covers a virtual address. -/
def rangeFor (rs : List Range) (va : Nat) : Option Range :=
  rs.find? fun r => rV r && decide (rBase r ≤ fld va 55 12) && decide (fld va 55 12 ≤ rLast r)

/-- R80. The table address, modulo 2^56. -/
def tableAddr (r : Range) (va : Nat) : Nat := (va % 2 ^ 56 + r.w2.toNat / 4096 * 4096) % 2 ^ 56

/-- R90. A translation that the core holds, or that a walk has answered to this context. -/
def lookup (s : State) (c comp page : Nat) : Option WalkAns :=
  match ((s.ctx c).walked.find? fun e => e.1 == comp && e.2.1 == page) with
  | some e => some e.2.2
  | none =>
    (s.ms.tlb.find? fun t => t.core == coreOf c && t.comp == comp && t.page == page).map
      fun t => .desc t.low t.high t.level

/-- R82. The physical address of a table address under a descriptor. -/
def leafPa (low : W64) (ta : Nat) : Nat := dPa low + ta % 2 ^ sizeLog (dSize low)

/-- R77. The window of a context's team on a physical core of its cluster: base byte and size. -/
def windowOf (b : BitVec 512) (core : Nat) : Nat × Nat := (bWbase b core * 4096, bWsize b * 4096)

/-- R78. The window check: the scratchpad byte of an offset, or PROT 0x3. -/
def windowCheck (s : State) (b : BitVec 512) (cluster core off size : Nat) : Route3 :=
  let w := windowOf b core
  if s.cr.absent.contains (cluster * 16 + core) then .fault 0x0C 0x3
  else if off + size ≤ w.2 then .spad ((cluster * 16 + core) * 2 ^ 21 + w.1 + off) (cluster * 16 + core)
  else .fault 0x0C 0x3

/-- R85. Check 10: whether the page kind or the descriptor's W forbids the access. -/
def kindBad (u : Use) (path : Nat) (low : W64) : Bool :=
  let k := dKind low
  match u with
  | .load => if path = 0 then k == kCode else k == kLined || k == kAtomic
  | .eread => path == 1 && (k == kLined || k == kAtomic)
  | .ewrite => path == 1 || !(k == kLined || k == kAtomic) || !dW low
  | .store => path == 1 || !(k == kLined || k == kAtomic) || !dW low
  | .atom => path == 1 || k != kAtomic || !dW low
  | .tagged => true
  | .line => path == 1 || k != kLined
  | .packet => if path = 0 then !(k == kAtomic || k == kConst) else k != kConst
  | .handle => path == 1 || k != kConst

/-- R87. Sizes of a line region's element, scale and band arrays. -/
def scaleBytes (fmt xlog : Nat) : Nat :=
  match fmt with
  | 0 => 2 ^ xlog / 4 | 1 => 2 ^ xlog / 16 | 2 => 2 ^ xlog / 32 | 3 => 2 ^ xlog / 32 | _ => 0

/-- R87. First offset beyond the last array of a format. -/
def arrayEnd (fmt xlog : Nat) : Nat :=
  if fmt = 0 then 2 ^ (xlog + 1) else 2 ^ xlog + scaleBytes fmt xlog

/-- R87, R97, R324. Check 11 on a LINED page: PROT 0x7 beyond the arrays, ALIGN 0x1 for part of a block or of a
granule; `vh` says that the access is `ldvh` or `stvh`. -/
def lineShape (fmt xlog off size : Nat) (write vh : Bool) : Option (Nat × Nat) :=
  let es := 2 ^ xlog
  if arrayEnd fmt xlog < off + size then some (0x0C, 0x7)
  else if fmt ≤ 3 then
    if off < es then (if vh then none else some (0x0D, 0x1))
    else if write ∧ off < es + scaleBytes fmt xlog then some (0x0D, 0x1)
    else if write ∧ size < 2 then some (0x0D, 0x1)
    else none
  else if write ∧ size < tyBits fmt / 8 then some (0x0D, 0x1)
  else none

/-- R87. Table-address offset in the line region. -/
def regionOff (high : W64) (ta : Nat) : Nat := ta % 2 ^ (dXlog high + 1)

/-- R206, R324. The bytes of a line region, by their table address, that lie in blocks of global memory. -/
def tableBlocks (s : State) (comp ta n : Nat) : List Nat :=
  match walkTables s comp ta with
  | .desc low _ _ => blocksOf (leafPa low ta) n
  | .fault _ _ => []

/-- R88, checks 5 to 10, on paths 0x0 and 0x1; `look` finds the translation of a compartment's page. -/
def globalCheck (look : Nat → Nat → Option WalkAns) (s : State) (c va : Nat) (u : Use) : Route3 :=
  let comp := bComp (s.board c)
  let path := pathOf va
  match rangeFor (((s.launchOf c).map (·.ranges)).getD []) va with
  | none => .fault 0x0B 0x1
  | some r =>
    if (if path = 0 then !rG r else !rC r) || (u.writes && !rW r) then .fault 0x0C 0x4
    else
      let ta := tableAddr r va
      match look comp (ta / 4096) with
      | none => .miss comp (ta / 4096)
      | some (.fault sub declined) => if rD r && !declined then .demand comp (ta / 4096) else .fault 0x0B sub
      | some (.desc low high _) =>
        if dComp high ≠ comp then .fault 0x0C 0x5
        else if kindBad u path low then .fault 0x0C 0x6
        else .page (leafPa low ta) low high ta

/-- R88. The checks of one access in their order: size and alignment in bytes, and whether it is `ldvh` or
`stvh`. -/
def routeBy (look : Nat → Nat → Option WalkAns) (s : State) (c va size align : Nat) (u : Use) (vh : Bool) : Route3 :=
  let path := pathOf va
  let b := s.board c
  if 4 ≤ path then .fault 0x0C 0x1
  else if (if path = 3 then fld va 55 21 != 0
           else if path = 2 then fld va 59 21 != 0 else fld va 59 56 != 0) then .fault 0x0C 0x2
  else if va % align ≠ 0 then .fault 0x0D 0x0
  else if u = .tagged ∧ path ≤ 1 then .fault 0x0C 0xA
  else if path = 2 then
    match windowCheck s b (clusterOf c) (coreOf c % 16) (fld va 20 0) size with
    | .spad a k => if u = .line ∨ u = .packet ∨ u = .handle then .fault 0x0C 0x6 else .spad a k
    | f => f
  else if path = 3 then
    match targetCore b (fld va 59 56) with
    | none => .fault 0x0C 0x3
    | some t =>
      match windowCheck s b (clusterOf c) t (fld va 20 0) size with
      | .spad a k => if u = .line ∨ u = .packet ∨ u = .handle then .fault 0x0C 0x6 else .spad a k
      | f => f
  else
    match globalCheck look s c va u with
    | .page pa low high ta =>
      if dKind low = kLined ∧ (u = .load ∨ u = .store ∨ u = .eread ∨ u = .ewrite) then
        match lineShape (dFmt high) (dXlog high) (regionOff high ta) size u.writes vh with
        | some (code, sub) => .fault code sub
        | none => .page pa low high ta
      else .page pa low high ta
    | f => f

/-- The checks of an access of a program. -/
def route (s : State) (c va size align : Nat) (u : Use) (vh : Bool) : Route3 := routeBy (lookup s c) s c va size align u vh

/-- R121, R409. The checks of a read of the 192 bytes of a packet's header, on one page or two. -/
def headerRoute (s : State) (c va : Nat) (u : Use) : Route3 :=
  match route s c va 192 64 u false with
  | .page pa low high ta =>
    let next := va / 4096 * 4096 + 4096
    if va + 192 ≤ next then .page pa low high ta
    else match route s c next 64 64 u false with
      | .page _ _ _ _ => .page pa low high ta
      | f => f
  | f => f

/-- R89. The trap of a memory fault. -/
def trapMem (code sub va slot : Nat) (write : Bool) : Trap :=
  { code := code, info0 := BitVec.ofNat 64 va
    info1 := BitVec.ofNat 64 (slot % 8 + 16 * (sub % 16) + (if write then 256 else 0)) }

/-- R91, R414. A miss joins the walk in flight for its page, or asks for one, which ends after an open latency. Who asks
is a context, or 2^20 + the number of a data command (R94). Each miss of a context counts once, whether it joins or
asks. -/
def startWalkBy (s : State) (d c comp page : Nat) : State :=
  match s.ms.walks.find? fun w => w.die == d && w.comp == comp && w.page == page with
  | some w =>
    let w2 := if w.ctxs.contains c then w else { w with ctxs := w.ctxs ++ [c] }
    let s := if w.ctxs.contains c then s else s.bump c 6 1
    { s with ms := { s.ms with walks := s.ms.walks.map fun x => if x.id == w.id then w2 else x } }
  | none =>
    let (id, s) := s.fresh
    let busy := (s.ms.walks.filter fun w => w.die == d && w.started).length
    let s := (s.bump c 6 1)
    let s := { s with ms := { s.ms with
      walks := s.ms.walks ++ [{ id := id, die := d, comp := comp, page := page, ctxs := [c], started := decide (busy < 64) }]
      walkLast := if busy < 64 then tput d comp s.ms.walkLast else s.ms.walkLast } }
    if busy < 64 then
      let (n, s) := s.delay
      s.after (s.cycle + n) false .translationWalkEnd { a := id }
    else s

/-- R91. The miss of a context. -/
def startWalk (s : State) (c comp page : Nat) : State := startWalkBy s (dieOf c) c comp page

/-- R92. Sends a PAGE fault to the demand-mapping service. -/
def startDemand (s : State) (c comp page : Nat) : State :=
  if s.ms.demand.contains (c, comp, page) then s
  else { s with ms := { s.ms with demand := s.ms.demand ++ [(c, comp, page)] } }

/-- R90. The wait of an access whose translation is missing. -/
def routeHold (s : State) (c : Nat) (r : Route3) : Option (Wait × State) :=
  match r with
  | .miss comp page => some (.walk, startWalk s c comp page)
  | .demand comp page => some (.walk, startDemand s c comp page)
  | .fault _ _ => none
  | .spad _ _ => none
  | .page _ _ _ _ => none

/-- R88. The memory trap of an access, class 5 of R212. -/
def routeTrap (r : Route3) (va slot : Nat) (write : Bool) : List (Nat × Trap) :=
  match r with
  | .fault code sub => [(5, trapMem code sub va slot write)]
  | .miss _ _ => []
  | .demand _ _ => []
  | .spad _ _ => []
  | .page _ _ _ _ => []

/-- R95. The line of a page. -/
def lineKey (high : W64) : Nat := dComp high * 2 ^ 24 + dLine high

end Sys2Proof.Machine
end

