-- ==== Sys2Proof/Machine/Lines.lean ====
section
/-! DEFINITION. Lines and patches (R95 to R99, R103 to R109, R113, R114, R120, R448): granules, what a read
returns, the digest of a patch, the name table and the patch pool; and the order log of a launch (R224). -/

namespace Sys2Proof.Machine

/-! ### Granules (R97, R448) -/

/-- Element bytes of the granules of a block format, or the element size. -/
def granElem (fmt : Nat) : Nat :=
  match fmt with
  | 0 => 4 | 1 => 16 | 2 => 32 | 3 => 32 | _ => tyBits fmt / 8

/-- R87. Offset of the band array of a ZB4 line. -/
def bandOff (xlog : Nat) : Nat := 2 ^ xlog + 2 ^ xlog / 4

/-- The granule of a region offset, and the byte's place in the granule's payload. -/
def granOf (fmt xlog off : Nat) : Nat × Nat :=
  let e := granElem fmt
  if 4 ≤ fmt then (off / e * e, off % e)
  else if off < 2 ^ xlog then (off / e * e, off % e)
  else if fmt = 0 ∧ bandOff xlog ≤ off then (off / 2 * 2, off % 2)
  else (e * (off - 2 ^ xlog), e)

/-- R448. The payload bytes of a granule as a memory of the region holds them. -/
def granBytes (fmt xlog : Nat) (base : Memory) (g : Nat) : List Byte :=
  let e := granElem fmt
  if 4 ≤ fmt then rdBytes base g e
  else if g < 2 ^ xlog then rdBytes base g e ++ [rdByte base (2 ^ xlog + g / e)]
  else rdBytes base g 2

/-- The payload of a granule in a list of granules. -/
def granFind (g : Nat) : List Gran → Option (List Byte)
  | [] => none
  | (k, b) :: t => if k = g then some b else granFind g t

/-- R103. Writes a granule; granules stay in ascending order. -/
def granPut (g : Nat) (b : List Byte) : List Gran → List Gran
  | [] => [(g, b)]
  | (k, d) :: t => if k = g then (g, b) :: t else if g < k then (g, b) :: (k, d) :: t else (k, d) :: granPut g b t

/-- Writes granules in order. -/
def granPutAll (gs : List Gran) (p : List Gran) : List Gran := gs.foldl (fun q e => granPut e.1 e.2 q) p

/-! ### Values (R107, R108) -/

/-- The unsigned number of payload bytes, and back. -/
def codeOf (b : List Byte) : Nat := bytesNat b

/-- R108. A run of ADD terms added exactly to a value and rounded once. -/
def addRun (fmt : Nat) (v : List Byte) (terms : List (List Byte)) : List Byte :=
  let n := v.length
  match fpOf fmt with
  | some f =>
    let ops := decodeFp f (codeOf v) :: terms.map fun t => decodeFp f (codeOf t)
    natBytes (fplane f rneMode ops ops).1 n
  | none =>
    let total := terms.foldl (fun t b => t + decodeInt fmt (codeOf b)) (decodeInt fmt (codeOf v))
    natBytes (encodeInt (tyBits fmt) (limitInt fmt total).1) n

/-- R107. One patch that is no ADD, on a granule that it covers. -/
def applyPatch (fmt kind : Nat) (v p : List Byte) : List Byte :=
  match kind with
  | 0 => p
  | 2 => natBytes (extremeCode fmt true (codeOf v) (codeOf p)).1 v.length
  | _ => List.zipWith (fun a b => a ^^^ b) v p

/-- R107. `walk`, with the terms of the ADD run so far. -/
def walkChain (fmt g : Nat) : List Byte → List (List Byte) → List Patch → List Byte
  | v, run, [] => if run.isEmpty then v else addRun fmt v run
  | v, run, p :: t =>
    match granFind g p.pay with
    | none => walkChain fmt g v run t
    | some b =>
      if p.kind = 1 then walkChain fmt g v (run ++ [b]) t
      else
        let w := if run.isEmpty then v else addRun fmt v run
        walkChain fmt g (applyPatch fmt p.kind w b) [] t

/-- R107. The value of a granule of a line through a chain. -/
def granValue (l : Line) (chain : List Patch) (g : Nat) : List Byte :=
  walkChain l.fmt g (granBytes l.fmt l.xlog l.base g) [] chain

/-- R104. The chain that a context's reads see: with its open patch closed at the tip. -/
def chainFor (l : Line) (c : Nat) : List Patch :=
  match l.opens.find? fun o => o.ctx == c with
  | some o => l.chain ++ [{ name := o.name, kind := o.kind, pay := o.pay, digest := 0 }]
  | none => l.chain

/-- R106. Bytes of a line region through a chain. -/
def lineBytes (l : Line) (chain : List Patch) (off : Nat) : Nat → List Byte
  | 0 => []
  | n + 1 =>
    let g := granOf l.fmt l.xlog off
    (granValue l chain g.1).getD g.2 0 :: lineBytes l chain (off + 1) n

/-- R324. What a load of a LINED page returns: on the element array of a block format the element bytes, then
from byte 128 the blocks' scale bytes. -/
def lineLoad (l : Line) (chain : List Patch) (off size : Nat) : List Byte :=
  let e := lineBytes l chain off size
  if l.fmt ≤ 3 ∧ off < 2 ^ l.xlog then
    e ++ lineBytes l chain (2 ^ l.xlog + off / granElem l.fmt) (size / granElem l.fmt)
  else e

/-- R324, R97. The granules that a store of bytes writes; a block store brings its scales from byte 128. -/
def storeGrans (fmt xlog off size : Nat) (data : List Byte) : List Gran :=
  let e := granElem fmt
  if 4 ≤ fmt then (List.range (size / e)).map fun k => (off + k * e, (data.drop (k * e)).take e)
  else if off < 2 ^ xlog then
    (List.range (size / e)).map fun k =>
      (off + k * e, (data.drop (k * e)).take e ++ [data.getD (128 + k) 0])
  else (List.range (size / 2)).map fun k => (off + 2 * k, (data.drop (2 * k)).take 2)

/-- R320. The granules of a store of the 4-byte lanes that a mask chooses. -/
def laneGrans (fmt xlog off : Nat) (mask : BitVec 64) (data : List Byte) : List Gran :=
  (List.range 64).flatMap fun k =>
    if mask.getLsbD k then storeGrans fmt xlog (off + 4 * k) 4 ((data.drop (4 * k)).take 4) else []

/-! ### Digest, names, pool (R98, R113, R120, R448) -/

/-- R448. The digest of a patch. -/
def digestOf (kind : Nat) (pay : List Gran) : BitVec 256 :=
  shake32 (BitVec.ofNat 8 kind :: natBytes pay.length 8 ++ pay.flatMap fun g => natBytes g.1 8 ++ g.2)

/-- R96. Bytes of a line region's arrays. -/
def regionBytes (fmt xlog : Nat) : Nat := if fmt ≤ 3 then arrayEnd fmt xlog else 2 ^ xlog

/-- R96. The hash of a base. -/
def baseHash (fmt xlog : Nat) (base : Memory) : BitVec 256 := shake32 (rdBytes base 0 (regionBytes fmt xlog))

/-- R113. The entry of a name. -/
def nameOf (l : Line) (n : Nat) : Option NameEnt := l.names.find? fun e => e.name == n

/-- R120. Units of a payload and its footprint. -/
def payUnits (pay : List Gran) : Nat :=
  ((pay.foldl (fun t g => t + g.2.length) 0) + 63) / 64 + (pay.length + 511) / 512

/-- R103. Granules on their way to a context's open patch on a line, from bundles numbered below a limit. -/
def pendingGrans (s : State) (key : Nat) (l : Line) (c limit : Nat) : List Gran :=
  s.ms.accs.flatMap fun a =>
    match a.place with
    | .line k off =>
      if k = key ∧ a.ctx = c ∧ a.num < limit then
        match a.kind with
        | .patch => storeGrans l.fmt l.xlog off a.size (bytesOf a.data 256)
        | .lanes m => laneGrans l.fmt l.xlog off m (bytesOf a.data 256)
        | _ => []
      else []
    | _ => []

/-- R103. Granules that engine commands of a context have issued to its open patch on a line. -/
def engGrans (s : State) (key c : Nat) : List Gran :=
  s.en.writes.flatMap fun w => match w.place with
    | .line k _ => if k = key ∧ w.ctx = c then w.grans else []
    | .phys _ => []
    | .spad _ => []

/-- R120. Units that a line draws from its compartment's pool, writes on their way included. -/
def lineUnits (s : State) (key : Nat) (l : Line) : Nat :=
  let closed := (l.chain ++ l.sidings.flatMap (·.2)).foldl (fun t p => t + 1 + payUnits p.pay) 0
  let pay (o : OpenPatch) : List Gran :=
    granPutAll (pendingGrans s key l o.ctx ((s.ctx o.ctx).bundles + 1) ++ engGrans s key o.ctx) o.pay
  let opened := l.opens.foldl (fun t o => t + 1 + payUnits (pay o)) 0
  closed + opened + (l.names.filter (·.squashed)).length

/-- R120. Units in use in a compartment's pool, and its size, which Zitrum takes from the launches in progress
(assumption 107). -/
def poolUsed (s : State) (comp : Nat) : Nat :=
  s.ms.lines.foldl (fun t e => if e.1 / 2 ^ 24 = comp then t + lineUnits s e.1 e.2 else t) 0
def poolMax (s : State) (comp : Nat) : Nat := ((tget s.tt.comps comp).map (·.pool)).getD 0

/-- R120. Whether a change from one state to another needs units that a compartment's pool lacks. -/
def poolShort (s t : State) (comp : Nat) : Bool :=
  decide (poolUsed s comp < poolUsed t comp) && decide (poolMax s comp < poolUsed t comp)

/-- R109. Whether two patches commute. -/
def commutes (p q : Patch) : Bool :=
  p.pay.all (fun g => (granFind g.1 q.pay).isNone) ||
    (p.kind == q.kind && (p.kind != 0 || p.pay == q.pay))

/-- R114. The fork point of two lines' chains. -/
def commonPrefix : List Patch → List Patch → Nat
  | p :: ps, q :: qs => if p.name = q.name ∧ p.digest = q.digest then commonPrefix ps qs + 1 else 0
  | [], _ => 0
  | _ :: _, [] => 0
def forkPoint (a b : Line) : Nat := if a.hash = b.hash then commonPrefix a.chain b.chain else 0

/-- The entry of a line. -/
def State.line (s : State) (key : Nat) : Option Line := tget s.ms.lines key
def State.setLine (s : State) (key : Nat) (l : Line) : State := { s with ms := { s.ms with lines := tput key l s.ms.lines } }

/-- R112. Every granule at which a chain may differ from the base, with its value. -/
def squashedBase (l : Line) : Memory :=
  let gs := (l.chain.flatMap fun p => p.pay.map (·.1)).eraseDups
  gs.foldl (fun m g =>
    let v := granValue l l.chain g
    let e := granElem l.fmt
    if l.fmt ≤ 3 ∧ g < 2 ^ l.xlog then wrBytes (2 ^ l.xlog + g / e) (v.drop e) (wrBytes g (v.take e) m)
    else wrBytes g v m) l.base

/-! ### The order log (R224 to R226) -/

/-- The log of a launch on a die. -/
def State.log (s : State) (lid die : Nat) : Option Log := s.tm.logs.find? fun g => g.lid == lid && g.die == die

/-- Changes a launch's log on a die; a log that does not exist yet begins empty. -/
def State.modLog (s : State) (lid die : Nat) (f : Log → Log) : State :=
  let logs := if (s.log lid die).isSome then s.tm.logs
    else s.tm.logs ++ [{ lid := lid, die := die, recs := [], replay := [] }]
  { s with tm := { s.tm with logs := logs.map fun g => if g.lid == lid && g.die == die then f g else g } }

/-- R224. Appends a record. -/
def logAppend (s : State) (lid die kind : Nat) (site : W64) (entries : List W64) : State :=
  s.modLog lid die fun g =>
    { g with recs := g.recs ++ [{ kind := kind, die := die, seq := g.recs.length, site := site, entries := entries }] }

/-- R226. Whether replay is in force on a die's log: records remain. -/
def replaying (s : State) (lid die : Nat) : Bool := ((s.log lid die).map fun g => !g.replay.isEmpty).getD false

/-- R226. The next record of a site still to replay. A bank, a tagged word or a line that has none left serves in arrival order
from then on, whatever its die's log still holds of other sites (assumption 150). -/
def nextRecord (s : State) (lid die kind : Nat) (site : W64) : Option LogRec :=
  ((s.log lid die).map (·.replay)).getD [] |>.find? fun r => r.kind == kind && r.site == site

/-- R226. Whether a record of a site still to replay has an entry that a test accepts. -/
def recordLists (s : State) (lid die kind : Nat) (site : W64) (p : W64 → Bool) : Bool :=
  (((s.log lid die).map (·.replay)).getD []).any fun r => r.kind == kind && r.site == site && r.entries.any p

/-- Removes the first record that a test accepts. -/
def dropFirst (p : LogRec → Bool) : List LogRec → List LogRec
  | [] => []
  | r :: t => if p r then t else r :: dropFirst p t

/-- R226. A record has been replayed. -/
def replayed (s : State) (lid die kind : Nat) (site : W64) : State :=
  s.modLog lid die fun g => { g with replay := dropFirst (fun r => r.kind == kind && r.site == site) g.replay }

/-- R224, R226. An event of a site: a new record, or in replay the site's next one, which stands in the log already. -/
def logEvent (s : State) (lid die kind : Nat) (site : W64) (entries : List W64) : State :=
  if (nextRecord s lid die kind site).isSome then replayed s lid die kind site else logAppend s lid die kind site entries

/-- R226. Divergence: the launch is killed with KILLED, subcode 0x10. -/
def diverge (s : State) (lid : Nat) : State :=
  let s := s.modLaunch lid fun l => { l with ending := l.ending <|> some { status := 0x07, sub := 0x10 } }
  s.after s.cycle false .teamEnd { a := lid, d := 1 }

end Sys2Proof.Machine
end

