-- ==== Sys2Proof/Machine/Mem.lean ====
section
/-! DEFINITION. Performing accesses (R124 to R138, R217, R227, R325, R329, R447, R449): words that fail, the step
journal, atomics, the holding buffers with their records, and the arrival of values. -/

namespace Sys2Proof.Machine

/-! ### Words, errors and the journal -/

/-- Bytes from an address, cut at word boundaries. -/
def chunkWords : Nat → Nat → List Byte → List (Nat × List Byte)
  | 0, _, _ => []
  | _ + 1, _, [] => []
  | fuel + 1, a, b :: t =>
    let n := 4 - a % 4
    (a, (b :: t).take n) :: chunkWords fuel (a + n) ((b :: t).drop n)

/-- The words that bytes lie in. -/
def wordsOf (a n : Nat) : List Nat := (List.range ((a + n + 3) / 4 - a / 4)).map (· + a / 4)

/-- R441. Whether a physical address lies on a failed port. -/
def portFailed (s : State) (pa : Nat) : Bool := decide (2 ^ 44 ≤ pa) && s.ms.failPorts.contains (fld pa 43 40)

/-- R217. The location code of a physical address. -/
def physLoc (pa : Nat) : Nat := if 2 ^ 44 ≤ pa then 1 else 0

/-- R217, R441, R447. Bytes of HBM or the second tier; none when they cannot be corrected. -/
def physRead (s : State) (pa n : Nat) : Option (List Byte) :=
  if portFailed s pa ∨ (wordsOf pa n).any (fun w => s.ms.failMem.contains w) then none
  else some (rdBytes s.ms.mem pa n)

/-- R441, R447. Bytes of HBM or the second tier as firmware reads them: those of a word that cannot be corrected are open. -/
def fwRead (s : State) (pa n : Nat) : List Byte :=
  match physRead s pa n with
  | some bs => bs
  | none => (List.range n).map fun k =>
    if portFailed s (pa + k) ∨ s.ms.failMem.contains ((pa + k) / 4) then Config.badByte s.cycle (pa + k)
    else rdByte s.ms.mem (pa + k)

/-- R217. Bytes of a scratchpad. -/
def spadRead (s : State) (a n : Nat) : Option (List Byte) :=
  if (wordsOf a n).any (fun w => s.ms.failSpad.contains w) then none else some (rdBytes s.ms.spad a n)

/-- R227. Before the first write of a step to an ATOMIC page, the page is copied to each armed journal of its
compartment; the page is noted as written by the launch (R231). -/
def journalFor (s : State) (comp lid page : Nat) : State :=
  { s with tm := { s.tm with launches := s.tm.launches.map fun e =>
      let l := e.2
      let l := if l.armed ∧ l.comp = comp ∧ (tget l.journal page).isNone then
        { l with journal := tput page (fwRead s (page * 4096) 4096) l.journal } else l
      (e.1, if e.1 = lid then { l with writtenPages := sins page l.writtenPages } else l) } }

/-- R447. Writes bytes of one word: a whole word replaces a failing one, a part leaves it failing. -/
def physPut (s : State) (a : Nat) (bs : List Byte) : State :=
  if portFailed s a then s
  else if s.ms.failMem.contains (a / 4) ∧ bs.length < 4 then s
  else { s with ms := { s.ms with mem := wrBytes a bs s.ms.mem, failMem := sdel (a / 4) s.ms.failMem } }

/-- R227, R447. A write to an ATOMIC page of a compartment, of a launch or, with number 0, of none. -/
def pageWrite (s : State) (comp lid a : Nat) (bs : List Byte) : State :=
  (chunkWords bs.length a bs).foldl (fun t w => physPut (journalFor t comp lid (w.1 / 4096)) w.1 w.2) s

/-- R227, R447. A write of a launch to an ATOMIC page. -/
def physWrite (s : State) (lid a : Nat) (bs : List Byte) : State :=
  pageWrite s (((tget s.tm.launches lid).map (·.comp)).getD 0) lid a bs

/-- R366, R368. The former words of the scratchpads with one more that is about to be written: the loaders of every call
that is on an array may have read it already. -/
def noteFormer (s : State) (w : Nat) : List Former :=
  if s.cr.calls.isEmpty then s.ms.former
  else { word := w, old := BitVec.ofNat 32 (rdNat s.ms.spad (4 * w) 4), cores := s.cr.calls.map (·.1) } :: s.ms.former

/-- R447. A write to a scratchpad. -/
def spadPut (s : State) (a : Nat) (bs : List Byte) : State :=
  if s.ms.failSpad.contains (a / 4) ∧ bs.length < 4 then s
  else { s with ms := { s.ms with
    spad := wrBytes a bs s.ms.spad, failSpad := sdel (a / 4) s.ms.failSpad, former := noteFormer s (a / 4) } }
def spadWrite (s : State) (a : Nat) (bs : List Byte) : State :=
  (chunkWords bs.length a bs).foldl (fun t w => spadPut t w.1 w.2) s

/-- R447. Whether a write covers only a part of a failing scratchpad word. -/
def spadPartBad (s : State) (a : Nat) (bs : List Byte) : Bool :=
  (chunkWords bs.length a bs).any fun w => s.ms.failSpad.contains (w.1 / 4) && decide (w.2.length < 4)

/-- The word at a place; none when it fails. -/
def wordRead (s : State) (p : Place) : Option (BitVec 32) :=
  match p with
  | .phys pa => (physRead s pa 4).map fun b => (vecOf b).setWidth 32
  | .spad a => (spadRead s a 4).map fun b => (vecOf b).setWidth 32
  | .line _ _ => none

/-- Writes a whole word at a place. -/
def wordWrite (s : State) (lid : Nat) (p : Place) (v : BitVec 32) : State :=
  match p with
  | .phys pa => physWrite s lid pa (bytesOf (v.setWidth 2048) 4)
  | .spad a => spadWrite s a (bytesOf (v.setWidth 2048) 4)
  | .line _ _ => s

/-! ### Atomics (R329) -/

/-- R329. fpadd. -/
def fpAdd (x y : BitVec 32) : BitVec 32 := BitVec.ofNat 32 (fpAdd32 rneMode x.toNat y.toNat).1

/-- R329. The new word of an atomic. -/
def atomNew (op : AtomOp) (old a b : BitVec 32) : BitVec 32 :=
  match op with
  | .swap => a
  | .cas => if old = b then a else old
  | .fadd => old + a
  | .faddf => fpAdd old a
  | .radd => old + a
  | .raddf => fpAdd old a
  | .rmax => if old.slt a then a else old
  | .rmin => if a.slt old then a else old
  | .rmaxf => BitVec.ofNat 32 (extremeCode 0x8 true old.toNat a.toNat).1
  | .rand => old &&& a
  | .ror => old ||| a
  | .rxor => old ^^^ a

/-- R331. Performs an atomic: a failing word stays as it is, unless a swap replaces it; the old word is
answered, or none. -/
def atomPerform (s : State) (lid : Nat) (op : AtomOp) (p : Place) (a b : BitVec 32) : Option (BitVec 32) × State :=
  match wordRead s p with
  | some old => (some old, wordWrite s lid p (atomNew op old a b))
  | none => (none, match op with | .swap => wordWrite s lid p a | _ => s)

/-! ### Holding buffers (R136 to R138, R413, R421, R449) -/

/-- Who makes an access. -/
structure Who where
  c : Nat
  lid : Nat
  rank : Nat
  num : Nat
  slot : Nat

/-- The access of a bundle's slot. -/
def whoOf (s : State) (c slot : Nat) : Who :=
  { c := c, lid := bLid (s.board c), rank := s.rank c, num := (s.ctx c).bundles, slot := slot }

/-- Whether a launch runs in a deterministic mode. -/
def lidDet (s : State) (lid : Nat) : Bool := ((tget s.tm.launches lid).map fun l => modeDet l.mode).getD false

/-- R136. The bank of a word. -/
def bankOf (p : Place) : Nat :=
  match p with
  | .phys pa => hbmSite pa
  | .spad a => 8192 + a / 2 ^ 21 * 32 + fld a 6 2
  | .line _ _ => 0

/-- R138, R413. SITE of a bank's records, and the die of their log. -/
def siteOf (s : State) (c : Nat) (p : Place) : W64 × Nat :=
  match p with
  | .phys pa =>
    if 2 ^ 44 ≤ pa then (BitVec.ofNat 64 (2 ^ 60 + fld pa 43 40), fld pa 43 40 / 4 * 4)
    else (BitVec.ofNat 64 (hbmSite pa), fld pa 39 36 / 4 * 4)
  | .spad a =>
    let core := bLcore (s.board c) (a / 2 ^ 21 % 16)
    (BitVec.ofNat 64 (2 * 2 ^ 60 + 32 * (144 * s.seenDie c + 16 * s.seenCluster c + core) + fld a 6 2), s.seenDie c)
  | .line _ _ => (0, 0)

/-- R224. An entry of a DRAIN record. -/
def drainEntry (rank num slot : Nat) (ret : Bool) : W64 :=
  BitVec.ofNat 64 ((if ret then 2 ^ 63 else 0) + rank % 2 ^ 31 * 2 ^ 32 + num % 2 ^ 29 * 8 + slot % 8)
def updEntry (u : Upd) : W64 := drainEntry u.rank u.num u.slot false

/-- R136. Whether an update comes before another in (rank, issue order). -/
def updBefore (a b : Upd) : Bool :=
  decide (a.rank < b.rank) ||
    (a.rank == b.rank && (decide (a.num < b.num) || (a.num == b.num && decide (a.slot ≤ b.slot))))

/-- Inserts an update into an ordered list. -/
def updInsert (u : Upd) : List Upd → List Upd
  | [] => [u]
  | v :: t => if updBefore v u then v :: updInsert u t else u :: v :: t
def updSort (l : List Upd) : List Upd := l.foldr updInsert []

/-- R368. The loaders of a call read after the scratchpad accesses of its context's earlier bundles: of the words of one
that is performed now, they have read nothing that stood there before. -/
def seeOwn (s : State) (mine : Call → Bool) (words : List Nat) : State :=
  let cores := (s.cr.calls.filter fun e => mine e.2).map (·.1)
  if cores.isEmpty then s
  else
    let seen (f : Former) : Former := if words.contains f.word then { f with cores := f.cores.filter fun k => !cores.contains k } else f
    { s with ms := { s.ms with former := (s.ms.former.map seen).filter fun f => !f.cores.isEmpty } }

/-- Applies an update. -/
def applyUpd (s : State) (lid : Nat) (u : Upd) : State :=
  let t := (atomPerform s lid u.op u.place u.data 0).2
  match u.place with
  | .spad a => seeOwn t (fun k => bLid (s.board k.ctx) == lid && s.rank k.ctx == u.rank && decide (u.num < k.num)) [a / 4]
  | .phys _ => t
  | .line _ _ => t

/-- Applies updates in order. -/
def applyUpds (s : State) (lid : Nat) (l : List Upd) : State := l.foldl (fun t u => applyUpd t lid u) s

/-- Fields of a DRAIN record: its cause and the number of held updates. -/
def recCause (r : LogRec) : Nat := fld (r.entries.headD 0).toNat 63 56
def recHeld (r : LogRec) : Nat := fld (r.entries.headD 0).toNat 15 0

/-- The record that a buffer is to replay. -/
def bufRecord (s : State) (h : HoldBuf) : Option LogRec := nextRecord s h.lid h.die 0x04 h.site

/-- A buffer in which no round is open. -/
def HoldBuf.idle (h : HoldBuf) : Bool := h.held.isEmpty && h.entries.isEmpty && !h.fallback

/-- Keeps a buffer while a round is open in it, or returning accesses are owed to it. -/
def State.setBuf (s : State) (key : Nat) (h : HoldBuf) : State :=
  { s with ms := { s.ms with holds := if h.idle && h.owed.isEmpty then tdel key s.ms.holds else tput key h s.ms.holds } }

/-- R138. What is owed to a buffer once its round has ended: in replay, the returning accesses that the round's record lists
and that have not been performed. Nothing is at the end of a launch. -/
def owedAfter (s : State) (h : HoldBuf) (cause : Nat) : List W64 :=
  if cause = 2 then []
  else if h.idle then h.owed
  else match bufRecord s h with
    | some r => h.owed ++ r.entries.drop (h.entries.length + 1 + (if h.fallback then 0 else recHeld r))
    | none => h.owed

/-- R136, R138, R421. Ends a round: the held updates apply, and its record is appended. -/
def drain (s : State) (key cause : Nat) : State :=
  match tget s.ms.holds key with
  | none => s
  | some h =>
    let sorted := updSort h.held
    let after : HoldBuf := { h with held := [], fallback := false, entries := [], applied := 0, owed := owedAfter s h cause }
    let s1 := applyUpds (s.setBuf key after) h.lid sorted
    if h.held.isEmpty ∧ h.entries.isEmpty then s1
    else
      let n := if h.fallback then h.applied else sorted.length
      let ents := if h.fallback then h.entries else sorted.map updEntry ++ h.entries
      logEvent s1 h.lid h.die 0x04 h.site
        (BitVec.ofNat 64 ((if h.fallback then 3 else cause) * 2 ^ 56 + n) :: ents)

/-- R138. Whether an access to a held word may end the round: in replay only when the record says so, once
every update that it lists has arrived. -/
def accessDrains (s : State) (h : HoldBuf) : Option Bool :=
  match bufRecord s h with
  | none => some true
  | some r =>
    if recCause r = 0 ∧ h.held.length = recHeld r then some true
    else if recCause r = 1 ∨ recCause r = 2 then some false
    else none

/-- R136. An access reaches words: every round that holds an update of one of them ends. None while, in replay,
the access must wait; a drain that is not logged is a divergence (R226). -/
def touch (s : State) (hit : Place → Bool) : Option State :=
  s.ms.holds.foldl (fun acc e => match acc with
    | none => none
    | some t =>
      if e.2.held.any fun u => hit u.place then
        match accessDrains s e.2 with
        | some true => some (drain t e.1 0)
        | some false => some (diverge (drain t e.1 0) e.2.lid)
        | none => none
      else some t) (some s)

/-- R136, R138. A window is saved, or cleared: a round that holds updates of it ends, as at any other access. In replay the
round goes on, and its updates reach the window no more (assumption 129). -/
def leaveWindow (s : State) (hit : Place → Bool) : State :=
  s.ms.holds.foldl (fun t e =>
    if e.2.held.any fun u => hit u.place then
      if (bufRecord t e.2).isNone then drain t e.1 0
      else
        let gone (u : Upd) : Upd := if hit u.place then { u with place := .line 0 0 } else u
        { t with ms := { t.ms with holds := tput e.1 { e.2 with held := e.2.held.map gone } t.ms.holds } }
    else t) s

/-- The words of an access. -/
def hitPhys (pa n : Nat) (p : Place) : Bool :=
  match p with
  | .phys a => decide (a < pa + n ∧ pa < a + 4)
  | .spad _ => false
  | .line _ _ => false
def hitSpad (o n : Nat) (p : Place) : Bool :=
  match p with
  | .phys _ => false
  | .spad a => decide (a < o + n ∧ o < a + 4)
  | .line _ _ => false

/-- The buffer of a bank for a launch, empty when no round is open. -/
def bufFor (s : State) (w : Who) (p : Place) : Nat × HoldBuf :=
  let key := bankOf p * 2 ^ 16 + w.lid
  let site := siteOf s w.c p
  (key, (tget s.ms.holds key).getD
    { lid := w.lid, site := site.1, die := site.2, held := [], fallback := false, entries := [], applied := 0, owed := [] })

/-- R137, R421. Fallback begins: the held updates apply, and their entries open the record. -/
def startFallback (s : State) (key : Nat) (h : HoldBuf) : State :=
  let sorted := updSort h.held
  (applyUpds s h.lid sorted).setBuf key
    { h with held := [], fallback := true, applied := sorted.length, entries := sorted.map updEntry ++ h.entries }

/-- R421. In replay, the round ends when its last logged entry has been performed. -/
def closeFallback (s : State) (key : Nat) : State :=
  match tget s.ms.holds key with
  | none => s
  | some h =>
    match bufRecord s h with
    | none => s
    | some r => if h.fallback ∧ r.entries.length ≤ h.entries.length + 1 then drain s key 3 else s

/-- R138. A returning atomic or a swap of a deterministic launch enters its round; none while it must wait in
replay, for those that rounds before still list first. -/
def logReturn (s : State) (w : Who) (p : Place) : Option State :=
  if ¬ lidDet s w.lid then some s
  else
    let (key, h) := bufFor s w p
    let e := drainEntry w.rank w.num w.slot true
    let go := closeFallback (s.setBuf key { h with entries := h.entries ++ [e] }) key
    match h.owed, bufRecord s h with
    | o :: rest, _ => if o = e then some (s.setBuf key { h with owed := rest }) else none
    | [], none => some go
    | [], some r =>
      let at_ := if h.fallback then 1 + h.entries.length else 1 + recHeld r + h.entries.length
      if (recCause r = 3 ∧ ¬ h.fallback) ∨ r.entries[at_]? ≠ some e then none else some go

/-- R449. Whether another launch's round is open in the bank, by key. -/
def otherRound (s : State) (w : Who) (p : Place) : Option (Nat × HoldBuf) :=
  s.ms.holds.find? fun e => e.1 / 2 ^ 16 == bankOf p && e.2.lid != w.lid && (e.2.fallback || !e.2.held.isEmpty)

/-- R136, R137. A non-returning reduction of a deterministic launch reaches its bank, where no other launch's
round is open. -/
def holdOwn (s : State) (w : Who) (op : AtomOp) (p : Place) (v : BitVec 32) : Option State :=
  let (key, h) := bufFor s w p
  let u : Upd := { rank := w.rank, num := w.num, slot := w.slot, op := op, place := p, data := v }
  let arrive (t : State) (h : HoldBuf) : State :=
    (applyUpds t w.lid [u]).setBuf key { h with entries := h.entries ++ [updEntry u] }
  match bufRecord s h with
  | none =>
    if h.fallback then some (arrive s h)
    else if 16 ≤ h.held.length then
      let t := startFallback s key h
      some (arrive t ((tget t.ms.holds key).getD h))
    else some (s.setBuf key { h with held := h.held ++ [u] })
  | some r =>
    if h.fallback then
      if r.entries[1 + h.entries.length]? = some (updEntry u) then some (closeFallback (arrive s h) key) else none
    else if ((r.entries.drop 1).take (recHeld r)).contains (updEntry u) then
      let g := { h with held := h.held ++ [u] }
      let t := s.setBuf key g
      if g.held.length = recHeld r then
        if recCause r = 3 then some (closeFallback (startFallback t key g) key)
        else if recCause r = 4 then some (drain t key 4)
        else some t
      else some t
    else none

/-- R449. The same with the other launch's round ended first. -/
def holdUpdate (s : State) (w : Who) (op : AtomOp) (p : Place) (v : BitVec 32) : Option State :=
  match otherRound s w p with
  | none => holdOwn s w op p v
  | some (key, h) =>
    match bufRecord s h with
    | some _ => none
    | none => holdOwn (drain s key 4) w op p v

/-- R136, R138. Ends every round of a launch, in the order of the banks; in replay a round that its record does not end
so is a divergence (R226). -/
def drainLaunch (s : State) (lid cause : Nat) : State :=
  s.ms.holds.foldl (fun t e =>
    if e.2.lid = lid then
      let bad := match bufRecord t e.2 with
        | some r => recCause r != cause && !(e.2.held.isEmpty && e.2.entries.isEmpty)
        | none => false
      let t := drain t e.1 cause
      if bad then diverge t lid else t
    else t) s

/-- Whether an operation is a reduction that returns no value. -/
def isReduction (op : AtomOp) : Bool :=
  match op with
  | .swap => false
  | .cas => false
  | .fadd => false
  | .faddf => false
  | .radd => true
  | .raddf => true
  | .rmax => true
  | .rmin => true
  | .rmaxf => true
  | .rand => true
  | .ror => true
  | .rxor => true

/-- R135, R136. An atomic reaches its word: the old word for a returning one (none: it failed), and the state;
none while it must wait in replay. -/
def atomArrive (s : State) (w : Who) (op : AtomOp) (p : Place) (a b : BitVec 32) :
    Option (Option (BitVec 32) × State) :=
  if isReduction op then
    if lidDet s w.lid then (holdUpdate s w op p a).map fun t => (none, t)
    else (touch s (fun q => q == p)).map fun t => (none, (atomPerform t w.lid op p a b).2)
  else
    match touch s (fun q => q == p) with
    | none => none
    | some t => (logReturn t w p).map fun u => atomPerform u w.lid op p a b

/-! ### Access records -/

/-- R320. The result of a load from its bytes. -/
def postLoad (p : Post) (bs : List Byte) : Vec :=
  let v := vecOf bs
  if p.sext then ofW ((v.setWidth 64 <<< (64 - 8 * p.size)).sshiftRight (64 - 8 * p.size))
  else if p.bcast then
    (List.range 64).foldl (fun acc k => acc ||| (lowBytes 4 v <<< (32 * k))) 0
  else v

/-- R140. Bytes that an access counts. -/
def accBytes (k : AccKind) (size : Nat) (place : Place) : Nat :=
  match place with
  | .spad _ => 0
  | _ => match k with
    | .load _ => 0
    | .chain _ => 0
    | .store => size
    | .lanes m => 4 * popBelow m.toNat 64
    | .atom _ _ => 4
    | .patch => size
    | .tag _ => 0

/-- The event that performs an access. -/
def accRow (det : Bool) (k : AccKind) (place : Place) : Instr :=
  match k, place with
  | .chain _, _ => .chainRead
  | .patch, _ => .patchWriteArrival
  | .lanes _, .line _ _ => .patchWriteArrival
  | _, .spad _ => .clusterAccessAccept
  | .tag _, _ => .clusterAccessAccept
  | .load _, _ => .variableArrival
  | .store, _ => .globalWritePerformed
  | .lanes _, _ => .globalWritePerformed
  | .atom op _, _ =>
    if isReduction op then (if det then .reductionHold else .atomicQueuePerform)
    else match op with
      | .swap => if det then .globalWritePerformed else .atomicQueuePerform
      | _ => .atomicQueuePerform

/-- An access noted, not yet on its way. -/
def addAcc (s : State) (a : Acc) : State :=
  let (id, s) := s.fresh
  { s with ms := { s.ms with accs := s.ms.accs ++ [({ a with id := id } : Acc)] } }

/-- The latest access of a slot of a bundle goes on its way; `wait` is the least time beside the open latency. -/
def startAcc (s : State) (c num slot wait : Nat) : State :=
  match s.ms.accs.reverse.find? fun a => a.ctx == c && a.num == num && a.slot == slot with
  | none => s
  | some a =>
    let (n, s) := s.delay
    let s := s.modCtx c fun x => { x with pend := pendAdd x.pend (accBytes a.kind a.size a.place) }
    s.after (s.cycle + wait + n) false (accRow (lidDet s a.lid) a.kind a.place) { a := a.id }

/-- Sends an access on its way. -/
def sendAcc (s : State) (a : Acc) (wait : Nat) : State := startAcc (addAcc s a) a.ctx a.num a.slot wait

/-- R139. Whether accesses of bundles numbered below a limit are still to be performed. -/
def outstanding (s : State) (c limit : Nat) : Bool :=
  s.ms.accs.any (fun a => a.ctx == c && decide (a.num < limit)) ||
    s.ms.tagq.any (fun q => q.ctx == c && decide (q.num < limit)) ||
    s.cr.calls.any (fun k => k.2.ctx == c && decide (k.2.num < limit))

/-- R139, R428. Whether accesses, or Sett operations on items, of bundles numbered below a limit are still to be performed. -/
def fenceOut (s : State) (c limit : Nat) : Bool :=
  outstanding s c limit || s.tm.settOps.any fun o => o.ctx == c && decide (o.kind < 3) && decide (o.num < limit)

/-- R139. Whether a fence holds the context's memory accesses. -/
def fenceHolds (s : State) (c : Nat) : Bool := (s.ctx c).fences.any fun f => fenceOut s c f.limit

/-- Whether two accesses meet: the same line, or bytes of one word. -/
def placesMeet (p : Place) (n : Nat) (q : Place) (m : Nat) : Bool :=
  match p, q with
  | .phys a, .phys b => decide (a / 4 * 4 < b + m ∧ b / 4 * 4 < a + n)
  | .spad a, .spad b => a / 2 ^ 21 == b / 2 ^ 21
  | .line k _, .line l _ => k == l
  | _, _ => false

/-- Whether an access only reads. -/
def AccKind.reads (k : AccKind) : Bool :=
  match k with
  | .load _ => true
  | .chain _ => true
  | .store => false
  | .lanes _ => false
  | .atom _ _ => false
  | .patch => false
  | .tag _ => false

/-- R126, R127. Whether an access comes before another of its context: an earlier bundle, or in one bundle a load before a
write, and writes in slot order. -/
def accBefore (b a : Acc) : Bool :=
  decide (b.num < a.num) || (b.num == a.num && !a.kind.reads && (b.kind.reads || decide (b.id < a.id)))

/-- R126. Whether two accesses of one bundle are to one location: bytes of one word. -/
def wordsMeet (p : Place) (n : Nat) (q : Place) (m : Nat) : Bool :=
  match p, q with
  | .phys a, .phys b => decide (a / 4 * 4 < b + m ∧ b / 4 * 4 < a + n)
  | .spad a, .spad b => decide (a / 4 * 4 < b + m ∧ b / 4 * 4 < a + n)
  | .line k a, .line l b => k == l && decide (a / 4 * 4 < b + m ∧ b / 4 * 4 < a + n)
  | _, _ => false

/-- R126, R128, R129, R142. Whether an access of the context that comes before this one is on its way: of an earlier bundle
to the same word, core or line; of the same bundle to the same location. -/
def accBehind (s : State) (a : Acc) : Bool :=
  s.ms.accs.any fun b => b.ctx == a.ctx && b.id != a.id && accBefore b a &&
    (if b.num = a.num then wordsMeet else placesMeet) b.place b.size a.place a.size

/-- The access of a number. -/
def accOf (s : State) (id : Nat) : Option Acc := s.ms.accs.find? fun a => a.id == id

/-- The pieces of a store: addresses and bytes of one word each. -/
def storePieces (a : Acc) (base : Nat) : List (Nat × List Byte) :=
  let bs := bytesOf a.data 256
  match a.kind with
  | .lanes m => (List.range 64).filterMap fun k =>
      if m.getLsbD k then some (base + 4 * k, (bs.drop (4 * k)).take 4) else none
  | _ => chunkWords 256 base (bs.take a.size)

/-- Removes an access that has been performed, and its bytes from the counters (R140); a call of its context reads its words
after it (R368). -/
def accDone (s : State) (a : Acc) : State :=
  let s := match a.place with
    | .spad o => seeOwn s (fun k => k.ctx == a.ctx && decide (a.num < k.num)) ((storePieces a o).map fun (p : Nat × List Byte) => p.1 / 4)
    | .phys _ => s
    | .line _ _ => s
  let s := { s with ms := { s.ms with accs := s.ms.accs.filter fun b => b.id != a.id } }
  s.modCtx a.ctx fun x => { x with pend := pendSub x.pend (accBytes a.kind a.size a.place) }

/-- An access that waits comes again in the next cycle. -/
def accRetry (s : State) (a : Acc) (row : Instr) : State := s.after (s.cycle + 1) false row { a := a.id }

def Acc.who (a : Acc) : Who := { c := a.ctx, lid := a.lid, rank := a.rank, num := a.num, slot := a.slot }

/-- R262. Sends a value to its register; none is a failed value (R217). -/
def sendValue (s : State) (c : Nat) (dest : Option Dest) (v : Option Vec) (addr : W64) (loc : Nat) : State :=
  let (id, s) := s.fresh
  let (n, s) := s.delay
  let a : Arrival := { id := id, ctx := c, dest := dest, val := v, addr := addr, loc := loc }
  let s := { s with ms := { s.ms with arrivals := s.ms.arrivals ++ [a] } }
  s.after (s.cycle + n) false .variableArrival { a := id }

/-- R251, R262. A destination marked empty at issue. -/
def markEmpty (s : State) (c : Nat) (dest : Option Dest) : State :=
  match dest with
  | none => s
  | some d => s.modCtx c fun x => noteWrite { x with units := unitsSet d .empty x.units } d s.cycle

/-- R262, R250, R217. A value lands: the bytes that a move wrote, or a trigger marked, in this cycle keep what
they have. -/
def landArrival (x : Ctx) (a : Arrival) (cycle : Nat) : Ctx :=
  match a.dest with
  | none => x
  | some d =>
    let later := if x.wroteAt = cycle then x.wrote else []
    let y := match a.val with
      | some v => regWrite x d v
      | none => { x with units := unitsSet d (.failed a.addr a.loc) x.units }
    later.foldl (fun (z : Ctx) (e : Dest) =>
      if e.first < d.first + d.size ∧ d.first < e.first + e.size then
        { z with
          regs := regPut z.regs e (regRead x e)
          units := (x.units.filter fun u => decide (e.first / 2 ≤ u.1 ∧ u.1 < (e.first + e.size + 1) / 2)).foldl
                   (fun (t : Tab UnitSt) u => tput u.1 u.2 t) (unitsFull e z.units) }
      else z) y

/-- R325. One word of a store to an ATOMIC page is swapped. -/
def swapPiece (s : State) (w : Who) (p : Nat × List Byte) : Option State :=
  match touch s (hitPhys p.1 p.2.length) with
  | none => none
  | some t => (logReturn t w (.phys (p.1 / 4 * 4))).map fun u => physWrite u w.lid p.1 p.2

/-- R131, R137. A store to a scratchpad at its arbiter; none while it must wait in replay. -/
def spadStore (s : State) (ps : List (Nat × List Byte)) : Option State :=
  ps.foldl (fun acc p => match acc with
    | none => none
    | some t => (touch t (hitSpad p.1 p.2.length)).map fun u => spadPut u p.1 p.2) (some s)

/-! ### What the events of accesses do -/

/-- R325. A word of a store has been swapped; the next one follows after an open time, in which others may act. -/
def nextWord325 (s : State) (a : Acc) : State :=
  let (n, s) := s.delay
  { s with ms := { s.ms with accs := s.ms.accs.map fun (b : Acc) =>
    if b.id = a.id then { b with cmp := a.cmp + 1 } else b } }.after (s.cycle + n - 1) false .globalWritePerformed { a := a.id }

/-- R130, R325. The next word of a store to an ATOMIC page, or a swap in deterministic mode, is performed. -/
def performWrite (s : State) (a : Acc) : State :=
  if accBehind s a then accRetry s a .globalWritePerformed
  else
    match a.kind, a.place with
    | .atom op ret, p =>
      match atomArrive s a.who op p (a.data.setWidth 32) a.cmp with
      | none => accRetry s a .globalWritePerformed
      | some (old, t) =>
        let t := accDone t a
        if ret then sendValue t a.ctx a.dest (old.map fun w => w.setWidth 2048) a.va (physLoc a.pa) else t
    | _, .phys pa =>
      match (storePieces a pa).drop a.cmp.toNat with
      | [] => accDone s a
      | p :: rest => match swapPiece s a.who p with
        | none => accRetry s a .globalWritePerformed
        | some t => if rest.isEmpty then accDone t a else nextWord325 t a
    | _, _ => accDone s a

/-- R135. An atomic is performed in its port's write queue. -/
def performAtomic (s : State) (a : Acc) (row : Instr) : State :=
  if accBehind s a then accRetry s a row
  else
    match a.kind with
    | .atom op ret =>
      match atomArrive s a.who op a.place (a.data.setWidth 32) a.cmp with
      | none => accRetry s a row
      | some (old, t) =>
        let t := accDone t a
        if ret then sendValue t a.ctx a.dest (old.map fun w => w.setWidth 2048) a.va (physLoc a.pa) else t
    | _ => accDone s a

/-- R125. A global load is read at its memory port. -/
def performLoad (s : State) (a : Acc) : State :=
  if accBehind s a then accRetry s a .variableArrival
  else
    match a.kind, touch s (hitPhys a.pa a.size) with
    | .load p, some t =>
      let t := accDone t a
      sendValue t a.ctx a.dest ((physRead t a.pa a.size).map (postLoad p)) a.va (physLoc a.pa)
    | .load _, none => accRetry s a .variableArrival
    | _, _ => accDone s a

/-- R104. The chain that a context's reads see, the writes of its earlier bundles on their way included. -/
def chainAhead (s : State) (key : Nat) (l : Line) (c : Nat) : List Patch :=
  match l.opens.find? fun o => o.ctx == c with
  | some o => l.chain ++ [{ name := o.name, kind := o.kind, pay := granPutAll (pendingGrans s key l c (s.ctx c).bundles) o.pay, digest := 0 }]
  | none => l.chain

/-- R95. The home Badger of a line, 0 to 63. -/
def homeOf (s : State) (key : Nat) : Nat := ((s.line key).map (·.home)).getD 0

/-- R217. Where bytes of a line region fail, by their table address: a failed port, or line data; none when they are good. -/
def linedFail (s : State) (comp ta size : Nat) : Option Nat :=
  match walkTables s comp ta with
  | .desc low _ _ =>
    if portFailed s (leafPa low ta) then some 1 else if (physRead s (leafPa low ta) size).isNone then some 5 else none
  | .fault _ _ => none

/-- R217, R324. Where the data of a read of a LINED page fail: its bytes, and on the element array of a block format their
scales. -/
def chainFails (s : State) (a : Acc) (key off : Nat) : Option Nat :=
  if portFailed s a.pa then some 1
  else if (physRead s a.pa a.size).isNone then some 5
  else match s.line key, rangeFor (((tget s.tm.launches a.lid).map (·.ranges)).getD []) a.va.toNat with
    | some l, some r =>
      if l.fmt ≤ 3 ∧ off < 2 ^ l.xlog then
        linedFail s (key / 2 ^ 24) (tableAddr r a.va.toNat - off + 2 ^ l.xlog + off / granElem l.fmt) (a.size / granElem l.fmt)
      else none
    | _, _ => none

/-- R106, R107, R206. A read of a LINED page is ordered, walks the chain, and answers. A read that finds its line
gone was ordered at its line-state check. The walk pauses where the class has used its units; `cmp` is then 1 + the chain
positions still to be examined, the reader's own open patch among them (assumption 144). -/
def performChain (s : State) (a : Acc) : State :=
  match a.kind, a.place with
  | .chain p, .line key off =>
    if a.cmp = 0 ∧ accBehind s a then accRetry s a .chainRead
    else
      let comp := key / 2 ^ 24
      let die := dieOf a.ctx
      let value : Vec :=
        if a.cmp ≠ 0 then a.data
        else match s.line key with
          | some l => if l.st = .live then postLoad p (lineLoad l (chainFor l a.ctx) off a.size) else a.data
          | none => a.data
      let home := homeOf s key
      let left : Nat :=
        if a.cmp ≠ 0 then a.cmp.toNat - 1
        else match s.line key with
          | some l => (chainFor l a.ctx).length
          | none => 0
      let units := avail s die comp 2 home
      if 0 < units ∧ left ≤ units then
        let t := accDone (takeUnits s die comp 2 home left) a
        let bad := chainFails s a key off
        sendValue t a.ctx a.dest (if bad.isSome then none else some value) a.va (bad.getD 5)
      else
        let t := takeUnits s die comp 2 home units
        let t := { t with ms := { t.ms with accs := t.ms.accs.map fun (b : Acc) =>
          if b.id = a.id then { b with cmp := BitVec.ofNat 32 (1 + (left - units)), data := value } else b } }
        accRetry ((t.noteHeld a.ctx).want die comp (2 ^ 20 + a.id) [(2, home, left - units)]) a .chainRead
  | _, _ => accDone s a

/-- R103. A write into an open patch arrives at the home Badger. -/
def performPatch (s : State) (a : Acc) : State :=
  if accBehind s a then accRetry s a .patchWriteArrival
  else
    match a.place with
    | .line key off =>
      match s.line key with
      | some l =>
        let bs := bytesOf a.data 256
        let gs := match a.kind with
          | .lanes m => laneGrans l.fmt l.xlog off m bs
          | _ => storeGrans l.fmt l.xlog off a.size bs
        let l := { l with opens := l.opens.map fun o => if o.ctx = a.ctx then { o with pay := granPutAll gs o.pay } else o }
        accDone (s.setLine key l) a
      | none => accDone s a
    | _ => accDone s a

/-! ### Tagged words (R134, R327) -/

/-- Whether the tag of a scratchpad word is full. -/
def tagFull (s : State) (a : Nat) : Bool := s.ms.full.contains (a / 4)
def setTag (s : State) (a : Nat) (on : Bool) : State :=
  { s with ms := { s.ms with full := if on then sins (a / 4) s.ms.full else sdel (a / 4) s.ms.full } }

/-- R134. SITE of a TAGSERVE record. -/
def tagSite (s : State) (c a : Nat) : W64 :=
  let b := s.board c
  let core := a / 2 ^ 21 % 16
  BitVec.ofNat 64 (s.seenDie c % 16 * 2 ^ 60 + s.seenCluster c % 16 * 2 ^ 56 + bLcore b core * 2 ^ 52 +
    (a % 2 ^ 21 - bWbase b core * 4096) % 2 ^ 21)

/-- The address of a tagged request's word. -/
def TagReq.addr (q : TagReq) : Nat := q.word * 4

/-- Removes requests. -/
def dropReqs (s : State) (gone : List TagReq) : State :=
  { s with ms := { s.ms with tagq := s.ms.tagq.filter fun q => !gone.contains q } }

/-- R327. A tagged load is served: the word, or a failed value (R217). What must wait in replay has waited before
(R138, see `tagWaits`). -/
def serveLoad (s0 : State) (q : TagReq) : State :=
  let s := (touch s0 (hitSpad q.addr 4)).getD s0
  let v := (spadRead s q.addr 4).map vecOf
  let s := if q.op = 0 then setTag s q.addr false else s
  sendValue s q.ctx q.dest v q.va 2

/-- R327. A tagged store is served. -/
def serveStore (s0 : State) (q : TagReq) : State :=
  let s := (touch s0 (hitSpad q.addr 4)).getD s0
  setTag (spadWrite s q.addr (bytesOf (q.data.setWidth 2048) 4)) q.addr true

/-- R134. The requests that one service takes from those waiting: up to the first `ldf`, or the first `stf`. -/
def serviceOf : List TagReq → List TagReq
  | [] => []
  | q :: t => if q.op = 1 then q :: serviceOf t else [q]

/-- R134, R226. The waiting requests that a record lists, in its order, up to one that does not wait yet. -/
def listedNow (s : State) (waiting : List TagReq) : List W64 → List TagReq
  | [] => []
  | e :: t => match waiting.find? fun w => s.rank w.ctx == e.toNat % 2 ^ 32 with
    | some w => w :: listedNow s waiting t
    | none => []

/-- What one service does: the requests it serves, and whether it is a record's or makes a new one. -/
inductive Service where
  | plain (l : List TagReq)
  | logged (l : List TagReq)
  | replayed (l : List TagReq)

/-- R134, R226. The next service of a word: in arrival order; in replay the requests that its record lists, in that order,
each held until those before it are served, and those of a later record until its turn. A request that no record lists is
served when none that the next record lists waits (assumption 37). -/
def serviceOrder (s : State) (a : Nat) (waiting : List TagReq) : Option Service :=
  match waiting with
  | [] => none
  | q :: rest =>
    let lid := bLid (s.board q.ctx)
    match nextRecord s lid (s.seenDie q.ctx) 0x05 (tagSite s q.ctx a) with
    | none => some (if rest.isEmpty then .plain [q] else .logged (serviceOf waiting))
    | some r =>
      match listedNow s waiting r.entries with
      | w :: t => some (.replayed (serviceOf (w :: t)))
      | [] =>
        let is (w : TagReq) (e : W64) : Bool := s.rank w.ctx == e.toNat % 2 ^ 32
        if waiting.any fun w => r.entries.any (is w) then none
        else match waiting.filter fun w => !recordLists s lid (s.seenDie q.ctx) 0x05 (tagSite s q.ctx a) (is w) with
          | [] => none
          | free => some (.plain (serviceOf free))

def Service.served : Service → List TagReq
  | .plain l => l
  | .logged l => l
  | .replayed l => l

/-- R226. The first n entries of the record of a word have been served; it has been replayed when none is left. -/
def replayTag (s : State) (lid die : Nat) (site : W64) (n : Nat) : State :=
  s.modLog lid die fun g => { g with replay := headServed g.replay }
where
  headServed : List LogRec → List LogRec
    | [] => []
    | r :: t =>
      if r.kind = 0x05 ∧ r.site = site then
        if r.entries.length ≤ n then t else { r with entries := r.entries.drop n } :: t
      else r :: headServed t

/-- R134. Serves the waiters of a word whose tag has changed. -/
def serveTag (a : Nat) : Nat → State → State
  | 0, s => s
  | fuel + 1, s =>
    let full := tagFull s a
    let waiting := s.ms.tagq.filter fun q => q.word == a / 4 && (if full then q.op != 2 else q.op == 2)
    match serviceOrder s a waiting with
    | none => s
    | some v =>
      let l := v.served
      match l with
      | [] => s
      | q :: _ =>
        let lid := bLid (s.board q.ctx)
        let die := s.seenDie q.ctx
        let site := tagSite s q.ctx a
        let s1 := match v with
          | .plain _ => s
          | .logged _ => if lidDet s lid then logAppend s lid die 0x05 site (l.map fun w => BitVec.ofNat 64 (s.rank w.ctx)) else s
          | .replayed _ => replayTag s lid die site l.length
        let s2 := dropReqs s1 l
        if full then
          let s3 := l.foldl serveLoad s2
          serveTag a fuel s3
        else serveTag a fuel (serveStore s2 q)

/-- R134. After an access of a tagged word, or an engine write that fills it (R391). -/
def serveWord (s : State) (a : Nat) : State := serveTag a (2 * s.ms.tagq.length + 2) s

/-- R327. A tagged request arrives at the arbiter. -/
def tagArrive (s : State) (q : TagReq) : State :=
  if q.op = 3 then serveWord (serveStore s q) q.addr
  else serveWord { s with ms := { s.ms with tagq := s.ms.tagq ++ [q] } } q.addr

/-- R138. Whether a tagged access of a word must wait in replay. -/
def tagWaits (s : State) (a : Nat) : Bool := (touch s (hitSpad a 4)).isNone

/-- R134, R219, R223, R328, R403. A posted request that has to wait: a pre-empted context queues it anew at resume; the
request has ended of a context that no longer runs, or to which TEAMDOWN has been delivered since; and TEAMDOWN is raised again
where its handler sent it. -/
def tagStale (s : State) (q : TagReq) : State :=
  let x := s.ctx q.ctx
  if ¬ s.ms.tagq.contains q then s
  else
    let t := dropReqs s [q]
    match x.run, x.down with
    | .running, some d =>
      if ¬ d.delivered then s
      else if q.num < d.num then t
      else t.modCtx q.ctx fun y => { y with pendTrap := some { code := 0x15, info0 := d.info0, info1 := d.info1 } }
    | .running, none => s
    | .preempted, _ => t.modCtx q.ctx fun y => { y with pulled := y.pulled ++ [q] }
    | _, _ => t

/-- R323. A posted access of the cluster path is accepted by its arbiter. -/
def performCluster (s : State) (a : Acc) : State :=
  if accBehind s a then accRetry s a .clusterAccessAccept
  else
    match a.place with
    | .spad o =>
      match a.kind with
      | .atom op ret =>
        match atomArrive s a.who op a.place (a.data.setWidth 32) a.cmp with
        | none => accRetry s a .clusterAccessAccept
        | some (old, t) =>
          let t := accDone t a
          if ret then sendValue t a.ctx a.dest (old.map fun w => w.setWidth 2048) a.va 2 else t
      | .tag op =>
        if tagWaits s o then accRetry s a .clusterAccessAccept
        else
          let q : TagReq :=
            { ctx := a.ctx, num := a.num, word := o / 4, op := op, data := a.data.setWidth 32, dest := none, va := a.va }
          tagStale (tagArrive (accDone s a) q) q
      | _ =>
        match spadStore s (storePieces a o) with
        | none => accRetry s a .clusterAccessAccept
        | some t => accDone t a
    | _ => accDone s a

end Sys2Proof.Machine
end

