-- ==== Sys2Proof/Machine/Cmd.lean ====
section
/-! DEFINITION. Data commands as their words give them (R380 to R394, R400): the fields, the nest of a Freight
command, the checks, the byte count, and the scratchpad banks that a command holds (R132). -/

namespace Sys2Proof.Machine

/-- A signed field. -/
def sfld (w : W64) (hi lo : Nat) : Int := sextInt (fld w.toNat hi lo) (hi + 1 - lo)

/-- R380. Fields of the control word. -/
def cwTag (c : W64) : Nat := fld c.toNat 31 24
def cwQueue (c : W64) : Nat := fld c.toNat 23 20
def cwQen (c : W64) : Bool := c.getLsbD 19
def cwFill (c : W64) : Bool := c.getLsbD 16
def cwChain (c : W64) : Bool := c.getLsbD 15
def cwScope (c : W64) : Nat := fld c.toNat 14 12
def cwRel (c : W64) : Bool := c.getLsbD 11
def cwAcq (c : W64) : Bool := c.getLsbD 10

/-- R222. Whether a command belongs to a team that is away. -/
def Cmd.away (c : Cmd) : Bool := c.parked || c.withdrawn

/-- Whether a command is Freight's. -/
def CmdOp.freight (o : CmdOp) : Bool :=
  match o with
  | .copy => true
  | .tcopy => true
  | .fill => true
  | .send => false
  | .recv => false
  | .recva => false
  | .step => false

/-- Whether a Shuttle command sends, and whether it receives. -/
def CmdOp.sends (o : CmdOp) : Bool := o == .send || o == .step
def CmdOp.receives (o : CmdOp) : Bool := o == .recv || o == .recva || o == .step

/-- R385. Parameter words of the dimensions. -/
def Cmd.dim (c : Cmd) (d : Nat) : W64 :=
  match d with
  | 1 => c.p3 | 2 => c.p4 | 3 => c.p5 | 4 => c.p6 | _ => c.p7

/-- R385. Fields of the shape word. -/
def Cmd.seed (c : Cmd) : Nat := fld c.p2.toNat 63 32
def Cmd.ext0 (c : Cmd) : Nat := fld c.p2.toNat 31 16
def Cmd.ndim (c : Cmd) : Nat := fld c.p2.toNat 15 13
def Cmd.rnd (c : Cmd) : Nat := fld c.p2.toNat 10 8
def Cmd.dty (c : Cmd) : Nat := fld c.p2.toNat 7 4
def Cmd.sty (c : Cmd) : Nat := if c.op = .fill then c.dty else fld c.p2.toNat 3 0

/-- R389. Whether the command moves blocks. -/
def Cmd.block (c : Cmd) : Bool := c.op == .copy && decide (c.sty ≤ 3)

/-- R386, R389. Bytes of an element of a type; of a block, its element bytes. -/
def unitBytes (t : Nat) : Nat := granElem t

/-- R385. Extent of a dimension, in elements or blocks; 1 for an unused one. -/
def Cmd.ext (c : Cmd) (d : Nat) : Nat :=
  if d = 0 then (if c.block then c.ext0 / blockSize c.sty else c.ext0)
  else if d < c.ndim then fld (c.dim d).toNat 15 0 else 1

/-- R386. Strides of a dimension, 0 for an unused one. -/
def Cmd.sstr (c : Cmd) (d : Nat) : Int :=
  if d = 0 then unitBytes c.sty else if d < c.ndim then sfld (c.dim d) 39 16 else 0
def Cmd.dstr (c : Cmd) (d : Nat) : Int :=
  if c.op = .tcopy then
    (if d = 0 then sfld (c.dim 1) 63 40
     else if d = 1 then (unitBytes c.dty : Int) else if d < c.ndim then sfld (c.dim d) 63 40 else 0)
  else if d = 0 then unitBytes c.dty else if d < c.ndim then sfld (c.dim d) 63 40 else 0

/-- R386. Elements, or blocks, of the nest. -/
def Cmd.total (c : Cmd) : Nat := (List.range 6).foldl (fun t d => t * c.ext d) 1

/-- R386. Index of element n in dimension d. -/
def Cmd.index (c : Cmd) (n d : Nat) : Nat :=
  n / (List.range d).foldl (fun t k => t * c.ext k) 1 % c.ext d

/-- R386. Source and target address of element n, exact. -/
def Cmd.source (c : Cmd) (n : Nat) : Int :=
  (List.range 6).foldl (fun t d => t + (c.index n d : Int) * c.sstr d) (c.p0.toNat : Int)
def Cmd.target (c : Cmd) (n : Nat) : Int :=
  (List.range 6).foldl (fun t d => t + (c.index n d : Int) * c.dstr d) (c.p1.toNat : Int)

/-- R389. Bytes of a block with its scale and, for ZB4, its band. -/
def blockCount (t : Nat) : Nat := unitBytes t + 1 + (if t = 0 then 2 else 0)

/-- R392. Fields of the peer and transfer words. -/
def Cmd.peer (c : Cmd) : Nat := fld c.p2.toNat 12 0
def Cmd.chan (c : Cmd) : Nat := fld c.p2.toNat 47 32
def Cmd.csz (c : Cmd) : Nat := fld c.p3.toNat 55 53
def Cmd.chunk (c : Cmd) : Nat := 256 * 2 ^ c.csz
def Cmd.len (c : Cmd) : Nat := fld c.p3.toNat 20 0
def Cmd.chunks (c : Cmd) : Nat := (c.len + c.chunk - 1) / c.chunk
def Cmd.adds (c : Cmd) : Bool := c.op == .recva || (c.op == .step && c.p3.getLsbD 51)
def Cmd.aRnd (c : Cmd) : Nat := fld c.p3.toNat 50 48
def Cmd.aDty (c : Cmd) : Nat := fld c.p3.toNat 47 44
def Cmd.aSty (c : Cmd) : Nat := fld c.p3.toNat 43 40

/-- R394. The pairs of types that may be added. -/
def addPair (s d : Nat) : Bool :=
  (d == 0x8 && (s == 0x6 || s == 0x7 || s == 0x8)) || (d == 0xC && (s == 0x9 || s == 0xB || s == 0xC))

/-- R384. Destination bytes of the receive half. -/
def Cmd.recvBytes (c : Cmd) : Nat := if c.adds then c.len / (tyBits c.aSty / 8) * (tyBits c.aDty / 8) else c.len

/-- R384. The byte count of a command. -/
def Cmd.bytes (c : Cmd) : Nat :=
  match c.op with
  | .send => c.len
  | .recv => c.recvBytes
  | .recva => c.recvBytes
  | .step => c.len + c.recvBytes
  | _ => c.total * (if c.block then blockCount c.dty else unitBytes c.dty)

/-- R387. The types that Freight accepts. -/
def Cmd.typesOk (c : Cmd) : Bool :=
  let one (t : Nat) : Bool := decide (4 ≤ t ∧ t ≤ 0xC)
  (one c.sty && one c.dty) || (c.op == .copy && decide (c.sty ≤ 3) && c.sty == c.dty)

/-- R400. The number of the first check that a command fails; 0 when it passes. `pkg` is the package's number
and `npkg` the system's count. -/
def Cmd.badCheck (c : Cmd) (pkg npkg : Nat) : Nat :=
  let w := c.ctl.toNat
  if c.op.freight then
    if fld w 9 0 ≠ 0 ∨ fld w 18 17 ≠ 0 then 1
    else if fld c.p2.toNat 12 11 ≠ 0 then 2
    else if ¬ c.typesOk ∨ (c.sty ≠ c.dty ∧ rndReserved c.rnd) then 3
    else if c.ndim = 0 ∨ c.ndim = 7 ∨ c.ext0 = 0 ∨ (List.range 6).any (fun d => c.ext d == 0)
        ∨ (c.op = .tcopy ∧ c.ndim < 2)
        ∨ (c.block ∧ (c.ext0 % blockSize c.sty ≠ 0 ∨ 4 < c.ndim)) ∨ 2 ^ 40 < c.bytes then 4
    else 0
  else
    if fld w 9 0 ≠ 0 ∨ fld w 18 16 ≠ 0 then 1
    else if fld c.p2.toNat 63 48 ≠ 0 ∨ fld c.p2.toNat 31 13 ≠ 0 ∨ fld c.p3.toNat 63 56 ≠ 0 ∨
        c.p3.getLsbD 52 ∨ fld c.p3.toNat 39 21 ≠ 0 then 2
    else if c.adds ∧ (¬ addPair c.aSty c.aDty ∨ (c.aDty = 0x8 ∧ rndReserved c.aRnd)) then 3
    else if c.csz = 7 ∨ c.len = 0 ∨ 64 < c.chunks ∨ (c.adds ∧ c.len % (tyBits c.aSty / 8) ≠ 0) ∨ 2 ^ 40 < c.bytes then 4
    else if c.peer = pkg ∨ npkg ≤ c.peer then 5
    else 0

/-- Least and greatest offset of a nest from its base. -/
def spanOf (c : Cmd) (str : Nat → Int) : Int × Int :=
  (List.range 6).foldl (fun t d =>
    let v := ((c.ext d : Int) - 1) * str d
    if v < 0 then (t.1 + v, t.2) else (t.1, t.2 + v)) (0, 0)

/-! ### Where a command goes, whoever asks -/

/-- The translation that the tables give, whoever asks. -/
def plainLook (s : State) (comp page : Nat) : Option WalkAns := some (walkTables s comp (page * 4096))

/-- R206, R389, R391. The route of an address by the tables as they stand. -/
def siteRoute (s : State) (k : Cmd) (va : Nat) (write : Bool) : Route3 :=
  routeBy (plainLook s) s k.ctx va 1 1 (if write then .ewrite else .eread) true

/-- The line geometry of a route, if it is a LINED page. -/
def routeLine (rt : Route3) : Option (W64 × Nat) :=
  match rt with
  | .page _ low high ta => if dKind low = kLined then some (high, regionOff high ta) else none
  | .fault _ _ => none
  | .miss _ _ => none
  | .demand _ _ => none
  | .spad _ _ => none

/-- R36. The band of a block at an element offset of a region. -/
def bandIndex (cols off : Nat) : Nat :=
  let i := 2 * off
  i / cols / 64 * ((cols + 127) / 128) + i % cols / 128

/-- R389. The band of block n, with 1 + the line that is written or 0: of the LINED side's region, the destination first;
where no side is LINED, of the nest with dimension 0 as its columns and dimension 1 as its rows. -/
def blockBand (k : Cmd) (n : Nat) (dst src : Route3) : Nat × Nat :=
  match routeLine dst, routeLine src with
  | some (h, off), _ => (1 + lineKey h, bandIndex (8 * dCols8 h) off)
  | none, some (h, off) => (0, bandIndex (8 * dCols8 h) off)
  | none, none => (0, k.index n 1 / 64 * ((k.ext0 + 127) / 128) + k.index n 0 * 8 / 128)

/-- R389. The band of block n by the tables as they stand. -/
def bandOf (s : State) (k : Cmd) (n : Nat) : Nat × Nat :=
  blockBand k n (siteRoute s k (k.target n % 2 ^ 64).toNat true) (siteRoute s k (k.source n % 2 ^ 64).toNat false)

/-! ### The banks that a command holds (R132) -/

/-- R132, R389. The least band of a ZB4 copy and one beyond its greatest; a command of 128 blocks or more holds every bank by
its scales. -/
def bandSpan (s : State) (c : Cmd) : Nat × Nat :=
  let l := (List.range (min 128 c.total)).map fun n => (bandOf s c n).2
  (l.foldl min (l.headD 0), l.foldl max 0 + 1)

/-- R132. The bytes of the addresses that a command covers, first and one beyond the last. -/
def cmdSpans (s : State) (c : Cmd) : List (Int × Int) :=
  if c.op.freight then
    let side (base : W64) (str : Nat → Int) (n : Nat) : List (Int × Int) :=
      let g := spanOf c str
      let b : Int := base.toNat
      let arr (off : Nat) (len : Nat) : List (Int × Int) :=
        if c.block then [(b + off, b + off + len)] else []
      (b + g.1, b + g.2 + n) :: (arr (fld c.p7.toNat 31 0) c.total ++
        (if c.sty = 0 then
          let r := bandSpan s c
          arr (fld c.p7.toNat 63 32 + 2 * r.1) (2 * (r.2 - r.1))
        else []))
    (if c.op = .fill then [] else side c.p0 c.sstr (unitBytes c.sty)) ++ side c.p1 c.dstr (unitBytes c.dty)
  else
    (if c.op.sends then [((c.p0.toNat : Int), (c.p0.toNat : Int) + c.len)] else []) ++
      (if c.op.receives then [((c.p1.toNat : Int), (c.p1.toNat : Int) + c.recvBytes)] else [])

/-- R132. Whether a span holds a bank of the scratchpad of a core: all 32 banks from 128 bytes on. -/
def spanHolds (b : BitVec 512) (own core bank : Nat) (sp : Int × Int) : Bool :=
  let va := sp.1.toNat
  let t := if pathOf va = 2 then some own else if pathOf va = 3 then targetCore b (fld va 59 56) else none
  t == some core &&
    (decide (128 ≤ sp.2 - sp.1) ||
      (wordsOf va (sp.2 - sp.1).toNat).any fun w => w % 32 == bank)

/-- R132. Whether a MALIAS access to scratchpad bytes waits for a data command of an earlier bundle, or for a write that
one has issued; not for one that has stopped with a failure status. -/
def maliasBlocked (s : State) (c core off size : Nat) : Bool :=
  let b := s.board c
  (s.en.cmds.any fun k =>
    k.ctx == c && !k.away && decide (k.num < (s.ctx c).bundles) && k.status.isNone &&
      (cmdSpans s k).any fun sp => (wordsOf off size).any fun w => spanHolds b (coreOf c % 16) core (w % 32) sp) ||
  s.en.writes.any fun e => e.ctx == c && !e.stopped && decide (e.num < (s.ctx c).bundles) && (match e.place with
    | .spad a => a / 2 ^ 21 % 16 == core &&
        (wordsOf a e.bytes.length).any fun v => (wordsOf off size).any fun w => v % 32 == w % 32
    | .phys _ => false
    | .line _ _ => false)

end Sys2Proof.Machine
end

