-- ==== Sys2Proof/Machine/Ls.lean ====
section
/-! DEFINITION. The `ls` operations (R320 to R326): loads and stores on every path, their holds, checks and
effects. -/

namespace Sys2Proof.Machine

/-! ### What memory operations share -/

/-- The bytes of an access of a bundle, by offset and number. -/
def Req.words (r : Req) : List (Nat × Nat) := ((r.peers.find? fun e => e.slot == r.slot).map (·.words)).getD []

/-- R126. Whether two accesses to one scratchpad meet in a word. -/
def partsMeet (a : Nat) (l : List (Nat × Nat)) (b : Nat) (m : List (Nat × Nat)) : Bool :=
  l.any fun u => m.any fun w => wordsMeet (.spad (a + u.1)) u.2 (.spad (b + w.1)) w.2

/-- R126. Whether a write of a later slot to the same location is performed as the bundle issues: an earlier slot's write
is then performed there as well, before it, and holds nothing (assumption 130). -/
def laterSync (r : Req) (s : State) : Bool :=
  r.peers.any fun e =>
    let a := (toW e.v).toNat
    decide (r.slot < e.slot) && e.writes && (spadTarget s r.c a).isSome && spadTarget s r.c a == spadTarget s r.c r.va &&
      partsMeet (fld r.va 20 0) r.words (fld a 20 0) e.words &&
      (pathOf a == 2 || e.at3 || ((e.unit == 4 || e.unit == 5) && splitTargets r s))

/-- R126, R323. Whether a write to a scratchpad is performed as its bundle issues: on the own path, beside a second target
core, and before such a write of a later slot. -/
def syncWrite (r : Req) (s : State) : Bool := pathOf r.va == 2 || splitTargets r s || laterSync r s

/-- R128. Whether an access of the context to a scratchpad is on its way. -/
def postedOut (s : State) (c : Nat) : Bool :=
  s.ms.accs.any fun b => b.ctx == c && (match b.place with | .spad _ => true | .phys _ => false | .line _ _ => false)

/-- R328. Whether a tagged request of the context is to be served. -/
def taggedOut (s : State) (c : Nat) : Bool :=
  s.ms.tagq.any (fun q => q.ctx == c) ||
    s.ms.accs.any fun b => b.ctx == c && (match b.kind with | .tag _ => true | _ => false)

/-- R128, R132, R138, R328. The holds of a scratchpad access; `sync` says that it is performed as its bundle
issues: on the own path it then waits for the context's accesses before it (on the cluster path, see `clusterCommit`). -/
def spadHold (r : Req) (s : State) (a core : Nat) (words : List (Nat × Nat)) (sync : Bool) : Option (Wait × State) :=
  let mine (p : Acc → Bool) : Bool := s.ms.accs.any fun b => b.ctx == r.c && p b
  let other (b : Acc) : Bool := match b.place with
    | .spad o => o / 2 ^ 21 != core
    | .phys _ => false
    | .line _ _ => false
  if taggedOut s r.c then some (.tagged, s)
  else if mine other ∨ (pathOf r.va = 2 ∧ sync ∧ postedOut s r.c) then some (.cluster, s)
  else if r.malias ∧ words.any (fun w => maliasBlocked s r.c (core % 16) (a % 2 ^ 21 + w.1) w.2) then some (.engine, s)
  else if sync ∧ (touch s fun p => words.any fun w => hitSpad (a + w.1) w.2 p).isNone then some (.other, s)
  else none

/-- R90, R139. The holds of a memory access, on any path; `words` as for `spadHold`. -/
def wordsHold (r : Req) (s : State) (rt : Route3) (words : List (Nat × Nat)) (sync : Bool) : Option (Wait × State) :=
  if fenceHolds s r.c then some (.fence, s)
  else match rt with
    | .spad a core => spadHold r s a core words sync
    | .page _ _ _ _ => none
    | .fault _ _ => none
    | .miss comp page => routeHold s r.c (.miss comp page)
    | .demand comp page => routeHold s r.c (.demand comp page)

/-- The same for an access of consecutive bytes. -/
def accessHold (r : Req) (s : State) (rt : Route3) (size : Nat) (sync : Bool) : Option (Wait × State) :=
  wordsHold r s rt [(0, size)] sync

/-- R320. The bytes of a store: those of the lanes that a mask takes, or all. -/
def storeWords (size : Nat) (mask : Option (BitVec 64)) : List (Nat × Nat) :=
  match mask with
  | some m => ((List.range 64).filter fun k => m.getLsbD k).map fun k => (4 * k, 4)
  | none => [(0, size)]

/-- R206. The 64-byte blocks of global memory that an access is charged for: its bytes, and on the element array of a block
format the scales that come with them (R324). -/
def accessBlocks (s : State) (rt : Route3) (size : Nat) (vh : Bool) : List Nat :=
  match rt with
  | .page pa low high ta =>
    let off := regionOff high ta
    blocksOf pa size ++
      (if vh ∧ dKind low = kLined ∧ dFmt high ≤ 3 ∧ off < 2 ^ dXlog high then
        let e := granElem (dFmt high)
        tableBlocks s (dComp high) (ta - off + 2 ^ dXlog high + off / e) (size / e)
      else [])
  | .fault _ _ => []
  | .miss _ _ => []
  | .demand _ _ => []
  | .spad _ _ => []

/-- R206, R320. The same of a store: with a mask, only blocks that hold a lane it takes. -/
def storeBlocks (s : State) (rt : Route3) (size : Nat) (vh : Bool) (mask : Option (BitVec 64)) : List Nat :=
  match mask, rt with
  | none, _ => accessBlocks s rt size vh
  | some _, .page pa _ _ _ => ((storeWords size mask).flatMap fun w => blocksOf (pa + w.1) w.2).eraseDups
  | some _, .fault _ _ => []
  | some _, .miss _ _ => []
  | some _, .demand _ _ => []
  | some _, .spad _ _ => []

/-- R140. The bytes that an access to a page counts. -/
def pageAdds (rt : Route3) (bytes : Nat) : Nat :=
  match rt with
  | .page _ _ _ _ => bytes
  | .spad _ _ => 0
  | .fault _ _ => 0
  | .miss _ _ => 0
  | .demand _ _ => 0

/-- R128, R323. A cluster-path access whose bundle is held until the target arbiter has accepted it, behind those that the
context sent there before. -/
def clusterCommit (r : Req) (s : State) (sync : Bool) : Commit :=
  if sync ∧ pathOf r.va = 3 then
    match (s.ctx r.c).clusterAt with
    | some t => if s.cycle < t ∨ postedOut s r.c then .held .cluster s else .go s
    | none =>
      let (n, s) := s.delay
      .held .cluster (s.modCtx r.c fun x => { x with clusterAt := some (s.cycle + 9 + n) })
  else .go s

/-- R128, R323. Whether the arbiter of an access that its bundle waits for can accept it in this cycle. -/
def arrivesNow (r : Req) (s : State) : Bool :=
  pathOf r.va != 3 || (match (s.ctx r.c).clusterAt with
    | some t => decide (t ≤ s.cycle) && !postedOut s r.c
    | none => false)

/-- R126, R323. Whether a trigger is a scratchpad access of another core than a bundle's access. -/
def elsewhere (r : Req) (s : State) (e : Peer) : Bool :=
  let t := spadTarget s r.c (toW e.v).toNat
  e.slot != r.slot && (e.unit == 4 || e.unit == 5 || e.unit == 10) && t.isSome && t != spadTarget s r.c r.va

/-- R126, R323. Whether a load is accepted ahead of the other accesses of its bundle: on the cluster path, beside a second
target core, and of the `ls` slots the first, as they are accepted in slot order; accesses of one bundle carry no order, and
a load has no effect that another party could see while its bundle waits (assumption 156). -/
def loadsAhead (r : Req) (s : State) : Bool :=
  pathOf r.va == 3 && r.peers.any (elsewhere r s) &&
    !r.peers.any fun e => (e.unit == 4 || e.unit == 5) && decide (e.slot < r.slot) && elsewhere r s e

/-- R323. What a load that has been accepted ahead of its bundle has read. -/
def aheadBytes (r : Req) (s : State) : Option (List Byte) :=
  if loadsAhead r s then
    ((s.ctx r.c).early.filter fun e => e.slot == r.slot && e.va == r.va).map (·.bytes)
  else none

/-- R323. Whether the load that goes ahead in the bundle of an access is still to be accepted. -/
def behindAhead (r : Req) (s : State) : Bool :=
  (s.ctx r.c).early.isNone && r.peers.any fun e =>
    (e.unit == 4 || e.unit == 5) && !e.writes && elsewhere r s e && loadsAhead { r with slot := e.slot, v := e.v } s

/-- R323, R217. A load at its arbiter: one that goes ahead is accepted, and the bundle waits on for the others. -/
def loadCommit (r : Req) (s : State) (a size : Nat) : Commit :=
  match clusterCommit r s true with
  | .go t =>
    if loadsAhead r t ∧ (aheadBytes r t).isNone then
      let u := (touch t (hitSpad a size)).getD t
      let (n, u) := u.delay
      .held .cluster (u.modCtx r.c fun x => { x with
        clusterAt := some (s.cycle + n), early := some { slot := r.slot, va := r.va, bytes := rdBytes u.ms.spad a size } })
    else .go t
  | .held b t => .held b t
  | .trap t => .trap t
  | .refuse t u => .refuse t u

/-- The access record of a trigger. -/
def accOfReq (r : Req) (s : State) (kind : AccKind) (place : Place) (pa size : Nat) (data : Vec) (cmp : BitVec 32)
    (dest : Option Dest) : Acc :=
  let w := whoOf s r.c r.slot
  { id := 0, ctx := r.c, num := w.num, slot := r.slot, rank := w.rank, lid := w.lid, kind := kind, place := place,
    va := toW r.v, pa := pa, size := size, data := data, cmp := cmp, dest := dest }

/-! ### Loads -/

/-- R122, R106. The line-state check of a read: a VACANT line is PROT 0x8, a DROPPED one waits for its producer, a bundle
that waits does so until the producer's launch has ended, and raises RECOMPUTE when that has failed, whatever the line's
state. -/
def lineReadCheck (r : Req) (s : State) (key : Nat) : Commit :=
  match s.line key with
  | none => .trap (trapMem 0x0C 8 r.va r.slot false)
  | some l =>
    if (s.ctx r.c).unmade.contains key then
      .trap { code := 0x14, info0 := toW r.v, info1 := BitVec.ofNat 64 (key % 2 ^ 24) }
    else match l.st with
    | .vacant => .trap (trapMem 0x0C 8 r.va r.slot false)
    | .live => if (s.ctx r.c).onLine ∧ l.waiters.contains r.c then .held .line s else .go s
    | .dropped =>
      let s1 := (s.setLine key { l with waiters := sins r.c l.waiters, making := l.making <|> some 0 }).modCtx r.c fun x =>
        { x with onLine := true }
      .held .line (if l.making.isNone then s1.after s.cycle false .producerLaunch { a := key } else s1)

/-- R320, R321. A load: size, how its bytes become the result, and whether it is `ldvh`. -/
def opLoad (unit : Nat) (p : Post) (vh : Bool) : Op where
  unit := unit
  load := true
  at3 := true
  words := fun _ _ => [(0, p.size)]
  hold := fun r s => accessHold r s (route s r.c r.va p.size p.size .load vh) p.size true
  blocks := fun r s => accessBlocks s (route s r.c r.va p.size p.size .load vh) p.size vh
  checks := fun r s =>
    let rt := route s r.c r.va p.size p.size .load vh
    wbCheck unit r s ++ routeTrap rt r.va r.slot false ++
      (match rt with
        | .spad a _ =>
          if arrivesNow r s ∧ ¬ behindAhead r s ∧ (aheadBytes r s).isNone ∧ (spadRead s a p.size).isNone then
            [(5, trapMemue (toW r.v) 2 r.slot)]
          else []
        | .page _ _ _ _ => []
        | .fault _ _ => []
        | .miss _ _ => []
        | .demand _ _ => [])
  commit := fun r s => match route s r.c r.va p.size p.size .load vh with
    | .spad a _ => loadCommit r s a p.size
    | .page _ _ _ _ => .go s
    | .fault _ _ => .go s
    | .miss _ _ => .go s
    | .demand _ _ => .go s
  last := fun r s =>
    match route s r.c r.va p.size p.size .load vh with
    | .page _ low high _ => if dKind low = kLined then lineReadCheck r s (lineKey high) else .go s
    | .spad _ _ => .go s
    | .fault _ _ => .go s
    | .miss _ _ => .go s
    | .demand _ _ => .go s
  effect := fun r s =>
    match route s r.c r.va p.size p.size .load vh with
    | .spad a _ =>
      let s := (touch s (hitSpad a p.size)).getD s
      let v := postLoad p ((aheadBytes r s).getD (rdBytes s.ms.spad a p.size))
      s.fly r.c { due := s.cycle + 4, unit := unit,
                  acts := .port (if unit = 4 then 0x240 else 0x250) v :: wbLand unit r s v }
    | .page pa low high ta =>
      let dest := wbDest unit r s
      let s := markEmpty s r.c dest
      if dKind low = kLined then
        let key := lineKey high
        let off := regionOff high ta
        let now : Vec := match s.line key with
          | some l => postLoad p (lineLoad l (chainAhead s key l r.c) off p.size)
          | none => 0
        sendAcc s (accOfReq r s (.chain p) (.line key off) pa p.size now 0 dest) 0
      else sendAcc s (accOfReq r s (.load p) (.phys pa) pa p.size 0 0 dest) 0
    | .fault _ _ => s
    | .miss _ _ => s
    | .demand _ _ => s

/-! ### Stores -/

/-- R103, R120, R122. The checks of a write into an open patch, and the write noted for the pool. -/
def patchWriteCheck (r : Req) (s : State) (key : Nat) (a : Acc) : Commit :=
  match s.line key with
  | none => .trap (trapMem 0x0E 0 r.va r.slot true)
  | some l =>
    if l.st = .dropped then .trap { code := 0x14, info0 := toW r.v, info1 := BitVec.ofNat 64 (key % 2 ^ 24) }
    else if ¬ l.opens.any (fun o => o.ctx == r.c) then .trap (trapMem 0x0E 0 r.va r.slot true)
    else
      let t := addAcc s a
      let comp := key / 2 ^ 24
      if poolShort s t comp then
        .trap { code := 0x13, info0 := toW r.v, info1 := BitVec.ofNat 64 (key % 2 ^ 24) }
      else .go t

/-- R320, R321. A store: size, whether it is `stvh`, its data, and for `stvm` the lanes it takes. A posted one to a failing
word is judged as its bundle issues (assumption 149). -/
def opStore (unit size : Nat) (vh : Bool) (data : Req → State → Vec) (mask : Req → State → Option (BitVec 64)) : Op where
  unit := unit
  writes := true
  words := fun r s => storeWords size (mask r s)
  hold := fun r s => wordsHold r s (route s r.c r.va size size .store vh) (storeWords size (mask r s)) (syncWrite r s)
  blocks := fun r s => storeBlocks s (route s r.c r.va size size .store vh) size vh (mask r s)
  adds := fun r s => pageAdds (route s r.c r.va size size .store vh)
    (match mask r s with | some m => 4 * popBelow m.toNat 64 | none => size)
  checks := fun r s =>
    let rt := route s r.c r.va size size .store vh
    routeTrap rt r.va r.slot true ++
      (match rt with
        | .spad a _ =>
          if (¬ splitTargets r s ∨ arrivesNow r s) ∧ ¬ behindAhead r s ∧
              spadPartBad s a (bytesOf (data r s) (if size < 4 then size else 0)) then [(5, trapMemue (toW r.v) 2 r.slot)] else []
        | .page _ _ _ _ => []
        | .fault _ _ => []
        | .miss _ _ => []
        | .demand _ _ => [])
  commit := fun r s => clusterCommit r s (splitTargets r s)
  last := fun r s =>
    match route s r.c r.va size size .store vh with
    | .page pa low high ta =>
      if dKind low = kLined then
        let kind := match mask r s with | some m => .lanes m | none => .patch
        patchWriteCheck r s (lineKey high)
          (accOfReq r s kind (.line (lineKey high) (regionOff high ta)) pa size (data r s) 0 none)
      else .go s
    | .spad _ _ => .go s
    | .fault _ _ => .go s
    | .miss _ _ => .go s
    | .demand _ _ => .go s
  effect := fun r s =>
    let kind := match mask r s with | some m => .lanes m | none => .store
    match route s r.c r.va size size .store vh with
    | .spad a _ =>
      let acc := accOfReq r s kind (.spad a) 0 size (data r s) 0 none
      match (if syncWrite r s then spadStore s (storePieces acc a) else none) with
      | some t => t
      | none => sendAcc s acc 9
    | .page pa low _ _ =>
      if dKind low = kLined then startAcc s r.c (s.ctx r.c).bundles r.slot 0
      else sendAcc s (accOfReq r s kind (.phys pa) pa size (data r s) 0 none) 0
    | .fault _ _ => s
    | .miss _ _ => s
    | .demand _ _ => s

/-- `.a` of an `ls` unit. -/
def lsA (unit : Nat) (r : Req) (s : State) : Vec := r.port s (if unit = 4 then 0x280 else 0x2A0)

/-- The operation of a `ls` trigger on the unit that its field names. -/
def lsUnit (u : BitVec 1) : Nat := 4 + u.toNat

/-- R320. Byte, zero-extended to 8 bytes. -/
def opLsLd8 (unit : Nat) : Op := opLoad unit { size := 1 } false

/-- The meaning of `ls.ld8`. -/
def execLsLd8 (u : BitVec 1) (m : Mv) (s : State) : Host.Outcome State Fault Refusal := issueOne m (.trig (opLsLd8 (lsUnit u))) s

/-- R320. Byte, sign-extended to 8 bytes. -/
def opLsLd8s (unit : Nat) : Op := opLoad unit { size := 1, sext := true } false

/-- The meaning of `ls.ld8s`. -/
def execLsLd8s (u : BitVec 1) (m : Mv) (s : State) : Host.Outcome State Fault Refusal := issueOne m (.trig (opLsLd8s (lsUnit u))) s

/-- R320. 2 bytes, zero-extended. -/
def opLsLd16 (unit : Nat) : Op := opLoad unit { size := 2 } false

/-- The meaning of `ls.ld16`. -/
def execLsLd16 (u : BitVec 1) (m : Mv) (s : State) : Host.Outcome State Fault Refusal := issueOne m (.trig (opLsLd16 (lsUnit u))) s

/-- R320. 2 bytes, sign-extended. -/
def opLsLd16s (unit : Nat) : Op := opLoad unit { size := 2, sext := true } false

/-- The meaning of `ls.ld16s`. -/
def execLsLd16s (u : BitVec 1) (m : Mv) (s : State) : Host.Outcome State Fault Refusal := issueOne m (.trig (opLsLd16s (lsUnit u))) s

/-- R320. 4 bytes, zero-extended. -/
def opLsLd32 (unit : Nat) : Op := opLoad unit { size := 4 } false

/-- The meaning of `ls.ld32`. -/
def execLsLd32 (u : BitVec 1) (m : Mv) (s : State) : Host.Outcome State Fault Refusal := issueOne m (.trig (opLsLd32 (lsUnit u))) s

/-- R320. 4 bytes, sign-extended. -/
def opLsLd32s (unit : Nat) : Op := opLoad unit { size := 4, sext := true } false

/-- The meaning of `ls.ld32s`. -/
def execLsLd32s (u : BitVec 1) (m : Mv) (s : State) : Host.Outcome State Fault Refusal := issueOne m (.trig (opLsLd32s (lsUnit u))) s

/-- R320. 8 bytes. -/
def opLsLd64 (unit : Nat) : Op := opLoad unit { size := 8 } false

/-- The meaning of `ls.ld64`. -/
def execLsLd64 (u : BitVec 1) (m : Mv) (s : State) : Host.Outcome State Fault Refusal := issueOne m (.trig (opLsLd64 (lsUnit u))) s

/-- R320. 16 bytes. -/
def opLsLd128 (unit : Nat) : Op := opLoad unit { size := 16 } false

/-- The meaning of `ls.ld128`. -/
def execLsLd128 (u : BitVec 1) (m : Mv) (s : State) : Host.Outcome State Fault Refusal := issueOne m (.trig (opLsLd128 (lsUnit u))) s

/-- R320. 128 bytes; on a block format also the scales (R324). -/
def opLsLdvh (unit : Nat) : Op := opLoad unit { size := 128 } true

/-- The meaning of `ls.ldvh`. -/
def execLsLdvh (u : BitVec 1) (m : Mv) (s : State) : Host.Outcome State Fault Refusal := issueOne m (.trig (opLsLdvh (lsUnit u))) s

/-- R320. 256 bytes. -/
def opLsLdv (unit : Nat) : Op := opLoad unit { size := 256 } false

/-- The meaning of `ls.ldv`. -/
def execLsLdv (u : BitVec 1) (m : Mv) (s : State) : Host.Outcome State Fault Refusal := issueOne m (.trig (opLsLdv (lsUnit u))) s

/-- R320. The word, in all 64 lanes. -/
def opLsLdbc (unit : Nat) : Op := opLoad unit { size := 4, bcast := true } false

/-- The meaning of `ls.ldbc`. -/
def execLsLdbc (u : BitVec 1) (m : Mv) (s : State) : Host.Outcome State Fault Refusal := issueOne m (.trig (opLsLdbc (lsUnit u))) s

/-- R320. The low 1 bytes of `.a`. -/
def opLsSt8 (unit : Nat) : Op := opStore unit 1 false (lsA unit) fun _ _ => none

/-- The meaning of `ls.st8`. -/
def execLsSt8 (u : BitVec 1) (m : Mv) (s : State) : Host.Outcome State Fault Refusal := issueOne m (.trig (opLsSt8 (lsUnit u))) s

/-- R320. The low 2 bytes of `.a`. -/
def opLsSt16 (unit : Nat) : Op := opStore unit 2 false (lsA unit) fun _ _ => none

/-- The meaning of `ls.st16`. -/
def execLsSt16 (u : BitVec 1) (m : Mv) (s : State) : Host.Outcome State Fault Refusal := issueOne m (.trig (opLsSt16 (lsUnit u))) s

/-- R320. The low 4 bytes of `.a`. -/
def opLsSt32 (unit : Nat) : Op := opStore unit 4 false (lsA unit) fun _ _ => none

/-- The meaning of `ls.st32`. -/
def execLsSt32 (u : BitVec 1) (m : Mv) (s : State) : Host.Outcome State Fault Refusal := issueOne m (.trig (opLsSt32 (lsUnit u))) s

/-- R320. The low 8 bytes of `.a`. -/
def opLsSt64 (unit : Nat) : Op := opStore unit 8 false (lsA unit) fun _ _ => none

/-- The meaning of `ls.st64`. -/
def execLsSt64 (u : BitVec 1) (m : Mv) (s : State) : Host.Outcome State Fault Refusal := issueOne m (.trig (opLsSt64 (lsUnit u))) s

/-- R320. The low 16 bytes of `.a`. -/
def opLsSt128 (unit : Nat) : Op := opStore unit 16 false (lsA unit) fun _ _ => none

/-- The meaning of `ls.st128`. -/
def execLsSt128 (u : BitVec 1) (m : Mv) (s : State) : Host.Outcome State Fault Refusal := issueOne m (.trig (opLsSt128 (lsUnit u))) s

/-- R320. The low 128 bytes of `.a`; on a block format also the scales (R324). -/
def opLsStvh (unit : Nat) : Op := opStore unit 128 true (lsA unit) fun _ _ => none

/-- The meaning of `ls.stvh`. -/
def execLsStvh (u : BitVec 1) (m : Mv) (s : State) : Host.Outcome State Fault Refusal := issueOne m (.trig (opLsStvh (lsUnit u))) s

/-- R320. The low 256 bytes of `.a`. -/
def opLsStv (unit : Nat) : Op := opStore unit 256 false (lsA unit) fun _ _ => none

/-- The meaning of `ls.stv`. -/
def execLsStv (u : BitVec 1) (m : Mv) (s : State) : Host.Outcome State Fault Refusal := issueOne m (.trig (opLsStv (lsUnit u))) s

/-- R320. Lane k of `.a` where `.b`[k] = 1. -/
def opLsStvm (unit : Nat) : Op := opStore unit 256 false (lsA unit) fun r s => some (toW (r.port s (if unit = 4 then 0x281 else 0x2A1)))

/-- The meaning of `ls.stvm`. -/
def execLsStvm (u : BitVec 1) (m : Mv) (s : State) : Host.Outcome State Fault Refusal := issueOne m (.trig (opLsStvm (lsUnit u))) s

/-- R320. 256 zero bytes. -/
def opLsStz (unit : Nat) : Op := opStore unit 256 false (fun _ _ => 0) fun _ _ => none

/-- The meaning of `ls.stz`. -/
def execLsStz (u : BitVec 1) (m : Mv) (s : State) : Host.Outcome State Fault Refusal := issueOne m (.trig (opLsStz (lsUnit u))) s

end Sys2Proof.Machine
end

