-- ==== Sys2Proof/Machine/Operands.lean ====
section
/-! DEFINITION. Vector operands (R341 to R344): lanes, the type port, the checks of a vector trigger, and the
landing of its result and flags. -/

namespace Sys2Proof.Machine

/-- R341. The n lowest lanes, w bits each, of a vector. -/
def lanesOf (w : Nat) : Nat → Nat → List Nat
  | 0, _ => []
  | n + 1, v => v % 2 ^ w :: lanesOf w n (v / 2 ^ w)

/-- The vector of a list of lanes. -/
def joinLanes (w : Nat) : List Nat → Nat
  | [] => 0
  | x :: t => x % 2 ^ w + joinLanes w t * 2 ^ w

/-- What a vector operation reads: its operand ports, its value, the fields of its type port, the seed and the
index (R288, R289). -/
structure VArg where
  a : Nat
  b : Nat
  c : Nat
  m : Nat
  v : Nat
  ty : Nat
  sty : Nat
  rnd : Nat
  sd : Nat
  ix : Nat

/-- R341. Lane width and lane count of TYPE. -/
def VArg.w (x : VArg) : Nat := tyBits x.ty
def VArg.len (x : VArg) : Nat := 2048 / x.w

/-- R344, R42. The rounding of element k. -/
def VArg.rndAt (x : VArg) (k : Nat) : Rnd := { mode := x.rnd, seed := x.sd, index := (x.ix + k) % 2 ^ 32 }

/-- R341. The scalar count or lane number of the trigger value. -/
def VArg.n (x : VArg) : Nat := x.v % 2 ^ 32

/-- R342. The classes of TYPE. -/
def clsF (t : Nat) : Bool := decide (0x6 ≤ t ∧ t ≤ 0x8)
def clsP (t : Nat) : Bool := decide (0x4 ≤ t ∧ t ≤ 0x8)
def clsI (t : Nat) : Bool := decide (0x9 ≤ t ∧ t ≤ 0xC)
def clsE (t : Nat) : Bool := decide (0x4 ≤ t ∧ t ≤ 0xC)
def clsFI (t : Nat) : Bool := clsF t || clsI t

/-- R343, R347. An operation of the classes F and I uses RND but for an integer TYPE. -/
def rndFI (t : Nat) : Bool := !clsI t

/-- What a vector operation accepts: its class of TYPE and of STYPE (none where the field is not used), when it
uses RND, and the flags it can set (R52, R343). -/
structure VSpec where
  cls : Option (Nat → Bool)
  scls : Option (Nat → Bool) := none
  rnd : Nat → Bool := fun _ => false
  able : Flags := 0

/-- R343. ARITH of a vector trigger. -/
def trapVec (info slot : Nat) : Nat × Trap :=
  (4, { code := 0x17, info0 := BitVec.ofNat 64 info, info1 := BitVec.ofNat 64 slot })

/-- R343. The checks of the type port, in their order. -/
def vecCheck (p : VSpec) (x : VArg) (slot : Nat) : List (Nat × Trap) :=
  if p.cls.isSome ∧ tyReserved x.ty then [trapVec (0x100 + x.ty) slot]
  else if p.scls.isSome ∧ tyReserved x.sty then [trapVec (0x100 + x.sty) slot]
  else if p.rnd x.ty ∧ rndReserved x.rnd then [trapVec (0x100 + x.rnd) slot]
  else if (match p.cls with | some f => !f x.ty | none => false) then [trapVec (0x200 + x.ty) slot]
  else if (match p.scls with | some f => !f x.sty | none => false) then [trapVec (0x300 + x.sty) slot]
  else []

/-- R346, R351. The operands of a trigger: `vx` (unit 6) has no `.c`, `vs` (unit 7) stands at 0x300. -/
def vecArg (unit : Nat) (r : Req) (s : State) : VArg :=
  let p (i : Nat) : Nat := (r.port s i).toNat
  let base := if unit = 6 then 0x2C0 else 0x300
  let k := if unit = 6 then 0 else 1
  let ty := p (base + 3 + k)
  { a := p base, b := p (base + 1), c := if unit = 6 then 0 else p (base + 2), m := p (base + 2 + k), v := r.v.toNat
    ty := fld ty 3 0, sty := fld ty 11 8, rnd := fld ty 6 4, sd := p (base + 4 + k), ix := p (base + 5 + k) }

/-- R344, R52. A vector operation: its checks, those of checked mode among them, and its result with its
flags. What it is able to set goes by its name, whatever its TYPE (assumption 140). -/
def opVec (unit lat : Nat) (p : VSpec) (f : VArg → Nat × Flags) : Op where
  unit := unit
  checks := fun r s =>
    let x := vecArg unit r s
    vecCheck p x r.slot ++ wbCheck unit r s ++
      (if ten (s.ctx r.c) &&& p.able = 0 then [] else checkedTrap (s.ctx r.c) r.slot (f x).2)
  effect := fun r s =>
    let q := f (vecArg unit r s)
    let v := BitVec.ofNat 2048 q.1
    let port := if unit = 6 then 0x260 else 0x270
    (s.fly r.c { due := s.cycle + lat, unit := unit,
                 acts := .port port v :: wbLand unit r s v ++ landFlags q.2 }).modCtx r.c
      (fun y => checkedWait y p.able s.cycle lat)

/-- Applies a function to lane k of four vectors, lane by lane. -/
def laneLoop (w : Nat) (g : Nat → Nat → Nat → Nat → Nat → Nat × Flags) :
    Nat → Nat → Nat → Nat → Nat → Nat → Nat × Flags
  | 0, _, _, _, _, _ => (0, 0)
  | n + 1, k, a, b, m, v =>
    let r := g k (a % 2 ^ w) (b % 2 ^ w) (m % 2 ^ w) (v % 2 ^ w)
    let t := laneLoop w g n (k + 1) (a / 2 ^ w) (b / 2 ^ w) (m / 2 ^ w) (v / 2 ^ w)
    (r.1 % 2 ^ w + t.1 * 2 ^ w, r.2 ||| t.2)

/-- A lanewise operation: `g k a b m v` is lane k of the result. -/
def lanewise (g : VArg → Nat → Nat → Nat → Nat → Nat → Nat × Flags) (x : VArg) : Nat × Flags :=
  laneLoop x.w (g x) x.len 0 x.a x.b x.m x.v

end Sys2Proof.Machine
end

