-- ==== Sys2Proof/Machine/Mx.lean ====
section
/-! DEFINITION. The `mx` unit (R53 to R71, R357 to R378): accumulator elements, banks, row operations, matrix
calls with their checks, steps and stops, and the catalogue of routines. -/

namespace Sys2Proof.Machine

/-! ### Elements (R53 to R61) -/

/-- R56. `combine`: the new special state, with INV where opposite infinities meet. -/
def accCombine (old new : AccSt) : AccSt × Flags :=
  match old, new with
  | .finite, n => (n, 0)
  | .nan, _ => (.nan, 0)
  | _, .nan => (.nan, 0)
  | .posInf, .negInf => (.nan, fINV)
  | .negInf, .posInf => (.nan, fINV)
  | o, _ => (o, 0)

/-- A special value enters an element. -/
def accSpecial (e : Elem) (x : AccSt) : Elem × Flags :=
  let r := accCombine e.st x
  ({ int := 0, st := r.1 }, r.2)

/-- R56. ±n · 2^e in units of the row's weight 2^(E - 46), rounded to nearest even, and whether it is exact. -/
def unitsOf (ex : Int) (neg : Bool) (n : Nat) (e : Int) : Int × Bool :=
  let q := scaleFrac (if neg then -(n : Int) else n) e
  let k := roundUnits rneMode q.1 q.2 (ex - 46)
  (k, exactUnits q.1 q.2 k (ex - 46))

/-- R56. `enter`: the product a × b, with the sign of recombination, enters an element of a row of exponent
`ex`. A signalling NaN sets INV, as R34 says of every arithmetic operation (assumption 105, DEDUCED). -/
def accEnter (ex : Int) (minus : Bool) (a b : Num) (e : Elem) : Elem × Flags :=
  if a.isNan || b.isNan then
    let r := accSpecial e .nan
    (r.1, r.2 ||| flagIf (a.isSig || b.isSig) fINV)
  else if a.isInf || b.isInf then
    if a.isZero || b.isZero then
      let r := accSpecial e .nan
      (r.1, r.2 ||| fINV)
    else accSpecial e (if (a.neg? != b.neg?) != minus then .negInf else .posInf)
  else match e.st, a.mul b with
    | .finite, .fin s n x => ({ e with int := e.int + (unitsOf ex (s != minus) n x).1 }, 0)
    | _, _ => (e, 0)

/-- R56. The products of two factor rows enter an element, in increasing k. -/
def accEnterAll (ex : Int) (minus : Bool) : List Num → List Num → Elem → Elem × Flags
  | a :: as, b :: bs, e =>
    let r := accEnter ex minus a b e
    let q := accEnterAll ex minus as bs r.1
    (q.1, r.2 ||| q.2)
  | _, _, e => (e, 0)

/-- R57. The clamp check of a finite element. -/
def accClamp (e : Elem) : Elem × Flags :=
  match e.st with
  | .finite =>
    if 2 ^ 63 - 1 < e.int then ({ e with int := 2 ^ 63 - 1 }, fAOVF)
    else if e.int < -(2 ^ 63) then ({ e with int := -(2 ^ 63) }, fAOVF)
    else (e, 0)
  | _ => (e, 0)

/-- R60. The shift of a renormalisation, by the largest magnitude of the row's finite elements and its
exponent. -/
def normShift (largest : Nat) (ex : Int) : Int :=
  let shift : Int := (Nat.log2 largest : Int) + 1 - 47
  max (-32768 - ex) (min (32767 - ex) shift)

/-- R60. One element shifted. -/
def normElem (ex shift : Int) (e : Elem) : Elem × Flags :=
  match e.st with
  | .finite =>
    if 0 < shift then
      let q := scaleFrac e.int (ex - 46)
      let k := roundUnits rneMode q.1 q.2 (ex + shift - 46)
      ({ e with int := k }, flagIf (!exactUnits q.1 q.2 k (ex + shift - 46)) fINX)
    else ({ e with int := e.int * 2 ^ (-shift).toNat }, 0)
  | _ => (e, 0)

/-- Elements with the flags of all. -/
def mapFlags (f : Elem → Elem × Flags) : List Elem → List Elem × Flags
  | [] => ([], 0)
  | e :: t =>
    let r := f e
    let q := mapFlags f t
    (r.1 :: q.1, r.2 ||| q.2)

/-- R60. `normalise` of a row: its new exponent, its elements and the flags. -/
def normRow (ex : Int) (es : List Elem) : Int × List Elem × Flags :=
  let largest := es.foldl (fun m e => if e.st = .finite then max m e.int.natAbs else m) 0
  if largest = 0 then (ex, es, 0)
  else
    let shift := normShift largest ex
    let r := mapFlags (normElem ex shift) es
    (ex + shift, r.1, r.2)

/-- R54, R61. The exact value of an element; integer 0 reads as the zero of the mode. -/
def elemNum (ex : Int) (mode : Nat) (e : Elem) : Num :=
  match e.st with
  | .finite => if e.int = 0 then .fin (mode == 3) 0 0 else .fin (decide (e.int < 0)) e.int.natAbs (ex - 46)
  | .posInf => .inf false
  | .negInf => .inf true
  | .nan => .nan false

/-- R360. `wr`: an element from a code of TYPE. -/
def elemOfCode (ex : Int) (ty code : Nat) : Elem × Flags :=
  match decodeElem ty code with
  | .nan sig => ({ int := 0, st := .nan }, flagIf sig fINV)
  | .inf s => ({ int := 0, st := if s then .negInf else .posInf }, 0)
  | .fin s n x =>
    let u := unitsOf ex s n x
    let r := accClamp { int := u.1 }
    (r.1, flagIf (!u.2) fINX ||| r.2)

/-! ### Rows and banks (R53, R55, R358, R359) -/

/-- A bank of a core, if held. -/
def bankAt (s : State) (core b : Nat) : Option Bank := tget s.cr.banks (core * 256 + b)

/-- Exponent word of a row of a bank. -/
def Bank.exp (b : Bank) (row : Nat) : Int :=
  match row with
  | 0 => b.e0.toInt | 1 => b.e1.toInt | 2 => b.e2.toInt | _ => b.e3.toInt

/-- Elements of a row of a bank. -/
def Bank.row (b : Bank) (row : Nat) : List Elem := (List.range 64).map fun k => (tget b.els (row * 64 + k)).getD {}

/-- Writes elements of a row from element k on; an element at 0 is not listed. -/
def putElems (row : Nat) : Nat → List Elem → Tab Elem → Tab Elem
  | _, [], t => t
  | k, e :: es, t =>
    putElems row (k + 1) es (if e = {} then tdel (row * 64 + k) t else tput (row * 64 + k) e t)

/-- The exponent of accumulator row g (4 × bank + row) of a core. -/
def rowExp (s : State) (core g : Nat) : Int := ((bankAt s core (g / 4)).map fun b => b.exp (g % 4)).getD 0

/-- The elements of accumulator row g. -/
def rowElems (s : State) (core g : Nat) : List Elem := ((bankAt s core (g / 4)).map fun b => b.row (g % 4)).getD []

/-- Writes accumulator row g; its words that failed are rewritten (R217). -/
def putRow (s : State) (core g : Nat) (ex : Int) (es : List Elem) : State :=
  match bankAt s core (g / 4) with
  | none => s
  | some b =>
    let e : BitVec 16 := BitVec.ofInt 16 ex
    let b := { b with els := putElems (g % 4) 0 es b.els }
    let b := match g % 4 with
      | 0 => { b with e0 := e } | 1 => { b with e1 := e } | 2 => { b with e2 := e } | _ => { b with e3 := e }
    { s with cr := { s.cr with
      banks := tput (core * 256 + g / 4) b s.cr.banks
      failAcc := s.cr.failAcc.filter fun k => k / 64 != core * 1024 + g } }

/-- R217. Whether an element of accumulator row g fails. -/
def rowFails (s : State) (core g : Nat) : Bool := s.cr.failAcc.any fun k => k / 64 == core * 1024 + g

/-- R358. Whether a context's team holds a bank of its core. -/
def teamHolds (s : State) (c b : Nat) : Bool :=
  match bankAt s (coreOf c) b with
  | some k => (s.ctx k.holder).slot == (s.ctx c).slot
  | none => false

/-- R358. Banks that the team holds on its core. -/
def teamBanks (s : State) (c : Nat) : Nat := ((List.range 256).filter (teamHolds s c)).length


/-- R358. Banks from one on become held, their elements 0, their exponents E. -/
def takeBanks (holder : Nat) (e : BitVec 16) (core first : Nat) : Nat → State → State
  | 0, s => s
  | n + 1, s =>
    takeBanks holder e core (first + 1) n { s with cr := { s.cr with
      banks := tput (core * 256 + first) { holder := holder, e0 := e, e1 := e, e2 := e, e3 := e, els := [] } s.cr.banks
      failAcc := s.cr.failAcc.filter fun k => k / 256 != core * 256 + first } }

/-- R358. Banks from one on become free. -/
def dropBanks (core first : Nat) : Nat → State → State
  | 0, s => s
  | n + 1, s => dropBanks core (first + 1) n { s with cr := { s.cr with banks := tdel (core * 256 + first) s.cr.banks } }

/-- R358, R360. Whether the core's running or pending call names a bank of a range. -/
def callNames (s : State) (core first n : Nat) : Bool :=
  match tget s.cr.calls core with
  | none => false
  | some k =>
    let cb := fld k.mp2.toNat 23 16
    let nb := 16 * fld k.mp3.toNat 7 0 * fld k.mp3.toNat 15 8
    decide (0 < n) && decide (first < cb + nb) && decide (cb < first + n)

/-! ### Allocation and row operations (R358, R360) -/

/-- R358, R373. The first of the lowest run of n banks that are free and that no call names. -/
def freeRun (s : State) (core n : Nat) : Option Nat :=
  (List.range 257).find? fun b => decide (b + n ≤ 256) && !callNames s core b n &&
    (List.range n).all fun k => (bankAt s core (b + k)).isNone

/-- R358. The count of an allocation. -/
def allocCount (r : Req) : Nat := (toW r.v).toNat

/-- R358. Takes the lowest run of free banks. -/
def opMxAlloc : Op where
  unit := 8
  checks := fun r s =>
    let n := allocCount r
    (if n = 0 ∨ 256 < n ∨ bBanks (s.board r.c) < teamBanks s r.c + n ∨ (freeRun s (coreOf r.c) n).isNone then
      [(4, { code := 0x0A, info0 := BitVec.ofNat 64 n, info1 := BitVec.ofNat 64 (teamBanks s r.c) })] else []) ++
    wbCheck 8 r s
  effect := fun r s =>
    let n := allocCount r
    let first := (freeRun s (coreOf r.c) n).getD 0
    takeBanks r.c ((r.port s 0x348).setWidth 16) (coreOf r.c) first n
      (landResult 8 4 0x280 (BitVec.ofNat 2048 first) r s)

/-- The meaning of `mx.alloc`. -/
def execMxAlloc (m : Mv) (s : State) : Host.Outcome State Fault Refusal := issueOne m (.trig opMxAlloc) s

/-- R358. First bank and count of a release. -/
def freeFirst (r : Req) : Nat := (toW r.v).toNat
def freeCount (r : Req) (s : State) : Nat := (r.port s 0x348).toNat

/-- R358. The first bank of a release above 255 or not held by the team. -/
def freeBad (r : Req) (s : State) : Option Nat :=
  ((List.range (min (freeCount r s) 257)).map (· + freeFirst r)).find? fun b => decide (255 < b) || !teamHolds s r.c b

/-- R211, R358. MXADDR. -/
def trapMxaddr (operand slot : Nat) : Trap :=
  { code := 0x08, info0 := BitVec.ofNat 64 operand, info1 := BitVec.ofNat 64 slot }

/-- R358, R265. Releases banks; held first while a call names one of them. -/
def opMxFree : Op where
  unit := 8
  hold := fun r s =>
    if callNames s (coreOf r.c) (freeFirst r) (freeCount r s) then some (.array, s) else none
  checks := fun r s => match freeBad r s with
    | some b => [(4, trapMxaddr b r.slot)]
    | none => []
  effect := fun r s => dropBanks (coreOf r.c) (freeFirst r) (min (freeCount r s) 256) s

/-- The meaning of `mx.free`. -/
def execMxFree (m : Mv) (s : State) : Host.Outcome State Fault Refusal := issueOne m (.trig opMxFree) s

/-- R357. A row operand. -/
def rowOperand (r : Req) : Nat := (toW r.v).toNat % 1024

/-- R360. The fields of `mx.ty`. -/
def mxTy (r : Req) (s : State) : Nat := fld (r.port s 0x349).toNat 3 0
def mxRnd (r : Req) (s : State) : Nat := fld (r.port s 0x349).toNat 6 4
def mxSeed (r : Req) (s : State) : Nat := fld (r.port s 0x349).toNat 63 32

/-- R360. The checks of a row operation: of its type word, with or without RND, and of its bank. -/
def rowChecks (ty rnd reads : Bool) (r : Req) (s : State) : List (Nat × Trap) :=
  let g := rowOperand r
  (if ty ∧ (mxTy r s < 4 ∨ 0xC < mxTy r s ∨ (rnd ∧ 4 < mxRnd r s)) then
    [(4, { code := 0x07
           info0 := BitVec.ofNat 64 (0xFF + 256 * mxTy r s + (if rnd then 4096 * mxRnd r s else 0) + 4 * 2 ^ 16)
           info1 := BitVec.ofNat 64 r.slot })] else []) ++
  (if teamHolds s r.c (g / 4) then [] else [(4, trapMxaddr g r.slot)]) ++
  (if reads ∧ rowFails s (coreOf r.c) g then [(5, trapMemue (BitVec.ofNat 64 g) 4 r.slot)] else [])

/-- R360. The hold of a row operation whose bank a call names. -/
def rowHold (r : Req) (s : State) : Option (Wait × State) :=
  if callNames s (coreOf r.c) (rowOperand r / 4) 1 then some (.array, s) else none

/-- Flags of a row operation enter the flag word at its landing. -/
def rowFlags (s : State) (c : Nat) (f : Flags) : State := s.fly c { due := s.cycle + 8, unit := 8, acts := landFlags f }

/-- R360. R60 on the row. -/
def opMxNorm : Op where
  unit := 8
  hold := rowHold
  checks := rowChecks false false true
  effect := fun r s =>
    let g := rowOperand r
    let n := normRow (rowExp s (coreOf r.c) g) (rowElems s (coreOf r.c) g)
    rowFlags (putRow s (coreOf r.c) g n.1 n.2.1) r.c n.2.2

/-- The meaning of `mx.norm`. -/
def execMxNorm (m : Mv) (s : State) : Host.Outcome State Fault Refusal := issueOne m (.trig opMxNorm) s

/-- R360, R61. Converts the elements of a row to codes of TYPE, from an index on. -/
def readRow (ty : Nat) (ex : Int) (rnd : Rnd) : List Elem → List Nat × Flags
  | [] => ([], 0)
  | e :: t =>
    let r := toElem ty rnd (elemNum ex rnd.mode e)
    let q := readRow ty ex { rnd with index := (rnd.index + 1) % 2 ^ 32 } t
    (r.1 :: q.1, r.2 ||| q.2)

/-- R360. Reads a row in TYPE. -/
def opMxRd : Op where
  unit := 8
  hold := rowHold
  checks := fun r s => rowChecks true true true r s ++ wbCheck 8 r s
  effect := fun r s =>
    let g := rowOperand r
    let q := readRow (mxTy r s) (rowExp s (coreOf r.c) g) { mode := mxRnd r s, seed := mxSeed r s, index := 64 * g }
      (rowElems s (coreOf r.c) g)
    rowFlags (landResult 8 8 0x282 (BitVec.ofNat 2048 (joinLanes (tyBits (mxTy r s)) q.1)) r s) r.c q.2

/-- The meaning of `mx.rd`. -/
def execMxRd (m : Mv) (s : State) : Host.Outcome State Fault Refusal := issueOne m (.trig opMxRd) s

/-- Elements of a row from codes of TYPE. -/
def writeRow (ty : Nat) (ex : Int) : List Nat → List Elem × Flags
  | [] => ([], 0)
  | x :: t =>
    let r := elemOfCode ex ty x
    let q := writeRow ty ex t
    (r.1 :: q.1, r.2 ||| q.2)

/-- R360. Writes a row from `.a` in TYPE. -/
def opMxWr : Op where
  unit := 8
  hold := rowHold
  checks := rowChecks true false false
  effect := fun r s =>
    let g := rowOperand r
    let ex := rowExp s (coreOf r.c) g
    let q := writeRow (mxTy r s) ex (lanesOf (tyBits (mxTy r s)) 64 (r.port s 0x348).toNat)
    rowFlags (putRow s (coreOf r.c) g ex q.1) r.c q.2

/-- The meaning of `mx.wr`. -/
def execMxWr (m : Mv) (s : State) : Host.Outcome State Fault Refusal := issueOne m (.trig opMxWr) s

/-! ### Calls: parameters and checks (R362 to R365, R374, R375) -/

/-- R362. The parameters of a call. -/
structure MxArg where
  rout : Nat
  mp2 : Nat
  mp3 : Nat
  mp7 : Nat
  at_ : Nat
  bt : Nat
  cb : Nat
  mb : Nat
  nb : Nat
  k : Nat
  aaddr : Nat
  baddr : Nat
  astr : Nat
  bstr : Nat
  asoff : Nat
  bsoff : Nat
  aboff : Nat
  bboff : Nat
  mp6 : Nat
  seed : Nat
  rnd : Nat
  mask : Bool
  fresh : Bool
  sfb : Bool
  classic : Bool

/-- R362. The fields of the parameter words. -/
def mxArg (rout : Nat) (p0 p1 p2 p3 p4 p5 p6 p7 : W64) : MxArg :=
  { rout := rout, mp2 := p2.toNat, mp3 := p3.toNat, mp7 := p7.toNat
    at_ := fld p2.toNat 3 0, bt := fld p2.toNat 7 4, cb := fld p2.toNat 23 16
    mb := fld p3.toNat 7 0, nb := fld p3.toNat 15 8, k := fld p3.toNat 55 32
    aaddr := p0.toNat, baddr := p1.toNat, astr := fld p4.toNat 31 0, bstr := fld p4.toNat 63 32
    asoff := fld p5.toNat 31 0, bsoff := fld p5.toNat 63 32, aboff := fld p6.toNat 31 0, bboff := fld p6.toNat 63 32
    mp6 := p6.toNat, seed := fld p7.toNat 63 32, rnd := fld p7.toNat 6 4, mask := p7.getLsbD 3
    fresh := p7.getLsbD 2, sfb := p7.getLsbD 1, classic := p7.getLsbD 0 }

/-- M and N of a call. -/
def MxArg.m (a : MxArg) : Nat := 64 * a.mb
def MxArg.n (a : MxArg) : Nat := 64 * a.nb

/-- R374. The catalogue: tile side, K granule (0 for the `acc` routines), step cycles, parts of a granule. -/
structure Routine where
  tile : Nat
  gran : Nat
  cyc : Nat
  parts : Nat
  /-- recombined routines (R63) -/
  recomb : Bool := false
  /-- accepts MASK (R362) -/
  masks : Bool := false
  /-- R375 -/
  types : Nat → Nat → Bool

/-- R375. Two types that both lie in a range. -/
def bothIn (lo hi a b : Nat) : Bool := decide (lo ≤ a ∧ a ≤ hi ∧ lo ≤ b ∧ b ≤ hi)

/-- R374. `mm.b4`. -/
def routMmB4 : Routine := { tile := 64, gran := 128, cyc := 64, parts := 1, types := fun a b => a == b && decide (a ≤ 1) }
/-- R374. `mm.f8`. -/
def routMmF8 : Routine := { tile := 64, gran := 64, cyc := 64, parts := 1, types := fun a b => bothIn 4 5 a b || bothIn 2 3 a b }
/-- R374. `mm.i8`. -/
def routMmI8 : Routine := { tile := 64, gran := 64, cyc := 64, parts := 1, types := bothIn 9 0xA }
/-- R374. `mm.i16`. -/
def routMmI16 : Routine := { tile := 64, gran := 64, cyc := 128, parts := 1, types := bothIn 0xB 0xB }
/-- R374. `mm.h`. -/
def routMmH : Routine := { tile := 64, gran := 64, cyc := 128, parts := 1, masks := true, types := bothIn 6 7 }
/-- R374. `mm.tn`. -/
def routMmTn : Routine := { tile := 64, gran := 64, cyc := 128, parts := 1, masks := true, types := bothIn 6 7 }
/-- R374, R69. `mm.s`. -/
def routMmS : Routine :=
  { tile := 128, gran := 64, cyc := 448, parts := 1, recomb := true, masks := true
    types := fun a b => bothIn 6 7 a b && a == b }
/-- R374, R69. `mm.s3`. -/
def routMmS3 : Routine :=
  { tile := 128, gran := 64, cyc := 448, parts := 6, recomb := true, masks := true, types := bothIn 8 8 }
/-- R374. `acc.ld`. -/
def routAccLd : Routine := { tile := 64, gran := 0, cyc := 64, parts := 1, types := fun a _ => clsE a }
/-- R374. `acc.st`. -/
def routAccSt : Routine := { tile := 64, gran := 0, cyc := 64, parts := 1, types := fun a _ => clsE a }
/-- R374. `acc.norm`. -/
def routAccNorm : Routine := { tile := 64, gran := 0, cyc := 64, parts := 1, types := fun _ _ => true }
/-- R374. `acc.zero`. -/
def routAccZero : Routine := { tile := 64, gran := 0, cyc := 16, parts := 1, types := fun _ _ => true }

/-- R374. The routine of a number. -/
def routineOf (n : Nat) : Option Routine :=
  match n with
  | 0x00 => some routMmB4 | 0x01 => some routMmF8 | 0x02 => some routMmI8 | 0x03 => some routMmI16
  | 0x04 => some routMmH | 0x05 => some routMmTn | 0x06 => some routMmS | 0x07 => some routMmS3
  | 0x08 => some routAccLd | 0x09 => some routAccSt | 0x0A => some routAccNorm | 0x0B => some routAccZero
  | _ => none

/-- K granules of a call. -/
def MxArg.grans (a : MxArg) (r : Routine) : Nat := if r.gran = 0 then 1 else (a.k + r.gran - 1) / r.gran

/-- R366. Steps of a call. -/
def MxArg.steps (a : MxArg) (r : Routine) : Nat := (a.m / r.tile) * (a.n / r.tile) * a.grans r * r.parts

/-- R374. Cycles of a step. -/
def MxArg.cyc (a : MxArg) (r : Routine) : Nat := if r.recomb ∧ (a.classic ∨ a.sfb) then 512 else r.cyc

/-- R365. A region: its address, its span in bytes, and whether it is written. -/
structure Region where
  va : Nat
  span : Nat
  write : Bool := false

/-- R363, R365. The regions of one GEMM operand of R rows. -/
def operandRegions (rows k ty addr stride soff boff : Nat) : List Region :=
  let at_ (off : Nat) : Nat := (addr + off) % 2 ^ 64
  if 4 ≤ ty then [{ va := addr, span := (rows - 1) * stride + k * tyBits ty / 8 }]
  else
    [{ va := addr, span := rows * k * tyBits ty / 8 }, { va := at_ soff, span := rows * (k / blockSize ty) }] ++
    (if ty = 0 then [{ va := at_ boff, span := 2 * ((rows + 63) / 64) * ((k + 127) / 128) }] else [])

/-- R365. The operand regions of a call in their order, without the mask block. -/
def MxArg.regions (a : MxArg) (r : Routine) : List Region :=
  if r.gran = 0 then
    if a.rout = 8 ∨ a.rout = 9 then
      [{ va := a.aaddr, span := (a.m - 1) * a.astr + a.n * tyBits a.at_ / 8, write := a.rout == 9 }]
    else []
  else
    (if a.rout = 5 then operandRegions a.k a.m a.at_ a.aaddr a.astr 0 0
     else operandRegions a.m a.k a.at_ a.aaddr a.astr a.asoff a.aboff) ++
    operandRegions a.n a.k a.bt a.baddr a.bstr a.bsoff a.bboff

/-- R364, R88. The fault of an operand region: checks 1 to 4, and PROT 0x6 on a global path. -/
def regionFault (s : State) (c va span align : Nat) : Option (Nat × Nat) :=
  if pathOf va ≤ 1 then
    if fld va 59 56 ≠ 0 then some (0x0C, 0x2) else if va % align ≠ 0 then some (0x0D, 0x0) else some (0x0C, 0x6)
  else match route s c va span align .load false with
    | .fault code sub => some (code, sub)
    | .miss _ _ => none
    | .demand _ _ => none
    | .spad _ _ => none
    | .page _ _ _ _ => none

/-- The scratchpad byte that an address of an operand names: core × 2^21 + offset. -/
def operandKey (s : State) (c va : Nat) : Nat :=
  match route s c va 1 1 .load false with
  | .spad a _ => a
  | .fault _ _ => 0
  | .miss _ _ => 0
  | .demand _ _ => 0
  | .page _ _ _ _ => 0

/-- R364. MXTYPE of a call. -/
def trapMxtype (a : MxArg) (reason slot : Nat) : Nat × Trap :=
  (4, { code := 0x07
        info0 := BitVec.ofNat 64 (a.rout + 256 * a.at_ + 4096 * a.bt + 2 ^ 16 * reason)
        info1 := BitVec.ofNat 64 slot })

/-- R364, check 5. The strides and offsets that a routine uses. -/
def MxArg.words (a : MxArg) (r : Routine) : List Nat :=
  if r.gran = 0 then (if a.rout = 8 ∨ a.rout = 9 then [a.astr] else [])
  else
    (if 4 ≤ a.at_ then [a.astr] else a.asoff :: (if a.at_ = 0 then [a.aboff] else [])) ++
    (if 4 ≤ a.bt then [a.bstr] else a.bsoff :: (if a.bt = 0 then [a.bboff] else []))

/-- R362, R363. Whether the shape of a call is refused. -/
def MxArg.badShape (a : MxArg) (r : Routine) : Bool :=
  a.mb == 0 || a.nb == 0 || decide (16 < a.mb * a.nb) ||
    (r.gran != 0 && (a.k == 0 || (a.at_ == 0 && a.k % 8 != 0) || (decide (1 ≤ a.at_ ∧ a.at_ ≤ 3) && a.k % 32 != 0))) ||
    (r.tile == 128 && (a.mb % 2 == 1 || a.nb % 2 == 1)) || (a.words r).any fun w => w % 4 != 0

/-- R378. The header of the mask block, as read. -/
def maskHeader (s : State) (c : Nat) (a : MxArg) : Nat :=
  let o := operandKey s c a.mp6
  rdNat ((touch s (hitSpad o 8)).getD s).ms.spad o 8

/-- R378. Bytes of a mask row. -/
def maskStride (s : State) (c : Nat) (a : MxArg) : Nat := if a.mask then maskHeader s c a % 2 ^ 32 else 0

/-- R364, checks 8 to 10: the mask block; its header is read once the context's posted scratchpad accesses are performed
(R368). -/
def maskChecks (s : State) (c slot : Nat) (a : MxArg) : List (Nat × Trap) :=
  if ¬ a.mask then []
  else match regionFault s c a.mp6 8 8 with
    | some (code, sub) => [(5, trapMem code sub a.mp6 slot false)]
    | none =>
      if postedOut s c then []
      else if (spadRead s (operandKey s c a.mp6) 8).isNone then [(5, trapMemue (BitVec.ofNat 64 a.mp6) 2 slot)]
      else
        let h := maskHeader s c a
        if h / 2 ^ 32 ≠ 0 then [trapMxtype a 2 slot]
        else if h % 4 ≠ 0 ∨ h < (a.n + 7) / 8 then [trapMxtype a 3 slot]
        else match regionFault s c a.mp6 (8 + a.m * h) 8 with
          | some (code, sub) => [(5, trapMem code sub a.mp6 slot false)]
          | none => []

/-- R364, checks 2 to 10, in their order. -/
def callChecks (s : State) (c slot : Nat) (a : MxArg) : List (Nat × Trap) :=
  match routineOf a.rout with
  | none => [trapMxtype a 1 slot]
  | some r =>
    if fld a.mp2 63 24 ≠ 0 ∨ fld a.mp2 15 8 ≠ 0 ∨ fld a.mp3 63 56 ≠ 0 ∨ fld a.mp3 31 16 ≠ 0 ∨ fld a.mp7 31 7 ≠ 0 ∨
        (a.rout = 9 ∧ 5 ≤ a.rnd) ∨ (a.mask ∧ ¬ r.masks) then [trapMxtype a 2 slot]
    else if ¬ r.types a.at_ a.bt then [trapMxtype a 0 slot]
    else if a.badShape r then [trapMxtype a 3 slot]
    else match ((List.range (16 * a.mb * a.nb)).map (· + a.cb)).find? fun b => decide (255 < b) || !teamHolds s c b with
      | some b => [(4, trapMxaddr b slot)]
      | none =>
        match (a.regions r).findSome? fun g => (regionFault s c g.va g.span 4).map fun f => (g, f) with
        | some (g, code, sub) => [(5, trapMem code sub g.va slot g.write)]
        | none => maskChecks s c slot a

/-- R371. The step at which a call begins. -/
def firstStep (x : Ctx) (a : MxArg) : Nat :=
  let row := resPort x 0x281
  if ¬ a.fresh ∧ row.getLsbD 63 then row.toNat % 2 ^ 32 else 0

/-- R367. The cost of a call. -/
def callCost (x : Ctx) (a : MxArg) : Nat :=
  match routineOf a.rout with
  | none => 0
  | some r => (a.steps r - firstStep x a) * a.cyc r

/-- R206, R210. Whether the Timetable admits a call of a cost now: from its class's own budget, or from idle cycles that
other classes lend once its own are used up. -/
def mxAdmits (s : State) (die cls cost : Nat) : Bool :=
  let left := remaining s die cls 5 0
  (if (cost : Int) ≤ allot s die cls 5 then decide ((cost : Int) ≤ left)
   else s.cycle + s.tt.period == s.tt.nextBoundary && decide (0 < left)) ||
    (decide (left ≤ 0) && lentN s die cls 5 0 cost)

/-- R364. Whether an admitted call must wait for the array. -/
def arrayBusy (s : State) (c : Nat) : Bool := (tget s.cr.calls (coreOf c)).isSome

/-! ### Calls: stops and completion (R366 to R372) -/

/-- R262, R370. `mx.st` on its way to the register of `.w`: a variable-latency value that arrives in this cycle, and in
the next one where the register was marked empty in this cycle. -/
def landWb (s : State) (c : Nat) (d : Dest) (v : Vec) : State :=
  let x := s.ctx c
  let marked := x.wroteAt == s.cycle && x.wrote.contains d
  let (id, s) := s.fresh
  let a : Arrival := { id := id, ctx := c, dest := some d, val := some v, addr := 0, loc := 0 }
  ({ s with ms := { s.ms with arrivals := s.ms.arrivals ++ [a] } }).after (s.cycle + if marked then 1 else 0) false
    .variableArrival { a := id }

/-- R366, R368. The window in which a core's loaders may have read words as they were before their writes begins anew. -/
def forgetFormer (core : Nat) (l : List Former) : List Former :=
  (l.map fun f => { f with cores := f.cores.filter (· != core) }).filter fun f => !f.cores.isEmpty

/-- R370. A call ends: `mx.st` and `mx.row` in its context's ports, and `mx.st` in the register of `.w`. -/
def endCall (s : State) (core : Nat) (k : Call) (st : Nat) (row : W64) : State :=
  let s := { s with
    cr := { s.cr with calls := tdel core s.cr.calls }, ms := { s.ms with former := forgetFormer core s.ms.former } }
  let s := (s.cancel .matrixStepBegin core).cancel .matrixStepEnd core
  let s := match k.wb with
    | some d => landWb s k.ctx d (BitVec.ofNat 2048 st)
    | none => s
  s.modCtx k.ctx fun x =>
    let x := setRes (setRes x 0x280 (BitVec.ofNat 2048 st)) 0x281 (ofW row)
    if st = 2 then { x with callEnd := none } else x

/-- R370. The progress word of a stopped call. -/
def progressWord (k : Call) : W64 := BitVec.ofNat 64 (2 ^ 63 + k.rout % 256 * 2 ^ 48 + k.step % 2 ^ 32)

/-- R370, R371. A call stops with its next step. -/
def stopNow (s : State) (core : Nat) (k : Call) : State := endCall s core k 2 (progressWord k)

/-- R371, R372. A call stops as was asked: where its context is pre-empted, it is to be issued again at resume. A call that
R369 stops is not: its program issues it again (assumption 127). -/
def stopAsked (s : State) (core : Nat) (k : Call) : State :=
  (stopNow s core k).modCtx k.ctx fun x =>
    if x.preempt || x.run == .preempted then
      { x with reissue := some { rout := k.rout, slot := k.slot, wb := k.wb, num := k.num, ready := false } }
    else x

/-- R371. Asks the call of a context to stop: at once before its first step begins, else at its next boundary. -/
def stopCall (s : State) (c : Nat) : State :=
  match tget s.cr.calls (coreOf c) with
  | none => s
  | some k =>
    if k.ctx ≠ c then s
    else if k.begun then { s with cr := { s.cr with calls := tput (coreOf c) { k with stop := true } s.cr.calls } }
    else stopAsked s (coreOf c) k

/-- The parameters of a call on the array. -/
def Call.arg (k : Call) : MxArg := mxArg k.rout k.mp0 k.mp1 k.mp2 k.mp3 k.mp4 k.mp5 k.mp6 k.mp7

/-- R366, R367, R371. A call starts: its charge, its interval, and its first step 16 cycles on; a call without a
step to run completes at once. -/
def startCall (s : State) (c slot num : Nat) (dest : Option Dest) (rout : Nat) (p0 p1 p2 p3 p4 p5 p6 p7 : W64) : State :=
  let x := s.ctx c
  let a := mxArg rout p0 p1 p2 p3 p4 p5 p6 p7
  match routineOf rout with
  | none => s
  | some r =>
    let k : Call :=
      { ctx := c, slot := slot, rout := rout, mp0 := p0, mp1 := p1, mp2 := p2, mp3 := p3, mp4 := p4, mp5 := p5, mp6 := p6
        mp7 := p7, step := firstStep x a, steps := a.steps r, cyc := a.cyc r, begun := false, stop := false, wb := dest
        num := num, stride := maskStride s c a, flags := [] }
    let cost := callCost x a
    let s := if a.mask then (touch s (hitSpad (operandKey s c a.mp6) 8)).getD s else s
    let s := markEmpty (charge s (dieOf c) (bComp (s.board c)) 5 0 cost) c dest
    let s := s.modCtx c fun y => { y with callEnd := some (s.cycle + cost), reissue := none }
    if k.steps ≤ k.step then endCall s (coreOf c) k 1 0
    else
      { s with cr := { s.cr with calls := tput (coreOf c) k s.cr.calls } }.after (s.cycle + 16) true .matrixStepBegin
        { a := coreOf c }

/-- The parameter word i of a call trigger, as the trigger reads it. -/
def Req.mp (r : Req) (s : State) (i : Nat) : W64 := toW (r.port s (0x340 + i))

/-- The parameters of a call trigger. -/
def reqArg (r : Req) (s : State) : MxArg :=
  mxArg ((toW r.v).toNat % 256) (r.mp s 0) (r.mp s 1) (r.mp s 2) (r.mp s 3) (r.mp s 4) (r.mp s 5) (r.mp s 6) (r.mp s 7)

/-- R364, check 1. MXII within the interval of the context's own previous call. -/
def intervalCheck (r : Req) (s : State) : List (Nat × Trap) :=
  match (s.ctx r.c).callEnd with
  | some t => if s.cycle < t then
      [(4, { code := 0x06, info0 := BitVec.ofNat 64 (t - s.cycle), info1 := BitVec.ofNat 64 r.slot })] else []
  | none => []

/-- R365, R378. The regions that a call accesses: its operands, and the mask block. -/
def callRegions (s : State) (c : Nat) (a : MxArg) : List Region :=
  ((routineOf a.rout).map a.regions).getD [] ++
    (if a.mask then [{ va := a.mp6, span := 8 + a.m * maskStride s c a }] else [])

/-- R132. Whether MALIAS holds a call behind a data command of its context. -/
def callMalias (r : Req) (s : State) : Bool :=
  r.malias && (callRegions s r.c (reqArg r s)).any fun g =>
    let o := operandKey s r.c g.va
    maliasBlocked s r.c (o / 2 ^ 21 % 16) (o % 2 ^ 21) g.span

/-- R128, R328, R368. Whether a call, as a scratchpad access of its bundle, waits for a tagged request of its context. -/
def callTagged (r : Req) (s : State) : Bool := taggedOut s r.c && !(callRegions s r.c (reqArg r s)).isEmpty

/-- R128, R368. Whether a call waits for a scratchpad access of its context that is on its way: to another core than one of
its regions', or, where it reads a mask's header, any. -/
def callPosted (s : State) (c : Nat) (a : MxArg) : Bool :=
  (a.mask && postedOut s c) || (callRegions s c a).any fun g => s.ms.accs.any fun b => b.ctx == c && (match b.place with
    | .spad o => o / 2 ^ 21 != operandKey s c g.va / 2 ^ 21
    | .phys _ => false
    | .line _ _ => false)

/-- R138. Whether, in replay, the read of the mask's header must wait. -/
def headerWaits (r : Req) (s : State) : Bool :=
  let a := reqArg r s
  a.mask && (touch s (hitSpad (operandKey s r.c a.mp6) 8)).isNone

/-- R206. The hold of a call that the Timetable does not admit. -/
def mxHold (s : State) (c cost : Nat) : Option (Wait × State) :=
  let die := dieOf c
  let comp := bComp (s.board c)
  if mxAdmits s die comp cost then none else some (.budget, (s.noteHeld c).waitFor die comp c [(5, 0, cost)])

/-- R361. A call of the routine whose number is the trigger value. -/
def opMxCall : Op where
  unit := 8
  early := fun r s => match intervalCheck r s with
    | [] => callChecks s r.c r.slot (reqArg r s)
    | l => l
  hold := fun r s =>
    if arrayBusy s r.c then some (.array, s)
    else if fenceHolds s r.c then some (.fence, s)
    else if callTagged r s then some (.tagged, s)
    else if callPosted s r.c (reqArg r s) then some (.cluster, s)
    else if callMalias r s then some (.engine, s)
    else if headerWaits r s then some (.other, s)
    else mxHold s r.c (callCost (s.ctx r.c) (reqArg r s))
  checks := wbCheck 8
  effect := fun r s =>
    startCall s r.c r.slot (s.ctx r.c).bundles (wbDest 8 r s) ((toW r.v).toNat % 256)
      (r.mp s 0) (r.mp s 1) (r.mp s 2) (r.mp s 3) (r.mp s 4) (r.mp s 5) (r.mp s 6) (r.mp s 7)

/-! ### Calls: the steps (R63, R64, R70, R363, R366, R376 to R378) -/

/-- Where a step works: tile row and column in elements, K granule, part. -/
structure StepAt where
  i0 : Nat
  j0 : Nat
  k0 : Nat
  part : Nat

/-- R366. Tiles in row-major order, then granules, then parts. -/
def stepAt (a : MxArg) (r : Routine) (n : Nat) : StepAt :=
  let per := a.grans r * r.parts
  let cols := a.n / r.tile
  { i0 := n / per / cols * r.tile, j0 := n / per % cols * r.tile, k0 := n % per / r.parts * r.gran, part := n % r.parts }

/-- R362. Accumulator row 4 × bank + row of element (i, j). -/
def cellRow (a : MxArg) (i j : Nat) : Nat := 4 * a.cb + (j / 64) * a.m + i

/-- One operand of a call: scratchpad keys of its arrays, its type, stride, row length, and whether element k of
row i lies at row k (`mm.tn`). -/
structure Side where
  ty : Nat
  key : Nat
  va : Nat
  skey : Nat
  sva : Nat
  bkey : Nat
  bva : Nat
  stride : Nat
  len : Nat
  turned : Bool := false

/-- The operand A, or X; and the operand B. -/
def sideA (s : State) (c : Nat) (a : MxArg) : Side :=
  let sv := (a.aaddr + a.asoff) % 2 ^ 64
  let bv := (a.aaddr + a.aboff) % 2 ^ 64
  { ty := a.at_, key := operandKey s c a.aaddr, va := a.aaddr, skey := operandKey s c sv, sva := sv
    bkey := operandKey s c bv, bva := bv, stride := a.astr, len := if 8 ≤ a.rout then a.n else a.k, turned := a.rout == 5 }
def sideB (s : State) (c : Nat) (a : MxArg) : Side :=
  let sv := (a.baddr + a.bsoff) % 2 ^ 64
  let bv := (a.baddr + a.bboff) % 2 ^ 64
  { ty := a.bt, key := operandKey s c a.baddr, va := a.baddr, skey := operandKey s c sv, sva := sv
    bkey := operandKey s c bv, bva := bv, stride := a.bstr, len := a.k }

/-- R363. Bit offset of element k of row r from the operand's address. -/
def Side.bitOff (d : Side) (r k : Nat) : Nat :=
  if d.turned then 8 * (k * d.stride) + r * tyBits d.ty
  else if 4 ≤ d.ty then 8 * (r * d.stride) + k * tyBits d.ty
  else (r * d.len + k) * tyBits d.ty

/-- R363. Byte offsets of the scale and of the band of an element. -/
def Side.scaleOff (d : Side) (r k : Nat) : Nat := r * (d.len / blockSize d.ty) + k / blockSize d.ty
def Side.bandOff (d : Side) (r k : Nat) : Nat := 2 * (r / 64 * ((d.len + 127) / 128) + k / 128)

/-- R363, R37, R39. The value of element k of row r; columns beyond K are +0 (R366). -/
def Side.num (s : State) (d : Side) (r k : Nat) : Num :=
  if d.len ≤ k then .fin false 0 0
  else
    let bit := d.bitOff r k
    let w := tyBits d.ty
    let code := rdNat s.ms.spad (d.key + bit / 8) ((w + 7) / 8) / 2 ^ (bit % 8) % 2 ^ w
    let scale := rdNat s.ms.spad (d.skey + d.scaleOff r k) 1
    if d.ty = 0 then decodeZb4 code scale (rdNat s.ms.spad (d.bkey + d.bandOff r k) 2)
    else if d.ty < 4 then decodeMx (mxFp d.ty) code scale
    else decodeElem d.ty code

/-- Elements k0 to k0 + n - 1 of row r. -/
def Side.nums (s : State) (d : Side) (r k0 n : Nat) : List Num := (List.range n).map fun i => d.num s r (k0 + i)

/-- Bytes of a scratchpad that a step accesses: the first one's place, its address in the operand, and their number. -/
structure Span where
  key : Nat
  va : Nat
  size : Nat

/-- R363. The bytes of rows r0 to r0 + rows - 1, columns k0 on: of elements, scales and bands. -/
def Side.spans (d : Side) (r0 rows k0 n : Nat) : List Span :=
  (List.range rows).flatMap fun i => (List.range n).flatMap fun j =>
    if d.len ≤ k0 + j then []
    else
      let bit := d.bitOff (r0 + i) (k0 + j)
      let at_ (key va off size : Nat) : Span := { key := key + off, va := va + off, size := size }
      at_ d.key d.va (bit / 8) ((tyBits d.ty + 7) / 8) ::
        ((if d.ty < 4 then [at_ d.skey d.sva (d.scaleOff (r0 + i) (k0 + j)) 1] else []) ++
          (if d.ty = 0 then [at_ d.bkey d.bva (d.bandOff (r0 + i) (k0 + j)) 2] else []))

/-- R70. hi, mid and lo of an FP32 operand. The split sets no flag: a signalling NaN still signals in the product of its
hi (R34). -/
def splitParts (x : Num) : Num × Num × Num :=
  match x with
  | .nan sig => (.nan sig, .nan false, .nan false)
  | .inf s => (.inf s, .fin false 0 0, .fin false 0 0)
  | .fin s n e =>
    if n = 0 then (x, .fin false 0 0, .fin false 0 0)
    else
      let q := scaleFrac n e
      let w := log2Frac q.1.toNat q.2 - 7
      let h := roundUnits rneMode (if s then -q.1 else q.1) q.2 w
      let hi : Num := .fin (decide (h < 0)) h.natAbs w
      let sub (y z : Num) : Num :=
        let t := sumFin [y, z.negate]
        .fin (decide (t.1 < 0)) t.1.natAbs t.2
      let bf (y : Num) : Num := decodeFp .bf16 (toFp .bf16 rneMode y).1
      let r := sub x hi
      let mid := bf r
      (hi, mid, bf (sub r mid))

/-- R70. The parts of A and of B in the six products of a granule: 0 hi, 1 mid, 2 lo. -/
def partPair (p : Nat) : Nat × Nat :=
  match p with
  | 0 => (0, 0) | 1 => (0, 1) | 2 => (1, 0) | 3 => (1, 1) | 4 => (0, 2) | _ => (2, 0)

/-- The part of a value that a step uses. -/
def partOf (s3 : Bool) (p : Nat) (x : Num) : Num :=
  if ¬ s3 then x
  else
    let t := splitParts x
    if p = 0 then t.1 else if p = 1 then t.2.1 else t.2.2

/-- floor(log2 |x|) of a nonzero finite value. -/
def expOf (n : Nat) (e : Int) : Int := (Nat.log2 n : Int) + e

/-- R64. The exponent of an operand of a pre-sum: a subnormal counts as the least one of its format (none: the operand
has no limit of range, R70). -/
def loadExp (emin : Option Int) (n : Nat) (e : Int) : Int :=
  match emin with
  | some m => max m (expOf n e)
  | none => expOf n e

/-- R64. One pre-sum x ± y: `p` bits of precision and the least exponent of the operands. A signalling NaN sets INV
(R34; assumption 105). -/
def preSum (p : Nat) (emin : Option Int) (minus : Bool) (x y : Num) : Num × Flags :=
  let y := if minus then y.negate else y
  match x, y with
  | .nan s, y => (.nan false, flagIf (s || y.isSig) fINV)
  | _, .nan s => (.nan false, flagIf s fINV)
  | .inf s, .inf t => if s = t then (.inf s, 0) else (.nan false, fINV)
  | .inf s, .fin _ _ _ => (.inf s, 0)
  | .fin _ _ _, .inf t => (.inf t, 0)
  | .fin s n e, .fin t m f =>
    let sum := sumFin [.fin s n e, .fin t m f]
    let exact : Num := .fin (decide (sum.1 < 0)) sum.1.natAbs sum.2
    if n = 0 ∨ m = 0 ∨ sum.1 = 0 then (exact, 0)
    else
      let ex := loadExp emin n e
      let ey := loadExp emin m f
      if (ex - ey).natAbs ≤ 12 - p then (exact, 0)
      else
        let w := expOf sum.1.natAbs sum.2 - 11
        let q := scaleFrac sum.1 sum.2
        let k := roundUnits rneMode q.1 q.2 w
        (.fin (decide (k < 0)) k.natAbs w, fRINEX)

/-- A matrix of values by rows. -/
abbrev Rows := List (List Num)

/-- R64. Pre-sums of two blocks, with the flags of each row. -/
def preRows (p : Nat) (emin : Option Int) (minus : Bool) : Rows → Rows → List (List Num × Flags)
  | x :: xs, y :: ys =>
    let r := (x.zip y).map fun e => preSum p emin minus e.1 e.2
    (r.map (·.1), r.foldl (fun f e => f ||| e.2) 0) :: preRows p emin minus xs ys
  | _, _ => []

/-- The flags of a step, by accumulator row. -/
abbrev RowFlags := List (Nat × Flags)

/-- R56. The products of rows of A with the rows of B enter the quadrant whose first element is (i, j). -/
def enterQuad (s : State) (core : Nat) (a : MxArg) (i j : Nat) (minus : Bool) : Rows → Rows → State × RowFlags
  | [], _ => (s, [])
  | x :: xs, bs =>
    let g := cellRow a i j
    let ex := rowExp s core g
    let r := ((rowElems s core g).zip bs).map fun e => accEnterAll ex minus x e.2 e.1
    let q := enterQuad (putRow s core g ex (r.map (·.1))) core a (i + 1) j minus xs bs
    (q.1, (g, r.foldl (fun f e => f ||| e.2) 0) :: q.2)

/-- R57. The clamp check of n rows of a quadrant. -/
def clampQuad (core : Nat) (a : MxArg) (i j : Nat) : Nat → State → State × RowFlags
  | 0, s => (s, [])
  | n + 1, s =>
    let g := cellRow a i j
    let r := mapFlags accClamp (rowElems s core g)
    let q := clampQuad core a (i + 1) j n (putRow s core g (rowExp s core g) r.1)
    (q.1, (g, r.2) :: q.2)

/-- R63. A factor of a product: one quadrant, or two with a sign; quadrants numbered 2 × first digit + second. -/
structure Factor where
  x : Nat
  y : Option (Nat × Bool) := none

/-- R63. The seven products: their factors and the quadrants they enter, with minus signs. -/
def products : List (Factor × Factor × List (Nat × Bool)) :=
  [({ x := 0, y := some (3, false) }, { x := 0, y := some (3, false) }, [(0, false), (3, false)]),
   ({ x := 2, y := some (3, false) }, { x := 0 }, [(2, false), (3, true)]),
   ({ x := 0 }, { x := 1, y := some (3, true) }, [(1, false), (3, false)]),
   ({ x := 3 }, { x := 2, y := some (0, true) }, [(0, false), (2, false)]),
   ({ x := 0, y := some (1, false) }, { x := 3 }, [(0, true), (1, false)]),
   ({ x := 2, y := some (0, true) }, { x := 0, y := some (1, false) }, [(3, false)]),
   ({ x := 1, y := some (3, true) }, { x := 2, y := some (3, false) }, [(0, false)])]

/-- The quadrants of A: row half, K half. -/
def quadA (m : Rows) (q : Nat) : Rows := ((m.drop (64 * (q / 2))).take 64).map fun r => (r.drop (32 * (q % 2))).take 32
/-- The quadrants of B, stored by columns: K half, column half. -/
def quadB (m : Rows) (q : Nat) : Rows := ((m.drop (64 * (q % 2))).take 64).map fun r => (r.drop (32 * (q / 2))).take 32

/-- R64. A factor with the flags of each of its rows. -/
def factor (quad : Rows → Nat → Rows) (p : Nat) (emin : Option Int) (m : Rows) (f : Factor) : List (List Num × Flags) :=
  match f.y with
  | none => (quad m f.x).map fun r => (r, 0)
  | some (y, minus) => preRows p emin minus (quad m f.x) (quad m y)

/-- Flags of pre-sums at the accumulator rows that they reach: those of A's row i at row i, those of B at all. -/
def preFlags (a : MxArg) (i j : Nat) (all : Flags) : List Flags → RowFlags
  | [] => []
  | f :: t => (cellRow a i j, f ||| all) :: preFlags a (i + 1) j all t

/-- R63. One product enters its quadrants, each followed by its clamp check. -/
def enterProduct (core : Nat) (a : MxArg) (i0 j0 : Nat) (A B : List (List Num × Flags)) :
    List (Nat × Bool) → State → State × RowFlags
  | [], s => (s, [])
  | (q, minus) :: t, s =>
    let i := i0 + 64 * (q / 2)
    let j := j0 + 64 * (q % 2)
    let r := enterQuad s core a i j minus (A.map (·.1)) (B.map (·.1))
    let k := clampQuad core a i j 64 r.1
    let u := enterProduct core a i0 j0 A B t k.1
    (u.1, preFlags a i j (B.foldl (fun f e => f ||| e.2) 0) (A.map (·.2)) ++ r.2 ++ k.2 ++ u.2)

/-- R63. A recombined step: the products in their order, with the least exponents of the parts of A and B. -/
def recombine (core : Nat) (a : MxArg) (i0 j0 p : Nat) (minA minB : Option Int) (A B : Rows) :
    List (Factor × Factor × List (Nat × Bool)) → State → State × RowFlags
  | [], s => (s, [])
  | (f, g, qs) :: t, s =>
    let r := enterProduct core a i0 j0 (factor quadA p minA A f) (factor quadB p minB B g) qs s
    let u := recombine core a i0 j0 p minA minB A B t r.1
    (u.1, r.2 ++ u.2)

/-- The 64 × 64 quadrants of a tile. -/
def tileQuads (r : Routine) (i0 j0 : Nat) : List (Nat × Nat) :=
  if r.tile = 64 then [(i0, j0)] else [(i0, j0), (i0, j0 + 64), (i0 + 64, j0), (i0 + 64, j0 + 64)]

/-- R376. A step in classical order, each quadrant followed by its clamp check. -/
def classical (core : Nat) (a : MxArg) (i0 j0 : Nat) (A B : Rows) : List (Nat × Nat) → State → State × RowFlags
  | [], s => (s, [])
  | (i, j) :: t, s =>
    let r := enterQuad s core a i j false ((A.drop (i - i0)).take 64) ((B.drop (j - j0)).take 64)
    let k := clampQuad core a i j 64 r.1
    let u := classical core a i0 j0 A B t k.1
    (u.1, r.2 ++ k.2 ++ u.2)

/-- R378. The mask of n rows of a quadrant: an element whose keep bit is 0 takes -Inf. -/
def maskQuad (core : Nat) (a : MxArg) (base stride i j : Nat) : Nat → State → State × RowFlags
  | 0, s => (s, [])
  | n + 1, s =>
    let g := cellRow a i j
    let keep (k : Nat) : Bool := (rdNat s.ms.spad (base + 8 + i * stride + (j + k) / 8) 1).testBit ((j + k) % 8)
    let r := ((List.range 64).zip (rowElems s core g)).map fun e => if keep e.1 then (e.2, 0) else accSpecial e.2 .negInf
    let q := maskQuad core a base stride (i + 1) j n (putRow s core g (rowExp s core g) (r.map (·.1)))
    (q.1, (g, r.foldl (fun f e => f ||| e.2) 0) :: q.2)

/-- The mask of the quadrants of a tile. -/
def maskTile (core : Nat) (a : MxArg) (base stride : Nat) : List (Nat × Nat) → State → State × RowFlags
  | [], s => (s, [])
  | (i, j) :: t, s =>
    let r := maskQuad core a base stride i j 64 s
    let u := maskTile core a base stride t r.1
    (u.1, r.2 ++ u.2)

/-- R68, R376. The products of a GEMM step. -/
def gemmStep (s : State) (k : Call) (core : Nat) (a : MxArg) (r : Routine) (p : StepAt) : State × RowFlags :=
  let rows (d : Side) (r0 : Nat) : Rows := (List.range r.tile).map fun i => d.nums s (r0 + i) p.k0 r.gran
  let A := rows (sideA s k.ctx a) p.i0
  let B := rows (sideB s k.ctx a) p.j0
  let special := (A ++ B).any fun l => l.any fun x => x.isNan || x.isInf
  let s3 := decide (1 < r.parts)
  let pp := partPair p.part
  let A2 := A.map fun l => l.map (partOf s3 pp.1)
  let B2 := B.map fun l => l.map (partOf s3 pp.2)
  let fmt : Fp := if a.at_ = 7 then .fp16 else .bf16
  let least (part : Nat) : Option Int := if s3 ∧ part = 0 then none else some fmt.emin
  if r.recomb ∧ ¬ a.classic ∧ ¬ (a.sfb ∧ special) then
    recombine core a p.i0 p.j0 (fmt.mbits + 1) (least pp.1) (least pp.2) A2 B2 products s
  else classical core a p.i0 p.j0 A2 B2 (tileQuads r p.i0 p.j0) s

/-- R377. `acc.ld`: n rows of X enter, each followed by its clamp check. -/
def accLoad (core : Nat) (a : MxArg) (x : Side) (i j : Nat) : Nat → State → State × RowFlags
  | 0, s => (s, [])
  | n + 1, s =>
    let g := cellRow a i j
    let ex := rowExp s core g
    let r := ((rowElems s core g).zip (x.nums s i j 64)).map fun e =>
      let u := accEnter ex false e.2 (.fin false 1 0) e.1
      let v := accClamp u.1
      (v.1, u.2 ||| v.2)
    let q := accLoad core a x (i + 1) j n (putRow s core g ex (r.map (·.1)))
    (q.1, (g, r.foldl (fun f e => f ||| e.2) 0) :: q.2)

/-- The bytes of codes of w bits, w a multiple of 8. -/
def codeBytes (w : Nat) : List Nat → List Byte
  | [] => []
  | x :: t => natBytes x (w / 8) ++ codeBytes w t

/-- R377. A row of `acc.st`: the codes of 64 elements from (i, j), and their flags. -/
def stCodes (s : State) (core : Nat) (a : MxArg) (i j : Nat) : List Nat × Flags :=
  let g := cellRow a i j
  readRow a.at_ (rowExp s core g) { mode := a.rnd, seed := a.seed, index := (i * a.n + j) % 2 ^ 32 } (rowElems s core g)

/-- R377. What 64 rows of `acc.st` from (i, j) write, word by word. -/
def accStores (s : State) (core : Nat) (a : MxArg) (x : Side) (i j : Nat) : List (Nat × List Byte) :=
  (List.range 64).flatMap fun r =>
    chunkWords 256 (x.key + x.bitOff (i + r) j / 8) (codeBytes (tyBits a.at_) (stCodes s core a (i + r) j).1)

/-- R377. `acc.norm`: R60 on n rows. -/
def accNormRows (core : Nat) (a : MxArg) (i j : Nat) : Nat → State → State × RowFlags
  | 0, s => (s, [])
  | n + 1, s =>
    let g := cellRow a i j
    let r := normRow (rowExp s core g) (rowElems s core g)
    let u := accNormRows core a (i + 1) j n (putRow s core g r.1 r.2.1)
    (u.1, (g, r.2.2) :: u.2)

/-- R377. `acc.zero`: n rows. -/
def accZeroRows (core : Nat) (a : MxArg) (i j : Nat) : Nat → State → State × RowFlags
  | 0, s => (s, [])
  | n + 1, s =>
    let g := cellRow a i j
    accZeroRows core a (i + 1) j n (putRow s core g (rowExp s core g) ((List.range 64).map fun _ => {}))

/-- R366. One step of a call: its effect on the accumulators, with the flags of each accumulator row. -/
def runStep (s : State) (core : Nat) (k : Call) : State × RowFlags :=
  let a := k.arg
  match routineOf k.rout with
  | none => (s, [])
  | some r =>
    let p := stepAt a r k.step
    if r.gran = 0 then
      match k.rout with
      | 0x08 => accLoad core a (sideA s k.ctx a) p.i0 p.j0 64 s
      | 0x09 => (s, (List.range 64).map fun i => (cellRow a (p.i0 + i) p.j0, (stCodes s core a (p.i0 + i) p.j0).2))
      | 0x0A => accNormRows core a p.i0 p.j0 64 s
      | _ => accZeroRows core a p.i0 p.j0 64 s
    else
      let g := gemmStep s k core a r p
      if a.mask then
        let m := maskTile core a (operandKey s k.ctx a.mp6) k.stride (tileQuads r p.i0 p.j0) g.1
        (m.1, g.2 ++ m.2)
      else g

/-- R363, R378. What a step reads of the scratchpads: its operands, and the rows of its mask. -/
def stepReads (s : State) (k : Call) : List Span :=
  let a := k.arg
  match routineOf k.rout with
  | none => []
  | some r =>
    let p := stepAt a r k.step
    if r.gran = 0 then
      if k.rout = 8 then (sideA s k.ctx a).spans p.i0 64 p.j0 64 else []
    else
      (sideA s k.ctx a).spans p.i0 r.tile p.k0 r.gran ++ (sideB s k.ctx a).spans p.j0 r.tile p.k0 r.gran ++
        (if a.mask then
          (List.range r.tile).map fun i =>
            let off := 8 + (p.i0 + i) * k.stride + p.j0 / 8
            { key := operandKey s k.ctx a.mp6 + off, va := a.mp6 + off, size := r.tile / 8 }
         else [])

/-- R377. What a step of `acc.st` writes. -/
def stepWrites (s : State) (k : Call) : List Span :=
  let a := k.arg
  match routineOf k.rout with
  | none => []
  | some r =>
    let p := stepAt a r k.step
    if k.rout = 9 then (sideA s k.ctx a).spans p.i0 64 p.j0 64 else []

/-- R136, R368. A step accesses words with updates held: their rounds end. None while it must wait in replay. -/
def stepTouch (s : State) (k : Call) : Option State :=
  if s.ms.holds.isEmpty then some s
  else
    let spans := stepReads s k ++ stepWrites s k
    touch s fun p => spans.any fun d => hitSpad d.key d.size p

/-- R217. The address of the first failing word among bytes of the scratchpads. -/
def spansFail (s : State) (l : List Span) : Option Nat :=
  if s.ms.failSpad.isEmpty then none
  else l.findSome? fun d => ((wordsOf d.key d.size).find? fun w => s.ms.failSpad.contains w).map fun w =>
    (d.va + (max (w * 4) d.key - d.key)) % 2 ^ 64

/-- R369. What fails ECC among the operands and accumulator elements that a step reads: MEMUE's two words,
without the slot. -/
def stepFails (s : State) (core : Nat) (k : Call) : Option (W64 × Nat) :=
  let a := k.arg
  match routineOf k.rout with
  | none => none
  | some r =>
    let p := stepAt a r k.step
    match spansFail s (stepReads s k) with
    | some va => some (BitVec.ofNat 64 va, 2)
    | none =>
      if k.rout = 0x0B then none
      else
        ((tileQuads r p.i0 p.j0).flatMap fun q => (List.range 64).map fun i => cellRow a (q.1 + i) q.2).find?
          (rowFails s core) |>.map fun g => (BitVec.ofNat 64 g, 4)

/-- R369, R71. The trap of the enabled flags of a step: the flags, and the first row affected. -/
def stepTrap (x : Ctx) (fs : RowFlags) : Option Trap :=
  let en := (fs.foldl (fun f e => f ||| e.2) 0) &&& ten x
  if en = 0 then none
  else
    let rows := (fs.filter fun e => e.2 &&& ten x != 0).map (·.1)
    some { code := 0x17, info0 := en.setWidth 64, info1 := BitVec.ofNat 64 (rows.foldl min (rows.headD 0)) }

/-- R368. The scratchpads as a step's loaders have read them: each word that was written since they could read it as it is,
or as it was before one of those writes, by an open choice n. -/
def seenWords (fs : List Former) : List Nat → Nat → Memory → Memory
  | [], _, m => m
  | w :: ws, n, m =>
    let olds := (fs.filter fun f => f.word == w).map (·.old)
    let m := match n % (olds.length + 1) with
      | 0 => m
      | i + 1 => wrBytes (4 * w) (natBytes (olds.getD i 0).toNat 4) m
    seenWords fs ws (n / (olds.length + 1)) m

/-- R366, R368. A step works on what its loaders have read of former words and of the scratchpads. -/
def runSeen (s : State) (core : Nat) (k : Call) (fs : List Former) : State × RowFlags :=
  let (n, s) := if fs.isEmpty then (0, s) else s.pick
  let r := runStep { s with ms := { s.ms with spad := seenWords fs (fs.map (·.word)).eraseDups n s.ms.spad } } core k
  ({ r.1 with ms := { s.ms with former := forgetFormer core s.ms.former } }, r.2)

/-- Whether two pieces of bytes meet. -/
def piecesMeet (p q : Nat × List Byte) : Bool := decide (p.1 < q.1 + q.2.length ∧ q.1 < p.1 + p.2.length)

/-- R368, R377. The writes of a step of `acc.st`, each with the cycle of the step, up to its last, in which it is performed: an
open choice n for each, and where `laps` says that rows overlap, none before one that it follows at the same bytes. -/
def timeStores (now cyc : Nat) (laps : Bool) : Nat → List (Nat × Nat × List Byte) → List (Nat × List Byte) →
    List (Nat × Nat × List Byte)
  | _, _, [] => []
  | n, before, p :: t =>
    let w := ((before.filter fun e => piecesMeet e.2 p).foldl (fun m e => max m e.1) (now + n % (cyc + 1)), p)
    w :: timeStores now cyc laps (n / (cyc + 1)) (if laps then w :: before else before) t

def stepStores (s : State) (core : Nat) (k : Call) : List (Nat × List Byte) :=
  match routineOf k.rout with
  | none => []
  | some r =>
    let p := stepAt k.arg r k.step
    if k.rout = 9 then accStores s core k.arg (sideA s k.ctx k.arg) p.i0 p.j0 else []

/-- R136, R368, R377. Performs writes of a step; those that must wait in replay are left, and those behind them. -/
def putStores : List (Nat × List Byte) → List (Nat × Nat × List Byte) → State → List (Nat × Nat × List Byte) × State
  | _, [], s => ([], s)
  | late, w :: t, s =>
    match (if late.any (piecesMeet w.2) then none else spadStore s [w.2]) with
    | some u => putStores late t u
    | none => let r := putStores (w.2 :: late) t s; ((s.cycle + 1, w.2) :: r.1, r.2)

/-- R368. The writes of a core's step that are due in this cycle, or all of them, are performed; what is left comes later. -/
def performStores (s : State) (core : Nat) (all : Bool) : State :=
  match tget s.cr.calls core with
  | none => s
  | some k =>
    let due (w : Nat × Nat × List Byte) : Bool := all || decide (w.1 ≤ s.cycle)
    let r := putStores [] (k.stores.filter due) s
    let left := r.1 ++ k.stores.filter fun w => !due w
    let t := { r.2 with cr := { r.2.cr with calls := tput core { k with stores := left } r.2.cr.calls } }
    match left with
    | [] => t
    | w :: l => t.after (l.foldl (fun m e => min m e.1) w.1) true .matrixStepBegin { a := core, b := 1 }

/-- R366, R368. A step begins: its operands have been read, its products enter the accumulators, and the writes of `acc.st`
take their times. -/
def beginStep (s : State) (core : Nat) (k : Call) (fs : List Former) : State :=
  let r := runSeen s core k fs
  let w := stepStores s core k
  let (n, t) := if w.isEmpty then (0, r.1) else r.1.pick
  let k := { k with begun := true, flags := r.2, stores := timeStores s.cycle k.cyc (k.arg.astr < 8 * tyBits k.arg.at_) n [] w }
  performStores ({ t with cr := { t.cr with calls := tput core k t.cr.calls } }.after (s.cycle + k.cyc) true .matrixStepEnd
    { a := core }) core false

/-- R128, R368. Whether a scratchpad access of an earlier bundle of a call's context is still to be performed. -/
def loadersWait (s : State) (k : Call) : Bool :=
  s.ms.accs.any fun b => b.ctx == k.ctx && decide (b.num < k.num) && (match b.place with
    | .spad _ => true
    | .phys _ => false
    | .line _ _ => false)

/-- R366, R368, R136. A step begins once every scratchpad access of the context's earlier bundles is performed and the
rounds that hold updates of its words have ended: its operands are read and its products formed; a failing word stops the
call before it. Where it has had to wait, its loaders read from then on. Later in the step, writes of `acc.st` are due. -/
def execMatrixStepBegin (s : State) : Host.Outcome State Fault Refusal :=
  let core := s.ev.a
  match tget s.cr.calls core with
  | none => .next s
  | some k =>
    if s.ev.b ≠ 0 then .next (performStores s core false)
    else
      let again := s.after (s.cycle + 1) true .matrixStepBegin { a := core, c := 1 }
      if loadersWait s k then .next again
      else match stepTouch s k with
        | none => .next again
        | some u => match stepFails u core k with
          | some (info, loc) =>
            .next ((stopNow u core k).modCtx k.ctx fun x => { x with pendTrap := some (trapMemue info loc k.slot) })
          | none =>
            .next (beginStep u core k (if s.ev.c = 0 then s.ms.former.filter fun f => f.cores.contains core else []))

/-- R366, R369, R370, R371. A step that has begun ends, its writes performed: its flags enter the flag word; the call
completes, stops, or goes on. -/
def endStep (s : State) (core : Nat) (k : Call) : State :=
  let x := s.ctx k.ctx
  let f := k.flags.foldl (fun f e => f ||| e.2) 0
  let s := (s.modCtx k.ctx fun y => { y with flags := y.flags ||| f.setWidth 32 }).bump k.ctx 8 1
  let k2 := { k with step := k.step + 1, flags := [] }
  match stepTrap x k.flags with
  | some t => (stopNow s core k2).modCtx k.ctx fun y => { y with pendTrap := some t }
  | none =>
    if k.stop ∧ k2.step < k2.steps then stopAsked s core k2
    else if k2.steps ≤ k2.step then endCall s core k2 1 0
    else { s with cr := { s.cr with calls := tput core k2 s.cr.calls } }.after s.cycle true .matrixStepBegin { a := core }

/-- The meaning of MATRIX_STEP_END, for the core that the event names: what the step still has to write is written first,
and in replay it may have to wait (R136). -/
def execMatrixStepEnd (s : State) : Host.Outcome State Fault Refusal :=
  let core := s.ev.a
  match tget s.cr.calls core with
  | none => .next s
  | some k =>
    if ¬ k.begun then .next s
    else
      let t := performStores s core true
      match tget t.cr.calls core with
      | none => .next t
      | some k =>
        if k.stores.isEmpty then .next (endStep t core k)
        else .next (t.after (s.cycle + 1) true .matrixStepEnd { a := core })

/-- R372, R369, R370. The core issues a stopped call of a resumed context again, once it is admitted: from the restored
parameters and ROUT, with FRESH as 0; its slot and its register are those of the trigger. One that fails a check then is
dropped (assumption 141). -/
def reissueCall (c : Nat) (s : State) : State :=
  let x := s.ctx c
  match x.reissue with
  | none => s
  | some old =>
    let rout := old.rout
    let p (i : Nat) : W64 := toW (opnd x (0x340 + i))
    let p7 : W64 := p 7 &&& ~~~4
    let a := mxArg rout (p 0) (p 1) (p 2) (p 3) (p 4) (p 5) (p 6) p7
    let done : State := s.modCtx c fun y => { y with reissue := none }
    match callChecks s c old.slot a with
    | _ :: _ => done
    | [] =>
      if arrayBusy s c then s.holdBundle c .array
      else if callPosted s c a then s.holdBundle c .cluster
      else match mxHold s c (callCost x a) with
      | some (b, t) => t.holdBundle c b
      | none => startCall done c old.slot old.num old.wb rout (p 0) (p 1) (p 2) (p 3) (p 4) (p 5) (p 6) p7

/-- R372. Whether the first turn of a context is a stopped call's. -/
def reissues (x : Ctx) : Bool := x.reissue.any (·.ready)

/-- The meaning of MATRIX_CALL_REISSUE, for the context that the event names. -/
def execMatrixCallReissue (s : State) : Host.Outcome State Fault Refusal :=
  .next ((reissueCall s.ev.a s).modCtx s.ev.a fun x => { x with tried := some s.cycle })

/-! ### The rows of the catalogue: a move to `mx.call` with the routine's number -/

/-- The meaning of `mm.b4`, routine 0x00; and of a number without a routine, which traps. -/
def execMmB4 (m : Mv) (s : State) : Host.Outcome State Fault Refusal := issueOne m (.trig opMxCall) s
/-- The meaning of `mm.f8`, routine 0x01. -/
def execMmF8 (m : Mv) (s : State) : Host.Outcome State Fault Refusal := issueOne m (.trig opMxCall) s
/-- The meaning of `mm.i8`, routine 0x02. -/
def execMmI8 (m : Mv) (s : State) : Host.Outcome State Fault Refusal := issueOne m (.trig opMxCall) s
/-- The meaning of `mm.i16`, routine 0x03. -/
def execMmI16 (m : Mv) (s : State) : Host.Outcome State Fault Refusal := issueOne m (.trig opMxCall) s
/-- The meaning of `mm.h`, routine 0x04. -/
def execMmH (m : Mv) (s : State) : Host.Outcome State Fault Refusal := issueOne m (.trig opMxCall) s
/-- The meaning of `mm.tn`, routine 0x05. -/
def execMmTn (m : Mv) (s : State) : Host.Outcome State Fault Refusal := issueOne m (.trig opMxCall) s
/-- The meaning of `mm.s`, routine 0x06. -/
def execMmS (m : Mv) (s : State) : Host.Outcome State Fault Refusal := issueOne m (.trig opMxCall) s
/-- The meaning of `mm.s3`, routine 0x07. -/
def execMmS3 (m : Mv) (s : State) : Host.Outcome State Fault Refusal := issueOne m (.trig opMxCall) s
/-- The meaning of `acc.ld`, routine 0x08. -/
def execAccLd (m : Mv) (s : State) : Host.Outcome State Fault Refusal := issueOne m (.trig opMxCall) s
/-- The meaning of `acc.st`, routine 0x09. -/
def execAccSt (m : Mv) (s : State) : Host.Outcome State Fault Refusal := issueOne m (.trig opMxCall) s
/-- The meaning of `acc.norm`, routine 0x0A. -/
def execAccNorm (m : Mv) (s : State) : Host.Outcome State Fault Refusal := issueOne m (.trig opMxCall) s
/-- The meaning of `acc.zero`, routine 0x0B. -/
def execAccZero (m : Mv) (s : State) : Host.Outcome State Fault Refusal := issueOne m (.trig opMxCall) s

end Sys2Proof.Machine
end

