-- ==== Sys2Proof/Machine/Sett.lean ====
section
/-! DEFINITION. The Setts of a gain launch (R184 to R191): items, pops and their answers, gains, completions, the
end test, and replay of pops and moves. -/

namespace Sys2Proof.Machine

/-- R164. Header words of a launch. -/
def Launch.word (l : Launch) (k : Nat) : Nat := (l.words.getD k 0).toNat
def Launch.nitems (l : Launch) : Nat := fld (l.word 6) 30 0
def Launch.sdie0 (l : Launch) : Nat := fld (l.word 6) 35 32
def Launch.sdies (l : Launch) : Nat := fld (l.word 6) 40 36
def Launch.fshift (l : Launch) : Nat := fld (l.word 6) 44 41
def Launch.moveMax (l : Launch) : Nat := fld (l.word 6) 60 45
def Launch.floor (l : Launch) : Int := sextInt (l.word 8) 64
def Launch.tol (l : Launch) : Nat := l.word 9

/-- The key of a launch's Sett on a die. -/
def settKey (lid die : Nat) : Nat := lid * 16 + die

/-- R184, R182. The die whose Sett serves a task: its own, or in a deterministic mode the one that its logical
die names among the launch's dies. -/
def settDie (s : State) (c : Nat) : Nat :=
  match s.launchOf c with
  | some l => if modeDet l.mode then l.sdie0 + s.seenDie c % max 1 l.sdies else dieOf c
  | none => dieOf c

def State.setSett (s : State) (k : Nat) (t : Sett) : State := { s with tm := { s.tm with setts := tput k t s.tm.setts } }

/-- R185. Whether an item is eligible. -/
def itemEligible (floor : Int) (i : Item) : Bool := decide (floor < i.gain) && i.runner.isNone && !i.transit

/-- R186. The eligible item of greatest gain, the lowest index among equals. -/
def bestItem (floor : Int) (items : Tab Item) : Option (Nat × Item) :=
  items.foldl (fun best e =>
    if itemEligible floor e.2 then
      match best with
      | none => some e
      | some b => if b.2.gain < e.2.gain ∨ (b.2.gain = e.2.gain ∧ e.1 < b.1) then some e else best
    else best) none

/-- The Sett that holds an item of a launch, by key. -/
def settOfItem (s : State) (lid idx : Nat) : Option (Nat × Sett) :=
  s.tm.setts.find? fun e => e.2.lid == lid && (tget e.2.items idx).isSome

/-- Changes an item wherever it is: in a Sett, or in transit (R190). -/
def modItem (s : State) (lid idx : Nat) (f : Item → Item) : State :=
  let upd (t : Tab Item) : Tab Item := t.map fun e => (e.1, if e.1 = idx then f e.2 else e.2)
  { s with tm := { s.tm with
    setts := s.tm.setts.map fun e => (e.1, if e.2.lid = lid then { e.2 with items := upd e.2.items } else e.2)
    transits := s.tm.transits.map fun t => if t.lid = lid then { t with items := upd t.items } else t } }

/-- The item of an index. -/
def itemOf (s : State) (lid idx : Nat) : Option Item :=
  ((s.tm.setts.filter fun e => e.2.lid == lid).findSome? fun e => tget e.2.items idx) <|>
    ((s.tm.transits.filter fun t => t.lid == lid).findSome? fun t => tget t.items idx)

/-- R191. The next record of pops and moves of a die's log. -/
def settRecord (s : State) (lid die : Nat) : Option LogRec :=
  (((s.log lid die).map (·.replay)).getD []).find? fun r => r.kind == 0x01 || r.kind == 0x02

/-- R191. The items of a MOVE record. -/
def moveItems (r : LogRec) : List Nat := r.entries.map fun e => e.toNat % 2 ^ 30

/-- R191. Whether a logged move can be performed: its items stand in the donor's Sett, and none is running. -/
def moveReady (t : Sett) (r : LogRec) : Bool :=
  (moveItems r).all fun i => ((tget t.items i).map fun x => x.runner.isNone).getD false

/-- R191. Whether a Sett's next record is a move that can be performed. -/
def moveNext (s : State) (key : Nat) (t : Sett) : Bool :=
  match settRecord s (key / 16) (key % 16) with
  | some r => r.kind == 0x02 && moveReady t r
  | none => false

/-- Waiting pops, and a logged move that comes next, are looked at again. -/
def wakeSetts (s : State) (lid : Nat) : State :=
  (s.tm.setts.filter fun e => e.2.lid == lid && (!e.2.waits.isEmpty || moveNext s e.1 e.2)).foldl
    (fun t e => t.after t.cycle false .settPopAnswer { a := e.1 }) s

/-- R188. A gain launch ends with a code, once; what waits at its Setts is looked at again. -/
def settEnd (s : State) (lid code : Nat) : State :=
  match tget s.tm.launches lid with
  | none => s
  | some l =>
    if ¬ modeGain l.mode then s
    else wakeSetts (s.modLaunch lid fun l => { l with endCode := if l.endCode = 0 then code else l.endCode }) lid

/-- R188. Exhausted: no item eligible, running or in transit. -/
def settIdle (s : State) (l : Launch) : Bool :=
  s.tm.setts.all (fun e => e.2.lid != l.lid || e.2.items.all fun i => !itemEligible l.floor i.2 && i.2.runner.isNone && !i.2.transit) &&
    s.tm.transits.all (fun t => t.lid != l.lid || t.items.isEmpty)

/-- R188. The end tests: convergence where it is tested, then exhaustion. -/
def settTest (s : State) (lid : Nat) (conv : Bool) : State :=
  match tget s.tm.launches lid with
  | none => s
  | some l =>
    if l.filled ∧ modeGain l.mode then
      if conv ∧ l.residual < l.tol * 2 ^ 32 then settEnd s lid 1
      else if settIdle s l then settEnd s lid 2
      else wakeSetts s lid
    else s

/-- R187. The residual of an FP32 code in units of 2^-64, and whether it was limited; a signalling NaN too sets SAT alone
(assumption 134). -/
def residualOf (code : Nat) : Nat × Bool :=
  let top := 2 ^ 96 - 1
  match decodeFp .fp32 code with
  | .fin _ n e =>
    let u := (if 0 ≤ e then roundUnits rneMode (n * 2 ^ e.toNat : Nat) 1 (-64)
              else roundUnits rneMode n (2 ^ (-e).toNat) (-64)).toNat
    if top < u then (top, true) else (u, false)
  | .inf _ => (top, true)
  | .nan _ => (top, true)

/-- SAT enters the issuer's flag word. -/
def setSat (s : State) (c : Nat) (on : Bool) : State :=
  if on then s.modCtx c fun x => { x with flags := x.flags ||| fSAT.setWidth 32 } else s

/-- R185. `sgadd`: exact, limited to the 32.32 range. -/
def settAdd (s : State) (c lid idx : Nat) (delta : Int) : State :=
  match itemOf s lid idx with
  | none => s
  | some i =>
    let g := i.gain + delta
    let lim := max (-(2 ^ 63 : Int)) (min (2 ^ 63 - 1) g)
    settTest (setSat (modItem s lid idx fun i => { i with gain := lim }) c (decide (lim ≠ g))) lid false

/-- R185. `sgset`. -/
def settSet (s : State) (lid idx : Nat) (gain : Int) : State :=
  settTest (modItem s lid idx fun i => { i with gain := gain }) lid false

/-- R187, R338. `sdone`: the item has left the held list as the operation issued. -/
def settDone (s : State) (c lid idx code : Nat) : State :=
  match itemOf s lid idx with
  | none => s
  | some i =>
    let r := residualOf code
    let s := setSat s c r.2
    let s := s.modLaunch lid fun l => { l with residual := l.residual - i.residual + r.1 }
    settTest (modItem s lid idx fun i => { i with residual := r.1, runner := none }) lid true

/-! ### Pops (R186, R191) -/

/-- R191. A POP record's entry: the kind of answer, the item, the rank. -/
def popEntry (answer idx rank : Nat) : W64 := BitVec.ofNat 64 (answer * 2 ^ 62 + idx % 2 ^ 30 * 2 ^ 32 + rank)

/-- The value that an answer code lands. -/
def popValue (answer idx : Nat) : W64 :=
  match answer with
  | 0 => BitVec.ofNat 64 idx
  | 1 => 0xFFFFFFFF
  | _ => 0xFFFFFFFE

/-- Drops the head record of a die's pops and moves. -/
def dropSettRecord (s : State) (lid die : Nat) : State :=
  s.modLog lid die fun g => { g with replay := dropFirst (fun r => r.kind == 0x01 || r.kind == 0x02) g.replay }

/-- R186, R191. A pop is answered: logged in MODE 3, where it is not itself replayed, its item marked running and held. -/
def answerPop (s : State) (key : Nat) (w : PopWait) (answer idx : Nat) : State :=
  let lid := key / 16
  let die := key % 16
  let s := if (settRecord s lid die).isSome then dropSettRecord s lid die
    else if lidDet s lid then logAppend s lid die 0x01 0 [popEntry answer idx (s.rank w.ctx)] else s
  let s := if answer = 0 then
      (modItem s lid idx fun i => { i with runner := some w.ctx }).modCtx w.ctx fun x => { x with held := x.held ++ [idx] }
    else s
  sendValue s w.ctx w.dest (some (ofW (popValue answer idx))) 0 0

/-- R190. Moves items between two dies: they are in transit until the receiver inserts them. -/
def settMove (s : State) (lid donor receiver : Nat) (idxs : List Nat) (fresh : Bool) : State :=
  match tget s.tm.setts (settKey lid donor) with
  | none => s
  | some d =>
    let going : Tab Item := idxs.filterMap fun i => (tget d.items i).map fun x => (i, { x with transit := true })
    let s := s.setSett (settKey lid donor) { d with items := d.items.filter fun (e : Nat × Item) => !idxs.contains e.1 }
    let s := { s with tm := { s.tm with
      transits := s.tm.transits ++ [{ lid := lid, donor := donor, receiver := receiver, items := going }] } }
    let s := if fresh ∧ lidDet s lid then
        logAppend s lid donor 0x02 (BitVec.ofNat 64 receiver) (idxs.map (BitVec.ofNat 64 ·)) else s
    let (n, s) := s.delay
    s.after (s.cycle + n) false .receiverInsertsItems { a := lid }

/-- R186, R191. Serves the pops that wait at a Sett, in arrival order, or in replay in the logged one: until its die's log is
exhausted, a pop that no record orders waits. -/
def servePops (key : Nat) : Nat → State → State
  | 0, s => s
  | fuel + 1, s =>
    let lid := key / 16
    let die := key % 16
    match tget s.tm.setts key, tget s.tm.launches lid with
    | some t, some l =>
      match settRecord s lid die with
      | some r =>
        if r.kind = 0x02 then
          if moveReady t r then
            servePops key fuel (settMove (dropSettRecord s lid die) lid die (fld r.site.toNat 3 0) (moveItems r) false)
          else s
        else
          let e := (r.entries.headD 0).toNat
          let ans := fld e 63 62
          let idx := fld e 61 32
          match t.waits.find? fun w => s.rank w.ctx == fld e 31 0 with
          | none => s
          | some w =>
            let ready := if ans = 0 then ((tget t.items idx).map (itemEligible l.floor)).getD false
              else if ans = 1 then l.endCode != 0 else true
            if ready then
              let s := s.setSett key { t with waits := t.waits.erase w }
              servePops key fuel (answerPop s key w ans idx)
            else s
      | none =>
        match t.waits with
        | [] => s
        | w :: rest =>
          if replaying s lid die then s.after (s.cycle + 1) false .settPopAnswer { a := key } else
          let go (ans idx : Nat) : State := answerPop (s.setSett key { t with waits := rest }) key w ans idx
          if l.endCode ≠ 0 then servePops key fuel (go 1 0)
          else match bestItem l.floor t.items with
            | some (i, _) => servePops key fuel (go 0 i)
            | none => match t.waits.find? fun v => v.poll with
              | some v => servePops key fuel (answerPop (s.setSett key { t with waits := t.waits.erase v }) key v 2 0)
              | none => s
    | _, _ => s

/-- Serves what can be served at a Sett. -/
def serveSett (s : State) (key : Nat) : State :=
  let waits := ((tget s.tm.setts key).map (·.waits.length)).getD 0
  let recs := ((s.log (key / 16) (key % 16)).map (·.replay.length)).getD 0
  servePops key (waits + recs + 1) s

/-- R186, R337. A pop or a poll arrives at its die's Sett. A waiting pop stands ahead of a later one, and a poll
that finds no item is answered at once. -/
def popArrive (s : State) (key c : Nat) (dest : Option Dest) (poll : Bool) : State :=
  let lid := key / 16
  match tget s.tm.setts key, tget s.tm.launches lid with
  | some t, some l =>
    let w : PopWait := { ctx := c, dest := dest, poll := poll }
    if poll ∧ ¬ replaying s lid (key % 16) ∧ l.endCode = 0 ∧ (bestItem l.floor t.items).isNone then
      answerPop s key w 2 0
    else serveSett (s.setSett key { t with waits := t.waits ++ [w] }) key
  | _, _ => sendValue s c dest (some 0xFFFFFFFF) 0 0

/-! ### Operations on their way (R337, R428) -/

/-- R184. The Sett that an operation on an item goes to: the one that holds the item, or that will receive it. -/
def settFor (s : State) (lid idx : Nat) : Nat :=
  match settOfItem s lid idx with
  | some e => e.1
  | none => match s.tm.transits.find? fun t => t.lid == lid && (tget t.items idx).isSome with
    | some t => settKey lid t.receiver
    | none => settKey lid 0

/-- R337. Whether two operations of a context arrive in bundle order: they go to one Sett, or name one item. -/
def settOrdered (o p : SettOp) : Bool :=
  p.ctx == o.ctx && (p.key == o.key || (decide (p.kind < 3) && decide (o.kind < 3) && p.idx == o.idx))

/-- R337. A Sett operation goes on its way; it arrives after an open latency, and after those that it is ordered behind. -/
def sendSett (s : State) (o : SettOp) : State :=
  let (n, s) := s.delay
  let at_ := (s.tm.settOps.filter (settOrdered o)).foldl (fun m p => max m p.at_) (s.cycle + n)
  let (id, s) := s.fresh
  { s with tm := { s.tm with settOps := s.tm.settOps ++ [{ o with id := id, at_ := at_ }] } }.after at_ false .settPopAnswer
    { a := o.key, b := 1, c := id }

/-- The operation of a context on an item, or its pop, as it leaves. -/
def settOp (s : State) (c kind idx : Nat) (val : W64) (dest : Option Dest) : SettOp :=
  let lid := bLid (s.board c)
  { id := 0, ctx := c, num := (s.ctx c).bundles, lid := lid, kind := kind, idx := idx, val := val, dest := dest, at_ := 0
    key := if kind < 3 then settFor s lid idx else settKey lid (settDie s c) }

/-- R166, R178, R180, R428. A team that completes counts in TDONE, unless its launch has been ended before: its last member
has exited, and every operation of its members on items has been applied. -/
def countTeam (s : State) (c : Nat) : State :=
  let ms := membersOf (s.ctx c).slot (s.board c)
  if ms.all (fun m => (s.ctx m).run == .exited) && !s.tm.settOps.any fun o => ms.contains o.ctx && decide (o.kind < 3) then
    s.modLaunch (bLid (s.board c)) fun l => if l.down.isNone ∧ l.ending.isNone then { l with tdone := l.tdone + 1 } else l
  else s

/-- R185 to R187. A Sett operation arrives, and its Sett applies it. -/
def settArrive (s : State) (id : Nat) : State :=
  match s.tm.settOps.find? fun o => o.id == id with
  | none => s
  | some o =>
    let s := { s with tm := { s.tm with settOps := s.tm.settOps.erase o } }
    match o.kind with
    | 0 => countTeam (settAdd s o.ctx o.lid o.idx o.val.toInt) o.ctx
    | 1 => countTeam (settSet s o.lid o.idx o.val.toInt) o.ctx
    | 2 => countTeam (settDone s o.ctx o.lid o.idx (o.val.toNat % 2 ^ 32)) o.ctx
    | k => popArrive s o.key o.ctx o.dest (k == 4)

/-- The pops of a context that have not been ordered are gone. -/
def dropPops (t : Teams) (c : Nat) : Teams :=
  { t with
    setts := t.setts.map fun (e : Nat × Sett) => (e.1, { e.2 with waits := e.2.waits.filter fun w => w.ctx != c })
    settOps := t.settOps.filter fun o => o.ctx != c || decide (o.kind < 3) }

/-- The pops of a context that wait, and those on their way. -/
def popsOut (s : State) (c : Nat) : List PopWait :=
  (s.tm.setts.flatMap fun e => e.2.waits.filter fun w => w.ctx == c) ++
    (s.tm.settOps.filter fun o => o.ctx == c && decide (3 ≤ o.kind)).map fun o =>
      { ctx := c, dest := o.dest, poll := o.kind == 4 }

/-- R192. Items that a context popped and has not completed return to not running. -/
def releaseItems (s : State) (c : Nat) : State :=
  let lid := bLid (s.board c)
  let s := (s.ctx c).held.foldl (fun t i => modItem t lid i fun x => { x with runner := none }) s
  let s := { s with tm := dropPops s.tm c }
  settTest (s.modCtx c fun x => { x with held := [] }) lid false

end Sys2Proof.Machine
end

