-- ==== Sys2Proof/Machine/Replay.lean ====
section
/-! DEFINITION. Divergence of a replayed launch (R226): a site's next record names an event that can no longer
arrive. -/

namespace Sys2Proof.Machine

/-- R168. V and SWAP of a Board slot. -/
def bV (b : BitVec 512) : Bool := b.getLsbD 63
def bSwap (b : BitVec 512) : Bool := b.getLsbD 62

/-- The resident team of a launch, by Board slot. -/
def slotOfTeam (s : State) (lid team : Nat) : Option (Nat × BitVec 512) :=
  s.tm.boards.find? fun e => bV e.2 && bLid e.2 == lid && bTeam e.2 == team

/-- Whether a context has ended. -/
def ctxDone (x : Ctx) : Bool := x.run == .exited || x.run == .stopped

/-- R226. Whether the context of a rank has exited: in its team, resident or saved, or with its team. -/
def rankDone (s : State) (lid rank : Nat) : Bool :=
  match tget s.tm.launches lid with
  | none => true
  | some l =>
    let team := rank / max 1 l.teamsz
    let t := rank % max 1 l.teamsz
    match slotOfTeam s lid team with
    | some (key, b) => match (membersOf key b)[t]? with
      | some c => ctxDone (s.ctx c)
      | none => true
    | none =>
      if l.nextTeam ≤ team ∨ l.skipped.contains team ∨ s.tm.placing.any (fun e => bLid e.2 == lid && bTeam e.2 == team) ∨
          s.tm.reserved.any (fun e => e.lid == lid && e.team == team) then false
      else match s.tm.swaps.find? fun v => v.lid == lid && v.team == team with
        | some v => ((v.ctxs[t]?).map fun e => ctxDone e.2).getD true
        | none => true

/-- Whether a logged update or access of a round is still on its way. -/
def entryMissing (s : State) (h : Option HoldBuf) (e : W64) : Bool :=
  !(match h with | some h => h.held.any (fun u => updEntry u == e) || h.entries.contains e | none => false) &&
    !(s.ms.accs.any (fun a => drainEntry a.rank a.num a.slot (e.getLsbD 63) == e) ||
      s.en.writes.any fun w => drainEntry w.rank w.num w.slot (e.getLsbD 63) == e)

/-- R226. Whether a record can no longer be replayed. -/
def recordDead (s : State) (lid die : Nat) (r : LogRec) : Bool :=
  match r.kind with
  | 0x01 => rankDone s lid (fld (r.entries.headD 0).toNat 31 0)
  | 0x03 => rankDone s lid (fld (r.entries.headD 0).toNat 31 0)
  | 0x04 =>
    let h := (s.ms.holds.find? fun e => e.2.lid == lid && e.2.die == die && e.2.site == r.site).map (·.2)
    (r.entries.drop 1).any fun e => rankDone s lid (fld e.toNat 62 32) && entryMissing s h e
  | 0x05 => r.entries.any fun e =>
      rankDone s lid (fld e.toNat 31 0) && !s.ms.tagq.any fun q => bLid (s.board q.ctx) == lid && s.rank q.ctx == fld e.toNat 31 0
  | _ => false

/-- R226, R138. Whether a buffer is owed a returning access that can no longer arrive. -/
def owedDead (s : State) (h : HoldBuf) : Bool :=
  h.owed.any fun e => rankDone s h.lid (fld e.toNat 62 32) && entryMissing s none e

/-- R226. The next record of each site of a die's log. -/
def siteHeads : List (Nat × W64) → List LogRec → List LogRec
  | _, [] => []
  | seen, r :: t =>
    let k : Nat × W64 := if r.kind = 2 then (1, 0) else if r.kind = 1 then (1, 0) else (r.kind, r.site)
    if seen.contains k then siteHeads seen t else r :: siteHeads (k :: seen) t

/-- R226. Kills a launch in replay whose log cannot be followed. -/
def divergeCheck (s : State) (lid : Nat) : State :=
  if (s.tm.logs.any fun g => g.lid == lid && (siteHeads [] g.replay).any (recordDead s lid g.die)) ||
      s.ms.holds.any fun e => e.2.lid == lid && owedDead s e.2 then diverge s lid else s

end Sys2Proof.Machine
end

