-- ==== Sys2Proof/Machine/Badger.lean ====
section
/-! DEFINITION. The patch commands of `ec` (R100 to R123, R398): performed or refused by the home Badger while
the bundle is held, and landing 0 in `ec.st` when it issues. -/

namespace Sys2Proof.Machine

/-- R123. The trap of a line cause. -/
def trapLine (code info0 line sub : Nat) : Trap :=
  { code := code, info0 := BitVec.ofNat 64 info0, info1 := BitVec.ofNat 64 (line % 2 ^ 24 + sub % 16 * 2 ^ 24) }

/-- R123. The information words of a pair of names. -/
def pairInfo (a b : Nat) : Nat := a * 2 ^ 32 + b

/-- A parameter of `ec`. -/
def ecP (k : Nat) (r : Req) (s : State) : W64 := toW (r.port s (0x360 + k))
def ecName (k : Nat) (r : Req) (s : State) : Nat := (ecP k r s).toNat % 2 ^ 32

/-- R100. Fields of the patch control word. -/
def pcKind (v : Nat) : Nat := fld v 1 0
def pcSiding (v : Nat) : Option Nat := if fld v 9 9 = 1 then some (fld v 7 2) else none
def pcAcq (v : Nat) : Bool := fld v 10 10 == 1
def pcRel (v : Nat) : Bool := fld v 11 11 == 1
def pcKeep (v : Nat) : Bool := fld v 15 15 == 1

/-- R100. Where a line operand leads. -/
def lineRoute (k : Nat) (r : Req) (s : State) : Route3 := route s r.c (ecP k r s).toNat 1 1 .line false

/-- R100. The key of the line that an operand names. -/
def lineOf (k : Nat) (r : Req) (s : State) : Nat :=
  match lineRoute k r s with
  | .page _ _ high _ => lineKey high
  | .fault _ _ => 0
  | .miss _ _ => 0
  | .demand _ _ => 0
  | .spad _ _ => 0

/-- R95. A line as its commands see it: one that Zitrum has not created is VACANT. -/
def vacantLine : Line :=
  { st := .vacant, fmt := 0, xlog := 0, cols8 := 0, home := 0, base := [], hash := 0, chain := [], sidings := [],
    names := [], opens := [], producer := none, making := none, waiters := [], written := [], startNames := [] }
def lineAt (s : State) (key : Nat) : Line := (s.line key).getD vacantLine

/-- R227. A launch has written a line; of one that it writes for the first time, the names that the line has had until then
are kept (assumption 131). -/
def Line.touchedBy (l : Line) (lid : Nat) (before : List NameEnt) : Line :=
  { l with
    written := sins lid l.written
    startNames := if (tget l.startNames lid).isSome then l.startNames else tput lid (before.map (·.name)) l.startNames }

/-- R206, R219. A Badger's work of n units is charged; it pauses where its class has used its walk budget, with what it has
been served noted, and the command has then reached its home Badger. -/
def walkGate (r : Req) (s : State) (key n : Nat) (f : State → Commit) : Commit :=
  let die := dieOf r.c
  let comp := key / 2 ^ 24
  let home := homeOf s key
  let left := n - paidAt (s.ctx r.c).paid 2 home
  let units := avail s die comp 2 home
  if 0 < units ∧ left ≤ units then f (takeUnits s die comp 2 home left)
  else
    let t := (takeUnits s die comp 2 home units).modCtx r.c fun x => { x with paid := notePaid 2 home units x.paid }
    .held .patch ((t.noteHeld r.c).want die comp r.c [(2, home, left - units)])

/-- R139. Whether the context's earlier accesses are still to be performed. -/
def earlierOut (r : Req) (s : State) : Bool := outstanding s r.c (s.ctx r.c).bundles

/-- R398, R101. A patch command with its line operands; `acq` and `rel` say whether it uses those fields. -/
def opPatch (operands : List Nat) (acq rel : Bool) (f : Req → State → Commit) : Op where
  unit := 9
  hold := fun r s =>
    if fenceHolds s r.c then some (.fence, s)
    else operands.findSome? fun k => routeHold s r.c (lineRoute k r s)
  checks := fun r s =>
    wbCheck 9 r s ++ operands.flatMap fun k => routeTrap (lineRoute k r s) (ecP k r s).toNat r.slot false
  last := fun r s =>
    let v := r.v.toNat
    if ((acq && pcAcq v) || (rel && pcRel v)) && earlierOut r s then .held .fence s
    else f r s
  effect := fun r s => landResult 9 1 0x290 0 r s

/-- R118. The position of a patch of a chain. -/
def posOf (l : List Patch) (name : Nat) : Option Nat := l.findIdx? fun p => p.name == name

/-- R110, R111. Why a name is not in a chain: squashed, not on the line, or on a siding. -/
def goneSub (l : Line) (name : Nat) : Nat :=
  match nameOf l name with
  | some e => if e.squashed then 0
      else if l.sidings.any (fun t => t.2.any fun p => p.name == name) then 2 else 1
  | none => 1

/-! ### Opening and closing -/

/-- R102. Opens a patch. -/
def doPopen (r : Req) (s : State) : Commit :=
  let key := lineOf 0 r s
  let l := lineAt s key
  let v := r.v.toNat
  let name := ecName 1 r s
  let line0 := (ecP 0 r s).toNat
  let comp := key / 2 ^ 24
  let mine := s.ms.lines.foldl (fun n e => n + (e.2.opens.filter fun o => o.ctx == r.c).length) 0
  if l.st ≠ .live then .trap (trapMem 0x0C 8 line0 r.slot false)
  else if l.fmt ≤ 3 ∧ (pcKind v = 1 ∨ pcKind v = 2) then
    .trap { code := 0x0F, info0 := BitVec.ofNat 64 line0, info1 := BitVec.ofNat 64 (pcKind v + 4 * l.fmt) }
  else if name = 0 then .trap (trapLine 0x11 0 key 1)
  else match l.opens.find? fun o => o.ctx == r.c with
    | some o => .trap (trapLine 0x10 (pairInfo o.name name) key 4)
    | none =>
      if 4 ≤ mine then .trap (trapLine 0x13 line0 key 1)
      else if poolMax s comp < poolUsed s comp + 1 then .trap (trapLine 0x13 line0 key 0)
      else .go (s.setLine key { l with opens := l.opens ++
        [{ ctx := r.c, name := name, kind := pcKind v, siding := pcSiding v, pay := [] }] })

/-- R113. Enters a name. -/
def enterName (l : Line) (name : Nat) (digest : BitVec 256) : Line :=
  { l with names := l.names ++ [{ name := name, digest := digest, squashed := false }] }

/-- R117. Appends to a siding. -/
def putSiding (l : Line) (n : Nat) (p : Patch) : Line :=
  { l with sidings := tput n ((tget l.sidings n).getD [] ++ [p]) l.sidings }

/-- R399. Whether an element that a Freight command has still to write lies on a line. -/
def cmdInto (s : State) (k : Cmd) (key : Nat) : Bool :=
  (List.range (k.total - k.next)).any fun j =>
    let va := (k.target (k.next + j) % 2 ^ 64).toNat
    pathOf va == 0 &&
      (match routeBy (fun comp page => some (walkTables s comp (page * 4096))) s k.ctx va 1 1 .line false with
      | .page _ _ high _ => lineKey high == key
      | .fault _ _ => false
      | .miss _ _ => false
      | .demand _ _ => false
      | .spad _ _ => false)

/-- R103. Whether an access writes into a context's open patch on a line, of a bundle below a number. -/
def intoPatch (c key limit : Nat) (a : Acc) : Bool :=
  a.ctx == c && decide (a.num < limit) && (match a.place with
    | .line k _ => k == key && !a.kind.reads
    | .phys _ => false
    | .spad _ => false)

/-- R103, R105, R399. Whether writes into the context's open patch have still to arrive: those of its earlier bundles, and
those of its Freight commands. -/
def patchWritesOut (s : State) (c key : Nat) : Bool :=
  s.ms.accs.any (intoPatch c key (s.ctx c).bundles) ||
  s.en.writes.any (fun e => e.ctx == c && (match e.place with
    | .line k _ => k == key
    | .phys _ => false
    | .spad _ => false)) ||
  s.en.cmds.any fun k => k.ctx == c && k.op.freight && k.status.isNone && cmdInto s k key

/-- R103, R105. The writes of the close's own bundle, from lower slots, arrive before it. -/
def ownWritesIn (s : State) (c key : Nat) : State :=
  let l := lineAt s key
  let own (a : Acc) : Bool := intoPatch c key ((s.ctx c).bundles + 1) a && a.num == (s.ctx c).bundles
  let gs := pendingGrans { s with ms := { s.ms with accs := s.ms.accs.filter own } } key l c ((s.ctx c).bundles + 1)
  let t := { s with ms := { s.ms with accs := s.ms.accs.filter fun a => !own a } }
  if gs.isEmpty then s
  else t.setLine key { l with opens := l.opens.map fun o => if o.ctx = c then { o with pay := granPutAll gs o.pay } else o }

/-- R119, R226. Whether replay lets a direct close be performed now; a close of the logged rank under another
name is a divergence. -/
def closeTurn (s : State) (lid die key name rank : Nat) : Option Bool :=
  match nextRecord s lid die 0x03 (BitVec.ofNat 64 key) with
  | none => some true
  | some r =>
    let e := (r.entries.headD 0).toNat
    if fld e 31 0 ≠ rank then none else some (fld e 63 32 == name)

/-- R105. Closes the context's open patch. -/
def doPclose (r : Req) (s0 : State) : Commit :=
  let key := lineOf 0 r s0
  let line0 := (ecP 0 r s0).toNat
  let s := ownWritesIn s0 r.c key
  let l := lineAt s key
  match l.opens.find? fun o => o.ctx == r.c with
  | none => .trap (trapMem 0x0E 0 line0 r.slot false)
  | some o =>
    if patchWritesOut s r.c key then .held .patch s0
    else
      let d := digestOf o.kind o.pay
      let p : Patch := { name := o.name, kind := o.kind, pay := o.pay, digest := d }
      let freed := { l with opens := l.opens.filter fun q => q.ctx != r.c }
      let lid := bLid (s.board r.c)
      match nameOf l o.name with
      | some e =>
        if e.digest = d then .go (s.setLine key freed)
        else .trap (trapLine 0x11 o.name key 0)
      | none =>
        match o.siding with
        | some n =>
          if 65535 ≤ ((tget l.sidings n).getD []).length then .trap (trapLine 0x13 line0 key 2)
          else walkGate r s key 1 fun t =>
            .go (t.setLine key ((putSiding (enterName freed o.name d) n p).touchedBy lid l.names))
        | none =>
          if 65535 ≤ l.chain.length then .trap (trapLine 0x13 line0 key 2)
          else
            let die := l.home / 4
            let rank := s.rank r.c
            let det := lidDet s lid
            match (if det then closeTurn s lid die key o.name rank else some true) with
            | none => .held .patch s0
            | some false => .held .patch (diverge s0 lid)
            | some true =>
              walkGate r s key 1 fun t =>
                let t := t.setLine key ({ enterName freed o.name d with chain := l.chain ++ [p] }.touchedBy lid l.names)
                if det then
                  .go (logEvent t lid die 0x03 (BitVec.ofNat 64 key)
                    [BitVec.ofNat 64 (o.name * 2 ^ 32 + rank)])
                else .go t

/-! ### Reordering and removing -/

/-- R110. Swaps two adjacent patches. -/
def doPcomm (r : Req) (s : State) : Commit :=
  let key := lineOf 0 r s
  let l := lineAt s key
  let a := ecName 1 r s
  let b := ecName 2 r s
  match posOf l.chain a, posOf l.chain b with
  | none, _ => .trap (trapLine 0x12 a key (goneSub l a))
  | some _, none => .trap (trapLine 0x12 b key (goneSub l b))
  | some i, some j =>
    if j ≠ i + 1 then .trap (trapLine 0x10 (pairInfo a b) key 5)
    else match l.chain[i]?, l.chain[j]? with
      | some p, some q =>
        if ¬ commutes p q then .trap (trapLine 0x10 (pairInfo a b) key 0)
        else walkGate r s key 2 fun t =>
          .go (t.setLine key ({ l with chain := l.chain.take i ++ [q, p] ++ l.chain.drop (i + 2) }.touchedBy (bLid (s.board r.c)) l.names))
      | _, _ => .go s

/-- R111. Removes a patch of a chain and its name. -/
def removePatch (l : Line) (name : Nat) : Line :=
  { l with chain := l.chain.filter (fun p => p.name != name), names := l.names.filter fun e => e.name != name }

/-- R111. Inverts a patch. -/
def doPinv (r : Req) (s : State) : Commit :=
  let key := lineOf 0 r s
  let l := lineAt s key
  let a := ecName 1 r s
  match posOf l.chain a with
  | none => .trap (trapLine 0x12 a key (goneSub l a))
  | some i =>
    match l.chain[i]? with
    | none => .go s
    | some p =>
      match (l.chain.drop (i + 1)).find? fun q => !commutes p q with
      | some q => .trap (trapLine 0x10 (pairInfo a q.name) key 1)
      | none => walkGate r s key 1 fun t => .go (t.setLine key ((removePatch l a).touchedBy (bLid (s.board r.c)) l.names))

/-! ### Between lines -/

/-- R115. Whether two lines differ in geometry. -/
def geometryDiffers (k1 k2 : Nat) (a b : Line) : Bool :=
  k1 / 2 ^ 24 != k2 / 2 ^ 24 || a.fmt != b.fmt || a.xlog != b.xlog || a.cols8 != b.cols8

/-- R120, R123. PPOOL of a copy into a line whose pool lacks the units: the record names the target's operand
(assumption 47). -/
def trapPool (line0 key : Nat) : Trap := trapLine 0x13 line0 key 0

/-- R115. Makes the target LIVE with the source's base and the first patches of its chain. Where the record has one line
operand to name, PROT 0x9 names the source, and PROT 0x8 the source before the target (assumption 106). -/
def doPfork (r : Req) (s : State) : Commit :=
  let ks := lineOf 0 r s
  let kt := lineOf 1 r s
  let a := lineAt s ks
  let b := lineAt s kt
  let name := ecName 2 r s
  let src := (ecP 0 r s).toNat
  let tgt := (ecP 1 r s).toNat
  if a.st ≠ .live then .trap (trapMem 0x0C 8 src r.slot false)
  else if b.st = .live then .trap (trapMem 0x0C 8 tgt r.slot false)
  else if geometryDiffers ks kt a b then .trap (trapMem 0x0C 9 src r.slot false)
  else match (if name = 0 then some 0 else (posOf a.chain name).map (· + 1)) with
    | none =>
      .trap (trapLine 0x12 name ks (match nameOf a name with
        | some e => if e.squashed then 0 else 1
        | none => 1))
    | some k =>
      let ps := a.chain.take k
      let made := { b with
        st := .live, base := a.base, hash := a.hash, chain := ps, sidings := []
        names := ps.map fun (p : Patch) => ({ name := p.name, digest := p.digest, squashed := false } : NameEnt) }
      if poolShort s (s.setLine kt made) (kt / 2 ^ 24) then .trap (trapPool tgt kt)
      else walkGate r s kt k fun t => .go (t.setLine kt (made.touchedBy (bLid (s.board r.c)) b.names))

/-- R116. Copies a patch to the tip of another line. Its record names the source for PROT 0x9, and for PROT 0x8 the target
before the source, in the order of check 1 (assumption 106). -/
def doPxpl (r : Req) (s : State) : Commit :=
  let ka := lineOf 0 r s
  let kb := lineOf 2 r s
  let a := lineAt s ka
  let b := lineAt s kb
  let name := ecName 1 r s
  let src := (ecP 0 r s).toNat
  let tgt := (ecP 2 r s).toNat
  if b.st ≠ .live then .trap (trapMem 0x0C 8 tgt r.slot false)
  else if a.st ≠ .live then .trap (trapMem 0x0C 8 src r.slot false)
  else if geometryDiffers ka kb a b then .trap (trapMem 0x0C 9 src r.slot false)
  else match posOf a.chain name with
    | none => .trap (trapLine 0x12 name ka (goneSub a name))
    | some i =>
      let k := forkPoint a b
      if i < k then .go s
      else match a.chain[i]? with
        | none => .go s
        | some p =>
          match ((a.chain.take i).drop k).find? fun q => !commutes p q with
          | some q => .trap (trapLine 0x10 (pairInfo name q.name) ka 2)
          | none =>
            match (b.chain.drop k).find? fun q => !commutes p q with
            | some q => .trap (trapLine 0x10 (pairInfo name q.name) kb 3)
            | none =>
              match nameOf b name with
              | some e => if e.digest = p.digest then .go s else .trap (trapLine 0x11 name kb 0)
              | none =>
                if 65535 ≤ b.chain.length then .trap (trapLine 0x13 tgt kb 2)
                else
                  let made := { enterName b name p.digest with chain := b.chain ++ [p] }
                  if poolShort s (s.setLine kb made) (kb / 2 ^ 24) then .trap (trapPool tgt kb)
                  else walkGate r s kb 1 fun t => .go (t.setLine kb (made.touchedBy (bLid (s.board r.c)) b.names))

/-! ### Sidings, squash, producers -/

/-- R118. Moves the patches of a list onto the chain: the line, the patches left, and the name that stopped it
(with the trap's subcode and code). -/
def foldList (l : Line) : List Patch → Line × List Patch × Option (Nat × Nat × Nat)
  | [] => (l, [], none)
  | p :: t =>
    let onChain := l.chain.find? fun q => q.name == p.name
    let kept := l.names.find? fun e => e.name == p.name && e.squashed
    match onChain.map (·.digest) <|> kept.map (·.digest) with
    | some d => if d = p.digest then foldList l t else (l, p :: t, some (0x11, p.name, 0))
    | none =>
      if 65535 ≤ l.chain.length then (l, p :: t, some (0x13, p.name, 2))
      else foldList { l with chain := l.chain ++ [p] } t

/-- R118. Folds the sidings of a mask, in increasing number. -/
def foldSidings (mask : Nat) : List Nat → Line → Line × Option (Nat × Nat × Nat)
  | [], l => (l, none)
  | n :: t, l =>
    if mask.testBit n then
      let f := foldList l ((tget l.sidings n).getD [])
      let l := { f.1 with sidings := if f.2.1.isEmpty then tdel n l.sidings else tput n f.2.1 l.sidings }
      match f.2.2 with
      | some e => (l, some e)
      | none => foldSidings mask t l
    else foldSidings mask t l

/-- R118. `pfold`. -/
def doPfold (r : Req) (s : State) : Commit :=
  let key := lineOf 0 r s
  let l := lineAt s key
  let mask := (ecP 1 r s).toNat
  let f := foldSidings mask (List.range 64) l
  let n := f.1.chain.length - l.chain.length
  if f.1 = l then (match f.2 with
    | none => .go s
    | some (code, name, sub) => .trap (trapLine code (if code = 0x11 then name else (ecP 0 r s).toNat) key sub))
  else walkGate r s key n fun t =>
    let t := t.setLine key (f.1.touchedBy (bLid (s.board r.c)) l.names)
    match f.2 with
    | none => .go t
    | some (code, name, sub) =>
      .refuse (trapLine code (if code = 0x11 then name else (ecP 0 r s).toNat) key sub) t

/-- R229. The step of a launch can no longer be undone. -/
def markNoUndo (s : State) (lid : Nat) : State := s.modLaunch lid fun l => { l with noUndo := true }

/-- R229. A line loses the patches of its chain: the issuing launch's step can no longer be undone, nor can one that has
recorded any of them, whatever launch it is of. -/
def markLost (s : State) (lid : Nat) (l : Line) : State :=
  l.startNames.foldl (fun t e => if l.written.contains e.1 && l.chain.any fun p => !e.2.contains p.name then markNoUndo t e.1 else t) (markNoUndo s lid)

/-- R112. `psq`. -/
def doPsq (r : Req) (s : State) : Commit :=
  let key := lineOf 0 r s
  let l := lineAt s key
  if l.st ≠ .live then .trap (trapMem 0x0C 8 (ecP 0 r s).toNat r.slot false)
  else if l.chain.isEmpty then .go s
  else walkGate r s key l.chain.length fun t =>
    let base := squashedBase l
    let inChain (n : Nat) : Bool := l.chain.any fun p => p.name == n
    let names := if pcKeep r.v.toNat then l.names.map fun e => if inChain e.name then { e with squashed := true } else e
      else l.names.filter fun e => !inChain e.name
    .go (markLost (t.setLine key ({ l with base := base, hash := baseHash l.fmt l.xlog base, chain := [], names := names }.touchedBy (bLid (s.board r.c)) l.names)) (bLid (s.board r.c)) l)

/-- R121. `preg`: the line's state, then the handle. A handle on another path than 0x0 raises PROT 0x6 (assumption 108). -/
def handleRoute (r : Req) (s : State) : Route3 := headerRoute s r.c (ecP 1 r s).toNat .handle
def doPreg (r : Req) (s : State) : Commit :=
  let key := lineOf 0 r s
  let l := lineAt s key
  if l.st ≠ .live then .trap (trapMem 0x0C 8 (ecP 0 r s).toNat r.slot false)
  else match handleRoute r s with
    | .fault code sub => .trap (trapMem code sub (ecP 1 r s).toNat r.slot false)
    | .miss comp page => .held .walk (startWalk s r.c comp page)
    | .demand comp page => .held .walk (startDemand s r.c comp page)
    | .spad _ _ => .go s
    | .page _ _ _ ta => .go (s.setLine key { l with producer := some (BitVec.ofNat 64 ta) })

/-- R206. Patches that a line's chain and sidings hold. -/
def heldPatches (l : Line) : Nat := l.sidings.foldl (fun n e => n + e.2.length) l.chain.length

/-- R121. `pdrop`. -/
def doPdrop (r : Req) (s : State) : Commit :=
  let key := lineOf 0 r s
  let l := lineAt s key
  if l.st ≠ .live then .go s
  else walkGate r s key (heldPatches l) fun t => .go (markLost (t.setLine key ({ l with
    st := if l.producer.isSome then .dropped else .vacant
    base := [], hash := 0, chain := [], sidings := [], names := [], opens := [] }.touchedBy (bLid (s.board r.c)) l.names)) (bLid (s.board r.c)) l)

/-- R105. The open patches of a context are discarded. -/
def discardOpens (s : State) (c : Nat) : State :=
  { s with ms := { s.ms with lines := s.ms.lines.map fun (e : Nat × Line) =>
    (e.1, { e.2 with opens := e.2.opens.filter fun o => o.ctx != c }) } }

/-! ### The operations -/

/-- R102. Opens a patch. -/
def opEcPopen : Op := opPatch [0] true false doPopen

/-- The meaning of `ec.popen`. -/
def execEcPopen (m : Mv) (s : State) : Host.Outcome State Fault Refusal := issueOne m (.trig opEcPopen) s

/-- R105. Closes a patch. -/
def opEcPclose : Op := opPatch [0] false true doPclose

/-- The meaning of `ec.pclose`. -/
def execEcPclose (m : Mv) (s : State) : Host.Outcome State Fault Refusal := issueOne m (.trig opEcPclose) s

/-- R110. Swaps two patches. -/
def opEcPcomm : Op := opPatch [0] false false doPcomm

/-- The meaning of `ec.pcomm`. -/
def execEcPcomm (m : Mv) (s : State) : Host.Outcome State Fault Refusal := issueOne m (.trig opEcPcomm) s

/-- R111. Removes a patch. -/
def opEcPinv : Op := opPatch [0] false true doPinv

/-- The meaning of `ec.pinv`. -/
def execEcPinv (m : Mv) (s : State) : Host.Outcome State Fault Refusal := issueOne m (.trig opEcPinv) s

/-- R115. Forks a line. -/
def opEcPfork : Op := opPatch [0, 1] false false doPfork

/-- The meaning of `ec.pfork`. -/
def execEcPfork (m : Mv) (s : State) : Host.Outcome State Fault Refusal := issueOne m (.trig opEcPfork) s

/-- R116. Transplants a patch. -/
def opEcPxpl : Op := opPatch [0, 2] false false doPxpl

/-- The meaning of `ec.pxpl`. -/
def execEcPxpl (m : Mv) (s : State) : Host.Outcome State Fault Refusal := issueOne m (.trig opEcPxpl) s

/-- R118. Folds sidings. -/
def opEcPfold : Op := opPatch [0] false true doPfold

/-- The meaning of `ec.pfold`. -/
def execEcPfold (m : Mv) (s : State) : Host.Outcome State Fault Refusal := issueOne m (.trig opEcPfold) s

/-- R112. Squashes the chain. -/
def opEcPsq : Op := opPatch [0] false false doPsq

/-- The meaning of `ec.psq`. -/
def execEcPsq (m : Mv) (s : State) : Host.Outcome State Fault Refusal := issueOne m (.trig opEcPsq) s

/-- R121. Registers a producer. -/
def opEcPreg : Op := opPatch [0] false false doPreg

/-- The meaning of `ec.preg`. -/
def execEcPreg (m : Mv) (s : State) : Host.Outcome State Fault Refusal := issueOne m (.trig opEcPreg) s

/-- R121. Drops a line. -/
def opEcPdrop : Op := opPatch [0] false false doPdrop

/-- The meaning of `ec.pdrop`. -/
def execEcPdrop (m : Mv) (s : State) : Host.Outcome State Fault Refusal := issueOne m (.trig opEcPdrop) s

end Sys2Proof.Machine
end

