-- ==== Sys2Proof/Machine/Engine.lean ====
section
/-! DEFINITION. What Freight and Shuttle share (R94, R381 to R384, R388): the life of a data command, and the reads
and writes of an engine with the failures that stop a command. -/

namespace Sys2Proof.Machine

/-- The command of a number. -/
def cmdOf (s : State) (id : Nat) : Option Cmd := s.en.cmds.find? fun k => k.id == id

/-- Changes a command. -/
def modCmd (s : State) (id : Nat) (f : Cmd → Cmd) : State :=
  { s with en := { s.en with cmds := s.en.cmds.map fun k => if k.id = id then f k else k } }

/-- R383. A failure: status, subcode and second entry. -/
abbrev Fail := Nat × Nat × W64

/-- R384. Bytes of a command of a context performed at the scopes ctx to pkg, and at sys. -/
def cmdPerformed (s : State) (id c n m : Nat) : State :=
  (modCmd s id fun k => { k with left := k.left - n, leftSys := k.leftSys - m }).modCtx c fun x =>
    { x with pend := pendPart x.pend n m }

/-- R382, R132. A command has stopped, or has issued its last write: it will retire with a status. The writes that it has
issued go on, but hold no MALIAS access once it has failed. -/
def cmdStop (s : State) (id : Nat) (f : Fail) : State :=
  let t := modCmd s id fun c => { c with status := c.status <|> some f }
  { t with en := { t.en with writes := t.en.writes.map fun (w : EngWrite) =>
    if w.cmd = id ∧ f.1 ≠ 0 then { w with stopped := true } else w } }.after s.cycle false .dataCommandRetire { a := id }

/-- R380, R141. Whether a command may begin: CHAIN, once the previous one to its engine has retired, and ACQ. -/
def cmdReady (s : State) (k : Cmd) : Bool :=
  (!cwChain k.ctl || (k.prev.bind fun p => cmdOf s p).isNone) &&
  (!cwAcq k.ctl || !outstanding s k.ctx k.num)

/-- R382, R383. The status word of a command. -/
def statusWord (k : Cmd) (status sub : Nat) : W64 :=
  BitVec.ofNat 64 (status * 2 ^ 56 + k.flags.toNat % 32 * 2 ^ 48 + sub % 256 * 2 ^ 40 + cwTag k.ctl * 2 ^ 32 + k.seq.toNat)

/-- R335, R336. An engine pushes an entry; reads of the queue made in this cycle see it. -/
def enginePush (x : Ctx) (q : Nat) (v : W64) (cycle : Nat) : Ctx :=
  let y := setQueue x q (queueOf x q ++ [v])
  let fresh (a : Land) : Land := match a with
    | .queue peek n _ d => if n = q then .queue peek n
        (if peek then (queueOf y q).headD 0 else BitVec.ofNat 64 (queueOf y q).length) d else a
    | .port _ _ => a
    | .reg _ _ => a
    | .xbase _ _ => a
    | .view _ _ => a
    | .flags _ => a
  { y with flights := y.flights.map fun f => if f.due = cycle + 2 then { f with acts := f.acts.map fresh } else f }

/-- The number under which an open patch of a team that is away stands: contexts are numbered below 9,216. -/
def awayKey (lid team c : Nat) : Nat := c + 9216 * (lid * 2 ^ 32 + team + 1)

/-- Renumbers the contexts of open patches. -/
def mapOpens (f : Nat → Nat) (s : State) : State :=
  { s with ms := { s.ms with lines := s.ms.lines.map fun (e : Nat × Line) =>
    (e.1, { e.2 with opens := e.2.opens.map fun (o : OpenPatch) => { o with ctx := f o.ctx } }) } }

/-- R176. The open patches of a team that comes back stand under its contexts; those of a team that stands there
meanwhile do not. -/
def opensBack (lid team : Nat) (cs : List Nat) (n : Nat) : Nat :=
  if cs.contains n then n + 9216 * 2 ^ 64
  else match cs.find? fun c => awayKey lid team c == n with
    | some c => c
    | none => n

/-- The reverse. -/
def opensAway (lid team : Nat) (cs : List Nat) (n : Nat) : Nat :=
  if cs.contains n then awayKey lid team n
  else match cs.find? fun c => c + 9216 * 2 ^ 64 == n with
    | some c => c
    | none => n

/-- R222. Acts on a saved team as on a resident one: its windows, tags, contexts and Board record stand in place,
and what they have become is saved again. -/
def inSaved (s : State) (v : Saved) (f : State → State) : State :=
  let cs := v.ctxs.map (·.1)
  let s := mapOpens (opensBack v.lid v.team cs) s
  let here (e : Nat × HoldBuf) : Bool := decide (e.1 / 2 ^ 16 < 8192)
  let t := f { s with
    ctxs := v.ctxs.foldl (fun m e => tput e.1 e.2 m) s.ctxs
    ms := { s.ms with spad := v.spad, full := v.full, failSpad := v.bad, holds := s.ms.holds.filter here }
    tm := { s.tm with boards := tput v.key v.word s.tm.boards } }
  let w := { v with spad := t.ms.spad, full := t.ms.full, bad := t.ms.failSpad, ctxs := v.ctxs.map fun e => (e.1, t.ctx e.1) }
  mapOpens (opensAway v.lid v.team cs) { t with
    ctxs := s.ctxs
    ms := { t.ms with
      spad := s.ms.spad, full := s.ms.full, failSpad := s.ms.failSpad, former := s.ms.former
      holds := t.ms.holds ++ s.ms.holds.filter fun e => !here e }
    tm := { t.tm with
      boards := s.tm.boards
      swaps := t.tm.swaps.map fun u => if u.lid = v.lid ∧ u.team = v.team then w else u } }

/-- R222. Acts where the team of a command is: resident, or saved. -/
def withTeam (s : State) (k : Cmd) (f : State → State) : State :=
  if k.parked ∨ k.withdrawn then
    match s.tm.swaps.find? fun v => v.lid == k.lid && v.team == k.team with
    | some v => inSaved s v f
    | none => f s
  else f s

/-- R384. Bytes of the writes that a command has issued and that are still to be performed. -/
def flyingBytes (s : State) (id : Nat) : Nat := (s.en.writes.filter fun w => w.cmd == id).foldl (fun n w => n + w.count) 0

/-- R384, R228. A command retires: with a status other than DONE its unperformed bytes leave the counters, while those of
a DONE one leave them as they are performed; and a lost link abandons the step of a deterministic launch. -/
def cmdGone (s : State) (k : Cmd) : State :=
  let status := (k.status.map (·.1)).getD 0
  let gone := if k.withdrawn then k.len else 0
  let fly := if status = 0 then flyingBytes s k.id else 0
  let s := s.modCtx k.ctx fun x => { x with pend := pendPart x.pend (k.left - gone - fly) (k.leftSys - gone - fly) }
  let s := { s with en := { s.en with
    cmds := s.en.cmds.filter fun c => c.id != k.id
    writes := if status = 0 then s.en.writes
      else s.en.writes.map fun w => if w.cmd = k.id then { w with count := 0 } else w } }
  if status = 0x09 ∧ lidDet s k.lid then s.askAbandon k.lid 0x09 else s

/-- R382, R335. Pushes the entries of a status; those for which the queue has no room wait at the engine. -/
def pushEntries (s : State) (c q : Nat) : List W64 → State × List W64
  | [] => (s, [])
  | v :: t =>
    if 16 ≤ (queueOf (s.ctx c) q).length then (s, v :: t)
    else pushEntries (s.modCtx c fun x => enginePush x q v s.cycle) c q t

/-- The status of a command is posted, and the command retires when its last entry is. -/
def postStatus (s : State) (k : Cmd) (entries : List W64) : State :=
  let (s, rest) := pushEntries s k.ctx (cwQueue k.ctl) entries
  if rest.isEmpty then cmdGone s k
  else
    let w : StatusWait := { ctx := k.ctx, cmd := k.id, queue := cwQueue k.ctl, entries := rest }
    let s := { s with en := { s.en with statusWaits := s.en.statusWaits ++ [w] } }
    s.after (s.cycle + 1) false .statusPushWait { a := k.id }

/-- R403. Whether the task of a command has ended: its statuses are discarded. -/
def taskEnded (s : State) (k : Cmd) : Bool := (s.ctx k.ctx).run == .exited || (s.ctx k.ctx).run == .stopped

/-- R382, R141, R403. A command reaches its completion point: with REL once its own writes and the context's earlier
accesses are performed, and without REL as its last write is issued. The status of an exited task is discarded. -/
def retireCmd (s : State) (id : Nat) : State :=
  match cmdOf s id with
  | none => s
  | some k =>
    match k.status with
    | none => s
    | some (st, sub, second) => withTeam s k fun s =>
      if cwRel k.ctl ∧ (outstanding s k.ctx k.num ∨ s.en.writes.any fun w => w.cmd == id) then s.after (s.cycle + 1) false .dataCommandRetire { a := id }
      else if ¬ cwQen k.ctl ∨ taskEnded s k then cmdGone s k
      else postStatus s k (if st = 0 then [statusWord k st sub] else [statusWord k st sub, second])

/-- R335, R403. A waiting status is tried again; one of a task that has ended since is discarded. -/
def retryStatus (s : State) (id : Nat) : State :=
  match s.en.statusWaits.find? fun w => w.cmd == id, cmdOf s id with
  | some w, some k => withTeam s k fun s =>
    let s := { s with en := { s.en with statusWaits := s.en.statusWaits.filter fun v => v.cmd != id } }
    if taskEnded s k then cmdGone s k else postStatus s k w.entries
  | _, _ => s

/-! ### Reads and writes of an engine (R388) -/

/-- What an engine's access comes to: bytes or a state, a failure, or a wait. -/
inductive Eng (α : Type) where
  | ok (v : α)
  | fail (f : Fail)
  | wait (s : State)

/-- R383. The failure of a check of R88 at an address. -/
def failOf (code sub va : Nat) : Fail :=
  ((if code = 0x0B then 2 else if code = 0x0C then 3 else 4), sub, BitVec.ofNat 64 va)

/-- R94, R91. The translation that the die's walker has answered to a command, for as long as its burst or chunk lasts. -/
def engLook (k : Cmd) (comp page : Nat) : Option WalkAns :=
  (k.walked.find? fun e => e.1 == comp && e.2.1 == page).map fun e => match e.2.2 with
    | .fault sub _ => .fault sub (k.declined.contains page)
    | .desc low high level => .desc low high level

/-- R91. A command's miss goes to its die's walker. -/
def engWalk (s : State) (k : Cmd) (comp page : Nat) : State := startWalkBy s (dieOf k.ctx) (2 ^ 20 + k.id) comp page

/-- R386. The address of an element, which keeps the path of its base. -/
def engAddr (base : W64) (a : Int) : Nat × Option Fail :=
  let va := (a % 2 ^ 64).toNat
  if a < 0 ∨ (2 ^ 64 : Int) ≤ a ∨ pathOf va ≠ pathOf base.toNat then
    (va, some (3, if 4 ≤ pathOf va then 1 else 2, BitVec.ofNat 64 va))
  else (va, none)

/-- R94, R388. The route of an engine's access. An address of Shuttle on path 0x1, which R392 does not allow, stops the
command at once with PROT 0x6 (assumption 109). -/
def engRoute (s : State) (k : Cmd) (va size align : Nat) (write vh : Bool) : Route3 :=
  if ¬ k.op.freight ∧ pathOf va = 1 then .fault 0x0C 6
  else routeBy (engLook k) s k.ctx va size align (if write then .ewrite else .eread) vh

/-- Who performs an engine's access. -/
def Cmd.who (k : Cmd) (s : State) : Who := { c := k.ctx, lid := k.lid, rank := s.rank k.ctx, num := k.num, slot := k.slot }

/-- R122, R388. A read of a DROPPED line waits for its producer. -/
def engDropped (s : State) (k : Cmd) (key va : Nat) (l : Line) : Eng (List Byte) :=
  if k.recomp then .fail (7, 0, BitVec.ofNat 64 va)
  else
    let s1 := s.setLine key { l with waiters := sins (2 ^ 20 + k.id) l.waiters, making := l.making <|> some 0 }
    .wait (if l.making.isNone then s1.after s.cycle false .producerLaunch { a := key } else s1)

/-- R122, R388. Bytes that an engine reads at a route; `read` takes them from a LIVE line, and `beside` lists the other
bytes of the line region that are read with them (offset and size). A command that has waited for a producer in vain
stops with RECOMPUTE, whatever the line's state. -/
def engRead (s : State) (k : Cmd) (va size : Nat) (rt : Route3) (read : Line → Nat → List Byte)
    (beside : Line → Nat → List (Nat × Nat) := fun _ _ => []) : Eng (List Byte) :=
  let a64 := BitVec.ofNat 64 va
  match rt with
  | .fault code sub => .fail (failOf code sub va)
  | .miss comp page => .wait (engWalk s k comp page)
  | .demand comp page => .wait (startDemand s (2 ^ 20 + k.id) comp page)
  | .spad a _ =>
    match touch s (hitSpad a size) with
    | none => .wait s
    | some t => match spadRead t a size with
      | none => .fail (8, 2, a64)
      | some bs => .ok bs
  | .page pa low high ta =>
    if dKind low = kLined then
      let key := lineKey high
      let l := lineAt s key
      match l.st with
      | .vacant => if k.recomp then .fail (7, 0, a64) else .fail (3, 8, a64)
      | .dropped => engDropped s k key va l
      | .live =>
        let off := regionOff high ta
        if k.recomp then .fail (7, 0, a64)
        else if l.waiters.contains (2 ^ 20 + k.id) then .wait s
        else match (linedFail s k.comp ta size) <|> (beside l off).findSome? fun e => linedFail s k.comp (ta - off + e.1) e.2 with
          | some loc => .fail (8, loc, a64)
          | none => .ok (read l off)
    else match touch s (hitPhys pa size) with
      | none => .wait s
      | some t => match physRead t pa size with
        | none => .fail (8, physLoc pa, a64)
        | some bs => .ok bs

/-- R136. The drains that an engine's read brings about. -/
def engTouch (s : State) (rt : Route3) (size : Nat) : State :=
  match rt with
  | .spad a _ => (touch s (hitSpad a size)).getD s
  | .page pa _ _ _ => (touch s (hitPhys pa size)).getD s
  | .fault _ _ => s
  | .miss _ _ => s
  | .demand _ _ => s

/-! ### Writes on their way (R125, R141, R390, R391) -/

/-- The write of a number. -/
def writeOf (s : State) (id : Nat) : Option EngWrite := s.en.writes.find? fun w => w.id == id

/-- A write that an engine issues for a command. -/
def newWrite (s : State) (k : Cmd) (place : Place) (bs : List Byte) (gs : List Gran) (fill : List Nat) (count : Nat) : EngWrite :=
  { id := s.nextId, cmd := k.id, ctx := k.ctx, lid := k.lid, team := k.team, rank := s.rank k.ctx, num := k.num, slot := k.slot
    place := place, bytes := bs, grans := gs, fill := fill, count := count, done := 0, stopped := false }

/-- Adds a write to those on their way. -/
def addWrite (s : State) (k : Cmd) (place : Place) (bs : List Byte) (gs : List Gran) (fill : List Nat) (count : Nat) : State :=
  { s with nextId := s.nextId + 1, en := { s.en with writes := s.en.writes ++ [newWrite s k place bs gs fill count] } }

/-- Whether two writes meet in a byte; in an open patch, those to one line do. -/
def writesMeet (v w : EngWrite) : Bool :=
  match v.place, w.place with
  | .phys a, .phys b => decide (a < b + w.bytes.length ∧ b < a + v.bytes.length)
  | .spad a, .spad b => decide (a < b + w.bytes.length ∧ b < a + v.bytes.length)
  | .line k _, .line l _ => k == l
  | _, _ => false

/-- R390. Whether an earlier write of the same command to one of the bytes is still to be performed. -/
def writeBehind (s : State) (w : EngWrite) : Bool :=
  s.en.writes.any fun v => v.cmd == w.cmd && decide (v.id < w.id) && writesMeet v w

/-- R391. A scratchpad word is set full, and its waiters are served. -/
def fillWord (s : State) (w : Nat) : State := serveWord (setTag s (w * 4) true) (w * 4)

/-- R391. A word that a command is to fill is set full, or is left to a write of the command to the word that is still on
its way, beside write `id`. -/
def fillOrLeave (cmd id : Nat) (t : State) (x : Nat) : State :=
  let on (v : EngWrite) : Bool := v.id != id && v.cmd == cmd && (match v.place with
    | .spad a => (wordsOf a v.bytes.length).contains x
    | .phys _ => false
    | .line _ _ => false)
  match t.en.writes.find? on with
  | some v => { t with en := { t.en with writes := t.en.writes.map fun (u : EngWrite) =>
      if u.id = v.id then { u with fill := u.fill ++ [x] } else u } }
  | none => fillWord t x

/-- R391. A write of a command has been performed in a scratchpad: each word that the command's last write to it, in its
order, was to fill is set full, or is left to another write of the command to the word. -/
def fillWords (w : EngWrite) (s : State) : State := w.fill.foldl (fillOrLeave w.cmd w.id) s

def EngWrite.who (w : EngWrite) : Who := { c := w.ctx, lid := w.lid, rank := w.rank, num := w.num, slot := w.slot }

/-- R388, R103, R325, R391. What a write does next at its destination, and whether it is then done: one word of an ATOMIC
page, or all of it elsewhere. A write into a patch that has been discarded is discarded. None while it must wait in
replay. -/
def writeStep (s : State) (w : EngWrite) : Option (State × Bool) :=
  match w.place with
  | .spad a => (spadStore s (chunkWords w.bytes.length a w.bytes)).map fun t => (fillWords w t, true)
  | .line key _ =>
    let l := lineAt s key
    some (if (s.line key).isSome then s.setLine key { l with opens := l.opens.map fun o =>
      if o.ctx = w.ctx then { o with pay := granPutAll w.grans o.pay } else o } else s, true)
  | .phys pa =>
    match (chunkWords w.bytes.length pa w.bytes).drop w.done with
    | [] => some (s, true)
    | p :: rest => (swapPiece s w.who p).map fun t =>
      ({ t with en := { t.en with writes := t.en.writes.map fun v => if v.id = w.id then { v with done := w.done + 1 } else v } },
        rest.isEmpty)

/-- R384. A write has been performed: its bytes leave the counters. -/
def writeDone (s : State) (w : EngWrite) : State :=
  cmdPerformed { s with en := { s.en with writes := s.en.writes.filter fun v => v.id != w.id } } w.cmd w.ctx w.count w.count

/-- A write is tried again at a later cycle. -/
def writeLater (s : State) (id n : Nat) : State := s.after (s.cycle + n) false .freightBurst { a := 2 ^ 20 + id }

/-- R125, R325. A write is performed: between its words an open time can pass, in which others act. -/
def performEng (id : Nat) : Nat → State → State
  | 0, s => s
  | fuel + 1, s =>
    match writeOf s id with
    | none => s
    | some w =>
      if writeBehind s w then writeLater s id 1
      else match writeStep s w with
        | none => writeLater s id 1
        | some (t, true) => writeDone t w
        | some (t, false) =>
          let (n, u) := t.delay
          if n ≤ 1 then performEng id fuel u else writeLater u id (n - 1)

/-- R141, R390. An issued write is performed at once, or after an open time. -/
def startWrite (s : State) (id : Nat) : State :=
  let (n, t) := s.delay
  if n ≤ 1 then performEng id (((writeOf t id).map fun w => w.bytes.length + 1).getD 0) t else writeLater t id (n - 1)

/-- R222. Acts where the team of a write is: resident, or saved. -/
def performWriteOf (s : State) (id : Nat) : State :=
  match writeOf s id with
  | none => s
  | some w => match s.tm.swaps.find? fun v => v.lid == w.lid && v.team == w.team with
    | some v => inSaved s v (performEng id (w.bytes.length + 1))
    | none => performEng id (w.bytes.length + 1) s

/-- R388, R103, R120, R447. Where a write of an engine goes, with its granules on a LINED page; or its failure. -/
def engTarget (s : State) (k : Cmd) (va : Nat) (bs : List Byte) (rt : Route3) (grans : Line → Nat → List Gran) :
    Eng (Place × List Gran) :=
  let a64 := BitVec.ofNat 64 va
  match rt with
  | .fault code sub => .fail (failOf code sub va)
  | .miss comp page => .wait (engWalk s k comp page)
  | .demand comp page => .wait (startDemand s (2 ^ 20 + k.id) comp page)
  | .spad a _ => if spadPartBad s a bs then .fail (8, 2, a64) else .ok (.spad a, [])
  | .page pa low high ta =>
    if dKind low = kLined then
      let key := lineKey high
      let off := regionOff high ta
      let l := lineAt s key
      let gs := grans l off
      if l.st ≠ .live then .fail (3, 8, a64)
      else if ¬ l.opens.any (fun o => o.ctx == k.ctx) then .fail (5, 0, a64)
      else if poolShort s (addWrite s k (.line key off) bs gs [] 0) (key / 2 ^ 24) then .fail (6, 0, a64)
      else .ok (.line key off, gs)
    else if (chunkWords bs.length pa bs).any fun p => s.ms.failMem.contains (p.1 / 4) && decide (p.2.length < 4) then
      .fail (8, physLoc pa, a64)
    else .ok (.phys pa, [])

/-- R388. An engine issues a write at a route; `fill` lists the words that it sets full, `count` the bytes that it counts
for. -/
def engWrite (s : State) (k : Cmd) (va : Nat) (bs : List Byte) (rt : Route3) (grans : Line → Nat → List Gran)
    (fill : List Nat) (count : Nat) : Eng State :=
  match engTarget s k va bs rt grans with
  | .fail f => .fail f
  | .wait t => .wait t
  | .ok (place, gs) => .ok (startWrite (addWrite s k place bs gs fill count) s.nextId)

/-! ### Acceptance (R381) -/

/-- R400, R397. This package's number and the system's count. -/
def pkgNumber (s : State) : Nat := fld s.ho.pkginfo.toNat 12 0
def pkgCount (s : State) : Nat := fld s.ho.pkginfo.toNat 28 16 + 1

/-- R393. The key of a channel: peer, channel and compartment. -/
def chanKey (peer chan comp : Nat) : Nat := (peer * 65536 + chan) * 64 + comp

/-- R204, R397. Whether a session with a peer is up with equal TAGs for the compartment. -/
def sessionOk (s : State) (peer comp : Nat) : Bool :=
  match tget s.en.sessions peer with
  | some n => n.up && tget n.tags comp == (tget s.tt.comps comp).map (·.tag)
  | none => false

/-- The command of a trigger. -/
def cmdOfReq (op : CmdOp) (r : Req) (s : State) : Cmd :=
  let p (k : Nat) : W64 := ecP k r s
  let b := s.board r.c
  { id := s.nextId, ctx := r.c, num := (s.ctx r.c).bundles, lid := bLid b, team := bTeam b, comp := bComp b, seq := (s.ctx r.c).seq, op := op
    eng := if op.freight then clusterOf r.c else dieOf r.c / 4
    ctl := toW r.v, p0 := p 0, p1 := p 1, p2 := p 2, p3 := p 3, p4 := p 4, p5 := p 5, p6 := p 6, p7 := p 7
    next := 0, flags := 0, left := 0, leftSys := 0, sent := 0, rcvd := 0, flying := none, sendIx := 0, recvIx := 0
    matchedSend := false, matchedRecv := false, begun := false, order := s.nextId, parked := false, withdrawn := false
    declined := [], slot := r.slot, bandsDone := [], recomp := false, status := none
    burst := 0, walked := [], paid := [], arrived := 0, lost := false, written := 0, port := none
    prev := if op.freight then (s.ctx r.c).lastFreight else (s.ctx r.c).lastShuttle }

/-- R393, R417. A Shuttle command takes its places in the counts of its channel. -/
def takePlaces (s : State) (k : Cmd) : State × Cmd :=
  let key := chanKey k.peer k.chan k.comp
  let n := (tget s.en.posted key).getD (0, 0)
  let m := (n.1 + (if k.op.sends then 1 else 0), n.2 + (if k.op.receives then 1 else 0))
  ({ s with en := { s.en with posted := tput key m s.en.posted } }, { k with sendIx := n.1, recvIx := n.2 })

/-- R390. Whether an engine's next burst is on the agenda. -/
def burstPending (s : State) (eng : Nat) : Bool :=
  s.agenda.any fun d => decide (d.ev.row = .freightBurst) && d.ev.arg.a == eng

/-- R381, R384, R397, R400. A data command is accepted. -/
def acceptCmd (op : CmdOp) (r : Req) (s : State) : State :=
  let k := cmdOfReq op r s
  let bad := k.badCheck (pkgNumber s) (pkgCount s)
  let word : Vec := ofW (BitVec.ofNat 64 (cwTag k.ctl * 2 ^ 32 + k.seq.toNat))
  let s := landResult 9 1 0x290 word r s
  let s := { s with nextId := s.nextId + 1 }
  let s := (s.modCtx r.c fun x => { x with
    seq := x.seq + 1
    lastFreight := if op.freight then some k.id else x.lastFreight
    lastShuttle := if op.freight then x.lastShuttle else some k.id }).bump r.c 9 1
  let count (s : State) : State := s.modCtx r.c fun x => { x with pend := pendAdd x.pend k.bytes }
  let full : Cmd := { k with left := k.bytes, leftSys := k.bytes }
  let add (s : State) (k : Cmd) : State := { s with en := { s.en with cmds := s.en.cmds ++ [k] } }
  let s := if op.freight then s else s.modLaunch k.lid fun l => { l with links := sins k.peer l.links }
  if bad ≠ 0 then cmdStop (add s k) k.id (1, bad, 0)
  else if ¬ op.freight ∧ ¬ sessionOk s k.peer k.comp then cmdStop (add (count s) full) k.id (9, 0, 0)
  else
    let (s, k) := if op.freight then (count s, full) else takePlaces (count s) full
    let s := add s k
    let (n, s) := s.delay
    if op.freight then
      if burstPending s k.eng then s else s.after (s.cycle + n) false .freightBurst { a := k.eng }
    else s.after (s.cycle + n) false .shuttleMatch { a := 2 ^ 20 + k.id }

/-- R381, R384. A data command: held while the context has 16; its byte count is what its issue adds to the counters. -/
def opData (op : CmdOp) : Op where
  unit := 9
  hold := fun r s =>
    if fenceHolds s r.c then some (.fence, s)
    else if 16 ≤ (s.en.cmds.filter fun c => c.ctx == r.c && !c.away).length then some (.engine, s)
    else none
  adds := fun r s =>
    let k := cmdOfReq op r s
    if k.badCheck (pkgNumber s) (pkgCount s) = 0 then k.bytes else 0
  checks := wbCheck 9
  effect := acceptCmd op

end Sys2Proof.Machine
end

