-- ==== Sys2Proof/Machine/Freight.lean ====
section
/-! DEFINITION. Freight (R385 to R391): the elements and blocks of a command, its bursts, and its operations. -/

namespace Sys2Proof.Machine

/-! ### Where a command goes, whoever asks -/

/-- Whether a route is still to be found. -/
def routeOpen (rt : Route3) : Bool :=
  match rt with
  | .miss _ _ => true
  | .demand _ _ => true
  | .page _ _ _ _ => false
  | .fault _ _ => false
  | .spad _ _ => false

/-- R389. Addresses of the parallel arrays of a side that is not LINED. -/
def scaleAddr (k : Cmd) (base : W64) (n : Nat) : Int := (base.toNat : Int) + fld k.p7.toNat 31 0 + n
def bandAddr (k : Cmd) (base : W64) (b : Nat) : Int := (base.toNat : Int) + fld k.p7.toNat 63 32 + 2 * b

/-- R389, R391. What the command writes for element n of a destination that is not LINED, in its order: the element or
block, a block's scale, and the band that it is the first of. -/
def elemWrites (s : State) (k : Cmd) (n : Nat) : List (Int × Nat) :=
  (k.target n, unitBytes k.dty) ::
    (if k.block then
      let b := bandOf s k n
      (scaleAddr k k.p1 n, 1) ::
        (if k.sty = 0 ∧ (List.range n).all (fun j => bandOf s k j != b) then [(bandAddr k k.p1 b.2, 2)] else [])
    else [])

/-- Whether bytes at an address lie in a word (a virtual address / 4). -/
def coversWord (w : Nat) (e : Int × Nat) : Bool := decide (e.1 / 4 ≤ (w : Int) ∧ (w : Int) ≤ (e.1 + e.2 - 1) / 4)

/-- R391. Whether an element from number n on writes a word. -/
def wordFrom (s : State) (k : Cmd) (n w : Nat) : Bool :=
  (List.range (k.total - n)).any fun i => (elemWrites s k (n + i)).any (coversWord w)

/-- R391. Whether the command writes a word after part j of element n. -/
def laterInWord (s : State) (k : Cmd) (n j w : Nat) : Bool :=
  ((elemWrites s k n).drop (j + 1)).any (coversWord w) || wordFrom s k (n + 1) w

/-- R391. With FILL, the scratchpad words whose last byte part j of element n writes. -/
def fillOf (s : State) (k : Cmd) (n j va len : Nat) (rt : Route3) : List Nat :=
  match rt with
  | .spad a _ =>
    if cwFill k.ctl then ((wordsOf va len).filter fun w => !laterInWord s k n j w).map fun w => w + a / 4 - va / 4 else []
  | .page _ _ _ _ => []
  | .fault _ _ => []
  | .miss _ _ => []
  | .demand _ _ => []

/-- R391. The scratchpad words that the elements before number n have written and that an element from n on was to fill. -/
def cutWords (s : State) (k : Cmd) (n : Nat) : List Nat :=
  if cwFill k.ctl then
    (((List.range n).flatMap (elemWrites s k)).flatMap fun e =>
      let va := (e.1 % 2 ^ 64).toNat
      match siteRoute s k va true with
      | .spad a _ => ((wordsOf va e.2).filter (wordFrom s k n)).map fun w => w + a / 4 - va / 4
      | .page _ _ _ _ => []
      | .fault _ _ => []
      | .miss _ _ => []
      | .demand _ _ => []).eraseDups
  else []

/-- R391, R386. A command that stops at element n writes no more: the words that it has written in part are full
(assumption 157). -/
def fillCut (s : State) (k : Cmd) (n : Nat) : State := (cutWords s k n).foldl (fillOrLeave k.id s.nextId) s

/-! ### One element (R386, R388) -/

/-- The value of an element's source, and the state after it is read. -/
def elemSource (s : State) (k : Cmd) (n : Nat) : Eng (Nat × State) :=
  if k.op = .fill then .ok (k.p0.toNat % 2 ^ (8 * unitBytes k.dty), s)
  else
    match engAddr k.p0 (k.source n) with
    | (_, some f) => .fail f
    | (va, none) =>
      let size := unitBytes k.sty
      let rt := engRoute s k va size size false false
      match engRead s k va size rt fun l off => lineBytes l (chainFor l k.ctx) off size with
      | .ok bs => .ok (bytesNat bs, engTouch s rt size)
      | .fail f => .fail f
      | .wait t => .wait t

/-- R386. The value that element n takes, and the flags of its conversion. -/
def elemValue (k : Cmd) (n x : Nat) : Nat × Flags :=
  if k.op = .fill ∨ k.sty = k.dty then (x, 0)
  else convertElem k.sty k.dty { mode := k.rnd, seed := k.seed, index := n % 2 ^ 32 } x

/-- R386, R390. One element is read, converted, and its write issued; an earlier write of the command to the element that
is read may still be on its way (assumption 110). -/
def elemMove (s : State) (k : Cmd) (n : Nat) : Eng State :=
  match elemSource s k n with
  | .fail f => .fail f
  | .wait t => .wait t
  | .ok (x, s1) =>
    let conv := elemValue k n x
    match engAddr k.p1 (k.target n) with
    | (_, some f) => .fail f
    | (va, none) =>
      let size := unitBytes k.dty
      let rt := engRoute s1 k va size size true false
      let bs := natBytes conv.1 size
      match engWrite s1 k va bs rt (fun l off => storeGrans l.fmt l.xlog off size bs) (fillOf s1 k n 0 va size rt) size with
      | .fail f => .fail f
      | .wait t => .wait t
      | .ok t => .ok (modCmd t k.id fun c => { c with next := n + 1, flags := c.flags ||| (conv.2 &&& 0x1F) })

/-! ### Blocks (R389) -/

/-- R389, R88, R97. The failure of a block's address: the checks of its route, once it is found, then its block boundary, in
the element array of a page of the command's format. -/
def blockFail (k : Cmd) (va : Nat) (rt : Route3) : Option Fail :=
  let off := if va % unitBytes k.sty ≠ 0 then some (4, 1, BitVec.ofNat 64 va) else none
  match rt with
  | .fault code sub => some (failOf code sub va)
  | .miss _ _ => none
  | .demand _ _ => none
  | .spad _ _ => off
  | .page _ low high ta =>
    if dKind low = kLined ∧ (dFmt high ≠ k.sty ∨ 2 ^ dXlog high ≤ regionOff high ta) then some (4, 1, BitVec.ofNat 64 va)
    else off

/-- Reads a parallel array of a side that is not LINED, with what the rounds that it ends (R136) leave. -/
def readAside (s : State) (k : Cmd) (base : W64) (a : Int) (size : Nat) : Eng (List Byte × State) :=
  match engAddr base a with
  | (_, some f) => .fail f
  | (va, none) =>
    let rt := engRoute s k va size size false false
    match engRead s k va size rt fun l off => lineBytes l (chainFor l k.ctx) off size with
    | .fail f => .fail f
    | .wait t => .wait t
    | .ok bs => .ok (bs, engTouch s rt size)

/-- A write that a block comes to: where it goes, its granules, its bytes, the words that it sets full, and the bytes that it
counts for. -/
structure PartOut where
  place : Place
  grans : List Gran
  bytes : List Byte
  fill : List Nat
  count : Nat

/-- R389. Part j of block n that goes to a parallel array of a side that is not LINED. -/
def asidePart (s : State) (k : Cmd) (n j : Nat) (a : Int) (bs : List Byte) : Eng PartOut :=
  match engAddr k.p1 a with
  | (_, some f) => .fail f
  | (va, none) =>
    let rt := engRoute s k va bs.length bs.length true false
    match engTarget s k va bs rt fun l off => storeGrans l.fmt l.xlog off bs.length bs with
    | .fail f => .fail f
    | .wait t => .wait t
    | .ok (place, gs) => .ok { place := place, grans := gs, bytes := bs, fill := fillOf s k n j va bs.length rt, count := bs.length }

/-- R389, R38. The element bytes, scale byte and band bytes of a block's source, and the state after them; on a LINED page
they are read in one action, each with its own check for errors. -/
def blockSource (s : State) (k : Cmd) (n va band : Nat) (rt : Route3) : Eng (List Byte × List Byte × List Byte × State) :=
  let size := unitBytes k.sty
  let at_ (l : Line) (off : Nat) : List (Nat × Nat) :=
    (2 ^ l.xlog + off / size, 1) :: (if k.sty = 0 then [(bandOff l.xlog + 2 * bandIndex (8 * l.cols8) off, 2)] else [])
  match engRead s k va size rt (fun l off =>
      let chain := chainFor l k.ctx
      lineBytes l chain off size ++ (at_ l off).flatMap fun e => lineBytes l chain e.1 e.2) at_ with
  | .fail f => .fail f
  | .wait t => .wait t
  | .ok bs =>
    let s := engTouch s rt size
    if (routeLine rt).isSome then .ok (bs.take size, (bs.drop size).take 1, bs.drop (size + 1), s)
    else match readAside s k k.p0 (scaleAddr k k.p0 n) 1 with
      | .fail f => .fail f
      | .wait t => .wait t
      | .ok (sc, s) =>
        if k.sty = 0 then
          match readAside s k k.p0 (bandAddr k k.p0 band) 2 with
          | .fail f => .fail f
          | .wait t => .wait t
          | .ok (bd, s) => .ok (bs, sc, bd, s)
        else .ok (bs, sc, [], s)

/-- R389. What goes to the parallel arrays of a destination that is not LINED. -/
def sideParts (s : State) (k : Cmd) (n : Nat) (sc : List Byte) (band : Option (Nat × List Byte)) : Eng (List PartOut) :=
  match asidePart s k n 1 (scaleAddr k k.p1 n) sc with
  | .fail f => .fail f
  | .wait t => .wait t
  | .ok p => match band with
    | none => .ok [p]
    | some (b, bd) => match asidePart s k n 2 (bandAddr k k.p1 b) bd with
      | .fail f => .fail f
      | .wait t => .wait t
      | .ok q => .ok [p, q]

/-- Issues the writes of a block, in order. -/
def issueParts (k : Cmd) (l : List PartOut) (s : State) : State :=
  l.foldl (fun t p => startWrite (addWrite t k p.place p.bytes p.grans p.fill p.count) t.nextId) s

/-- R389. One block is copied with its scale, and its band with the band's first block; nothing of it is written before every
part of its destination has been checked. On a destination that is not LINED, the elements, the scale and the band are
writes of their own (assumption 128), each of which counts for its bytes; the bytes of a band that is already written count
with the elements. -/
def blockMove (s : State) (k : Cmd) (n : Nat) : Eng State :=
  match engAddr k.p0 (k.source n), engAddr k.p1 (k.target n) with
  | (_, some f), _ => .fail f
  | (va, none), (wa, bad) =>
    let size := unitBytes k.sty
    let rs := engRoute s k va size 1 false true
    let rd := engRoute s k wa size 1 true true
    match blockFail k va rs with
    | some f => .fail f
    | none =>
      if routeOpen rd ∧ ¬ routeOpen rs ∧ bad.isNone then
        match engTarget s k wa [] rd fun _ _ => [] with
        | .wait t => .wait t
        | .fail f => .fail f
        | .ok _ => .ok s
      else
      let band := blockBand k n rd rs
      match blockSource s k n va band.2 rs with
      | .fail f => .fail f
      | .wait t => .wait t
      | .ok (el, sc, bd, s) =>
        match bad <|> blockFail k wa rd with
        | some f => .fail f
        | none =>
          let newBand := k.sty == 0 && !k.bandsDone.contains band
          let grans (l : Line) (off : Nat) : List Gran :=
            (off, el ++ sc) :: (if newBand then [(bandOff l.xlog + 2 * band.2, bd)] else [])
          let fill := fillOf s k n 0 wa size rd
          let done (u : State) : State := modCmd u k.id fun c => { c with
            next := n + 1, bandsDone := if newBand then c.bandsDone ++ [band] else c.bandsDone }
          if (routeLine rd).isSome then
            match engWrite s k wa el rd grans fill (blockCount k.sty) with
            | .fail f => .fail f
            | .wait t => .wait t
            | .ok t => .ok (done t)
          else
            match sideParts s k n sc (if newBand then some (band.2, bd) else none) with
            | .fail f => .fail f
            | .wait t => .wait t
            | .ok sides => match engTarget s k wa el rd grans with
              | .fail f => .fail f
              | .wait t => .wait t
              | .ok (place, gs) =>
                let count := if k.sty = 0 ∧ ¬ newBand then size + 2 else size
                .ok (done (issueParts k ({ place := place, grans := gs, bytes := el, fill := fill, count := count } :: sides) s))

/-! ### Bursts (R390) -/

/-- R206. The 64-byte blocks of global memory that bytes at an address lie in. -/
def sideBlocks (s : State) (k : Cmd) (base : W64) (a : Int) (len : Nat) (write : Bool) : List Nat :=
  match engAddr base a with
  | (_, some _) => []
  | (va, none) => match siteRoute s k va write with
    | .page pa _ _ _ => blocksOf pa len
    | .fault _ _ => []
    | .miss _ _ => []
    | .demand _ _ => []
    | .spad _ _ => []

/-- R206, R389. The 64-byte blocks of global memory that the scale of block n and its band lie in: in the line region of a
LINED page, else in the parallel arrays of the side. -/
def besideBlocks (s : State) (k : Cmd) (base : W64) (a : Int) (n : Nat) (write : Bool) : List Nat :=
  match engAddr base a with
  | (_, some _) => []
  | (va, none) => match siteRoute s k va write with
    | .page _ low high ta =>
      let band := k.sty == 0 && !(write && k.bandsDone.contains (bandOf s k n))
      if dKind low = kLined then
        let off := regionOff high ta
        tableBlocks s (dComp high) (ta - off + 2 ^ dXlog high + off / unitBytes k.sty) 1 ++
          (if band then tableBlocks s (dComp high) (ta - off + bandOff (dXlog high) + 2 * bandIndex (8 * dCols8 high) off) 2 else [])
      else
        sideBlocks s k base (scaleAddr k base n) 1 write ++
          (if band then sideBlocks s k base (bandAddr k base (bandOf s k n).2) 2 write else [])
    | .fault _ _ => []
    | .miss _ _ => []
    | .demand _ _ => []
    | .spad _ _ => []

/-- R206. What the elements of a burst need of a home Badger: the chain positions that the reads of a LINED source
examine, one access an element, the context's own open patch among them (assumption 144). -/
def burstWalks (s : State) (k : Cmd) (first n : Nat) : List Need :=
  if k.op = .fill then []
  else
    let reads : List (Nat × Nat) := (List.range n).filterMap fun j => match engAddr k.p0 (k.source (first + j)) with
      | (_, some _) => none
      | (va, none) => (routeLine (siteRoute s k va false)).map fun h =>
          (homeOf s (lineKey h.1), (chainFor (lineAt s (lineKey h.1)) k.ctx).length)
    let sum (home : Nat) : Nat := (reads.filter fun e => e.1 == home).foldl (fun t e => t + e.2) 0
    ((reads.map (·.1)).eraseDups.filter fun h => sum h != 0).map fun h => (2, h, sum h)

/-- R206. What a burst needs: a slot and a flit for each block of global memory that it reads, and that it writes, the scales
and bands of blocks among them; and the walks of its reads. -/
def burstUses (s : State) (k : Cmd) (first n : Nat) : List Need :=
  let side (base : W64) (at_ : Nat → Int) (len : Nat) (write : Bool) : List Nat :=
    ((List.range n).flatMap fun j => sideBlocks s k base (at_ (first + j)) len write ++
      (if k.block then besideBlocks s k base (at_ (first + j)) (first + j) write else [])).eraseDups
  burstNeeds ((if k.op = .fill then [] else side k.p0 k.source (unitBytes k.sty) false) ++
    side k.p1 k.target (unitBytes k.dty) true) ++ burstWalks s k first n

/-- R390, R384. Elements of one burst: at most 4 KiB of destination bytes, the scales and bands of blocks among them. -/
def burstLen (k : Cmd) : Nat :=
  min (k.total - k.next) (4096 / (if k.block then blockCount k.dty else unitBytes k.dty))

/-- R94. At the end of a burst, the translations that it used are forgotten. -/
def burstEnds (s : State) (id : Nat) : State := modCmd s id fun c => { c with burst := 0, walked := [] }

/-- Moves the elements of a started burst; it pauses where one must wait, and for an open time after any of them, in
which others act (R16). -/
def moveElems (id : Nat) : Nat → State → State
  | 0, s => s
  | fuel + 1, s =>
    match cmdOf s id with
    | none => s
    | some k =>
      if k.burst = 0 then s
      else match (if k.block then blockMove s k k.next else elemMove s k k.next) with
        | .fail f => cmdStop (burstEnds (fillCut s k k.next) id) id f
        | .wait t => t
        | .ok t =>
          if k.total ≤ k.next + 1 then cmdStop (burstEnds t id) id (0, 0, 0)
          else if k.burst ≤ 1 then burstEnds t id
          else
            let u := modCmd t id fun c => { c with burst := k.burst - 1 }
            let (n, u) := u.delay
            if n ≤ 1 then moveElems id fuel u else u

/-- R390, R206. A command's turn: it goes on with its started burst, or starts one, charged at its start; held while a
resource that it uses is spent, it gives its turn to the next. -/
def burstOf (s : State) (k : Cmd) : State :=
  let s := { s with nextId := s.nextId + 1 }
  let s := modCmd s k.id fun c => { c with order := s.nextId }
  if k.burst ≠ 0 then moveElems k.id k.burst s
  else
    let die := dieOf k.ctx
    let n := burstLen k
    let uses := burstUses s k k.next n
    if servedAll s die k.comp uses then
      moveElems k.id n (modCmd ((chargeAll s die k.comp uses).want die k.comp (2 ^ 20 + k.id) []) k.id fun c => { c with burst := n })
    else (s.noteHeld k.ctx).want die k.comp (2 ^ 20 + k.id) uses

/-- The command whose turn comes: the one with the earliest latest turn. -/
def nextTurn : List Cmd → Option Cmd
  | [] => none
  | k :: t => match nextTurn t with
    | some j => if k.order ≤ j.order then some k else some j
    | none => some k

/-- R390. The Freight of a cluster works on up to 8 commands, in rotation. -/
def freightBurstOf (s : State) (eng : Nat) : State :=
  let mine := s.en.cmds.filter fun k => k.op.freight && k.eng == eng && k.status.isNone
  let s := match nextTurn ((mine.take 8).filter (cmdReady s)) with
    | some k => burstOf s k
    | none => s
  if s.en.cmds.any fun k => k.op.freight && k.eng == eng && k.status.isNone then
    let (n, s) := s.delay
    s.after (s.cycle + n) false .freightBurst { a := eng }
  else s

/-! ### The operations -/

/-- R386. Copies and converts a nest. -/
def opEcCopy : Op := opData .copy

/-- The meaning of `ec.copy`. -/
def execEcCopy (m : Mv) (s : State) : Host.Outcome State Fault Refusal := issueOne m (.trig opEcCopy) s

/-- R386. Copies with dimensions 0 and 1 transposed. -/
def opEcTcopy : Op := opData .tcopy

/-- The meaning of `ec.tcopy`. -/
def execEcTcopy (m : Mv) (s : State) : Host.Outcome State Fault Refusal := issueOne m (.trig opEcTcopy) s

/-- R386. Fills with raw bits. -/
def opEcFill : Op := opData .fill

/-- The meaning of `ec.fill`. -/
def execEcFill (m : Mv) (s : State) : Host.Outcome State Fault Refusal := issueOne m (.trig opEcFill) s

/-- R390, R141. The event of a burst, by its Freight; or of a write that an engine has issued, 2^20 + its number. -/
def execFreightBurst (s : State) : Host.Outcome State Fault Refusal :=
  .next (if 2 ^ 20 ≤ s.ev.a then performWriteOf s (s.ev.a - 2 ^ 20) else freightBurstOf s s.ev.a)

/-- R382. The event of a retirement. -/
def execDataCommandRetire (s : State) : Host.Outcome State Fault Refusal := .next (retireCmd s s.ev.a)

/-- R335. The event of a waiting status. -/
def execStatusPushWait (s : State) : Host.Outcome State Fault Refusal := .next (retryStatus s s.ev.a)

end Sys2Proof.Machine
end

