-- ==== Sys2Proof/Machine/Shuttle.lean ====
section
/-! DEFINITION. Shuttle (R392 to R397, R417, R222): matching by count, chunks sent and received, additions, loss of
a peer, and commands of a team that is swapped out. A peer package acts through the events of this file: what it
posts, the chunks that arrive from it, and its acknowledgements. -/

namespace Sys2Proof.Machine

/-! ### Chunks -/

/-- R392. Bytes of chunk c of a transfer; the last may be short. -/
def Cmd.chunkLen (k : Cmd) (c : Nat) : Nat := min k.chunk (k.len - c * k.chunk)

/-- R384. Destination bytes of chunk c. -/
def Cmd.chunkDst (k : Cmd) (c : Nat) : Nat :=
  if k.adds then k.chunkLen c / (tyBits k.aSty / 8) * (tyBits k.aDty / 8) else k.chunkLen c

/-- R392. Where chunk c begins at the source, and at the destination. -/
def Cmd.srcAt (k : Cmd) (c : Nat) : Nat := k.p0.toNat + c * k.chunk
def Cmd.dstAt (k : Cmd) (c : Nat) : Nat :=
  k.p1.toNat + (if k.adds then c * k.chunk / (tyBits k.aSty / 8) * (tyBits k.aDty / 8) else c * k.chunk)

/-- Whether every chunk is marked in a bitmap. -/
def allChunks (k : Cmd) (m : BitVec 64) : Bool := (List.range k.chunks).all fun c => m.getLsbD c

/-- A range of addresses cut at 4 KiB pages. -/
def cutPages : Nat → Nat → Nat → List (Nat × Nat)
  | 0, _, _ => []
  | fuel + 1, va, n =>
    if n = 0 then []
    else
      let m := min n (4096 - va % 4096)
      (va, m) :: cutPages fuel (va + m) (n - m)

/-- The pieces of a range of at most 16 KiB. -/
def piecesOf (va n : Nat) : List (Nat × Nat) := cutPages 6 va n

/-- R383, R447. The address of the first failing word of a range, for a write one that it covers only in part; its own
where the range has none. -/
def firstBad (s : State) (va size : Nat) (rt : Route3) (write : Bool) : Nat :=
  let pick (a : Nat) (bad : List Nat) : Nat :=
    match (wordsOf a size).find? fun w => bad.contains w && (!write || decide (w * 4 < a ∨ a + size < w * 4 + 4)) with
    | some w => va + (max a (w * 4) - a)
    | none => va
  match rt with
  | .spad a _ => pick a s.ms.failSpad
  | .page pa _ _ _ => if portFailed s pa then va else pick pa s.ms.failMem
  | .fault _ _ => va
  | .miss _ _ => va
  | .demand _ _ => va

/-- R87, R97, R383. Check 11 of R88 over a piece of a range on a LINED page: its first failing address. Blocks are not read
or written byte by byte, granules are written whole, and nothing lies beyond the arrays. -/
def lineFail (high : W64) (off va n : Nat) (write : Bool) : Option Fail :=
  let fmt := dFmt high
  let xlog := dXlog high
  let e := if fmt ≤ 3 then 2 else granElem fmt
  let blocks := if write then 2 ^ xlog + scaleBytes fmt xlog else 2 ^ xlog
  let last := arrayEnd fmt xlog
  if last ≤ off then some (3, 7, BitVec.ofNat 64 va)
  else if (fmt ≤ 3 ∧ off < blocks) ∨ (write ∧ off % e ≠ 0) then some (4, 1, BitVec.ofNat 64 va)
  else if last < off + n then some (3, 7, BitVec.ofNat 64 (va + (last - off)))
  else if write ∧ (off + n) % e ≠ 0 then some (4, 1, BitVec.ofNat 64 (va + n - (off + n) % e))
  else none

/-- R383. The failure of a piece of a range at check 11, which its route reports at the piece's start. -/
def pieceFail (s : State) (k : Cmd) (va n : Nat) (write : Bool) : Option Fail :=
  let shape : Bool := match engRoute s k va n 1 write false with
    | .fault code sub => decide (code = 0x0D ∨ (code = 0x0C ∧ sub = 7))
    | .page _ _ _ _ => true
    | .miss _ _ => false
    | .demand _ _ => false
    | .spad _ _ => false
  if shape ∧ pathOf va = 0 then
    (routeLine (globalCheck (engLook k) s k.ctx va (if write then .ewrite else .eread))).bind fun h => lineFail h.1 h.2 va n write
  else none

/-- R383. The bytes of a piece before the address of its failure at check 11: what fails there comes first. -/
def bytesBefore (f : Option Fail) (va n : Nat) : Nat :=
  match f with
  | some (_, _, x) => min n (x.toNat - va)
  | none => n

/-- R392, R383. Reads a range of the source, in address order. -/
def readRange (s : State) (k : Cmd) : List (Nat × Nat) → Eng (List Byte × State)
  | [] => .ok ([], s)
  | (a, n) :: t =>
    match engAddr k.p0 a with
    | (_, some f) => .fail f
    | (va, none) =>
      let bad := pieceFail s k va n false
      let m := bytesBefore bad va n
      let rt := engRoute s k va m 1 false false
      match (if m = 0 then .ok [] else engRead s k va m rt fun l off => lineBytes l (chainFor l k.ctx) off m) with
      | .fail f => .fail (if f.1 = 8 then (8, f.2.1, BitVec.ofNat 64 (firstBad s va m rt false)) else f)
      | .wait u => .wait u
      | .ok bs => match bad with
        | some f => .fail f
        | none => match readRange (engTouch s rt n) k t with
          | .ok (rest, u) => .ok (bs ++ rest, u)
          | .fail f => .fail f
          | .wait u => .wait u

/-- R120, R383. The address of the first granule of a write into an open patch for which the pool has no room. -/
def poolAddr (s : State) (k : Cmd) (va : Nat) (place : Place) (gs : List Gran) : Nat :=
  match place with
  | .line key off =>
    match (List.range gs.length).find? fun m =>
        poolShort s (addWrite s k place [] (gs.take (m + 1)) [] 0) (key / 2 ^ 24) with
    | some m => va + ((gs[m]?.map (·.1)).getD off - off)
    | none => va
  | .phys _ => va
  | .spad _ => va

/-- R383. The failure of a piece of a chunk's destination, at its first failing address. -/
def pieceWriteFail (s : State) (k : Cmd) (va n : Nat) (bs : List Byte) (rt : Route3) (f : Fail) : Fail :=
  if f.1 = 8 then (8, f.2.1, BitVec.ofNat 64 (firstBad s va n rt true))
  else if f.1 = 6 then
    match routeLine rt with
    | some (h, off) =>
      let l := lineAt s (lineKey h)
      (6, f.2.1, BitVec.ofNat 64 (poolAddr s k va (.line (lineKey h) off) (storeGrans l.fmt l.xlog off n bs)))
    | none => f
  else f

/-- R383. Checks every piece of a chunk's destination, in address order; the writes that they come to. -/
def planWrites (s : State) (k : Cmd) : List (Nat × Nat) → List Byte → List EngWrite → Eng (List EngWrite)
  | [], _, ws => .ok ws
  | (a, n) :: t, bs, ws =>
    match engAddr k.p1 a with
    | (_, some f) => .fail f
    | (va, none) =>
      let bad := pieceFail s k va n true
      let m := bytesBefore bad va n
      let rt := engRoute s k va m 1 true false
      let with_ : State := { s with en := { s.en with writes := s.en.writes ++ ws } }
      match (if m = 0 then .ok (.phys 0, []) else
          engTarget with_ k va (bs.take m) rt fun l off => storeGrans l.fmt l.xlog off m (bs.take m)) with
      | .fail f => .fail (pieceWriteFail with_ k va m (bs.take m) rt f)
      | .wait u => .wait { u with en := { u.en with writes := s.en.writes } }
      | .ok (place, gs) => match bad with
        | some f => .fail f
        | none => planWrites s k t (bs.drop n) (ws ++ [newWrite s k place (bs.take n) gs [] n])

/-- R395. A write is performed whole, in one action. None while a word of it must wait in replay. -/
def writeWhole (s : State) (w : EngWrite) : Option State :=
  match w.place with
  | .phys pa => (chunkWords w.bytes.length pa w.bytes).foldl (fun o p => o.bind fun t => swapPiece t w.who p) (some s)
  | .spad _ => (writeStep s w).map (·.1)
  | .line _ _ => (writeStep s w).map (·.1)

/-- R394, R329. The sum of a receive-and-add in FP32; a sum that is exactly zero takes its sign as in RNE. -/
def addFp (r : Rnd) (ops : List Num) : Nat × Flags :=
  let exact := ops.all fun x => match x with
    | .fin _ _ _ => true
    | .inf _ => false
    | .nan _ => false
  fplane .fp32 (if exact ∧ (sumFin ops).1 = 0 then { r with mode := 0 } else r) ops ops

/-- R394. One element of a receive-and-add: the sum and its flags. -/
def addElem (k : Cmd) (old incoming e : Nat) : Nat × Flags :=
  if k.aDty = 0xC then
    let l := limitInt 0xC (decodeInt 0xC old + decodeInt k.aSty incoming)
    (encodeInt 32 l.1, l.2)
  else addFp { mode := k.aRnd, seed := 0, index := e % 2 ^ 32 } [decodeElem k.aSty incoming, decodeFp .fp32 old]

/-- R392, R88. Whether an address is one of a LINED page, which the checks before check 11 allow: a `recva` stops there. -/
def addsToLine (s : State) (k : Cmd) (va : Nat) : Bool :=
  let shape : Bool := match engRoute s k va 4 4 true false with
    | .fault code sub => decide ((code = 0x0D ∧ sub = 1) ∨ (code = 0x0C ∧ sub = 7))
    | .page _ _ _ _ => true
    | .miss _ _ => false
    | .demand _ _ => false
    | .spad _ _ => false
  shape && pathOf va == 0 && (routeLine (globalCheck (engLook k) s k.ctx va .ewrite)).isSome

/-- R383, R394. Checks every element that a chunk adds, from number e on: where it is, its sum and its flags. -/
def planAdds (s : State) (k : Cmd) : Nat → Nat → List Byte → Eng (List (Route3 × Nat × Flags))
  | 0, _, _ => .ok []
  | fuel + 1, e, bs =>
    let ss := tyBits k.aSty / 8
    if bs.length < ss then .ok []
    else match engAddr k.p1 ((k.p1.toNat : Int) + 4 * e) with
      | (_, some f) => .fail f
      | (va, none) =>
        let rt := engRoute s k va 4 4 true false
        if addsToLine s k va then .fail (3, 6, BitVec.ofNat 64 va)
        else match engRead s k va 4 rt fun _ _ => [] with
          | .fail f => .fail f
          | .wait u => .wait u
          | .ok old =>
            match planAdds s k fuel (e + 1) (bs.drop ss) with
            | .fail f => .fail f
            | .wait u => .wait u
            | .ok l => .ok ((rt, addElem k (bytesNat old) (bytesNat (bs.take ss)) e) :: l)

/-- R395. Writes the sums of a chunk, in one action. None while one must wait in replay. -/
def writeAdds (s : State) (k : Cmd) (l : List (Route3 × Nat × Flags)) : Option State :=
  l.foldl (fun o e => o.bind fun t => match e.1 with
    | .spad a _ => spadStore t [(a, natBytes e.2.1 4)]
    | .page pa _ _ _ => swapPiece t (k.who s) (pa, natBytes e.2.1 4)
    | .fault _ _ => some t
    | .miss _ _ => some t
    | .demand _ _ => some t) (some s)

/-! ### Budgets (R206) -/

/-- The 64-byte blocks of global memory of a range, by the tables as they stand. -/
def rangeSites (s : State) (k : Cmd) (va n : Nat) (write : Bool) : List Nat :=
  (piecesOf va n).flatMap fun p => match siteRoute s k p.1 write with
    | .page pa _ _ _ => blocksOf pa p.2
    | .fault _ _ => []
    | .miss _ _ => []
    | .demand _ _ => []
    | .spad _ _ => []

/-- R206. The chain positions that the reads of a range examine at the home Badgers of its lines: of each page's part, as one
access (assumption 147), the chain's patches and the command's own open patch (assumption 144). -/
def rangeWalks (s : State) (k : Cmd) (va n : Nat) : List Need :=
  (piecesOf va n).filterMap fun p => (routeLine (siteRoute s k p.1 false)).map fun h =>
    (2, homeOf s (lineKey h.1), (chainFor (lineAt s (lineKey h.1)) k.ctx).length)

/-- R206. What a burst of a chunk needs, `n` bytes carried from byte `at_` of the chunk on: units of Shuttle, and at the
source or the destination the blocks that it reads and writes (an addition does both), and the walks of its reads. -/
def chunkUses (s : State) (k : Cmd) (send : Bool) (c at_ n : Nat) : List Need :=
  let ss := tyBits k.aSty / 8
  let range := if send then (k.srcAt c + at_, n)
    else if k.adds then (k.dstAt c + at_ / ss * 4, n / ss * 4) else (k.dstAt c + at_, n)
  let sites := rangeSites s k range.1 range.2 (!send)
  ((if send then 3 else 4), 0, (n + 63) / 64) :: burstNeeds (if !send && k.adds then sites ++ sites else sites) ++
    (if send then (rangeWalks s k range.1 range.2).filter fun e => e.2.2 != 0 else [])

/-- R206. Charges the bursts of a chunk, of up to 4 KiB each, at their starts: whether all are charged. A spent budget holds
the rest. -/
def payChunk (send : Bool) (c : Nat) : Nat → State → Cmd → Bool × State
  | 0, s, _ => (true, s)
  | fuel + 1, s, k =>
    let key := if send then 64 + c else c
    let at_ := (tget k.paid key).getD 0
    if k.chunkLen c ≤ at_ then (true, s)
    else
      let n := min 4096 (k.chunkLen c - at_)
      let uses := chunkUses s k send c at_ n
      if servedAll s (dieOf k.ctx) k.comp uses then
        let paid := tput key (at_ + n) k.paid
        let t := (chargeAll s (dieOf k.ctx) k.comp uses).want (dieOf k.ctx) k.comp (2 ^ 20 + k.id) []
        payChunk send c fuel (modCmd t k.id fun x => { x with paid := paid }) { k with paid := paid }
      else (false, (s.noteHeld k.ctx).want (dieOf k.ctx) k.comp (2 ^ 20 + k.id) uses)

/-! ### Ports (R442, R443) -/

def emptyPort : Nimmet := { status := 0, rxSeq := 0, txSeq := 0, unacked := [] }
def nimmetPort (s : State) (p : Nat) : Nimmet := (tget s.en.nimmet p).getD emptyPort

/-- R443. A port's status with its fields, and the notice of a change of state (R440). -/
def portStatus (s : State) (p st peer pport lanes : Nat) : State :=
  let n := nimmetPort s p
  let w : W64 := BitVec.ofNat 64 (peer % 2 ^ 13 * 2 ^ 35 + pport % 16 * 2 ^ 31 + lanes % 16 * 2 ^ 27 + st * 2 ^ 24 + fld n.status.toNat 23 0)
  let t := { s with en := { s.en with nimmet := tput p { n with status := w } s.en.nimmet } }
  if fld n.status.toNat 26 24 = st then t else postNotice t 3 p st

/-- R443. STATE of a port: whether its session is up. -/
def Nimmet.up (n : Nimmet) : Bool := fld n.status.toNat 26 24 == 3

/-- R24, R443. Of the four ports of a Shuttle's base die, the one toward a peer: one whose neighbour it is, else the lowest
with a session up, else the first. -/
def portTo (s : State) (base peer : Nat) : Nat :=
  let up := s.en.nimmet.filter fun e => e.1 / 4 == base && e.2.up
  match up.find? fun e => fld e.2.status.toNat 47 35 == peer with
  | some e => e.1
  | none => (up.head?.map (·.1)).getD (4 * base)

/-- R442. Bytes leave in frames of at most 64 flits, each kept until it is acknowledged. -/
def sendFrames : Nat → List Byte → Nimmet → Nimmet
  | 0, _, n => n
  | fuel + 1, bs, n =>
    if bs.isEmpty then n
    else sendFrames fuel (bs.drop 4096)
      { n with txSeq := (n.txSeq + 1) % 2 ^ 48, unacked := n.unacked ++ [(n.txSeq, bs.take 4096)] }

/-- R442. The bytes of a chunk leave over the route of their command, which its first chunk has chosen. -/
def sendBytes (s : State) (k : Cmd) (bs : List Byte) : State :=
  let p := k.port.getD (portTo s k.eng k.peer)
  let sessions := match tget s.en.sessions k.peer with
    | some n => tput k.peer { n with counter := n.counter + (bs.length + 4095) / 4096 } s.en.sessions
    | none => s.en.sessions
  modCmd { s with en := { s.en with nimmet := tput p (sendFrames 5 bs (nimmetPort s p)) s.en.nimmet, sessions := sessions } } k.id
    fun x => { x with port := some p }

/-! ### Sending -/

/-- A Shuttle command looks at its state again in the next cycle. -/
def shuttleRetry (s : State) (id : Nat) : State := s.after (s.cycle + 1) false .shuttleMatch { a := 2 ^ 20 + id }

/-- R394. A command whose halves are complete has its status. -/
def shuttleDone (s : State) (id : Nat) : State :=
  match cmdOf s id with
  | none => s
  | some k =>
    if k.status.isNone ∧ (¬ k.op.sends ∨ allChunks k k.sent) ∧ (¬ k.op.receives ∨ allChunks k k.rcvd) then
      cmdStop s id (0, 0, 0)
    else s

/-- R394, R395. Sends the next chunk of a matched send. -/
def sendChunk (s : State) (k : Cmd) : State :=
  match (List.range k.chunks).find? fun c => !k.sent.getLsbD c with
  | none => s
  | some c =>
    if ¬ k.matchedSend ∨ k.flying.isSome ∨ k.lost then s
    else match payChunk true c 5 s k with
      | (false, t) => shuttleRetry t k.id
      | (true, s) => match readRange s k (piecesOf (k.srcAt c) (k.chunkLen c)) with
        | .fail f => cmdStop s k.id f
        | .wait t => shuttleRetry t k.id
        | .ok (bs, t) => modCmd (sendBytes t k bs) k.id fun x => { x with flying := some c, walked := [] }

/-! ### Matching -/

/-- R393. What the peer has posted for a half of a command. -/
def peerPostFor (s : State) (k : Cmd) (recv : Bool) (ix : Nat) : Option PeerPost :=
  s.en.peerPosts.find? fun p => p.peer == k.peer && p.chan == k.chan && p.comp == k.comp && p.recv == recv && p.ix == ix

/-- R393. Whether two transfer words differ in LEN or CSZ. -/
def wordsDiffer (a b : W64) : Bool := fld a.toNat 20 0 != fld b.toNat 20 0 || fld a.toNat 55 53 != fld b.toNat 55 53

/-- R393. A command finds the matches of its halves, or retires as MISMATCH. -/
def findMatches (s : State) (k : Cmd) : State :=
  let a := if k.op.sends ∧ ¬ k.withdrawn then peerPostFor s k true k.sendIx else none
  let b := if k.op.receives then peerPostFor s k false k.recvIx else none
  match (a.filter fun p => wordsDiffer p.word k.p3), (b.filter fun p => wordsDiffer p.word k.p3) with
  | some p, _ => cmdStop s k.id (0xB, 0, p.word)
  | none, some p => cmdStop s k.id (0xB, 0, p.word)
  | none, none => modCmd s k.id fun x =>
      { x with matchedSend := x.matchedSend || a.isSome, matchedRecv := x.matchedRecv || b.isSome }

/-- R380, R393, R417. A command begins when it may, matches, and sends what it can. -/
def shuttleGo (s : State) (id : Nat) : State :=
  match cmdOf s id with
  | none => s
  | some k =>
    if k.status.isSome ∨ k.lost then s
    else if ¬ k.begun ∧ ¬ cmdReady s k then shuttleRetry s id
    else
      let s := findMatches (modCmd s id fun x => { x with begun := true }) k
      match cmdOf s id with
      | none => s
      | some k => if k.status.isSome then s else if k.op.sends then sendChunk s k else s

/-- R393. A peer posts a send or a receive: its package, the channel, the compartment, twice its place in the count
(plus 1 for a receive), and its transfer word. -/
def peerPosts (s : State) (e : EvArg) : State :=
  let p : PeerPost := { peer := e.a, chan := e.b, comp := e.c, recv := e.d % 2 == 1, ix := e.d / 2, word := BitVec.ofNat 64 (bytesNat e.body) }
  let s := { s with en := { s.en with peerPosts := s.en.peerPosts ++ [p] } }
  (s.en.cmds.filter fun k => !k.op.freight && k.begun && k.peer == e.a && k.chan == e.b && k.comp == e.c).foldl
    (fun t k => shuttleGo t k.id) s

/-- The command that sends, or receives, at a place of a channel's count. -/
def cmdAt (s : State) (e : EvArg) (send : Bool) : Option Cmd :=
  s.en.cmds.find? fun k =>
    !k.op.freight && (if send then k.op.sends else k.op.receives) && k.peer == e.a % 2 ^ 20 && k.chan == e.b && k.comp == e.c &&
      (if send then k.sendIx else k.recvIx) == e.d / 64 && k.status.isNone && k.begun

/-! ### Arrivals -/

/-- R396, R394. How a command stops when its peer is lost. -/
def lostFail (k : Cmd) : Fail :=
  let useRecv := k.op.receives && !(k.op.sends && allChunks k k.rcvd)
  let m := if useRecv then k.rcvd else k.sent
  if k.sent = 0 ∧ k.rcvd = 0 then (9, 0, 0)
  else (0xA, popBelow m.toNat 64, m)

/-- R396. A command whose peer is lost stops once no chunk that has arrived is still to be written. -/
def lostDone (s : State) (id : Nat) : State :=
  match cmdOf s id with
  | none => s
  | some k => if k.lost ∧ k.status.isNone ∧ k.arrived &&& ~~~k.rcvd = 0 then cmdStop s id (lostFail k) else s

/-- R383, R395. Checks a chunk's whole destination, and then writes or adds it; none inside while it must wait in replay. -/
def putChunk (s : State) (k : Cmd) (c : Nat) (body : List Byte) : Eng (Option State) :=
  if k.adds then
    match planAdds s k body.length (c * k.chunk / (tyBits k.aSty / 8)) body with
    | .fail f => .fail f
    | .wait u => .wait u
    | .ok l => .ok ((writeAdds s k l).map fun t => modCmd t k.id fun x =>
        { x with flags := l.foldl (fun f e => f ||| (e.2.2 &&& 0x1F)) x.flags })
  else
    match planWrites s k (piecesOf (k.dstAt c) (k.chunkDst c)) body [] with
    | .fail f => .fail f
    | .wait u => .wait u
    | .ok ws => .ok (ws.foldl (fun o w => o.bind fun t => writeWhole t w) (some s))

/-- R395. Whether a chunk to be added that arrived before this one, in the same compartment, has still to be added. -/
def landsBehind (s : State) (k : Cmd) (c : Nat) : Bool :=
  k.adds && (s.en.landing.takeWhile (· != (k.id, c))).any fun e => (cmdOf s e.1).any fun j =>
    j.status.isNone && j.adds && j.comp == k.comp && !j.rcvd.getLsbD e.2

/-- R395. A chunk to be added takes its place among those that have arrived. -/
def noteArrival (s : State) (k : Cmd) (c : Nat) : State :=
  if ¬ k.adds ∨ s.en.landing.contains (k.id, c) then s
  else
    let stands (e : Nat × Nat) : Bool := (cmdOf s e.1).any fun j => j.status.isNone && !j.rcvd.getLsbD e.2
    { s with en := { s.en with landing := s.en.landing.filter stands ++ [(k.id, c)] } }

/-- R395. A whole chunk is written or added in one action, or its command stops with the chunk unwritten. A chunk that must
wait comes back in the next cycle, as an event whose peer is 2^20 higher. -/
def landChunk (s : State) (id c : Nat) (body : List Byte) (e : EvArg) : State :=
  match cmdOf s id with
  | none => s
  | some k =>
    let again (t : State) : State := t.after (s.cycle + 1) false .shuttleChunkArrival { e with a := 2 ^ 20 + e.a % 2 ^ 20 }
    if landsBehind s k c then again s
    else match payChunk false c 5 s k with
    | (false, t) => again t
    | (true, s) => match putChunk s k c body with
      | .fail f => cmdStop s id f
      | .wait t => again t
      | .ok none => again s
      | .ok (some t) =>
        let t := modCmd t id fun x => { x with rcvd := x.rcvd ||| ((1 : BitVec 64) <<< c), walked := [] }
        lostDone (shuttleDone (cmdPerformed t id k.ctx (k.chunkDst c) (k.chunkDst c)) id) id

/-- R393, R395, R222, R396, R442. A chunk arrives: the peer, the channel, the compartment, 64 times the place in the count
plus the chunk's number, and its bytes. Where the compartment stands 64 higher, the chunk has failed its CRC-32, and is
neither written nor added. From a lost peer only a chunk that had arrived before is. -/
def chunkArrives (s : State) (e : EvArg) : State :=
  let c := e.d % 64
  let again := decide (2 ^ 20 ≤ e.a)
  if 64 ≤ e.c then s
  else match cmdAt s e false with
  | none => s
  | some k =>
    if k.chunks ≤ c ∨ k.rcvd.getLsbD c ∨ e.body.length ≠ k.chunkLen c ∨ k.arrived.getLsbD c ≠ again ∨ (k.lost ∧ ¬ again) then s
    else
      let s := modCmd s k.id fun x => { x with matchedRecv := true, arrived := x.arrived ||| ((1 : BitVec 64) <<< c) }
      withTeam (noteArrival s k c) k fun t => landChunk t k.id c e.body e

/-- R125, R384. The chunk that a command has sent stands at its destination: it is performed at every scope but sys. -/
def chunkWritten (s : State) (k : Cmd) (c : Nat) : State :=
  if k.written.getLsbD c then s
  else cmdPerformed (modCmd s k.id fun x => { x with written := x.written ||| ((1 : BitVec 64) <<< c) }) k.id k.ctx (k.chunkLen c) 0

/-- R384, R396, R442. A sent chunk is acknowledged, over the route of its command; or, where the peer's number stands 2^20
higher, stands at its destination. -/
def chunkAcked (s : State) (e : EvArg) : State :=
  let c := e.d % 64
  match cmdAt s e true with
  | none => s
  | some k =>
    if k.flying ≠ some c ∨ k.lost then s
    else if 2 ^ 20 ≤ e.a then chunkWritten s k c
    else
      let n := k.chunkLen c
      let s := chunkWritten s k c
      let p := k.port.getD (portTo s k.eng k.peer)
      let port := nimmetPort s p
      let s := { s with en := { s.en with
        nimmet := tput p { port with unacked := port.unacked.drop ((n + 4095) / 4096) } s.en.nimmet } }
      let s := modCmd s k.id fun x => { x with flying := none, sent := x.sent ||| ((1 : BitVec 64) <<< c) }
      let s := shuttleDone (cmdPerformed s k.id k.ctx 0 n) k.id
      shuttleGo s k.id

/-- R443, R396. The session of a port toward a peer is over: the port is up without one. -/
def portsDown (s : State) (peer : Nat) : State :=
  (s.en.nimmet.filter fun e => e.2.up && fld e.2.status.toNat 47 35 == peer).foldl (fun t e =>
    portStatus t e.1 2 peer (fld e.2.status.toNat 34 31) (fld e.2.status.toNat 30 27)) s

/-- R396. A peer is declared lost: a chunk that was sent and not acknowledged never completes, and one that has arrived
whole is still written. -/
def losePeer (s : State) (peer : Nat) : State :=
  let s := match tget s.en.sessions peer with
    | some n => { s with en := { s.en with sessions := tput peer { n with up := false } s.en.sessions } }
    | none => s
  let s := portsDown s peer
  (s.en.cmds.filter fun k => !k.op.freight && k.peer == peer && k.status.isNone).foldl
    (fun t k => lostDone (modCmd t k.id fun x => { x with lost := true, flying := none }) k.id) s

/-! ### Swaps (R222, R396) -/

/-- R222. Whether a command does not hold back the swap of its team: an unmatched send, a receive whose peer has
not sent. -/
def swapExempt (k : Cmd) : Bool :=
  !k.op.freight && k.status.isNone && (!k.op.sends || !k.matchedSend) && (!k.op.receives || !k.matchedRecv)

/-- R222. At a swap-out, sends are withdrawn and receives parked. -/
def parkCmds (s : State) (mine : List Nat) : State :=
  (s.en.cmds.filter fun k => mine.contains k.ctx && !k.away && swapExempt k).foldl (fun t k =>
    let n := if k.op.sends then k.len else 0
    (modCmd t k.id fun x => { x with withdrawn := x.op.sends, parked := x.op.receives }).modCtx k.ctx
      fun x => { x with pend := pendSub x.pend n }) s

/-- R222. At a swap-in, they are posted again. -/
def unparkCmds (s : State) (lid team : Nat) : State :=
  (s.en.cmds.filter fun k => k.lid == lid && k.team == team && k.away).foldl (fun t k =>
    let n := if k.withdrawn then k.len else 0
    let t := (modCmd t k.id fun x => { x with withdrawn := false, parked := false }).modCtx k.ctx
      fun x => { x with pend := pendAdd x.pend n }
    t.after t.cycle false .shuttleMatch { a := 2 ^ 20 + k.id }) s

/-! ### The operations and events -/

/-- R394. Sends. -/
def opEcSend : Op := opData .send

/-- The meaning of `ec.send`. -/
def execEcSend (m : Mv) (s : State) : Host.Outcome State Fault Refusal := issueOne m (.trig opEcSend) s

/-- R394. Receives in place. -/
def opEcRecv : Op := opData .recv

/-- The meaning of `ec.recv`. -/
def execEcRecv (m : Mv) (s : State) : Host.Outcome State Fault Refusal := issueOne m (.trig opEcRecv) s

/-- R394. Receives and adds. -/
def opEcRecva : Op := opData .recva

/-- The meaning of `ec.recva`. -/
def execEcRecva (m : Mv) (s : State) : Host.Outcome State Fault Refusal := issueOne m (.trig opEcRecva) s

/-- R394. Sends and receives with one peer. -/
def opEcStep : Op := opData .step

/-- The meaning of `ec.step`. -/
def execEcStep (m : Mv) (s : State) : Host.Outcome State Fault Refusal := issueOne m (.trig opEcStep) s

/-- R393. A peer posts (its package below 2^20), or a command of this package looks for its match. -/
def execShuttleMatch (s : State) : Host.Outcome State Fault Refusal :=
  .next (if 2 ^ 20 ≤ s.ev.a then shuttleGo s (s.ev.a - 2 ^ 20) else peerPosts s s.ev)

/-- R395. A chunk arrives. -/
def execShuttleChunkArrival (s : State) : Host.Outcome State Fault Refusal := .next (chunkArrives s s.ev)

/-- R384. A chunk is acknowledged, or stands at its destination. -/
def execShuttleChunkAck (s : State) : Host.Outcome State Fault Refusal := .next (chunkAcked s s.ev)

/-- R396. A peer is lost. -/
def execPeerLost (s : State) : Host.Outcome State Fault Refusal := .next (losePeer s s.ev.a)

end Sys2Proof.Machine
end

