-- ==== Sys2Proof/Machine/Report.lean ====
section
/-! DEFINITION. Attestation reports (R199 to R201), and the shared windows of a compartment (R203). -/

namespace Sys2Proof.Machine

/-! ### Reports -/

/-- R201. The 64 bytes of a compartment record. -/
def recordBytes (comp : Nat) (k : Comp) : List Byte :=
  natBytes ((if k.isol then 1 else 0) + comp * 256) 8 ++ natBytes k.poolmax.toNat 8 ++ natBytes k.quota.toNat 8 ++
    natBytes k.tag.toNat 32 ++ natBytes 0 8

/-- R207, R8. A class block as it was last written; it takes effect at the next boundary. -/
def clsWritten (s : State) (die cls : Nat) : BitVec 256 :=
  (tget s.tt.clsNext (die * 64 + cls) <|> tget s.tt.cls (die * 64 + cls)).getD 0

/-- R201. CREC: the record and the class blocks on dies 0 to 15. -/
def crec (s : State) (comp : Nat) : BitVec 512 :=
  let k := (tget s.tt.comps comp).getD
    { isol := false, poolmax := 0, pool := 0, quota := 0, tag := 0, kchain := 0, kcount := 0, root := 0, pages := 0, key := 0 }
  shake64 (recordBytes comp k ++ (List.range 16).flatMap fun d =>
    natBytes (clsWritten s d comp).toNat 32)

/-- The firmware of a kind (R236) that runs. -/
def firmwareOf (s : State) (kind : Nat) : Firmware :=
  (tget s.rt.firmware kind).getD { svn := 0, digest := 0 }

/-- R199. Whether a hand-over is staged and not committed. -/
def handPending (s : State) : Bool := s.rt.hand.isSome

/-- R198. The device's key pair: of SHAKE256 over the fused seed and the corrected response of the PUF. -/
def deviceKeys : List Byte × List Byte :=
  Config.falconKeys (shake256 64 (Config.fusedSeed ++ Config.pufCorrect Config.pufHelper Config.pufResponse))

/-- R198. DEVID: SHAKE256-256 of the public key. -/
def devid : BitVec 256 := shake32 deviceKeys.1

/-- R199. The line entries of a report: LIVE lines of those named, in ascending number. -/
def reportLines (s : State) (comp : Nat) (lines : List Nat) : List (Nat × BitVec 256) :=
  (lines.foldr sins []).filterMap fun n =>
    match s.line (comp * 2 ^ 24 + n) with
    | some l => if l.st = .live then some (n, l.hash) else none
    | none => none

/-- R199. The bytes of a report before SIG. -/
def reportBody (s : State) (comp : Nat) (nonce : List Byte) (lines : List Nat) : List Byte :=
  let ls := reportLines s comp lines
  let k := tget s.tt.comps comp
  let flags := (if ls.isEmpty then 0 else 1) + (if handPending s then 2 else 0)
  natBytes 1 4 ++ natBytes comp 1 ++ natBytes flags 1 ++ natBytes ls.length 2 ++ nonce ++
    digestBytes devid ++ natBytes s.rt.floor 4 ++ natBytes (firmwareOf s 1).svn 4 ++
    digestBytes (firmwareOf s 1).digest ++ digestBytes (firmwareOf s 2).digest ++ digestBytes (firmwareOf s 3).digest ++
    digestBytes (firmwareOf s 4).digest ++ digestBytes (crec s comp) ++
    digestBytes ((k.map (·.kchain)).getD 0) ++ natBytes ((k.map (·.kcount.toNat)).getD 0) 8 ++ natBytes 0 8 ++
    ls.flatMap fun e => natBytes e.1 4 ++ natBytes 0 4 ++ digestBytes e.2

/-- R199. The report, signed. -/
def reportBytes (s : State) (comp : Nat) (nonce : List Byte) (lines : List Nat) : List Byte :=
  let b := reportBody s comp nonce lines
  b ++ (Config.falconSign deviceKeys.2 (shake64 b) ++ List.replicate 1280 0).take 1280

/-! ### Ranges of a task's memory -/

/-- R92. The translation of a page for a service of a context: a fault that the demand-mapping service has declined stands. -/
def svcLook (s : State) (c comp page : Nat) : Option WalkAns :=
  match lookup s c comp page with
  | some (.fault sub true) => some (.fault sub true)
  | _ => some (walkTables s comp (page * 4096))

/-- R411. What a service comes to: its status word, a page that the demand-mapping service is to decide first (R92), or
pieces of memory that it cannot read yet (R138). -/
inductive Svc where
  | answer (w : W64) (s : State)
  | demand (comp page : Nat)
  | wait

/-- Why a range of a service has no pieces: a fault's subcode, or a page to be mapped. -/
inductive SvcBad where
  | sub (n : Nat)
  | demand (comp page : Nat)

/-- Where Zitrum finds a piece of a task's memory, by walking. -/
def svcRoute (s : State) (c va size align : Nat) (write : Bool) : Route3 :=
  match routeBy (svcLook s c) s c va size align (if write then .atom else .load) false with
  | .miss comp page => .miss comp page
  | .demand comp page => .demand comp page
  | .spad _ _ => .fault 0x0C 6
  | .fault code sub => .fault code sub
  | .page pa low high ta =>
    if dKind low = kAtomic ∨ (dKind low = kConst ∧ ¬ write) then .page pa low high ta else .fault 0x0C 6

/-- The physical pieces of a range, or why its first bad piece has none. -/
def svcPieces (s : State) (c align : Nat) (write : Bool) : List (Nat × Nat) → Except SvcBad (List (Nat × Nat))
  | [] => .ok []
  | (va, n) :: t =>
    match svcRoute s c va n align write with
    | .page pa _ _ _ => match svcPieces s c align write t with
      | .ok l => .ok ((pa, n) :: l)
      | .error e => .error e
    | .fault _ sub => .error (.sub sub)
    | .miss comp page => .error (.demand comp page)
    | .demand comp page => .error (.demand comp page)
    | .spad _ _ => .error (.sub 6)

/-- Reads physical pieces. -/
def readPieces (s : State) (l : List (Nat × Nat)) : List Byte := l.flatMap fun p => fwRead s p.1 p.2

/-- R136. The drains that an access to physical pieces brings about; none while it must wait in replay. -/
def touchPieces (s : State) (l : List (Nat × Nat)) : Option State :=
  l.foldl (fun o p => o.bind fun t => touch t (hitPhys p.1 p.2)) (some s)

/-- Writes physical pieces of a compartment's pages, each after the drains it brings about (R136). -/
def writePieces (comp lid : Nat) : List (Nat × Nat) → List Byte → State → State
  | [], _, s => s
  | (pa, n) :: t, bs, s =>
    writePieces comp lid t (bs.drop n) (pageWrite ((touch s (hitPhys pa n)).getD s) comp lid pa (bs.take n))

/-! ### Shared windows (R203) -/

/-- R203. Fields of a window entry. -/
def wV (w : BitVec 128) : Bool := w.getLsbD 127
def wW (w : BitVec 128) : Bool := w.getLsbD 126
def wComp (w : BitVec 128) : Nat := fld w.toNat 125 120
def wPages (w : BitVec 128) : Nat := fld w.toNat 75 44
def wHoff (w : BitVec 128) : Nat := fld w.toNat 43 12

/-- The lowest offset of the host-port window that has room for n pages. -/
def freeHoff (s : State) (n : Nat) : Option Nat :=
  let ends := 0 :: (s.ho.windows.filter fun e => wV e.2).map fun e => wHoff e.2 + wPages e.2
  (ends.filter fun o => decide (o + n ≤ 2 ^ 32) && s.ho.windows.all fun e =>
    !wV e.2 || decide (o + n ≤ wHoff e.2) || decide (wHoff e.2 + wPages e.2 ≤ o)).foldl
    (fun best o => match best with | none => some o | some b => some (min b o)) none

/-- The lowest free window entry. -/
def freeWindow (s : State) : Option Nat :=
  (List.range 256).find? fun e => !((tget s.ho.windows e).map wV).getD false

/-- R203. Creates a window. -/
def putWindow (s : State) (e : Nat) (w : Bool) (comp n hoff : Nat) (pages : List Nat) : State :=
  let v : BitVec 128 := BitVec.ofNat 128 (2 ^ 127 + (if w then 2 ^ 126 else 0) + comp % 64 * 2 ^ 120 + n % 2 ^ 32 * 2 ^ 44 +
    hoff % 2 ^ 32 * 2 ^ 12)
  { s with ho := { s.ho with windows := tput e v s.ho.windows, winPages := tput e (pages.map some) s.ho.winPages } }

/-- R203, R433. Whether a range of the host-port window lies in a valid window. -/
def inWindow (w : BitVec 128) (a n : Nat) : Bool :=
  wV w && decide (wHoff w * 4096 ≤ a) && decide (a + n ≤ (wHoff w + wPages w) * 4096)

/-- The bytes of a host access through BAR2. -/
def hostBytes (e : EvArg) : Nat := if e.b = 1 then e.body.length else e.c

/-- R203. Whether a host access to a window has been accepted and not yet performed. -/
def windowBusy (s : State) (w : BitVec 128) : Bool :=
  s.ho.behind.any fun v => v.row == .hostWindowAccess && inWindow w v.arg.a (hostBytes v.arg)

/-- R203. The same of any window of a compartment. -/
def windowsBusy (s : State) (comp : Nat) : Bool := s.ho.windows.any fun e => wComp e.2 == comp && windowBusy s e.2

/-- R203. Pages of windows that are no longer mapped. -/
def unshare (pages : List (Nat × Nat)) (t : Tab (List (Option Nat))) : Tab (List (Option Nat)) :=
  let gone (p : Nat) : Bool := pages.any fun r => decide (r.1 ≤ p * 4096) && decide (p * 4096 < r.1 + r.2)
  t.map fun e => (e.1, e.2.map fun p => p.bind fun n => if gone n then none else some n)

/-- R203. Revokes a window: every host access that came before it has been performed. -/
def dropWindow (s : State) (e : Nat) : State :=
  { s with ho := { s.ho with windows := tdel e s.ho.windows, winPages := tdel e s.ho.winPages } }

/-! ### Services (R411) -/

/-- R411. The service status word. -/
def svcWord (value sub status : Nat) : W64 := BitVec.ofNat 64 (value % 2 ^ 32 * 2 ^ 32 + sub * 256 + status)

/-- R411. A service whose area has no pieces. -/
def svcBad : SvcBad → State → Svc
  | .sub n, s => .answer (svcWord 0 n 2) s
  | .demand comp page, _ => .demand comp page

/-- R411. REPORT: the header of the request block, its line numbers, and the destination are checked in this order; a
line number above 24 bits is BADSVC (assumption 112), and so are more than 256 lines (assumption 142). -/
def svcReport (s : State) (c : Nat) (a b : W64) : Svc :=
  match svcPieces s c 1 false (cutPages 3 a.toNat 36) with
  | .error e => svcBad e s
  | .ok hp => match touchPieces s hp with
    | none => .wait
    | some s =>
      let hdr := readPieces s hp
      let n := bytesNat ((hdr.drop 32).take 2)
      if 256 < n then .answer (svcWord 0 2 1) s
      else match svcPieces s c 1 false (cutPages 3 (a.toNat + 36) (4 * n)) with
        | .error e => svcBad e s
        | .ok lp => match touchPieces s lp with
          | none => .wait
          | some s =>
            let nums := readPieces s lp
            let lines := (List.range n).map fun k => bytesNat ((nums.drop (4 * k)).take 4)
            if lines.any fun x => decide (2 ^ 24 ≤ x) then .answer (svcWord 0 2 1) s
            else
              let rep := reportBytes s (bComp (s.board c)) (hdr.take 32) lines
              match svcPieces s c 64 true (cutPages 8 b.toNat rep.length) with
              | .error e => svcBad e s
              | .ok dp => match touchPieces s dp with
                | none => .wait
                | some s => .answer (svcWord rep.length 0 0) (writePieces (bComp (s.board c)) (bLid (s.board c)) dp rep s)

/-- R203, R411, R88. SHARE: how the pages of the area may be shared, in order; the status and subcode of the first that may
not be. -/
def sharePages (s : State) (c : Nat) (w : Bool) : List Nat → Except (Nat × SvcBad) (List Nat)
  | [] => .ok []
  | va :: t =>
    match routeBy (svcLook s c) s c va 1 4096 .load false with
    | .miss comp page => .error (2, .demand comp page)
    | .demand comp page => .error (2, .demand comp page)
    | .spad _ _ => .error (2, .sub 6)
    | .fault code sub =>
      if pathOf va = 0 ∧ (sub = 5 ∨ (code = 0x0C ∧ (sub = 6 ∨ sub = 7)) ∨ (code = 0x0D ∧ sub = 1)) then .error (4, .sub 0)
      else .error (2, .sub sub)
    | .page pa low _ _ =>
      if pathOf va ≠ 0 then .error (2, .sub 6)
      else if dKind low = kLined ∨ (dKind low = kConst ∧ w) then .error (4, .sub 0)
      else match sharePages s c w t with
        | .ok l => .ok (pa / 4096 :: l)
        | .error e => .error e

/-- R411. SHARE; of no page it is BADSVC, subcode 2 (assumption 142). -/
def svcShare (s : State) (c : Nat) (a b : W64) : Svc :=
  let n := fld b.toNat 31 0
  let w := b.getLsbD 32
  if fld b.toNat 63 33 ≠ 0 ∨ n = 0 then .answer (svcWord 0 2 1) s
  else match sharePages s c w ((List.range n).map fun k => a.toNat + 4096 * k) with
    | .error (_, .demand comp page) => .demand comp page
    | .error (status, .sub sub) => .answer (svcWord 0 sub status) s
    | .ok pages =>
      match freeWindow s, freeHoff s n with
      | some e, some o => .answer (svcWord e 0 0) (putWindow s e w (bComp (s.board c)) n o pages)
      | _, _ => .answer (svcWord 0 0 3) s

/-- R411, R203. UNSHARE: it waits for the host accesses to its window that have been accepted. A FREE entry, which is of no
compartment, is DENIED like one of another compartment (assumption 155). -/
def svcUnshare (s : State) (c : Nat) (a : W64) : Svc :=
  match tget s.ho.windows a.toNat with
  | some w =>
    if wV w ∧ wComp w = bComp (s.board c) then
      if windowBusy s w then .wait else .answer (svcWord 0 0 0) (dropWindow s a.toNat)
    else .answer (svcWord 0 0 4) s
  | none => .answer (svcWord 0 0 4) s

/-- R411. A service on behalf of a task. -/
def service (s : State) (c : Nat) (code : Nat) (a b : W64) : Svc :=
  match code with
  | 1 => svcReport s c a b
  | 2 => svcShare s c a b
  | 3 => svcUnshare s c a
  | _ => .answer (svcWord 0 1 1) s

end Sys2Proof.Machine
end

