-- ==== Sys2Proof/Machine/Sy.lean ====
section
/-! DEFINITION. The `sy` operations (R327 to R340, R139, R140, R178 to R180, R185 to R187): tagged words, atomics,
fences and waits, barriers and crews, queue reads, and the Sett. -/

namespace Sys2Proof.Machine

/-- `.a` and `.b` of `sy`. -/
def syA (r : Req) (s : State) : W64 := toW (r.port s 0x380)
def syB (r : Req) (s : State) : W64 := toW (r.port s 0x381)

/-- R333. A crew number. -/
def crewOf (r : Req) : Nat := (toW r.v).toNat % 8

/-- R223. TEAMDOWN raised again by a barrier or a tagged wait in its handler. -/
def downAgain (s : State) (c : Nat) : Option Trap :=
  match (s.ctx c).down with
  | some d => if d.delivered then some { code := 0x15, info0 := d.info0, info1 := d.info1 } else none
  | none => none

/-! ### Tagged words -/

/-- Whether a tagged request arrives as its bundle issues. -/
def tagSync (op : Nat) (r : Req) (s : State) : Bool := decide (op ≤ 1) || pathOf r.va == 2 || laterSync r s

/-- R327. A tagged request: 0 ldf, 1 ldk, 2 stf, 3 stx. -/
def opTagged (op : Nat) : Op where
  unit := 10
  load := decide (op ≤ 1)
  writes := decide (2 ≤ op)
  at3 := decide (op ≤ 1)
  hold := fun r s => accessHold r s (route s r.c r.va 4 4 .tagged false) 4 (tagSync op r s)
  checks := fun r s =>
    (if op ≤ 1 then wbCheck 10 r s else []) ++
      routeTrap (route s r.c r.va 4 4 .tagged false) r.va r.slot (decide (2 ≤ op))
  commit := fun r s =>
    match route s r.c r.va 4 4 .tagged false with
    | .spad a _ =>
      let waits := if op ≤ 1 then !tagFull s a else op == 2 && tagFull s a
      match (if waits then downAgain s r.c else none) with
      | some t => .trap t
      | none => clusterCommit r s (decide (op ≤ 1))
    | .page _ _ _ _ => .go s
    | .fault _ _ => .go s
    | .miss _ _ => .go s
    | .demand _ _ => .go s
  effect := fun r s =>
    match route s r.c r.va 4 4 .tagged false with
    | .spad a _ =>
      let dest := if op ≤ 1 then wbDest 10 r s else none
      let s := markEmpty s r.c dest
      let data := (syA r s).setWidth 32
      if tagSync op r s then
        tagArrive s { ctx := r.c, num := (s.ctx r.c).bundles, word := a / 4, op := op, data := data, dest := dest, va := toW r.v }
      else sendAcc s (accOfReq r s (.tag op) (.spad a) 0 4 (data.setWidth 2048) 0 none) 9
    | .page _ _ _ _ => s
    | .fault _ _ => s
    | .miss _ _ => s
    | .demand _ _ => s

/-! ### Atomics -/

/-- Whether an atomic is performed as its bundle issues. -/
def atomSync (r : Req) (s : State) (ret : Bool) : Bool := ret || pathOf r.va == 2 || laterSync r s

/-- R329 to R331. An atomic; `ret` for the forms that return the old word. -/
def opAtom (op : AtomOp) (ret : Bool) : Op where
  unit := 10
  writes := true
  at3 := ret
  adds := fun r s => pageAdds (route s r.c r.va 4 4 .atom false) 4
  blocks := fun r s => accessBlocks s (route s r.c r.va 4 4 .atom false) 4 false
  hold := fun r s =>
    let rt := route s r.c r.va 4 4 .atom false
    match accessHold r s rt 4 (atomSync r s ret) with
    | some h => some h
    | none => match rt with
      | .spad a _ =>
        if atomSync r s ret ∧ (atomArrive s (whoOf s r.c r.slot) op (.spad a) ((syA r s).setWidth 32) ((syB r s).setWidth 32)).isNone
        then some (.other, s) else none
      | .page _ _ _ _ => none
      | .fault _ _ => none
      | .miss _ _ => none
      | .demand _ _ => none
  checks := fun r s =>
    (if ret then wbCheck 10 r s else []) ++ routeTrap (route s r.c r.va 4 4 .atom false) r.va r.slot true
  commit := fun r s => clusterCommit r s ret
  effect := fun r s =>
    let dest := if ret then wbDest 10 r s else none
    let a := (syA r s).setWidth 32
    let b := (syB r s).setWidth 32
    let s := markEmpty s r.c dest
    match route s r.c r.va 4 4 .atom false with
    | .spad o _ =>
      match (if atomSync r s ret then atomArrive s (whoOf s r.c r.slot) op (.spad o) a b else none) with
      | some (old, t) => if ret then sendValue t r.c dest (old.map fun w => w.setWidth 2048) (toW r.v) 2 else t
      | none => sendAcc s (accOfReq r s (.atom op ret) (.spad o) 0 4 (a.setWidth 2048) b dest) 9
    | .page pa _ _ _ =>
      sendAcc s (accOfReq r s (.atom op ret) (.phys pa) pa 4 (a.setWidth 2048) b dest) 0
    | .fault _ _ => s
    | .miss _ _ => s
    | .demand _ _ => s

/-! ### Barriers and crews (R178 to R180) -/

/-- Members of a context's team that have not exited. -/
def liveMembers (s : State) (c : Nat) : List Nat :=
  (membersOf (s.ctx c).slot (s.board c)).filter fun m => (s.ctx m).run != .exited

/-- R178. Whether a member has arrived at the barrier that follows the first n: it waits there, or has completed it. -/
def reached (n : Nat) (x : Ctx) : Bool := decide (n < x.bars) || (x.bars == n && x.atTbar)

/-- R178. Whether every live member of a context's team but itself has arrived at its next barrier. -/
def tbarMet (s : State) (c : Nat) : Bool :=
  (liveMembers s c).all fun m => m == c || reached (s.ctx c).bars (s.ctx m)

/-- The key of a crew. -/
def crewKey (s : State) (c crew : Nat) : Nat := (s.ctx c).slot * 8 + crew
def crewMembers (s : State) (key : Nat) : List Nat := (tget s.tm.crews key).getD []

/-- R179. Completes the open barrier of a crew when all whom it awaits have arrived; a member that arrived
meanwhile opens the next one. -/
def cbarCheck (s : State) (key : Nat) : State :=
  let crew := key % 8
  match tget s.tm.crewOpen key with
  | none => s
  | some l =>
    if l.all fun m => (s.ctx m).atCbar == some crew then
      let s := l.foldl (fun t m => t.modCtx m fun x => { x with atCbar := none, released := sins crew x.released }) s
      let now := crewMembers s key
      if now.any fun m => (s.ctx m).atCbar == some crew then
        { s with tm := { s.tm with crewOpen := tput key now s.tm.crewOpen } }
      else { s with tm := { s.tm with crewOpen := tdel key s.tm.crewOpen } }
    else s

/-- R179. A context leaves a crew, and an open barrier stops waiting for it. -/
def leaveCrew (s : State) (c crew : Nat) : State :=
  let key := crewKey s c crew
  let drop (t : Tab (List Nat)) : Tab (List Nat) := match tget t key with
    | some l => tput key (sdel c l) t
    | none => t
  cbarCheck { s with tm := { s.tm with crews := drop s.tm.crews, crewOpen := drop s.tm.crewOpen } } key

/-- R223. TEAMDOWN raised again by a barrier. -/
def barrierDown (r : Req) (s : State) : Commit :=
  match downAgain s r.c with
  | some t => .trap t
  | none => .go s

/-- R178, R180. `tbar`: the effect of a fence at pkg, then the arrival; it is held until every other live member has
arrived. -/
def opSyTbar : Op where
  unit := 10
  taint := false
  hold := fun r s =>
    if (downAgain s r.c).isSome then none
    else if fenceOut s r.c (s.ctx r.c).bundles then some (.fence, s)
    else if tbarMet s r.c then none
    else some (.tbar, s.modCtx r.c fun x => { x with atTbar := true })
  commit := barrierDown
  effect := fun r s => s.modCtx r.c fun x =>
    { x with atTbar := false, bars := x.bars + 1, dirty := r.peers.any fun e => e.unit == 8 || e.unit == 9 }

/-- The meaning of `sy.tbar`. -/
def execSyTbar (m : Mv) (s : State) : Host.Outcome State Fault Refusal := issueOne m (.trig opSyTbar) s

/-- R179. A member arrives at the barrier of its crew, unless one that it arrived at before has been completed for it; the
first to arrive opens it. A context outside the crew does not arrive. -/
def cbarArrive (s : State) (c crew : Nat) : State :=
  let key := crewKey s c crew
  if (s.ctx c).released.contains crew ∨ ¬ (crewMembers s key).contains c then s
  else
    let s := s.modCtx c fun x => { x with atCbar := some crew }
    let s := if (tget s.tm.crewOpen key).isSome then s
      else { s with tm := { s.tm with crewOpen := tput key (crewMembers s key) s.tm.crewOpen } }
    cbarCheck s key

/-- R179. `cbar`: 1 for a member once the open barrier completes, 0 at once for any other context. -/
def opSyCbar : Op where
  unit := 10
  checks := wbCheck 10
  hold := fun r s =>
    if (downAgain s r.c).isSome ∨ ¬ (crewMembers s (crewKey s r.c (crewOf r))).contains r.c then none
    else if fenceOut s r.c (s.ctx r.c).bundles then some (.fence, s)
    else
      let t := cbarArrive s r.c (crewOf r)
      if (t.ctx r.c).released.contains (crewOf r) then none else some (.cbar (crewOf r), t)
  commit := barrierDown
  effect := fun r s =>
    let t := cbarArrive s r.c (crewOf r)
    let v : Vec := if (t.ctx r.c).released.contains (crewOf r) then 1 else 0
    landResult 10 1 0x2A0 v r (t.modCtx r.c fun x => { x with released := sdel (crewOf r) x.released })

/-- The meaning of `sy.cbar`. -/
def execSyCbar (m : Mv) (s : State) : Host.Outcome State Fault Refusal := issueOne m (.trig opSyCbar) s

/-- R179. Adds the context to a crew. -/
def opSyJoin : Op where
  unit := 10
  effect := fun r s =>
    let key := crewKey s r.c (crewOf r)
    { s with tm := { s.tm with crews := tput key (sins r.c (crewMembers s key)) s.tm.crews } }

/-- The meaning of `sy.join`. -/
def execSyJoin (m : Mv) (s : State) : Host.Outcome State Fault Refusal := issueOne m (.trig opSyJoin) s

/-- R179. Removes the context from a crew. -/
def opSyLeave : Op where
  unit := 10
  effect := fun r s => leaveCrew s r.c (crewOf r)

/-- The meaning of `sy.leave`. -/
def execSyLeave (m : Mv) (s : State) : Host.Outcome State Fault Refusal := issueOne m (.trig opSyLeave) s

/-! ### Fences, waits and queues -/

/-- R139, R332. `fence`: later memory bundles wait for the accesses of earlier bundles. -/
def opSyFence : Op where
  unit := 10
  taint := false
  effect := fun r s =>
    let keep := (s.ctx r.c).fences.filter fun f => fenceOut s r.c f.limit
    s.modCtx r.c fun x => { x with fences := keep ++ [{ scope := (toW r.v).toNat % 8, limit := x.bundles }] }

/-- The meaning of `sy.fence`. -/
def execSyFence (m : Mv) (s : State) : Host.Outcome State Fault Refusal := issueOne m (.trig opSyFence) s

/-- R140, R332. `pwait`: holds until the counter of the scope is 0. -/
def opSyPwait : Op where
  unit := 10
  taint := false
  hold := fun r s => if pendOf (s.ctx r.c).pend ((toW r.v).toNat % 8) = 0 then none else some (.pwait, s)
  effect := fun _ s => s

/-- The meaning of `sy.pwait`. -/
def execSyPwait (m : Mv) (s : State) : Host.Outcome State Fault Refusal := issueOne m (.trig opSyPwait) s

/-- R336. What a read of a queue gives. -/
def queueRead (x : Ctx) (peek : Bool) (q : Nat) : W64 :=
  if peek then (queueOf x q).headD 0 else BitVec.ofNat 64 (queueOf x q).length

/-- R336. A read of a queue after the changes of its cycle. -/
def opQueue (peek : Bool) : Op where
  unit := 10
  checks := wbCheck 10
  effect := fun r s =>
    let q := (toW r.v).toNat % 16
    s.fly r.c { due := s.cycle + 2, unit := 10, acts := [.queue peek q (queueRead (s.ctx r.c) peek q) (wbDest 10 r s)] }

/-! ### The Sett (R337, R338) -/

/-- R338. PROT of a Sett operation. -/
def trapSett (sub item slot : Nat) : Nat × Trap :=
  (5, { code := 0x0C, info0 := BitVec.ofNat 64 item, info1 := BitVec.ofNat 64 (slot % 8 + 16 * sub) })

/-- `.a`[31:0], the item. -/
def syItem (r : Req) (s : State) : Nat := (syA r s).toNat % 2 ^ 32

/-- R338. The checks of a Sett operation: `item` for one that names an item, `done` for `sdone`, `pop` for a
pop. -/
def settChecks (item done pop : Bool) (r : Req) (s : State) : List (Nat × Trap) :=
  let i := syItem r s
  match s.launchOf r.c with
  | none => [trapSett 0xB 0 r.slot]
  | some l =>
    if ¬ modeGain l.mode then [trapSett 0xB 0 r.slot]
    else if item ∧ l.nitems ≤ i then [trapSett 0xC i r.slot]
    else if done ∧ ¬ (s.ctx r.c).held.contains i then [trapSett 0xD i r.slot]
    else if pop ∧ 16 ≤ (s.ctx r.c).held.length + (popsOut s r.c).length then [trapSett 0xE 0 r.slot]
    else []

/-- R186, R337. A pop, or a poll, goes to its die's Sett. -/
def opPop (poll : Bool) : Op where
  unit := 10
  checks := fun r s => wbCheck 10 r s ++ settChecks false false true r s
  effect := fun r s =>
    let dest := wbDest 10 r s
    sendSett (markEmpty s r.c dest) (settOp s r.c (if poll then 4 else 3) 0 0 dest)

/-- R185, R187, R338. An operation on an item goes to the Sett that holds it; an item that is done leaves the held list. -/
def opItem (kind : Nat) : Op where
  unit := 10
  checks := settChecks true (kind == 2) false
  effect := fun r s =>
    let i := syItem r s
    let t := if kind = 2 then s.modCtx r.c fun x => { x with held := x.held.erase i } else s
    sendSett t (settOp s r.c kind i (toW r.v) none)

/-- R327. Waits for full, takes the word, leaves it empty. -/
def opSyLdf : Op := opTagged 0

/-- The meaning of `sy.ldf`. -/
def execSyLdf (m : Mv) (s : State) : Host.Outcome State Fault Refusal := issueOne m (.trig opSyLdf) s

/-- R327. Waits for full, takes the word, leaves it full. -/
def opSyLdk : Op := opTagged 1

/-- The meaning of `sy.ldk`. -/
def execSyLdk (m : Mv) (s : State) : Host.Outcome State Fault Refusal := issueOne m (.trig opSyLdk) s

/-- R327. Waits for empty, stores the word, sets it full. -/
def opSyStf : Op := opTagged 2

/-- The meaning of `sy.stf`. -/
def execSyStf (m : Mv) (s : State) : Host.Outcome State Fault Refusal := issueOne m (.trig opSyStf) s

/-- R327. Stores the word and sets it full. -/
def opSyStx : Op := opTagged 3

/-- The meaning of `sy.stx`. -/
def execSyStx (m : Mv) (s : State) : Host.Outcome State Fault Refusal := issueOne m (.trig opSyStx) s

/-- R329. Returns the old word. -/
def opSySwap : Op := opAtom .swap true

/-- The meaning of `sy.swap`. -/
def execSySwap (m : Mv) (s : State) : Host.Outcome State Fault Refusal := issueOne m (.trig opSySwap) s

/-- R329. Returns the old word. -/
def opSyCas : Op := opAtom .cas true

/-- The meaning of `sy.cas`. -/
def execSyCas (m : Mv) (s : State) : Host.Outcome State Fault Refusal := issueOne m (.trig opSyCas) s

/-- R329. Returns the old word. -/
def opSyFadd : Op := opAtom .fadd true

/-- The meaning of `sy.fadd`. -/
def execSyFadd (m : Mv) (s : State) : Host.Outcome State Fault Refusal := issueOne m (.trig opSyFadd) s

/-- R329. Returns the old word. -/
def opSyFaddf : Op := opAtom .faddf true

/-- The meaning of `sy.faddf`. -/
def execSyFaddf (m : Mv) (s : State) : Host.Outcome State Fault Refusal := issueOne m (.trig opSyFaddf) s

/-- R329. Returns nothing. -/
def opSyRadd : Op := opAtom .radd false

/-- The meaning of `sy.radd`. -/
def execSyRadd (m : Mv) (s : State) : Host.Outcome State Fault Refusal := issueOne m (.trig opSyRadd) s

/-- R329. Returns nothing. -/
def opSyRaddf : Op := opAtom .raddf false

/-- The meaning of `sy.raddf`. -/
def execSyRaddf (m : Mv) (s : State) : Host.Outcome State Fault Refusal := issueOne m (.trig opSyRaddf) s

/-- R329. Returns nothing. -/
def opSyRmax : Op := opAtom .rmax false

/-- The meaning of `sy.rmax`. -/
def execSyRmax (m : Mv) (s : State) : Host.Outcome State Fault Refusal := issueOne m (.trig opSyRmax) s

/-- R329. Returns nothing. -/
def opSyRmin : Op := opAtom .rmin false

/-- The meaning of `sy.rmin`. -/
def execSyRmin (m : Mv) (s : State) : Host.Outcome State Fault Refusal := issueOne m (.trig opSyRmin) s

/-- R329. Returns nothing. -/
def opSyRmaxf : Op := opAtom .rmaxf false

/-- The meaning of `sy.rmaxf`. -/
def execSyRmaxf (m : Mv) (s : State) : Host.Outcome State Fault Refusal := issueOne m (.trig opSyRmaxf) s

/-- R329. Returns nothing. -/
def opSyRand : Op := opAtom .rand false

/-- The meaning of `sy.rand`. -/
def execSyRand (m : Mv) (s : State) : Host.Outcome State Fault Refusal := issueOne m (.trig opSyRand) s

/-- R329. Returns nothing. -/
def opSyRor : Op := opAtom .ror false

/-- The meaning of `sy.ror`. -/
def execSyRor (m : Mv) (s : State) : Host.Outcome State Fault Refusal := issueOne m (.trig opSyRor) s

/-- R329. Returns nothing. -/
def opSyRxor : Op := opAtom .rxor false

/-- The meaning of `sy.rxor`. -/
def execSyRxor (m : Mv) (s : State) : Host.Outcome State Fault Refusal := issueOne m (.trig opSyRxor) s

/-- R336. The entry count of a queue. -/
def opSyQlen : Op := opQueue false

/-- The meaning of `sy.qlen`. -/
def execSyQlen (m : Mv) (s : State) : Host.Outcome State Fault Refusal := issueOne m (.trig opSyQlen) s

/-- R336. The head entry of a queue, or 0. -/
def opSyQpeek : Op := opQueue true

/-- The meaning of `sy.qpeek`. -/
def execSyQpeek (m : Mv) (s : State) : Host.Outcome State Fault Refusal := issueOne m (.trig opSyQpeek) s

/-- R186. Pops the eligible item of greatest gain, or waits. -/
def opSySpop : Op := opPop false

/-- The meaning of `sy.spop`. -/
def execSySpop (m : Mv) (s : State) : Host.Outcome State Fault Refusal := issueOne m (.trig opSySpop) s

/-- R337. As `spop`, but answers at once. -/
def opSySpoll : Op := opPop true

/-- The meaning of `sy.spoll`. -/
def execSySpoll (m : Mv) (s : State) : Host.Outcome State Fault Refusal := issueOne m (.trig opSySpoll) s

/-- R185. Adds a delta to the gain of an item. -/
def opSySgadd : Op := opItem 0

/-- The meaning of `sy.sgadd`. -/
def execSySgadd (m : Mv) (s : State) : Host.Outcome State Fault Refusal := issueOne m (.trig opSySgadd) s

/-- R185. Sets the gain of an item. -/
def opSySgset : Op := opItem 1

/-- The meaning of `sy.sgset`. -/
def execSySgset (m : Mv) (s : State) : Host.Outcome State Fault Refusal := issueOne m (.trig opSySgset) s

/-- R187. Completes an item with a residual. -/
def opSySdone : Op := opItem 2

/-- The meaning of `sy.sdone`. -/
def execSySdone (m : Mv) (s : State) : Host.Outcome State Fault Refusal := issueOne m (.trig opSySdone) s

end Sys2Proof.Machine
end

