-- ==== Sys2Proof/Machine/Sys.lean ====
section
/-! DEFINITION. The `sys` operations (R401 to R416): the end of a task, vectors, the trap record and trap-return,
views, the flag word, launches, steps, services, logs and counters. -/

namespace Sys2Proof.Machine

/-- `.a` and `.b` of `sys`. -/
def sysA (r : Req) (s : State) : W64 := toW (r.port s 0x3A0)
def sysB (r : Req) (s : State) : W64 := toW (r.port s 0x3A1)

/-- Whether TEAMDOWN has been delivered to a context (R223). -/
def downDelivered (x : Ctx) : Bool := match x.down with
  | some d => d.delivered
  | none => false

/-! ### Ending a context (R178, R223, R403) -/

/-- R359. The banks that a context holds. -/
def heldBanks (s : State) (c : Nat) : List (Nat × Bank) := s.cr.banks.filter fun e => e.2.holder == c

/-- R223, R359. The banks of a context become free. -/
def freeBanks (s : State) (c : Nat) : State :=
  { s with cr := { s.cr with banks := s.cr.banks.filter fun e => e.2.holder != c } }

/-- Arrivals and tagged requests of a context are discarded (R403). -/
def dropArrivals (s : State) (c : Nat) : State :=
  { s with ms := { s.ms with
    arrivals := s.ms.arrivals.filter fun a => a.ctx != c
    accs := s.ms.accs.map fun a => if a.ctx = c then { a with dest := none } else a
    tagq := s.ms.tagq.filter fun q => q.ctx != c
    walks := s.ms.walks.map fun w => { w with ctxs := w.ctxs.filter fun k => k != c }
    demand := s.ms.demand.filter fun d => d.1 != c } }

/-- R403, R223. A context ends: later results and arrivals are discarded, its open patches too, its items return,
it leaves its crews, and no barrier waits for it. -/
def endContext (s : State) (c : Nat) (run : Run) : State :=
  let s := s.modCtx c fun x => { noArrival x with
    run := run, flights := [], replay := [], preempt := false,
    fences := [], reissue := none, pendTrap := none }
  let s := freeBanks (releaseItems (discardOpens (dropArrivals (stopCall s c) c) c) c) c
  let s := (List.range 8).foldl (fun t k => leaveCrew t c k) s
  divergeCheck (countTeam s c) (bLid (s.board c))

/-- R178. The checks of an exit. -/
def exitChecks (r : Req) (s : State) : List (Nat × Trap) :=
  let x := s.ctx r.c
  let n := (heldBanks s r.c).length
  if downDelivered x then []
  else
    (if x.dirty ∨ x.bars = 0 then [(4, { code := 0x16 })] else []) ++
      (if n ≠ 0 then [(4, { code := 0x09, info0 := BitVec.ofNat 64 n })] else [])

/-- R403. `exit`. -/
def opSysExit : Op where
  unit := 11
  checks := exitChecks
  effect := fun r s => endContext s r.c .exited

/-- The meaning of `sys.exit`. -/
def execSysExit (m : Mv) (s : State) : Host.Outcome State Fault Refusal := issueOne m (.trig opSysExit) s

/-! ### Vectors, record and return -/

/-- R404. Sets or clears a vector. -/
def setVector (x : Ctx) (cause : Nat) (v : BitVec 32) : Ctx :=
  { x with vectors := if v = 0xFFFFFFFF then tdel cause x.vectors else tput cause v x.vectors }

/-- R404. `vec`. -/
def opSysVec : Op where
  unit := 11
  effect := fun r s => s.modCtx r.c fun x =>
    let cause := (sysA r s).toNat % 256
    let v := (toW r.v).setWidth 32
    if cause = 0 then (List.range 24).foldl (fun y k => setVector y (k + 1) v) x
    else if cause ≤ 0x18 then setVector x cause v
    else x

/-- The meaning of `sys.vec`. -/
def execSysVec (m : Mv) (s : State) : Host.Outcome State Fault Refusal := issueOne m (.trig opSysVec) s

/-- R405. Writes a word of the trap record; of `trap.cause` the fields DLY, SHD and CODE. -/
def setRecord (x : Ctx) (word : Nat) (v : W64) : Ctx :=
  match word with
  | 0 => { x with cause := (x.cause &&& 0xFF1FFF00) ||| (v.setWidth 32 &&& 0x00E000FF) }
  | 1 => { x with tpc := v.setWidth 32 }
  | 2 => { x with tnext := v.setWidth 32 }
  | 3 => { x with info0 := v }
  | 4 => { x with info1 := v }
  | _ => x

/-- R405. `trw`. -/
def opSysTrw : Op where
  unit := 11
  effect := fun r s => s.modCtx r.c fun x => setRecord x ((sysA r s).toNat % 8) (toW r.v)

/-- The meaning of `sys.trw`. -/
def execSysTrw (m : Mv) (s : State) : Host.Outcome State Fault Refusal := issueOne m (.trig opSysTrw) s

/-- R406, R268, R212. ILLMOVE outside a handler; BRSHADOW in a shadow or a loop body. -/
def tretDecode (x : Ctx) (slot : Nat) : Option Trap :=
  if ¬ tact x then some (trapIllmove slot)
  else if x.shadow.isSome ∨ ¬ x.loops.isEmpty then some (trapBrshadow slot)
  else none

/-- R406. `tret`. -/
def opSysTret : Op where
  unit := 11
  dec := tretDecode
  effect := fun r s =>
    if downDelivered (s.ctx r.c) then endContext s r.c .exited
    else s.modCtx r.c fun x => let y := trapReturn x; { y with jump := some (true, y.pc) }

/-- The meaning of `sys.tret`. -/
def execSysTret (m : Mv) (s : State) : Host.Outcome State Fault Refusal := issueOne m (.trig opSysTret) s

/-! ### Views and the flag word -/

/-- R246. BASE with the bits below the view's alignment cleared. -/
def alignBase (view : Nat) (v : W64) : BitVec 15 :=
  let n := match view with | 0 => 2 | 1 => 3 | 2 => 8 | _ => 1
  BitVec.ofNat 15 (v.toNat % 32768 / 2 ^ n * 2 ^ n)

/-- R407. Writes a view base, for bundles that issue from t + 2 on. -/
def opView (view : Nat) : Op where
  unit := 11
  effect := fun r s => s.fly r.c { due := s.cycle + 2, unit := 11, acts := [.view view (alignBase view (toW r.v))] }

/-- R407. The S view. -/
def opSysWvws : Op := opView 0
/-- The meaning of `sys.wvws`. -/
def execSysWvws (m : Mv) (s : State) : Host.Outcome State Fault Refusal := issueOne m (.trig opSysWvws) s

/-- R407. The D view. -/
def opSysWvwd : Op := opView 1
/-- The meaning of `sys.wvwd`. -/
def execSysWvwd (m : Mv) (s : State) : Host.Outcome State Fault Refusal := issueOne m (.trig opSysWvwd) s

/-- R407. The V view. -/
def opSysWvwv : Op := opView 2
/-- The meaning of `sys.wvwv`. -/
def execSysWvwv (m : Mv) (s : State) : Host.Outcome State Fault Refusal := issueOne m (.trig opSysWvwv) s

/-- R407. The H view. -/
def opSysWvwh : Op := opView 3
/-- The meaning of `sys.wvwh`. -/
def execSysWvwh (m : Mv) (s : State) : Host.Outcome State Fault Refusal := issueOne m (.trig opSysWvwh) s

/-- R407. `vwrd`: BASE as it stands for bundles that issue at t + 2. -/
def opSysVwrd : Op := opResult 11 2 0x2B0 fun r s =>
  BitVec.ofNat 2048 (baseOf (landDue (s.ctx r.c) (s.cycle + 2)) ((toW r.v).toNat % 4))

/-- The meaning of `sys.vwrd`. -/
def execSysVwrd (m : Mv) (s : State) : Host.Outcome State Fault Refusal := issueOne m (.trig opSysVwrd) s

/-- R408. `flrd`: a result that lands in this cycle has landed (assumption 154). -/
def opSysFlrd : Op := opResult 11 2 0x2B0 fun r s => (s.ctx r.c).flags.setWidth 2048

/-- The meaning of `sys.flrd`. -/
def execSysFlrd (m : Mv) (s : State) : Host.Outcome State Fault Refusal := issueOne m (.trig opSysFlrd) s

/-- R408. `flwr`. -/
def opSysFlwr : Op where
  unit := 11
  effect := fun r s => s.modCtx r.c fun x => { x with flags := flagWrite x.flags (toW r.v) }

/-- The meaning of `sys.flwr`. -/
def execSysFlwr (m : Mv) (s : State) : Host.Outcome State Fault Refusal := issueOne m (.trig opSysFlwr) s

/-! ### Launches, steps and services -/

/-- R409. Where the packet of a launch stands: the 192 bytes of its header. -/
def packetRoute (r : Req) (s : State) : Route3 := headerRoute s r.c r.va .packet

/-- The physical address of a route to a page. -/
def routePa (rt : Route3) : Option Nat :=
  match rt with
  | .page pa _ _ _ => some pa
  | .fault _ _ => none
  | .miss _ _ => none
  | .demand _ _ => none
  | .spad _ _ => none

/-- R409. The physical address of a 64-byte block of a packet: by the translation that the check of its header has used, and
of a later page by the tables; none where a later block does not translate. -/
def packetBlock (s : State) (c va : Nat) : Option Nat :=
  (routePa (route s c va 64 64 .packet false)).or
    (routePa (routeBy (fun comp page => some (walkTables s comp (page * 4096))) s c va 64 64 .packet false))

/-- R163, R409. The packet joins Zitrum's queue. -/
def postLaunch (s : State) (c va : Nat) : State :=
  let (id, s) := s.fresh
  let q : Request :=
    { route := .ctx (bLid (s.board c)) (s.rank c), code := 1, ticket := 0, len := 0, body := [], own := some (bComp (s.board c))
      blocks := (List.range 19).map fun k => packetBlock s c (va + 64 * k), num := id, taken := true }
  { s with ho := { s.ho with requests := s.ho.requests ++ [q] } }.modCtx c fun x => { x with sent := true }

/-- R409. `launch`: a release at pkg, then held until Zitrum has validated the packet. -/
def opSysLaunch : Op where
  unit := 11
  hold := fun r s =>
    if (s.ctx r.c).sent then none
    else match routeHold s r.c (packetRoute r s) with
      | some h => some h
      | none => if fenceHolds s r.c then some (.fence, s) else none
  checks := fun r s =>
    wbCheck 11 r s ++
      (if (s.ctx r.c).sent then [] else routeTrap (packetRoute r s) (toW r.v).toNat r.slot false)
  commit := fun r s =>
    if (s.ctx r.c).answer.isSome then .go s
    else if (s.ctx r.c).sent then .held .launch s
    else if outstanding s r.c (s.ctx r.c).bundles then .held .fence s
    else .held .launch (postLaunch s r.c (toW r.v).toNat)
  effect := fun r s =>
    let v : W64 := match (s.ctx r.c).answer with
      | some (.value v) => v
      | some (.trap _) => 0
      | none => 0
    landResult 11 1 0x2B0 (ofW v) r s

/-- The meaning of `sys.launch`. -/
def execSysLaunch (m : Mv) (s : State) : Host.Outcome State Fault Refusal := issueOne m (.trig opSysLaunch) s

/-- R227, R428. Whether a context has a patch open, a matrix call running, or a Sett operation on its way. -/
def stepBusy (s : State) (c : Nat) : Bool :=
  s.ms.lines.any (fun e => e.2.opens.any fun o => o.ctx == c) || s.cr.calls.any (fun k => k.2.ctx == c) ||
    s.tm.settOps.any fun o => o.ctx == c

/-- R410, R223. `stepb`: arrives, and is held until Zitrum has performed the boundary. It is a barrier of the whole launch,
and so raises TEAMDOWN again in the handler of one (assumption 111). -/
def opSysStepb : Op where
  unit := 11
  checks := wbCheck 11
  hold := fun r s =>
    if (downAgain s r.c).isSome ∨ (s.ctx r.c).stepped then none
    else if stepBusy s r.c then some (.stepb, s)
    else some (.stepb, s.modCtx r.c fun x => { x with atStep := true })
  commit := barrierDown
  effect := fun r s =>
    let n := ((s.launchOf r.c).map (·.steps)).getD 0
    landResult 11 1 0x2B0 (BitVec.ofNat 2048 n) r (s.modCtx r.c fun x => { x with stepped := false })

/-- The meaning of `sys.stepb`. -/
def execSysStepb (m : Mv) (s : State) : Host.Outcome State Fault Refusal := issueOne m (.trig opSysStepb) s

/-- R411. The service that a trigger asks for. -/
def serviceOfReq (r : Req) (s : State) : Svc := service s r.c ((toW r.v).toNat % 256) (sysA r s) (sysB r s)

/-- R411, R92, R141. `svc`: held until the Stationmaster can perform the service, with a page of its areas that is to be mapped
on demand decided first, and before a REPORT the accesses of earlier bundles performed; it is performed as the bundle issues,
once nothing else of it waits or traps. -/
def opSysSvc : Op where
  unit := 11
  checks := wbCheck 11
  hold := fun r s =>
    if ¬ s.rt.zitrum then some (.service, s)
    else if (toW r.v).toNat % 256 = 1 ∧ outstanding s r.c (s.ctx r.c).bundles then some (.fence, s)
    else match serviceOfReq r s with
      | .answer _ _ => none
      | .demand comp page => some (.service, startDemand s r.c comp page)
      | .wait => some (.service, s)
  last := fun r s => match serviceOfReq r s with
    | .answer w t => .go (t.modCtx r.c fun x => { x with answer := some (.value w) })
    | .demand comp page => .held .service (startDemand s r.c comp page)
    | .wait => .held .service s
  effect := fun r s =>
    let v : W64 := match (s.ctx r.c).answer with
      | some (.value v) => v
      | some (.trap _) => 0
      | none => 0
    landResult 11 1 0x2B0 (ofW v) r s

/-- The meaning of `sys.svc`, service 0x01. -/
def execSysSvcReport (m : Mv) (s : State) : Host.Outcome State Fault Refusal := issueOne m (.trig opSysSvc) s
/-- The meaning of `sys.svc`, service 0x02. -/
def execSysSvcShare (m : Mv) (s : State) : Host.Outcome State Fault Refusal := issueOne m (.trig opSysSvc) s
/-- The meaning of `sys.svc`, service 0x03. -/
def execSysSvcUnshare (m : Mv) (s : State) : Host.Outcome State Fault Refusal := issueOne m (.trig opSysSvc) s

/-! ### Logs, counters and yield -/

/-- R412, R226. The log word of the context's die: the records that have been made or replayed. -/
def logWord (s : State) (c : Nat) : W64 :=
  let b := s.board c
  let lid := bLid b
  if ¬ modeDet (bMode b) then 0
  else
    let recs := ((s.log lid (s.seenDie c)).map fun g => g.recs.length - g.replay.length).getD 0
    let rep := ((s.launchOf c).map (·.replay)).getD false
    BitVec.ofNat 64 (recs % 2 ^ 32 + (if rep ∨ replaying s lid (s.seenDie c) then 2 ^ 32 else 0) +
      (if replaying s lid (s.seenDie c) then 2 ^ 33 else 0))

/-- R412. `logc`. -/
def opSysLogc : Op := opResult 11 1 0x2B0 fun r s => if (toW r.v).toNat % 4 = 0 then ofW (logWord s r.c) else 0

/-- The meaning of `sys.logc`. -/
def execSysLogc (m : Mv) (s : State) : Host.Outcome State Fault Refusal := issueOne m (.trig opSysLogc) s

/-- R414. The counter of a number. -/
def counterOf (x : Ctx) (n : Nat) : Counter := (tget x.counters n).getD {}

/-- R414. `ctrcfg`: its own bundle and cycle are counted under what it writes (assumption 153). -/
def opSysCtrcfg : Op where
  unit := 11
  effect := fun r s => s.modCtx r.c fun x =>
    let n := (sysA r s).toNat % 8
    let v := toW r.v
    let k : Counter :=
      { count := if v.getLsbD 9 then 0 else (counterOf x n).count, en := v.getLsbD 8, evt := v.setWidth 8 }
    { x with counters := tput n k x.counters }

/-- The meaning of `sys.ctrcfg`. -/
def execSysCtrcfg (m : Mv) (s : State) : Host.Outcome State Fault Refusal := issueOne m (.trig opSysCtrcfg) s

/-- R414. `ctrrd`. -/
def opSysCtrrd : Op := opResult 11 2 0x2B0 fun r s => (counterOf (s.ctx r.c) ((toW r.v).toNat % 8)).count.setWidth 2048

/-- The meaning of `sys.ctrrd`. -/
def execSysCtrrd (m : Mv) (s : State) : Host.Outcome State Fault Refusal := issueOne m (.trig opSysCtrrd) s

/-- R415. `yield`: the next bundle counts as blocked for one cycle. -/
def opSysYield : Op where
  unit := 11
  effect := fun r s => s.modCtx r.c fun x => { x with notBefore := max x.notBefore (s.cycle + 2) }

/-- The meaning of `sys.yield`. -/
def execSysYield (m : Mv) (s : State) : Host.Outcome State Fault Refusal := issueOne m (.trig opSysYield) s

end Sys2Proof.Machine
end

