-- ==== Sys2Proof/Machine/Place.lean ====
section
/-! DEFINITION. Placement (R168 to R175, R181, R182): what the slots of a cluster occupy, where a team fits, who is
placed next, who is swapped out for it, and the bind of a team. -/

namespace Sys2Proof.Machine

/-! ### What is occupied -/

/-- The slots that hold a team, will by a write that Zitrum has decided, or are kept for a candidate. -/
def occupied (s : State) : List (Nat × BitVec 512) :=
  (s.tm.boards.filter fun e => bV e.2) ++ s.tm.placing ++ s.tm.reserved.map fun e => (e.key, e.word)

/-- Those of a cluster. -/
def occIn (occ : List (Nat × BitVec 512)) (cl : Nat) : List (Nat × BitVec 512) := occ.filter fun e => e.1 / 64 == cl

/-- The free contexts of a core. -/
def freeCtxs (occ : List (Nat × BitVec 512)) (core : Nat) : List Nat :=
  (List.range 4).filter fun i => occ.all fun e => !isMember e.2 (4 * core + i)

/-- The lowest base of WSIZE free contiguous window units of a core. -/
def freeWin (occ : List (Nat × BitVec 512)) (core wsize : Nat) : Option Nat :=
  (List.range 512).find? fun w => decide (w + wsize ≤ 512) && occ.all fun e =>
    !teamOn e.2 core || decide (w + wsize ≤ bWbase e.2 core) || decide (bWbase e.2 core + bWsize e.2 ≤ w)

/-- Whether a core has BANKS unreserved banks. -/
def banksFit (occ : List (Nat × BitVec 512)) (core banks : Nat) : Bool :=
  decide (occ.foldl (fun n e => if teamOn e.2 core then n + bBanks e.2 else n) banks ≤ 256)

/-- The image digest of a slot's launch. -/
def digestOfSlot (s : State) (b : BitVec 512) : Option (BitVec 512) := (tget s.tm.launches (bLid b)).map (·.digest)

/-- R168. Whether an image fits a core's instruction store at a base, beside the images there; teams of one image
share one copy. -/
def imageFits (s : State) (occ : List (Nat × BitVec 512)) (core base ilen : Nat) (digest : BitVec 512) : Bool :=
  decide (base + ilen ≤ 4096) && occ.all fun e =>
    !teamOn e.2 core ||
      (if digestOfSlot s e.2 = some digest then bIbase e.2 == base
       else decide (base + ilen ≤ bIbase e.2) || decide (bIbase e.2 + bIlen e.2 ≤ base))

/-- R172. What a core offers: its free contexts and a window base. -/
def coreOffer (s : State) (occ : List (Nat × BitVec 512)) (cl core base : Nat) (l : Launch) (ilen : Nat) : Option (List Nat × Nat) :=
  if s.cr.absent.contains (cl * 16 + core) ∨ ¬ banksFit occ core l.banks ∨ ¬ imageFits s occ core base ilen l.digest then none
  else (freeWin occ core l.wsize).map fun w => (freeCtxs occ core, w)

/-- A core's part of a placement: the core, its contexts, its window base, its logical core. -/
structure Pick where
  core : Nat
  ctxs : List Nat
  wbase : Nat
  lcore : Nat

/-- R172. The cores of a plain placement, in order. -/
def plainPicks (offer : Nat → Option (List Nat × Nat)) (cap : Nat) : Nat → List Nat → Option (List Pick)
  | 0, _ => some []
  | _ + 1, [] => none
  | need + 1, core :: rest =>
    match offer core with
    | none => plainPicks offer cap (need + 1) rest
    | some (free, w) =>
      let n := min cap (min (need + 1) free.length)
      if n = 0 then plainPicks offer cap (need + 1) rest
      else (plainPicks offer cap (need + 1 - n) rest).map fun t =>
        { core := core, ctxs := free.take n, wbase := w, lcore := 0 } :: t

/-- R181. The logical cores of a team, with how many members each has. -/
def logicalCores (team teamsz lclust : Nat) : List (Nat × Nat) :=
  let ps := (List.range teamsz).map fun t => logicalPos team teamsz lclust t / 4
  (List.range 16).filterMap fun k =>
    let n := (ps.filter fun p => p == k).length
    if n = 0 then none else some (k, n)

/-- R182. Distinct present physical cores for logical cores, both rising. -/
def detPicks (offer : Nat → Option (List Nat × Nat)) : List (Nat × Nat) → List Nat → Option (List Pick)
  | [], _ => some []
  | _ :: _, [] => none
  | (k, n) :: t, core :: rest =>
    match offer core with
    | some (free, w) =>
      if n ≤ free.length then
        (detPicks offer t rest).map fun r => { core := core, ctxs := free.take n, wbase := w, lcore := k } :: r
      else detPicks offer ((k, n) :: t) rest
    | none => detPicks offer ((k, n) :: t) rest

/-- R168. The slot word of a placement. -/
def slotWord (l : Launch) (team ilen ibase : Nat) (ps : List Pick) : BitVec 512 :=
  let det := modeDet l.mode
  let memb := ps.foldl (fun m p => p.ctxs.foldl (fun m i => m + 2 ^ (4 * p.core + i)) m) 0
  let w0 := 2 ^ 63 + l.comp * 2 ^ 56 + l.mode * 2 ^ 54 + l.prio * 2 ^ 51 + l.teamsz * 2 ^ 44 + team
  let w2 := l.banks * 2 ^ 35 + l.wsize * 2 ^ 25 + ilen * 2 ^ 12 + ibase
  let w3 := (if det then team % max 1 l.lclust * 2 ^ 16 else 0) + l.lid
  let wb := ps.foldl (fun n p => n + p.wbase * 2 ^ (9 * p.core)) 0
  let lc := if det then ps.foldl (fun n p => n + p.lcore * 2 ^ (4 * p.core)) 0 else 0
  BitVec.ofNat 512 (w0 + memb * 2 ^ 64 + w2 * 2 ^ 128 + w3 * 2 ^ 192 + wb * 2 ^ 256 + lc * 2 ^ 448)

/-- Bundles of a launch's image. -/
def Launch.ilen (l : Launch) : Nat := bytesNat ((l.image.drop 6).take 2)

/-- The bases at which an image is tried in a cluster: 0, those of the same image, and the ends of the others. -/
def baseTries (s : State) (occ : List (Nat × BitVec 512)) (digest : BitVec 512) : List Nat :=
  (0 :: occ.map fun e => if digestOfSlot s e.2 = some digest then bIbase e.2 else bIbase e.2 + bIlen e.2).foldr sins []

/-- R172. Whether a placement takes a lower core, or more contexts of one, than another does. -/
def picksBefore : List Pick → List Pick → Bool
  | [], _ => false
  | _ :: _, [] => false
  | a :: s, b :: t =>
    if a.core ≠ b.core then decide (a.core < b.core)
    else if a.ctxs.length ≠ b.ctxs.length then decide (b.ctxs.length < a.ctxs.length)
    else picksBefore s t

/-- The first placement in the order of the cores, of one for each base, the lower base where they are equal. -/
def firstPicks : List (Nat × List Pick) → Option (Nat × List Pick)
  | [] => none
  | a :: t => match firstPicks t with
    | some b => if picksBefore b.2 a.2 then some b else some a
    | none => some a

/-- R172, R182. Where a team fits on a cluster, beside the given slots: all its cores hold the image at one base (R168),
and the base is the one that admits the lowest cores. -/
def fitTeam (s : State) (occ : List (Nat × BitVec 512)) (cl : Nat) (l : Launch) (team : Nat) : Option (BitVec 512) :=
  let here := occIn occ cl
  let ilen := l.ilen
  (firstPicks ((baseTries s here l.digest).filterMap fun base =>
    let offer (core : Nat) : Option (List Nat × Nat) := coreOffer s here cl core base l ilen
    let ps := if modeDet l.mode then detPicks offer (logicalCores team l.teamsz l.lclust) (List.range 16)
      else plainPicks offer (if l.spread then (l.teamsz + 15) / 16 else 4) l.teamsz (List.range 16)
    ps.map fun p => (base, p))).map fun e => slotWord l team ilen e.1 e.2

/-- R201. Whether a compartment is ISOL. -/
def isolOf (s : State) (comp : Nat) : Bool := ((tget s.tt.comps comp).map (·.isol)).getD false

/-- R201, R207, R174. Whether a launch may place teams on a cluster: its class is in use on the die, the die is one
of its own in a gain mode, and no ISOL compartment would share the cluster. -/
def mayUse (s : State) (occ : List (Nat × BitVec 512)) (cl : Nat) (l : Launch) : Bool :=
  let die := clusterDie cl
  clsV s die l.comp && (!modeGain l.mode || (decide (l.sdie0 ≤ die) && decide (die < l.sdie0 + l.sdies))) &&
    (occIn occ cl).all fun e => bComp e.2 == l.comp || (!isolOf s l.comp && !isolOf s (bComp e.2))

/-- The first free slot of a cluster. -/
def freeSlot (s : State) (cl : Nat) : Option Nat :=
  ((List.range 64).map (· + cl * 64)).find? fun k => (occupied s).all fun e => e.1 != k

/-- R19, R182. Whether a saved team of a deterministic launch has lost a core, or its logical cluster has moved, and the team
is to be mapped anew. -/
def lostCore (s : State) (l : Launch) (v : Saved) : Bool :=
  modeDet l.mode && ((List.range 16).any (fun k => teamOn v.word k && s.cr.absent.contains (v.key / 64 * 16 + k)) ||
    ((tget l.cmap (v.team % max 1 l.lclust)).any fun cl => cl != v.key / 64))

/-- R182. The physical core of a team's slot that plays the part of a core of its saved slot. -/
def newCore (det : Bool) (old new : BitVec 512) (core : Nat) : Nat :=
  if det then ((List.range 16).find? fun k => teamOn new k && bLcore new k == bLcore old core).getD core else core

/-- Whether the banks of a saved team are free where it would stand. -/
def banksFree (s : State) (here : List (Nat × BitVec 512)) (cl : Nat) (v : Saved) (map : Nat → Nat) : Bool :=
  v.banks.all fun b => match tget s.cr.banks ((cl * 16 + map (b.key / 256 % 16)) * 256 + b.key % 256) with
    | some h => here.all fun e => e.1 != (s.ctx h.holder).slot
    | none => true

/-- R176. Where a saved team fits in its own cluster: its cores and contexts, any windows, and its own banks. -/
def fitHome (s : State) (occ : List (Nat × BitVec 512)) (l : Launch) (v : Saved) : Option (BitVec 512) :=
  let cl := v.key / 64
  let here := occIn occ cl
  let cores := (List.range 16).filter (teamOn v.word)
  let banksOk := banksFree s here cl v id
  (baseTries s here l.digest).findSome? fun base =>
    let ps := cores.map fun core => (core, (coreOffer s here cl core base l (bIlen v.word)).bind fun o =>
      if (List.range 4).all fun i => !isMember v.word (4 * core + i) || o.1.contains i then some o.2 else none)
    if banksOk && ps.all fun p => p.2.isSome then
      let keep : BitVec 512 := v.word &&& ~~~(((2 ^ 192 - 1 : BitVec 512) <<< 256) ||| (4095 <<< 128) ||| (1 <<< 62))
      let wb := ps.foldl (fun n p => n + p.2.getD 0 * 2 ^ (9 * p.1)) 0
      some (keep ||| (BitVec.ofNat 512 wb <<< 256) ||| (BitVec.ofNat 512 base <<< 128) ||| (1 <<< 63))
    else none

/-- R176, R182. Where a saved team fits on a cluster. -/
def fitSaved (s : State) (occ : List (Nat × BitVec 512)) (cl : Nat) (l : Launch) (v : Saved) : Option (BitVec 512) :=
  if lostCore s l v then
    (fitTeam s occ cl l v.team).bind fun w =>
      if banksFree s (occIn occ cl) cl v (newCore true v.word w) then some w else none
  else if v.key / 64 = cl then fitHome s occ l v else none

/-! ### Candidates (R173) -/

/-- A candidate: its launch, its team, whether it was swapped out, and its place in the order. -/
structure Cand where
  lid : Nat
  team : Nat
  saved : Option Saved
  eff : Nat
  accept : Nat

/-- R173. Effective priority. -/
def effPrio (s : State) (l : Launch) (since : Nat) : Nat := min 7 (l.prio + (s.tt.periods - since) / max 1 s.tm.age)

/-- Whether a launch may still have teams placed. -/
def mayRun (l : Launch) : Bool := l.ending.isNone && l.down.isNone && l.aband.isNone

/-- Whether a team of a launch has not completed. -/
def teamOpen (s : State) (l : Launch) (n : Nat) : Bool :=
  decide (l.nextTeam ≤ n) || l.skipped.contains n || (occupied s).any (fun e => bLid e.2 == l.lid && bTeam e.2 == n) ||
    s.tm.swaps.any fun v => v.lid == l.lid && v.team == n

/-- R181. Whether a never-bound team may be bound: the one before it on its logical contexts has completed. One that may not
is no candidate, and the teams after it are placed past it (assumption 135). -/
def teamTurn (s : State) (l : Launch) (n : Nat) : Bool :=
  let stride := l.lclust * (64 / max 1 l.teamsz)
  !modeDet l.mode || decide (n < stride) || !teamOpen s l (n - stride)

/-- The lowest never-bound team whose turn has come. -/
def freshTeam (s : State) (l : Launch) : Option Nat :=
  match l.skipped.find? (teamTurn s l) with
  | some n => some n
  | none =>
    let span := if modeDet l.mode then l.lclust * (64 / max 1 l.teamsz) + 1 else 1
    ((List.range (min span (l.nteams - l.nextTeam))).map (· + l.nextTeam)).find? (teamTurn s l)

/-- R174. Whether the Setts of a gain launch's dies hold no other gain launch. -/
def settsFree (s : State) (l : Launch) : Bool :=
  s.tm.setts.all fun e => e.2.lid == l.lid || decide (e.1 % 16 < l.sdie0) || decide (l.sdie0 + l.sdies ≤ e.1 % 16)

/-- Whether Zitrum has decided where a team goes. -/
def decided (s : State) (lid team : Nat) : Bool :=
  s.tm.placing.any (fun e => bLid e.2 == lid && bTeam e.2 == team) || s.tm.reserved.any fun e => e.lid == lid && e.team == team

/-- The candidates. -/
def candidates (s : State) : List Cand :=
  (s.tm.launches.filterMap fun e =>
    let l := e.2
    if mayRun l then
      (freshTeam s l).map fun n => { lid := l.lid, team := n, saved := none, eff := effPrio s l l.since, accept := l.accept }
    else none) ++
  s.tm.waiting.filterMap fun w =>
    match tget s.tm.launches w.lid, s.tm.swaps.find? fun v => v.lid == w.lid && v.team == w.team with
    | some l, some v => if mayRun l ∧ ¬ decided s w.lid w.team then
        some { lid := w.lid, team := w.team, saved := some v, eff := effPrio s l w.since, accept := l.accept } else none
    | _, _ => none

/-- R173. Whether a candidate comes before another. -/
def candBefore (a b : Cand) : Bool :=
  decide (b.eff < a.eff) || (a.eff == b.eff && (decide (a.accept < b.accept) || (a.accept == b.accept && decide (a.team < b.team))))

/-- The first candidate. -/
def firstCand : List Cand → Option Cand
  | [] => none
  | c :: t => match firstCand t with
    | some d => if candBefore d c then some d else some c
    | none => some c

/-- Where a candidate fits on a cluster, beside the given slots. -/
def candFit (s : State) (occ : List (Nat × BitVec 512)) (cl : Nat) (l : Launch) (c : Cand) : Option (BitVec 512) :=
  if ¬ mayUse s occ cl l then none
  else match c.saved with
    | some v => fitSaved s occ cl l v
    | none => fitTeam s occ cl l c.team

/-- R182. The clusters for a team of a logical cluster: the one that it is mapped onto, while that could hold the team when
empty; else any, once no team of the logical cluster stands on it. -/
def mappedClusters (s : State) (l : Launch) (c : Cand) : List Nat :=
  let n := c.team % max 1 l.lclust
  match tget l.cmap n with
  | some cl =>
    if (candFit s [] cl l c).isSome then [cl]
    else if (occIn (occupied s) cl).any fun e => bLid e.2 == l.lid && bTeam e.2 % max 1 l.lclust == n then []
    else List.range 144
  | none => List.range 144

/-- R176, R182. The clusters that a candidate may be placed on: of a saved team its own, unless it has lost a core. -/
def candClusters (s : State) (l : Launch) (c : Cand) : List Nat :=
  match c.saved with
  | some v => if lostCore s l v then mappedClusters s l c else [v.key / 64]
  | none => if modeDet l.mode then mappedClusters s l c else List.range 144

/-! ### Victims (R175) -/

/-- R175. Whole periods that a resident team has been resident across. -/
def wholePeriods (s : State) (r : Resident) : Nat :=
  let n := s.tt.periods - r.bound
  if r.cycle then n else n - 1

/-- R410. Whether every live member of a team waits in `stepb`. -/
def allAtStep (s : State) (key : Nat) (b : BitVec 512) : Bool :=
  (membersOf key b).all fun m => (s.ctx m).run == .exited || (s.ctx m).atStep

/-- R175, R410. Whether a resident team may be swapped out for a candidate. -/
def mayYield (s : State) (c : Cand) (e : Nat × BitVec 512) : Bool :=
  bV e.2 && !bSwap e.2 && !s.tm.leaving.contains e.1 &&
    ((tget s.tm.launches (bLid e.2)).map mayRun).getD false &&
    (match s.tm.resident.find? fun r => r.key == e.1 with
      | some r =>
        let w := wholePeriods s r
        (bLid e.2 == c.lid && allAtStep s e.1 e.2) ||
          (decide (1 ≤ w) && (decide (bPrio e.2 < c.eff) || (bPrio e.2 == c.eff && decide (s.tm.quantum ≤ w))))
      | none => false)

/-- R175. Whether a victim is taken before another: lower PRIO, longer resident, higher LID. -/
def victimBefore (s : State) (a b : Nat × BitVec 512) : Bool :=
  let res (k : Nat) : Nat := ((s.tm.resident.find? fun r => r.key == k).map (·.at_)).getD 0
  decide (bPrio a.2 < bPrio b.2) || (bPrio a.2 == bPrio b.2 &&
    (decide (res a.1 < res b.1) || (res a.1 == res b.1 && decide (bLid b.2 < bLid a.2))))

def victimInsert (s : State) (v : Nat × BitVec 512) : List (Nat × BitVec 512) → List (Nat × BitVec 512)
  | [] => [v]
  | w :: t => if victimBefore s w v then w :: victimInsert s v t else v :: w :: t

/-- The slots left when some are taken away. -/
def without (occ : List (Nat × BitVec 512)) (gone : List (Nat × BitVec 512)) : List (Nat × BitVec 512) :=
  occ.filter fun e => !gone.any fun g => g.1 == e.1

/-- The shortest beginning of a list of victims that makes room. -/
def enough (fits : List (Nat × BitVec 512) → Bool) (taken : List (Nat × BitVec 512)) : List (Nat × BitVec 512) → Option (List (Nat × BitVec 512))
  | [] => none
  | v :: t => if fits (taken ++ [v]) then some (taken ++ [v]) else enough fits (taken ++ [v]) t

/-- R175. No more victims than needed: those without whom there is room as well are left. -/
def spare (fits : List (Nat × BitVec 512) → Bool) (kept : List (Nat × BitVec 512)) : List (Nat × BitVec 512) → List (Nat × BitVec 512)
  | [] => kept
  | v :: t => if fits (kept ++ t) then spare fits kept t else spare fits (kept ++ [v]) t

/-- R174, step 2. The victims of a candidate on a cluster. -/
def victimsOn (s : State) (l : Launch) (c : Cand) (cl : Nat) : Option (List (Nat × BitVec 512)) :=
  let occ := occupied s
  let vs := (occIn s.tm.boards cl).foldr (fun e t => if mayYield s c e then victimInsert s e t else t) []
  let fits (gone : List (Nat × BitVec 512)) : Bool := (candFit s (without occ gone) cl l c).isSome
  (enough fits [] vs).map (spare fits [])

/-! ### Bind (R169, R170) -/

/-- The bundles of a launch's image. -/
def imageBundles (l : Launch) : List (BitVec 256) :=
  (List.range l.ilen).map fun n =>
    ((l.image.drop (0x80 + 32 * n)).take 32).foldr (fun (b : Byte) (t : BitVec 256) => b.setWidth 256 ||| (t <<< 8)) 0

/-- R169. Loads an image into a core's instruction store. -/
def loadImage (core base : Nat) : List (BitVec 256) → Tab (BitVec 256) → Tab (BitVec 256)
  | [], t => t
  | b :: r, t => loadImage core (base + 1) r (tput (core * 4096 + base) b t)

/-- R170. A member at its first bind. -/
def boundCtx (l : Launch) (key : Nat) : Ctx :=
  let view (k : Nat) : BitVec 15 := BitVec.ofNat 15 (bytesNat ((l.image.drop (0x10 + 2 * k)).take 2))
  let args : List Byte := (List.range 8).flatMap fun k => natBytes ((l.words.getD (16 + k) 0).toNat) 8
  { run := .running, slot := key, pc := BitVec.ofNat 32 (bytesNat ((l.image.drop 8).take 2))
    regs := (vecOf args).setWidth 262144
    vws := view 0, vwd := view 1, vwv := view 2, vwh := view 3 }

/-- R170. A window at the first bind of its team: every word 0 and good, every tag empty. -/
def clearWindow (s : State) (base size : Nat) : State :=
  let inside (w : Nat) : Bool := decide (base / 4 ≤ w) && decide (w < (base + size) / 4)
  let s := leaveWindow s (hitSpad base size)
  { s with ms := { s.ms with
    spad := memDrop base size s.ms.spad
    full := s.ms.full.filter fun w => !inside w
    failSpad := s.ms.failSpad.filter fun w => !inside w } }

/-- The cores of a slot's team, by package number. -/
def teamCores (key : Nat) (b : BitVec 512) : List Nat :=
  ((List.range 16).filter (teamOn b)).map fun k => key / 64 * 16 + k

/-- Whether the latest boundary is this cycle. -/
def atBoundary (s : State) : Bool := decide (s.cycle + s.tt.period = s.tt.nextBoundary)

/-- Notes a team as resident (R175). -/
def noteResident (s : State) (key : Nat) (b : BitVec 512) : State :=
  { s with tm := { s.tm with resident := (s.tm.resident.filter fun r => r.key != key) ++
    [({ key := key, lid := bLid b, team := bTeam b, bound := s.tt.periods, at_ := s.cycle, cycle := atBoundary s } : Resident)] } }

/-- R169, R170. Dispatch binds the team of a slot: the image, the windows, every member at once. -/
def bindTeam (s : State) (key : Nat) (b : BitVec 512) : State :=
  match tget s.tm.launches (bLid b) with
  | none => s
  | some l =>
    let bundles := imageBundles l
    let s := (teamCores key b).foldl (fun t k =>
      let t := clearWindow t (k * 2 ^ 21 + bWbase b (k % 16) * 4096) (bWsize b * 4096)
      { t with cr := { t.cr with istore := loadImage k (bIbase b) bundles t.cr.istore } }) s
    let s := (membersOf key b).foldl (fun t c => t.bindCtx c (boundCtx l key)) s
    let s := { s with tm := { s.tm with
      crews := s.tm.crews.filter fun e => e.1 / 8 != key, crewOpen := s.tm.crewOpen.filter fun e => e.1 / 8 != key } }
    noteResident s key b

/-- R168, R169. What a write of a slot does: a team whose V appears with SWAP = 0 is bound, one whose V goes is
released. -/
def writeSlot (s : State) (key : Nat) (w : BitVec 512) : State :=
  let old := (tget s.tm.boards key).getD 0
  let s := { s with tm := { s.tm with
    boards := if w = 0 then tdel key s.tm.boards else tput key w s.tm.boards, placing := tdel key s.tm.placing } }
  if ¬ bV old ∧ bV w ∧ ¬ bSwap w then bindTeam s key w
  else if bV old ∧ ¬ bV w then
    (membersOf key old).foldl (fun t c => t.modCtx c fun x => { x with run := .unbound })
      { s with tm := { s.tm with resident := s.tm.resident.filter fun r => r.key != key } }
  else s

/-! ### A placement run (R174) -/

/-- The bytes of a slot. -/
def slotBytes (w : BitVec 512) : List Byte := natBytes w.toNat 64

/-- A team leaves the never-bound ones. -/
def takeTeam (l : Launch) (n : Nat) : Launch :=
  if n < l.nextTeam then { l with skipped := l.skipped.filter fun k => k != n }
  else { l with skipped := l.skipped ++ (List.range (n - l.nextTeam)).map (· + l.nextTeam), nextTeam := n + 1 }

/-- R182. A team is to stand on a cluster: its logical cluster is mapped there, and it is no longer among the never-bound
ones. -/
def mapTeam (s : State) (c : Cand) (cl : Nat) : State :=
  s.modLaunch c.lid fun l =>
    let l := { l with cmap := if modeDet l.mode then tput (c.team % max 1 l.lclust) cl l.cmap else l.cmap }
    if c.saved.isSome then l else takeTeam l c.team

/-- A decided bind or swap-in of a slot. -/
def placeIn (s : State) (saved : Bool) (key : Nat) (w : BitVec 512) : State :=
  let s := { s with tm := { s.tm with placing := tput key w s.tm.placing } }
  if saved then s.after s.cycle false .swapIn { a := key }
  else s.after s.cycle false .boardSlotWrite { a := key, body := slotBytes w }

/-- R174, step 1. Binds, or swaps in, a candidate on a cluster. -/
def placeCand (s : State) (c : Cand) (cl key : Nat) (w : BitVec 512) : State :=
  placeIn (mapTeam s c cl) c.saved.isSome key w

/-- R219, R371. A context is to stop: so is its call. -/
def askStop (s : State) (m : Nat) : State := stopCall (s.modCtx m fun x => { x with preempt := true }) m

/-- R176, R219. A swap-out begins: SWAP is set and every member is to stop. -/
def beginSwap (s : State) (key : Nat) : State :=
  match tget s.tm.boards key with
  | none => s
  | some b =>
    let s := { s with tm := { s.tm with boards := tput key (b ||| (1 <<< 62)) s.tm.boards, leaving := sins key s.tm.leaving } }
    (membersOf key b).foldl (fun t m =>
      if (t.ctx m).run = .running then askStop t m else t) s

/-- R184. The Setts of a gain launch's dies are its own from now on, and are to be filled. -/
def reserveSetts (s : State) (l : Launch) : State :=
  (List.range l.sdies).foldl (fun t j =>
    t.setSett (settKey l.lid (l.sdie0 + j)) { lid := l.lid, items := [], waits := [] })
    (s.after s.cycle false .settFill { a := l.lid })

/-- R174, step 2. Teams are swapped out for a candidate, and the room that they leave is kept for it. -/
def makeRoom (s : State) (l : Launch) (c : Cand) (cl : Nat) (vs : List (Nat × BitVec 512)) : Option State :=
  match freeSlot s cl <|> vs.head?.map (·.1), candFit s (without (occupied s) vs) cl l c with
  | some key, some w =>
    let r : Reserve := { lid := c.lid, team := c.team, key := key, word := w, saved := c.saved.isSome, victims := vs.map fun e => (bLid e.2, bTeam e.2) }
    let s := mapTeam s c cl
    some (vs.foldl (fun t v => beginSwap t v.1) { s with tm := { s.tm with reserved := s.tm.reserved ++ [r] } })
  | _, _ => none

/-- R174. Candidates in order, until one can be neither placed nor made room for. -/
def placeLoop : Nat → State → State
  | 0, s => s
  | fuel + 1, s =>
    match firstCand (candidates s) with
    | none => s
    | some c =>
      match tget s.tm.launches c.lid with
      | none => s
      | some l =>
        if modeGain l.mode ∧ ¬ settsFree s l then s
        else if modeGain l.mode ∧ ¬ l.filled then
          if s.tm.setts.any fun e => e.2.lid == l.lid then s else reserveSetts s l
        else
          let cls := candClusters s l c
          match cls.findSome? fun cl => match freeSlot s cl, candFit s (occupied s) cl l c with
            | some k, some w => some (cl, k, w)
            | _, _ => none with
          | some (cl, k, w) => placeLoop fuel (placeCand s c cl k w)
          | none =>
            match cls.findSome? fun cl => (victimsOn s l c cl).bind fun vs => makeRoom s l c cl vs with
            | some t => placeLoop fuel t
            | none => s

/-- R174. Whether the swaps for a reservation have ended: none of its victims stands on the cluster any more. -/
def roomMade (s : State) (r : Reserve) : Bool :=
  !s.tm.boards.any fun e => bV e.2 && e.1 / 64 == r.key / 64 && r.victims.contains (bLid e.2, bTeam e.2)

/-- R174, step 2. A candidate whose room has been made is bound there. -/
def bindReserved (s : State) (r : Reserve) : State :=
  if ¬ roomMade s r then s
  else placeIn { s with tm := { s.tm with reserved := s.tm.reserved.erase r } } r.saved r.key r.word

/-- R174. Placement, while the Stationmaster runs Zitrum (R234): the candidates for which room has been made, then those
that wait. -/
def placementRun (s : State) : State :=
  if s.rt.zitrum then placeLoop 9216 (s.tm.reserved.foldl bindReserved s) else s

/-- R18, R174. What Zitrum has decided for a core that has failed is taken back: the teams wait as candidates again. -/
def unplace (s : State) (core : Nat) : State :=
  let hit (key : Nat) (w : BitVec 512) : Bool := key / 64 == core / 16 && teamOn w (core % 16)
  let lost := s.tm.placing.filter fun e => hit e.1 e.2
  let again (lid team : Nat) (saved : Bool) (t : State) : State :=
    if saved then t else t.modLaunch lid fun l => { l with skipped := sins team l.skipped }
  let s := lost.foldl (fun t e =>
    again (bLid e.2) (bTeam e.2) (s.tm.swaps.any fun v => v.lid == bLid e.2 && v.team == bTeam e.2)
      ((t.cancel .boardSlotWrite e.1).cancel .swapIn e.1)) s
  let gone := s.tm.reserved.filter fun r => hit r.key r.word
  let s := gone.foldl (fun t r => again r.lid r.team r.saved t) s
  { s with tm := { s.tm with
    placing := s.tm.placing.filter fun e => !hit e.1 e.2
    reserved := s.tm.reserved.filter fun r => !hit r.key r.word } }

end Sys2Proof.Machine
end

