-- ==== Sys2Proof/Machine/Launch.lean ====
section
/-! DEFINITION. Launches (R163 to R167, R184, R200, R279 to R281): the packet and its checks, the image, acceptance,
and the responses, notices and completion records that Zitrum writes. -/

namespace Sys2Proof.Machine

/-! ### A task's memory, as Zitrum reaches it -/

/-- The checks of R88 on a global address under the ranges of a launch: the page, or cause and subcode. -/
def taskRoute (s : State) (ranges : List Range) (comp va : Nat) (write : Bool) (kinds : List Nat) : Except (Nat × Nat) (Nat × W64 × W64 × Nat) :=
  if 4 ≤ pathOf va then .error (0x0C, 1)
  else if pathOf va ≠ 0 then .error (0x0C, 6)
  else if fld va 59 56 ≠ 0 then .error (0x0C, 2)
  else match rangeFor ranges va with
    | none => .error (0x0B, 1)
    | some r =>
      if ¬ rG r ∨ (write ∧ ¬ rW r) then .error (0x0C, 4)
      else match walkTables s comp (tableAddr r va) with
        | .fault sub _ => .error (0x0B, sub)
        | .desc low high _ =>
          if dComp high ≠ comp then .error (0x0C, 5)
          else if ¬ kinds.contains (dKind low) ∨ (write ∧ ¬ dW low) then .error (0x0C, 6)
          else .ok (leafPa low (tableAddr r va), low, high, tableAddr r va)

/-- The physical pieces of a range of a task's memory, or its first address that does not translate. -/
def taskPieces (s : State) (ranges : List Range) (comp : Nat) (write : Bool) (kinds : List Nat) : List (Nat × Nat) → Except Nat (List (Nat × Nat))
  | [] => .ok []
  | (va, n) :: t =>
    match taskRoute s ranges comp va write kinds with
    | .error _ => .error va
    | .ok p => match taskPieces s ranges comp write kinds t with
      | .ok l => .ok ((p.1, n) :: l)
      | .error e => .error e

/-- A range of addresses cut at pages. -/
def cutRange (va n : Nat) : List (Nat × Nat) := cutPages ((n + 4095) / 4096 + 1) va n

/-- The leaves of a compartment's tables: table address, descriptor words. -/
def leavesFrom (m : Memory) : Nat → Nat → Nat → Nat → List (Nat × W64 × W64)
  | 0, _, _, _ => []
  | fuel + 1, table, level, ta =>
    (List.range (if level = 0 then 256 else 512)).flatMap fun i =>
      let low : W64 := BitVec.ofNat 64 (rdNat m (table + 16 * i) 8)
      let high : W64 := BitVec.ofNat 64 (rdNat m (table + 16 * i + 8) 8)
      let at_ := ta + i * 2 ^ (48 - 9 * level)
      if ¬ dV low then []
      else if dLeaf low then [(at_ / 2 ^ sizeLog (dSize low) * 2 ^ sizeLog (dSize low), low, high)]
      else if badDesc low high level then []
      else leavesFrom m fuel (dPa low) (level + 1) at_

/-- R81. The leaves of a compartment. -/
def leavesOf (s : State) (comp : Nat) : List (Nat × W64 × W64) :=
  match tget s.tt.comps comp with
  | some k => leavesFrom s.ms.mem 5 k.root 0 0
  | none => []

/-! ### The packet (R164, R165) -/

/-- Word k of a packet. -/
def pword (p : List Byte) (k : Nat) : Nat := bytesNat ((p.drop (8 * k)).take 8)

/-- R164. Fields of word 0. -/
def pkVer (p : List Byte) : Nat := fld (pword p 0) 63 56
def pkComp (p : List Byte) : Nat := fld (pword p 0) 55 50
def pkMode (p : List Byte) : Nat := fld (pword p 0) 49 48
def pkReplay (p : List Byte) : Bool := (pword p 0).testBit 47
def pkPrio (p : List Byte) : Nat := fld (pword p 0) 46 44
def pkSpread (p : List Byte) : Bool := (pword p 0).testBit 43
def pkTeamsz (p : List Byte) : Nat := fld (pword p 0) 42 36
def pkNrange (p : List Byte) : Nat := fld (pword p 0) 35 30
def pkBanks (p : List Byte) : Nat := fld (pword p 0) 29 22
def pkWsize (p : List Byte) : Nat := fld (pword p 0) 21 12
def pkNteams (p : List Byte) : Nat := fld (pword p 1) 31 0
def pkPool (p : List Byte) : Nat := fld (pword p 4) 31 0
def pkLclust (p : List Byte) : Nat := fld (pword p 5) 7 0

/-- R164. The range entries of a packet. -/
def pkRanges (p : List Byte) : List Range :=
  (List.range (min 32 (pkNrange p))).map fun k =>
    let w (j : Nat) : W64 := BitVec.ofNat 64 (pword p (24 + 4 * k + j))
    { w0 := w 0, w1 := w 1, w2 := w 2, w3 := w 3 }

/-- R224. A packet with REPLAY cleared. -/
def packetKey (p : List Byte) : List Byte := p.take 5 ++ ((p.drop 5).take 1).map (fun b => b &&& 0x7F) ++ p.drop 6

/-- R165, check 1. -/
def packetReserved (p : List Byte) : Bool :=
  pkVer p != 1 || fld (pword p 0) 11 0 != 0 || fld (pword p 1) 63 32 != 0 || fld (pword p 4) 63 32 != 0 ||
    fld (pword p 5) 63 8 != 0 || fld (pword p 6) 63 61 != 0 || fld (pword p 6) 31 31 != 0 ||
    (List.range 5).any fun k => pword p (11 + k) != 0

/-- R165, check 6. -/
def gainBad (p : List Byte) : Bool :=
  (if modeGain (pkMode p) then
    let sdies := fld (pword p 6) 40 36
    sdies == 0 || decide (16 < sdies) || decide (16 < fld (pword p 6) 35 32 + sdies) ||
      fld (pword p 6) 30 0 == 0 || decide (2 ^ 30 < fld (pword p 6) 30 0)
   else (List.range 5).any fun k => pword p (6 + k) != 0) ||
  (if modeDet (pkMode p) then pkLclust p == 0 || decide (144 < pkLclust p) else pkLclust p != 0)

/-- R79, R165, check 7. Whether a range entry is refused. -/
def rangeBad (r : Range) : Bool :=
  let offs : Int := sextInt (r.w2.toNat / 4096) 52
  fld r.w0.toNat 63 56 != 0 || fld r.w0.toNat 11 0 != 0 || fld r.w1.toNat 63 56 != 0 || fld r.w1.toNat 11 0 != 0 ||
    fld r.w2.toNat 11 0 != 0 || fld r.w3.toNat 63 5 != 0 || decide (rLast r < rBase r) ||
    decide ((rBase r : Int) + offs < 0) || decide ((2 ^ 44 : Int) ≤ (rLast r : Int) + offs)

/-- Whether a range reaches a leaf of 2^12 bytes or more at a table address. -/
def rangeReaches (r : Range) (ta size : Nat) : Bool :=
  let lo := tableAddr r (rBase r * 4096)
  let hi := lo + (rLast r - rBase r + 1) * 4096
  rV r && decide (ta < hi) && decide (lo < ta + size)

/-- R165, check 8. -/
def formatBad (s : State) (p : List Byte) : Bool :=
  (leavesOf s (pkComp p)).any fun e =>
    dKind e.2.1 == kLined && decide (0xD ≤ dFmt e.2.2) && (pkRanges p).any fun r => rangeReaches r e.1 (2 ^ sizeLog (dSize e.2.1))

/-! ### The image (R279 to R281) -/

/-- A field of an image. -/
def img (b : List Byte) (off n : Nat) : Nat := bytesNat ((b.drop off).take n)

/-- A line record of an image (R280). -/
structure LineRec where
  line : Nat
  fmt : Nat
  xlog : Nat
  cols8 : Nat
  off : Nat
  len : Nat
  bad : Bool

/-- R280. Line record k. -/
def lineRec (b : List Byte) (k : Nat) : LineRec :=
  let o := img b 0x20 4 + 32 * k
  { line := img b o 3, fmt := img b (o + 4) 1, xlog := img b (o + 5) 1, cols8 := img b (o + 6) 2, off := img b (o + 8) 8
    len := img b (o + 16) 8, bad := img b (o + 3) 1 != 0 || img b (o + 24) 8 != 0 }

def lineRecs (b : List Byte) : List LineRec := (List.range (img b 0x24 2)).map (lineRec b)

/-- Whether a name is printable characters followed by zeros. -/
def nameOk : List Byte → Bool
  | [] => true
  | c :: t => if c = 0 then t.all fun d => d == 0 else decide (c.toNat < 128) && nameOk t

/-- R279. Where the bundles and the data of an image end: the line table begins at the next multiple of 64. -/
def imageEnd (b : List Byte) : Nat :=
  if img b 0x18 4 = 0 then 0x80 + 32 * img b 6 2 else img b 0x18 4 + img b 0x1C 4

/-- R279, R281. Whether a header is refused for a team size. The data begin at the next multiple of 256 after the bundles,
the line table at the next multiple of 64 after them. -/
def headerBad (b : List Byte) (teamsz : Nat) : Bool :=
  let nbun := img b 6 2
  let tlen := img b 0xC 4
  let dlen := img b 0x1C 4
  let doff := img b 0x18 4
  let loff := img b 0x20 4
  let nline := img b 0x24 2
  let view (k : Nat) : Nat := img b (0x10 + 2 * k) 2
  img b 0 4 != 0x4F4C4B49 || img b 4 2 != 1 || nbun == 0 || decide (4096 < nbun) || decide (nbun ≤ img b 8 2) ||
    img b 10 1 == 0 || decide (64 < img b 10 1) || decide (img b 11 1 < img b 10 1) || decide (64 < img b 11 1) ||
    decide (teamsz < img b 10 1) || decide (img b 11 1 < teamsz) || decide (tlen < 0x80 + 32 * nbun) ||
    decide (2 ^ 15 ≤ view 0) || decide (2 ^ 15 ≤ view 1) || decide (2 ^ 15 ≤ view 2) || decide (2 ^ 15 ≤ view 3) ||
    view 0 % 4 != 0 || view 1 % 8 != 0 || view 2 % 256 != 0 || view 3 % 2 != 0 ||
    (doff != 0 && doff != (0x80 + 32 * nbun + 255) / 256 * 256) || decide (tlen < doff + dlen) || (doff == 0) != (dlen == 0) ||
    (loff != 0 && loff != (imageEnd b + 63) / 64 * 64) || decide (1024 < nline) || decide (tlen < loff + 32 * nline) ||
    (loff == 0) != (nline == 0) ||
    (((b.drop 0x26).take 26) ++ (b.drop 0x60).take 32).any (fun c => c != 0) || !nameOk ((b.drop 0x40).take 32)

/-- R279, R280, R281. Whether a line record is refused; the line data follow the line table, which ends at `from_`, at any
multiple of 256, or, where LEN is 0, at any within the image (assumption 138), and lie within the arrays of the line's
format (assumption 139). -/
def recBad (s : State) (comp tlen from_ : Nat) (r : LineRec) : Bool :=
  let pages := (leavesOf s comp).filter fun e => dKind e.2.1 == kLined && dLine e.2.2 == r.line && dComp e.2.2 == comp
  r.bad || decide (0xD ≤ r.fmt) || decide (r.xlog < 12) || decide (30 < r.xlog) || r.cols8 == 0 ||
    (decide (1 ≤ r.fmt ∧ r.fmt ≤ 3) && r.cols8 % 4 != 0) || r.off % 256 != 0 || (r.len != 0 && decide (r.off < from_)) || decide (tlen < r.off + r.len) ||
    decide (regionBytes r.fmt r.xlog < r.len) || pages.isEmpty ||
    pages.any fun e => dFmt e.2.2 != r.fmt || dXlog e.2.2 != r.xlog || dCols8 e.2.2 != r.cols8

/-- Whether two records name one line. -/
def recTwice : List LineRec → Bool
  | [] => false
  | r :: t => t.any (fun q => q.line == r.line) || recTwice t

/-- R165, check 9. The bytes of the image, if it is accepted: all its pages are CODE pages that the packet's ranges reach
(assumption 152). -/
def readImage (s : State) (p : List Byte) : Option (List Byte) :=
  let at_ := pword p 2
  let get (n : Nat) : Option (List Byte) :=
    match taskPieces s (pkRanges p) (pkComp p) false [kCode] (cutRange at_ n) with
    | .ok l => some (readPieces s l)
    | .error _ => none
  if at_ % 4096 ≠ 0 then none
  else (get 0x80).bind fun h => if headerBad h (pkTeamsz p) then none else get (img h 0xC 4)

/-- R165, check 9. Whether the records of an image are refused. -/
def recordsBad (s : State) (comp : Nat) (b : List Byte) : Bool :=
  (lineRecs b).any (recBad s comp (img b 0xC 4) (img b 0x20 4 + 32 * img b 0x24 2)) || recTwice (lineRecs b)

/-- R200. The bytes of an image that are measured: its header and bundles. -/
def measured (b : List Byte) : List Byte := b.take (0x80 + 32 * img b 6 2)

/-! ### Room (R165, check 10) -/

/-- Pages of one team's swap area (R176): register spaces, windows and banks. The size is the model's (assumption 116). -/
def areaPages (teamsz banks wsize : Nat) : Nat :=
  let cores := min 16 teamsz
  (teamsz * 32768 + cores * (wsize * 4096 + banks * 2048) + 4095) / 4096

/-- R224. Bytes of a log. -/
def logBytes (g : Log) : Nat := g.recs.foldl (fun n r => n + 16 + 8 * r.entries.length) 0

/-- Pages of a compartment's memory in use: those mapped, its launches' swap areas, and its logs. -/
def pagesUsed (s : State) (comp : Nat) : Nat :=
  let mine := (s.tm.launches.map (·.2)).filter fun l => l.comp == comp
  let logs := s.tm.logs.foldl (fun n g => if mine.any (fun l => l.lid == g.lid) then n + (logBytes g + 4095) / 4096 else n) 0
  mine.foldl (fun n l => n + l.nteams * areaPages l.teamsz l.banks l.wsize) (((tget s.tt.comps comp).map (·.pages)).getD 0) + logs

/-- R201. Pages of a compartment's QUOTA. -/
def quotaPages (s : State) (comp : Nat) : Nat := ((tget s.tt.comps comp).map (·.quota.toNat * 512)).getD 0

/-- A launch as its packet gives it. -/
def launchOfPacket (s : State) (p : List Byte) (image : List Byte) (lid : Nat) (route : Route) : Launch :=
  { lid := lid, accept := s.tm.accepted + 1, comp := pkComp p, mode := pkMode p, replay := pkReplay p, prio := pkPrio p
    spread := pkSpread p, teamsz := pkTeamsz p, banks := pkBanks p, wsize := pkWsize p, nteams := pkNteams p
    lclust := max 1 (pkLclust p), words := (List.range 24).map fun k => BitVec.ofNat 64 (pword p k)
    ranges := pkRanges p, packet := p.take (192 + 32 * pkNrange p), digest := shake64 (measured image), image := measured image
    tdone := 0, since := s.tt.periods, nextTeam := 0, skipped := [], cmap := [], down := none, aband := none, ending := none
    steps := 0, abandons := 0, links := [], route := route, residual := 0, endCode := 0, filled := false, armed := modeDet (pkMode p)
    noUndo := false, journal := [], writtenPages := [], markSetts := [], markTransits := [], markResidual := 0, markEnd := 0 }

/-- R164. POOL of a launch. -/
def Launch.poolUnits (l : Launch) : Nat := fld (l.word 4) 31 0

/-- R120, R164, R201. The units of a compartment's pool that are spoken for: those that its lines hold, and those of its
launches in progress (assumption 107). -/
def poolKept (s : State) (comp : Nat) : Nat := if s.tm.launches.any fun e => e.2.comp == comp then poolMax s comp else poolUsed s comp

/-- R201. POOLMAX of a compartment. -/
def poolCap (s : State) (comp : Nat) : Nat := ((tget s.tt.comps comp).map (·.poolmax.toNat)).getD 0

/-- R120. Zitrum sizes a compartment's pool. -/
def setPool (s : State) (comp n : Nat) : State :=
  match tget s.tt.comps comp with
  | none => s
  | some k => { s with tt := { s.tt with comps := tput comp { k with pool := n } s.tt.comps } }

/-- R120. At the end of a launch, the pool holds what the lines hold and what the other launches need. -/
def endPool (s : State) (comp : Nat) : State :=
  let rest := (s.tm.launches.filter fun e => e.2.comp == comp).foldl (fun n e => n + e.2.poolUnits) 0
  setPool s comp (min (poolMax s comp) (poolUsed s comp + rest))

/-- R165, check 10. The subcode of the first want of room: placement, pool, swap area, budget. -/
def roomBad (s : State) (p : List Byte) (l : Launch) : Option Nat :=
  let dies := (List.range 16).filter fun d =>
    !modeGain l.mode || (decide (l.sdie0 ≤ d) && decide (d < l.sdie0 + l.sdies))
  if (List.range 144).all fun cl => (fitTeam s [] cl l 0).isNone then some 3
  else if poolCap s l.comp < poolKept s l.comp + pkPool p then some 1
  else if quotaPages s l.comp < pagesUsed s l.comp + l.nteams * areaPages l.teamsz l.banks l.wsize then some 2
  else if dies.all fun d => !clsV s d l.comp then some 5
  else none

/-- R165. The checks in order: status and subcode of the first that fails, or the image. -/
def packetChecks (s : State) (own : Option Nat) (p : List Byte) : Except (Nat × Nat) (List Byte) :=
  let comp := pkComp p
  let image := readImage s p
  let digest : BitVec 512 := shake64 (measured (image.getD []))
  if packetReserved p then .error (1, 1)
  else if decide (comp = 0) || (tget s.tt.comps comp).isNone || (match own with | some c => c != comp | none => false) then .error (1, 2)
  else if pkTeamsz p = 0 ∨ 64 < pkTeamsz p ∨ pkNteams p = 0 ∨ 2 ^ 32 < pkNteams p * pkTeamsz p then .error (1, 3)
  else if pkNrange p = 0 ∨ 32 < pkNrange p ∨ pkWsize p = 0 ∨ 512 < pkWsize p then .error (1, 4)
  else if pkReplay p ∧ (¬ modeDet (pkMode p) ∨ ¬ s.tm.heldLogs.any (fun h =>
      h.comp == comp && h.digest == digest && packetKey h.packet == packetKey (p.take (192 + 32 * pkNrange p)))) then .error (1, 5)
  else if gainBad p then .error (1, 6)
  else match (pkRanges p).findIdx? rangeBad with
    | some k => .error (2, k)
    | none =>
      let gains := if modeGain (pkMode p) then
          match taskPieces s (pkRanges p) comp false [kAtomic, kConst] (cutRange (pword p 7) (8 * fld (pword p 6) 30 0)) with
          | .ok _ => true
          | .error _ => false
        else true
      if ¬ gains then .error (2, 0x20)
      else if formatBad s p then .error (3, 0)
      else match image with
        | none => .error (4, 0)
        | some b =>
          if recordsBad s comp b then .error (4, 0)
          else match roomBad s p (launchOfPacket s p b 0 (.host 0)) with
            | some sub => .error (5, sub)
            | none => .ok b

/-! ### Responses and records -/

/-- R436. Header words of a slot. -/
def slotHdr (h : HostSlot) (k : Nat) : W64 := h.hdr.getD k 0
def hostSlot (s : State) (n : Nat) : HostSlot :=
  (tget s.ho.slots n).getD { hdr := List.replicate 8 0, body := [], result := [] }
def setSlot (s : State) (n : Nat) (h : HostSlot) : State := { s with ho := { s.ho with slots := tput n h s.ho.slots } }
def slotState (h : HostSlot) : Nat := fld (slotHdr h 0).toNat 63 56

/-- R436. Word 0 with STATE, CODE, STATUS, SUB and TICKET. -/
def hdrWord (state code status sub ticket : Nat) : W64 :=
  BitVec.ofNat 64 (state % 256 * 2 ^ 56 + code % 256 * 2 ^ 48 + status % 256 * 2 ^ 40 + sub % 256 * 2 ^ 32 + ticket % 2 ^ 32)

/-- R409. A request's word to the task of a launch that waits for it, by its rank: a context, resident or saved. -/
def answerCtx (s : State) (lid rank : Nat) (v : W64) : State :=
  let here := (s.tm.boards.filter fun e => bV e.2 && bLid e.2 == lid).flatMap fun e => membersOf e.1 e.2
  match here.find? fun c => (s.ctx c).run != .unbound && s.rank c == rank with
  | some c => s.modCtx c fun x => { x with answer := some (.value v) }
  | none => { s with tm := { s.tm with swaps := s.tm.swaps.map fun (t : Saved) =>
    if t.lid = lid then { t with ctxs := t.ctxs.map fun (e : Nat × Ctx) =>
      (e.1, if bTeam t.word * bTeamsz t.word + teamRank t.word (e.1 % 64) = rank then
        { e.2 with answer := some (.value v) } else e.2) } else t } }

/-- R122. The producer of a line has ended: an event of its own brings the readers on. -/
def producerEnds (s : State) (key : Nat) (ok : Bool) : State :=
  s.after s.cycle false .producerComplete { a := key, b := if ok then 1 else 0 }

/-- R433, R437, R439, R444. Answers a request: status, subcode, RES0, result body. -/
def respond (s : State) (q : Request) (status sub res0 : Nat) (body : List Byte) : State :=
  match q.route with
  | .host n =>
    let h := hostSlot s n
    let hdr := [hdrWord 3 q.code status sub q.ticket, slotHdr h 1, BitVec.ofNat 64 res0, 0, 0, 0, 0, 0]
    sendMsix (setSlot s n { h with hdr := hdr, body := body ++ h.body.drop body.length, result := body }) 0
  | .mgmt port _ =>
    let bytes := natBytes (hdrWord 3 q.code status sub q.ticket).toNat 8 ++ natBytes body.length 8 ++ natBytes res0 8 ++
      natBytes 0 40 ++ body
    { s with ho := { s.ho with replies := s.ho.replies ++ [((port, bytes) : Nat × List Byte)] } }
  | .ctx lid rank => answerCtx s lid rank (BitVec.ofNat 64 (res0 % 2 ^ 16 * 2 ^ 32 + sub % 256 * 256 + status % 256))
  | .producer key => if status = 0 then s else producerEnds s key false

/-- R166. The words of a completion record. -/
def recordWords (endc sub status tdone cause fteam : Nat) (finfo : W64) (res nunrun : Nat) : List W64 :=
  [BitVec.ofNat 64 (endc % 256 * 2 ^ 16 + sub % 256 * 256 + status % 256), BitVec.ofNat 64 tdone,
   BitVec.ofNat 64 (cause % 256 * 2 ^ 32 + fteam % 2 ^ 32), finfo, BitVec.ofNat 64 res, BitVec.ofNat 64 (res / 2 ^ 64),
   BitVec.ofNat 64 nunrun, 1]

/-- R166. Where a completion record stands: the 64 bytes of its word, where they translate. -/
def recordPieces (s : State) (comp : Nat) (ranges : List Range) (compl : Nat) : List (Nat × Nat) :=
  if compl % 64 ≠ 0 then []
  else match taskRoute s ranges comp compl true [kAtomic] with
    | .error _ => []
    | .ok p => [(p.1, 64)]

/-- R166. Writes a completion record: words 0 to 6, then word 7; and its notice (R440). What a replay must do first has been
done (see `packetTouch`, `completionTouch`). -/
def writeRecord64 (s : State) (lid comp : Nat) (ranges : List Range) (compl : Nat) (ws : List W64) : State :=
  if compl % 64 ≠ 0 then s
  else match taskRoute s ranges comp compl true [kAtomic] with
    | .error _ => s
    | .ok p =>
      let put (t : State) (k : Nat) : State :=
        let bs := natBytes ((ws.getD k 0).toNat) 8
        pageWrite ((touch t (hitPhys (p.1 + 8 * k) 8)).getD t) comp lid (p.1 + 8 * k) bs
      postNotice ((List.range 8).foldl put s) 1 lid 0

/-! ### Acceptance -/

/-- R281, R96. The bases that an image brings to lines that are not LIVE. -/
def makeLines (s : State) (comp : Nat) (b : List Byte) : State :=
  (lineRecs b).foldl (fun t r =>
    let key := comp * 2 ^ 24 + r.line
    let old := (t.line key).getD vacantLine
    if old.st = .live then t
    else
      let base := wrBytes 0 ((b.drop r.off).take r.len) []
      t.setLine key { old with
        st := .live, fmt := r.fmt, xlog := r.xlog, cols8 := r.cols8, home := if (t.line key).isSome then old.home else r.line % 64
        base := base, hash := baseHash r.fmt r.xlog base, chain := [], sidings := [], names := [], opens := [] }) s

/-- R200. A launch is measured into its compartment's KCHAIN. -/
def measure (s : State) (comp : Nat) (digest : BitVec 512) : State :=
  match tget s.tt.comps comp with
  | none => s
  | some k =>
    let k := { k with kchain := shake64 (digestBytes k.kchain ++ digestBytes digest), kcount := k.kcount + 1 }
    { s with tt := { s.tt with comps := tput comp k s.tt.comps } }

/-- R224, R226. The order logs of an accepted launch; with REPLAY they begin as
copies of those held of the earlier run, whose records are to be replayed. -/
def reserveLogs (s : State) (l : Launch) : State :=
  if ¬ modeDet l.mode then s
  else
    let old := if l.replay then
        (s.tm.heldLogs.find? fun h => h.comp == l.comp && h.digest == l.digest && packetKey h.packet == packetKey l.packet).map (·.logs)
      else none
    let logs : List Log := (old.getD []).map fun g =>
      { lid := l.lid, die := g.die, recs := g.recs, replay := g.recs, markRecs := g.recs, markReplay := g.recs }
    { s with tm := { s.tm with logs := s.tm.logs ++ logs } }

/-- The next launch number. -/
def freshLid (s : State) : Nat :=
  let used (n : Nat) : Bool := (tget s.tm.launches n).isSome || s.tm.heldLogs.any fun h => h.lid == n
  (((List.range 65535).map fun k => (s.tm.nextLid - 1 + k) % 65535 + 1).find? fun n => !used n).getD 0

/-- R163, R165. Accepts a packet whose image is given. -/
def acceptPacket (s : State) (q : Request) (p image : List Byte) : Nat × State :=
  let lid := freshLid s
  let l := launchOfPacket s p image lid q.route
  let s := setPool s l.comp (poolKept s l.comp + l.poolUnits)
  let s := { s with tm := { s.tm with launches := tput lid l s.tm.launches, accepted := s.tm.accepted + 1, nextLid := lid % 65535 + 1 } }
  let s := reserveLogs (measure (makeLines s l.comp image) l.comp l.digest) l
  let s := match q.route with
    | .producer key => (match s.line key with
      | some n => s.setLine key { n with making := some lid }
      | none => s)
    | .host _ => s
    | .mgmt _ _ => s
    | .ctx _ _ => s
  (lid, s)

/-- R409. The bytes of a packet: those of the request, or those that stand in memory when validation begins. -/
def packetBytes (s : State) (q : Request) : List Byte :=
  if q.blocks.isEmpty then q.body
  else q.blocks.flatMap fun b => match b with
    | some pa => fwRead s pa 64
    | none => List.replicate 64 0

/-- R409, R136. The drains that the reading of a packet brings about, and the record of a refusal; none while they must wait
in replay. -/
def packetTouch (s : State) (q : Request) : Option State :=
  let p := packetBytes s q
  touchPieces s ((q.blocks.filterMap fun b => b.map fun pa => (pa, 64)) ++
    recordPieces s (pkComp p) (pkRanges p) (pword p 3))

/-- R165, R166. Validates a packet: accepts it and runs placement, or refuses it. -/
def validate (s : State) (q : Request) : State :=
  let p := packetBytes s q
  match packetChecks s q.own p with
  | .error (status, sub) =>
    let s := if pkComp p ≠ 0 ∧ (tget s.tt.comps (pkComp p)).isSome then
        writeRecord64 s 0 (pkComp p) (pkRanges p) (pword p 3) (recordWords 0 sub status 0 0 0 0 0 0)
      else s
    respond s q status sub 0 []
  | .ok image =>
    let (lid, s) := acceptPacket s q p image
    placementRun (respond s q 0 0 lid [])

/-- The meaning of LAUNCH_ACCEPTANCE: the packet at the head of Zitrum's queue. -/
def execLaunchAcceptance (s : State) : Host.Outcome State Fault Refusal :=
  match s.ho.requests with
  | [] => .next s
  | q :: t => .next (match packetTouch s q with
    | some u => validate { u with ho := { u.ho with requests := t } } q
    | none => s)

/-! ### The Setts of a gain launch (R184) -/

/-- R184. A gain as an item at the start. -/
def itemOfGain (g : Int) : Item := { gain := g, residual := g.natAbs * 2 ^ 32, runner := none, transit := false }

/-- R184. The items of die j of a launch. -/
def settItems (l : Launch) (gains : List Int) (j : Nat) : Tab Item :=
  let c := (l.nitems + l.sdies - 1) / max 1 l.sdies
  ((List.range (min l.nitems ((j + 1) * c) - j * c)).map (· + j * c)).map fun i => (i, itemOfGain (gains.getD i 0))

/-- R184. Fills the Setts of a gain launch, or ends it where GAINS no longer translates; while a replay must come first
(R138) it is tried again. -/
def fillSetts (s : State) (lid : Nat) : State :=
  match tget s.tm.launches lid with
  | none => s
  | some l =>
    if l.filled then s
    else match taskPieces s l.ranges l.comp false [kAtomic, kConst] (cutRange (l.word 7) (8 * l.nitems)) with
      | .error va =>
        let s := s.modLaunch lid fun l => { l with
          endCode := 3, ending := l.ending <|> some { status := 6, cause := 0x0B, fteam := 0, finfo := BitVec.ofNat 64 va } }
        { s with tm := { s.tm with setts := s.tm.setts.filter fun e => e.2.lid != lid } }
      | .ok ps => match touchPieces s ps with
        | none => s.after (s.cycle + 1) false .settFill { a := lid }
        | some s =>
        let bs := readPieces s ps
        let gains := (List.range l.nitems).map fun i => sextInt (bytesNat ((bs.drop (8 * i)).take 8)) 64
        let s := (List.range l.sdies).foldl (fun t j =>
          t.setSett (settKey lid (l.sdie0 + j)) { lid := lid, items := settItems l gains j, waits := [] }) s
        let s := s.modLaunch lid fun l => { l with filled := true, residual := gains.foldl (fun n g => n + g.natAbs * 2 ^ 32) 0 }
        let s := settTest s lid true
        let now := tget s.tm.launches lid
        s.modLaunch lid fun l => { l with
          markSetts := s.tm.setts.filter fun e => e.2.lid == lid
          markResidual := (now.map (·.residual)).getD 0, markEnd := (now.map (·.endCode)).getD 0 }

/-- The meaning of SETT_FILL, for the launch that the event names. -/
def execSettFill (s : State) : Host.Outcome State Fault Refusal := .next (placementRun (fillSetts s s.ev.a))

end Sys2Proof.Machine
end

