-- ==== Sys2Proof/Machine/Access.lean ====
section
/-! DEFINITION. The events of accesses and results (R90, R91, R125 to R137, R186, R190, R217, R252, R260, R262, R447):
what has been issued is performed, answered and landed. -/

namespace Sys2Proof.Machine

/-- An event of one access: nothing when it is gone. -/
def onAcc (f : State → Acc → State) (s : State) : Host.Outcome State Fault Refusal :=
  .next (match accOf s s.ev.a with
    | some a => f s a
    | none => s)

/-- The meaning of GLOBAL_WRITE_PERFORMED, for the access that the event names. -/
def execGlobalWritePerformed (s : State) : Host.Outcome State Fault Refusal := onAcc performWrite s

/-- The meaning of ATOMIC_QUEUE_PERFORM. -/
def execAtomicQueuePerform (s : State) : Host.Outcome State Fault Refusal :=
  onAcc (fun t a => performAtomic t a .atomicQueuePerform) s

/-- The meaning of REDUCTION_HOLD. -/
def execReductionHold (s : State) : Host.Outcome State Fault Refusal :=
  onAcc (fun t a => performAtomic t a .reductionHold) s

/-- The meaning of CHAIN_READ. -/
def execChainRead (s : State) : Host.Outcome State Fault Refusal := onAcc performChain s

/-- The meaning of PATCH_WRITE_ARRIVAL. -/
def execPatchWriteArrival (s : State) : Host.Outcome State Fault Refusal := onAcc performPatch s

/-- The meaning of CLUSTER_ACCESS_ACCEPT. -/
def execClusterAccessAccept (s : State) : Host.Outcome State Fault Refusal := onAcc performCluster s

/-- R262. An arrival reaches its register. -/
def arrive (s : State) (id : Nat) : State :=
  match s.ms.arrivals.find? fun a => a.id == id with
  | none => s
  | some a =>
    let s := { s with ms := { s.ms with arrivals := s.ms.arrivals.filter fun b => b.id != id } }
    s.modCtx a.ctx fun x => landArrival x a s.cycle

/-- The meaning of VARIABLE_ARRIVAL: a global load read at its port, or a value that reaches its register. -/
def execVariableArrival (s : State) : Host.Outcome State Fault Refusal :=
  match accOf s s.ev.a with
  | some a => .next (performLoad s a)
  | none => .next (arrive s s.ev.a)

/-- The meaning of RESULT_LANDING: every result of a context due by this cycle lands (R260, R262). -/
def execResultLanding (s : State) : Host.Outcome State Fault Refusal :=
  .next (s.modCtx s.ev.a fun x => landDue x s.cycle)

/-- R252. The ephemeral units of a context whose time has come become empty. -/
def expireUnits (x : Ctx) (cycle : Nat) : Ctx :=
  { x with units := x.units.map fun u => (u.1, match u.2 with
      | .ephemeral t => if t ≤ cycle then .empty else .ephemeral t
      | .empty => .empty
      | .failed a l => .failed a l) }

/-- The meaning of EPHEMERAL_EXPIRY, for the context that the event names. -/
def execEphemeralExpiry (s : State) : Host.Outcome State Fault Refusal :=
  .next (s.modCtx s.ev.a fun x => expireUnits x s.cycle)

/-! ### Translation (R90, R91) -/

/-- R90. A core's page translation buffer holds 512 entries; an older one makes room. -/
def tlbPut (t : Tlb) (l : List Tlb) : List Tlb :=
  let mine := l.filter fun e => e.core == t.core && !(e.comp == t.comp && e.page == t.page)
  (l.filter fun e => e.core != t.core) ++ mine.drop (mine.length - 511) ++ [t]

/-- R91, R209. The waiting walk of a die that begins next: the one that has waited longest; in strict mode, of the waiting
classes in turn by number. -/
def nextWalk (s : State) (die : Nat) : Option Walk :=
  let waiting (w : Walk) : Bool := w.die == die && !w.started
  if ((tget s.tt.ctl die).getD 0).getLsbD 0 then s.ms.walks.find? waiting
  else
    let last := (tget s.ms.walkLast die).getD 0
    (List.range 64).findSome? fun k => s.ms.walks.find? fun w => waiting w && w.comp == (last + 1 + k) % 64

/-- R91. A walk slot has come free: the next walk begins. -/
def startNext (s : State) (die : Nat) : State :=
  match nextWalk s die with
  | none => s
  | some w =>
    let s := { s with ms := { s.ms with
      walks := s.ms.walks.map fun (v : Walk) => if v.id = w.id then { v with started := true } else v
      walkLast := tput die w.comp s.ms.walkLast } }
    let (n, s) := s.delay
    s.after (s.cycle + n) false .translationWalkEnd { a := w.id }

/-- R91. A walk ends and answers every access that joined it. -/
def walkEnd (s : State) (id : Nat) : State :=
  match s.ms.walks.find? fun w => w.id == id with
  | none => s
  | some w =>
    let ans := walkTables s w.comp (w.page * 4096)
    let s := { s with ms := { s.ms with walks := s.ms.walks.filter fun v => v.id != id } }
    let s := w.ctxs.foldl (fun t c =>
      if c < 2 ^ 20 then t.modCtx c fun x => { x with walked := x.walked ++ [(w.comp, w.page, ans)] }
      else modCmd t (c - 2 ^ 20) fun k => { k with walked := k.walked ++ [(w.comp, w.page, ans)] }) s
    let s := match ans with
      | .desc low high level =>
        let held (k : Nat) : Tlb := { core := k, comp := w.comp, page := w.page, low := low, high := high, level := level }
        { s with ms := { s.ms with tlb := ((w.ctxs.filter (· < 2 ^ 20)).map coreOf).eraseDups.foldl (fun l k => tlbPut (held k) l) s.ms.tlb } }
      | .fault _ _ => s
    startNext s w.die

/-- The meaning of TRANSLATION_WALK_END, for the walk that the event names. -/
def execTranslationWalkEnd (s : State) : Host.Outcome State Fault Refusal := .next (walkEnd s s.ev.a)

/-! ### The Setts -/

/-- The meaning of SETT_POP_ANSWER, for the Sett that the event names; with 1 in `b`, a Sett operation, by number, arrives
there. -/
def execSettPopAnswer (s : State) : Host.Outcome State Fault Refusal :=
  .next (if s.ev.b = 1 then settArrive s s.ev.c else serveSett s s.ev.a)

/-- R190. The receiver inserts the items in transit to it. -/
def insertItems (s : State) (lid : Nat) : State :=
  match s.tm.transits.find? fun t => t.lid == lid with
  | none => s
  | some t =>
    let key := settKey lid t.receiver
    let s := { s with tm := { s.tm with transits := s.tm.transits.erase t } }
    match tget s.tm.setts key with
    | none => s
    | some r =>
      let items := t.items.foldl (fun m (e : Nat × Item) => tput e.1 { e.2 with transit := false } m) r.items
      serveSett (settTest (s.setSett key { r with items := items }) lid false) key

/-- The meaning of RECEIVER_INSERTS_ITEMS, for the launch that the event names. -/
def execReceiverInsertsItems (s : State) : Host.Outcome State Fault Refusal := .next (insertItems s s.ev.a)

/-! ### Errors (R217, R447) -/

/-- An error that cannot be corrected appears: in a word of HBM or the second tier (kind 0, physical address), in a
word of a scratchpad (1, core × 2^21 + offset), in a register (2, byte offset, and its context), in an accumulator
element (3, its number), or in a bundle of an instruction store (4, its number). -/
def failAt (s : State) (kind at_ c : Nat) : State :=
  match kind with
  | 0 => { s with ms := { s.ms with failMem := sins (at_ / 4) s.ms.failMem } }
  | 1 => { s with ms := { s.ms with failSpad := sins (at_ / 4) s.ms.failSpad } }
  | 2 => s.modCtx c fun x => { x with units := tput (at_ / 2) (.failed (BitVec.ofNat 64 (at_ / 2 * 2)) 3) x.units }
  | 3 => { s with cr := { s.cr with failAcc := sins at_ s.cr.failAcc } }
  | _ => { s with cr := { s.cr with failBundle := sins at_ s.cr.failBundle } }

/-- The meaning of UNCORRECTABLE_ERROR: kind, place and context of the event. -/
def execUncorrectableError (s : State) : Host.Outcome State Fault Refusal := .next (failAt s s.ev.a s.ev.b s.ev.c)

/-- R217. Zitrum reloads a bundle of an instruction store (core × 4096 + bundle) from the image of the team that it
belongs to. -/
def reloadBundle (s : State) (at_ : Nat) : State :=
  let core := at_ / 4096
  let n := at_ % 4096
  let good := match s.tm.boards.find? fun e => e.1 / 64 == core / 16 && bV e.2 && teamOn e.2 (core % 16) &&
      decide (bIbase e.2 ≤ n) && decide (n < bIbase e.2 + bIlen e.2) with
    | some e => ((tget s.tm.launches (bLid e.2)).map imageBundles).bind fun l => l[n - bIbase e.2]?
    | none => none
  let store := match good with
    | some b => tput at_ b s.cr.istore
    | none => s.cr.istore
  { s with cr := { s.cr with istore := store, failBundle := sdel at_ s.cr.failBundle } }

/-- The meaning of IBUNDLE_ECC_RELOAD, for the bundle that the event names. -/
def execIbundleEccReload (s : State) : Host.Outcome State Fault Refusal := .next (reloadBundle s s.ev.a)

end Sys2Proof.Machine
end

