-- ==== Sys2Proof/Machine/Swap.lean ====
section
/-! DEFINITION. Swaps and ends (R166, R176, R180, R192, R219, R222, R223): pre-emption, saved teams, TEAMDOWN, the
slot that a team leaves, and the completion of a launch. -/

namespace Sys2Proof.Machine

/-! ### Pre-emption (R219) -/

/-- R219, R216. Whether a context can stop in a cycle: its next bundle has not issued in it, and it stands at a boundary
outside a delay shadow or is blocked, but not by a patch command that has reached its home Badger. -/
def canStop (x : Ctx) (cycle : Nat) : Bool :=
  x.run == .running && x.blocked != .patch && (x.blocked != .none || (x.shadow.isNone && x.tried != some cycle))

/-- R134, R219. What waits for a context is withdrawn: tagged requests, pops without an item, walks, and reads of a
dropped line. -/
def withdraw (s : State) (c : Nat) : State :=
  { s with
    ms := { s.ms with
      tagq := s.ms.tagq.filter fun q => q.ctx != c
      walks := s.ms.walks.map fun (w : Walk) => { w with ctxs := w.ctxs.filter fun k => k != c }
      demand := s.ms.demand.filter fun d => d.1 != c
      lines := s.ms.lines.map fun (e : Nat × Line) => (e.1, { e.2 with waiters := sdel c e.2.waiters }) }
    tm := dropPops s.tm c }

/-- R134, R219. What waits for a context is withdrawn, its tagged requests and pops to queue anew at resume. -/
def pullWaits (s : State) (c : Nat) : State :=
  let reqs := s.ms.tagq.filter fun q => q.ctx == c
  let pops := popsOut s c
  (withdraw s c).modCtx c fun x => { x with pulled := x.pulled ++ reqs, pulledPops := x.pulledPops ++ pops }

/-- R219, R215. The Stationmaster stops a context, and its call with it (R371); one that cannot stop yet stops when it
can. -/
def preemptCtx (s : State) (c : Nat) : State :=
  if (s.ctx c).run ≠ .running then s
  else if ¬ canStop (s.ctx c) s.cycle then askStop s c
  else (pullWaits (askStop s c) c).modCtx c fun x =>
    { x with
      run := .preempted, preempt := false, psnap := some (capture x s.cycle), flights := [], replay := []
      tpc := if tact x then x.tpc else x.pc
      blocked := .none, tried := x.spentAt, clusterAt := none, early := none, walked := [], unmade := [], paid := [], onLine := false
      sent := x.sent && x.blocked == .launch
      answer := if x.blocked = .launch then x.answer else none }

/-- The meaning of PREEMPT, for the context that the event names. -/
def execPreempt (s : State) : Host.Outcome State Fault Refusal := .next (preemptCtx s s.ev.a)

/-- R216, R219, R372. A pre-empted context runs on: its snapshot restored, what was withdrawn queued anew, and a
call that stopped to be issued again. -/
def resumeCtx (s : State) (c : Nat) : State :=
  let x := s.ctx c
  if x.run ≠ .preempted then s
  else
    let y := match x.psnap with | some p => restore x p | none => x
    let s := s.setCtx c { y with
      run := .running, psnap := none, preempt := false, pulled := [], pulledPops := []
      reissue := if (resPort y 0x281).getLsbD 63 then x.reissue.map fun r => { r with ready := true } else none }
    x.pulledPops.foldl (fun t w => sendSett t (settOp t c (if w.poll then 4 else 3) 0 0 w.dest)) (x.pulled.foldl tagArrive s)

/-! ### Saved teams (R176) -/

/-- R253. A context as it is saved: an ephemeral unit is empty. -/
def saveCtx (x : Ctx) : Ctx :=
  { x with units := x.units.map fun u => (u.1, match u.2 with
      | .ephemeral _ => .empty
      | .empty => .empty
      | .failed a l => .failed a l) }

/-- The window of a team on a core, by package number: base byte and size. -/
def teamWindow (b : BitVec 512) (core : Nat) : Nat × Nat := (core * 2 ^ 21 + bWbase b (core % 16) * 4096, bWsize b * 4096)

/-- Whether a scratchpad byte lies in a window of a team. -/
def inWindows (key : Nat) (b : BitVec 512) (a : Nat) : Bool :=
  (teamCores key b).any fun k => decide ((teamWindow b k).1 ≤ a) && decide (a < (teamWindow b k).1 + (teamWindow b k).2)

/-- Whether a word lies in a window of a team. -/
def windowHit (key : Nat) (b : BitVec 512) (p : Place) : Bool :=
  match p with
  | .spad a => inWindows key b a
  | .phys _ => false
  | .line _ _ => false

/-- R138. In replay, the updates of a team's windows whose round is open. -/
def heldUpdates (s : State) (key : Nat) (b : BitVec 512) : List Upd :=
  s.ms.holds.flatMap fun e => if (bufRecord s e.2).isSome then e.2.held.filter fun u => windowHit key b u.place else []

/-- Whether the round of an update of a launch is open. -/
def roundOpen (s : State) (lid : Nat) (u : Upd) : Bool :=
  s.ms.holds.any fun e => e.2.lid == lid && e.2.held.any fun h => updEntry h == updEntry u

/-- R138. A saved team with the updates whose round has ended since applied to its windows. -/
def Saved.settle (v : Saved) (s : State) : Saved :=
  let t := applyUpds { s with ms := { s.ms with spad := v.spad, failSpad := v.bad } } v.lid
    (updSort (v.held.filter fun u => !roundOpen s v.lid u))
  { v with spad := t.ms.spad, bad := t.ms.failSpad, held := v.held.filter (roundOpen s v.lid) }

/-- R138. The updates of a saved team reach the words of its windows again, where they now stand. -/
def holdBack (s : State) (lid : Nat) (l : List Upd) (place : Place → Place) : State :=
  let back (h : Upd) : Upd := match l.find? fun u => updEntry u == updEntry h with
    | some u => { u with place := place u.place }
    | none => h
  { s with ms := { s.ms with holds := s.ms.holds.map fun (e : Nat × HoldBuf) =>
    (e.1, if e.2.lid = lid then { e.2 with held := e.2.held.map back } else e.2) } }

/-- R176, R227. A team as a swap-out or a step saves it. -/
def captureTeam (s : State) (key : Nat) (b : BitVec 512) : Saved :=
  let ms := membersOf key b
  { lid := bLid b, team := bTeam b, key := key, word := b
    ctxs := ms.map fun c => (c, saveCtx (s.ctx c))
    spad := s.ms.spad.filter fun e => inWindows key b e.1
    full := s.ms.full.filter fun w => inWindows key b (4 * w)
    bad := s.ms.failSpad.filter fun w => inWindows key b (4 * w)
    banks := (s.cr.banks.filter fun e => ms.contains e.2.holder).map fun e => { key := e.1, bank := e.2 }
    crews := (List.range 8).map fun k => (tget s.tm.crews (key * 8 + k)).getD []
    opens := (List.range 8).map fun k => (tget s.tm.crewOpen (key * 8 + k)).getD []
    held := heldUpdates s key b }

/-- Whether nothing of a set of contexts is on its way: no call, access, Sett operation, write of an engine, value, or
status. -/
def quiet (s : State) (ms : List Nat) : Bool :=
  !s.cr.calls.any (fun e => ms.contains e.2.ctx) && !s.ms.accs.any (fun a => ms.contains a.ctx) && !s.tm.settOps.any (fun o => ms.contains o.ctx) &&
    !s.en.writes.any (fun w => ms.contains w.ctx && !s.tm.swaps.any fun v => v.lid == w.lid && v.team == w.team) &&
    !s.ms.arrivals.any (fun a => ms.contains a.ctx) && !s.en.statusWaits.any fun w => ms.contains w.ctx

/-- R176, R222. Whether a team whose swap-out has begun can be saved. -/
def swapReady (s : State) (key : Nat) (b : BitVec 512) : Bool :=
  let ms := membersOf key b
  s.tm.leaving.contains key && quiet s ms && ms.all (fun c => (s.ctx c).run != .running) &&
    s.en.cmds.all fun k => !ms.contains k.ctx || k.away || swapExempt k

/-- The crews of a slot are gone. -/
def dropCrews (s : State) (key : Nat) : State :=
  { s with tm := { s.tm with
    crews := s.tm.crews.filter fun e => e.1 / 8 != key, crewOpen := s.tm.crewOpen.filter fun e => e.1 / 8 != key } }

/-- R176, R222. A team is saved, and leaves its Board. -/
def swapOut (s : State) (key : Nat) : State :=
  match tget s.tm.boards key with
  | none => s
  | some b =>
    if ¬ swapReady s key b then s
    else
      let ms := membersOf key b
      let s := ms.foldl pullWaits (parkCmds s ms)
      let held := heldUpdates s key b
      let s := leaveWindow s (windowHit key b)
      let v := { captureTeam s key b with held := held }
      let s := mapOpens (opensAway v.lid v.team ms) (ms.foldl freeBanks s)
      let s := dropCrews (writeSlot s key 0) key
      let w : Waiting := { lid := v.lid, team := v.team, since := s.tt.periods }
      placementRun { s with tm := { s.tm with
        leaving := sdel key s.tm.leaving, swaps := s.tm.swaps ++ [v], waiting := s.tm.waiting ++ [w] } }

/-- The meaning of SWAP_OUT, for the slot that the event names. -/
def execSwapOut (s : State) : Host.Outcome State Fault Refusal := .next (swapOut s s.ev.a)

/-- How the parts of a saved team are named where it stands again: cores by number of the package, contexts. -/
structure Ren where
  core : Nat → Nat
  ctx : Nat → Nat

/-- R176, R182. A saved team comes back to its own cores and contexts; one that has lost a core, to those of its new
placement, logical core by logical core and rank by rank. -/
def renOf (key : Nat) (w : BitVec 512) (v : Saved) : Ren :=
  let det := modeDet (bMode w)
  let olds := v.ctxs.map (·.1)
  let news := membersOf key w
  { core := fun k => key / 64 * 16 + newCore det v.word w (k % 16)
    ctx := fun c => match olds.findIdx? fun o => o == c with
      | some i => news.getD i c
      | none => c }

/-- R77. A scratchpad byte of a saved window, where the window now stands. -/
def Ren.byte (r : Ren) (v : Saved) (w : BitVec 512) (a : Nat) : Nat :=
  let k := r.core (a / 2 ^ 21)
  k * 2 ^ 21 + a % 2 ^ 21 - bWbase v.word (a / 2 ^ 21 % 16) * 4096 + bWbase w (k % 16) * 4096

/-- R176. The windows, banks and crews of a saved team stand again, in a slot with a word. -/
def restoreParts (s : State) (key : Nat) (w : BitVec 512) (v : Saved) (r : Ren) : State :=
  let bundles := ((tget s.tm.launches v.lid).map imageBundles).getD []
  let s := (teamCores key w).foldl (fun t k =>
    let t := clearWindow t (teamWindow w k).1 (teamWindow w k).2
    { t with cr := { t.cr with istore := loadImage k (bIbase w) bundles t.cr.istore } }) s
  let crew (t : Tab (List Nat)) (l : List (List Nat)) : Tab (List Nat) :=
    (List.range 8).foldl (fun m k => match l.getD k [] with
      | [] => m
      | c => tput (key * 8 + k) (c.foldl (fun z n => sins (r.ctx n) z) []) m) t
  let bank (m : Tab Bank) (e : SavedBank) : Tab Bank :=
    tput (r.core (e.key / 256) * 256 + e.key % 256) { e.bank with holder := r.ctx e.bank.holder } m
  let s := dropCrews s key
  { s with
    ms := { s.ms with
      spad := v.spad.foldl (fun m (e : Host.Cell) => wrByte (r.byte v w e.1) e.2 m) s.ms.spad
      full := v.full.foldl (fun l n => sins (r.byte v w (4 * n) / 4) l) s.ms.full
      failSpad := v.bad.foldl (fun l n => sins (r.byte v w (4 * n) / 4) l) s.ms.failSpad }
    cr := { s.cr with banks := v.banks.foldl bank s.cr.banks }
    tm := { s.tm with crews := crew s.tm.crews v.crews, crewOpen := crew s.tm.crewOpen v.opens } }

/-- A saved context in the slot where its team stands again. -/
def ctxBack (v : Saved) (key : Nat) (w : BitVec 512) (r : Ren) (x : Ctx) : Ctx :=
  { x with
    slot := key
    pulled := x.pulled.map fun (q : TagReq) => { q with ctx := r.ctx q.ctx, word := r.byte v w (4 * q.word) / 4 } }

/-- R176, R222. A team that Zitrum has placed again takes its state back, and runs on. -/
def swapIn (s : State) (key : Nat) : State :=
  match tget s.tm.placing key with
  | none => s
  | some w =>
    if ¬ s.rt.zitrum then s.after (s.cycle + 1) false .swapIn { a := key }
    else
    let s := { s with tm := { s.tm with
      placing := tdel key s.tm.placing
      waiting := s.tm.waiting.filter fun e => !(e.lid == bLid w && e.team == bTeam w) } }
    match s.tm.swaps.find? fun v => v.lid == bLid w && v.team == bTeam w with
    | none => s
    | some v =>
      let v := v.settle s
      let r := renOf key w v
      let s := { s with tm := { s.tm with
        boards := tput key w s.tm.boards, swaps := s.tm.swaps.filter fun u => !(u.lid == v.lid && u.team == v.team) } }
      let s := restoreParts s key w v r
      let s := holdBack s v.lid v.held fun p => match p with
        | .spad a => .spad (r.byte v w a)
        | .phys a => .phys a
        | .line l o => .line l o
      let s := v.ctxs.foldl (fun t e => t.bindCtx (r.ctx e.1) (ctxBack v key w r e.2)) s
      let s := mapOpens (fun n => r.ctx (opensBack v.lid v.team (v.ctxs.map (·.1)) n)) s
      let s := { s with en := { s.en with cmds := s.en.cmds.map fun (k : Cmd) =>
        if k.lid = v.lid ∧ k.team = v.team ∧ k.away then { k with ctx := r.ctx k.ctx } else k } }
      (membersOf key w).foldl resumeCtx (noteResident (unparkCmds s v.lid v.team) key w)

/-- The meaning of SWAP_IN, for the slot that the event names. -/
def execSwapIn (s : State) : Host.Outcome State Fault Refusal := .next (swapIn s s.ev.a)

/-! ### A team leaves its Board (R169, R174, R178) -/

/-- R178, R223, R403. Whether the team of a slot may leave: every member has ended, and so has all that it started. -/
def mayLeave (s : State) (key : Nat) (b : BitVec 512) : Bool :=
  let ms := membersOf key b
  bV b && !s.tm.leaving.contains key && ms.all (fun c => ctxDone (s.ctx c)) && quiet s ms &&
    !s.en.cmds.any fun k => ms.contains k.ctx && !k.away

/-- R169. Zitrum clears the slot of a team that has ended; what a member that was stopped still held is free. -/
def clearSlot (s : State) (key : Nat) (b : BitVec 512) : State :=
  let s := (membersOf key b).foldl (fun t c => if (t.ctx c).run = .stopped then endContext t c .stopped else t) s
  placementRun (dropCrews (writeSlot s key 0) key)

/-- The meaning of BOARD_SLOT_WRITE: the slot and its 64 bytes. -/
def execBoardSlotWrite (s : State) : Host.Outcome State Fault Refusal :=
  let key := s.ev.a
  let w : BitVec 512 := BitVec.ofNat 512 (bytesNat s.ev.body)
  .next (match tget s.tm.boards key with
    | some b => if bV b ∧ ¬ bV w then clearSlot s key b else writeSlot s key w
    | none => writeSlot s key w)

/-! ### The end of a launch's teams (R180, R223) -/

/-- R223, R211. TEAMDOWN is taken: by the handler, or the context stops. -/
def takeDown (s : State) (c : Nat) (d : Down) : State :=
  let s := (withdraw s c).modCtx c fun x => { noArrival x with
    down := some { d with delivered := true, num := x.bundles }, released := [], stepped := false }
  let s := takeTrap c { code := 0x15, info0 := d.info0, info1 := d.info1 } s
  if (s.ctx c).run = .stopped then endContext s c .stopped else s

/-- R180. Whether a context is blocked on a tagged word, in `tbar` or in `cbar`. -/
def downAtOnce (s : State) (c : Nat) : Bool :=
  match (s.ctx c).blocked with
  | .tbar => true
  | .cbar _ => true
  | .tagged => true
  | .none => false
  | _ => s.ms.tagq.any fun q => q.ctx == c

/-- R223, R19. A member of an ended launch; the context of a core that has failed is lost. -/
def downMember (d : Down) (s : State) (c : Nat) : State :=
  if s.cr.absent.contains (coreOf c) ∧ (s.ctx c).run ≠ .exited ∧ (s.ctx c).run ≠ .unbound then endContext s c .stopped
  else match (s.ctx c).run with
  | .unbound => s
  | .exited => s
  | .stopped => endContext s c .stopped
  | .preempted => (resumeCtx (s.modCtx c fun x => { x with pulled := [], pulledPops := [] }) c).modCtx c
      fun x => { x with down := some d, reissue := none }
  | .running =>
    let s := (stopCall s c).modCtx c fun x => { x with down := some d, preempt := false, reissue := none }
    if downAtOnce s c then takeDown s c d else s

/-- R180. A swapped-out team of an ended launch is gone. -/
def dropSaved (s : State) (v : Saved) : State :=
  let s := v.ctxs.foldl (fun t e => e.2.held.foldl (fun u i => modItem u v.lid i fun x => { x with runner := none }) t) s
  { s with
    ms := { s.ms with lines := s.ms.lines.map fun (e : Nat × Line) =>
      (e.1, { e.2 with opens := e.2.opens.filter fun o => !v.ctxs.any fun m => awayKey v.lid v.team m.1 == o.ctx }) }
    en := { s.en with cmds := s.en.cmds.filter fun k => !(k.lid == v.lid && k.team == v.team && k.away) } }

/-- The slots of a launch. -/
def boardsOf (s : State) (lid : Nat) : List (Nat × BitVec 512) := s.tm.boards.filter fun e => bV e.2 && bLid e.2 == lid

/-- Waiting teams of a launch, and decided binds, are given up; swap-outs that have begun end. -/
def stopPlacing (s : State) (lid : Nat) : State :=
  let mine := s.tm.placing.filter fun e => bLid e.2 == lid
  let s := mine.foldl (fun t e => (t.cancel .boardSlotWrite e.1).cancel .swapIn e.1) s
  let keys := (boardsOf s lid).map (·.1)
  { s with tm := { s.tm with
    placing := s.tm.placing.filter fun e => bLid e.2 != lid
    reserved := s.tm.reserved.filter fun r => r.lid != lid
    waiting := s.tm.waiting.filter fun w => w.lid != lid
    leaving := s.tm.leaving.filter fun k => !keys.contains k
    boards := s.tm.boards.map fun (e : Nat × BitVec 512) => (e.1, if keys.contains e.1 then e.2 &&& ~~~((1 : BitVec 512) <<< 62) else e.2) } }

/-- And its swapped-out teams too. -/
def giveUp (s : State) (lid : Nat) : State :=
  let s := (s.tm.swaps.filter fun v => v.lid == lid).foldl dropSaved (stopPlacing s lid)
  { s with tm := { s.tm with swaps := s.tm.swaps.filter fun v => v.lid != lid } }

/-- R180, R188, R223. Zitrum ends every team of a launch. -/
def endLaunch (s : State) (lid : Nat) (info0 info1 : W64) : State :=
  match tget s.tm.launches lid with
  | none => s
  | some l =>
    if l.down.isSome then s
    else
      let s := s.modLaunch lid fun l => { l with down := some s.cycle, aband := none }
      let s := giveUp (settEnd s lid 3) lid
      let d : Down := { info0 := info0, info1 := info1, since := s.cycle, delivered := false }
      let s := ((boardsOf s lid).flatMap fun e => membersOf e.1 e.2).foldl (downMember d) s
      s.after (s.cycle + 16384) false .teamdownTimeout { a := lid }

/-- R220, R371. The calls of a launch's contexts that have stopped after a fatal trap stop too. -/
def stopCalls (s : State) (lid : Nat) : State :=
  ((boardsOf s lid).flatMap fun e => membersOf e.1 e.2).foldl (fun t c =>
    if (t.ctx c).run = .stopped then stopCall t c else t) s

/-- R180, R223, R177, R207, R224. The teams of a launch end: after a fatal trap (its rank and cause), after a kill
(d = 1), or for want of room (d = 2, the subcode). While no Zitrum runs (R234), it waits. -/
def teamEnd (s : State) (e : EvArg) : State :=
  let s := stopCalls s e.a
  if ¬ s.rt.zitrum then s.after (s.cycle + 1) false .teamEnd e
  else
    let s := if e.d = 2 then s.modLaunch e.a fun l => { l with ending := l.ending <|> some { status := 5, sub := e.c } } else s
    if e.d = 0 then endLaunch s e.a (BitVec.ofNat 64 e.b) (BitVec.ofNat 64 e.c)
    else endLaunch s e.a (BitVec.allOnes 64) 0

/-- The meaning of TEAM_END. -/
def execTeamEnd (s : State) : Host.Outcome State Fault Refusal := .next (teamEnd s s.ev)

/-- R223, R234. Members that still run 16,384 cycles after TEAMDOWN was raised are stopped, once a Zitrum runs. -/
def downTimeout (s : State) (lid : Nat) : State :=
  match (tget s.tm.launches lid).bind (·.down) with
  | none => s
  | some t =>
    if s.cycle < t + 16384 then s
    else if ¬ s.rt.zitrum then s.after (s.cycle + 1) false .teamdownTimeout { a := lid }
    else ((boardsOf s lid).flatMap fun e => membersOf e.1 e.2).foldl (fun u c =>
      if (u.ctx c).run = .running ∨ (u.ctx c).run = .preempted then endContext u c .stopped else u) s

/-- The meaning of TEAMDOWN_TIMEOUT, for the launch that the event names. -/
def execTeamdownTimeout (s : State) : Host.Outcome State Fault Refusal := .next (downTimeout s s.ev.a)

/-! ### Completion (R166, R192) -/

/-- R166. Whether a launch is complete: its last team has left its Board, and none is still to come. -/
def completionReady (s : State) (l : Launch) : Bool :=
  (boardsOf s l.lid).isEmpty && !s.tm.placing.any (fun e => bLid e.2 == l.lid) &&
    !s.tm.reserved.any (fun r => r.lid == l.lid) && !s.tm.swaps.any (fun v => v.lid == l.lid) &&
    !s.tm.waiting.any (fun w => w.lid == l.lid) &&
    (l.ending.isSome || l.down.isSome || (decide (l.nteams ≤ l.nextTeam) && l.skipped.isEmpty))

/-- R192. Zitrum writes bytes of a task's memory; none where an address of them does not translate. -/
def zitrumWrite (s : State) (l : Launch) (va : Nat) (bs : List Byte) : Option State :=
  match taskPieces s l.ranges l.comp true [kAtomic] (cutPages 3 (va % 2 ^ 64) bs.length) with
  | .error _ => none
  | .ok ps => some (writePieces l.comp l.lid ps bs s)

/-- R192. Writes a list of entries at rising addresses: how many were written, and whether one was skipped. -/
def writeList (l : Launch) (step : Nat) : List (List Byte) → Nat → Nat × Bool × State → Nat × Bool × State
  | [], _, r => r
  | bs :: t, va, (n, bad, s) => match zitrumWrite s l va bs with
    | some u => writeList l step t (va + step) (n + 1, bad, u)
    | none => writeList l step t (va + step) (n, true, s)

/-- R192. The write-back of a gain launch: entries of the unrun list written, whether a word of GAINS and whether an
entry of UNRUN was skipped, and the state. -/
def writeBack (s : State) (l : Launch) : Nat × Bool × Bool × State :=
  if ¬ (modeGain l.mode ∧ l.filled) then (0, false, false, s)
  else
    let gain (i : Nat) : Int := ((itemOf s l.lid i).map (·.gain)).getD 0
    let enc (g : Int) : List Byte := natBytes (g % 2 ^ 64).toNat 8
    let g := writeList l 8 ((List.range l.nitems).map fun i => enc (gain i)) (l.word 7) (0, false, s)
    let left := (List.range l.nitems).filter fun i => decide (l.floor < gain i)
    let u := writeList l 16 (left.map fun i => natBytes i 8 ++ enc (gain i)) (l.word 10) (0, false, g.2.2)
    (u.1, g.2.1, u.2.1, u.2.2)

/-- R192. The pieces of a task's memory that a list of entries may be written to. -/
def listPieces (s : State) (l : Launch) (step va n : Nat) : List (Nat × Nat) :=
  (List.range n).flatMap fun i =>
    match taskPieces s l.ranges l.comp true [kAtomic] (cutPages 3 ((va + step * i) % 2 ^ 64) step) with
    | .error _ => []
    | .ok ps => ps

/-- R136, R138. The drains that the writes of a completion bring about; none while they must wait in replay. -/
def completionTouch (s : State) (l : Launch) : Option State :=
  let s := drainLaunch s l.lid 2
  let gains := if modeGain l.mode ∧ l.filled then
      listPieces s l 8 (l.word 7) l.nitems ++ listPieces s l 16 (l.word 10) l.nitems
    else []
  touchPieces s (gains ++ recordPieces s l.comp l.ranges (l.word 3))

/-- R224. The log of a launch is held under its compartment, image and packet, in place of an earlier one. -/
def holdLog (s : State) (l : Launch) : State :=
  if ¬ modeDet l.mode then s
  else
    let same (h : HeldLog) : Bool := h.comp == l.comp && h.digest == l.digest && packetKey h.packet == packetKey l.packet
    let h : HeldLog := { comp := l.comp, lid := l.lid, digest := l.digest, packet := l.packet
                         logs := s.tm.logs.filter fun g => g.lid == l.lid }
    { s with tm := { s.tm with heldLogs := (s.tm.heldLogs.filter fun g => !same g) ++ [h] } }

/-- R438. The LID that a request names. -/
def reqLid (q : Request) : Nat :=
  let w := bytesNat (q.body.take 8)
  if q.code = 0x0A ∨ q.code = 0x0C then fld w 31 16 else fld w 15 0

/-- R438. Requests that wait for a launch that has ended: a KILL is done, an ABANDON or a CKPT has nothing left. -/
def answerWaiting (s : State) (lid : Nat) : State :=
  let mine (q : Request) : Bool := (q.code == 2 || q.code == 0x0A || q.code == 0x0B) && reqLid q == lid
  let qs := s.ho.waiting.filter mine
  let s := { s with ho := { s.ho with waiting := s.ho.waiting.filter fun q => !mine q } }
  qs.foldl (fun t q => if q.code = 2 then respond t q 0 0 0 [] else respond t q 0x13 1 0 []) s

/-- R122, R227. The lines forget a launch that has ended; readers that waited for it are brought on. -/
def leaveLines (s : State) (lid : Nat) (done : Bool) : State :=
  let makers := s.ms.lines.filter fun e => e.2.making == some lid
  let s := { s with ms := { s.ms with lines := s.ms.lines.map fun (e : Nat × Line) =>
    (e.1, { e.2 with written := sdel lid e.2.written, startNames := tdel lid e.2.startNames }) } }
  makers.foldl (fun t e => producerEnds t e.1 (done && e.2.st == .live)) s

/-- R166. The launch completes. -/
def complete (s : State) (l : Launch) : State :=
  let s := drainLaunch s l.lid 2
  let (n, badG, badU, s) := writeBack s l
  let now := (tget s.tm.launches l.lid).getD l
  let e : Ending := match now.ending with
    | some e => e
    | none => if badG ∨ badU then { status := 8, sub := (if badG then 1 else 0) + (if badU then 2 else 0) } else { status := 0 }
  let s := writeRecord64 s l.lid l.comp l.ranges (l.word 3)
    (recordWords now.endCode e.sub e.status now.tdone e.cause e.fteam e.finfo now.residual n)
  let s := leaveLines (answerWaiting (holdLog s l) l.lid) l.lid (e.status == 0)
  placementRun <| endPool (comp := l.comp) { s with tm := { s.tm with
    launches := tdel l.lid s.tm.launches
    logs := s.tm.logs.filter fun g => g.lid != l.lid
    setts := s.tm.setts.filter fun t => t.2.lid != l.lid
    transits := s.tm.transits.filter fun t => t.lid != l.lid
    stepAreas := s.tm.stepAreas.filter fun v => v.lid != l.lid } }

/-- The meaning of LAUNCH_COMPLETION, for the launch that the event names. -/
def execLaunchCompletion (s : State) : Host.Outcome State Fault Refusal :=
  .next (match tget s.tm.launches s.ev.a with
    | some l => if completionReady s l then complete s l else s
    | none => s)

end Sys2Proof.Machine
end

