-- ==== Sys2Proof/Machine/Ckpt.lean ====
section
/-! DEFINITION. Checkpoints as bytes in memory (R231): the manifest, and the objects that stand beside it. The manual lists
what they hold and gives no encoding: the layout is assumption 58. -/

namespace Sys2Proof.Machine

/-! ### The manifest -/

/-- A line of a manifest. -/
def codecCkptLine : Codec CkptLine :=
  .iso (fun x => (x.line, x.fmt, x.xlog, x.cols8, x.hash, x.chain)) (fun (a, b, c, d, e, f) => ⟨a, b, c, d, e, f⟩)
    (fun _ => rfl)
    (.pair .nat <| .pair .nat <| .pair .nat <| .pair .nat <| .pair (.word 256) <| .list (.pair .nat (.word 256)))

/-- R231. What follows the header: the lines, the team images, the ATOMIC pages and the packet. -/
def codecCkptRest : Codec (List CkptLine × List Saved × Tab (List Byte) × List Byte) :=
  .pair (.list codecCkptLine) <| .pair (.list codecSaved) <| .pair (.list (.pair .nat (.list (.word 8)))) (.list (.word 8))

/-- R231. The header: compartment, step number, line count, team count and the length of the rest, 8 bytes each, then the
64 bytes of the hash of the rest. -/
def ckptHeader (k : Ckpt) (rest : List Byte) : List Byte :=
  natBytes k.comp 8 ++ natBytes k.step 8 ++ natBytes k.lines.length 8 ++ natBytes k.teams.length 8 ++
    natBytes rest.length 8 ++ digestBytes (shake64 rest)

/-- R231. A manifest. -/
def manifestBytes (k : Ckpt) : List Byte :=
  let rest := codecCkptRest.put (k.lines, k.teams, k.pages, k.packet)
  ckptHeader k rest ++ rest

/-- Word k of a header. -/
def headerWord (h : List Byte) (k : Nat) : Nat := bytesNat ((h.drop (8 * k)).take 8)

/-- R231. The manifest that a header and the bytes after it make, where the hash matches. -/
def manifestOf (h rest : List Byte) : Option Ckpt :=
  if digestBytes (shake64 rest) ≠ h.drop 40 then none
  else match codecCkptRest.get rest with
    | some ((lines, teams, pages, packet), []) =>
      if headerWord h 2 = lines.length ∧ headerWord h 3 = teams.length then
        some { comp := headerWord h 0, step := headerWord h 1, lines := lines, teams := teams, pages := pages, packet := packet }
      else none
    | some (_, _ :: _) => none
    | none => none

/-! ### The objects: bases by hash, patches by line, name and digest -/

/-- R231. An object: a base, or a patch of a line. -/
abbrev CkptObj := (BitVec 256 × Memory) ⊕ (Nat × Patch)

/-- An object's bytes. -/
def codecCkptObj : Codec CkptObj :=
  .sum (.pair (.word 256) (.list (.pair .nat (.word 8)))) (.pair .nat codecPatch)

/-- Marks the end of an object. -/
def objMark : Nat := 0x4A424F54504B43

/-- An object as it stands: its bytes, their number, and the mark. -/
def objBytes (o : CkptObj) : List Byte :=
  let b := codecCkptObj.put o
  b ++ natBytes b.length 8 ++ natBytes objMark 8

/-- The objects that stand at the end of an area, the last first, and the bytes that they take. -/
def objsAt : Nat → List Byte → List CkptObj × Nat
  | 0, _ => ([], 0)
  | fuel + 1, b =>
    let n := bytesNat ((b.drop (b.length - 16)).take 8)
    if b.length < 16 ∨ bytesNat (b.drop (b.length - 8)) ≠ objMark ∨ b.length - 16 < n then ([], 0)
    else
      let at_ := b.length - 16 - n
      match codecCkptObj.get ((b.drop at_).take n) with
      | some (o, []) =>
        let r := objsAt fuel (b.take at_)
        (o :: r.1, n + 16 + r.2)
      | some (_, _ :: _) => ([], 0)
      | none => ([], 0)

/-- Whether an object is the base of a hash, in the geometry of a line. -/
def isBase (fmt xlog : Nat) (hash : BitVec 256) : CkptObj → Option Memory
  | .inl (h, m) => if h = hash ∧ baseHash fmt xlog m = hash then some m else none
  | .inr _ => none

/-- Whether an object is the patch of a line with a name and a digest. -/
def isPatch (line name : Nat) (digest : BitVec 256) : CkptObj → Option Patch
  | .inl _ => none
  | .inr (n, p) =>
    if n = line ∧ p.name = name ∧ p.digest = digest ∧ digestOf p.kind p.pay = digest then some p else none

/-- R231. The objects of a line. -/
def lineObjs (n : Nat) (l : Line) : List CkptObj := .inl (l.hash, l.base) :: l.chain.map fun p => .inr (n, p)

/-- The key of an object. -/
def objKey : CkptObj → BitVec 256 ⊕ (Nat × Nat × BitVec 256)
  | .inl (h, _) => .inl h
  | .inr (n, p) => .inr (n, p.name, p.digest)

/-- The objects of a list that are not held, each once. -/
def newObjs (held : List CkptObj) : List CkptObj → List CkptObj
  | [] => []
  | o :: t => if held.any fun h => objKey h == objKey o then newObjs held t else o :: newObjs (o :: held) t

/-! ### Reading and writing tables -/

/-- R231. The physical pieces of a range of table addresses of a compartment; kinds that may stand there. -/
def tablePieces (s : State) (comp : Nat) (write : Bool) (kinds : List Nat) : List (Nat × Nat) → Option (List (Nat × Nat))
  | [] => some []
  | (ta, n) :: t =>
    match walkTables s comp (ta % 2 ^ 56) with
    | .fault _ _ => none
    | .desc low high _ =>
      if dComp high ≠ comp ∨ ¬ kinds.contains (dKind low) ∨ (write ∧ ¬ dW low) then none
      else (tablePieces s comp write kinds t).map fun l => (leafPa low (ta % 2 ^ 56), n) :: l

/-- The pieces of the memory that RESTORE and CKPT read. -/
def readable (s : State) (comp ta n : Nat) : Option (List (Nat × Nat)) :=
  tablePieces s comp false [kAtomic, kConst] (cutRange ta n)

/-- Bytes at table addresses of a compartment. -/
def readTable (s : State) (comp ta n : Nat) : Option (List Byte) := (readable s comp ta n).map (readPieces s)

/-- R231. The manifest that stands at an address, if its hash matches. -/
def findManifest (s : State) (comp man : Nat) : Option Ckpt :=
  (readTable s comp man 104).bind fun h =>
    let n := headerWord h 4
    if 2 ^ 56 < man + 104 + n then none else (readTable s comp (man + 104) n).bind fun rest => manifestOf h rest

/-! ### Taking one (R231, R438) -/

/-- The pages that a launch wrote, by table page. -/
def writtenPages (s : State) (l : Launch) : Tab (List Byte) :=
  (leavesOf s l.comp).foldl (fun m e =>
    if dKind e.2.1 = kAtomic then
      (List.range (2 ^ sizeLog (dSize e.2.1) / 4096)).foldl (fun m k =>
        let page := dPa e.2.1 / 4096 + k
        if l.writtenPages.contains page then tput (e.1 / 4096 + k) (fwRead s (page * 4096) 4096) m else m) m
    else m) []

/-- R231. The LIVE lines of a compartment, by number: the cut. -/
def liveLines (s : State) (comp : Nat) : Tab Line :=
  (s.ms.lines.filter fun e => e.1 / 2 ^ 24 == comp && e.2.st == .live).map fun e => (e.1 % 2 ^ 24, e.2)

/-- R231. A line as a manifest names it. -/
def ckptLine (e : Nat × Line) : CkptLine :=
  { line := e.1, fmt := e.2.fmt, xlog := e.2.xlog, cols8 := e.2.cols8, hash := e.2.hash
    chain := e.2.chain.map fun p => (p.name, p.digest) }

/-- R231. A launch's checkpoint at its boundary. -/
def ckptOf (s : State) (l : Launch) (saves : List Saved) : Ckpt :=
  { comp := l.comp, step := l.steps, lines := (liveLines s l.comp).map ckptLine, teams := saves
    pages := writtenPages s l, packet := l.packet }

/-- The destination of a CKPT: its address and length. -/
def ckptDest (q : Request) : Nat := bytesNat ((q.body.drop 8).take 8)
def ckptRoom (q : Request) : Nat := bytesNat ((q.body.drop 16).take 8)

/-- R231. Writes a checkpoint at the boundary: the manifest at the destination's start, and below the objects that stand at
its end those that are not held there yet. RES0 is the manifest's length; a checkpoint without room is answered
NOSPACE (assumption 58). -/
def takeCkpt (s : State) (l : Launch) (saves : List Saved) (q : Request) : State :=
  let dest := ckptDest q
  let room := ckptRoom q
  let man := manifestBytes (ckptOf s l saves)
  let area := (man.length + 4095) / 4096 * 4096
  let wr (at_ : Nat) (b : List Byte) (s : State) : State :=
    match tablePieces s l.comp true [kAtomic] (cutRange at_ b.length) with
    | some ps => writePieces l.comp l.lid ps b s
    | none => s
  match readTable s l.comp (dest + area) (room - area), tablePieces s l.comp true [kAtomic] (cutRange dest room) with
  | some old, some _ =>
    let (held, used) := objsAt old.length old
    let new := (newObjs held ((liveLines s l.comp).flatMap fun e => lineObjs e.1 e.2)).flatMap objBytes
    if room < area + used + new.length then respond s q 0x14 0 0 []
    else respond (wr (dest + room - used - new.length) new (wr dest man s)) q 0 0 man.length []
  | _, _ => respond s q 0x14 0 0 []

/-- The checkpoints asked of a launch. -/
def ckptsAsked (s : State) (lid : Nat) : List Request := s.ho.waiting.filter fun q => q.code == 0x0A && reqLid q == lid

/-- R136. Whether the destinations of the checkpoints asked of a launch can be read and written now. -/
def ckptsReady (s : State) (l : Launch) : Bool :=
  (ckptsAsked s l.lid).all fun q => match readable s l.comp (ckptDest q) (ckptRoom q) with
    | some ps => (touchPieces (drainLaunch s l.lid 1) ps).isSome
    | none => true

/-- R136. The drains that the checkpoints bring about. -/
def ckptTouch (s : State) (l : Launch) (q : Request) : State :=
  match readable s l.comp (ckptDest q) (ckptRoom q) with
  | some ps => (touchPieces s ps).getD s
  | none => s

/-- The checkpoints asked of a launch are taken. -/
def takeCkpts (s : State) (lid : Nat) (saves : List Saved) : State :=
  let qs := ckptsAsked s lid
  let s := { s with ho := { s.ho with waiting := s.ho.waiting.filter fun q => !(q.code == 0x0A && reqLid q == lid) } }
  match tget s.tm.launches lid with
  | none => s
  | some l => qs.foldl (fun t q => takeCkpt (ckptTouch t l q) l saves q) s

end Sys2Proof.Machine
end

