-- ==== Sys2Proof/Machine/Steps.lean ====
section
/-! DEFINITION. Steps and their undoing (R227 to R230), and the failure and substitution of cores (R18, R19). -/

namespace Sys2Proof.Machine

/-! ### The boundary (R227, R410) -/

/-- Whether nothing that a context's counters count is outstanding. -/
def pendZero (p : Pend) : Bool := p.ctx == 0 && p.core == 0 && p.clu == 0 && p.die == 0 && p.pkg == 0 && p.sys == 0

/-- R410. Whether a member stands at the boundary: arrived, or exited. -/
def memberAt (x : Ctx) : Bool := x.run == .exited || (x.atStep && pendZero x.pend)

/-- R227. Whether every task of a launch has arrived. -/
def stepReady (s : State) (l : Launch) : Bool :=
  let ms := (boardsOf s l.lid).flatMap fun e => membersOf e.1 e.2
  let away := (s.tm.swaps.filter fun v => v.lid == l.lid).flatMap (·.ctxs)
  mayRun l && decide (l.nteams ≤ l.nextTeam) && l.skipped.isEmpty && !s.tm.placing.any (fun e => bLid e.2 == l.lid) &&
    !s.tm.reserved.any (fun r => r.lid == l.lid) && ms.all (fun c => memberAt (s.ctx c) && !stepBusy s c) && away.all (fun e => memberAt e.2) &&
    (ms.any (fun c => (s.ctx c).atStep) || away.any fun e => e.2.atStep)

/-- R410. The boundary is complete for a member that waits at it. -/
def passStep (x : Ctx) : Ctx := if x.atStep then { x with atStep := false, stepped := true } else x

/-- R227. A member as the step area holds it: stopped in its `stepb`, which has been completed. -/
def stepCtx (cycle : Nat) (x : Ctx) : Ctx :=
  let y := passStep x
  if y.run = .running then
    { saveCtx y with
      run := .preempted, psnap := some (capture y cycle), flights := [], replay := [], blocked := .none, clusterAt := none, early := none
      walked := [], sent := false, answer := none, preempt := false }
  else saveCtx y

/-- R227. The step areas of a launch's teams, resident and swapped out. -/
def stepSaves (s : State) (lid : Nat) : List Saved :=
  let here := (boardsOf s lid).map fun e =>
    let b := e.2 &&& ~~~((1 : BitVec 512) <<< 62)
    { captureTeam s e.1 b with ctxs := (membersOf e.1 b).map fun c => (c, stepCtx s.cycle (s.ctx c)) }
  let away := (s.tm.swaps.filter fun v => v.lid == lid).map fun (v : Saved) =>
    { v.settle s with ctxs := v.ctxs.map fun (e : Nat × Ctx) => (e.1, passStep e.2) }
  here ++ away

/-- R227, R224. A STEP record in each die's log; what the logs hold is marked. -/
def stepLogs (s : State) (lid n : Nat) : State :=
  let dies := (s.tm.logs.filter fun g => g.lid == lid).map (·.die)
  let site : W64 := BitVec.ofNat 64 n
  let s := dies.foldl (fun t d => logEvent t lid d 0x06 site []) s
  { s with tm := { s.tm with logs := s.tm.logs.map fun (g : Log) =>
    if g.lid = lid then { g with markRecs := g.recs, markReplay := g.replay } else g } }

/-- R227, R229. What the abandonment of the step that begins will need: the name set of each line that the launch has
written among it. -/
def stepMarks (s : State) (lid : Nat) : State :=
  let mine := s.tm.setts.filter fun e => e.2.lid == lid
  let moving := s.tm.transits.filter fun t => t.lid == lid
  let s := { s with ms := { s.ms with lines := s.ms.lines.map fun (e : Nat × Line) =>
    (e.1, { e.2 with
      written := sdel lid e.2.written
      startNames := if e.2.written.contains lid ∨ (tget e.2.startNames lid).isSome
        then tput lid (e.2.names.map fun (n : NameEnt) => n.name) e.2.startNames else e.2.startNames }) } }
  s.modLaunch lid fun l => { l with
    journal := [], armed := true, noUndo := false, markSetts := mine, markTransits := moving
    markResidual := l.residual, markEnd := l.endCode }

/-- R227. Every member that waits at the boundary goes on. -/
def passAll (s : State) (lid : Nat) : State :=
  let s := ((boardsOf s lid).flatMap fun e => membersOf e.1 e.2).foldl (fun t c => t.modCtx c passStep) s
  { s with tm := { s.tm with swaps := s.tm.swaps.map fun (v : Saved) =>
    if v.lid = lid then { v with ctxs := v.ctxs.map fun (e : Nat × Ctx) => (e.1, passStep e.2) } else v } }

/-- R227, R410. Zitrum performs the actions of a step boundary. -/
def boundary (s : State) (l : Launch) : State :=
  let s := drainLaunch s l.lid 1
  let s := s.modLaunch l.lid fun l => { l with steps := l.steps + 1, abandons := 0 }
  let saves := stepSaves s l.lid
  let s := takeCkpts s l.lid saves
  let s := if modeDet l.mode then
      let s := stepMarks (stepLogs s l.lid (l.steps + 1)) l.lid
      { s with tm := { s.tm with stepAreas := (s.tm.stepAreas.filter fun v => v.lid != l.lid) ++ saves } }
    else s
  passAll s l.lid

/-- The meaning of STEP_BOUNDARY, for the launch that the event names. -/
def execStepBoundary (s : State) : Host.Outcome State Fault Refusal :=
  .next (match tget s.tm.launches s.ev.a with
    | some l => if stepReady s l then boundary s l else s
    | none => s)

/-! ### Abandonment (R228, R229) -/

/-- R229. Every task of a launch stops, without TEAMDOWN. -/
def stopTasks (s : State) (lid why : Nat) : State :=
  match tget s.tm.launches lid with
  | none => s
  | some l =>
    if ¬ mayRun l ∨ ¬ modeDet l.mode then s
    else
      let s := stopPlacing (s.modLaunch lid fun l => { l with aband := some why }) lid
      ((boardsOf s lid).flatMap fun e => membersOf e.1 e.2).foldl (fun t c =>
        if (t.ctx c).run = .running ∨ (t.ctx c).run = .preempted then
          (withdraw (stopCall t c) c).modCtx c fun x =>
            { unhold x with run := .preempted, flights := [], replay := [], preempt := false, reissue := none }
        else t) s

/-- R229, R228. Whether everything of a launch whose tasks have stopped is at rest; after LINKLOST, whether the session of
every link of the launch is up again. -/
def abandReady (s : State) (l : Launch) (why : Nat) : Bool :=
  let ms := (boardsOf s l.lid).flatMap fun e => membersOf e.1 e.2
  l.aband == some why && ms.all (fun c => (s.ctx c).run != .running) &&
    !s.cr.calls.any (fun e => ms.contains e.2.ctx) && !s.ms.accs.any (fun a => ms.contains a.ctx) &&
    !s.ms.arrivals.any (fun a => ms.contains a.ctx) &&
    !s.en.writes.any (fun w => w.lid == l.lid) && s.en.cmds.all (fun k => k.lid != l.lid || s.en.statusWaits.any fun w => w.cmd == k.id) &&
    (why != 0x09 || l.links.all fun p => ((tget s.en.sessions p).map (·.up)).getD false)

/-- R111, R229. A line without what a step recorded on it. -/
def undoLine (names : List Nat) (l : Line) : Line :=
  { l with
    chain := l.chain.filter fun p => names.contains p.name
    sidings := (l.sidings.map fun (e : Nat × List Patch) => (e.1, e.2.filter fun p => names.contains p.name)).filter
      fun e => !e.2.isEmpty
    names := l.names.filter fun e => names.contains e.name }

/-- R229. The lines as they stood when the step began. -/
def undoLines (s : State) (lid : Nat) (ms : List Nat) : State :=
  { s with ms := { s.ms with lines := s.ms.lines.map fun (e : Nat × Line) =>
    let l := { e.2 with opens := e.2.opens.filter fun o => !ms.contains o.ctx }
    (e.1, match tget l.startNames lid with
      | some names => if l.written.contains lid then { undoLine names l with written := sdel lid l.written } else l
      | none => l) } }

/-- R229. The journalled pages are copied back. -/
def undoPages (s : State) (pages : Tab (List Byte)) : State :=
  pages.foldl (fun t e =>
    if portFailed t (e.1 * 4096) then t
    else { t with ms := { t.ms with
      mem := wrBytes (e.1 * 4096) e.2 t.ms.mem, failMem := t.ms.failMem.filter fun w => w / 1024 != e.1 } }) s

/-- The teams of a launch leave their Boards with nothing of them kept. -/
def dropTeams (s : State) (lid : Nat) : State :=
  let s := (boardsOf s lid).foldl (fun t e =>
    dropCrews (writeSlot ((membersOf e.1 e.2).foldl freeBanks t) e.1 0) e.1) s
  let s := (s.tm.swaps.filter fun v => v.lid == lid).foldl dropSaved s
  let cmds := (s.en.cmds.filter fun k => k.lid == lid).map (·.id)
  { s with
    en := { s.en with cmds := s.en.cmds.filter fun k => k.lid != lid
                      writes := s.en.writes.filter fun w => w.lid != lid
                      statusWaits := s.en.statusWaits.filter fun w => !cmds.contains w.cmd }
    ms := { s.ms with holds := s.ms.holds.filter fun e => e.2.lid != lid }
    tm := { s.tm with swaps := s.tm.swaps.filter fun v => v.lid != lid, settOps := s.tm.settOps.filter fun o => o.lid != lid } }

/-- R229. The launch stands at the boundary again: its logs, its Setts and its teams. -/
def restart (s : State) (l : Launch) (n : Nat) : State :=
  let areas := s.tm.stepAreas.filter fun v => v.lid == l.lid
  let back : List Waiting := if l.steps = 0 then [] else areas.map fun (v : Saved) =>
    { lid := l.lid, team := v.team, since := s.tt.periods }
  let setts := if modeGain l.mode then (s.tm.setts.filter fun e => e.2.lid != l.lid) ++ l.markSetts else s.tm.setts
  let s := { s with tm := { s.tm with
    logs := s.tm.logs.map fun (g : Log) => if g.lid = l.lid then { g with recs := g.markRecs, replay := g.markReplay } else g
    setts := setts
    transits := (s.tm.transits.filter fun (t : Transit) => t.lid != l.lid) ++ l.markTransits
    swaps := s.tm.swaps ++ (if l.steps = 0 then [] else areas)
    waiting := s.tm.waiting ++ back } }
  s.modLaunch l.lid fun l =>
    let l := { l with journal := [], aband := none, abandons := n, residual := l.markResidual, endCode := l.markEnd }
    if l.steps = 0 then { l with nextTeam := 0, skipped := [], tdone := 0, cmap := [] }
    else { l with tdone := l.nteams - (areas.filter fun v => v.ctxs.any fun e => e.2.run != .exited).length }

/-- R438. ABANDON requests for a launch are answered. -/
def answerAbandon (s : State) (lid : Nat) : State :=
  let mine (q : Request) : Bool := q.code == 0x0B && reqLid q == lid
  let qs := s.ho.waiting.filter mine
  let s := { s with ho := { s.ho with waiting := s.ho.waiting.filter fun q => !mine q } }
  qs.foldl (fun t q => respond t q 0 0 0 []) s

/-- R228. The launch ends, where the step cannot be undone, or has been abandoned for the eighth time. -/
def abandonEnds (s : State) (lid why : Nat) : State :=
  let end_ : Ending := if why = 0x18 then { status := 6, cause := 0x18 } else { status := 7, sub := 0x11 }
  let s := s.modLaunch lid fun l => { l with ending := l.ending <|> some end_ }
  teamEnd s { a := lid, d := 1 }

/-- R18. The absent cores that no spare of their die is left for: the lowest are replaced first. -/
def hopeless (s : State) : List Nat :=
  s.cr.absent.filter fun core =>
    decide (8 ≤ (tget s.cr.spares (core / 144)).getD 0 + (s.cr.absent.filter fun k => k / 144 == core / 144 && decide (k < core)).length)

/-- R177, R181. Of the teams of a launch that have not completed, one for each way in which its teams lie on their cores: the
same for all but in a deterministic mode, where it is the team's slot in its logical cluster that says it. -/
def teamShapes (s : State) (l : Launch) : List Nat :=
  if modeDet l.mode then
    let slots := 64 / max 1 l.teamsz
    let open_ := (List.range (min (l.lclust * slots) (l.nteams - l.nextTeam))).map (· + l.nextTeam) ++ l.skipped ++
      ((occupied s).filter fun e => bLid e.2 == l.lid).map (fun e => bTeam e.2) ++
      (s.tm.swaps.filter fun v => v.lid == l.lid).map (·.team)
    (open_.map fun n => n / max 1 l.lclust % slots).eraseDups.map (· * l.lclust)
  else [0]

/-- R177, R174. Whether a launch has lost, to cores that stay absent, the last cluster that could hold one of its teams: of
all clusters, or of those of its dies in a gain mode; a swapped-out team that is not deterministic, its own. -/
def homeless (s : State) (l : Launch) : Bool :=
  let teams := teamShapes s l
  let s := { s with cr := { s.cr with absent := hopeless s } }
  let cls := (List.range 144).filter fun cl =>
    !modeGain l.mode || (decide (l.sdie0 ≤ clusterDie cl) && decide (clusterDie cl < l.sdie0 + l.sdies))
  teams.any (fun n => cls.all fun cl => (fitTeam s [] cl l n).isNone) ||
    (!modeDet l.mode && s.tm.swaps.any fun v => v.lid == l.lid &&
      (List.range 16).any fun k => teamOn v.word k && s.cr.absent.contains (v.key / 64 * 16 + k))

/-- R177. Zitrum ends each launch that has lost the last cluster of a team: after a core failure, and where a step is
restarted. -/
def endHomeless (s : State) : State :=
  (s.tm.launches.filter fun e => mayRun e.2 && homeless s e.2).foldl
    (fun t e => t.after t.cycle false .teamEnd { a := e.1, c := 3, d := 2 }) s

/-- R229, R230. A step is abandoned. -/
def abandon (s : State) (l : Launch) (why : Nat) : State :=
  let n := l.abandons + 1
  let s := postNotice s 2 l.lid l.steps
  if 8 ≤ n ∨ l.noUndo then abandonEnds s l.lid why
  else
    let ms := (boardsOf s l.lid).flatMap fun e => membersOf e.1 e.2
    let away := (s.tm.swaps.filter fun v => v.lid == l.lid).flatMap fun v => v.ctxs.map fun e => awayKey v.lid v.team e.1
    let s := undoPages (undoLines s l.lid (ms ++ away)) l.journal
    endHomeless (placementRun (answerAbandon (restart (dropTeams s l.lid) l n) l.lid))

/-- The meaning of STEP_ABANDON: the launch, the reason, and 1 to stop its tasks, once a Zitrum runs (R234), or 2 to undo the
step. -/
def execStepAbandon (s : State) : Host.Outcome State Fault Refusal :=
  let e := s.ev
  .next (if e.c = 1 then (if s.rt.zitrum then stopTasks s e.a e.b else s.after (s.cycle + 1) false .stepAbandon e)
    else match tget s.tm.launches e.a with
      | some l => if abandReady s l e.b then abandon s l e.b else s
      | none => s)

/-! ### Cores (R18, R19, R177) -/

/-- R19. A launch with a team on a core that has failed. -/
def teamLoses (core : Nat) (s : State) (e : Nat × BitVec 512) : State :=
  let mine := (membersOf e.1 e.2).filter fun c => coreOf c == core
  let lid := bLid e.2
  if modeDet (bMode e.2) then
    (mine.foldl (fun t c => t.modCtx c fun x =>
      let y := unhold x
      { y with run := if ctxDone x then x.run else .preempted }) s).askAbandon lid 0x18
  else
    let s := mine.foldl (fun t c => if ctxDone (t.ctx c) then t else endContext t c .stopped) s
    let end_ : Ending := { status := 6, cause := 0x18, fteam := bTeam e.2, finfo := BitVec.ofNat 64 core }
    let s := s.modLaunch lid fun l => { l with ending := l.ending <|> some end_ }
    s.after s.cycle false .teamEnd { a := lid, b := s.rank ((mine.head?).getD 0), c := 0x18 }

/-- Teams by number, so that the first of a launch has its lowest ranks. -/
def byTeam (e : Nat × BitVec 512) : List (Nat × BitVec 512) → List (Nat × BitVec 512)
  | [] => [e]
  | a :: t => if bTeam a.2 < bTeam e.2 then a :: byTeam e t else e :: a :: t

/-- R18, R19. A core fails: its contexts, windows and banks are lost, it is absent, and no team is placed on it. -/
def failCore (s : State) (core : Nat) : State :=
  let here := (s.tm.boards.filter fun e => bV e.2 && e.1 / 64 == core / 16 && teamOn e.2 (core % 16)).foldr byTeam []
  let s := { s with
    cr := { s.cr with
      absent := sins core s.cr.absent
      calls := tdel core s.cr.calls
      banks := s.cr.banks.filter fun e => e.1 / 256 != core }
    ms := { s.ms with
      spad := memDrop (core * 2 ^ 21) (2 ^ 21) s.ms.spad
      full := s.ms.full.filter fun w => w / 2 ^ 19 != core } }
  endHomeless (here.foldl (teamLoses core) (unplace s core))

/-- The meaning of CORE_FAILURE, for the core that the event names. -/
def execCoreFailure (s : State) : Host.Outcome State Fault Refusal := .next (failCore s s.ev.a)

/-- R18. Whether a core can be replaced now: no team is bound to its cluster, and a spare of its die remains. -/
def canSubstitute (s : State) (core : Nat) : Bool :=
  decide ((tget s.cr.spares (core / 144)).getD 0 < 8) && (occIn (occupied s) (core / 16)).isEmpty

/-- R18. A spare takes a core's place. -/
def substitute (s : State) (core : Nat) : State :=
  if ¬ canSubstitute s core then s
  else { s with
    cr := { s.cr with
      absent := sdel core s.cr.absent
      spares := tput (core / 144) ((tget s.cr.spares (core / 144)).getD 0 + 1) s.cr.spares
      failBundle := s.cr.failBundle.filter fun b => b / 4096 != core
      failAcc := s.cr.failAcc.filter fun k => k / (64 * 1024) != core }
    ms := { s.ms with
      spad := memDrop (core * 2 ^ 21) (2 ^ 21) s.ms.spad
      full := s.ms.full.filter fun w => w / 2 ^ 19 != core
      failSpad := s.ms.failSpad.filter fun w => w / 2 ^ 19 != core } }

/-- The meaning of CORE_SUBSTITUTE, for the core that the event names. -/
def execCoreSubstitute (s : State) : Host.Outcome State Fault Refusal := .next (substitute s s.ev.a)

end Sys2Proof.Machine
end

