-- ==== Sys2Proof/Machine/Tables.lean ====
section
/-! DEFINITION. Page tables as Zitrum writes them (R81 to R84, R92, R93, R121, R122, R202): descriptors, new pages,
invalidation, demand mapping, and producers of dropped lines. -/

namespace Sys2Proof.Machine

/-! ### Memory that Zitrum hands out -/

/-- Clears bytes of HBM or the second tier (R202): words that failed are good again, but for a failed port. -/
def zeroMem (s : State) (a n : Nat) : State :=
  if portFailed s a then s
  else { s with ms := { s.ms with
    mem := memDrop a n s.ms.mem, failMem := s.ms.failMem.filter fun w => decide (w * 4 < a) || decide (a + n ≤ w * 4) } }

/-- The key and the size of a stack or port, and its first address. -/
def tierKey (tier2 : Bool) (n : Nat) : Nat := if tier2 then 16 + n else n
def tierSize (tier2 : Bool) : Nat := if tier2 then 2 ^ 40 else 2 ^ 36
def tierBase (tier2 : Bool) (n : Nat) : Nat := if tier2 then 2 ^ 44 + n * 2 ^ 40 else n * 2 ^ 36

/-- The tables that stand at the top of stack 0, downward. -/
def tableCount (s : State) : Nat := (tget s.tt.freePages 32).getD 0

/-- R93. Adds released memory to a rising list of ranges, joined with its neighbours. -/
def freeInsert (a n : Nat) : List (Nat × Nat) → List (Nat × Nat)
  | [] => [(a, n)]
  | (b, m) :: t =>
    if b + m = a then freeInsert b (m + n) t
    else if a + n = b then (a, n + m) :: t
    else if a + n < b then (a, n) :: (b, m) :: t
    else (b, m) :: freeInsert a n t

/-- Takes aligned memory of some size out of the released ranges between two addresses: its address, and what is left. -/
def freeTake (lo hi size need : Nat) : List (Nat × Nat) → Option (Nat × List (Nat × Nat))
  | [] => none
  | (b, m) :: t =>
    let at_ := (b + size - 1) / size * size
    if lo ≤ b ∧ b < hi ∧ at_ + need ≤ b + m then
      let rest := (if b < at_ then [(b, at_ - b)] else []) ++ (if at_ + need < b + m then [(at_ + need, b + m - (at_ + need))] else [])
      some (at_, rest ++ t)
    else (freeTake lo hi size need t).map fun r => (r.1, (b, m) :: r.2)

/-- R202. Hands out aligned pages of a stack or port, cleared: released ones, or new ones in order. -/
def takePages (s : State) (tier2 : Bool) (n size count : Nat) : Option (Nat × State) :=
  let key := tierKey tier2 n
  let base := tierBase tier2 n
  let at_ := ((tget s.tt.freePages key).getD 0 + size - 1) / size * size
  let limit := if key = 0 then 2 ^ 36 - 8192 * tableCount s else tierSize tier2
  if tier2 ∧ s.ms.failPorts.contains n then none
  else match freeTake base (base + tierSize tier2) size (size * count) s.tt.freed with
    | some (pa, rest) => some (pa, zeroMem { s with tt := { s.tt with freed := rest } } pa (size * count))
    | none =>
      if limit < at_ + size * count then none
      else some (base + at_, zeroMem { s with tt := { s.tt with freePages := tput key (at_ + size * count) s.tt.freePages } }
        (base + at_) (size * count))

/-- Hands out one table of 8 KiB. -/
def takeTable (s : State) : Option (Nat × State) :=
  let k := tableCount s
  let pa := 2 ^ 36 - 8192 * (k + 1)
  if pa < (tget s.tt.freePages 0).getD 0 then none
  else some (pa, zeroMem { s with tt := { s.tt with freePages := tput 32 (k + 1) s.tt.freePages } } pa 8192)

/-! ### Descriptors -/

/-- Writes a descriptor. -/
def putDesc (s : State) (at_ : Nat) (low high : W64) : State :=
  { s with ms := { s.ms with mem := wrBytes at_ (natBytes low.toNat 8 ++ natBytes high.toNat 8) s.ms.mem } }

/-- R81. The level at which a leaf of a size stands. -/
def leafLevel (size : Nat) : Nat :=
  match size with
  | 0 => 4 | 1 => 4 | 2 => 3 | _ => 2

/-- The table of a level on the way to a table address, with the tables that this takes; none where a leaf stands in
the way, or memory is out. -/
def tableFor (ta target : Nat) : Nat → Nat → Nat → State → Option (Nat × State)
  | 0, _, _, _ => none
  | fuel + 1, table, level, s =>
    if level = target then some (table, s)
    else
      let at_ := table + 16 * tblIndex ta level
      let low : W64 := BitVec.ofNat 64 (rdNat s.ms.mem at_ 8)
      if dV low then (if dLeaf low then none else tableFor ta target fuel (dPa low) (level + 1) s)
      else match takeTable s with
        | none => none
        | some (t, s) => tableFor ta target fuel t (level + 1) (putDesc s at_ (BitVec.ofNat 64 (t + 1)) 0)

/-- R83. The descriptors of one page: 16 of a 64 KiB page. Written only where nothing stands. -/
def putLeaf (s : State) (root ta size : Nat) (low high : W64) : Option State :=
  match tableFor ta (leafLevel size) 5 root 0 s with
  | none => none
  | some (t, s) =>
    let first := tblIndex ta (leafLevel size)
    let n := if size = 1 then 16 else 1
    let ats := (List.range n).map fun k => t + 16 * (first + k)
    if ats.any fun a => dV (BitVec.ofNat 64 (rdNat s.ms.mem a 8)) then none
    else some (ats.foldl (fun u a => putDesc u a low high) s)

/-- The leaf at a table address, if it has a size: its table, and its low word. -/
def leafAt (m : Memory) (ta size : Nat) : Nat → Nat → Nat → Option (Nat × W64)
  | 0, _, _ => none
  | fuel + 1, table, level =>
    let at_ := table + 16 * tblIndex ta level
    let low : W64 := BitVec.ofNat 64 (rdNat m at_ 8)
    if ¬ dV low then none
    else if dLeaf low then (if dSize low = size ∧ level = leafLevel size then some (table, low) else none)
    else leafAt m ta size fuel (dPa low) (level + 1)

/-- Removes the descriptors of a page, if a page of the size stands there; its physical address. -/
def dropLeaf (s : State) (root ta size : Nat) : Option (Nat × State) :=
  (leafAt s.ms.mem ta size 5 root 0).map fun t =>
    let first := tblIndex ta (leafLevel size)
    (dPa t.2, (List.range (if size = 1 then 16 else 1)).foldl (fun u k => putDesc u (t.1 + 16 * (first + k)) 0 0) s)

/-- R87. Whether a LINED page at a table address agrees with its line: with the pages that name it, in geometry and region,
and with the line as it stands. -/
def lineAgrees (s : State) (high : W64) (ta : Nat) : Bool :=
  let l := lineAt s (lineKey high)
  let region (a : Nat) : Nat := a / 2 ^ (dXlog high + 1)
  (leavesOf s (dComp high)).all (fun e => dKind e.2.1 != kLined || dLine e.2.2 != dLine high ||
      (e.2.2 == high && region e.1 == region ta)) &&
    (l.st == .vacant || (l.fmt == dFmt high && l.xlog == dXlog high && l.cols8 == dCols8 high))

/-- R95. A line that pages name exists from then on. -/
def bearLine (s : State) (high : W64) : State :=
  let key := lineKey high
  let l := lineAt s key
  if (s.line key).isSome ∧ l.st ≠ .vacant then s
  else s.setLine key { l with
    fmt := dFmt high, xlog := dXlog high, cols8 := dCols8 high
    home := if (s.line key).isSome then l.home else dLine high % 64 }

/-- Maps pages, one after another. -/
def mapPages (root size bytes : Nat) (low high : W64) : Nat → Nat → Nat → State → Option State
  | 0, _, _, s => some s
  | n + 1, ta, pa, s =>
    match putLeaf s root ta size (low ||| BitVec.ofNat 64 pa) high with
    | none => none
    | some s => mapPages root size bytes low high n (ta + bytes) (pa + bytes) s

/-- Removes pages: the memory of those that stood there. -/
def unmapPages (root size bytes : Nat) : Nat → Nat → List (Nat × Nat) × State → List (Nat × Nat) × State
  | 0, _, r => r
  | n + 1, ta, (l, s) => match dropLeaf s root ta size with
    | some (pa, u) => unmapPages root size bytes n (ta + bytes) (l ++ [(pa, bytes)], u)
    | none => unmapPages root size bytes n (ta + bytes) (l, s)

/-! ### Invalidation (R93) -/

/-- R93. An invalidation of a compartment begins: buffers drop its entries, and what waits on a translation of it, or has
not yet used it, translates anew. At its end, memory is released. -/
def invalidate (s : State) (comp : Nat) (pages : List (Nat × Nat)) : State :=
  let i : Invalidation := { comp := comp, upto := s.nextId, pages := pages }
  { s with
    ms := { s.ms with tlb := s.ms.tlb.filter fun t => t.comp != comp, invals := s.ms.invals ++ [i] }
    ctxs := s.ctxs.map fun (e : Nat × Ctx) => (e.1, { e.2 with walked := e.2.walked.filter fun w => w.1 != comp })
    en := { s.en with cmds := s.en.cmds.map fun (k : Cmd) => { k with walked := k.walked.filter fun w => w.1 != comp } } }

/-- The compartment of a launch. -/
def lidComp (s : State) (lid : Nat) : Nat := ((tget s.tm.launches lid).map (·.comp)).getD 0

/-- R93, R409. Whether every access that translated before an invalidation has been performed; a packet that a context has
posted is read when its validation begins, and a host access that has been accepted comes first (assumption 132). -/
def invalDone (s : State) (i : Invalidation) : Bool :=
  s.ms.accs.all (fun a => lidComp s a.lid != i.comp || decide (i.upto ≤ a.id)) &&
    s.en.writes.all (fun w => lidComp s w.lid != i.comp || decide (i.upto ≤ w.id)) &&
    s.ho.requests.all (fun q => q.blocks.isEmpty || q.own != some i.comp || decide (i.upto ≤ q.num)) && !windowsBusy s i.comp

/-- R93, R201, R203. Memory of a compartment is released: a window reaches it no more. -/
def releasePages (s : State) (comp : Nat) (pages : List (Nat × Nat)) : State :=
  let n := pages.foldl (fun n p => n + p.2 / 4096) 0
  let comps := match tget s.tt.comps comp with
    | some k => tput comp { k with pages := k.pages - n } s.tt.comps
    | none => s.tt.comps
  { s with
    tt := { s.tt with comps := comps, freed := pages.foldl (fun l p => freeInsert p.1 p.2 l) s.tt.freed }
    ho := { s.ho with winPages := unshare pages s.ho.winPages } }

/-- R93, R438. An invalidation completes: the memory of the pages that it removed is released, and the UNMAP that began it
is answered. -/
def endInval (s : State) (comp : Nat) : State :=
  match s.ms.invals.find? fun i => i.comp == comp with
  | none => s
  | some i =>
    if ¬ invalDone s i then s
    else
      let s := releasePages { s with ms := { s.ms with invals := s.ms.invals.erase i } } comp i.pages
      match s.ho.waiting.find? fun q => q.code == 6 && q.own == some comp with
      | none => s
      | some q => respond { s with ho := { s.ho with waiting := s.ho.waiting.erase q } } q 0 0 0 []

/-- The meaning of COMPARTMENT_INVALIDATION, for the compartment that the event names. -/
def execCompartmentInvalidation (s : State) : Host.Outcome State Fault Refusal := .next (endInval s s.ev.a)

/-! ### Demand mapping (R92) -/

/-- R92. Whoever waits for a page of a range of a compartment's table addresses translates it anew. -/
def wakeDemand (s : State) (comp ta bytes : Nat) : State :=
  let inside (page : Nat) : Bool := decide (ta / 4096 ≤ page) && decide (page * 4096 < ta + bytes)
  let hit (d : Nat × Nat × Nat) : Bool := d.2.1 == comp && inside d.2.2
  let fresh (l : List (Nat × Nat × WalkAns)) : List (Nat × Nat × WalkAns) := l.filter fun w => !(w.1 == comp && inside w.2.1)
  let s := (s.ms.demand.filter hit).foldl (fun u d =>
    if d.1 < 2 ^ 20 then u.modCtx d.1 fun x => { x with walked := fresh x.walked }
    else modCmd u (d.1 - 2 ^ 20) fun k => { k with walked := fresh k.walked }) s
  { s with ms := { s.ms with demand := s.ms.demand.filter fun d => !hit d } }

/-- R92, R202. The service installs a page with memory of its own, cleared: kind, size, W and the tier as a low word gives
them. None where it cannot. -/
def installPage (s : State) (comp ta : Nat) (low high : W64) : Option State :=
  let bytes := 2 ^ sizeLog (dSize low)
  let tier2 := decide (2 ^ 44 ≤ dPa low)
  let n := if tier2 then fld (dPa low) 43 40 else fld (dPa low) 39 36
  match tget s.tt.comps comp with
  | none => none
  | some k =>
    if ¬ dV low ∨ ¬ dLeaf low ∨ dComp high ≠ comp ∨ quotaPages s comp < pagesUsed s comp + bytes / 4096 ∨
        (dKind low = kLined ∧ ¬ lineAgrees s high ta) then none
    else match takePages s tier2 n bytes 1 with
      | none => none
      | some (pa, t) =>
        let word : W64 := BitVec.ofNat 64 (low.toNat - fld low.toNat 44 12 * 4096 + pa)
        if badDesc word high (leafLevel (dSize low)) then none
        else (putLeaf t k.root ta (dSize low) word high).map fun t =>
          let t := if dKind low = kLined then bearLine t high else t
          { t with tt := { t.tt with comps := tput comp { k with pages := k.pages + bytes / 4096 } t.tt.comps } }

/-- R92. The service declines a page to one that waits for it: its fault stands. -/
def declineDemand (s : State) (who comp page : Nat) : State :=
  let s := { s with ms := { s.ms with demand := s.ms.demand.filter fun d => d != (who, comp, page) } }
  if who < 2 ^ 20 then s.modCtx who fun x => { x with walked :=
    (x.walked.filter fun w => !(w.1 == comp && w.2.1 == page)) ++ [(comp, page, match walkTables s comp (page * 4096) with
      | .fault sub _ => .fault sub true
      | .desc l h n => .desc l h n)] }
  else modCmd s (who - 2 ^ 20) fun k => { k with declined := sins page k.declined }

/-- R92, R234. A PAGE fault with the service is decided: a descriptor is installed, or the fault stands. While no Zitrum
runs, it waits; a page that another decision has mapped meanwhile needs none. -/
def demandService (s : State) (e : EvArg) : State :=
  let low : W64 := BitVec.ofNat 64 (bytesNat (e.body.take 8))
  let high : W64 := BitVec.ofNat 64 (bytesNat ((e.body.drop 8).take 8))
  let bytes := 2 ^ sizeLog (dSize low)
  let ta := e.c * 4096 / bytes * bytes
  if ¬ s.rt.zitrum then s.after (s.cycle + 1) false .demandMapService e
  else if ¬ s.ms.demand.contains (e.a, e.b, e.c) then s
  else match walkTables s e.b (e.c * 4096) with
    | .desc _ _ _ => wakeDemand s e.b (e.c * 4096) 4096
    | .fault _ _ =>
      match (if e.d = 1 then installPage s e.b ta low high else none) with
      | some t => wakeDemand t e.b ta bytes
      | none => declineDemand s e.a e.b e.c

/-- The meaning of DEMAND_MAP_SERVICE: who waits, the compartment, the page, whether it is installed, and the
descriptor, of whose address only the stack or port counts. The service's policy is Zitrum's own. -/
def execDemandMapService (s : State) : Host.Outcome State Fault Refusal := .next (demandService s s.ev)

/-! ### Producers (R121, R122, R167) -/

/-- R122, R167. The Stationmaster launches the producer of a dropped line: the packet at its handle joins the queue. -/
def launchProducer (s : State) (key : Nat) : State :=
  if ¬ s.rt.zitrum then s.after (s.cycle + 1) false .producerLaunch { a := key }
  else match s.line key with
    | none => s
    | some l => match l.producer with
      | none => producerEnds s key false
      | some h =>
        let comp := key / 2 ^ 24
        let block (k : Nat) : Option Nat := match walkTables s comp ((h.toNat + 64 * k) % 2 ^ 56) with
          | .desc low _ _ => some (leafPa low ((h.toNat + 64 * k) % 2 ^ 56))
          | .fault _ _ => none
        let q : Request :=
          { route := .producer key, code := 1, ticket := 0, len := 0, body := [], own := some comp
            blocks := (List.range 19).map block, taken := true }
        { s with ho := { s.ho with requests := s.ho.requests ++ [q] } }

/-- The meaning of PRODUCER_LAUNCH, for the line that the event names. -/
def execProducerLaunch (s : State) : Host.Outcome State Fault Refusal := .next (launchProducer s s.ev.a)

/-- R122. The producer of a line has ended: held reads are performed against the new chain, or raise RECOMPUTE. -/
def endProducer (s : State) (key : Nat) (ok : Bool) : State :=
  match s.line key with
  | none => s
  | some l =>
    let good := ok && l.st == .live
    let s := s.setLine key { l with making := none, waiters := [] }
    if good then s
    else l.waiters.foldl (fun t n =>
      if n < 2 ^ 20 then t.modCtx n fun x => { x with unmade := sins key x.unmade }
      else modCmd t (n - 2 ^ 20) fun k => { k with recomp := true }) s

/-- The meaning of PRODUCER_COMPLETE: the line, and 1 for a producer that has completed. -/
def execProducerComplete (s : State) : Host.Outcome State Fault Refusal := .next (endProducer s s.ev.a (s.ev.b == 1))

end Sys2Proof.Machine
end

