-- ==== Sys2Proof/Machine/Requests.lean ====
section
/-! DEFINITION. Requests (R436 to R439, R444, R203, R205, R231): slots, what Zitrum takes and answers, and each
request but STAGE. -/

namespace Sys2Proof.Machine

/-! ### Slots (R436, R437) -/

/-- A slot with another STATE. -/
def withState (h : HostSlot) (v : Nat) : HostSlot :=
  let w0 := (slotHdr h 0).toNat
  { h with hdr := BitVec.ofNat 64 (v % 256 * 2 ^ 56 + w0 % 2 ^ 56) :: h.hdr.drop 1 }

/-- A slot's request that Zitrum has not taken is withdrawn. -/
def withdrawSlot (s : State) (n : Nat) : State :=
  { s with ho := { s.ho with requests := s.ho.requests.filter fun q => !(decide (q.route = .host n) && !q.taken) } }

/-- R437. A host write of STATE to a slot. -/
def writeState (s : State) (n v : Nat) : State :=
  let h := hostSlot s n
  let st := slotState h
  if v = 1 then
    if st = 0 ∨ st = 3 then
      let q : Request := { route := .host n, code := 0, ticket := 0, len := 0, body := [] }
      let s := setSlot s n (withState h 1)
      { s with ho := { s.ho with requests := s.ho.requests ++ [q] } }
    else s
  else if v = 0 then
    if st = 1 then setSlot (withdrawSlot s n) n (withState h 0)
    else if st = 3 then setSlot s n (withState h 0)
    else s
  else if st = 2 then s
  else
    let w0 := (slotHdr h 0).toNat
    let done := hdrWord 3 (fld w0 55 48) 0x10 1 (fld w0 31 0)
    sendMsix (setSlot (withdrawSlot s n) n { h with hdr := done :: h.hdr.drop 1 }) 0

/-- The meaning of SLOT_POST, for the slot that the event names. -/
def execSlotPost (s : State) : Host.Outcome State Fault Refusal := .next (writeState s (s.ev.a % 64) 1)

/-- The meaning of SLOT_FREE. -/
def execSlotFree (s : State) : Host.Outcome State Fault Refusal := .next (writeState s (s.ev.a % 64) 0)

/-! ### Taking and checking a request (R437, R438) -/

/-- The code of a request, in its slot until it is taken. -/
def codeOfReq (s : State) (q : Request) : Nat :=
  match q.route with
  | .host n => if q.taken then q.code else fld (slotHdr (hostSlot s n) 0).toNat 55 48
  | .mgmt _ _ => q.code
  | .ctx _ _ => q.code
  | .producer _ => q.code

/-- The first n bytes of a body; those that were never written are 0. -/
def padded (n : Nat) (l : List Byte) : List Byte := (l ++ List.replicate n 0).take n

/-- R437. Zitrum copies a request, and marks its slot as taken. -/
def takeReq (s : State) (q : Request) : Request × State :=
  match q.route with
  | .host n =>
    let h := hostSlot s n
    let w0 := (slotHdr h 0).toNat
    let len := fld (slotHdr h 1).toNat 13 0
    ({ q with code := fld w0 55 48, ticket := fld w0 31 0, len := len, body := padded (min len 16320) h.body, taken := true },
      setSlot s n (withState h 2))
  | .mgmt _ _ => ({ q with body := padded (min q.len 16320) q.body, taken := true }, s)
  | .ctx _ _ => (q, s)
  | .producer _ => (q, s)

/-- Word k of a body. -/
def bodyWord (q : Request) (k : Nat) : Nat := bytesNat ((q.body.drop (8 * k)).take 8)

/-- The bits of a field. -/
def maskOf (hi lo : Nat) : Nat := 2 ^ (hi + 1) - 2 ^ lo

/-- R438. Whether a body has a bit set that is not named: `masks` are the named bits of its first words, and `reads` the
bytes that the request reads. -/
def bodyReserved (q : Request) (masks : List Nat) (reads : Nat) : Bool :=
  (List.range masks.length).any (fun k => bodyWord q k != bodyWord q k &&& masks.getD k 0) ||
    (q.body.drop reads).any fun b => b != 0

/-- R437, R438. The request at the head of the queue, if it has a code: taken, checked, and acted on. -/
def onRequest (code : Nat) (masks : Request → List Nat) (reads : Request → Nat) (f : Request → State → State) (s : State) :
    Host.Outcome State Fault Refusal :=
  .next (match s.ho.requests with
    | [] => s
    | q :: t =>
      if codeOfReq s q ≠ code then s
      else
        let (q, s) := takeReq { s with ho := { s.ho with requests := t } } q
        if 16320 < q.len then respond s q 0x10 5 0 []
        else if q.len < reads q then respond s q 0x10 3 0 []
        else if bodyReserved q (masks q) (reads q) then respond s q 0x10 2 0 []
        else f q s)

/-- A request whose answer comes later. -/
def waitFor (s : State) (q : Request) : State := { s with ho := { s.ho with waiting := s.ho.waiting ++ [q] } }

/-- The meaning of SLOT_BAD_STATE: a slot and the value written; or, with the value 0, the request at the head of the
queue, whose code names no request (R439). -/
def execSlotBadState (s : State) : Host.Outcome State Fault Refusal :=
  .next (if s.ev.b < 2 then
      match s.ho.requests with
      | [] => s
      | q :: t =>
        if 1 ≤ codeOfReq s q ∧ codeOfReq s q ≤ 15 then s
        else
          let (q, s) := takeReq { s with ho := { s.ho with requests := t } } q
          respond s q 0x10 (if 16320 < q.len then 5 else 1) 0 []
    else writeState s (s.ev.a % 64) (s.ev.b % 256))

/-- R196, R444. Whether Zitrum has started: it runs, a hand-over is in progress, or its boot is still to commit. -/
def zitrumStarted (r : Rot) : Bool :=
  r.zitrum || r.hand.isSome || match r.boot with
    | .started _ => true
    | .idle => false
    | .network _ _ => false
    | .hostLink _ => false
    | .hostImage _ => false
    | .verifying _ _ => false
    | .committed => false
    | .waiting => false

/-- R444. A datagram on a management port: header and body. Before Zitrum starts, the ports serve the boot alone. -/
def mgmtArrives (s : State) (port : Nat) (d : List Byte) : State :=
  if ¬ zitrumStarted s.rt then s
  else
    let w0 := bytesNat (d.take 8)
    let q : Request :=
      { route := .mgmt port (fld w0 31 0), code := fld w0 55 48, ticket := fld w0 31 0
        len := fld (bytesNat ((d.drop 8).take 8)) 13 0, body := d.drop 64 }
    { s with ho := { s.ho with requests := s.ho.requests ++ [q] } }

/-- The meaning of MGMT_REQUEST: the port and the datagram. -/
def execMgmtRequest (s : State) : Host.Outcome State Fault Refusal := .next (mgmtArrives s s.ev.a s.ev.body)

/-! ### Launches -/

/-- The meaning of LAUNCH, request 0x01: the packet stands at the head of Zitrum's queue, to be validated next. -/
def execLaunch (s : State) : Host.Outcome State Fault Refusal :=
  match s.ho.requests with
  | [] => .next s
  | q :: _ =>
    if q.taken then .next s
    else onRequest 1 (fun _ => []) (fun q => 192 + 32 * pkNrange q.body)
      (fun q s => { s with ho := { s.ho with requests := q :: s.ho.requests } }) s

/-- R438. Kills a launch: its ending, unless it has one, and the end of its teams. -/
def killLaunch (s : State) (lid sub : Nat) : State :=
  let e : Ending := { status := 7, sub := sub }
  (s.modLaunch lid fun l => { l with ending := l.ending <|> some e }).after s.cycle false .teamEnd { a := lid, d := 1 }

/-- The meaning of KILL, request 0x02. -/
def execKill (s : State) : Host.Outcome State Fault Refusal :=
  onRequest 2 (fun _ => [maskOf 15 0]) (fun _ => 8) (fun q s =>
    if (tget s.tm.launches (reqLid q)).isNone then respond s q 0x13 1 0 []
    else waitFor (killLaunch s (reqLid q) 1) q) s

/-- The meaning of ABANDON, request 0x0B: the step that a deterministic launch is in. -/
def execAbandon (s : State) : Host.Outcome State Fault Refusal :=
  onRequest 0x0B (fun _ => [maskOf 15 0, maskOf 63 0]) (fun _ => 16) (fun q s =>
    match tget s.tm.launches (reqLid q) with
    | some l =>
      if modeDet l.mode ∧ mayRun l ∧ l.steps = bodyWord q 1 then (waitFor s q).askAbandon l.lid 0
      else respond s q 0x13 1 0 []
    | none => respond s q 0x13 1 0 []) s

/-- R438. Whether a number names a compartment that a request may name. -/
def compNamed (c : Nat) : Bool := decide (1 ≤ c ∧ c ≤ 63)

/-- The meaning of CKPT, request 0x0A: answered at the launch's next step boundary. -/
def execCkpt (s : State) : Host.Outcome State Fault Refusal :=
  onRequest 0x0A (fun _ => [maskOf 5 0 + maskOf 31 16, maskOf 63 0, maskOf 63 0]) (fun _ => 24) (fun q s =>
    let comp := bodyWord q 0 % 64
    if ¬ compNamed comp ∨ bodyWord q 1 % 4096 ≠ 0 ∨ 2 ^ 56 ≤ bodyWord q 1 ∨ 2 ^ 56 < bodyWord q 1 + bodyWord q 2 then respond s q 0x10 6 0 []
    else match tget s.tm.launches (reqLid q) with
      | some l => if l.comp = comp ∧ mayRun l then waitFor s q else respond s q 0x13 1 0 []
      | none => respond s q 0x13 1 0 []) s

/-- The meaning of LOGREL, request 0x0C. -/
def execLogrel (s : State) : Host.Outcome State Fault Refusal :=
  onRequest 0x0C (fun _ => [maskOf 5 0 + maskOf 31 16]) (fun _ => 8) (fun q s =>
    let comp := bodyWord q 0 % 64
    let mine (h : HeldLog) : Bool := h.comp == comp && h.lid == reqLid q
    if ¬ compNamed comp then respond s q 0x10 6 0 []
    else if ¬ s.tm.heldLogs.any mine then respond s q 0x13 1 0 []
    else respond { s with tm := { s.tm with heldLogs := s.tm.heldLogs.filter fun h => !mine h } } q 0 0 0 []) s

/-! ### Compartments and pages -/

/-- R201, R202. Creates a compartment. -/
def makeComp (q : Request) (s : State) : State :=
  match (List.range 63).find? fun k => (tget s.tt.comps (k + 1)).isNone, takeTable s with
  | some k, some (root, s) =>
    let c : Comp :=
      { isol := (bodyWord q 0).testBit 0, poolmax := BitVec.ofNat 64 (bodyWord q 1), quota := BitVec.ofNat 64 (bodyWord q 2)
        tag := BitVec.ofNat 256 (bytesNat ((q.body.drop 24).take 32)), kchain := 0, kcount := 0, root := root, pages := 0, pool := 0
        key := s.tt.nextKey }
    respond { s with tt := { s.tt with comps := tput (k + 1) c s.tt.comps, nextKey := s.tt.nextKey + 1 } } q 0 0 (k + 1) []
  | _, _ => respond s q 0x14 0 0 []

/-- The meaning of MKCOMP, request 0x03. -/
def execMkcomp (s : State) : Host.Outcome State Fault Refusal :=
  onRequest 3 (fun _ => [1, maskOf 63 0, maskOf 63 0, maskOf 63 0, maskOf 63 0, maskOf 63 0, maskOf 63 0]) (fun _ => 56)
    makeComp s

/-- R438, R203. Whether a compartment has launches, or a host access to a window of it has been accepted and not yet
performed. -/
def compBusy (s : State) (comp : Nat) : Bool := s.tm.launches.any (fun e => e.2.comp == comp) || windowsBusy s comp

/-- R202, R203, R438. A compartment without launches is gone: its windows, lines, logs and keys. -/
def destroyComp (s : State) (comp : Nat) : State :=
  let s := (s.ho.windows.filter fun e => wComp e.2 == comp).foldl (fun t e => dropWindow t e.1) s
  { s with
    tt := { s.tt with comps := tdel comp s.tt.comps }
    tm := { s.tm with heldLogs := s.tm.heldLogs.filter fun h => h.comp != comp }
    ms := { s.ms with
      lines := s.ms.lines.filter fun e => e.1 / 2 ^ 24 != comp
      tlb := s.ms.tlb.filter fun t => t.comp != comp } }

/-- The meaning of RMCOMP, request 0x04; with 1 in the event, of one that waited for the compartment's launches. -/
def execRmcomp (s : State) : Host.Outcome State Fault Refusal :=
  if s.ev.a = 1 then
    .next (match s.ho.waiting.find? fun q => q.code == 4 && !compBusy s (bodyWord q 0 % 64) with
      | some q => respond (destroyComp { s with ho := { s.ho with waiting := s.ho.waiting.erase q } } (bodyWord q 0 % 64)) q 0 0 0 []
      | none => s)
  else onRequest 4 (fun _ => [maskOf 5 0]) (fun _ => 8) (fun q s =>
    let comp := bodyWord q 0 % 64
    if ¬ compNamed comp then respond s q 0x10 6 0 []
    else if (tget s.tt.comps comp).isNone then respond s q 0x13 1 0 []
    else
      let mine := s.tm.launches.filter fun e => e.2.comp == comp
      if ¬ compBusy s comp then respond (destroyComp s comp) q 0 0 0 []
      else waitFor (mine.foldl (fun t e => killLaunch t e.1 2) s) q) s

/-- The size of a page in bytes. -/
def pageBytes (size : Nat) : Nat := 2 ^ sizeLog size

/-- R438, R87. Maps pages; those of a line agree with its other pages, and lie in its region. -/
def mapRequest (q : Request) (s : State) : State :=
  let high : W64 := BitVec.ofNat 64 (bodyWord q 0)
  let w2 := bodyWord q 2
  let ta := bodyWord q 1
  let count := fld w2 31 0
  let size := fld w2 34 32
  let low : W64 := BitVec.ofNat 64 (3 + (if w2.testBit 37 then 64 else 0) + fld w2 36 35 * 128 + size * 512)
  let bytes := pageBytes size
  let comp := dComp high
  let lineBad := dKind low = kLined ∧ (¬ lineAgrees s high ta ∨ ¬ lineAgrees s high (ta + (count - 1) * bytes) ∨
    ta / 2 ^ (dXlog high + 1) ≠ (ta + (count - 1) * bytes) / 2 ^ (dXlog high + 1))
  if comp = 0 ∨ 4 ≤ size ∨ count = 0 ∨ ta % bytes ≠ 0 ∨ 2 ^ 56 < ta + count * bytes ∨ badDesc low high (leafLevel size) ∨ lineBad then
    respond s q 0x10 6 0 []
  else match tget s.tt.comps comp with
    | none => respond s q 0x13 1 0 []
    | some k =>
      if quotaPages s comp < pagesUsed s comp + count * (bytes / 4096) then respond s q 0x14 0 0 []
      else match takePages s (w2.testBit 38) (fld w2 42 39) bytes count with
        | none => respond s q 0x14 0 0 []
        | some (pa, t) =>
          match mapPages k.root size bytes low high count ta pa t with
          | none => respond s q 0x10 6 0 []
          | some t =>
            let t := if dKind low = kLined then bearLine t high else t
            respond { t with tt := { t.tt with comps := tput comp { k with pages := k.pages + count * (bytes / 4096) } t.tt.comps } }
              q 0 0 pa []

/-- The meaning of MAP, request 0x05. -/
def execMap (s : State) : Host.Outcome State Fault Refusal :=
  onRequest 5 (fun _ => [maskOf 63 8, maskOf 55 0, maskOf 42 0]) (fun _ => 24) mapRequest s

/-- R85. Whether a range of table addresses holds a CODE or CONST page of a compartment of which a team is bound. -/
def pagesKept (s : State) (comp ta bytes : Nat) : Bool :=
  s.tm.boards.any (fun e => bV e.2 && bComp e.2 == comp) && (leavesOf s comp).any fun e =>
    (dKind e.2.1 == kCode || dKind e.2.1 == kConst) && decide (ta < e.1 + pageBytes (dSize e.2.1)) && decide (e.1 < ta + bytes)

/-- R438, R93. Removes pages, and begins the invalidation, after which the answer comes. -/
def unmapNow (q : Request) (s : State) : State :=
  let comp := bodyWord q 0 % 64
  let size := fld (bodyWord q 2) 34 32
  match tget s.tt.comps comp with
  | none => respond s q 0x13 1 0 []
  | some k =>
    let (l, s) := unmapPages k.root size (pageBytes size) (fld (bodyWord q 2) 31 0) (bodyWord q 1) ([], s)
    waitFor (invalidate s comp l) { q with own := some comp }

/-- R85, R438. Whether an UNMAP that waits for the teams of its compartment to be gone may be performed. -/
def unmapWaits (s : State) (q : Request) : Bool :=
  q.code == 6 && q.own.isNone &&
    !pagesKept s (bodyWord q 0 % 64) (bodyWord q 1) (fld (bodyWord q 2) 31 0 * pageBytes (fld (bodyWord q 2) 34 32))

/-- R438. Removes pages: at once, or, where CODE or CONST pages are among them, once no team of the compartment is bound
(R85). -/
def unmapRequest (q : Request) (s : State) : State :=
  let comp := bodyWord q 0 % 64
  let w2 := bodyWord q 2
  let size := fld w2 34 32
  let bytes := pageBytes size
  let ta := bodyWord q 1
  let count := fld w2 31 0
  if ¬ compNamed comp ∨ 4 ≤ size ∨ count = 0 ∨ ta % bytes ≠ 0 ∨ 2 ^ 56 < ta + count * bytes then respond s q 0x10 6 0 []
  else if (tget s.tt.comps comp).isNone then respond s q 0x13 1 0 []
  else if pagesKept s comp ta (count * bytes) then waitFor s q
  else unmapNow q s

/-- The meaning of UNMAP, request 0x06; with 1 in the event, of one that has waited. -/
def execUnmap (s : State) : Host.Outcome State Fault Refusal :=
  if s.ev.a = 1 then
    .next (match s.ho.waiting.find? (unmapWaits s) with
      | some q => unmapNow q { s with ho := { s.ho with waiting := s.ho.waiting.erase q } }
      | none => s)
  else onRequest 6 (fun _ => [maskOf 5 0, maskOf 55 0, maskOf 34 0]) (fun _ => 24) unmapRequest s

/-! ### The Timetable (R205, R207) -/

/-- R207. A control word as it was last written. -/
def ctlWritten (s : State) (die : Nat) : W64 := (tget s.tt.ctlNext die <|> tget s.tt.ctl die).getD (BitVec.ofNat 64 (64 * 2 ^ 32))

/-- R207. PER256 as it was last written. -/
def per256 (s : State) : Nat := fld (ctlWritten s 0).toNat 40 32

/-- The sum of a field of the class blocks over classes and some dies. -/
def sumField (s : State) (dies : List Nat) (hi lo : Nat) : Nat :=
  dies.foldl (fun n d => (List.range 64).foldl (fun n c => n + fld (clsWritten s d c).toNat hi lo) n) 0

/-- R205. The number of the first resource whose limit is broken, HBMB 1 to MXB 5. -/
def limitBroken (s : State) : Option Nat :=
  let all := List.range 16
  let exceeds (sum limit : Nat) : Bool := decide (limit * per256 s < sum * 64)
  if ¬ all.any fun d => !(ctlWritten s d).getLsbD 0 then none
  else if exceeds (sumField s all 55 32) 1048576 then some 1
  else if all.any fun d => exceeds (sumField s [d] 23 0) 262144 then some 2
  else if exceeds (sumField s all 87 64) 1048576 then some 3
  else if (List.range 4).any fun b => exceeds (sumField s [4 * b, 4 * b + 1, 4 * b + 2, 4 * b + 3] 119 96) 143360 then some 4
  else if all.any fun d => exceeds (sumField s [d] 151 128) 2359296 then some 5
  else none

/-- R438. The masks of a BUDGET's body. -/
def budgetMasks (q : Request) : List Nat :=
  let target := fld (bodyWord q 0) 23 16
  if target < 64 then
    [maskOf 23 0, maskOf 63 63 + maskOf 55 32 + maskOf 23 0, maskOf 55 32 + maskOf 23 0, maskOf 23 0, maskOf 1 0]
  else if target = 255 then [maskOf 23 0, maskOf 40 32 + 1] else [maskOf 23 0]

/-- R438. The bytes that a BUDGET reads. -/
def budgetReads (q : Request) : Nat :=
  let target := fld (bodyWord q 0) 23 16
  if target < 64 then 40 else if target = 255 then 16 else 8

/-- R205, R207, R438. Writes class blocks or control words for the next boundary, unless a limit would break. -/
def budgetRequest (q : Request) (s : State) : State :=
  let w0 := bodyWord q 0
  let dies := (List.range 16).filter fun d => w0.testBit d
  let target := fld w0 23 16
  let done (t : State) : State := match limitBroken t with
    | some r => respond s q 0x11 r 0 []
    | none => respond t q 0 0 0 []
  if target < 64 then
    if fld (bodyWord q 1) 55 32 % 4096 ≠ 0 ∨ fld (bodyWord q 2) 23 0 % 64 ≠ 0 then respond s q 0x10 6 0 []
    else
      let block : BitVec 256 := BitVec.ofNat 256 (bytesNat ((q.body.drop 8).take 32))
      done { s with tt := { s.tt with clsNext := dies.foldl (fun t d => tput (d * 64 + target) block t) s.tt.clsNext } }
  else if target = 255 then
    let w : W64 := BitVec.ofNat 64 (bodyWord q 1)
    let per := fld w.toNat 40 32
    if per < 16 ∨ 256 < per then respond s q 0x10 6 0 []
    else if per ≠ per256 s ∧ dies.length ≠ 16 then respond s q 0x10 4 0 []
    else done { s with tt := { s.tt with ctlNext := dies.foldl (fun t d => tput d w t) s.tt.ctlNext } }
  else respond s q 0x10 6 0 []

/-- The meaning of BUDGET, request 0x07. -/
def execBudget (s : State) : Host.Outcome State Fault Refusal := onRequest 7 budgetMasks budgetReads budgetRequest s

/-! ### Reports, numbers, windows -/

/-- R199, R438. Answers with a report. -/
def reportRequest (q : Request) (s : State) : State :=
  let comp := bodyWord q 0 % 64
  let n := fld (bodyWord q 0) 24 16
  let nums := (List.range n).map fun k => bytesNat ((q.body.drop (40 + 4 * k)).take 4)
  if nums.any fun x => decide (2 ^ 24 ≤ x) then respond s q 0x10 2 0 []
  else if ¬ compNamed comp ∨ 256 < n then respond s q 0x10 6 0 []
  else if (tget s.tt.comps comp).isNone then respond s q 0x13 1 0 []
  else
    let b := reportBytes s comp ((q.body.drop 8).take 32) nums
    respond s q 0 0 b.length b

/-- The meaning of REPORT, request 0x08. -/
def execReport (s : State) : Host.Outcome State Fault Refusal :=
  onRequest 8 (fun _ => [maskOf 5 0 + maskOf 24 16, maskOf 63 0, maskOf 63 0, maskOf 63 0, maskOf 63 0])
    (fun q => 40 + 4 * fld (bodyWord q 0) 24 16) reportRequest s

/-- The meaning of PKGNUM, request 0x0D: once per power-up. -/
def execPkgnum (s : State) : Host.Outcome State Fault Refusal :=
  onRequest 0x0D (fun _ => [maskOf 12 0 + maskOf 28 16]) (fun _ => 8) (fun q s =>
    if s.ho.pkginfo.getLsbD 31 then respond s q 0x12 0 0 []
    else respond { s with ho := { s.ho with pkginfo := BitVec.ofNat 64 (2 ^ 31 + bodyWord q 0) } } q 0 0 0 []) s

/-- The meaning of WINLIST, request 0x0E. -/
def execWinlist (s : State) : Host.Outcome State Fault Refusal :=
  onRequest 0x0E (fun _ => [maskOf 7 0 + maskOf 16 8]) (fun _ => 8) (fun q s =>
    let first := fld (bodyWord q 0) 7 0
    let n := fld (bodyWord q 0) 16 8
    if n = 0 ∨ 256 < n then respond s q 0x10 6 0 []
    else
      let k := min n (256 - first)
      respond s q 0 0 k ((List.range k).flatMap fun j => natBytes ((tget s.ho.windows (first + j)).getD 0).toNat 16)) s

/-! ### RESTORE (R231) -/

/-- R231. Whether a line of a manifest is mapped in a compartment with its geometry, and not LIVE. -/
def lineFits (s : State) (comp : Nat) (e : CkptLine) : Bool :=
  let pages := (leavesOf s comp).filter fun p => dKind p.2.1 == kLined && dLine p.2.2 == e.line
  !pages.isEmpty && (lineAt s (comp * 2 ^ 24 + e.line)).st != .live &&
    pages.all fun p => dFmt p.2.2 == e.fmt && dXlog p.2.2 == e.xlog && dCols8 p.2.2 == e.cols8

/-- R231. The base and the patches of a line, among objects. -/
def lineParts (objs : List CkptObj) (e : CkptLine) : Option (CkptLine × Memory × List Patch) :=
  (objs.findSome? (isBase e.fmt e.xlog e.hash)).bind fun base =>
    (e.chain.mapM fun (c : Nat × BitVec 256) => objs.findSome? (isPatch e.line c.1 c.2)).map fun ps => (e, base, ps)

/-- R113, R231. Records a patch anew: a name that stands with its digest changes nothing. -/
def recordPatch (l : Line) (p : Patch) : Line :=
  if l.names.any fun n => n.name == p.name then l
  else { l with chain := l.chain ++ [p], names := l.names ++ [{ name := p.name, digest := p.digest, squashed := false }] }

/-- R231. A line that is not LIVE is created from its base, and its patches are replayed in order. -/
def restoreLine (comp : Nat) (s : State) (e : CkptLine × Memory × List Patch) : State :=
  let key := comp * 2 ^ 24 + e.1.line
  let made : Line := { lineAt s key with
    st := .live, fmt := e.1.fmt, xlog := e.1.xlog, cols8 := e.1.cols8, base := e.2.1, hash := e.1.hash, chain := []
    sidings := [], names := [], opens := [] }
  s.setLine key (e.2.2.foldl recordPatch made)

/-- R231. The teams of a checkpoint wait for placement under a new launch, whose order logs are empty. -/
def restoreTeams (s : State) (k : Ckpt) (lid comp : Nat) : State :=
  let word (w : BitVec 512) : BitVec 512 :=
    (w &&& ~~~((BitVec.ofNat 512 (2 ^ 16 - 1) <<< 192) ||| (BitVec.ofNat 512 63 <<< 56))) |||
      (BitVec.ofNat 512 lid <<< 192) ||| (BitVec.ofNat 512 comp <<< 56)
  let teams := k.teams.map fun (v : Saved) => { v with lid := lid, word := word v.word }
  let back : List Waiting := k.teams.map fun (v : Saved) => { lid := lid, team := v.team, since := s.tt.periods }
  let s := { s with tm := { s.tm with
    swaps := s.tm.swaps ++ teams, waiting := s.tm.waiting ++ back
    stepAreas := s.tm.stepAreas ++ teams
    logs := s.tm.logs.map fun (g : Log) =>
      if g.lid = lid then { g with recs := [], replay := [], markRecs := [], markReplay := [] } else g } }
  s.modLaunch lid fun l => { l with
    nextTeam := l.nteams, skipped := [], steps := k.step
    tdone := l.nteams - (k.teams.filter fun v => v.ctxs.any fun e => e.2.run != .exited).length }

/-- R231. A packet for another compartment. -/
def packetFor (comp : Nat) (p : List Byte) : List Byte :=
  let w := pword p 0
  natBytes (w - fld w 55 50 * 2 ^ 50 + comp * 2 ^ 50) 8 ++ p.drop 8

/-- R231. Writes the ATOMIC pages of a checkpoint back. -/
def restorePage (comp : Nat) (s : State) (e : Nat × List Byte) : State :=
  match tablePieces s comp true [kAtomic] [(e.1 * 4096, 4096)] with
  | some ps => writePieces comp 0 ps e.2 s
  | none => s

/-- R231, R438. Restores a checkpoint from its manifest and the objects of its lines. -/
def restoreCkpt (q : Request) (comp : Nat) (k : Ckpt) (parts : List (CkptLine × Memory × List Patch)) (s : State) : State :=
  let s := k.pages.foldl (restorePage comp) (parts.foldl (restoreLine comp) s)
  let p := packetFor comp k.packet
  match packetChecks s none p with
  | .error (status, sub) => respond s q status sub 0 []
  | .ok image =>
    let (lid, s) := acceptPacket s q p image
    placementRun (respond (restoreTeams s k lid comp) q 0 0 lid [])

/-- R231. The pieces of memory that a RESTORE reads, as far as they are mapped. -/
def restoreReads (s : State) (q : Request) : List (Nat × Nat) :=
  let comp := bodyWord q 0 % 64
  let head := (readable s comp (bodyWord q 1) 104).getD []
  let n := headerWord (readPieces s head) 4
  head ++ (if 2 ^ 56 < bodyWord q 1 + 104 + n then [] else (readable s comp (bodyWord q 1 + 104) n).getD []) ++
    (readable s comp (bodyWord q 2) (bodyWord q 3)).getD []

/-- R231, R438. A RESTORE whose memory can be read now; a manifest or an object that is not there, or not whole, is answered
FAIL, subcode 0x20 (assumption 58). -/
def restoreNow (q : Request) (s : State) : State :=
  let comp := bodyWord q 0 % 64
  match findManifest s comp (bodyWord q 1), readTable s comp (bodyWord q 2) (bodyWord q 3) with
  | some k, some area =>
    if ¬ k.lines.all (lineFits s comp) then respond s q 0x13 2 0 []
    else match k.lines.mapM (lineParts (objsAt area.length area).1) with
      | none => respond s q 0x15 0x20 0 []
      | some parts => restoreCkpt q comp k parts s
  | _, _ => respond s q 0x15 0x20 0 []

/-- R231, R438. Restores a checkpoint, once the memory it reads can be read in the order of a replay (R138). -/
def restoreRequest (q : Request) (s : State) : State :=
  let comp := bodyWord q 0 % 64
  if ¬ compNamed comp ∨ 2 ^ 56 ≤ bodyWord q 1 ∨ 2 ^ 56 < bodyWord q 2 + bodyWord q 3 then respond s q 0x10 6 0 []
  else if (tget s.tt.comps comp).isNone then respond s q 0x13 1 0 []
  else match touchPieces s (restoreReads s q) with
    | some t => restoreNow q t
    | none => waitFor s q

/-- R138. Whether a RESTORE that has waited can read its memory now. -/
def restoreWaits (s : State) (q : Request) : Bool := q.code == 0x0F && (touchPieces s (restoreReads s q)).isSome

/-- The meaning of RESTORE, request 0x0F; with 1 in the event, of one that has waited. -/
def execRestore (s : State) : Host.Outcome State Fault Refusal :=
  if s.ev.a = 1 then
    .next (match s.ho.waiting.find? (restoreWaits s) with
      | some q => restoreRequest q { s with ho := { s.ho with waiting := s.ho.waiting.erase q } }
      | none => s)
  else onRequest 0x0F (fun _ => [maskOf 5 0, maskOf 63 0, maskOf 63 0, maskOf 63 0]) (fun _ => 32) restoreRequest s

/-! ### Shared windows (R203, R433) -/

/-- The window that holds a range of the host-port window, and the range's place in it. -/
def windowAt (s : State) (a n : Nat) : Option (BitVec 128 × List (Option Nat) × Nat) :=
  (s.ho.windows.find? fun e => inWindow e.2 a n).map fun e => (e.2, (tget s.ho.winPages e.1).getD [], a - wHoff e.2 * 4096)

/-- The physical pieces of a range of a window; none where a page of it has been unmapped. -/
def windowPieces (pages : List (Option Nat)) (o n : Nat) : Option (List (Nat × Nat)) :=
  (cutPages (n / 4096 + 2) o n).mapM fun p => (pages.getD (p.1 / 4096) none).map fun k => (k * 4096 + p.1 % 4096, p.2)

/-- R203, R433. Where a host access through BAR2 goes: the window, and the pieces; none for an unsupported request (of a page
that has been unmapped, assumption 132). -/
def windowTarget (s : State) (e : EvArg) : Option (BitVec 128 × List (Nat × Nat)) :=
  (windowAt s e.a (hostBytes e)).bind fun (w, pages, o) => (windowPieces pages o (hostBytes e)).map fun ps => (w, ps)

/-- R143. A host read at the memory port; bytes that fail are open (assumption 2). -/
def hostReadPiece (r : List Byte × State) (p : Nat × Nat) : List Byte × State :=
  match physRead r.2 p.1 p.2 with
  | some bs => (r.1 ++ bs, r.2)
  | none =>
    (List.range ((p.2 + 255) / 256)).foldl (fun (t : List Byte × State) k =>
      let (v, u) := t.2.freeVal
      (t.1 ++ bytesOf v (min 256 (p.2 - 256 * k)), u)) r

/-- R203, R227. A host write to an ATOMIC page. -/
def hostWritePiece (comp : Nat) (s : State) (pa : Nat) (bs : List Byte) : State := pageWrite s comp 0 pa bs

/-- Writes pieces in order. -/
def hostWritePieces (comp : Nat) : List (Nat × Nat) → List Byte → State → State
  | [], _, s => s
  | (pa, n) :: t, bs, s => hostWritePieces comp t (bs.drop n) (hostWritePiece comp s pa (bs.take n))

/-- R203, R433. A host access through BAR2: an offset, 1 for a write, a length, and the bytes. What a read returns
stands in `readback`; an unsupported request returns all ones. It drains what is held on its words (R136); where a replay
must come first (R138) it waits, and the host's later accesses behind it (R434). -/
def windowAccess (s : State) (e : EvArg) : State :=
  match windowTarget s e with
  | none => if e.b = 1 then s else { s with ho := { s.ho with readback := List.replicate (hostBytes e) 0xFF } }
  | some (w, ps) =>
    if e.b = 1 ∧ ¬ wW w then s
    else match touchPieces s ps with
      | none => { s with ho := { s.ho with behind := { row := .hostWindowAccess, arg := e } :: s.ho.behind } }
      | some s =>
        if e.b = 1 then hostWritePieces (wComp w) ps e.body s
        else
          let (bs, s) := ps.foldl hostReadPiece ([], s)
          { s with ho := { s.ho with readback := bs } }

/-- R138, R434. Whether the host access at the head of those that wait can be performed. -/
def hostReady (s : State) (v : Event) : Bool :=
  v.row != .hostWindowAccess || match windowTarget s v.arg with
    | none => true
    | some (w, ps) => (v.arg.b == 1 && !wW w) || (touchPieces s ps).isSome

/-- The meaning of HOST_WINDOW_ACCESS. -/
def execHostWindowAccess (s : State) : Host.Outcome State Fault Refusal := .next (windowAccess s s.ev)

end Sys2Proof.Machine
end

