-- ==== Sys2Proof/Machine/Handover.lean ====
section
/-! DEFINITION. The hand-over record (R233): what the old image writes into the memory of compartment 0, and what the new one
starts from. The manual lists its sections and gives no encoding (assumption 58). -/

namespace Sys2Proof.Machine

/-! ### The sections -/

/-- The boards. -/
def codecBoards : Codec (Tab (BitVec 512) × Tab (BitVec 512) × List Nat × List Reserve) :=
  .pair (.list (.pair .nat (.word 512))) <| .pair (.list (.pair .nat (.word 512))) <| .pair (.list .nat) (.list codecReserve)

/-- The launch tables: launches and their order. -/
def codecLaunches : Codec (Tab Launch × Nat × Nat × List Waiting × List Resident) :=
  .pair (.list (.pair .nat codecLaunch)) <| .pair .nat <| .pair .nat <| .pair (.list codecWaiting) (.list codecResident)

/-- The launch tables: compartments, windows, logs, areas and requests. -/
def codecComps : Codec (Tab Comp × Tab (BitVec 128) × Tab (List (Option Nat)) × List Log × List HeldLog × List Saved × List Saved ×
    List Request × List Request) :=
  .pair (.list (.pair .nat codecComp)) <| .pair (.list (.pair .nat (.word 128))) <| .pair (.list (.pair .nat (.list (.option .nat)))) <|
    .pair (.list codecLog) <| .pair (.list codecHeldLog) <| .pair (.list codecSaved) <| .pair (.list codecSaved) <|
    .pair (.list codecRequest) (.list codecRequest)

/-- The Setts. -/
def codecSetts : Codec (Tab Sett × List Transit) := .pair (.list (.pair .nat codecSett)) (.list codecTransit)

/-- The Timetable. -/
def codecTimetable : Codec (Tab W64 × Tab (BitVec 256) × Tab W64 × Tab (BitVec 256)) :=
  .pair (.list (.pair .nat (.word 64))) <| .pair (.list (.pair .nat (.word 256))) <| .pair (.list (.pair .nat (.word 64)))
    (.list (.pair .nat (.word 256)))

/-- Routes and sessions. -/
def codecRoutes : Codec (Tab Session × Tab Nimmet) :=
  .pair (.list (.pair .nat codecSession)) (.list (.pair .nat codecNimmet))

/-- The sections of a record, in order. -/
def recordSections (r : HandRec) : List (List Byte) :=
  [codecBoards.put (r.boards, r.placing, r.leaving, r.reserved),
   codecLaunches.put (r.launches, r.accepted, r.nextLid, r.waiting, r.resident) ++
     codecComps.put (r.comps, r.windows, r.winPages, r.logs, r.heldLogs, r.swaps, r.stepAreas, r.requests, r.asked),
   codecSetts.put (r.setts, r.transits),
   codecTimetable.put (r.ctl, r.cls, r.ctlNext, r.clsNext),
   codecRoutes.put (r.sessions, r.nimmet)]

/-- The offsets at which sections stand, from the first. -/
def sectionOffsets : Nat → List (List Byte) → List Nat
  | _, [] => []
  | n, b :: t => n :: sectionOffsets (n + b.length) t

/-- The header: version, kind, old and new SVN, and the offsets of the sections. -/
def codecHeader : Codec (Nat × Nat × Nat × Nat × List Nat) := .pair .nat <| .pair .nat <| .pair .nat <| .pair .nat (.list .nat)

/-- R233. A record's bytes: the header, and the sections, whose offsets count from the header's end. -/
def recordData (r : HandRec) : List Byte :=
  let l := recordSections r
  codecHeader.put (r.version, r.kind, r.oldSvn, r.newSvn, sectionOffsets 0 l) ++ l.flatMap id

/-- Reads a section at its offset. -/
def sectionAt {α : Type} (c : Codec α) (offs : List Nat) (k : Nat) (b : List Byte) : Option (α × List Byte) :=
  (offs[k]?).bind fun o => c.get (b.drop o)

/-- R233. The record that bytes hold. -/
def recordOf (b : List Byte) : Option HandRec :=
  (codecHeader.get b).bind fun (h, t) =>
    let (version, kind, oldSvn, newSvn, offs) := h
    (sectionAt codecBoards offs 0 t).bind fun ((boards, placing, leaving, reserved), _) =>
    (sectionAt codecLaunches offs 1 t).bind fun ((launches, accepted, nextLid, waiting, resident), u) =>
    (codecComps.get u).bind fun ((comps, windows, winPages, logs, heldLogs, swaps, stepAreas, requests, asked), _) =>
    (sectionAt codecSetts offs 2 t).bind fun ((setts, transits), _) =>
    (sectionAt codecTimetable offs 3 t).bind fun ((ctl, cls, ctlNext, clsNext), _) =>
    (sectionAt codecRoutes offs 4 t).map fun ((sessions, nimmet), _) =>
      { version, kind, oldSvn, newSvn, boards, placing, leaving, reserved, launches, accepted, nextLid, waiting, resident
        comps, windows, winPages, logs, heldLogs, swaps, stepAreas, requests, asked, setts, transits, ctl, cls, ctlNext
        clsNext, sessions, nimmet }

/-! ### Writing and reading it -/

/-- R233. The record of a hand-over as the tables stand. -/
def recordNow (s : State) (h : Hand) : HandRec :=
  { version := Config.recordVersion h.old.digest, kind := h.kind, oldSvn := h.old.svn, newSvn := h.image.svn
    boards := s.tm.boards, placing := s.tm.placing, leaving := s.tm.leaving, reserved := s.tm.reserved
    launches := s.tm.launches, accepted := s.tm.accepted, nextLid := s.tm.nextLid, waiting := s.tm.waiting
    resident := s.tm.resident, comps := s.tt.comps, windows := s.ho.windows, winPages := s.ho.winPages, logs := s.tm.logs
    heldLogs := s.tm.heldLogs, swaps := s.tm.swaps, stepAreas := s.tm.stepAreas, requests := s.ho.requests
    asked := s.ho.waiting, setts := s.tm.setts, transits := s.tm.transits, ctl := s.tt.ctl, cls := s.tt.cls
    ctlNext := s.tt.ctlNext, clsNext := s.tt.clsNext, sessions := s.en.sessions, nimmet := s.en.nimmet }

/-- R233. An image starts from a record. -/
def installRecord (r : HandRec) (s : State) : State :=
  { s with
    tm := { s.tm with
      boards := r.boards, placing := r.placing, leaving := r.leaving, reserved := r.reserved, launches := r.launches
      accepted := r.accepted, nextLid := r.nextLid, waiting := r.waiting, resident := r.resident, logs := r.logs
      heldLogs := r.heldLogs, swaps := r.swaps, stepAreas := r.stepAreas, setts := r.setts, transits := r.transits }
    tt := { s.tt with
      comps := r.comps, ctl := r.ctl, cls := r.cls, ctlNext := r.ctlNext, clsNext := r.clsNext }
    ho := { s.ho with windows := r.windows, winPages := r.winPages, requests := r.requests, waiting := r.asked }
    en := { s.en with sessions := r.sessions, nimmet := r.nimmet } }

/-- R93. The memory of a record is released. -/
def dropRecord (s : State) : State :=
  match s.rt.record with
  | some (pa, n) => { releasePages s 0 [(pa, (n + 4095) / 4096 * 4096)] with rt := { s.rt with record := none } }
  | none => s

/-- R233. Writes a record into memory of compartment 0, where the first stack with room has it. -/
def placeRecord (b : List Byte) (s : State) : State :=
  match (List.range 16).findSome? fun n => takePages s false n 4096 ((b.length + 4095) / 4096) with
  | some (pa, t) =>
    { t with rt := { t.rt with record := some (pa, b.length) }, ms := { t.ms with mem := wrBytes pa b t.ms.mem } }
  | none => s

/-- R233. The old image writes the record of a hand-over, in the place of one that stands. -/
def putRecord (s : State) (h : Hand) : State :=
  let s := dropRecord s
  placeRecord (recordData (recordNow s h)) s

/-- R233. The record that stands, if its memory can be read. -/
def readRecord (s : State) : Option HandRec :=
  s.rt.record.bind fun (pa, n) => (physRead s pa n).bind recordOf

/-- R235. The old image resumes from the record as it then stands: with what has been done since the switch. -/
def resumeRecord (s : State) (h : Hand) : State :=
  let s := putRecord s h
  match readRecord s with
  | some r => installRecord r s
  | none => s

end Sys2Proof.Machine
end

