-- ==== Sys2Proof/Machine/Boot.lean ====
section
/-! DEFINITION. Power, boot and firmware hand-over (R9, R193 to R198, R232 to R236), the control registers of the host
port (R433, R435), Nimmet links and sessions (R204, R442, R443), the second tier (R441), and heat (R445). -/

namespace Sys2Proof.Machine

/-! ### Images (R194, R195, R232) -/

/-- R232. MAGIC of a kind: 1 Zitrum, 2 Badger, 3 Shuttle, 4 matrix. -/
def magicOf (kind : Nat) : Nat :=
  match kind with
  | 1 => 0x5A495452 | 2 => 0x42414447 | 3 => 0x5348544C | _ => 0x4D585254

/-- R194. A field of an image, and its bytes. -/
def imgNat (b : List Byte) (off n : Nat) : Nat := bytesNat ((b.drop off).take n)
def imgBytes (b : List Byte) (off n : Nat) : List Byte := padded n ((b.drop off).take n)

/-- Whether bytes of an image are all 0. -/
def imgZero (b : List Byte) (off n : Nat) : Bool := ((b.drop off).take n).all fun c => c == 0

/-- R194. The body of an image. -/
def imgBody (b : List Byte) : List Byte := (b.drop 0x1000).take (imgNat b 0x10 8)

/-- R195, check 2. -/
def imgHeaderBad (kind : Nat) (b : List Byte) : Bool :=
  imgNat b 0 4 != magicOf kind || imgNat b 4 2 != 1 || !imgZero b 7 1 || !imgZero b 0xC 4 || !imgZero b 0x18 8 ||
    !imgZero b 0x60 32 || !imgZero b 0xC81 895 || imgNat b 0x10 8 % 4096 != 0 || decide (2 ^ 26 < imgNat b 0x10 8)

/-- R195. The FAIL code of the first check that an image fails under a floor; 0 when it passes. No check bounds the SVN
(assumption 136). -/
def verifyImage (kind floor : Nat) (b : List Byte) : Nat :=
  let slot := imgNat b 6 1
  let pub := imgBytes b 0x580 1793
  if b.length < 0x1000 ∨ (¬ imgHeaderBad kind b ∧ b.length < 0x1000 + imgNat b 0x10 8) then 1
  else if imgHeaderBad kind b then 2
  else if 3 < slot ∨ ¬ Config.slotIntact slot ∨ shake32 pub ≠ Config.slotHash slot then 3
  else if ¬ Config.falconVerify (shake64 (b.take 0x80)) (imgBytes b 0x80 1280) pub then 4
  else if digestBytes (shake64 (imgBody b)) ≠ imgBytes b 0x20 64 then 5
  else if imgNat b 8 4 < floor then 6
  else 0

/-- R194. An image as the root of trust keeps it. -/
def firmwareIn (b : List Byte) : Firmware := { svn := imgNat b 8 4, digest := shake64 (imgBody b) }

/-- R435. The image in the staging window. -/
def stagedImage (s : State) : List Byte :=
  rdBytes s.ho.staging 0 (0x1000 + min (2 ^ 26) (rdNat s.ho.staging 0x10 8))

/-! ### Boot (R193, R196, R197) -/

/-- Cycles of a time in milliseconds, at 1.6 GHz (R208, R445). -/
def msCycles (n : Nat) : Nat := n * 1600000

/-- R196. The boot status with other fields. -/
def bootWord (s : State) (st fail attempt src : Nat) : State :=
  { s with rt := { s.rt with bootStatus := BitVec.ofNat 64 (st * 2 ^ 24 + fail * 2 ^ 16 + attempt * 2 ^ 8 + src) } }
def bootState (s : State) (st : Nat) : State :=
  let w := s.rt.bootStatus.toNat
  bootWord s st (fld w 23 16) (fld w 15 8) (fld w 7 0)
def bootFail (s : State) (code : Nat) : State :=
  let w := s.rt.bootStatus.toNat
  bootWord s (fld w 31 24) code (fld w 15 8) (fld w 7 0)
def bootAttempt (s : State) (st src : Nat) : State :=
  let w := s.rt.bootStatus.toNat
  bootWord s st (fld w 23 16) (min 255 (fld w 15 8 + 1)) src

/-- R193. The sources in the order of BOOTSRC: true for the network. -/
def bootSources : List Bool :=
  match Config.bootSrc % 4 with
  | 0 => [true, false] | 1 => [false, true] | 2 => [true] | _ => [false]

/-- The ROM's timers are off. -/
def bootTimersOff (s : State) : State := ((s.cancel .bootFetchTimeout 0).cancel .bootRetryWait 0).cancel .bootCommitDeadline 0

/-- What the ROM does now, with the time that it allows. -/
def bootStep (s : State) (b : Boot) (ms : Nat) (row : Instr) : State :=
  let s := bootTimersOff s
  { s with rt := { s.rt with boot := b } }.after (s.cycle + msCycles ms) false row {}

/-- R193, step 5. The Stationmaster starts on a verified body. -/
def startBody (s : State) (source : Nat) (b : List Byte) : State :=
  let s := { s with rt := { s.rt with firmware := tput 1 (firmwareIn b) s.rt.firmware, alive := none } }
  bootStep (bootState s 4) (.started source) 2000 .bootCommitDeadline

/-- R193. Takes the source of a place in the order; after the last the ROM waits. A staged image is taken at once. -/
def takeSource (s : State) (source : Nat) : State :=
  match bootSources[source]? with
  | none => bootStep (bootState s 0) .waiting 10000 .bootRetryWait
  | some true => bootStep (bootAttempt s 1 0) (.network source 0) 30000 .bootFetchTimeout
  | some false =>
    if s.ho.hostLink then bootStep (bootAttempt s 2 2) (.hostImage source) 60000 .bootFetchTimeout
    else bootStep (bootAttempt s 2 2) (.hostLink source) 60000 .bootFetchTimeout

/-- R193, step 4, R196. A source has brought an image: its verification begins, and takes a time that the manual leaves
open. -/
def bootImage (s : State) (source : Nat) (b : List Byte) : State :=
  let (d, s) := (bootState (bootTimersOff s) 3).delay
  { s with rt := { s.rt with boot := .verifying source b } }.after (s.cycle + d) false .tftpImageArrival { d := 1 }

/-- R193, R195. The verification of an image ends. -/
def bootVerified (s : State) (source : Nat) (b : List Byte) : State :=
  match verifyImage 1 s.rt.floor b with
  | 0 => startBody s source b
  | code => takeSource (bootFail s code) (source + 1)

/-- R193, R435. The ROM copies a staged image out, where it waits for one. -/
def bootStaged (s : State) : State :=
  match s.rt.boot with
  | .hostImage source =>
    if s.ho.stageGo then bootImage { s with ho := { s.ho with stageGo := false } } source (stagedImage s) else s
  | .idle => s
  | .verifying _ _ => s
  | .network _ _ => s
  | .hostLink _ => s
  | .started _ => s
  | .committed => s
  | .waiting => s

/-- R9. A package without power: nothing is kept of it. -/
def powerOff (s : State) : State :=
  { State.reset with powered := false, inputs := s.inputs, delays := s.delays, free := s.free, nextId := s.nextId }

/-- R193. Power is applied: the ROM derives the device key and takes the first source. -/
def powerOn (s : State) : State :=
  if s.powered then s
  else
    let s := { powerOff s with powered := true, rt := { boot := .idle, zitrum := false, devKey := true, floor := s.rt.floor } }
    bootStaged (takeSource s 0)

/-- The meaning of POWER_UP. -/
def execPowerUp (s : State) : Host.Outcome State Fault Refusal := .next (powerOn s)

/-- R193, R195. The time of a source is over. -/
def fetchTimeout (s : State) : State :=
  match s.rt.boot with
  | .network source 0 => bootStep (bootAttempt (bootFail s 1) 1 1) (.network source 3) 30000 .bootFetchTimeout
  | .network source _ => bootStaged (takeSource (bootFail s 1) (source + 1))
  | .hostLink source => bootStaged (takeSource (bootFail s 1) (source + 1))
  | .hostImage source => bootStaged (takeSource (bootFail s 1) (source + 1))
  | .idle => s
  | .verifying _ _ => s
  | .started _ => s
  | .committed => s
  | .waiting => s

/-- The meaning of BOOT_FETCH_TIMEOUT. -/
def execBootFetchTimeout (s : State) : Host.Outcome State Fault Refusal := .next (fetchTimeout s)

/-- The meaning of BOOT_RETRY_WAIT. -/
def execBootRetryWait (s : State) : Host.Outcome State Fault Refusal :=
  .next (if s.rt.boot = .waiting then bootStaged (takeSource s 0) else s)

/-- R193. An image arrives whole on a management port. -/
def imageArrives (s : State) (e : EvArg) : State :=
  match s.rt.boot with
  | .network source port => if port = e.a then bootImage s source e.body else s
  | .idle => s
  | .hostLink _ => s
  | .hostImage _ => s
  | .verifying _ _ => s
  | .started _ => s
  | .committed => s
  | .waiting => s

/-- R195. What the ROM is verifying has been verified. -/
def imageVerified (s : State) : State :=
  match s.rt.boot with
  | .verifying source b => bootStaged (bootVerified s source b)
  | .idle => s
  | .network _ _ => s
  | .hostLink _ => s
  | .hostImage _ => s
  | .started _ => s
  | .committed => s
  | .waiting => s

/-- The meaning of TFTP_IMAGE_ARRIVAL: the port and the image; with 1 in `d`, the end of the verification of an image
that a source has brought. -/
def execTftpImageArrival (s : State) : Host.Outcome State Fault Refusal :=
  .next (if s.ev.d = 1 then imageVerified s else imageArrives s s.ev)

/-- R433, R193. The host link comes up. -/
def linkUp (s : State) : State :=
  let s := { s with ho := { s.ho with hostLink := true } }
  match s.rt.boot with
  | .hostLink source => bootStaged (bootStep s (.hostImage source) 60000 .bootFetchTimeout)
  | .idle => s
  | .network _ _ => s
  | .hostImage _ => s
  | .verifying _ _ => s
  | .started _ => s
  | .committed => s
  | .waiting => s

/-- The meaning of HOST_LINK_UP. -/
def execHostLinkUp (s : State) : Host.Outcome State Fault Refusal := .next (linkUp s)

/-- R195, R197, R232. A boot commits: the fused floor rises, and the other kinds run as the body brought them. -/
def bootCommit (s : State) : State :=
  let z := firmwareOf s 1
  let others := [2, 3, 4].foldl (fun t k => tput k
    ({ svn := Config.declaredFloor z.digest k, digest := Config.bundledDigest z.digest k } : Firmware) t) s.rt.firmware
  bootState { s with rt := { s.rt with
    boot := .committed, zitrum := true, floor := max s.rt.floor z.svn, firmware := others
    floors := [2, 3, 4].foldl (fun t k => tput k (Config.declaredFloor z.digest k) t) s.rt.floors } } 5

/-- R197. The boot fails its source; what the Stationmaster had taken from the management ports is lost with it. -/
def bootLost (s : State) (source : Nat) : State :=
  let kept (q : Request) : Bool := match q.route with
    | .mgmt _ _ => false
    | .host _ => true
    | .ctx _ _ => true
    | .producer _ => true
  let s := { s with ho := { s.ho with requests := s.ho.requests.filter kept } }
  bootStaged (takeSource (bootFail s 7) (source + 1))

/-- The meaning of BOOT_COMMIT_DEADLINE. -/
def execBootCommitDeadline (s : State) : Host.Outcome State Fault Refusal :=
  .next (match s.rt.boot with
    | .started source => if s.rt.alive = some (firmwareOf s 1).svn then bootCommit s else bootLost s source
    | .idle => s
    | .network _ _ => s
    | .hostLink _ => s
    | .hostImage _ => s
    | .verifying _ _ => s
    | .committed => s
    | .waiting => s)

/-! ### Hand-over (R233 to R236) -/

/-- R236, R440. The hand-over status, and the notice of a change of state. -/
def handState (s : State) (st fail kind seq : Nat) : State :=
  postNotice { s with rt := { s.rt with
    handStatus := BitVec.ofNat 64 (st * 2 ^ 24 + fail * 2 ^ 16 + kind * 2 ^ 8 + seq % 256) } } 4 0 st
def handSeq (s : State) : Nat := fld s.rt.handStatus.toNat 7 0

/-- R233, R236. The FAIL code of an image that failed its verification; the other fields keep what they say. -/
def handFail (s : State) (code : Nat) : State :=
  let w := s.rt.handStatus.toNat
  { s with rt := { s.rt with handStatus := BitVec.ofNat 64 (w - fld w 23 16 * 2 ^ 16 + code % 256 * 2 ^ 16) } }

/-- The floor of a kind (R232). -/
def floorOf (s : State) (kind : Nat) : Nat := if kind = 1 then s.rt.floor else (tget s.rt.floors kind).getD 0

/-- R233, R435. Stages the image of the window: the FAIL code is the answer's. -/
def stageImage (q : Request) (s : State) : State :=
  let kind := bodyWord q 0 % 8
  let b := stagedImage s
  let s := { s with ho := { s.ho with stageGo := false } }
  match verifyImage kind (floorOf s kind) b with
  | 0 =>
    let h : Hand := { kind := kind, image := firmwareIn b, old := firmwareOf s kind, switched := false, alive := false }
    respond (handState { s with rt := { s.rt with hand := some h } } 1 0 kind (handSeq s + 1)) q 0 0 0 []
  | code => respond (handFail s code) q 0x15 code 0 []

/-- The meaning of STAGE, request 0x09: it takes the image once GO is 1. -/
def execStage (s : State) : Host.Outcome State Fault Refusal :=
  onRequest 9 (fun _ => [7]) (fun _ => 8) (fun q s =>
    let kind := bodyWord q 0 % 8
    if kind = 0 ∨ 4 < kind then respond s q 0x10 6 0 []
    else if s.rt.hand.isSome ∨ s.ho.waiting.any (fun p => p.code == 9) then respond s q 0x12 0 0 []
    else if s.ho.stageGo then stageImage q s
    else waitFor s q) s

/-- R435. GO is set: the ROM, or Zitrum, copies the image out. -/
def goSet (s : State) : State :=
  let s := bootStaged { s with ho := { s.ho with stageGo := true } }
  match s.ho.waiting.find? fun q => q.code == 9 with
  | some q => if s.ho.stageGo ∧ s.rt.zitrum then stageImage q { s with ho := { s.ho with waiting := s.ho.waiting.erase q } } else s
  | none => s

/-- The meaning of STAGE_GO. -/
def execStageGo (s : State) : Host.Outcome State Fault Refusal := .next (goSet s)

/-- R235. The hand-over reverts: the old image runs on, from the record as it then stands. -/
def handRevert (s : State) (h : Hand) (code : Nat) : State :=
  let s := s.cancel .handoverDeadline 0
  let s := { s with rt := { s.rt with hand := none, zitrum := true, firmware := tput h.kind h.old s.rt.firmware } }
  handState (dropRecord (resumeRecord s h)) 4 code h.kind (handSeq s)

/-- R235. The hand-over commits, and the floor of its kind rises. -/
def handCommit (s : State) (h : Hand) : State :=
  let s := handState (dropRecord { s with rt := { s.rt with hand := none, zitrum := true } }) 3 0 h.kind (handSeq s)
  if h.kind = 1 then { s with rt := { s.rt with floor := max s.rt.floor h.image.svn } }
  else { s with rt := { s.rt with floors := tput h.kind (max (floorOf s h.kind) h.image.svn) s.rt.floors } }

/-- R233 to R235. A staged image takes over at a period boundary: the old image writes the record, and the new one starts
from it; one that refuses the record's version reverts. -/
def handSwitch (s : State) : State :=
  match s.rt.hand with
  | none => s
  | some h =>
    if h.switched then s
    else
      let h := { h with switched := true }
      let s := putRecord s h
      let s := handState { s with rt := { s.rt with
        hand := some h, alive := none, zitrum := h.kind != 1, firmware := tput h.kind h.image s.rt.firmware } } 2 0 h.kind (handSeq s)
      match readRecord s with
      | some r =>
        if Config.recordAccepted h.image.digest r.version then
          (installRecord r s).after (s.cycle + msCycles s.rt.deadline) false .handoverDeadline {}
        else handRevert s h 0x11
      | none => handRevert s h 0x11

/-- R235. The end of the deadline. -/
def handDeadline (s : State) : State :=
  match s.rt.hand with
  | some h => if ¬ h.switched then s else if h.alive then handCommit s h else handRevert s h 0x10
  | none => s

/-- The meaning of HANDOVER_DEADLINE; with 1 in `b`, the deadline is set to a number of milliseconds, 1 to 1,000 (R235). -/
def execHandoverDeadline (s : State) : Host.Outcome State Fault Refusal :=
  .next (if s.ev.b = 1 then
      (if 1 ≤ s.ev.a ∧ s.ev.a ≤ 1000 then { s with rt := { s.rt with deadline := s.ev.a } } else s)
    else handDeadline s)

/-- R197, R235. ALIVE is posted with an SVN; the latest post counts (assumption 137). A new Zitrum acts from then on. -/
def alivePosted (s : State) (svn : Nat) : State :=
  let s := { s with rt := { s.rt with alive := some svn } }
  match s.rt.hand with
  | some h =>
    if h.switched then
      { s with rt := { s.rt with
        hand := some { h with alive := svn == h.image.svn }
        zitrum := s.rt.zitrum || (h.kind == 1 && svn == h.image.svn) } }
    else s
  | none => s

/-- The meaning of ALIVE_POST, with the SVN written. -/
def execAlivePost (s : State) : Host.Outcome State Fault Refusal := .next (alivePosted s s.ev.a)

/-- R197, R235. A watchdog of a Stationmaster core expires. -/
def watchdog (s : State) : State :=
  match s.rt.hand with
  | some h => if h.switched then handRevert s h 0x12 else s
  | none => match s.rt.boot with
    | .started source => bootLost s source
    | .idle => s
    | .network _ _ => s
    | .hostLink _ => s
    | .hostImage _ => s
    | .verifying _ _ => s
    | .committed => s
    | .waiting => s

/-- The meaning of STATIONMASTER_WATCHDOG. -/
def execStationmasterWatchdog (s : State) : Host.Outcome State Fault Refusal := .next (watchdog s)

/-! ### The host port's registers (R8, R433 to R437) -/

/-- Changes byte k of a slot's header, where it is the host's to write (R436). -/
def putHdrByte (h : HostSlot) (k : Nat) (b : Byte) : HostSlot :=
  let w := (slotHdr h (k / 8)).toNat
  let put (n : Nat) (v : Nat) : Nat := w - fld w (8 * n + 7) (8 * n) * 2 ^ (8 * n) + v * 2 ^ (8 * n)
  if k < 4 ∨ k = 6 then { h with hdr := BitVec.ofNat 64 (put k b.toNat) :: h.hdr.drop 1 }
  else if k = 8 ∨ k = 9 then
    { h with hdr := h.hdr.take 1 ++ [BitVec.ofNat 64 (put (k - 8) (if k = 9 then b.toNat % 64 else b.toNat))] ++ h.hdr.drop 2 }
  else h

/-- A host write of one byte of BAR0; STATE is written last, by its own rule. -/
def regByte (s : State) (a : Nat) (b : Byte) : State :=
  if 0x100000 ≤ a ∧ a < 0x200000 then
    let n := (a - 0x100000) / 0x4000
    let o := (a - 0x100000) % 0x4000
    let h := hostSlot s n
    if o < 64 then setSlot s n (putHdrByte h o b)
    else setSlot s n { h with body := padded (max h.body.length (o - 63)) h.body |>.set (o - 64) b }
  else if 0x1000000 ≤ a ∧ a < 0x6000000 then { s with ho := { s.ho with staging := wrByte (a - 0x1000000) b s.ho.staging } }
  else s

/-- Writes bytes of BAR0 in order. -/
def regBytes (a : Nat) : List Byte → State → State
  | [], s => s
  | b :: t, s => regBytes (a + 1) t (regByte s a b)

/-- R8, R435, R436. A host write to BAR0: GO is set by a 1, STATE of a slot acts after the other bytes, and everything
else that is not writable ignores it. -/
def registerWrite (s : State) (a : Nat) (bs : List Byte) : State :=
  let s := regBytes a bs s
  let s := if a ≤ 0x10 ∧ 0x10 < a + bs.length ∧ (bs.getD (0x10 - a) 0).getLsbD 0 then goSet s else s
  (List.range 64).foldl (fun t n =>
    let p := 0x100000 + 0x4000 * n + 7
    if a ≤ p ∧ p < a + bs.length then writeState t n (bs.getD (p - a) 0).toNat else t) s

/-- The meaning of HOST_REGISTER_WRITE: an offset in BAR0 and the bytes. -/
def execHostRegisterWrite (s : State) : Host.Outcome State Fault Refusal := .next (registerWrite s s.ev.a s.ev.body)

/-- R435. A byte of BAR0 as a host reads it; an unassigned offset reads as all ones (R433). -/
def bar0Byte (s : State) (a : Nat) : Byte :=
  let of (w : W64) (k : Nat) : Byte := BitVec.ofNat 8 (fld w.toNat (8 * k + 7) (8 * k))
  if a < 8 then of s.rt.bootStatus a
  else if a < 0x10 then of s.rt.handStatus (a - 8)
  else if a < 0x18 then (if a = 0x10 ∧ s.ho.stageGo then 1 else 0)
  else if a < 0x20 then of (BitVec.ofNat 64 s.ho.ncount) (a - 0x18)
  else if a < 0x28 then of s.ho.pkginfo (a - 0x20)
  else if 0x100 ≤ a ∧ a < 0x180 then of (((tget s.en.nimmet ((a - 0x100) / 8)).map (·.status)).getD 0) (a % 8)
  else if 0x100000 ≤ a ∧ a < 0x200000 then
    let h := hostSlot s ((a - 0x100000) / 0x4000)
    let o := (a - 0x100000) % 0x4000
    if o < 64 then of (slotHdr h (o / 8)) (o % 8) else h.body.getD (o - 64) 0
  else if 0x200000 ≤ a ∧ a < 0x201000 then
    let w := (tget s.ho.notices ((a - 0x200000) / 16)).getD (0, 0)
    if a % 16 < 8 then of w.1 (a % 8) else of w.2 (a % 8)
  else if 0x1000000 ≤ a ∧ a < 0x6000000 then rdByte s.ho.staging (a - 0x1000000)
  else 0xFF

/-! ### Nimmet (R204, R442, R443) -/

/-- R443. A port trains: it comes up only once PKGINFO is valid, and two ends of one number leave it FAILED. -/
def linkTrain (s : State) (e : EvArg) : State :=
  let want := e.b
  let st := if want = 2 then
      (if ¬ s.ho.pkginfo.getLsbD 31 then 1 else if e.c = pkgNumber s then 4 else 2)
    else want % 8
  if st = 0 then portStatus s e.a 0 0 0 0 else portStatus s e.a st e.c (e.d / 16) (e.d % 16)

/-- The meaning of NIMMET_LINK_TRAIN: the port, 0 down, 1 training or 2 trained, the peer's number, and 16 times its
port plus the lanes up. -/
def execNimmetLinkTrain (s : State) : Host.Outcome State Fault Refusal := .next (linkTrain s s.ev)

/-- R204. The TAGs that a peer reports: for each compartment its number and 32 bytes. -/
def tagsOf : Nat → List Byte → Tab (BitVec 256)
  | 0, _ => []
  | n + 1, bs =>
    if bs.length < 33 then []
    else tput (bytesNat (bs.take 1)) (BitVec.ofNat 256 (bytesNat ((bs.drop 1).take 32))) (tagsOf n (bs.drop 33))

/-- R204, R443. A session is set up with a peer, when each side's report has passed. -/
def sessionUp (s : State) (e : EvArg) : State :=
  if e.c ≠ 1 then s
  else
    let n : Session := { peer := e.a, up := true, key := s.nextId, counter := 0, tags := tagsOf 64 e.body }
    let s := { s with nextId := s.nextId + 1, en := { s.en with sessions := tput e.a n s.en.sessions } }
    let w := (nimmetPort s e.b).status.toNat
    if fld w 47 35 = e.a ∧ fld w 26 24 = 2 then portStatus s e.b 3 e.a (fld w 34 31) (fld w 30 27) else s

/-- The meaning of NIMMET_SESSION_SETUP: the peer, the port, 1 for success, and the peer's TAGs. -/
def execNimmetSessionSetup (s : State) : Host.Outcome State Fault Refusal := .next (sessionUp s s.ev)

/-- The meaning of SESSION_REKEY, for the peer that the event names (R204). -/
def execSessionRekey (s : State) : Host.Outcome State Fault Refusal :=
  .next (match tget s.en.sessions s.ev.a with
    | some n => { s with
        nextId := s.nextId + 1, en := { s.en with sessions := tput s.ev.a { n with key := s.nextId, counter := 0 } s.en.sessions } }
    | none => s)

/-- The meaning of NIMMET_FRAME_RECEIVE: the port, the frame's number, and 1 when its CRC and tag pass. It is delivered
once, in sequence; what it brings are events of Shuttle. -/
def execNimmetFrameReceive (s : State) : Host.Outcome State Fault Refusal :=
  let n := nimmetPort s s.ev.a
  .next (if s.ev.c = 1 ∧ s.ev.b = n.rxSeq then
      { s with en := { s.en with nimmet := tput s.ev.a { n with rxSeq := (n.rxSeq + 1) % 2 ^ 48 } s.en.nimmet } }
    else s)

/-- The meaning of NIMMET_FRAME_RESEND: a frame that is not acknowledged is sent again, and counted (R443). -/
def execNimmetFrameResend (s : State) : Host.Outcome State Fault Refusal :=
  let n := nimmetPort s s.ev.a
  .next (if n.unacked.isEmpty then s
    else
      let r := fld n.status.toNat 23 0
      let w : W64 := BitVec.ofNat 64 (n.status.toNat - r + min (2 ^ 24 - 1) (r + 1))
      { s with en := { s.en with nimmet := tput s.ev.a { n with status := w } s.en.nimmet } })

/-! ### Second tier, heat, power (R441, R445, R9) -/

/-- The meaning of SECOND_TIER_PORT_FAIL, for the port that the event names. -/
def execSecondTierPortFail (s : State) : Host.Outcome State Fault Refusal :=
  .next { s with ms := { s.ms with failPorts := sins s.ev.a s.ms.failPorts } }

/-- The meaning of THERMAL_WARNING: the die and its temperature. -/
def execThermalWarning (s : State) : Host.Outcome State Fault Refusal := .next (postNotice s 5 s.ev.a s.ev.b)

/-- The meaning of THERMAL_SHUTDOWN. -/
def execThermalShutdown (s : State) : Host.Outcome State Fault Refusal :=
  .next { powerOff s with rt := { (powerOff s).rt with floor := s.rt.floor } }

/-- The meaning of POWER_REMOVED; the fuses stay blown. -/
def execPowerRemoved (s : State) : Host.Outcome State Fault Refusal :=
  .next { powerOff s with rt := { (powerOff s).rt with floor := s.rt.floor } }

end Sys2Proof.Machine
end

