-- ==== Sys2Proof/Machine/Period.lean ====
section
/-! DEFINITION. The Timetable's period boundary (R173, R174, R190, R206, R207, R234). -/

namespace Sys2Proof.Machine

/-- Lays the entries of a table over those of another. -/
def overlay {α : Type} (new old : Tab α) : Tab α := new.foldl (fun t e => tput e.1 e.2 t) old

/-- R206, R207. What was written comes into force on every die at once, overdrafts carry over, and the next boundary
is a period away. -/
def newPeriod (s : State) : State :=
  let tt := s.tt
  let period := per256 s * 256
  let s := { s with tt := { tt with
    ctl := overlay tt.ctlNext tt.ctl, cls := overlay tt.clsNext tt.cls, ctlNext := [], clsNext := []
    period := period, nextBoundary := s.cycle + period, periods := tt.periods + 1 } }
  { s with tt := { s.tt with budgets := carryOver s tt.budgets, lentOut := [] } }

/-! ### Rebalance (R190) -/

/-- The eligible items of a Sett. -/
def eligibles (floor : Int) (t : Sett) : Tab Item := t.items.filter fun e => itemEligible floor e.2

/-- R190. The greatest gain among the eligible items of a Sett, or FLOOR. -/
def topOf (floor : Int) (t : Sett) : Int := ((bestItem floor t.items).map (·.2.gain)).getD floor

/-- Inserts an item into a list in order of descending gain, then ascending index. -/
def gainInsert (e : Nat × Item) : List (Nat × Item) → List (Nat × Item)
  | [] => [e]
  | f :: t => if f.2.gain < e.2.gain ∨ (f.2.gain = e.2.gain ∧ e.1 < f.1) then e :: f :: t else f :: gainInsert e t

/-- Of the dies of a launch with their tops, the one that no other precedes; the lower number among equals. -/
def extreme (less : Int → Int → Bool) : List (Nat × Int) → Option (Nat × Int)
  | [] => none
  | e :: t => match extreme less t with
    | some b => if less b.2 e.2 then some b else some e
    | none => some e

/-- R191. Whether moves of a launch remain to be replayed. -/
def movesRemain (s : State) (lid : Nat) : Bool :=
  s.tm.logs.any fun g => g.lid == lid && g.replay.any fun r => r.kind == 0x02

/-- R190. The donor, the receiver, and the items that move. -/
def transferOf (s : State) (l : Launch) : Option (Nat × Nat × List Nat) :=
  let dies := (List.range l.sdies).map (· + l.sdie0)
  let tops := dies.filterMap fun d => (tget s.tm.setts (settKey l.lid d)).map fun t => (d, topOf l.floor t)
  match extreme (fun a b => decide (b < a)) tops, extreme (fun a b => decide (a < b)) tops with
  | some (donor, hi), some (receiver, lo) =>
    let items (d : Nat) : Tab Item := ((tget s.tm.setts (settKey l.lid d)).map (eligibles l.floor)).getD []
    if 0 < hi ∧ (lo * 2 ^ l.fshift < hi ∨ (items receiver).isEmpty) ∧ donor ≠ receiver then
      some (donor, receiver, (((items donor).foldl (fun t e => gainInsert e t) []).take l.moveMax).map (·.1))
    else none
  | _, _ => none

/-- R190, R191. Zitrum rebalances a gain launch: none while moves remain to be replayed, nor from a die whose log is not
exhausted. -/
def rebalance (s : State) (l : Launch) : State :=
  if modeGain l.mode ∧ l.filled ∧ l.fshift ≠ 0 ∧ ¬ movesRemain s l.lid then
    match transferOf s l with
    | some (donor, receiver, i :: is) =>
      if replaying s l.lid donor then s else settMove s l.lid donor receiver (i :: is) true
    | some (_, _, []) => s
    | none => s
  else s

/-! ### The boundary -/

/-- R207. Whether a launch has teams waiting, and no die left that they may be placed on. -/
def unbudgeted (s : State) (l : Launch) : Bool :=
  mayRun l && (decide (l.nextTeam < l.nteams) || !l.skipped.isEmpty || s.tm.waiting.any fun w => w.lid == l.lid) &&
    (List.range 16).all fun d =>
      !clsV s d l.comp || (modeGain l.mode && (decide (d < l.sdie0) || decide (l.sdie0 + l.sdies ≤ d)))

/-- R190, R207, R226, R174. What Zitrum does at a boundary. -/
def zitrumPeriod (s : State) : State :=
  if ¬ s.rt.zitrum then s
  else
    let lids := s.tm.launches.map (·.1)
    let s := lids.foldl (fun t n => match tget t.tm.launches n with
      | some l =>
        let t := rebalance t l
        let t := if modeDet l.mode ∧ mayRun l then divergeCheck t n else t
        if unbudgeted t l then t.after t.cycle false .teamEnd { a := n, c := 5, d := 2 } else t
      | none => t) s
    placementRun s

/-- R206, R234. A boundary: the Timetable's registers, then the switch of a staged image, then Zitrum's work. -/
def periodBoundary (s : State) : State := zitrumPeriod (handSwitch (newPeriod s))

/-- The meaning of TIMETABLE_PERIOD_BOUNDARY. -/
def execTimetablePeriodBoundary (s : State) : Host.Outcome State Fault Refusal := .next (periodBoundary s)

end Sys2Proof.Machine
end

