-- ==== Sys2Proof/Machine/Vx.lean ====
section
/-! DEFINITION. The `vx` operations (R345 to R350): lanewise arithmetic in the type of `vx.ty`, latency 4, or 6
for the fused forms and the dot products. -/

namespace Sys2Proof.Machine

/-- Flags that rounding and NaNs set. -/
def fRound : Flags := fINX ||| fUNF ||| fOVF ||| fINV

/-- R347. A lane read as the integer of an integer TYPE. -/
def laneInt (x : VArg) (c : Nat) : Int := decodeInt x.ty c

/-- The w-bit code of an integer, wrapped. -/
def wrapInt (x : VArg) (i : Int) : Nat × Flags := (encodeInt x.w i, 0)

/-- R347. An integer limited to the range of TYPE. -/
def satInt (x : VArg) (i : Int) : Nat × Flags :=
  let l := limitInt x.ty i
  (encodeInt x.w l.1, l.2)

/-- R345. A floating-point lane from its operands and the addends of its exact result. -/
def fpLane (x : VArg) (k : Nat) (operands terms : List Num) : Nat × Flags :=
  match fpOf x.ty with
  | some f => fplane f (x.rndAt k) operands terms
  | none => (0, 0)

/-- R345. A lane that is floating-point or integer by TYPE. -/
def fpOrInt (x : VArg) (f i : Nat × Flags) : Nat × Flags := if clsP x.ty then f else i

/-- The value of a code in TYPE. -/
def laneNum (x : VArg) (c : Nat) : Num := decodeElem x.ty c

/-- R346. A sum of two lanes. -/
def addLane (x : VArg) (k a v : Nat) (neg : Bool) : Nat × Flags :=
  let p := laneNum x a
  let q := laneNum x v
  fpOrInt x (fpLane x k [p, q] [p, if neg then q.negate else q])
    (wrapInt x (if neg then laneInt x a - laneInt x v else laneInt x a + laneInt x v))

/-- R345. ±(a × b) ± v, rounded once. -/
def fusedLane (x : VArg) (k a b v : Nat) (negP negV : Bool) : Nat × Flags :=
  let p := laneNum x a
  let q := laneNum x b
  let r := laneNum x v
  let pr := p.mul q
  fpLane x k [p, q, r] [if negP then pr.negate else pr, if negV then r.negate else r]

/-- R346. A NaN lane becomes the canonical NaN; any other lane keeps `c`. -/
def signLane (x : VArg) (src c : Nat) : Nat × Flags :=
  let n := laneNum x src
  if n.isNan then ((match fpOf x.ty with | some f => f.nanCode | none => 0), flagIf n.isSig fINV) else (c, 0)

/-- The sign bit of a lane, and the lane without it. -/
def signBit (x : VArg) (c : Nat) : Nat := c / 2 ^ (x.w - 1) % 2
def magBitsOf (x : VArg) (c : Nat) : Nat := c % 2 ^ (x.w - 1)

/-- R346. |a - v|, exact and rounded once; its one addend is the magnitude, so an exact zero is +0
(assumption 12). -/
def absdLane (x : VArg) (k a v : Nat) : Nat × Flags :=
  let p := laneNum x a
  let q := (laneNum x v).negate
  fpOrInt x
    (if p.isNan || q.isNan || p.isInf || q.isInf then
      match p, q with
      | .inf s, .inf t => if s = t then fpLane x k [p, q] [.inf false] else fpLane x k [p, q] [p, q]
      | .inf _, .fin _ _ _ => fpLane x k [p, q] [.inf false]
      | .fin _ _ _, .inf _ => fpLane x k [p, q] [.inf false]
      | _, _ => fpLane x k [p, q] [p, q]
    else
      let s := sumFin [p, q]
      fpLane x k [p, q] [.fin false s.1.natAbs s.2])
    (wrapInt x ((laneInt x a - laneInt x v).natAbs : Int))

/-- R349. A lane mask. -/
def maskLane (x : VArg) (c : Bool) : Nat := if c then 2 ^ x.w - 1 else 0

/-- R349. INV of a compare: a signalling NaN among its lanes. -/
def cmpFlag (x : VArg) (a v : Nat) : Flags := flagIf ((laneNum x a).isSig || (laneNum x v).isSig) fINV

/-- R349. Whether two values that are no NaN are equal, -0 equal to +0, and whether one is below the other. -/
def numEq (a b : Num) : Bool := (a.isZero && b.isZero) || (!numLt a b && !numLt b a)
def numBelow (a b : Num) : Bool := !(a.isZero && b.isZero) && numLt a b

/-- R349. A compare of values: `nan` is its result when a lane is a NaN. -/
def cmpLane (x : VArg) (a v : Nat) (nan : Bool) (f : Num → Num → Bool) : Nat × Flags :=
  let p := laneNum x a
  let q := laneNum x v
  (maskLane x (if p.isNan || q.isNan then nan else f p q), cmpFlag x a v)

/-- R349. A compare of the unsigned patterns. -/
def patLane (x : VArg) (a v : Nat) (c : Bool) : Nat × Flags := (maskLane x c, cmpFlag x a v)

/-- R348. sar of a lane. -/
def sarLane (x : VArg) (a v : Nat) : Nat :=
  if x.w ≤ v then (if signBit x a = 1 then 2 ^ x.w - 1 else 0) else encodeInt x.w (sextInt a x.w / 2 ^ v)

/-- R350. A byte of `dot4`. -/
def dotByte (x : VArg) (c : Nat) : Int := decodeInt x.ty c

/-- R350. dot4: each 32-bit lane of value plus its four byte products, modulo 2^32. -/
def dot4 (x : VArg) : Nat × Flags :=
  laneLoop 32 (fun _ a b _ v =>
    let p (j : Nat) : Int := dotByte x (a / 256 ^ j % 256) * dotByte x (b / 256 ^ j % 256)
    (encodeInt 32 (sextInt v 32 + p 0 + p 1 + p 2 + p 3), 0)) 64 0 x.a x.b 0 x.v

/-- R350. dot2: each FP32 lane of value plus its two 16-bit products, rounded once. -/
def dot2 (x : VArg) : Nat × Flags :=
  laneLoop 32 (fun k a b _ v =>
    let d (c : Nat) : Num := decodeElem x.ty (c % 2 ^ 16)
    let c := decodeFp .fp32 v
    let a0 := d a
    let b0 := d b
    let a1 := d (a / 2 ^ 16)
    let b1 := d (b / 2 ^ 16)
    fplane .fp32 (x.rndAt k) [a0, b0, a1, b1, c] [a0.mul b0, a1.mul b1, c]) 64 0 x.a x.b 0 x.v

/-- R346. a + v. -/
def opVxAdd : Op := opVec 6 4 { cls := some clsFI, rnd := rndFI, able := fRound }
  (lanewise fun x k a _ _ v => addLane x k a v false)

/-- The meaning of `vx.add`. -/
def execVxAdd (m : Mv) (s : State) : Host.Outcome State Fault Refusal := issueOne m (.trig opVxAdd) s

/-- R346. a − v. -/
def opVxSub : Op := opVec 6 4 { cls := some clsFI, rnd := rndFI, able := fRound }
  (lanewise fun x k a _ _ v => addLane x k a v true)

/-- The meaning of `vx.sub`. -/
def execVxSub (m : Mv) (s : State) : Host.Outcome State Fault Refusal := issueOne m (.trig opVxSub) s

/-- R346. a × v. -/
def opVxMul : Op := opVec 6 4 { cls := some clsFI, rnd := rndFI, able := fRound }
  (lanewise fun x k a _ _ v =>
    fpOrInt x (fpLane x k [laneNum x a, laneNum x v] [(laneNum x a).mul (laneNum x v)])
      (wrapInt x (laneInt x a * laneInt x v)))

/-- The meaning of `vx.mul`. -/
def execVxMul (m : Mv) (s : State) : Host.Outcome State Fault Refusal := issueOne m (.trig opVxMul) s

/-- R346. a × b + v. -/
def opVxFma : Op := opVec 6 6 { cls := some clsF, rnd := fun _ => true, able := fRound }
  (lanewise fun x k a b _ v => fusedLane x k a b v false false)

/-- The meaning of `vx.fma`. -/
def execVxFma (m : Mv) (s : State) : Host.Outcome State Fault Refusal := issueOne m (.trig opVxFma) s

/-- R346. a × b − v. -/
def opVxFms : Op := opVec 6 6 { cls := some clsF, rnd := fun _ => true, able := fRound }
  (lanewise fun x k a b _ v => fusedLane x k a b v false true)

/-- The meaning of `vx.fms`. -/
def execVxFms (m : Mv) (s : State) : Host.Outcome State Fault Refusal := issueOne m (.trig opVxFms) s

/-- R346. −(a × b) + v. -/
def opVxFnma : Op := opVec 6 6 { cls := some clsF, rnd := fun _ => true, able := fRound }
  (lanewise fun x k a b _ v => fusedLane x k a b v true false)

/-- The meaning of `vx.fnma`. -/
def execVxFnma (m : Mv) (s : State) : Host.Outcome State Fault Refusal := issueOne m (.trig opVxFnma) s

/-- R346. R74 minimum of a and v. -/
def opVxMin : Op := opVec 6 4 { cls := some clsE, able := fINV }
  (lanewise fun x _ a _ _ v => extremeCode x.ty false a v)

/-- The meaning of `vx.min`. -/
def execVxMin (m : Mv) (s : State) : Host.Outcome State Fault Refusal := issueOne m (.trig opVxMin) s

/-- R346. R74 maximum of a and v. -/
def opVxMax : Op := opVec 6 4 { cls := some clsE, able := fINV }
  (lanewise fun x _ a _ _ v => extremeCode x.ty true a v)

/-- The meaning of `vx.max`. -/
def execVxMax (m : Mv) (s : State) : Host.Outcome State Fault Refusal := issueOne m (.trig opVxMax) s

/-- R346. |v|. -/
def opVxAbs : Op := opVec 6 4 { cls := some clsE, able := fINV }
  (lanewise fun x _ _ _ _ v => fpOrInt x (signLane x v (magBitsOf x v)) (wrapInt x ((laneInt x v).natAbs : Int)))

/-- The meaning of `vx.abs`. -/
def execVxAbs (m : Mv) (s : State) : Host.Outcome State Fault Refusal := issueOne m (.trig opVxAbs) s

/-- R346. −v. -/
def opVxNeg : Op := opVec 6 4 { cls := some clsE, able := fINV }
  (lanewise fun x _ _ _ _ v =>
    fpOrInt x (signLane x v (magBitsOf x v + (1 - signBit x v) * 2 ^ (x.w - 1))) (wrapInt x (-laneInt x v)))

/-- The meaning of `vx.neg`. -/
def execVxNeg (m : Mv) (s : State) : Host.Outcome State Fault Refusal := issueOne m (.trig opVxNeg) s

/-- R346. a + v, limited to the range of TYPE. -/
def opVxAddsat : Op := opVec 6 4 { cls := some clsI, able := fSAT }
  (lanewise fun x _ a _ _ v => satInt x (laneInt x a + laneInt x v))

/-- The meaning of `vx.addsat`. -/
def execVxAddsat (m : Mv) (s : State) : Host.Outcome State Fault Refusal := issueOne m (.trig opVxAddsat) s

/-- R346. a − v, limited. -/
def opVxSubsat : Op := opVec 6 4 { cls := some clsI, able := fSAT }
  (lanewise fun x _ a _ _ v => satInt x (laneInt x a - laneInt x v))

/-- The meaning of `vx.subsat`. -/
def execVxSubsat (m : Mv) (s : State) : Host.Outcome State Fault Refusal := issueOne m (.trig opVxSubsat) s

/-- R346. High w bits of the 2w-bit product. -/
def opVxMulhi : Op := opVec 6 4 { cls := some clsI }
  (lanewise fun x _ a _ _ v => wrapInt x ((laneInt x a * laneInt x v).fdiv (2 ^ x.w)))

/-- The meaning of `vx.mulhi`. -/
def execVxMulhi (m : Mv) (s : State) : Host.Outcome State Fault Refusal := issueOne m (.trig opVxMulhi) s

/-- R346. Bitwise and over 256 bytes. -/
def opVxAnd : Op := opVec 6 4 { cls := none }
  (fun x => (x.a &&& x.v, 0))

/-- The meaning of `vx.and`. -/
def execVxAnd (m : Mv) (s : State) : Host.Outcome State Fault Refusal := issueOne m (.trig opVxAnd) s

/-- R346. Bitwise or. -/
def opVxOr : Op := opVec 6 4 { cls := none }
  (fun x => (x.a ||| x.v, 0))

/-- The meaning of `vx.or`. -/
def execVxOr (m : Mv) (s : State) : Host.Outcome State Fault Refusal := issueOne m (.trig opVxOr) s

/-- R346. Bitwise exclusive or. -/
def opVxXor : Op := opVec 6 4 { cls := none }
  (fun x => (Nat.xor x.a x.v, 0))

/-- The meaning of `vx.xor`. -/
def execVxXor (m : Mv) (s : State) : Host.Outcome State Fault Refusal := issueOne m (.trig opVxXor) s

/-- R346. a and not v. -/
def opVxAndn : Op := opVec 6 4 { cls := none }
  (fun x => (x.a - (x.a &&& x.v), 0))

/-- The meaning of `vx.andn`. -/
def execVxAndn (m : Mv) (s : State) : Host.Outcome State Fault Refusal := issueOne m (.trig opVxAndn) s

/-- R348. -/
def opVxShl : Op := opVec 6 4 { cls := some clsI }
  (lanewise fun x _ a _ _ v => (if x.w ≤ v then 0 else a * 2 ^ v, 0))

/-- The meaning of `vx.shl`. -/
def execVxShl (m : Mv) (s : State) : Host.Outcome State Fault Refusal := issueOne m (.trig opVxShl) s

/-- R348. -/
def opVxShr : Op := opVec 6 4 { cls := some clsI }
  (lanewise fun x _ a _ _ v => (if x.w ≤ v then 0 else a / 2 ^ v, 0))

/-- The meaning of `vx.shr`. -/
def execVxShr (m : Mv) (s : State) : Host.Outcome State Fault Refusal := issueOne m (.trig opVxShr) s

/-- R348. -/
def opVxSar : Op := opVec 6 4 { cls := some clsI }
  (lanewise fun x _ a _ _ v => (sarLane x a v, 0))

/-- The meaning of `vx.sar`. -/
def execVxSar (m : Mv) (s : State) : Host.Outcome State Fault Refusal := issueOne m (.trig opVxSar) s

/-- R349. All ones if a = v. -/
def opVxCeq : Op := opVec 6 4 { cls := some clsE, able := fINV }
  (lanewise fun x _ a _ _ v => cmpLane x a v false numEq)

/-- The meaning of `vx.ceq`. -/
def execVxCeq (m : Mv) (s : State) : Host.Outcome State Fault Refusal := issueOne m (.trig opVxCeq) s

/-- R349. All ones if a differs from v. -/
def opVxCne : Op := opVec 6 4 { cls := some clsE, able := fINV }
  (lanewise fun x _ a _ _ v => cmpLane x a v true fun p q => !numEq p q)

/-- The meaning of `vx.cne`. -/
def execVxCne (m : Mv) (s : State) : Host.Outcome State Fault Refusal := issueOne m (.trig opVxCne) s

/-- R349. All ones if a < v. -/
def opVxClt : Op := opVec 6 4 { cls := some clsE, able := fINV }
  (lanewise fun x _ a _ _ v => cmpLane x a v false numBelow)

/-- The meaning of `vx.clt`. -/
def execVxClt (m : Mv) (s : State) : Host.Outcome State Fault Refusal := issueOne m (.trig opVxClt) s

/-- R349. All ones if a ≤ v. -/
def opVxCle : Op := opVec 6 4 { cls := some clsE, able := fINV }
  (lanewise fun x _ a _ _ v => cmpLane x a v false fun p q => numBelow p q || numEq p q)

/-- The meaning of `vx.cle`. -/
def execVxCle (m : Mv) (s : State) : Host.Outcome State Fault Refusal := issueOne m (.trig opVxCle) s

/-- R349. All ones if a < v as patterns. -/
def opVxCltu : Op := opVec 6 4 { cls := some clsE, able := fINV }
  (lanewise fun x _ a _ _ v => patLane x a v (decide (a < v)))

/-- The meaning of `vx.cltu`. -/
def execVxCltu (m : Mv) (s : State) : Host.Outcome State Fault Refusal := issueOne m (.trig opVxCltu) s

/-- R349. All ones if a ≤ v as patterns. -/
def opVxCleu : Op := opVec 6 4 { cls := some clsE, able := fINV }
  (lanewise fun x _ a _ _ v => patLane x a v (decide (a ≤ v)))

/-- The meaning of `vx.cleu`. -/
def execVxCleu (m : Mv) (s : State) : Host.Outcome State Fault Refusal := issueOne m (.trig opVxCleu) s

/-- R346. a where m differs from 0, else v. -/
def opVxSel : Op := opVec 6 4 { cls := some clsE }
  (lanewise fun _ _ a _ m v => (if m = 0 then v else a, 0))

/-- The meaning of `vx.sel`. -/
def execVxSel (m : Mv) (s : State) : Host.Outcome State Fault Refusal := issueOne m (.trig opVxSel) s

/-- R346. min(max(v, a), b). -/
def opVxClamp : Op := opVec 6 4 { cls := some clsE, able := fINV }
  (lanewise fun x _ a b _ v =>
    let p := extremeCode x.ty true v a
    let q := extremeCode x.ty false p.1 b
    (q.1, p.2 ||| q.2))

/-- The meaning of `vx.clamp`. -/
def execVxClamp (m : Mv) (s : State) : Host.Outcome State Fault Refusal := issueOne m (.trig opVxClamp) s

/-- R346. Magnitude of a, sign of v. A signalling NaN in v alone sets no flag (assumption 133). -/
def opVxCopysign : Op := opVec 6 4 { cls := some clsP, able := fINV }
  (lanewise fun x _ a _ _ v => signLane x a (magBitsOf x a + signBit x v * 2 ^ (x.w - 1)))

/-- The meaning of `vx.copysign`. -/
def execVxCopysign (m : Mv) (s : State) : Host.Outcome State Fault Refusal := issueOne m (.trig opVxCopysign) s

/-- R346. |a − v|. -/
def opVxAbsd : Op := opVec 6 4 { cls := some clsFI, rnd := rndFI, able := fRound }
  (lanewise fun x k a _ _ v => absdLane x k a v)

/-- The meaning of `vx.absd`. -/
def execVxAbsd (m : Mv) (s : State) : Host.Outcome State Fault Refusal := issueOne m (.trig opVxAbsd) s

/-- R346. Set bits of v. -/
def opVxPopc : Op := opVec 6 4 { cls := some clsE }
  (lanewise fun x _ _ _ _ v => (popBelow v x.w, 0))

/-- The meaning of `vx.popc`. -/
def execVxPopc (m : Mv) (s : State) : Host.Outcome State Fault Refusal := issueOne m (.trig opVxPopc) s

/-- R346. floor((a + v + 1) / 2). -/
def opVxAvg : Op := opVec 6 4 { cls := some clsI }
  (lanewise fun x _ a _ _ v => wrapInt x ((laneInt x a + laneInt x v + 1).fdiv 2))

/-- The meaning of `vx.avg`. -/
def execVxAvg (m : Mv) (s : State) : Host.Outcome State Fault Refusal := issueOne m (.trig opVxAvg) s

/-- R346. Lane 0 of v. -/
def opVxBcast : Op := opVec 6 4 { cls := some clsE }
  (lanewise fun x _ _ _ _ _ => (x.v % 2 ^ x.w, 0))

/-- The meaning of `vx.bcast`. -/
def execVxBcast (m : Mv) (s : State) : Host.Outcome State Fault Refusal := issueOne m (.trig opVxBcast) s

/-- R346. Lane 0 of v, plus k. -/
def opVxIota : Op := opVec 6 4 { cls := some clsFI, rnd := rndFI, able := fRound }
  (lanewise fun x k _ _ _ _ =>
    let c := x.v % 2 ^ x.w
    fpOrInt x (fpLane x k [laneNum x c] [laneNum x c, Num.ofInt k]) (wrapInt x (laneInt x c + k)))

/-- The meaning of `vx.iota`. -/
def execVxIota (m : Mv) (s : State) : Host.Outcome State Fault Refusal := issueOne m (.trig opVxIota) s

/-- R350. -/
def opVxDot4 : Op := opVec 6 6 { cls := some fun t => t == 0x9 || t == 0xA }
  (dot4)

/-- The meaning of `vx.dot4`. -/
def execVxDot4 (m : Mv) (s : State) : Host.Outcome State Fault Refusal := issueOne m (.trig opVxDot4) s

/-- R350. -/
def opVxDot2 : Op := opVec 6 6 { cls := some fun t => t == 0x6 || t == 0x7, rnd := fun _ => true, able := fRound }
  (dot2)

/-- The meaning of `vx.dot2`. -/
def execVxDot2 (m : Mv) (s : State) : Host.Outcome State Fault Refusal := issueOne m (.trig opVxDot2) s

end Sys2Proof.Machine
end

