-- ==== Sys2Proof/Machine/Vs.lean ====
section
/-! DEFINITION. The `vs` operations (R351 to R355): lookup, funnel shifts, permutations, conversions,
reductions; latency 6. -/

namespace Sys2Proof.Machine

/-- Lanes of `.a`, of value, of `.b` and of `.m`. -/
def VArg.la (x : VArg) : List Nat := lanesOf x.w x.len x.a
def VArg.lv (x : VArg) : List Nat := lanesOf x.w x.len x.v
def VArg.lb (x : VArg) : List Nat := lanesOf x.w x.len x.b
def VArg.lm (x : VArg) : List Nat := lanesOf x.w x.len x.m

/-- Lane i of a list of lanes. -/
def nth (l : List Nat) (i : Nat) : Nat := l.getD i 0

/-- The result whose lane k is `g k`. -/
def genLanes (x : VArg) (g : Nat → Nat) : Nat × Flags := (joinLanes x.w ((List.range x.len).map g), 0)

/-- R351. lut3: bit i is bit 4a + 2b + c of value[7:0]. -/
def lut3 (x : VArg) : Nat × Flags :=
  let full := 2 ^ 2048 - 1
  let pick (v : Nat) (on : Bool) : Nat := if on then v else Nat.xor v full
  let term (p : Nat) : Nat :=
    if x.v.testBit p then
      pick x.a (p.testBit 2) &&& pick x.b (p.testBit 1) &&& pick x.c (p.testBit 0)
    else 0
  (term 0 ||| term 1 ||| term 2 ||| term 3 ||| term 4 ||| term 5 ||| term 6 ||| term 7, 0)

/-- R351. The lanes of value where the mask lane differs from 0, in order. -/
def packed : List Nat → List Nat → List Nat
  | m :: ms, v :: vs => if m = 0 then packed ms vs else v :: packed ms vs
  | [], _ => []
  | _ :: _, [] => []

/-- R351. Lanes of value handed in order to the lanes where the mask differs from 0. -/
def spread : List Nat → List Nat → List Nat
  | [], _ => []
  | m :: ms, vs => if m = 0 then 0 :: spread ms vs else vs.headD 0 :: spread ms vs.tail

/-- R352. Conversion of n elements from STYPE to TYPE. -/
def cvtLoop (x : VArg) : Nat → Nat → Nat → Nat × Flags
  | 0, _, _ => (0, 0)
  | n + 1, k, v =>
    let r := convertElem x.sty x.ty (x.rndAt k) (v % 2 ^ tyBits x.sty)
    let t := cvtLoop x n (k + 1) (v / 2 ^ tyBits x.sty)
    (r.1 % 2 ^ x.w + t.1 * 2 ^ x.w, r.2 ||| t.2)

/-- R353. Blocks of a conversion laid out as `ls.stvh` stores them: elements low, scales from byte 128. -/
def blockImage (ew : Nat) (bs : List Block) : Nat × Flags :=
  (joinLanes ew (bs.flatMap (·.elems)) + joinLanes 8 (bs.map (·.scale)) * 2 ^ 1024,
    bs.foldl (fun f b => f ||| b.flags) 0)

/-- R353. The values of STYPE in groups of n, with the index of each group's first element. -/
def groups (x : VArg) (n : Nat) : List (Nat × List Num) :=
  let ws := tyBits x.sty
  let all := (lanesOf ws (2048 / ws) x.v).map (decodeElem x.sty)
  (List.range (2048 / ws / n)).map fun j => (j * n, (all.drop (j * n)).take n)

/-- R353, R48. cvtzb4 with the band in `.b`[15:0]. -/
def cvtzb4 (x : VArg) : Nat × Flags :=
  blockImage 4 ((groups x 8).map fun g => toZb4 (x.rndAt g.1) (x.b % 2 ^ 16) g.2)

/-- R353, R49. cvtmx to TYPE. -/
def cvtmx (x : VArg) : Nat × Flags :=
  blockImage (tyBits x.ty) ((groups x 32).map fun g => toMx x.ty (x.rndAt g.1) g.2)

/-- R354. redsum: integers exact and limited; FP lanes without the -0 lanes, rounded once. -/
def redsum (x : VArg) : Nat × Flags :=
  match fpOf x.ty with
  | some f =>
    let present := (x.lv.map (laneNum x)).filter fun n => !(n.isZero && n.neg?)
    if present.isEmpty then (0, 0) else fplane f (x.rndAt 0) present present
  | none => satInt x (x.lv.foldl (fun t c => t + laneInt x c) 0)

/-- R354, R74. The extreme of all lanes. -/
def redExtreme (mx : Bool) (x : VArg) : Nat × Flags :=
  match x.lv with
  | [] => (0, 0)
  | c :: t =>
    let first := extremeCode x.ty mx c c
    t.foldl (fun r d => let q := extremeCode x.ty mx r.1 d; (q.1, r.2 ||| q.2)) first

/-- R355. scan from a running code, element index k. -/
def scanLoop (x : VArg) : Nat → Nat → List Nat → List Nat × Flags
  | _, _, [] => ([], 0)
  | run, k, c :: t =>
    let r := fpOrInt x (fpLane x k [laneNum x run, laneNum x c] [laneNum x run, laneNum x c])
      (satInt x (laneInt x run + laneInt x c))
    let q := scanLoop x r.1 (k + 1) t
    (r.1 :: q.1, r.2 ||| q.2)

/-- R355. scan. -/
def scan (x : VArg) : Nat × Flags :=
  match x.lv with
  | [] => (0, 0)
  | c :: t =>
    let r := fpOrInt x (fpLane x 0 [laneNum x c] [laneNum x c]) (c, 0)
    let q := scanLoop x r.1 1 t
    (joinLanes x.w (r.1 :: q.1), r.2 ||| q.2)

/-- R351. Bitwise function of three inputs. -/
def opVsLut3 : Op := opVec 7 6 { cls := none }
  (lut3)

/-- The meaning of `vs.lut3`. -/
def execVsLut3 (m : Mv) (s : State) : Host.Outcome State Fault Refusal := issueOne m (.trig opVsLut3) s

/-- R351. Funnel shift left per lane. -/
def opVsFsl : Op := opVec 7 6 { cls := some clsI }
  (lanewise fun x _ a b _ _ => let s := x.n % x.w; (a * 2 ^ s ||| b / 2 ^ (x.w - s), 0))

/-- The meaning of `vs.fsl`. -/
def execVsFsl (m : Mv) (s : State) : Host.Outcome State Fault Refusal := issueOne m (.trig opVsFsl) s

/-- R351. Funnel shift right per lane. -/
def opVsFsr : Op := opVec 7 6 { cls := some clsI }
  (lanewise fun x _ a b _ _ => let s := x.n % x.w; (b / 2 ^ s ||| a * 2 ^ (x.w - s), 0))

/-- The meaning of `vs.fsr`. -/
def execVsFsr (m : Mv) (s : State) : Host.Outcome State Fault Refusal := issueOne m (.trig opVsFsr) s

/-- R351. Lanes of `.a` rotated toward higher indices. -/
def opVsVrot : Op := opVec 7 6 { cls := some clsE }
  (fun x => genLanes x fun k => nth x.la ((k + x.len - x.n % x.len) % x.len))

/-- The meaning of `vs.vrot`. -/
def execVsVrot (m : Mv) (s : State) : Host.Outcome State Fault Refusal := issueOne m (.trig opVsVrot) s

/-- R351. Lanes moved up with zero fill. -/
def opVsVshl : Op := opVec 7 6 { cls := some clsE }
  (fun x => genLanes x fun k => if x.n ≤ k then nth x.la (k - x.n) else 0)

/-- The meaning of `vs.vshl`. -/
def execVsVshl (m : Mv) (s : State) : Host.Outcome State Fault Refusal := issueOne m (.trig opVsVshl) s

/-- R351. Lanes moved down with zero fill. -/
def opVsVshr : Op := opVec 7 6 { cls := some clsE }
  (fun x => genLanes x fun k => if k + x.n < x.len then nth x.la (k + x.n) else 0)

/-- The meaning of `vs.vshr`. -/
def execVsVshr (m : Mv) (s : State) : Host.Outcome State Fault Refusal := issueOne m (.trig opVsVshr) s

/-- R351. Lane k := lane (lane k of value mod L) of `.a`. -/
def opVsPerm : Op := opVec 7 6 { cls := some clsE }
  (fun x => genLanes x fun k => nth x.la (nth x.lv k % x.len))

/-- The meaning of `vs.perm`. -/
def execVsPerm (m : Mv) (s : State) : Host.Outcome State Fault Refusal := issueOne m (.trig opVsPerm) s

/-- R351. Byte k := byte (byte k of value) of `.a`. -/
def opVsBperm : Op := opVec 7 6 { cls := none }
  (fun x =>
    let a := lanesOf 8 256 x.a
    (joinLanes 8 ((lanesOf 8 256 x.v).map (nth a)), 0))

/-- The meaning of `vs.bperm`. -/
def execVsBperm (m : Mv) (s : State) : Host.Outcome State Fault Refusal := issueOne m (.trig opVsBperm) s

/-- R351. Selected lanes of value packed low. -/
def opVsCompress : Op := opVec 7 6 { cls := some clsE }
  (fun x => (joinLanes x.w (packed x.lm x.lv), 0))

/-- The meaning of `vs.compress`. -/
def execVsCompress (m : Mv) (s : State) : Host.Outcome State Fault Refusal := issueOne m (.trig opVsCompress) s

/-- R351. Lanes of value spread to the selected lanes. -/
def opVsExpand : Op := opVec 7 6 { cls := some clsE }
  (fun x => (joinLanes x.w (spread x.lm x.lv), 0))

/-- The meaning of `vs.expand`. -/
def execVsExpand (m : Mv) (s : State) : Host.Outcome State Fault Refusal := issueOne m (.trig opVsExpand) s

/-- R352. -/
def opVsCvt : Op := opVec 7 6 { cls := some clsE, scls := some clsE, rnd := fun _ => true, able := fRound ||| fSAT }
  (fun x => cvtLoop x (2048 / max (tyBits x.sty) x.w) 0 x.v)

/-- The meaning of `vs.cvt`. -/
def execVsCvt (m : Mv) (s : State) : Host.Outcome State Fault Refusal := issueOne m (.trig opVsCvt) s

/-- R353. -/
def opVsCvtzb4 : Op := opVec 7 6 { cls := none, scls := some clsF, rnd := fun _ => true, able := fRound }
  (cvtzb4)

/-- The meaning of `vs.cvtzb4`. -/
def execVsCvtzb4 (m : Mv) (s : State) : Host.Outcome State Fault Refusal := issueOne m (.trig opVsCvtzb4) s

/-- R353. -/
def opVsCvtmx : Op := opVec 7 6 { cls := some fun t => t == 0x1 || t == 0x2 || t == 0x3, scls := some clsF, rnd := fun _ => true, able := fRound }
  (cvtmx)

/-- The meaning of `vs.cvtmx`. -/
def execVsCvtmx (m : Mv) (s : State) : Host.Outcome State Fault Refusal := issueOne m (.trig opVsCvtmx) s

/-- R354. -/
def opVsRedsum : Op := opVec 7 6 { cls := some clsFI, rnd := rndFI, able := fRound ||| fSAT }
  (redsum)

/-- The meaning of `vs.redsum`. -/
def execVsRedsum (m : Mv) (s : State) : Host.Outcome State Fault Refusal := issueOne m (.trig opVsRedsum) s

/-- R354. -/
def opVsRedmax : Op := opVec 7 6 { cls := some clsE, able := fINV }
  (redExtreme true)

/-- The meaning of `vs.redmax`. -/
def execVsRedmax (m : Mv) (s : State) : Host.Outcome State Fault Refusal := issueOne m (.trig opVsRedmax) s

/-- R354. -/
def opVsRedmin : Op := opVec 7 6 { cls := some clsE, able := fINV }
  (redExtreme false)

/-- The meaning of `vs.redmin`. -/
def execVsRedmin (m : Mv) (s : State) : Host.Outcome State Fault Refusal := issueOne m (.trig opVsRedmin) s

/-- R351. Bitwise and of all lanes. -/
def opVsRedand : Op := opVec 7 6 { cls := some clsI }
  (fun x => (x.lv.foldl (fun t c => t &&& c) (2 ^ x.w - 1), 0))

/-- The meaning of `vs.redand`. -/
def execVsRedand (m : Mv) (s : State) : Host.Outcome State Fault Refusal := issueOne m (.trig opVsRedand) s

/-- R351. Bitwise or of all lanes. -/
def opVsRedor : Op := opVec 7 6 { cls := some clsI }
  (fun x => (x.lv.foldl (fun t c => t ||| c) 0, 0))

/-- The meaning of `vs.redor`. -/
def execVsRedor (m : Mv) (s : State) : Host.Outcome State Fault Refusal := issueOne m (.trig opVsRedor) s

/-- R351. Bitwise exclusive or of all lanes. -/
def opVsRedxor : Op := opVec 7 6 { cls := some clsI }
  (fun x => (x.lv.foldl Nat.xor 0, 0))

/-- The meaning of `vs.redxor`. -/
def execVsRedxor (m : Mv) (s : State) : Host.Outcome State Fault Refusal := issueOne m (.trig opVsRedxor) s

/-- R351. Bit k := 1 where lane k of value differs from 0. -/
def opVsPack : Op := opVec 7 6 { cls := some clsE }
  (fun x => (joinLanes 1 (x.lv.map fun c => if c = 0 then 0 else 1), 0))

/-- The meaning of `vs.pack`. -/
def execVsPack (m : Mv) (s : State) : Host.Outcome State Fault Refusal := issueOne m (.trig opVsPack) s

/-- R351. Lane k := all ones where bit k of value is 1. -/
def opVsUnpack : Op := opVec 7 6 { cls := some clsE }
  (fun x => genLanes x fun k => if x.v.testBit k then 2 ^ x.w - 1 else 0)

/-- The meaning of `vs.unpack`. -/
def execVsUnpack (m : Mv) (s : State) : Host.Outcome State Fault Refusal := issueOne m (.trig opVsUnpack) s

/-- R351. Lane k := lane (lane k of value mod 2L) of `.a` then `.b`. -/
def opVsTbl : Op := opVec 7 6 { cls := some clsE }
  (fun x => let t := x.la ++ x.lb; genLanes x fun k => nth t (nth x.lv k % (2 * x.len)))

/-- The meaning of `vs.tbl`. -/
def execVsTbl (m : Mv) (s : State) : Host.Outcome State Fault Refusal := issueOne m (.trig opVsTbl) s

/-- R355. -/
def opVsScan : Op := opVec 7 6 { cls := some clsFI, rnd := rndFI, able := fRound ||| fSAT }
  (scan)

/-- The meaning of `vs.scan`. -/
def execVsScan (m : Mv) (s : State) : Host.Outcome State Fault Refusal := issueOne m (.trig opVsScan) s

/-- R351. Lanes of `.a` and value interleaved. -/
def opVsZip : Op := opVec 7 6 { cls := some clsE }
  (fun x => genLanes x fun k => nth (if k % 2 = 0 then x.la else x.lv) (k / 2))

/-- The meaning of `vs.zip`. -/
def execVsZip (m : Mv) (s : State) : Host.Outcome State Fault Refusal := issueOne m (.trig opVsZip) s

/-- R351. Even lanes of `.a` then value. -/
def opVsUnzip : Op := opVec 7 6 { cls := some clsE }
  (fun x => let t := x.la ++ x.lv; genLanes x fun k => nth t (2 * k))

/-- The meaning of `vs.unzip`. -/
def execVsUnzip (m : Mv) (s : State) : Host.Outcome State Fault Refusal := issueOne m (.trig opVsUnzip) s

/-- R351. Lane n of `.a` in every lane. -/
def opVsBcastl : Op := opVec 7 6 { cls := some clsE }
  (fun x => genLanes x fun _ => nth x.la (x.n % x.len))

/-- The meaning of `vs.bcastl`. -/
def execVsBcastl (m : Mv) (s : State) : Host.Outcome State Fault Refusal := issueOne m (.trig opVsBcastl) s

/-- R351. Lane n of `.a`, zero-extended. -/
def opVsExtr : Op := opVec 7 6 { cls := some clsE }
  (fun x => (nth x.la (x.n % x.len), 0))

/-- The meaning of `vs.extr`. -/
def execVsExtr (m : Mv) (s : State) : Host.Outcome State Fault Refusal := issueOne m (.trig opVsExtr) s

/-- R351. `.a` with lane n := `.b`. -/
def opVsInsr : Op := opVec 7 6 { cls := some clsE }
  (fun x => genLanes x fun k => if k = x.n % x.len then x.b % 2 ^ x.w else nth x.la k)

/-- The meaning of `vs.insr`. -/
def execVsInsr (m : Mv) (s : State) : Host.Outcome State Fault Refusal := issueOne m (.trig opVsInsr) s

/-- R351. Lanes of value that differ from 0. -/
def opVsPcnt : Op := opVec 7 6 { cls := some clsE }
  (fun x => ((x.lv.filter fun c => c != 0).length, 0))

/-- The meaning of `vs.pcnt`. -/
def execVsPcnt (m : Mv) (s : State) : Host.Outcome State Fault Refusal := issueOne m (.trig opVsPcnt) s

/-- R351. Lanes in reverse order. -/
def opVsRev : Op := opVec 7 6 { cls := some clsE }
  (fun x => (joinLanes x.w x.lv.reverse, 0))

/-- The meaning of `vs.rev`. -/
def execVsRev (m : Mv) (s : State) : Host.Outcome State Fault Refusal := issueOne m (.trig opVsRev) s

end Sys2Proof.Machine
end

