-- ==== Sys2Proof/Machine/Route.lean ====
section
/-! DEFINITION. From a decoded move to what it does: the act of every move, and the rows that share the ports
`mx.call` and `sys.svc`, told apart by the trigger value (R357, R374, R411). -/

namespace Sys2Proof.Machine

/-- What a move does with its value; none for an event. -/
def actOf : Instr → Option Act
  | .moveRegister d _ => some (.reg d.toNat)
  | .operandPortWrite d _ => some (.opnd d.toNat)
  | .guardWrite d _ => some (.guard d.toNat)
  | .queuePush q _ => some (.queue q.toNat)
  | .moveNul _ => some .nul
  | .iaAdd u _ => some (.trig (opIaAdd u))
  | .iaSub u _ => some (.trig (opIaSub u))
  | .iaAnd u _ => some (.trig (opIaAnd u))
  | .iaOr u _ => some (.trig (opIaOr u))
  | .iaXor u _ => some (.trig (opIaXor u))
  | .iaAndn u _ => some (.trig (opIaAndn u))
  | .iaShl u _ => some (.trig (opIaShl u))
  | .iaShr u _ => some (.trig (opIaShr u))
  | .iaSar u _ => some (.trig (opIaSar u))
  | .iaRotl u _ => some (.trig (opIaRotl u))
  | .iaMin u _ => some (.trig (opIaMin u))
  | .iaMax u _ => some (.trig (opIaMax u))
  | .iaMinu u _ => some (.trig (opIaMinu u))
  | .iaMaxu u _ => some (.trig (opIaMaxu u))
  | .iaEq u _ => some (.trig (opIaEq u))
  | .iaNe u _ => some (.trig (opIaNe u))
  | .iaLt u _ => some (.trig (opIaLt u))
  | .iaLtu u _ => some (.trig (opIaLtu u))
  | .iaLe u _ => some (.trig (opIaLe u))
  | .iaLeu u _ => some (.trig (opIaLeu u))
  | .iaSel u _ => some (.trig (opIaSel u))
  | .iaExt u _ => some (.trig (opIaExt u))
  | .iaClz u _ => some (.trig (opIaClz u))
  | .iaPopc u _ => some (.trig (opIaPopc u))
  | .amAdd _ => some (.trig opAmAdd)
  | .amSub _ => some (.trig opAmSub)
  | .amMul _ => some (.trig opAmMul)
  | .amMulu _ => some (.trig opAmMulu)
  | .amMad _ => some (.trig opAmMad)
  | .amMadu _ => some (.trig opAmMadu)
  | .amLsa _ => some (.trig opAmLsa)
  | .amWrap _ => some (.trig opAmWrap)
  | .amWxs _ => some (.trig opAmWxs)
  | .amWxd _ => some (.trig opAmWxd)
  | .amWxv _ => some (.trig opAmWxv)
  | .amWxh _ => some (.trig opAmWxh)
  | .brJmp _ => some (.trig opBrJmp)
  | .brCall _ => some (.trig opBrCall)
  | .brRet _ => some (.trig opBrRet)
  | .brLoop _ => some (.trig opBrLoop)
  | .brJz _ => some (.trig opBrJz)
  | .brJnz _ => some (.trig opBrJnz)
  | .brJeq _ => some (.trig opBrJeq)
  | .brJne _ => some (.trig opBrJne)
  | .brJlt _ => some (.trig opBrJlt)
  | .brJge _ => some (.trig opBrJge)
  | .brJltu _ => some (.trig opBrJltu)
  | .brJgeu _ => some (.trig opBrJgeu)
  | .brLbrk _ => some (.trig opBrLbrk)
  | .brLkset _ => some (.trig opBrLkset)
  | .lsLd8 u _ => some (.trig (opLsLd8 (lsUnit u)))
  | .lsLd8s u _ => some (.trig (opLsLd8s (lsUnit u)))
  | .lsLd16 u _ => some (.trig (opLsLd16 (lsUnit u)))
  | .lsLd16s u _ => some (.trig (opLsLd16s (lsUnit u)))
  | .lsLd32 u _ => some (.trig (opLsLd32 (lsUnit u)))
  | .lsLd32s u _ => some (.trig (opLsLd32s (lsUnit u)))
  | .lsLd64 u _ => some (.trig (opLsLd64 (lsUnit u)))
  | .lsLd128 u _ => some (.trig (opLsLd128 (lsUnit u)))
  | .lsLdvh u _ => some (.trig (opLsLdvh (lsUnit u)))
  | .lsLdv u _ => some (.trig (opLsLdv (lsUnit u)))
  | .lsLdbc u _ => some (.trig (opLsLdbc (lsUnit u)))
  | .lsSt8 u _ => some (.trig (opLsSt8 (lsUnit u)))
  | .lsSt16 u _ => some (.trig (opLsSt16 (lsUnit u)))
  | .lsSt32 u _ => some (.trig (opLsSt32 (lsUnit u)))
  | .lsSt64 u _ => some (.trig (opLsSt64 (lsUnit u)))
  | .lsSt128 u _ => some (.trig (opLsSt128 (lsUnit u)))
  | .lsStvh u _ => some (.trig (opLsStvh (lsUnit u)))
  | .lsStv u _ => some (.trig (opLsStv (lsUnit u)))
  | .lsStvm u _ => some (.trig (opLsStvm (lsUnit u)))
  | .lsStz u _ => some (.trig (opLsStz (lsUnit u)))
  | .vxAdd _ => some (.trig opVxAdd)
  | .vxSub _ => some (.trig opVxSub)
  | .vxMul _ => some (.trig opVxMul)
  | .vxFma _ => some (.trig opVxFma)
  | .vxFms _ => some (.trig opVxFms)
  | .vxFnma _ => some (.trig opVxFnma)
  | .vxMin _ => some (.trig opVxMin)
  | .vxMax _ => some (.trig opVxMax)
  | .vxAbs _ => some (.trig opVxAbs)
  | .vxNeg _ => some (.trig opVxNeg)
  | .vxAddsat _ => some (.trig opVxAddsat)
  | .vxSubsat _ => some (.trig opVxSubsat)
  | .vxMulhi _ => some (.trig opVxMulhi)
  | .vxAnd _ => some (.trig opVxAnd)
  | .vxOr _ => some (.trig opVxOr)
  | .vxXor _ => some (.trig opVxXor)
  | .vxAndn _ => some (.trig opVxAndn)
  | .vxShl _ => some (.trig opVxShl)
  | .vxShr _ => some (.trig opVxShr)
  | .vxSar _ => some (.trig opVxSar)
  | .vxCeq _ => some (.trig opVxCeq)
  | .vxCne _ => some (.trig opVxCne)
  | .vxClt _ => some (.trig opVxClt)
  | .vxCle _ => some (.trig opVxCle)
  | .vxCltu _ => some (.trig opVxCltu)
  | .vxCleu _ => some (.trig opVxCleu)
  | .vxSel _ => some (.trig opVxSel)
  | .vxClamp _ => some (.trig opVxClamp)
  | .vxCopysign _ => some (.trig opVxCopysign)
  | .vxAbsd _ => some (.trig opVxAbsd)
  | .vxPopc _ => some (.trig opVxPopc)
  | .vxAvg _ => some (.trig opVxAvg)
  | .vxBcast _ => some (.trig opVxBcast)
  | .vxIota _ => some (.trig opVxIota)
  | .vxDot4 _ => some (.trig opVxDot4)
  | .vxDot2 _ => some (.trig opVxDot2)
  | .vsLut3 _ => some (.trig opVsLut3)
  | .vsFsl _ => some (.trig opVsFsl)
  | .vsFsr _ => some (.trig opVsFsr)
  | .vsVrot _ => some (.trig opVsVrot)
  | .vsVshl _ => some (.trig opVsVshl)
  | .vsVshr _ => some (.trig opVsVshr)
  | .vsPerm _ => some (.trig opVsPerm)
  | .vsBperm _ => some (.trig opVsBperm)
  | .vsCompress _ => some (.trig opVsCompress)
  | .vsExpand _ => some (.trig opVsExpand)
  | .vsCvt _ => some (.trig opVsCvt)
  | .vsCvtzb4 _ => some (.trig opVsCvtzb4)
  | .vsCvtmx _ => some (.trig opVsCvtmx)
  | .vsRedsum _ => some (.trig opVsRedsum)
  | .vsRedmax _ => some (.trig opVsRedmax)
  | .vsRedmin _ => some (.trig opVsRedmin)
  | .vsRedand _ => some (.trig opVsRedand)
  | .vsRedor _ => some (.trig opVsRedor)
  | .vsRedxor _ => some (.trig opVsRedxor)
  | .vsPack _ => some (.trig opVsPack)
  | .vsUnpack _ => some (.trig opVsUnpack)
  | .vsTbl _ => some (.trig opVsTbl)
  | .vsScan _ => some (.trig opVsScan)
  | .vsZip _ => some (.trig opVsZip)
  | .vsUnzip _ => some (.trig opVsUnzip)
  | .vsBcastl _ => some (.trig opVsBcastl)
  | .vsExtr _ => some (.trig opVsExtr)
  | .vsInsr _ => some (.trig opVsInsr)
  | .vsPcnt _ => some (.trig opVsPcnt)
  | .vsRev _ => some (.trig opVsRev)
  | .mxAlloc _ => some (.trig opMxAlloc)
  | .mxFree _ => some (.trig opMxFree)
  | .mxNorm _ => some (.trig opMxNorm)
  | .mxRd _ => some (.trig opMxRd)
  | .mxWr _ => some (.trig opMxWr)
  | .mmB4 _ => some (.trig opMxCall)
  | .mmF8 _ => some (.trig opMxCall)
  | .mmI8 _ => some (.trig opMxCall)
  | .mmI16 _ => some (.trig opMxCall)
  | .mmH _ => some (.trig opMxCall)
  | .mmTn _ => some (.trig opMxCall)
  | .mmS _ => some (.trig opMxCall)
  | .mmS3 _ => some (.trig opMxCall)
  | .accLd _ => some (.trig opMxCall)
  | .accSt _ => some (.trig opMxCall)
  | .accNorm _ => some (.trig opMxCall)
  | .accZero _ => some (.trig opMxCall)
  | .ecPopen _ => some (.trig opEcPopen)
  | .ecPclose _ => some (.trig opEcPclose)
  | .ecPcomm _ => some (.trig opEcPcomm)
  | .ecPinv _ => some (.trig opEcPinv)
  | .ecPfork _ => some (.trig opEcPfork)
  | .ecPxpl _ => some (.trig opEcPxpl)
  | .ecPfold _ => some (.trig opEcPfold)
  | .ecPsq _ => some (.trig opEcPsq)
  | .ecPreg _ => some (.trig opEcPreg)
  | .ecPdrop _ => some (.trig opEcPdrop)
  | .ecCopy _ => some (.trig opEcCopy)
  | .ecTcopy _ => some (.trig opEcTcopy)
  | .ecFill _ => some (.trig opEcFill)
  | .ecSend _ => some (.trig opEcSend)
  | .ecRecv _ => some (.trig opEcRecv)
  | .ecRecva _ => some (.trig opEcRecva)
  | .ecStep _ => some (.trig opEcStep)
  | .syLdf _ => some (.trig opSyLdf)
  | .syLdk _ => some (.trig opSyLdk)
  | .syStf _ => some (.trig opSyStf)
  | .syStx _ => some (.trig opSyStx)
  | .sySwap _ => some (.trig opSySwap)
  | .syCas _ => some (.trig opSyCas)
  | .syFadd _ => some (.trig opSyFadd)
  | .syFaddf _ => some (.trig opSyFaddf)
  | .syRadd _ => some (.trig opSyRadd)
  | .syRaddf _ => some (.trig opSyRaddf)
  | .syRmax _ => some (.trig opSyRmax)
  | .syRmin _ => some (.trig opSyRmin)
  | .syRmaxf _ => some (.trig opSyRmaxf)
  | .syRand _ => some (.trig opSyRand)
  | .syRor _ => some (.trig opSyRor)
  | .syRxor _ => some (.trig opSyRxor)
  | .syFence _ => some (.trig opSyFence)
  | .syPwait _ => some (.trig opSyPwait)
  | .syTbar _ => some (.trig opSyTbar)
  | .syCbar _ => some (.trig opSyCbar)
  | .syJoin _ => some (.trig opSyJoin)
  | .syLeave _ => some (.trig opSyLeave)
  | .syQlen _ => some (.trig opSyQlen)
  | .syQpeek _ => some (.trig opSyQpeek)
  | .sySpop _ => some (.trig opSySpop)
  | .sySpoll _ => some (.trig opSySpoll)
  | .sySgadd _ => some (.trig opSySgadd)
  | .sySgset _ => some (.trig opSySgset)
  | .sySdone _ => some (.trig opSySdone)
  | .sysExit _ => some (.trig opSysExit)
  | .sysStepb _ => some (.trig opSysStepb)
  | .sysLaunch _ => some (.trig opSysLaunch)
  | .sysTret _ => some (.trig opSysTret)
  | .sysVec _ => some (.trig opSysVec)
  | .sysTrw _ => some (.trig opSysTrw)
  | .sysWvws _ => some (.trig opSysWvws)
  | .sysWvwd _ => some (.trig opSysWvwd)
  | .sysWvwv _ => some (.trig opSysWvwv)
  | .sysWvwh _ => some (.trig opSysWvwh)
  | .sysVwrd _ => some (.trig opSysVwrd)
  | .sysFlrd _ => some (.trig opSysFlrd)
  | .sysFlwr _ => some (.trig opSysFlwr)
  | .sysSvcReport _ => some (.trig opSysSvc)
  | .sysSvcShare _ => some (.trig opSysSvc)
  | .sysSvcUnshare _ => some (.trig opSysSvc)
  | .sysLogc _ => some (.trig opSysLogc)
  | .sysCtrcfg _ => some (.trig opSysCtrcfg)
  | .sysCtrrd _ => some (.trig opSysCtrrd)
  | .sysYield _ => some (.trig opSysYield)
  | .powerUp => none
  | .bootFetchTimeout => none
  | .bootRetryWait => none
  | .alivePost => none
  | .bootCommitDeadline => none
  | .stationmasterWatchdog => none
  | .hostLinkUp => none
  | .stageGo => none
  | .hostWindowAccess => none
  | .hostRegisterWrite => none
  | .slotPost => none
  | .slotFree => none
  | .slotBadState => none
  | .launch => none
  | .kill => none
  | .mkcomp => none
  | .rmcomp => none
  | .map => none
  | .unmap => none
  | .budget => none
  | .report => none
  | .stage => none
  | .ckpt => none
  | .abandon => none
  | .logrel => none
  | .pkgnum => none
  | .winlist => none
  | .restore => none
  | .mgmtRequest => none
  | .launchAcceptance => none
  | .settFill => none
  | .timetablePeriodBoundary => none
  | .handoverDeadline => none
  | .boardSlotWrite => none
  | .swapOut => none
  | .swapIn => none
  | .preempt => none
  | .matrixCallReissue => none
  | .teamEnd => none
  | .teamdownTimeout => none
  | .launchCompletion => none
  | .settPopAnswer => none
  | .stepBoundary => none
  | .stepAbandon => none
  | .demandMapService => none
  | .compartmentInvalidation => none
  | .producerLaunch => none
  | .producerComplete => none
  | .ibundleEccReload => none
  | .coreSubstitute => none
  | .coreFailure => none
  | .bundleIssue => none
  | .fairnessLimit => none
  | .resultLanding => none
  | .variableArrival => none
  | .ephemeralExpiry => none
  | .clusterAccessAccept => none
  | .globalWritePerformed => none
  | .atomicQueuePerform => none
  | .reductionHold => none
  | .chainRead => none
  | .patchWriteArrival => none
  | .freightBurst => none
  | .dataCommandRetire => none
  | .statusPushWait => none
  | .shuttleMatch => none
  | .shuttleChunkArrival => none
  | .shuttleChunkAck => none
  | .peerLost => none
  | .matrixStepBegin => none
  | .matrixStepEnd => none
  | .nimmetLinkTrain => none
  | .nimmetSessionSetup => none
  | .sessionRekey => none
  | .nimmetFrameReceive => none
  | .nimmetFrameResend => none
  | .secondTierPortFail => none
  | .thermalWarning => none
  | .thermalShutdown => none
  | .tftpImageArrival => none
  | .translationWalkEnd => none
  | .receiverInsertsItems => none
  | .uncorrectableError => none
  | .powerRemoved => none

/-- R374. The row of a routine number; a number without a routine is the first row's to refuse (R364). -/
def callRow (rout : Nat) (m : Mv) : Instr :=
  match rout with
  | 0x01 => .mmF8 m
  | 0x02 => .mmI8 m
  | 0x03 => .mmI16 m
  | 0x04 => .mmH m
  | 0x05 => .mmTn m
  | 0x06 => .mmS m
  | 0x07 => .mmS3 m
  | 0x08 => .accLd m
  | 0x09 => .accSt m
  | 0x0A => .accNorm m
  | 0x0B => .accZero m
  | _ => .mmB4 m

/-- R411. The row of a service number; one without a service is the first row's to refuse. -/
def svcRow (code : Nat) (m : Mv) : Instr :=
  match code with
  | 0x02 => .sysSvcShare m
  | 0x03 => .sysSvcUnshare m
  | _ => .sysSvcReport m

/-- R357, R411. The row of a decoded move whose value has the low byte v. -/
def rowOf (i : Instr) (v : Nat) : Instr :=
  match i with
  | .mmB4 m => callRow v m
  | .sysSvcReport m => svcRow v m
  | i => i

end Sys2Proof.Machine
end

