-- ==== Sys2Proof/Machine/Bundle.lean ====
section
/-! DEFINITION. A bundle as a whole (R237 to R239, R265, R266, R271): the fetch, the checks that concern the bundle,
its moves, and its issue, with what comes before it at a bundle boundary. -/

namespace Sys2Proof.Machine

/-! ### The layout (R237) -/

/-- Slot k of a bundle. -/
def slotOf (b : BitVec 256) (k : Nat) : BitVec 24 := (b >>> (24 * k)).setWidth 24

/-- LIMM. -/
def limmOf (b : BitVec 256) : BitVec 32 := (b >>> 192).setWidth 32

/-- The INV and MALIAS bits of slot k. -/
def invOf (b : BitVec 256) (k : Nat) : Bool := b.getLsbD (224 + k)
def maliasOf (b : BitVec 256) (k : Nat) : Bool := b.getLsbD (232 + k)

/-- R244. An empty slot. -/
def emptySlot : BitVec 24 := 0x1807FE

/-- A bundle with one move in slot 0, and the other slots empty. -/
def bundleOfMove (w : BitVec 24) : BitVec 256 :=
  w.setWidth 256 ||| (List.range 7).foldl (fun b k => b ||| (emptySlot.setWidth 256 <<< (24 * (k + 1)))) 0

/-! ### The fetch (R238) -/

/-- Where the next bundle of a context stands: core × 4096 + bundle of the instruction store. -/
def fetchKey (s : State) (c : Nat) : Nat := coreOf c * 4096 + bIbase (s.board c) + (s.ctx c).pc.toNat

/-- R238. The next bundle of a context; none at or above ILEN. -/
def fetch (s : State) (c : Nat) : Option (BitVec 256) :=
  if (s.ctx c).pc.toNat < bIlen (s.board c) then some ((tget s.cr.istore (fetchKey s c)).getD 0) else none

/-! ### The moves -/

/-- Destination number of slot k. -/
def dstOf (b : BitVec 256) (k : Nat) : Nat := bits (slotOf b k).toNat 10 1

/-- The instruction in slot k by its destination, whatever its source; none for an unassigned destination. -/
def instrAt (b : BitVec 256) (k : Nat) : Option Instr := decodeDst (dstOf b k) (mvOfWord (slotOf b k).toNat)

/-- The move of slot k as it issues. -/
def partAt (b : BitVec 256) (k : Nat) : Option Part :=
  ((instrAt b k).bind actOf).map fun a =>
    { slot := k, mv := mvOfWord (slotOf b k).toNat, act := a, inv := invOf b k, malias := maliasOf b k }

/-- The slots that are not empty. -/
def usedSlots (b : BitVec 256) : List Nat := (List.range 8).filter fun k => slotOf b k != emptySlot

/-- The moves of a bundle but for the empty slots, in slot order. -/
def partsOf (b : BitVec 256) : List Part := (usedSlots b).filterMap (partAt b)

/-- R266. The unit that slot k triggers. -/
def unitAt (b : BitVec 256) (k : Nat) : Option Nat :=
  match (instrAt b k).bind actOf with
  | some (.trig o) => some o.unit
  | some (.reg _) => none
  | some (.opnd _) => none
  | some (.guard _) => none
  | some (.queue _) => none
  | some .nul => none
  | none => none

/-- R266. Whether slot k names a destination, or triggers a unit, that an earlier slot has. -/
def clashes (b : BitVec 256) (k : Nat) : Bool :=
  (List.range k).any fun j =>
    (dstOf b j == dstOf b k && dstOf b k != 0x3FF) || ((unitAt b k).isSome && unitAt b j == unitAt b k)

/-- R239, R254, R258, R266, R271. The ILLBUNDLE and ILLPORT of slot k. -/
def slotTraps (b : BitVec 256) (k : Nat) : List Trap :=
  let m := mvOfWord (slotOf b k).toNat
  (if clashes b k then [trapIllbundle k false] else []) ++
    (if k = 0 ∧ b >>> 240 ≠ 0 then [trapIllbundle 0 true] else []) ++
    (if invOf b k && m.g == 0 then [trapIllbundle k true] else []) ++
    (if srcAssigned m.s.toNat then [] else [trapIllport m.s.toNat k false]) ++
    (if (instrAt b k).isSome then [] else [trapIllport (dstOf b k) k true])

/-- R212, R271. The ILLBUNDLE or ILLPORT of a bundle. -/
def bundleTrap (b : BitVec 256) : Option Trap := leastCode ((List.range 8).flatMap (slotTraps b))

/-- R265. Issues a bundle. -/
def issueBundle (c : Nat) (b : BitVec 256) (s : State) : State :=
  match bundleTrap b with
  | some t => takeTrap c t s
  | none => issueItems c (limmOf b) (partsOf b) s

/-! ### The boundary before a bundle -/

/-- R223, R219. TEAMDOWN that is due to be delivered: at a boundary outside a shadow, or to a context that waits for its
team or a tagged word; a patch command at its home Badger completes or traps first. -/
def downDue (s : State) (c : Nat) : Option Down :=
  match (s.ctx c).down with
  | some d => if ¬ d.delivered ∧ (s.ctx c).blocked ≠ .patch ∧ ((s.ctx c).shadow.isNone ∨ downAtOnce s c) then some d else none
  | none => none

/-- R217. Zitrum is asked, once, to reload the bundle. -/
def askReload (s : State) (key : Nat) : State :=
  if s.agenda.any fun d => d.ev.row == .ibundleEccReload && d.ev.arg.a == key then s
  else
    let (n, s) := s.delay
    s.after (s.cycle + n) false .ibundleEccReload { a := key }

/-- R71, R217, R223, R265. A context comes to issue: TEAMDOWN, a pending trap of a matrix call, a bundle to be
reloaded, or the bundle. -/
def bundleIssue (s : State) (c : Nat) : State :=
  if (s.ctx c).run ≠ .running ∨ s.cycle < (s.ctx c).notBefore then s
  else match downDue s c with
    | some d => takeDown s c d
    | none => match (s.ctx c).pendTrap with
      | some t => takeTrap c t (s.modCtx c fun x => { x with pendTrap := none })
      | none => match fetch s c with
        | none => takeTrap c (trapIllbundle 0 true) s
        | some b =>
          if s.cr.failBundle.contains (fetchKey s c) then (askReload s (fetchKey s c)).holdBundle c .other
          else issueBundle c b s

/-! ### Readiness (R22, R414) -/

/-- R22, R414. Whether a context would issue, or trap, if its turn came now: it is neither held nor told to wait. -/
def ready (s : State) (c : Nat) : Bool :=
  let x := s.ctx c
  x.run == .running && decide (x.notBefore ≤ s.cycle) &&
    ((if reissues x then reissueCall c s else bundleIssue s c).ctx c).blocked == .none

/-- R22. The contexts of a core in cyclic order after a context. -/
def othersOf (core cur : Nat) : List Nat := [1, 2, 3].map fun k => core * 4 + (cur + k) % 4

/-- The meaning of FAIRNESS_LIMIT: after 4,096 consecutive bundles the core goes on with the next ready context
(R22). -/
def execFairnessLimit (s : State) : Host.Outcome State Fault Refusal :=
  let core := s.ev.a
  let k := s.core core
  .next (match (othersOf core k.cur).find? (ready s) with
    | some c => s.setCore core { cur := c % 4, run := 0 }
    | none => s)

/-- The meaning of BUNDLE_ISSUE, for the context that the event names. -/
def execBundleIssue (s : State) : Host.Outcome State Fault Refusal := .next (bundleIssue s s.ev.a)

end Sys2Proof.Machine
end

