-- ==== Sys2Proof/Machine/Dispatch.lean ====
section
/-! DEFINITION. What each instruction and each event does: one arm for each row of the opcode table. -/

namespace Sys2Proof.Machine

/-- The meaning of every instruction and event. -/
def exec (i : Instr) (s : State) : Host.Outcome State Fault Refusal :=
  match i with
  | .moveRegister d m => Sys2Proof.Machine.execMoveRegister d m s
  | .operandPortWrite d m => Sys2Proof.Machine.execOperandPortWrite d m s
  | .guardWrite d m => Sys2Proof.Machine.execGuardWrite d m s
  | .queuePush q m => Sys2Proof.Machine.execQueuePush q m s
  | .moveNul m => Sys2Proof.Machine.execMoveNul m s
  | .iaAdd u m => Sys2Proof.Machine.execIaAdd u m s
  | .iaSub u m => Sys2Proof.Machine.execIaSub u m s
  | .iaAnd u m => Sys2Proof.Machine.execIaAnd u m s
  | .iaOr u m => Sys2Proof.Machine.execIaOr u m s
  | .iaXor u m => Sys2Proof.Machine.execIaXor u m s
  | .iaAndn u m => Sys2Proof.Machine.execIaAndn u m s
  | .iaShl u m => Sys2Proof.Machine.execIaShl u m s
  | .iaShr u m => Sys2Proof.Machine.execIaShr u m s
  | .iaSar u m => Sys2Proof.Machine.execIaSar u m s
  | .iaRotl u m => Sys2Proof.Machine.execIaRotl u m s
  | .iaMin u m => Sys2Proof.Machine.execIaMin u m s
  | .iaMax u m => Sys2Proof.Machine.execIaMax u m s
  | .iaMinu u m => Sys2Proof.Machine.execIaMinu u m s
  | .iaMaxu u m => Sys2Proof.Machine.execIaMaxu u m s
  | .iaEq u m => Sys2Proof.Machine.execIaEq u m s
  | .iaNe u m => Sys2Proof.Machine.execIaNe u m s
  | .iaLt u m => Sys2Proof.Machine.execIaLt u m s
  | .iaLtu u m => Sys2Proof.Machine.execIaLtu u m s
  | .iaLe u m => Sys2Proof.Machine.execIaLe u m s
  | .iaLeu u m => Sys2Proof.Machine.execIaLeu u m s
  | .iaSel u m => Sys2Proof.Machine.execIaSel u m s
  | .iaExt u m => Sys2Proof.Machine.execIaExt u m s
  | .iaClz u m => Sys2Proof.Machine.execIaClz u m s
  | .iaPopc u m => Sys2Proof.Machine.execIaPopc u m s
  | .amAdd m => Sys2Proof.Machine.execAmAdd m s
  | .amSub m => Sys2Proof.Machine.execAmSub m s
  | .amMul m => Sys2Proof.Machine.execAmMul m s
  | .amMulu m => Sys2Proof.Machine.execAmMulu m s
  | .amMad m => Sys2Proof.Machine.execAmMad m s
  | .amMadu m => Sys2Proof.Machine.execAmMadu m s
  | .amLsa m => Sys2Proof.Machine.execAmLsa m s
  | .amWrap m => Sys2Proof.Machine.execAmWrap m s
  | .amWxs m => Sys2Proof.Machine.execAmWxs m s
  | .amWxd m => Sys2Proof.Machine.execAmWxd m s
  | .amWxv m => Sys2Proof.Machine.execAmWxv m s
  | .amWxh m => Sys2Proof.Machine.execAmWxh m s
  | .brJmp m => Sys2Proof.Machine.execBrJmp m s
  | .brCall m => Sys2Proof.Machine.execBrCall m s
  | .brRet m => Sys2Proof.Machine.execBrRet m s
  | .brLoop m => Sys2Proof.Machine.execBrLoop m s
  | .brJz m => Sys2Proof.Machine.execBrJz m s
  | .brJnz m => Sys2Proof.Machine.execBrJnz m s
  | .brJeq m => Sys2Proof.Machine.execBrJeq m s
  | .brJne m => Sys2Proof.Machine.execBrJne m s
  | .brJlt m => Sys2Proof.Machine.execBrJlt m s
  | .brJge m => Sys2Proof.Machine.execBrJge m s
  | .brJltu m => Sys2Proof.Machine.execBrJltu m s
  | .brJgeu m => Sys2Proof.Machine.execBrJgeu m s
  | .brLbrk m => Sys2Proof.Machine.execBrLbrk m s
  | .brLkset m => Sys2Proof.Machine.execBrLkset m s
  | .lsLd8 u m => Sys2Proof.Machine.execLsLd8 u m s
  | .lsLd8s u m => Sys2Proof.Machine.execLsLd8s u m s
  | .lsLd16 u m => Sys2Proof.Machine.execLsLd16 u m s
  | .lsLd16s u m => Sys2Proof.Machine.execLsLd16s u m s
  | .lsLd32 u m => Sys2Proof.Machine.execLsLd32 u m s
  | .lsLd32s u m => Sys2Proof.Machine.execLsLd32s u m s
  | .lsLd64 u m => Sys2Proof.Machine.execLsLd64 u m s
  | .lsLd128 u m => Sys2Proof.Machine.execLsLd128 u m s
  | .lsLdvh u m => Sys2Proof.Machine.execLsLdvh u m s
  | .lsLdv u m => Sys2Proof.Machine.execLsLdv u m s
  | .lsLdbc u m => Sys2Proof.Machine.execLsLdbc u m s
  | .lsSt8 u m => Sys2Proof.Machine.execLsSt8 u m s
  | .lsSt16 u m => Sys2Proof.Machine.execLsSt16 u m s
  | .lsSt32 u m => Sys2Proof.Machine.execLsSt32 u m s
  | .lsSt64 u m => Sys2Proof.Machine.execLsSt64 u m s
  | .lsSt128 u m => Sys2Proof.Machine.execLsSt128 u m s
  | .lsStvh u m => Sys2Proof.Machine.execLsStvh u m s
  | .lsStv u m => Sys2Proof.Machine.execLsStv u m s
  | .lsStvm u m => Sys2Proof.Machine.execLsStvm u m s
  | .lsStz u m => Sys2Proof.Machine.execLsStz u m s
  | .vxAdd m => Sys2Proof.Machine.execVxAdd m s
  | .vxSub m => Sys2Proof.Machine.execVxSub m s
  | .vxMul m => Sys2Proof.Machine.execVxMul m s
  | .vxFma m => Sys2Proof.Machine.execVxFma m s
  | .vxFms m => Sys2Proof.Machine.execVxFms m s
  | .vxFnma m => Sys2Proof.Machine.execVxFnma m s
  | .vxMin m => Sys2Proof.Machine.execVxMin m s
  | .vxMax m => Sys2Proof.Machine.execVxMax m s
  | .vxAbs m => Sys2Proof.Machine.execVxAbs m s
  | .vxNeg m => Sys2Proof.Machine.execVxNeg m s
  | .vxAddsat m => Sys2Proof.Machine.execVxAddsat m s
  | .vxSubsat m => Sys2Proof.Machine.execVxSubsat m s
  | .vxMulhi m => Sys2Proof.Machine.execVxMulhi m s
  | .vxAnd m => Sys2Proof.Machine.execVxAnd m s
  | .vxOr m => Sys2Proof.Machine.execVxOr m s
  | .vxXor m => Sys2Proof.Machine.execVxXor m s
  | .vxAndn m => Sys2Proof.Machine.execVxAndn m s
  | .vxShl m => Sys2Proof.Machine.execVxShl m s
  | .vxShr m => Sys2Proof.Machine.execVxShr m s
  | .vxSar m => Sys2Proof.Machine.execVxSar m s
  | .vxCeq m => Sys2Proof.Machine.execVxCeq m s
  | .vxCne m => Sys2Proof.Machine.execVxCne m s
  | .vxClt m => Sys2Proof.Machine.execVxClt m s
  | .vxCle m => Sys2Proof.Machine.execVxCle m s
  | .vxCltu m => Sys2Proof.Machine.execVxCltu m s
  | .vxCleu m => Sys2Proof.Machine.execVxCleu m s
  | .vxSel m => Sys2Proof.Machine.execVxSel m s
  | .vxClamp m => Sys2Proof.Machine.execVxClamp m s
  | .vxCopysign m => Sys2Proof.Machine.execVxCopysign m s
  | .vxAbsd m => Sys2Proof.Machine.execVxAbsd m s
  | .vxPopc m => Sys2Proof.Machine.execVxPopc m s
  | .vxAvg m => Sys2Proof.Machine.execVxAvg m s
  | .vxBcast m => Sys2Proof.Machine.execVxBcast m s
  | .vxIota m => Sys2Proof.Machine.execVxIota m s
  | .vxDot4 m => Sys2Proof.Machine.execVxDot4 m s
  | .vxDot2 m => Sys2Proof.Machine.execVxDot2 m s
  | .vsLut3 m => Sys2Proof.Machine.execVsLut3 m s
  | .vsFsl m => Sys2Proof.Machine.execVsFsl m s
  | .vsFsr m => Sys2Proof.Machine.execVsFsr m s
  | .vsVrot m => Sys2Proof.Machine.execVsVrot m s
  | .vsVshl m => Sys2Proof.Machine.execVsVshl m s
  | .vsVshr m => Sys2Proof.Machine.execVsVshr m s
  | .vsPerm m => Sys2Proof.Machine.execVsPerm m s
  | .vsBperm m => Sys2Proof.Machine.execVsBperm m s
  | .vsCompress m => Sys2Proof.Machine.execVsCompress m s
  | .vsExpand m => Sys2Proof.Machine.execVsExpand m s
  | .vsCvt m => Sys2Proof.Machine.execVsCvt m s
  | .vsCvtzb4 m => Sys2Proof.Machine.execVsCvtzb4 m s
  | .vsCvtmx m => Sys2Proof.Machine.execVsCvtmx m s
  | .vsRedsum m => Sys2Proof.Machine.execVsRedsum m s
  | .vsRedmax m => Sys2Proof.Machine.execVsRedmax m s
  | .vsRedmin m => Sys2Proof.Machine.execVsRedmin m s
  | .vsRedand m => Sys2Proof.Machine.execVsRedand m s
  | .vsRedor m => Sys2Proof.Machine.execVsRedor m s
  | .vsRedxor m => Sys2Proof.Machine.execVsRedxor m s
  | .vsPack m => Sys2Proof.Machine.execVsPack m s
  | .vsUnpack m => Sys2Proof.Machine.execVsUnpack m s
  | .vsTbl m => Sys2Proof.Machine.execVsTbl m s
  | .vsScan m => Sys2Proof.Machine.execVsScan m s
  | .vsZip m => Sys2Proof.Machine.execVsZip m s
  | .vsUnzip m => Sys2Proof.Machine.execVsUnzip m s
  | .vsBcastl m => Sys2Proof.Machine.execVsBcastl m s
  | .vsExtr m => Sys2Proof.Machine.execVsExtr m s
  | .vsInsr m => Sys2Proof.Machine.execVsInsr m s
  | .vsPcnt m => Sys2Proof.Machine.execVsPcnt m s
  | .vsRev m => Sys2Proof.Machine.execVsRev m s
  | .mxAlloc m => Sys2Proof.Machine.execMxAlloc m s
  | .mxFree m => Sys2Proof.Machine.execMxFree m s
  | .mxNorm m => Sys2Proof.Machine.execMxNorm m s
  | .mxRd m => Sys2Proof.Machine.execMxRd m s
  | .mxWr m => Sys2Proof.Machine.execMxWr m s
  | .mmB4 m => Sys2Proof.Machine.execMmB4 m s
  | .mmF8 m => Sys2Proof.Machine.execMmF8 m s
  | .mmI8 m => Sys2Proof.Machine.execMmI8 m s
  | .mmI16 m => Sys2Proof.Machine.execMmI16 m s
  | .mmH m => Sys2Proof.Machine.execMmH m s
  | .mmTn m => Sys2Proof.Machine.execMmTn m s
  | .mmS m => Sys2Proof.Machine.execMmS m s
  | .mmS3 m => Sys2Proof.Machine.execMmS3 m s
  | .accLd m => Sys2Proof.Machine.execAccLd m s
  | .accSt m => Sys2Proof.Machine.execAccSt m s
  | .accNorm m => Sys2Proof.Machine.execAccNorm m s
  | .accZero m => Sys2Proof.Machine.execAccZero m s
  | .ecPopen m => Sys2Proof.Machine.execEcPopen m s
  | .ecPclose m => Sys2Proof.Machine.execEcPclose m s
  | .ecPcomm m => Sys2Proof.Machine.execEcPcomm m s
  | .ecPinv m => Sys2Proof.Machine.execEcPinv m s
  | .ecPfork m => Sys2Proof.Machine.execEcPfork m s
  | .ecPxpl m => Sys2Proof.Machine.execEcPxpl m s
  | .ecPfold m => Sys2Proof.Machine.execEcPfold m s
  | .ecPsq m => Sys2Proof.Machine.execEcPsq m s
  | .ecPreg m => Sys2Proof.Machine.execEcPreg m s
  | .ecPdrop m => Sys2Proof.Machine.execEcPdrop m s
  | .ecCopy m => Sys2Proof.Machine.execEcCopy m s
  | .ecTcopy m => Sys2Proof.Machine.execEcTcopy m s
  | .ecFill m => Sys2Proof.Machine.execEcFill m s
  | .ecSend m => Sys2Proof.Machine.execEcSend m s
  | .ecRecv m => Sys2Proof.Machine.execEcRecv m s
  | .ecRecva m => Sys2Proof.Machine.execEcRecva m s
  | .ecStep m => Sys2Proof.Machine.execEcStep m s
  | .syLdf m => Sys2Proof.Machine.execSyLdf m s
  | .syLdk m => Sys2Proof.Machine.execSyLdk m s
  | .syStf m => Sys2Proof.Machine.execSyStf m s
  | .syStx m => Sys2Proof.Machine.execSyStx m s
  | .sySwap m => Sys2Proof.Machine.execSySwap m s
  | .syCas m => Sys2Proof.Machine.execSyCas m s
  | .syFadd m => Sys2Proof.Machine.execSyFadd m s
  | .syFaddf m => Sys2Proof.Machine.execSyFaddf m s
  | .syRadd m => Sys2Proof.Machine.execSyRadd m s
  | .syRaddf m => Sys2Proof.Machine.execSyRaddf m s
  | .syRmax m => Sys2Proof.Machine.execSyRmax m s
  | .syRmin m => Sys2Proof.Machine.execSyRmin m s
  | .syRmaxf m => Sys2Proof.Machine.execSyRmaxf m s
  | .syRand m => Sys2Proof.Machine.execSyRand m s
  | .syRor m => Sys2Proof.Machine.execSyRor m s
  | .syRxor m => Sys2Proof.Machine.execSyRxor m s
  | .syFence m => Sys2Proof.Machine.execSyFence m s
  | .syPwait m => Sys2Proof.Machine.execSyPwait m s
  | .syTbar m => Sys2Proof.Machine.execSyTbar m s
  | .syCbar m => Sys2Proof.Machine.execSyCbar m s
  | .syJoin m => Sys2Proof.Machine.execSyJoin m s
  | .syLeave m => Sys2Proof.Machine.execSyLeave m s
  | .syQlen m => Sys2Proof.Machine.execSyQlen m s
  | .syQpeek m => Sys2Proof.Machine.execSyQpeek m s
  | .sySpop m => Sys2Proof.Machine.execSySpop m s
  | .sySpoll m => Sys2Proof.Machine.execSySpoll m s
  | .sySgadd m => Sys2Proof.Machine.execSySgadd m s
  | .sySgset m => Sys2Proof.Machine.execSySgset m s
  | .sySdone m => Sys2Proof.Machine.execSySdone m s
  | .sysExit m => Sys2Proof.Machine.execSysExit m s
  | .sysStepb m => Sys2Proof.Machine.execSysStepb m s
  | .sysLaunch m => Sys2Proof.Machine.execSysLaunch m s
  | .sysTret m => Sys2Proof.Machine.execSysTret m s
  | .sysVec m => Sys2Proof.Machine.execSysVec m s
  | .sysTrw m => Sys2Proof.Machine.execSysTrw m s
  | .sysWvws m => Sys2Proof.Machine.execSysWvws m s
  | .sysWvwd m => Sys2Proof.Machine.execSysWvwd m s
  | .sysWvwv m => Sys2Proof.Machine.execSysWvwv m s
  | .sysWvwh m => Sys2Proof.Machine.execSysWvwh m s
  | .sysVwrd m => Sys2Proof.Machine.execSysVwrd m s
  | .sysFlrd m => Sys2Proof.Machine.execSysFlrd m s
  | .sysFlwr m => Sys2Proof.Machine.execSysFlwr m s
  | .sysSvcReport m => Sys2Proof.Machine.execSysSvcReport m s
  | .sysSvcShare m => Sys2Proof.Machine.execSysSvcShare m s
  | .sysSvcUnshare m => Sys2Proof.Machine.execSysSvcUnshare m s
  | .sysLogc m => Sys2Proof.Machine.execSysLogc m s
  | .sysCtrcfg m => Sys2Proof.Machine.execSysCtrcfg m s
  | .sysCtrrd m => Sys2Proof.Machine.execSysCtrrd m s
  | .sysYield m => Sys2Proof.Machine.execSysYield m s
  | .powerUp => Sys2Proof.Machine.execPowerUp s
  | .bootFetchTimeout => Sys2Proof.Machine.execBootFetchTimeout s
  | .bootRetryWait => Sys2Proof.Machine.execBootRetryWait s
  | .alivePost => Sys2Proof.Machine.execAlivePost s
  | .bootCommitDeadline => Sys2Proof.Machine.execBootCommitDeadline s
  | .stationmasterWatchdog => Sys2Proof.Machine.execStationmasterWatchdog s
  | .hostLinkUp => Sys2Proof.Machine.execHostLinkUp s
  | .stageGo => Sys2Proof.Machine.execStageGo s
  | .hostWindowAccess => Sys2Proof.Machine.execHostWindowAccess s
  | .hostRegisterWrite => Sys2Proof.Machine.execHostRegisterWrite s
  | .slotPost => Sys2Proof.Machine.execSlotPost s
  | .slotFree => Sys2Proof.Machine.execSlotFree s
  | .slotBadState => Sys2Proof.Machine.execSlotBadState s
  | .launch => Sys2Proof.Machine.execLaunch s
  | .kill => Sys2Proof.Machine.execKill s
  | .mkcomp => Sys2Proof.Machine.execMkcomp s
  | .rmcomp => Sys2Proof.Machine.execRmcomp s
  | .map => Sys2Proof.Machine.execMap s
  | .unmap => Sys2Proof.Machine.execUnmap s
  | .budget => Sys2Proof.Machine.execBudget s
  | .report => Sys2Proof.Machine.execReport s
  | .stage => Sys2Proof.Machine.execStage s
  | .ckpt => Sys2Proof.Machine.execCkpt s
  | .abandon => Sys2Proof.Machine.execAbandon s
  | .logrel => Sys2Proof.Machine.execLogrel s
  | .pkgnum => Sys2Proof.Machine.execPkgnum s
  | .winlist => Sys2Proof.Machine.execWinlist s
  | .restore => Sys2Proof.Machine.execRestore s
  | .mgmtRequest => Sys2Proof.Machine.execMgmtRequest s
  | .launchAcceptance => Sys2Proof.Machine.execLaunchAcceptance s
  | .settFill => Sys2Proof.Machine.execSettFill s
  | .timetablePeriodBoundary => Sys2Proof.Machine.execTimetablePeriodBoundary s
  | .handoverDeadline => Sys2Proof.Machine.execHandoverDeadline s
  | .boardSlotWrite => Sys2Proof.Machine.execBoardSlotWrite s
  | .swapOut => Sys2Proof.Machine.execSwapOut s
  | .swapIn => Sys2Proof.Machine.execSwapIn s
  | .preempt => Sys2Proof.Machine.execPreempt s
  | .matrixCallReissue => Sys2Proof.Machine.execMatrixCallReissue s
  | .teamEnd => Sys2Proof.Machine.execTeamEnd s
  | .teamdownTimeout => Sys2Proof.Machine.execTeamdownTimeout s
  | .launchCompletion => Sys2Proof.Machine.execLaunchCompletion s
  | .settPopAnswer => Sys2Proof.Machine.execSettPopAnswer s
  | .stepBoundary => Sys2Proof.Machine.execStepBoundary s
  | .stepAbandon => Sys2Proof.Machine.execStepAbandon s
  | .demandMapService => Sys2Proof.Machine.execDemandMapService s
  | .compartmentInvalidation => Sys2Proof.Machine.execCompartmentInvalidation s
  | .producerLaunch => Sys2Proof.Machine.execProducerLaunch s
  | .producerComplete => Sys2Proof.Machine.execProducerComplete s
  | .ibundleEccReload => Sys2Proof.Machine.execIbundleEccReload s
  | .coreSubstitute => Sys2Proof.Machine.execCoreSubstitute s
  | .coreFailure => Sys2Proof.Machine.execCoreFailure s
  | .bundleIssue => Sys2Proof.Machine.execBundleIssue s
  | .fairnessLimit => Sys2Proof.Machine.execFairnessLimit s
  | .resultLanding => Sys2Proof.Machine.execResultLanding s
  | .variableArrival => Sys2Proof.Machine.execVariableArrival s
  | .ephemeralExpiry => Sys2Proof.Machine.execEphemeralExpiry s
  | .clusterAccessAccept => Sys2Proof.Machine.execClusterAccessAccept s
  | .globalWritePerformed => Sys2Proof.Machine.execGlobalWritePerformed s
  | .atomicQueuePerform => Sys2Proof.Machine.execAtomicQueuePerform s
  | .reductionHold => Sys2Proof.Machine.execReductionHold s
  | .chainRead => Sys2Proof.Machine.execChainRead s
  | .patchWriteArrival => Sys2Proof.Machine.execPatchWriteArrival s
  | .freightBurst => Sys2Proof.Machine.execFreightBurst s
  | .dataCommandRetire => Sys2Proof.Machine.execDataCommandRetire s
  | .statusPushWait => Sys2Proof.Machine.execStatusPushWait s
  | .shuttleMatch => Sys2Proof.Machine.execShuttleMatch s
  | .shuttleChunkArrival => Sys2Proof.Machine.execShuttleChunkArrival s
  | .shuttleChunkAck => Sys2Proof.Machine.execShuttleChunkAck s
  | .peerLost => Sys2Proof.Machine.execPeerLost s
  | .matrixStepBegin => Sys2Proof.Machine.execMatrixStepBegin s
  | .matrixStepEnd => Sys2Proof.Machine.execMatrixStepEnd s
  | .nimmetLinkTrain => Sys2Proof.Machine.execNimmetLinkTrain s
  | .nimmetSessionSetup => Sys2Proof.Machine.execNimmetSessionSetup s
  | .sessionRekey => Sys2Proof.Machine.execSessionRekey s
  | .nimmetFrameReceive => Sys2Proof.Machine.execNimmetFrameReceive s
  | .nimmetFrameResend => Sys2Proof.Machine.execNimmetFrameResend s
  | .secondTierPortFail => Sys2Proof.Machine.execSecondTierPortFail s
  | .thermalWarning => Sys2Proof.Machine.execThermalWarning s
  | .thermalShutdown => Sys2Proof.Machine.execThermalShutdown s
  | .tftpImageArrival => Sys2Proof.Machine.execTftpImageArrival s
  | .translationWalkEnd => Sys2Proof.Machine.execTranslationWalkEnd s
  | .receiverInsertsItems => Sys2Proof.Machine.execReceiverInsertsItems s
  | .uncorrectableError => Sys2Proof.Machine.execUncorrectableError s
  | .powerRemoved => Sys2Proof.Machine.execPowerRemoved s

end Sys2Proof.Machine
end

