-- ==== Sys2Proof/Machine/Next.lean ====
section
/-! DEFINITION. What the package does next (R22, R260, R262): the event that falls due first, in a fixed order within a
cycle, or the passing of a cycle. -/

namespace Sys2Proof.Machine

/-- What a step runs: an instruction or event, with the state in which it runs. -/
structure Todo where
  row : Instr
  st : State

/-- An event with its operands. -/
def todo (s : State) (row : Instr) (arg : EvArg) : Todo := { row := row, st := { s with ev := arg } }

/-! ### Before the issue of a cycle -/

/-- R260, R262. A context with a result to land. -/
def landingDue (s : State) : Option Nat :=
  (s.ctxs.find? fun e => e.2.flights.any fun f => decide (f.due ≤ s.cycle)).map (·.1)

/-- The first event on the agenda that is due, of the early or of the late ones: by cycle, then in order. -/
def firstDue (cycle : Nat) (early : Bool) : List Due → Option Due
  | [] => none
  | d :: t =>
    if d.early = early ∧ d.cyc ≤ cycle then
      match firstDue cycle early t with
      | some e => if e.cyc < d.cyc then some e else some d
      | none => some d
    else firstDue cycle early t

/-- Takes a due event off the agenda. -/
def takeDue (s : State) (d : Due) : Todo := todo { s with agenda := s.agenda.erase d } d.ev.row d.ev.arg

/-- R252. A context with an ephemeral unit whose expiry has come. -/
def expiryDue (s : State) : Option Nat :=
  (s.ctxs.find? fun e => e.2.units.any fun u => match u.2 with
    | .ephemeral t => decide (t ≤ s.cycle)
    | .empty => false
    | .failed _ _ => false).map (·.1)

/-- R219. A context that is to stop, and can. -/
def preemptDue (s : State) : Option Nat := (s.ctxs.find? fun e => e.2.preempt && canStop e.2 s.cycle).map (·.1)

/-- What comes before the issue of a cycle: landings, early events, the period boundary, expiries and pre-emptions. -/
def beforeIssue (s : State) : Option Todo :=
  match landingDue s with
  | some c => some (todo s .resultLanding { a := c })
  | none => match firstDue s.cycle true s.agenda with
    | some d => some (takeDue s d)
    | none =>
      if s.tt.nextBoundary ≤ s.cycle then some (todo s .timetablePeriodBoundary {})
      else match expiryDue s with
        | some c => some (todo s .ephemeralExpiry { a := c })
        | none => (preemptDue s).map fun c => todo s .preempt { a := c }

/-! ### The issue of a cycle (R22) -/

/-- Whether a context can be tried in this cycle. -/
def mayTry (s : State) (c : Nat) : Bool :=
  let x := s.ctx c
  x.run == .running && x.tried != some s.cycle && decide (x.notBefore ≤ s.cycle)

/-- Whether a context of a core has used the cycle: it came to issue, and was not held. -/
def coreSpent (s : State) (core : Nat) : Bool :=
  [0, 1, 2, 3].any fun k => (s.ctx (core * 4 + k)).tried == some s.cycle && (s.ctx (core * 4 + k)).blocked == .none

/-- R22. The contexts of a core in the order in which they come to issue: the selected one first, until it has issued
4,096 bundles. -/
def turnOrder (s : State) (core : Nat) : List Nat :=
  let k := s.core core
  if k.run < 4096 then (core * 4 + k.cur) :: othersOf core k.cur else othersOf core k.cur ++ [core * 4 + k.cur]

/-- R22. The context of a core that comes to issue next in this cycle. -/
def nextOf (s : State) (core : Nat) : Option Nat :=
  if coreSpent s core then none else (turnOrder s core).find? (mayTry s)

/-- The first context that comes to issue. -/
def turnDue (s : State) : Option Nat :=
  s.ctxs.findSome? fun e => if e.2.run = .running then nextOf s (coreOf e.1) else none

/-- R22. Whether the fairness limit of a context's core is reached, with another context ready. -/
def limitReached (s : State) (c : Nat) : Bool :=
  let k := s.core (coreOf c)
  decide (4096 ≤ k.run) && (othersOf (coreOf c) k.cur).any (ready s)

/-- The issue latch for the one move of a bundle. -/
def latchOf (c : Nat) (b : BitVec 256) (k : Nat) : Issue :=
  { ctx := c, slot := k, limm := limmOf b, inv := invOf b k, malias := maliasOf b k }

/-- The low byte of the value of a move. -/
def lowValue (s : State) (c : Nat) (m : Mv) (limm : BitVec 32) : Nat := (srcValue s c m.s.toNat limm).toNat % 256

/-- R265. A context whose bundle is a sound one of one move, or empty: the move's row and its slot. -/
def soleMove (s : State) (c : Nat) (b : BitVec 256) : Option (Instr × Nat) :=
  if (bundleTrap b).isSome then none
  else match usedSlots b with
    | [] => some (.moveNul (mvOfWord emptySlot.toNat), 0)
    | [k] => (instrAt b k).map fun i =>
        (rowOf i (lowValue s c (mvOfWord (slotOf b k).toNat) (limmOf b)), k)
    | _ :: _ :: _ => none

/-- R265. Whether a context's bundle boundary is plain: nothing is delivered before the bundle, and its bundle is sound. -/
def plainTurn (s : State) (c : Nat) : Bool :=
  (downDue s c).isNone && (s.ctx c).pendTrap.isNone && !s.cr.failBundle.contains (fetchKey s c)

/-- R22, R265, R372. What a context that comes to issue does: a stopped call is issued again first; a bundle of one move
is that move's instruction; any other is issued whole. -/
def turn (s : State) (c : Nat) : Todo :=
  let s := s.modCtx c fun x => { x with tried := some s.cycle }
  if reissues (s.ctx c) then todo s .matrixCallReissue { a := c }
  else
    let whole := todo s .bundleIssue { a := c }
    if ¬ plainTurn s c then whole
    else match fetch s c with
      | none => whole
      | some b => match soleMove s c b with
        | some (i, k) => { row := i, st := { s with ev := {}, iss := latchOf c b k } }
        | none => whole

/-! ### After the issue -/

/-- R176, R178, R234. A Board slot whose team is to be saved, or has ended; not while no Zitrum runs. -/
def boardDue (s : State) : Option Todo :=
  if ¬ s.rt.zitrum then none
  else s.tm.boards.findSome? fun e =>
    if swapReady s e.1 e.2 then some (todo s .swapOut { a := e.1 })
    else if mayLeave s e.1 e.2 then some (todo s .boardSlotWrite { a := e.1, body := slotBytes 0 })
    else none

/-- R224. Whether the logs of a launch have outgrown its compartment's memory. -/
def logFull (s : State) (l : Launch) : Bool :=
  mayRun l && s.tm.logs.any (fun g => g.lid == l.lid) && decide (quotaPages s l.comp < pagesUsed s l.comp)

/-- R166, R224, R227, R229, R234. A launch that is complete, at a step boundary, to be abandoned, or out of log. -/
def launchDue (s : State) : Option Todo :=
  if ¬ s.rt.zitrum then none
  else s.tm.launches.findSome? fun e =>
    let l := e.2
    if completionReady s l && (completionTouch s l).isSome then some (todo s .launchCompletion { a := e.1 })
    else if stepReady s l && ckptsReady s l then some (todo s .stepBoundary { a := e.1 })
    else match l.aband with
      | some why => if abandReady s l why then some (todo s .stepAbandon { a := e.1, b := why, c := 2 }) else none
      | none => if logFull s l then some (todo s .teamEnd { a := e.1, c := 4, d := 2 }) else none

/-- R438. The row of a request code; one that names no request is answered as such. -/
def requestRow (code : Nat) : Instr :=
  match code with
  | 0x01 => .launch
  | 0x02 => .kill
  | 0x03 => .mkcomp
  | 0x04 => .rmcomp
  | 0x05 => .map
  | 0x06 => .unmap
  | 0x07 => .budget
  | 0x08 => .report
  | 0x09 => .stage
  | 0x0A => .ckpt
  | 0x0B => .abandon
  | 0x0C => .logrel
  | 0x0D => .pkgnum
  | 0x0E => .winlist
  | 0x0F => .restore
  | _ => .slotBadState

/-- R163, R437. What Zitrum acts on next: the head of its queue, or a request whose wait is over. -/
def requestDue (s : State) : Option Todo :=
  if ¬ s.rt.zitrum then none
  else match s.ho.requests with
    | q :: _ =>
      if q.taken then (if (packetTouch s q).isSome then some (todo s .launchAcceptance {}) else none) else some (todo s (requestRow (codeOfReq s q)) {})
    | [] =>
      if s.ho.waiting.any fun q => q.code == 4 && !compBusy s (bodyWord q 0 % 64) then some (todo s .rmcomp { a := 1 })
      else if s.ho.waiting.any (unmapWaits s) then some (todo s .unmap { a := 1 })
      else if s.ho.waiting.any (restoreWaits s) then some (todo s .restore { a := 1 })
      else if s.ho.stageGo ∧ s.ho.waiting.any (fun q => q.code == 9) then some (todo s .stageGo {})
      else none

/-- R18, R93, R204. A core to be replaced, an invalidation that is complete, a session to be rekeyed. -/
def upkeepDue (s : State) : Option Todo :=
  match s.cr.absent.find? (canSubstitute s) with
  | some core => some (todo s .coreSubstitute { a := core })
  | none => match s.ms.invals.find? (invalDone s) with
    | some i => some (todo s .compartmentInvalidation { a := i.comp })
    | none => (s.en.sessions.find? fun e => decide (2 ^ 48 - 2 ^ 10 ≤ e.2.counter)).map
        fun e => todo s .sessionRekey { a := e.1 }

/-- R434. The host access that has waited longest, where it can be performed. -/
def hostDue (s : State) : Option Todo :=
  match s.ho.behind with
  | v :: rest => if hostReady s v then some (todo { s with ho := { s.ho with behind := rest } } v.row v.arg) else none
  | [] => none

/-- What comes after the issue of a cycle: late events, and what the state itself calls for. -/
def afterIssue (s : State) : Option Todo :=
  match firstDue s.cycle false s.agenda with
  | some d => some (takeDue s d)
  | none => hostDue s <|> boardDue s <|> launchDue s <|> requestDue s <|> upkeepDue s

/-! ### The cycle -/

/-- R414. Whether the Timetable holds a context in this cycle: its bundle came to issue and was held, or would be; or what
another of its activities lacks is still lacking. -/
def timetableHolds (s : State) (c : Nat) (x : Ctx) : Bool :=
  x.heldAt == some s.cycle ||
    (x.run == .running && x.tried != some s.cycle && x.blocked == .budget && ((bundleIssue s c).ctx c).blocked == .budget) ||
    s.tt.wants.any fun w => wantStands s w && !served s w.die w.cls w.res w.site &&
      (w.who == c || s.en.cmds.any (fun k => k.id + 2 ^ 20 == w.who && k.ctx == c) ||
        s.ms.accs.any fun a => a.id + 2 ^ 20 == w.who && a.ctx == c)

/-- R414. What a context counts in a cycle: 1 bound, 3 blocked (the idle cycle of a yield among them, R415), 4 ready
without issuing, 7 held by the Timetable. -/
def tickCtx (s : State) (c : Nat) (x : Ctx) : Ctx :=
  if x.run = .unbound ∨ x.counters.isEmpty then x
  else
    let x := bumpCtx 1 1 x
    let x := if timetableHolds s c x then bumpCtx 7 1 x else x
    if x.run ≠ .running ∨ (x.tried = some s.cycle ∧ x.blocked = .none) then x
    else if ready s c then bumpCtx 4 1 x
    else bumpCtx 3 1 x

/-- The cycle ends. -/
def tick (s : State) : State :=
  { s with cycle := s.cycle + 1, ctxs := s.ctxs.map fun (e : Nat × Ctx) => (e.1, tickCtx s e.1 e.2) }

/-- What the package does next by itself; none where the cycle is over. -/
def nextTodo (s : State) : Option Todo :=
  match beforeIssue s with
  | some t => some t
  | none => match turnDue s with
    | some c => some (if limitReached s c then todo s .fairnessLimit { a := coreOf c } else turn s c)
    | none => afterIssue s

/-- What a power-up needs (R9): a package without power waits for it, and loses every other event. -/
def isPowerUp (e : Event) : Bool := e.row == .powerUp

/-- R433, R434. Whether an event is an access of the host through its port. -/
def isHostAccess (row : Instr) : Bool :=
  row == .hostWindowAccess || row == .hostRegisterWrite || row == .slotPost || row == .slotFree || row == .slotBadState || row == .stageGo

/-- R434. Whether an event from outside is a host access that waits behind an earlier one. -/
def waitsBehind (s : State) (e : Event) : Bool := s.powered && isHostAccess e.row && !s.ho.behind.isEmpty

/-- An event from outside that is not performed now: a host access joins those that wait, any other is lost. -/
def passInput (s : State) (e : Event) (rest : List Event) : State :=
  { s with inputs := rest, ho := { s.ho with behind := if waitsBehind s e then s.ho.behind ++ [e] else s.ho.behind } }

/-- An event from outside: one that has a word is no event, and is lost. -/
def inputTodo (s : State) (e : Event) (rest : List Event) : Option Todo :=
  if (moveOf e.row).isSome ∨ (¬ s.powered ∧ ¬ isPowerUp e) ∨ waitsBehind s e then none
  else some (todo { s with inputs := rest } e.row e.arg)

/-! ### A word to run (the start of a program stands for the load of its image: assumption 5) -/

/-- R168. A Board slot of a team of one context: context 0 of the package, with an image of one bundle at 0. -/
def loneSlot : BitVec 512 :=
  ((1 : BitVec 512) <<< 63) ||| ((1 : BitVec 512) <<< 56) ||| ((1 : BitVec 512) <<< 44) ||| ((1 : BitVec 512) <<< 64) |||
    ((1 : BitVec 512) <<< 153) ||| ((1 : BitVec 512) <<< 140)

/-- A context at its first bundle, with nothing that comes before it. -/
def freshTurn (x : Ctx) : Ctx :=
  { x with
    run := .running, slot := 0, pc := 0, flights := [], shadow := none, down := none, pendTrap := none, reissue := none
    preempt := false, blocked := .none, tried := none, notBefore := 0
    units := x.units.filter fun u => match u.2 with
      | .ephemeral _ => false
      | .empty => true
      | .failed _ _ => true }

/-- A bundle with a move in slot 0 as the next that issues: in the instruction store of core 0, as the image of a team of
context 0, with nothing else due before it. -/
def placeMove (s : State) (w : BitVec 24) : State :=
  { s with
    powered := true, inputs := [], agenda := []
    ctxs := [(0, freshTurn (s.ctx 0))]
    cr := { s.cr with
      istore := tput 0 (bundleOfMove w) s.cr.istore, failBundle := sdel 0 s.cr.failBundle
      cores := tput 0 { cur := 0, run := 0 } s.cr.cores }
    tm := { s.tm with boards := tput 0 loneSlot s.tm.boards }
    tt := { s.tt with nextBoundary := max s.tt.nextBoundary (s.cycle + 1) } }

end Sys2Proof.Machine
end

