-- ==== Sys2Proof/Machine/Step.lean ====
section
/-! DEFINITION. One step of the package: an event from outside, or what the package does next, or the end of the
cycle. -/

namespace Sys2Proof.Machine

/-- Runs what is to be done. -/
def runTodo (t : Todo) : Host.Outcome State Fault Refusal := exec t.row t.st

/-- One step. Events from outside come first, in order; a package without power runs nothing (R9). -/
def step (s : State) : Host.Outcome State Fault Refusal :=
  match s.inputs with
  | e :: rest => match inputTodo s e rest with
    | some t => runTodo t
    | none => .next (passInput s e rest)
  | [] =>
    if ¬ s.powered then .fault .unpowered
    else match nextTodo s with
      | some t => runTodo t
      | none => .next (tick s)

/-- A state whose next step runs the move of a word: the image of the word's bundle, bound to context 0. Only a word of
24 bits is a move. -/
def State.withFetchWord (s : State) (nbits w : Nat) : State :=
  if nbits = 24 then placeMove s (BitVec.ofNat 24 w) else s

end Sys2Proof.Machine
end

