-- ==== Sys2Proof/Safety.lean ====
section
/-! DEFINITION. The terms in which the statements speak: when the one move of a bundle can issue, what a bundle leaves
alone, and the invariant of the memories. -/

namespace Sys2Proof.Machine

/-! ### The invariant (R6) -/

/-- Every memory of the package is in its canonical form: HBM and the second tier, the scratchpads, the staging window. -/
def memoriesOk (s : State) : Bool := memWf s.ms.mem && memWf s.ms.spad && memWf s.ho.staging

/-! ### One move in its bundle (R241, R254, R265) -/

/-- The context whose bundle issues. -/
abbrev State.cx (s : State) : Ctx := s.ctx s.iss.ctx

/-- R254, R255. The value that the move of the issue latch reads. -/
def soleValue (m : Mv) (s : State) : Vec := srcValue s s.iss.ctx m.s.toNat s.iss.limm

/-- The move of the issue latch in its slot. -/
def solePart (m : Mv) (a : Act) (s : State) : Part :=
  { slot := s.iss.slot, mv := m, act := a, inv := s.iss.inv, malias := s.iss.malias }

/-- What a trigger alone in its bundle sees: no other move writes an operand port (R259). -/
def soleReq (o : Op) (m : Mv) (s : State) : Req :=
  let r : Req :=
    { c := s.iss.ctx, slot := s.iss.slot, v := soleValue m s, ov := [], malias := s.iss.malias, peers := [] }
  { r with peers := [o.peer r s] }

/-- R241. The guard of the move holds. -/
def guardHolds (m : Mv) (s : State) : Prop := m.g = 0 ∨ s.cx.guards.getLsbD m.g.toNat ≠ s.iss.inv

/-- R242, R254. The move is a sound one: an assigned source, and F = 1 only with a register source or, for `toReg`, a
register destination. -/
def moveSound (m : Mv) (toReg : Bool) : Prop :=
  srcAssigned m.s.toNat = true ∧ (m.f = false ∨ isRegPort m.s.toNat = true ∨ toReg = true)

/-- R250, R257. The source of the move can be read now: a register is full, a queue is not empty. -/
def sourceReady (m : Mv) (s : State) : Prop :=
  (isRegPort m.s.toNat = true → regState s.cx (resolve s.cx m.s.toNat) s.cycle = .full) ∧
    (0x380 ≤ m.s.toNat → m.s.toNat < 0x390 → queueOf s.cx (m.s.toNat - 0x380) ≠ [])

/-- R265. The move can issue, as far as its guard and source go. -/
def canMove (m : Mv) (toReg : Bool) (s : State) : Prop := moveSound m toReg ∧ guardHolds m s ∧ sourceReady m s

/-- R265. The trigger of the move starts: no decode trap, no trap of its checks, no hold, room in the pending-byte counters (R140), and budget for what it is
charged (R206); `s1` is the state that its requests, performed before the issue, leave. -/
structure Starts (o : Op) (m : Mv) (s s1 : State) : Prop where
  dec : o.dec s.cx s.iss.slot = none
  shape : o.shape (soleReq o m s) (fun _ => true) s = none
  early : o.early (soleReq o m s) s = []
  hold : o.hold (soleReq o m s) s = none
  adds : pendFits s.cx.pend (o.adds (soleReq o m s) s) = true
  budget : blocksServed s s.iss.ctx (o.blocks (soleReq o m s) s) = true
  checks : o.checks (soleReq o m s) s = []
  sent : ∃ s0, o.commit (soleReq o m s) s = .go s0 ∧ o.last (soleReq o m s) s0 = .go s1

/-- R261. The write-back port of a unit names a register, or is empty. -/
def wbOk (unit : Nat) (s : State) : Prop :=
  (opnd s.cx (wbPort unit)).toNat % 1024 < 0x200 ∨ (opnd s.cx (wbPort unit)).toNat % 1024 = 0x3FF

/-- R261. The effects of a write-back: the value to the register that the port names, if it names one. -/
def wbActs (unit : Nat) (s : State) (v : Vec) : List Land :=
  if (opnd s.cx (wbPort unit)).toNat % 1024 < 0x200 then
    [.reg (resolve s.cx ((opnd s.cx (wbPort unit)).toNat % 1024)) v] else []

/-! ### What a bundle leaves alone -/

/-- Nothing but the contexts, and which of them a core issues from, differs, and of the contexts only one. -/
def onlyCtx (c : Nat) (s t : State) : Prop :=
  t = { s with ctxs := t.ctxs, cr := { s.cr with cores := t.cr.cores } } ∧ ∀ k, k ≠ c → t.ctx k = s.ctx k

/-- Of a context only what every issued bundle moves on differs: the next bundle, loops and the shadow, results in
flight, queues popped, counts, and the bookkeeping of holds. -/
def onlyFlow (x y : Ctx) : Prop :=
  y = { x with
    pc := y.pc, loops := y.loops, shadow := y.shadow, jump := y.jump, flights := y.flights, replay := []
    queues := y.queues, bundles := x.bundles + 1, counters := y.counters, dirty := y.dirty
    blocked := .none, sent := false, answer := none, clusterAt := none, early := none, walked := [], unmade := [], paid := [], onLine := false }

/-- R257. The queues after a move: the head of the queue that it reads is popped, and nothing else. -/
def popsOnly (m : Mv) (x y : Ctx) : Prop :=
  y.queues = (if 0x380 ≤ m.s.toNat ∧ m.s.toNat < 0x390 then
    tput (m.s.toNat - 0x380) (queueOf x (m.s.toNat - 0x380)).tail x.queues else x.queues)

/-- R265, R267, R270. Where a context goes on that is in no shadow and no loop, after a bundle without a transfer. -/
def goesOn (x y : Ctx) : Prop :=
  x.shadow = none → x.loops = [] → x.jump = none → y.pc = x.pc + 1 ∧ y.shadow = none ∧ y.loops = []

/-- R260, R216. The results in flight after a bundle: those before it, with what a snapshot captured, and new ones. -/
def sends (x y : Ctx) (cycle : Nat) (new : List Flight) : Prop :=
  y.flights = (x.replay.map fun f => { f with due := f.due + cycle }) ++ x.flights ++ new

/-- R260. What the bundle of a trigger that sends one result does: it issues, touches its own context only, and leaves
there everything alone but the flow of the program and that result. -/
def sendsOne (m : Mv) (s t : State) (f : Flight) : Prop :=
  onlyCtx s.iss.ctx s t ∧ onlyFlow s.cx (t.ctx s.iss.ctx) ∧ popsOnly m s.cx (t.ctx s.iss.ctx) ∧
    goesOn s.cx (t.ctx s.iss.ctx) ∧ sends s.cx (t.ctx s.iss.ctx) s.cycle [f]

/-! ### The rows of the operations with a result of fixed latency -/

/-- R304, R305. The `ia` operations: the unit, the move, and the result over a, b and the value. -/
def iaRow : Instr → Option (BitVec 1 × Mv × (W64 → W64 → W64 → W64))
  | .iaAdd u m => some (u, m, fun a _ v => BitVec.ofNat 64 (a.toNat + v.toNat))
  | .iaSub u m => some (u, m, fun a _ v => BitVec.ofInt 64 ((a.toNat : Int) - v.toNat))
  | .iaAnd u m => some (u, m, fun a _ v => a &&& v)
  | .iaOr u m => some (u, m, fun a _ v => a ||| v)
  | .iaXor u m => some (u, m, fun a _ v => a ^^^ v)
  | .iaAndn u m => some (u, m, fun a _ v => a &&& ~~~v)
  | .iaShl u m => some (u, m, fun a _ v => if 64 ≤ v.toNat then 0 else BitVec.ofNat 64 (a.toNat * 2 ^ v.toNat))
  | .iaShr u m => some (u, m, fun a _ v => if 64 ≤ v.toNat then 0 else BitVec.ofNat 64 (a.toNat / 2 ^ v.toNat))
  | .iaSar u m => some (u, m, fun a _ v =>
      if 64 ≤ v.toNat then (if a.toInt < 0 then BitVec.ofNat 64 (2 ^ 64 - 1) else 0)
      else BitVec.ofInt 64 (a.toInt / 2 ^ v.toNat))
  | .iaRotl u m => some (u, m, fun a _ v => a.rotateLeft (v.toNat % 64))
  | .iaMin u m => some (u, m, fun a _ v => if a.toInt ≤ v.toInt then a else v)
  | .iaMax u m => some (u, m, fun a _ v => if v.toInt ≤ a.toInt then a else v)
  | .iaMinu u m => some (u, m, fun a _ v => if a.toNat ≤ v.toNat then a else v)
  | .iaMaxu u m => some (u, m, fun a _ v => if v.toNat ≤ a.toNat then a else v)
  | .iaEq u m => some (u, m, fun a _ v => if a = v then 1 else 0)
  | .iaNe u m => some (u, m, fun a _ v => if a = v then 0 else 1)
  | .iaLt u m => some (u, m, fun a _ v => if a.toInt < v.toInt then 1 else 0)
  | .iaLtu u m => some (u, m, fun a _ v => if a.toNat < v.toNat then 1 else 0)
  | .iaLe u m => some (u, m, fun a _ v => if a.toInt ≤ v.toInt then 1 else 0)
  | .iaLeu u m => some (u, m, fun a _ v => if a.toNat ≤ v.toNat then 1 else 0)
  | .iaSel u m => some (u, m, fun a b v => if b.toNat % 2 = 1 then a else v)
  | .iaExt u m => some (u, m, fun a b v =>
      BitVec.ofNat 64 (a.toNat / 2 ^ (b.toNat % 64) % 2 ^ (min v.toNat 64)))
  | .iaClz u m => some (u, m, fun _ _ v => leadingZeros v)
  | .iaPopc u m => some (u, m, fun _ _ v => setBits v)
  | _ => none

/-- R307, R308. The `am` operations with a result: the move, the low half, and the high half where there is one. -/
def amRow : Instr → Option (Mv × (W64 → W64 → W64 → W64) × Option (W64 → W64 → W64 → W64))
  | .amAdd m => some (m, fun a _ v => BitVec.ofNat 64 (a.toNat + v.toNat), none)
  | .amSub m => some (m, fun a _ v => BitVec.ofInt 64 ((a.toNat : Int) - v.toNat), none)
  | .amMul m => some (m, fun a _ v => BitVec.ofInt 64 (a.toInt * v.toInt),
      some fun a _ v => BitVec.ofInt 64 (a.toInt * v.toInt / 2 ^ 64))
  | .amMulu m => some (m, fun a _ v => BitVec.ofNat 64 (a.toNat * v.toNat),
      some fun a _ v => BitVec.ofNat 64 (a.toNat * v.toNat / 2 ^ 64))
  | .amMad m => some (m, fun a b v => BitVec.ofInt 64 (a.toInt * b.toInt + v.toInt),
      some fun a b v => BitVec.ofInt 64 ((a.toInt * b.toInt + v.toInt) / 2 ^ 64))
  | .amMadu m => some (m, fun a b v => BitVec.ofNat 64 (a.toNat * b.toNat + v.toNat),
      some fun a b v => BitVec.ofNat 64 ((a.toNat * b.toNat + v.toNat) / 2 ^ 64))
  | .amLsa m => some (m, fun a b v => BitVec.ofNat 64 (a.toNat + v.toNat * 2 ^ (b.toNat % 64)), none)
  | _ => none

/-- R309. The index-base writes: the move and the view. -/
def baseRow : Instr → Option (Mv × Nat)
  | .amWxs m => some (m, 0)
  | .amWxd m => some (m, 1)
  | .amWxv m => some (m, 2)
  | .amWxh m => some (m, 3)
  | _ => none

/-- R311. The unconditional transfers: the move and the bundles of the shadow. -/
def jumpRow : Instr → Option (Mv × Nat)
  | .brJmp m => some (m, 2)
  | .brCall m => some (m, 3)
  | .brRet m => some (m, 3)
  | _ => none

/-- R312. The conditional transfers: the move, and when they are taken. -/
def branchRow : Instr → Option (Mv × (W64 → W64 → Prop))
  | .brJz m => some (m, fun a _ => a = 0)
  | .brJnz m => some (m, fun a _ => a ≠ 0)
  | .brJeq m => some (m, fun a b => a = b)
  | .brJne m => some (m, fun a b => a ≠ b)
  | .brJlt m => some (m, fun a b => a.toInt < b.toInt)
  | .brJge m => some (m, fun a b => b.toInt ≤ a.toInt)
  | .brJltu m => some (m, fun a b => a.toNat < b.toNat)
  | .brJgeu m => some (m, fun a b => b.toNat ≤ a.toNat)
  | _ => none

/-- R341. Lane k of w bits of a number. -/
def natLane (w k n : Nat) : Nat := n / 2 ^ (w * k) % 2 ^ w

/-- R341, R347. A lane of an integer TYPE as its integer; and the lanes, wrapped and limited, that an integer gives. -/
def intLane (x : VArg) (c : Nat) : Int := if x.ty = 0xA ∨ c < 2 ^ (x.w - 1) then c else (c : Int) - 2 ^ x.w
def modLane (x : VArg) (i : Int) : Nat × Flags := ((i % 2 ^ x.w).toNat, 0)
def satLane (x : VArg) (i : Int) : Nat × Flags :=
  let lo : Int := if x.ty = 0xA then 0 else -2 ^ (x.w - 1)
  let hi : Int := if x.ty = 0xA then 255 else 2 ^ (x.w - 1) - 1
  (((max lo (min hi i)) % 2 ^ x.w).toNat, if i < lo ∨ hi < i then fSAT else 0)

/-- A vector operation as its tables give it (R342, R346 to R356): unit, move, latency, what it asks of the type port, the
width of the lanes of its result and how many there are, and the value and the flags of each. -/
structure VRow where
  unit : Nat
  m : Mv
  lat : Nat
  spec : VSpec
  width : VArg → Nat
  count : VArg → Nat
  val : VArg → Nat → Nat × Flags

/-- A row whose lane k is made from lane k of `.a`, `.b`, `.m` and the value. -/
def laneRow (m : Mv) (lat : Nat) (spec : VSpec) (f : VArg → Nat → Nat → Nat → Nat → Nat → Nat × Flags) : VRow :=
  { unit := 6, m := m, lat := lat, spec := spec, width := (·.w), count := (·.len)
    val := fun x k => f x k (natLane x.w k x.a) (natLane x.w k x.b) (natLane x.w k x.m) (natLane x.w k x.v) }

/-- A row whose bit k of 2,048 is given. -/
def bitRow (unit : Nat) (m : Mv) (lat : Nat) (f : VArg → Nat → Bool) : VRow :=
  { unit := unit, m := m, lat := lat, spec := { cls := none }, width := fun _ => 1, count := fun _ => 2048
    val := fun x k => (if f x k then 1 else 0, 0) }

/-- A row of `vs` whose lane k of TYPE is given, and which sets no flag. -/
def pickRow (m : Mv) (spec : VSpec) (f : VArg → Nat → Nat) : VRow :=
  { unit := 7, m := m, lat := 6, spec := spec, width := (·.w), count := (·.len), val := fun x k => (f x k, 0) }

/-- A row of `vs` with one lane of a width. -/
def oneRow (m : Mv) (spec : VSpec) (w : VArg → Nat) (f : VArg → Nat × Flags) : VRow :=
  { unit := 7, m := m, lat := 6, spec := spec, width := w, count := fun _ => 1, val := fun x _ => f x }

/-- R350. The products of the dot products. -/
def dotRow (m : Mv) (spec : VSpec) (f : VArg → Nat → Nat × Flags) : VRow :=
  { unit := 6, m := m, lat := 6, spec := spec, width := fun _ => 32, count := fun _ => 64, val := f }

/-- R345 to R350. The `vx` operations: lane k from the lanes a, b, m and v. -/
def vxRow : Instr → Option VRow
  | .vxAdd m => some <| laneRow m 4 { cls := some clsFI, rnd := rndFI, able := fRound } fun x k a _ _ v =>
      addLane x k a v false
  | .vxSub m => some <| laneRow m 4 { cls := some clsFI, rnd := rndFI, able := fRound } fun x k a _ _ v =>
      addLane x k a v true
  | .vxMul m => some <| laneRow m 4 { cls := some clsFI, rnd := rndFI, able := fRound } fun x k a _ _ v =>
      fpOrInt x (fpLane x k [laneNum x a, laneNum x v] [(laneNum x a).mul (laneNum x v)]) (modLane x (intLane x a * intLane x v))
  | .vxFma m => some <| laneRow m 6 { cls := some clsF, rnd := fun _ => true, able := fRound } fun x k a b _ v =>
      fusedLane x k a b v false false
  | .vxFms m => some <| laneRow m 6 { cls := some clsF, rnd := fun _ => true, able := fRound } fun x k a b _ v =>
      fusedLane x k a b v false true
  | .vxFnma m => some <| laneRow m 6 { cls := some clsF, rnd := fun _ => true, able := fRound } fun x k a b _ v =>
      fusedLane x k a b v true false
  | .vxMin m => some <| laneRow m 4 { cls := some clsE, able := fINV } fun x _ a _ _ v => extremeCode x.ty false a v
  | .vxMax m => some <| laneRow m 4 { cls := some clsE, able := fINV } fun x _ a _ _ v => extremeCode x.ty true a v
  | .vxAbs m => some <| laneRow m 4 { cls := some clsE, able := fINV } fun x _ _ _ _ v =>
      fpOrInt x (signLane x v (v % 2 ^ (x.w - 1))) (modLane x (intLane x v).natAbs)
  | .vxNeg m => some <| laneRow m 4 { cls := some clsE, able := fINV } fun x _ _ _ _ v =>
      fpOrInt x (signLane x v (Nat.xor v (2 ^ (x.w - 1)))) (modLane x (-intLane x v))
  | .vxAddsat m => some <| laneRow m 4 { cls := some clsI, able := fSAT } fun x _ a _ _ v =>
      satLane x (intLane x a + intLane x v)
  | .vxSubsat m => some <| laneRow m 4 { cls := some clsI, able := fSAT } fun x _ a _ _ v =>
      satLane x (intLane x a - intLane x v)
  | .vxMulhi m => some <| laneRow m 4 { cls := some clsI } fun x _ a _ _ v =>
      modLane x ((intLane x a * intLane x v).fdiv (2 ^ x.w))
  | .vxAnd m => some <| bitRow 6 m 4 fun x k => x.a.testBit k && x.v.testBit k
  | .vxOr m => some <| bitRow 6 m 4 fun x k => x.a.testBit k || x.v.testBit k
  | .vxXor m => some <| bitRow 6 m 4 fun x k => x.a.testBit k != x.v.testBit k
  | .vxAndn m => some <| bitRow 6 m 4 fun x k => x.a.testBit k && !x.v.testBit k
  | .vxShl m => some <| laneRow m 4 { cls := some clsI } fun x _ a _ _ v => (if x.w ≤ v then 0 else a * 2 ^ v, 0)
  | .vxShr m => some <| laneRow m 4 { cls := some clsI } fun x _ a _ _ v => (if x.w ≤ v then 0 else a / 2 ^ v, 0)
  | .vxSar m => some <| laneRow m 4 { cls := some clsI } fun x _ a _ _ v =>
      modLane x (if x.w ≤ v then (if 2 ^ (x.w - 1) ≤ a then -1 else 0) else (sextInt a x.w).fdiv (2 ^ v))
  | .vxCeq m => some <| laneRow m 4 { cls := some clsE, able := fINV } fun x _ a _ _ v => cmpLane x a v false numEq
  | .vxCne m => some <| laneRow m 4 { cls := some clsE, able := fINV } fun x _ a _ _ v =>
      cmpLane x a v true fun p q => !numEq p q
  | .vxClt m => some <| laneRow m 4 { cls := some clsE, able := fINV } fun x _ a _ _ v => cmpLane x a v false numBelow
  | .vxCle m => some <| laneRow m 4 { cls := some clsE, able := fINV } fun x _ a _ _ v =>
      cmpLane x a v false fun p q => numBelow p q || numEq p q
  | .vxCltu m => some <| laneRow m 4 { cls := some clsE, able := fINV } fun x _ a _ _ v =>
      patLane x a v (decide (a < v))
  | .vxCleu m => some <| laneRow m 4 { cls := some clsE, able := fINV } fun x _ a _ _ v =>
      patLane x a v (decide (a ≤ v))
  | .vxSel m => some <| laneRow m 4 { cls := some clsE } fun _ _ a _ m v => (if m = 0 then v else a, 0)
  | .vxClamp m => some <| laneRow m 4 { cls := some clsE, able := fINV } fun x _ a b _ v =>
      let p := extremeCode x.ty true v a
      let q := extremeCode x.ty false p.1 b
      (q.1, p.2 ||| q.2)
  | .vxCopysign m => some <| laneRow m 4 { cls := some clsP, able := fINV } fun x _ a _ _ v =>
      signLane x a (a % 2 ^ (x.w - 1) + v / 2 ^ (x.w - 1) * 2 ^ (x.w - 1))
  | .vxAbsd m => some <| laneRow m 4 { cls := some clsFI, rnd := rndFI, able := fRound } fun x k a _ _ v =>
      absdLane x k a v
  | .vxPopc m => some <| laneRow m 4 { cls := some clsE } fun x _ _ _ _ v =>
      (((List.range x.w).filter fun i => v.testBit i).length, 0)
  | .vxAvg m => some <| laneRow m 4 { cls := some clsI } fun x _ a _ _ v =>
      modLane x ((intLane x a + intLane x v + 1).fdiv 2)
  | .vxBcast m => some <| laneRow m 4 { cls := some clsE } fun x _ _ _ _ _ => (natLane x.w 0 x.v, 0)
  | .vxIota m => some <| laneRow m 4 { cls := some clsFI, rnd := rndFI, able := fRound } fun x k _ _ _ _ =>
      let c := natLane x.w 0 x.v
      fpOrInt x (fpLane x k [laneNum x c] [laneNum x c, Num.ofInt k]) (modLane x (intLane x c + k))
  | .vxDot4 m => some <| dotRow m { cls := some fun t => t == 0x9 || t == 0xA } fun x k =>
      let p (j : Nat) : Int := intLane x (natLane 8 (4 * k + j) x.a) * intLane x (natLane 8 (4 * k + j) x.b)
      (((sextInt (natLane 32 k x.v) 32 + p 0 + p 1 + p 2 + p 3) % 2 ^ 32).toNat, 0)
  | .vxDot2 m => some <| dotRow m { cls := some fun t => t == 0x6 || t == 0x7, rnd := fun _ => true, able := fRound }
      fun x k =>
        let d (n j : Nat) : Num := decodeElem x.ty (natLane 16 (2 * k + j) n)
        let c := decodeFp .fp32 (natLane 32 k x.v)
        fplane .fp32 (x.rndAt k) [d x.a 0, d x.b 0, d x.a 1, d x.b 1, c] [(d x.a 0).mul (d x.b 0), (d x.a 1).mul (d x.b 1), c]
  | _ => none

/-- R355. Lane k of a scan: the lane before it and lane k of the value, rounded or limited once. -/
def scanAt (x : VArg) : Nat → Nat × Flags
  | 0 =>
    let c := natLane x.w 0 x.v
    fpOrInt x (fpLane x 0 [laneNum x c] [laneNum x c]) (c, 0)
  | k + 1 =>
    let p := (scanAt x k).1
    let c := natLane x.w (k + 1) x.v
    fpOrInt x (fpLane x (k + 1) [laneNum x p, laneNum x c] [laneNum x p, laneNum x c]) (satLane x (intLane x p + intLane x c))

/-- The lanes of a number. -/
def allLanes (x : VArg) (n : Nat) : List Nat := (List.range x.len).map fun k => natLane x.w k n

/-- R351. The lanes of `.m` that differ from 0, by number. -/
def chosen (x : VArg) : List Nat := (List.range x.len).filter fun k => natLane x.w k x.m != 0

/-- R351 to R356. The `vs` operations. -/
def vsRow : Instr → Option VRow
  | .vsLut3 m => some <| bitRow 7 m 6 fun x k =>
      x.v.testBit ((if x.a.testBit k then 4 else 0) + (if x.b.testBit k then 2 else 0) + (if x.c.testBit k then 1 else 0))
  | .vsFsl m => some <| pickRow m { cls := some clsI } fun x k =>
      (natLane x.w k x.a * 2 ^ (x.n % x.w) % 2 ^ x.w) ||| natLane x.w k x.b / 2 ^ (x.w - x.n % x.w)
  | .vsFsr m => some <| pickRow m { cls := some clsI } fun x k =>
      natLane x.w k x.b / 2 ^ (x.n % x.w) ||| (natLane x.w k x.a * 2 ^ (x.w - x.n % x.w) % 2 ^ x.w)
  | .vsVrot m => some <| pickRow m { cls := some clsE } fun x k => natLane x.w ((((k : Int) - x.n) % x.len).toNat) x.a
  | .vsVshl m => some <| pickRow m { cls := some clsE } fun x k => if x.n ≤ k then natLane x.w (k - x.n) x.a else 0
  | .vsVshr m => some <| pickRow m { cls := some clsE } fun x k => if k + x.n < x.len then natLane x.w (k + x.n) x.a else 0
  | .vsPerm m => some <| pickRow m { cls := some clsE } fun x k => natLane x.w (natLane x.w k x.v % x.len) x.a
  | .vsBperm m => some
      { unit := 7, m := m, lat := 6, spec := { cls := none }, width := fun _ => 8, count := fun _ => 256
        val := fun x k => (natLane 8 (natLane 8 k x.v) x.a, 0) }
  | .vsCompress m => some <| pickRow m { cls := some clsE } fun x k =>
      match (chosen x)[k]? with
      | some j => natLane x.w j x.v
      | none => 0
  | .vsExpand m => some <| pickRow m { cls := some clsE } fun x k =>
      if natLane x.w k x.m = 0 then 0 else natLane x.w ((chosen x).filter (· < k)).length x.v
  | .vsCvt m => some
      { unit := 7, m := m, lat := 6
        spec := { cls := some clsE, scls := some clsE, rnd := fun _ => true, able := fRound ||| fSAT }
        width := (·.w), count := fun x => 2048 / max (tyBits x.sty) x.w
        val := fun x k => convertElem x.sty x.ty (x.rndAt k) (natLane (tyBits x.sty) k x.v) }
  | .vsCvtzb4 m => some <| oneRow m { cls := none, scls := some clsF, rnd := fun _ => true, able := fRound }
      (fun _ => 2048) cvtzb4
  | .vsCvtmx m => some <| oneRow m
      { cls := some fun t => t == 0x1 || t == 0x2 || t == 0x3, scls := some clsF, rnd := fun _ => true, able := fRound }
      (fun _ => 2048) cvtmx
  | .vsRedsum m => some <| oneRow m { cls := some clsFI, rnd := rndFI, able := fRound ||| fSAT } (·.w) fun x =>
      match fpOf x.ty with
      | some f =>
        let terms := ((allLanes x x.v).map (laneNum x)).filter fun n => !(n.isZero && n.neg?)
        if terms = [] then (0, 0) else fplane f (x.rndAt 0) terms terms
      | none => satLane x ((allLanes x x.v).map (intLane x)).sum
  | .vsRedmax m => some <| oneRow m { cls := some clsE, able := fINV } (·.w) (redExtreme true)
  | .vsRedmin m => some <| oneRow m { cls := some clsE, able := fINV } (·.w) (redExtreme false)
  | .vsRedand m => some <| oneRow m { cls := some clsI } (·.w) fun x => ((allLanes x x.v).foldl (· &&& ·) (2 ^ x.w - 1), 0)
  | .vsRedor m => some <| oneRow m { cls := some clsI } (·.w) fun x => ((allLanes x x.v).foldl (· ||| ·) 0, 0)
  | .vsRedxor m => some <| oneRow m { cls := some clsI } (·.w) fun x => ((allLanes x x.v).foldl (· ^^^ ·) 0, 0)
  | .vsPack m => some
      { unit := 7, m := m, lat := 6, spec := { cls := some clsE }, width := fun _ => 1, count := (·.len)
        val := fun x k => (if natLane x.w k x.v = 0 then 0 else 1, 0) }
  | .vsUnpack m => some <| pickRow m { cls := some clsE } fun x k => if x.v.testBit k then 2 ^ x.w - 1 else 0
  | .vsTbl m => some <| pickRow m { cls := some clsE } fun x k =>
      let j := natLane x.w k x.v % (2 * x.len)
      if j < x.len then natLane x.w j x.a else natLane x.w (j - x.len) x.b
  | .vsScan m => some
      { unit := 7, m := m, lat := 6, spec := { cls := some clsFI, rnd := rndFI, able := fRound ||| fSAT }
        width := (·.w), count := (·.len), val := scanAt }
  | .vsZip m => some <| pickRow m { cls := some clsE } fun x k => natLane x.w (k / 2) (if k % 2 = 0 then x.a else x.v)
  | .vsUnzip m => some <| pickRow m { cls := some clsE } fun x k =>
      if 2 * k < x.len then natLane x.w (2 * k) x.a else natLane x.w (2 * k - x.len) x.v
  | .vsBcastl m => some <| pickRow m { cls := some clsE } fun x _ => natLane x.w (x.n % x.len) x.a
  | .vsExtr m => some <| oneRow m { cls := some clsE } (·.w) fun x => (natLane x.w (x.n % x.len) x.a, 0)
  | .vsInsr m => some <| pickRow m { cls := some clsE } fun x k =>
      if k = x.n % x.len then natLane x.w 0 x.b else natLane x.w k x.a
  | .vsPcnt m => some <| oneRow m { cls := some clsE } (fun _ => 64) fun x => (((allLanes x x.v).filter (· ≠ 0)).length, 0)
  | .vsRev m => some <| pickRow m { cls := some clsE } fun x k => natLane x.w (x.len - 1 - k) x.v
  | _ => none

/-- R289, R346, R351. The operands of a row in its bundle. -/
def VRow.arg (r : VRow) (s : State) : VArg :=
  let p (k : Nat) : Nat := (opnd s.cx k).toNat
  let base := if r.unit = 6 then 0x2C0 else 0x300
  let j := if r.unit = 6 then 0 else 1
  { a := p base, b := p (base + 1), c := if r.unit = 6 then 0 else p (base + 2), m := p (base + 2 + j)
    v := (soleValue r.m s).toNat, ty := fld (p (base + 3 + j)) 3 0, sty := fld (p (base + 3 + j)) 11 8
    rnd := fld (p (base + 3 + j)) 6 4, sd := p (base + 4 + j), ix := p (base + 5 + j) }

/-- The value and the flags of a row's result: every lane as the row gives it, nothing above the lanes, and the flags of
all lanes together. -/
def VRow.gives (r : VRow) (x : VArg) (v : Vec) (fl : Flags) : Prop :=
  (∀ k, k < r.count x → natLane (r.width x) k v.toNat = (r.val x k).1 % 2 ^ r.width x) ∧
    v.toNat < 2 ^ (r.width x * r.count x) ∧
    fl = ((List.range (r.count x)).map fun k => (r.val x k).2).foldl (· ||| ·) 0

/-- R343. The type port of the unit passes the checks of a row. -/
def typesPass (r : VRow) (s : State) : Prop :=
  let base := if r.unit = 6 then 0x2C3 else 0x304
  let ty := fld (opnd s.cx base).toNat 3 0
  let sty := fld (opnd s.cx base).toNat 11 8
  let rnd := fld (opnd s.cx base).toNat 6 4
  (∀ f, r.spec.cls = some f → tyReserved ty = false ∧ f ty = true) ∧
    (∀ f, r.spec.scls = some f → tyReserved sty = false ∧ f sty = true) ∧
    (r.spec.rnd ty = true → rndReserved rnd = false)

/-- Bit lane k of w bits of a value. -/
def laneAt (w k : Nat) (v : Vec) : Nat := v.toNat / 2 ^ (w * k) % 2 ^ w

/-! ### Moves that start nothing (R242, R258 to R264) -/

/-- Whether a move writes a register. -/
def toReg : Instr → Bool
  | .moveRegister _ _ => true
  | _ => false

/-- R250, R252. What the units of the bytes `d` hold after a write at a cycle: nothing but full, or ephemeral until the
expiry cycle; every other unit holds what it held. -/
def unitsAfter (d : Dest) (eph : Bool) (cycle : Nat) (x y : Ctx) : Prop :=
  ∀ u, tget y.units u =
    if d.first / 2 ≤ u ∧ u < (d.first + d.size + 1) / 2 then
      (if eph then some (.ephemeral (512 * (cycle / 512) + 1023)) else none)
    else tget x.units u

/-- R247. The bytes of the register space after a write of a value to the bytes `d`. -/
def bytesAfter (d : Dest) (v : Vec) (x y : Ctx) : Prop :=
  ∀ n, n < 32768 → y.regs.extractLsb' (8 * n) 8 =
    if d.first ≤ n ∧ n < d.first + d.size then v.extractLsb' (8 * (n - d.first)) 8 else x.regs.extractLsb' (8 * n) 8

/-- R212, R268, R406. No decode cause forbids the operation where the context stands: a transfer stands outside shadows
and loops, a loop outside a shadow, a trap-return in a handler. -/
def placedWell (i : Instr) (s : State) : Prop :=
  ((jumpRow i).isSome ∨ (branchRow i).isSome → s.cx.shadow = none ∧ s.cx.loops = []) ∧
    (∀ m, i = .brLoop m → s.cx.shadow = none) ∧
    (∀ m, i = .sysTret m → tact s.cx = true ∧ s.cx.shadow = none ∧ s.cx.loops = [])

/-- What a bundle of one move that starts nothing does beside its write: its own context alone, the queue that it reads,
the next bundle, and no result. -/
def plainMove (s t : State) : Prop :=
  onlyCtx s.iss.ctx s t ∧ goesOn s.cx (t.ctx s.iss.ctx) ∧ sends s.cx (t.ctx s.iss.ctx) s.cycle []

/-! ### Memory accesses (R125, R320 to R323) -/

/-- The address that the trigger value gives. -/
def soleVa (m : Mv) (s : State) : Nat := (toW (soleValue m s)).toNat

/-- R128, R132, R134, R136, R139. Nothing is on its way that an access of the context must wait for: no access, tagged
request, matrix call or Sett operation of its own, no held reduction, no data command of its own behind a MALIAS slot; and no word of a
scratchpad has failed (R447). -/
structure MemQuiet (s : State) : Prop where
  accs : ∀ a ∈ s.ms.accs, a.ctx ≠ s.iss.ctx
  tags : ∀ q ∈ s.ms.tagq, q.ctx ≠ s.iss.ctx
  calls : ∀ k ∈ s.cr.calls, k.2.ctx ≠ s.iss.ctx
  items : ∀ o ∈ s.tm.settOps, o.ctx ≠ s.iss.ctx
  holds : s.ms.holds = []
  maliasFree : s.iss.malias = true → (∀ k ∈ s.en.cmds, k.ctx ≠ s.iss.ctx) ∧ ∀ w ∈ s.en.writes, w.ctx ≠ s.iss.ctx
  bad : s.ms.failSpad = []

/-- R323. An access whose bundle is held until it is accepted may issue: on the cluster path the target arbiter has
accepted it. -/
def accepted (va : Nat) (s : State) : Prop := pathOf va = 3 → ∃ n, s.cx.clusterAt = some n ∧ n ≤ s.cycle

/-- R261. The register that a unit's write-back port names. -/
def wbReg (unit : Nat) (s : State) : Option Dest :=
  if (opnd s.cx (wbPort unit)).toNat % 1024 < 0x200 then
    some (resolve s.cx ((opnd s.cx (wbPort unit)).toNat % 1024)) else none

/-- R320. A load: its unit, move, size, how its bytes become the result, and whether it is `ldvh`. -/
structure LoadRow where
  u : BitVec 1
  m : Mv
  post : Post
  vh : Bool := false

/-- R320, R324. The loads. -/
def loadRow : Instr → Option LoadRow
  | .lsLd8 u m => some ⟨u, m, { size := 1 }, false⟩
  | .lsLd8s u m => some ⟨u, m, { size := 1, sext := true }, false⟩
  | .lsLd16 u m => some ⟨u, m, { size := 2 }, false⟩
  | .lsLd16s u m => some ⟨u, m, { size := 2, sext := true }, false⟩
  | .lsLd32 u m => some ⟨u, m, { size := 4 }, false⟩
  | .lsLd32s u m => some ⟨u, m, { size := 4, sext := true }, false⟩
  | .lsLd64 u m => some ⟨u, m, { size := 8 }, false⟩
  | .lsLd128 u m => some ⟨u, m, { size := 16 }, false⟩
  | .lsLdvh u m => some ⟨u, m, { size := 128 }, true⟩
  | .lsLdv u m => some ⟨u, m, { size := 256 }, false⟩
  | .lsLdbc u m => some ⟨u, m, { size := 4, bcast := true }, false⟩
  | _ => none

/-- R320. The 256 bytes of a load's result as a number, from the little-endian number that its bytes give: extended
with zeros or with the sign to 8 bytes, or the word in all 64 lanes. -/
def loadNumber (p : Post) (n : Nat) : Nat :=
  if p.sext then (if n < 2 ^ (8 * p.size - 1) then n else 2 ^ 64 - (2 ^ (8 * p.size) - n))
  else if p.bcast then n * ((2 ^ 2048 - 1) / (2 ^ 32 - 1))
  else n

/-- R320. The result of a load from its bytes. -/
def loadValue (p : Post) (bs : List Byte) : Vec := BitVec.ofNat 2048 (loadNumber p (bytesNat bs))

/-- R320. A store: its unit, move, size, whether it is `stvh`, its data from `.a`, and the lanes it takes from `.b`. -/
structure StoreRow where
  u : BitVec 1
  m : Mv
  size : Nat
  vh : Bool := false
  data : Vec → Vec := id
  lanes : Bool := false

/-- R320, R324. The stores. -/
def storeRow : Instr → Option StoreRow
  | .lsSt8 u m => some ⟨u, m, 1, false, id, false⟩
  | .lsSt16 u m => some ⟨u, m, 2, false, id, false⟩
  | .lsSt32 u m => some ⟨u, m, 4, false, id, false⟩
  | .lsSt64 u m => some ⟨u, m, 8, false, id, false⟩
  | .lsSt128 u m => some ⟨u, m, 16, false, id, false⟩
  | .lsStvh u m => some ⟨u, m, 128, true, id, false⟩
  | .lsStv u m => some ⟨u, m, 256, false, id, false⟩
  | .lsStvm u m => some ⟨u, m, 256, false, id, true⟩
  | .lsStz u m => some ⟨u, m, 256, false, fun _ => 0, false⟩
  | _ => none

/-- The operand `.a` of a load/store unit, and the mask that `stvm` takes from `.b`. -/
def StoreRow.a (r : StoreRow) (s : State) : Vec := r.data (opnd s.cx (0x280 + 0x20 * r.u.toNat))
def StoreRow.mask (r : StoreRow) (s : State) : BitVec 64 := toW (opnd s.cx (0x281 + 0x20 * r.u.toNat))

/-- R320. Whether byte k of a store is written: for `stvm` when its lane's bit of `.b` is 1. -/
def StoreRow.writes (r : StoreRow) (s : State) (k : Nat) : Prop :=
  k < r.size ∧ (r.lanes = true → (r.mask s).getLsbD (k / 4) = true)

/-- What an access record of a store is. -/
def StoreRow.kind (r : StoreRow) (s : State) : AccKind := if r.lanes then .lanes (r.mask s) else .store

/-- R125. The record of an access that the bundle of one trigger sends on its way. -/
def soleAcc (m : Mv) (s : State) (kind : AccKind) (place : Place) (pa size : Nat) (data : Vec) (cmp : BitVec 32)
    (dest : Option Dest) : Acc :=
  { id := s.nextId, ctx := s.iss.ctx, num := s.cx.bundles, slot := s.iss.slot, rank := s.rank s.iss.ctx
    lid := bLid (s.board s.iss.ctx), kind := kind, place := place, va := toW (soleValue m s), pa := pa, size := size
    data := data, cmp := cmp, dest := dest }

/-- What a bundle leaves alone that sends one access on its way: of memory, registers, flags and every other context
nothing changes; the access is noted, the Timetable charged, a destination marked empty and the counters of pending bytes
raised. -/
def onlySent (s t : State) (a : Acc) : Prop :=
  t = { s with
    ctxs := t.ctxs, cr := { s.cr with cores := t.cr.cores }, ms := { s.ms with accs := s.ms.accs ++ [a] }
    tt := { s.tt with budgets := t.tt.budgets, lentOut := t.tt.lentOut }, agenda := t.agenda, delays := t.delays, nextId := s.nextId + 1 } ∧
  (∀ k, k ≠ s.iss.ctx → t.ctx k = s.ctx k) ∧
  (let x := s.cx
   let y := t.ctx s.iss.ctx
   onlyFlow { x with pend := y.pend, units := y.units, wrote := y.wrote, wroteAt := y.wroteAt } y ∧ goesOn x y ∧
     sends x y s.cycle [])

/-- R251, R262. The units of a destination are empty, and every other unit holds what it held. -/
def emptied (d : Option Dest) (x y : Ctx) : Prop :=
  ∀ u, tget y.units u = match d with
    | some e => if e.first / 2 ≤ u ∧ u < (e.first + e.size + 1) / 2 then some .empty else tget x.units u
    | none => tget x.units u

/-- R140. All six counters of pending bytes have risen by n. -/
def pendRaised (n : Nat) (x y : Ctx) : Prop := ∀ scope, pendOf y.pend scope = pendOf x.pend scope + BitVec.ofNat 56 n

/-- An event on the agenda names the access, at least `wait` cycles on. -/
def underWay (s t : State) (row : Instr) (id wait : Nat) : Prop :=
  ∃ d ∈ t.agenda, d.ev.row = row ∧ d.ev.arg.a = id ∧ s.cycle + wait < d.cyc ∧ d.early = false

/-! ### Synchronisation (R134, R139, R178, R327 to R340) -/

/-- R329. The atomics: the operation, the move, whether the old word returns, and the new word over the old one, `.a` and
`.b`. -/
structure AtomRow where
  op : AtomOp
  m : Mv
  ret : Bool
  new : BitVec 32 → BitVec 32 → BitVec 32 → BitVec 32

/-- R329. The new words; the FP32 sum is the correctly rounded one of R329, and the maximum that of R74. -/
def atomRow : Instr → Option AtomRow
  | .sySwap m => some ⟨.swap, m, true, fun _ a _ => a⟩
  | .syCas m => some ⟨.cas, m, true, fun old a b => if old = b then a else old⟩
  | .syFadd m => some ⟨.fadd, m, true, fun old a _ => BitVec.ofNat 32 (old.toNat + a.toNat)⟩
  | .syFaddf m => some ⟨.faddf, m, true, fun old a _ => fpAdd old a⟩
  | .syRadd m => some ⟨.radd, m, false, fun old a _ => BitVec.ofNat 32 (old.toNat + a.toNat)⟩
  | .syRaddf m => some ⟨.raddf, m, false, fun old a _ => fpAdd old a⟩
  | .syRmax m => some ⟨.rmax, m, false, fun old a _ => if old.toInt ≤ a.toInt then a else old⟩
  | .syRmin m => some ⟨.rmin, m, false, fun old a _ => if a.toInt ≤ old.toInt then a else old⟩
  | .syRmaxf m => some ⟨.rmaxf, m, false, fun old a _ => BitVec.ofNat 32 (extremeCode 0x8 true old.toNat a.toNat).1⟩
  | .syRand m => some ⟨.rand, m, false, fun old a _ => old &&& a⟩
  | .syRor m => some ⟨.ror, m, false, fun old a _ => old ||| a⟩
  | .syRxor m => some ⟨.rxor, m, false, fun old a _ => old ^^^ a⟩
  | _ => none

/-- R6. The 4-byte word at an address of a memory. -/
def wordAt (m : Memory) (a : Nat) : BitVec 32 := BitVec.ofNat 32 (bytesNat (rdBytes m a 4))

/-- Of a memory only the word at an address differs, and it is `w`. -/
def wordOnly (m n : Memory) (a : Nat) (w : BitVec 32) : Prop :=
  wordAt n a = w ∧ ∀ k, k < a ∨ a + 4 ≤ k → rdByte n k = rdByte m k

/-- R262. A value on its way to a register of the context. -/
def onItsWay (s t : State) (dest : Option Dest) (v : W64) (va : W64) (loc : Nat) : Prop :=
  t.ms.arrivals = s.ms.arrivals ++
      [{ id := s.nextId, ctx := s.iss.ctx, dest := dest, val := some (ofW v), addr := va, loc := loc }] ∧
    ∃ d ∈ t.agenda, d.ev.row = .variableArrival ∧ d.ev.arg.a = s.nextId ∧ s.cycle < d.cyc

/-- What a synchronising bundle of one trigger leaves alone: everything but its context, what is said of it elsewhere
under `ms` and `tm`, the agenda and the model's own counters; and of its context the registers' bytes, flags, ports,
guards, views, vectors and the trap record. -/
def onlySync (s t : State) : Prop :=
  t = { s with
    ctxs := t.ctxs, cr := { s.cr with cores := t.cr.cores }, ms := t.ms, tm := t.tm, agenda := t.agenda
    delays := t.delays, nextId := t.nextId } ∧
  (let x := s.cx
   let y := t.ctx s.iss.ctx
   y.regs = x.regs ∧ y.opnd = x.opnd ∧ y.res = x.res ∧ y.guards = x.guards ∧ y.flags = x.flags ∧ y.vectors = x.vectors ∧
     y.cause = x.cause ∧ y.tpc = x.tpc ∧ y.tnext = x.tnext ∧ y.info0 = x.info0 ∧ y.info1 = x.info1 ∧ y.snap = x.snap ∧
     y.pend = x.pend ∧ y.vws = x.vws ∧ y.vwd = x.vwd ∧ y.vwv = x.vwv ∧ y.vwh = x.vwh ∧ y.xs = x.xs ∧ y.xd = x.xd ∧
     y.xv = x.xv ∧ y.xh = x.xh ∧ y.run = x.run ∧ y.slot = x.slot ∧ y.psnap = x.psnap ∧ y.seq = x.seq)

/-- What a bundle does that changes nothing but its own context, beside the flow of the program: its result is what a
statement says of the context `z` it would leave without that flow. -/
def ownCtx (m : Mv) (s t : State) (z : Ctx) : Prop :=
  onlyCtx s.iss.ctx s t ∧ onlyFlow z (t.ctx s.iss.ctx) ∧ popsOnly m s.cx (t.ctx s.iss.ctx) ∧
    goesOn s.cx (t.ctx s.iss.ctx) ∧ sends s.cx (t.ctx s.iss.ctx) s.cycle []

/-- What a synchronising bundle of one trigger does beside what a statement says of `ms`, `tm` and its own context. -/
def syncDone (m : Mv) (s t : State) : Prop :=
  onlySync s t ∧ popsOnly m s.cx (t.ctx s.iss.ctx) ∧ goesOn s.cx (t.ctx s.iss.ctx) ∧
    sends s.cx (t.ctx s.iss.ctx) s.cycle []

/-- Every context but the one that issues stays. -/
def othersStay (s t : State) : Prop := ∀ k, k ≠ s.iss.ctx → t.ctx k = s.ctx k

/-- R186. An item of a Sett's table that a pop would take: eligible, of greatest gain, the lowest index among equals. -/
def popTakes (floor : Int) (items : Tab Item) (i : Nat) (x : Item) : Prop :=
  tget items i = some x ∧ (i, x) ∈ items ∧ itemEligible floor x = true ∧
    ∀ e ∈ items, itemEligible floor e.2 = true → e.2.gain < x.gain ∨ (e.2.gain = x.gain ∧ i ≤ e.1)

/-- R337, R428. The one Sett operation that a bundle sends: on its way to its Sett, to arrive at a later cycle. -/
def settSent (s t : State) (o : SettOp) : Prop :=
  ∃ n, s.cycle < n ∧ t.tm = { s.tm with settOps := s.tm.settOps ++ [{ o with at_ := n }] } ∧
    ∃ d ∈ t.agenda, d.cyc = n ∧ d.ev = ⟨.settPopAnswer, { a := o.key, b := 1, c := o.id }⟩

/-- The event names a Sett operation that arrives. -/
def SettOpDue (s : State) (o : SettOp) : Prop := s.ev.b = 1 ∧ s.tm.settOps.find? (fun p => p.id == s.ev.c) = some o

/-- R186, R191. A pop or poll of a launch outside deterministic modes arrives at the launch's Sett, where no pop waits and no
log is to be replayed. -/
structure PopArrives (s : State) (o : SettOp) (l : Launch) (st : Sett) : Prop where
  due : SettOpDue s o
  kind : o.kind = 3 ∨ o.kind = 4
  launch : tget s.tm.launches (o.key / 16) = some l
  mode : modeDet l.mode = false
  sett : tget s.tm.setts o.key = some st
  lid : st.lid = o.key / 16
  waits : st.waits = []
  log : replaying s (o.key / 16) (o.key % 16) = false

/-! ### The matrix unit (R357 to R378) -/

/-- R374. The routines: the number in the catalogue and the move. -/
def routineRow : Instr → Option (Nat × Mv)
  | .mmB4 m => some (0x00, m)
  | .mmF8 m => some (0x01, m)
  | .mmI8 m => some (0x02, m)
  | .mmI16 m => some (0x03, m)
  | .mmH m => some (0x04, m)
  | .mmTn m => some (0x05, m)
  | .mmS m => some (0x06, m)
  | .mmS3 m => some (0x07, m)
  | .accLd m => some (0x08, m)
  | .accSt m => some (0x09, m)
  | .accNorm m => some (0x0A, m)
  | .accZero m => some (0x0B, m)
  | _ => none

/-- R362. The parameter word i of a call, and the parameters of a routine. -/
def mp (s : State) (i : Nat) : W64 := toW (opnd s.cx (0x340 + i))
def callArg (s : State) (n : Nat) : MxArg :=
  mxArg n (mp s 0) (mp s 1) (mp s 2) (mp s 3) (mp s 4) (mp s 5) (mp s 6) (mp s 7)

/-- R364, R128, R139, R132, R136, R206, R328. A call of a routine is admitted: no interval runs, every check passes, the array
is free, no fence, tagged request, access on its way, held reduction or data command holds it, and the Timetable serves its
cost. -/
structure CallAdmitted (n : Nat) (s : State) : Prop where
  interval : ∀ t, s.cx.callEnd = some t → t ≤ s.cycle
  checks : callChecks s s.iss.ctx s.iss.slot (callArg s n) = []
  array : tget s.cr.calls (coreOf s.iss.ctx) = none
  fence : fenceHolds s s.iss.ctx = false
  tagged : taggedOut s s.iss.ctx = false
  posted : callPosted s s.iss.ctx (callArg s n) = false
  holds : s.ms.holds = []
  maliasFree : s.iss.malias = true → (∀ k ∈ s.en.cmds, k.ctx ≠ s.iss.ctx) ∧ ∀ w ∈ s.en.writes, w.ctx ≠ s.iss.ctx
  budget : mxAdmits s (dieOf s.iss.ctx) (bComp (s.board s.iss.ctx)) (callCost s.cx (callArg s n)) = true

/-- R54, R56. A finite value, and its integer. -/
def finiteNum (x : Num) : Prop := x.isNan = false ∧ x.isInf = false
def signedInt (neg : Bool) (n : Nat) : Int := if neg then -(n : Int) else n

/-- R56. k is n · 2^e in units of 2^(ex − 46), rounded to the nearest integer, ties to even. -/
def nearestUnits (ex n e k : Int) : Prop :=
  let d := e - (ex - 46)
  (0 ≤ d → k = n * 2 ^ d.toNat) ∧
    (d < 0 → let q : Nat := 2 ^ (-d).toNat
      2 * (n - k * q).natAbs ≤ q ∧ (2 * (n - k * q).natAbs = q → k % 2 = 0))

/-- R56, R57. What an element of a row of exponent `ex` becomes when the products of pairs of finite values have entered
it: its integer and theirs, each rounded once, added exactly, and clamped. -/
def entersAs (ex : Int) (ps : List (Num × Num)) (old new : Elem) : Prop :=
  ∃ ks : List Int, ks.length = ps.length ∧
    (∀ p ∈ ps.zip ks, ∀ s n e t m f, p.1.1 = .fin s n e → p.1.2 = .fin t m f →
      nearestUnits ex (signedInt s n * signedInt t m) (e + f) p.2) ∧
    new = { int := max (-(2 ^ 63)) (min (2 ^ 63 - 1) (old.int + ks.sum)), st := .finite }

/-- R362, R366. The products that a step of a call brings to the element (i, j) of its tile, in increasing k. -/
def stepPairs (s : State) (k : Call) (r : Routine) (i j : Nat) : List (Num × Num) :=
  let p := stepAt k.arg r k.step
  (List.range r.gran).map fun q =>
    ((sideA s k.ctx k.arg).num s (p.i0 + i) (p.k0 + q), (sideB s k.ctx k.arg).num s (p.j0 + j) (p.k0 + q))

/-- R262, R370. `mx.st` on its way to the register that the call's trigger named. -/
def stArrivals (s : State) (k : Call) (st : Nat) : List Arrival :=
  match k.wb with
  | some d => [{ id := s.nextId, ctx := k.ctx, dest := some d, val := some (BitVec.ofNat 2048 st), addr := 0, loc := 0 }]
  | none => []

/-- R358. A row operation may work on accumulator row g: its bank is held by the team, no call names it, and none of its
elements has failed. -/
structure RowReady (g : Nat) (s : State) : Prop where
  held : teamHolds s s.iss.ctx (g / 4) = true
  free : callNames s (coreOf s.iss.ctx) (g / 4) 1 = false
  good : rowFails s (coreOf s.iss.ctx) g = false

/-- Of the accumulators of a core only row g differs: its exponent and its elements are these. -/
def rowOnly (core g : Nat) (s t : State) (ex : Int) (es : List Elem) : Prop :=
  rowExp t core g = ex ∧ rowElems t core g = es ∧
    (∀ h, h ≠ g → rowExp t core h = rowExp s core h ∧ rowElems t core h = rowElems s core h) ∧
    ∀ k, k / 256 ≠ core → tget t.cr.banks k = tget s.cr.banks k

/-- What a bundle of a row operation or an allocation leaves alone: everything but its context's flow, with the results
that it sends, and the banks. -/
def onlyBanks (m : Mv) (s t : State) (fs : List Flight) : Prop :=
  t = { s with ctxs := t.ctxs, cr := { s.cr with cores := t.cr.cores, banks := t.cr.banks, failAcc := t.cr.failAcc } } ∧
    othersStay s t ∧ onlyFlow s.cx (t.ctx s.iss.ctx) ∧ popsOnly m s.cx (t.ctx s.iss.ctx) ∧
    goesOn s.cx (t.ctx s.iss.ctx) ∧ sends s.cx (t.ctx s.iss.ctx) s.cycle fs

/-! ### Patch and data commands (R95 to R123, R380 to R400) -/

/-- R100. The line operand k of a command names the line of a key. -/
def namesLine (k key : Nat) (s : State) : Prop :=
  ∃ pa low high ta, route s s.iss.ctx (toW (opnd s.cx (0x360 + k))).toNat 1 1 .line false = .page pa low high ta ∧
    lineKey high = key

/-- The patch name in parameter k, and the control word. -/
def nameAt (k : Nat) (s : State) : Nat := (toW (opnd s.cx (0x360 + k))).toNat % 2 ^ 32
def ctlWord (m : Mv) (s : State) : Nat := (soleValue m s).toNat

/-- R101, R139, R206, R261. A patch command on the line of a key may be performed: no fence holds it, the context's
earlier accesses are performed, what is left of n units of work is within the walk budget of the line's home Badger, and
`.w` is sound. -/
structure PatchReady (key n : Nat) (s : State) : Prop where
  wb : wbOk 9 s
  fence : fenceHolds s s.iss.ctx = false
  done : outstanding s s.iss.ctx s.cx.bundles = false
  walk : 0 < avail s (dieOf s.iss.ctx) (key / 2 ^ 24) 2 (homeOf s key)
  fits : n - paidAt s.cx.paid 2 (homeOf s key) ≤ avail s (dieOf s.iss.ctx) (key / 2 ^ 24) 2 (homeOf s key)

/-- R101, R398. What a patch command does that is performed: 0 lands in `ec.st` and the register of `.w` at latency 1; the
line of a key becomes `l`, but for the record of what the launch has written (R227); no other line, memory or context
changes. -/
def patched (m : Mv) (s t : State) (key : Nat) (l : Line) : Prop :=
  (∃ l', t.line key = some l' ∧
    { l' with written := l.written, startNames := l.startNames } = l) ∧
  (∀ k, k ≠ key → t.line k = s.line k) ∧
  t.ms = { s.ms with lines := t.ms.lines } ∧ othersStay s t ∧ onlyFlow s.cx (t.ctx s.iss.ctx) ∧
  popsOnly m s.cx (t.ctx s.iss.ctx) ∧ goesOn s.cx (t.ctx s.iss.ctx) ∧
  sends s.cx (t.ctx s.iss.ctx) s.cycle [⟨s.cycle + 1, 9, .port 0x290 0 :: wbActs 9 s 0⟩] ∧
  t.en = s.en ∧ t.tm.boards = s.tm.boards

/-- R386, R394. The data commands. -/
def dataRow : Instr → Option (CmdOp × Mv)
  | .ecCopy m => some (.copy, m)
  | .ecTcopy m => some (.tcopy, m)
  | .ecFill m => some (.fill, m)
  | .ecSend m => some (.send, m)
  | .ecRecv m => some (.recv, m)
  | .ecRecva m => some (.recva, m)
  | .ecStep m => some (.step, m)
  | _ => none

/-- R380, R381. The command that a trigger hands to its engine: its words, who sends it, and its sequence number. -/
def dataCmd (op : CmdOp) (m : Mv) (s : State) : Cmd :=
  let p (k : Nat) : W64 := toW (opnd s.cx (0x360 + k))
  let b := s.board s.iss.ctx
  { id := s.nextId, ctx := s.iss.ctx, num := s.cx.bundles, lid := bLid b, team := bTeam b, comp := bComp b
    seq := s.cx.seq, op := op, eng := if op.freight then clusterOf s.iss.ctx else dieOf s.iss.ctx / 4
    ctl := toW (soleValue m s), p0 := p 0, p1 := p 1, p2 := p 2, p3 := p 3, p4 := p 4, p5 := p 5, p6 := p 6, p7 := p 7
    next := 0, flags := 0, left := 0, leftSys := 0, sent := 0, rcvd := 0, flying := none, sendIx := 0, recvIx := 0
    matchedSend := false, matchedRecv := false, begun := false, order := s.nextId, parked := false, withdrawn := false
    declined := [], slot := s.iss.slot, bandsDone := [], recomp := false, status := none
    burst := 0, walked := [], paid := [], arrived := 0, lost := false, written := 0, port := none
    prev := if op.freight then s.cx.lastFreight else s.cx.lastShuttle }

/-- R385, R386. The element of a nest at its six indexes: its number in iteration order, and its addresses. -/
def nestNumber (k : Cmd) (i : Nat → Nat) : Nat :=
  i 0 + k.ext 0 * (i 1 + k.ext 1 * (i 2 + k.ext 2 * (i 3 + k.ext 3 * (i 4 + k.ext 4 * i 5))))
def nestSource (k : Cmd) (i : Nat → Nat) : Int :=
  let at_ (d : Nat) : Int := i d * sfld (k.dim d) 39 16
  k.p0.toNat + i 0 * unitBytes k.sty + at_ 1 + at_ 2 + at_ 3 + at_ 4 + at_ 5
def nestTarget (k : Cmd) (i : Nat → Nat) : Int :=
  let at_ (j d : Nat) : Int := i j * sfld (k.dim d) 63 40
  let rest := at_ 2 2 + at_ 3 3 + at_ 4 4 + at_ 5 5
  if k.op = .tcopy then k.p1.toNat + i 1 * unitBytes k.dty + at_ 0 1 + rest
  else k.p1.toNat + i 0 * unitBytes k.dty + at_ 1 1 + rest

/-- R386, R388. What a Freight command reads for an element: the low bytes of `ec.p0` for a fill, else the bytes at the
source address, in a scratchpad or on a page that is not LINED. -/
def freightReads (s : State) (k : Cmd) (a : Int) (x : Nat) : Prop :=
  let n := unitBytes k.sty
  (k.op = .fill ∧ x = k.p0.toNat % 2 ^ (8 * n)) ∨
  (k.op ≠ .fill ∧ ∃ va, engAddr k.p0 a = (va, none) ∧
    ((∃ o core, engRoute s k va n n false false = .spad o core ∧ x = bytesNat (rdBytes s.ms.spad o n)) ∨
     (∃ pa low high ta, engRoute s k va n n false false = .page pa low high ta ∧ dKind low ≠ kLined ∧
       x = bytesNat (rdBytes s.ms.mem pa n))))

/-- R393, R396, R442. A chunk of a matched receive arrives from its peer for the first time; `v` is the state with its
arrival noted. -/
def ChunkHere (s v : State) (k : Cmd) (c : Nat) : Prop :=
  cmdAt s s.ev false = some k ∧ cmdOf s k.id = some k ∧ k.op ≠ .step ∧ k.parked = false ∧ k.withdrawn = false ∧ k.lost = false ∧
    s.ev.d % 64 = c ∧ s.ev.a < 2 ^ 20 ∧ s.ev.c < 64 ∧ c < k.chunks ∧ k.rcvd.getLsbD c = false ∧ k.arrived.getLsbD c = false ∧
    s.ev.body.length = k.chunkLen c ∧
    v = modCmd s k.id fun x => { x with matchedRecv := true, arrived := x.arrived ||| ((1 : BitVec 64) <<< c) }

/-! ### Events -/

/-- Nothing holds an access back, and nothing that it reads has failed: no holding buffer, no failing word, no failed
port; and the memories are in their canonical form. -/
structure Undisturbed (s : State) : Prop where
  holds : s.ms.holds = []
  mem : s.ms.failMem = []
  spad : s.ms.failSpad = []
  ports : s.ms.failPorts = []
  ok : memoriesOk s = true

/-- Of a memory only `size` bytes from `a` on differ, and byte k of them is `f k`. -/
def bytesPut (m n : Memory) (a size : Nat) (f : Nat → Byte) : Prop :=
  (∀ k, k < size → rdByte n (a + k) = f k) ∧ ∀ k, k < a ∨ a + size ≤ k → rdByte n k = rdByte m k

/-- Byte k of a value. -/
def byteAt (v : Vec) (k : Nat) : Byte := v.extractLsb' (8 * k) 8

/-- R140. An access is performed: it is no longer under way, and its bytes have left the counters. -/
def settled (s t : State) (a : Acc) : Prop :=
  t.ms.accs = s.ms.accs.filter (fun b => b.id != a.id) ∧
    ∀ scope, pendOf (t.ctx a.ctx).pend scope =
      pendOf (s.ctx a.ctx).pend scope - BitVec.ofNat 56 (accBytes a.kind a.size a.place)

/-- R125, R320. Whether an access is a store: of its bytes, or of the lanes that a mask chooses. -/
def isStore (a : Acc) : Prop := a.kind = .store ∨ ∃ m, a.kind = .lanes m

/-- R325. How many words a store writes from its first address on, and the addresses of the word j. -/
def storeCount (a : Acc) (base : Nat) : Nat :=
  match a.kind with
  | .lanes m => popBelow m.toNat 64
  | _ => (base + a.size + 3) / 4 - base / 4
def storeWord (a : Acc) (base j n : Nat) : Prop :=
  match a.kind with
  | .lanes m => ∃ k, k < 64 ∧ m.getLsbD k = true ∧ popBelow m.toNat k = j ∧ base + 4 * k ≤ n ∧ n < base + 4 * k + 4
  | _ => base ≤ n ∧ n < base + a.size ∧ n / 4 = base / 4 + j

/-- Of a memory only the addresses of which `here` holds differ, and each is the byte of the store there. -/
def bytesStored (m n : Memory) (a : Acc) (base : Nat) (here : Nat → Prop) : Prop :=
  (∀ k, here k → rdByte n k = byteAt a.data (k - base)) ∧ ∀ k, ¬ here k → rdByte n k = rdByte m k

/-- R134, R327. The request of a posted tagged store as it reaches its arbiter. -/
def tagReqOf (a : Acc) (op o : Nat) : TagReq :=
  { ctx := a.ctx, num := a.num, word := o / 4, op := op, data := a.data.setWidth 32, dest := none, va := a.va }

/-! ### Chain reads (R97, R106 to R108, R324) -/

/-- R108. The value of a granule after a run of ADD terms: an integer sum, exact and clamped to the range of the format, or
the sum of all of them rounded once in RNE. -/
def runSum (fmt : Nat) (v : List Byte) (terms : List (List Byte)) : List Byte :=
  match fpOf fmt with
  | some f =>
    let operands := (v :: terms).map fun b => decodeFp f (bytesNat b)
    natBytes (fplane f rneMode operands operands).1 v.length
  | none =>
    let w := tyBits fmt
    let lo : Int := if fmt = 0xA then 0 else -2 ^ (w - 1)
    let hi : Int := if fmt = 0xA then 255 else 2 ^ (w - 1) - 1
    let total := ((v :: terms).map fun b => decodeInt fmt (bytesNat b)).sum
    natBytes ((max lo (min hi total)) % 2 ^ w).toNat v.length

/-- R107. What `walk` gives of a granule: `Walks fmt g v chain w` when the value `v` goes through the chain to `w`. A patch
that does not cover the granule leaves it; a maximal run of ADD patches, among those that cover it, adds at once; REPLACE,
MAX and XOR act one by one. -/
inductive Walks (fmt g : Nat) : List Byte → List Patch → List Byte → Prop where
  | done (v : List Byte) : Walks fmt g v [] v
  | skip (v w : List Byte) (p : Patch) (t : List Patch) : granFind g p.pay = none → Walks fmt g v t w → Walks fmt g v (p :: t) w
  | run (v w b : List Byte) (p : Patch) (qs t : List Patch) : p.kind = 1 → granFind g p.pay = some b →
      (∀ q ∈ qs, granFind g q.pay = none ∨ q.kind = 1) →
      (∀ q r, t = q :: r → granFind g q.pay ≠ none ∧ q.kind ≠ 1) →
      Walks fmt g (runSum fmt v (b :: qs.filterMap fun q => granFind g q.pay)) t w → Walks fmt g v (p :: (qs ++ t)) w
  | replace (v w b : List Byte) (p : Patch) (t : List Patch) : p.kind = 0 → granFind g p.pay = some b →
      Walks fmt g b t w → Walks fmt g v (p :: t) w
  | maximum (v w b : List Byte) (p : Patch) (t : List Patch) : p.kind = 2 → granFind g p.pay = some b →
      Walks fmt g (natBytes (extremeCode fmt true (bytesNat v) (bytesNat b)).1 v.length) t w → Walks fmt g v (p :: t) w
  | xor (v w b : List Byte) (p : Patch) (t : List Patch) : p.kind = 3 → granFind g p.pay = some b →
      Walks fmt g (List.zipWith (fun x y => x ^^^ y) v b) t w → Walks fmt g v (p :: t) w

/-- R97, R102. A chain as the formats allow it: block formats take REPLACE and XOR only. -/
def chainSound (l : Line) (chain : List Patch) : Prop :=
  l.fmt ≤ 0xC ∧ ∀ p ∈ chain, p.kind ≤ 3 ∧ (l.fmt ≤ 3 → p.kind = 0 ∨ p.kind = 3)

/-- R106. The byte at an offset of a line's region, through a chain. -/
def chainByte (l : Line) (chain : List Patch) (off : Nat) (b : Byte) : Prop :=
  ∃ w, Walks l.fmt (granOf l.fmt l.xlog off).1 (granBytes l.fmt l.xlog l.base (granOf l.fmt l.xlog off).1) chain w ∧
    w.getD (granOf l.fmt l.xlog off).2 0 = b

/-- R106, R324. What a read of a region gives: its bytes and, on the element array of a block format, the scale bytes of its
blocks behind them. -/
def chainBytes (l : Line) (chain : List Patch) (off size : Nat) (bs : List Byte) : Prop :=
  let blocks := if l.fmt ≤ 3 ∧ off < 2 ^ l.xlog then size / granElem l.fmt else 0
  bs.length = size + blocks ∧ (∀ n, n < size → chainByte l chain (off + n) (bs.getD n 0)) ∧
    ∀ n, n < blocks → chainByte l chain (2 ^ l.xlog + off / granElem l.fmt + n) (bs.getD (size + n) 0)

/-- R262. The value that an access returns is on its way to its register. -/
def delivered (s t : State) (a : Acc) (v : Vec) (loc : Nat) : Prop :=
  t.ms.arrivals = s.ms.arrivals ++
    [{ id := s.nextId, ctx := a.ctx, dest := a.dest, val := some v, addr := a.va, loc := loc }]

/-- Of the contexts only one differs, and nothing else does. -/
def onlyThis (c : Nat) (s t : State) : Prop := t = { s with ctxs := t.ctxs } ∧ ∀ k, k ≠ c → t.ctx k = s.ctx k

/-- R437. The request at the head of Zitrum's queue has a code, and is of an allowed length; `q` is the request as it is
taken, and `u` the state without it. -/
def Taken (code : Nat) (s : State) (q : Request) (u : State) : Prop :=
  ∃ q0 rest, s.ho.requests = q0 :: rest ∧ codeOfReq s q0 = code ∧
    takeReq { s with ho := { s.ho with requests := rest } } q0 = (q, u) ∧ q.len ≤ 16320

/-- R438. A body of which the request reads so many bytes, and which sets no bit that is not named. -/
def wellFormedBody (q : Request) (masks : List Nat) (reads : Nat) : Prop :=
  reads ≤ q.len ∧ bodyReserved q masks reads = false

/-- R9. A package without power: what State.reset holds, but for the fuses and the events from outside. -/
def unpowered (s t : State) : Prop :=
  t = { State.reset with
    powered := false, inputs := s.inputs, delays := s.delays, free := s.free, nextId := s.nextId
    rt := { State.reset.rt with floor := s.rt.floor } }

/-- R196. Fields of the boot status: the state, and the FAIL code. -/
def bootSt (s : State) : Nat := fld s.rt.bootStatus.toNat 31 24
def bootFailCode (s : State) : Nat := fld s.rt.bootStatus.toNat 23 16

/-- R236. Fields of the hand-over status: the state, and the FAIL code. -/
def handSt (s : State) : Nat := fld s.rt.handStatus.toNat 31 24
def handFailCode (s : State) : Nat := fld s.rt.handStatus.toNat 23 16

/-- R193. Whether the first source of the boot order is the network. -/
def netFirst : Bool := bootSources.head? == some true

/-- R443. The STATE field of a port's status. -/
def portSt (s : State) (p : Nat) : Nat := fld (nimmetPort s p).status.toNat 26 24

end Sys2Proof.Machine
end

