-- ==== Sys2Proof/Certificates/Slice0/Obligations.lean ====
section
/-! DEFINITION. The statements for the provers. -/

open Sys2Proof Sys2Proof.Machine

/-! ### Integer, address and control operations -/

/-- R302 to R305. Every `ia` operation that can start completes: its result over `.a`, `.b` and the value goes to the
result port and to the register of `.w` at latency 1, and nothing else of the package changes. -/
def Obligations.IntegerResults : Prop :=
  ∀ (i : Instr) (u : BitVec 1) (m : Mv) (f : W64 → W64 → W64 → W64) (s : State),
    iaRow i = some (u, m, f) → canMove m false s → wbOk u.toNat s →
    let base := 0x200 + 0x20 * u.toNat
    let r := ofW (f (toW (opnd s.cx base)) (toW (opnd s.cx (base + 1))) (toW (soleValue m s)))
    ∃ t, exec i s = .next t ∧
      sendsOne m s t { due := s.cycle + 1, unit := u.toNat, acts := .port (0x200 + 0x10 * u.toNat) r :: wbActs u.toNat s r }

/-- R307. Every `am` operation with a result completes: the low half at `am.o` and the register of `.w`, the high half
of a product at `am.hi`, all at latency 3. R309. An index-base write takes value[5:0], from three cycles later on; it
lands no result. -/
def Obligations.AddressResults : Prop :=
  (∀ (i : Instr) (m : Mv) (f : W64 → W64 → W64 → W64) (h : Option (W64 → W64 → W64 → W64)) (s : State),
     amRow i = some (m, f, h) → canMove m false s → wbOk 2 s →
     let on (g : W64 → W64 → W64 → W64) : Vec := ofW (g (toW (opnd s.cx 0x240)) (toW (opnd s.cx 0x241)) (toW (soleValue m s)))
     ∃ t, exec i s = .next t ∧
       sendsOne m s t ⟨s.cycle + 3, 2,
         [.port 0x220 (on f)] ++ (match h with | some g => [.port 0x221 (on g)] | none => []) ++ wbActs 2 s (on f)⟩) ∧
  (∀ (i : Instr) (m : Mv) (view : Nat) (s : State), baseRow i = some (m, view) → canMove m false s →
     ∃ t, exec i s = .next t ∧
       sendsOne m s t { due := s.cycle + 3, unit := 2, acts := [.xbase view (BitVec.ofNat 6 (soleValue m s).toNat)] })

/-- R308. `am.wrap` adds and reduces modulo `.b`, and gives the sum modulo 2^64 for `.b` = 0; no operand is checked
against `.b`. -/
def Obligations.WrapReduces : Prop :=
  ∀ (m : Mv) (s : State), canMove m false s → wbOk 2 s →
    let a := (toW (opnd s.cx 0x240)).toNat
    let b := (toW (opnd s.cx 0x241)).toNat
    let total := a + (toW (soleValue m s)).toNat
    let r := ofW (BitVec.ofNat 64 (if b = 0 then total % 2 ^ 64 else total % b))
    ∃ t, exec (.amWrap m) s = .next t ∧
      sendsOne m s t { due := s.cycle + 3, unit := 2, acts := .port 0x220 r :: wbActs 2 s r }

/-- R311, R267. An unconditional transfer outside a shadow and a loop completes: its shadow of 2 or 3 bundles opens
behind it, toward bundle value[31:0]; `call` sends p + 4 to `br.lk`, and `ret` leaves it. -/
def Obligations.TransfersOpenShadows : Prop :=
  ∀ (i : Instr) (m : Mv) (n : Nat) (s : State), jumpRow i = some (m, n) → canMove m false s →
    s.cx.shadow = none → s.cx.loops = [] → s.cx.jump = none →
    ∃ t, exec i s = .next t ∧ onlyCtx s.iss.ctx s t ∧ onlyFlow s.cx (t.ctx s.iss.ctx) ∧
      popsOnly m s.cx (t.ctx s.iss.ctx) ∧
      (t.ctx s.iss.ctx).pc = s.cx.pc + 1 ∧ (t.ctx s.iss.ctx).loops = [] ∧
      (t.ctx s.iss.ctx).shadow = some { left := n, target := BitVec.ofNat 32 (soleValue m s).toNat } ∧
      sends s.cx (t.ctx s.iss.ctx) s.cycle
        (if i = .brCall m then
          [{ due := s.cycle + 1, unit := 3, acts := [.port 0x230 ((s.cx.pc + 4).setWidth 2048)] }] else [])

/-- R312, R267. A conditional transfer opens a shadow of 2 whether taken or not; not taken, the program goes on behind
the shadow. -/
def Obligations.BranchesOpenShadows : Prop :=
  ∀ (i : Instr) (m : Mv) (taken : W64 → W64 → Prop) (s : State), branchRow i = some (m, taken) → canMove m false s →
    s.cx.shadow = none → s.cx.loops = [] → s.cx.jump = none →
    ∃ t, exec i s = .next t ∧ onlyCtx s.iss.ctx s t ∧ onlyFlow s.cx (t.ctx s.iss.ctx) ∧
      popsOnly m s.cx (t.ctx s.iss.ctx) ∧
      (t.ctx s.iss.ctx).pc = s.cx.pc + 1 ∧ (t.ctx s.iss.ctx).loops = [] ∧ sends s.cx (t.ctx s.iss.ctx) s.cycle [] ∧
      (taken (toW (opnd s.cx 0x260)) (toW (opnd s.cx 0x261)) →
        (t.ctx s.iss.ctx).shadow = some { left := 2, target := BitVec.ofNat 32 (soleValue m s).toNat }) ∧
      (¬ taken (toW (opnd s.cx 0x260)) (toW (opnd s.cx 0x261)) →
        (t.ctx s.iss.ctx).shadow = some { left := 2, target := s.cx.pc + 3 })

/-- R270, R315, R316, R317. `loop` pushes a loop of the next n bundles, or with a count of 0 goes on behind them;
`lbrk` leaves one pass to the innermost loop, and the loop pops if the bundle is its last; `lkset` sends value[31:0] to
`br.lk`. -/
def Obligations.LoopsAndLinks : Prop :=
  ∀ (m : Mv) (s : State), canMove m false s → s.cx.shadow = none → s.cx.jump = none →
    (let n := (toW (soleValue m s)).toNat
     let count := (opnd s.cx 0x260).toNat % 2 ^ 32
     1 ≤ n → n ≤ 64 → s.cx.loops.length < 3 → (∀ l ∈ s.cx.loops, s.cx.pc.toNat + n ≤ l.stop) →
     ∃ t, exec (.brLoop m) s = .next t ∧ onlyCtx s.iss.ctx s t ∧ onlyFlow s.cx (t.ctx s.iss.ctx) ∧
       popsOnly m s.cx (t.ctx s.iss.ctx) ∧ sends s.cx (t.ctx s.iss.ctx) s.cycle [] ∧
       (t.ctx s.iss.ctx).shadow = none ∧
       (count ≠ 0 → (t.ctx s.iss.ctx).pc = s.cx.pc + 1 ∧
         (t.ctx s.iss.ctx).loops =
           { start := s.cx.pc.toNat + 1, stop := s.cx.pc.toNat + n, left := count } :: s.cx.loops) ∧
       (count = 0 → (∀ l ∈ s.cx.loops, l.stop ≠ s.cx.pc.toNat) →
         (t.ctx s.iss.ctx).pc = s.cx.pc + BitVec.ofNat 32 (n + 1) ∧ (t.ctx s.iss.ctx).loops = s.cx.loops)) ∧
    (∃ t, exec (.brLbrk m) s = .next t ∧ onlyCtx s.iss.ctx s t ∧ onlyFlow s.cx (t.ctx s.iss.ctx) ∧
       popsOnly m s.cx (t.ctx s.iss.ctx) ∧ sends s.cx (t.ctx s.iss.ctx) s.cycle [] ∧
       (s.cx.loops = [] → (t.ctx s.iss.ctx).loops = [] ∧ (t.ctx s.iss.ctx).pc = s.cx.pc + 1) ∧
       (∀ l rest, s.cx.loops = l :: rest → l.stop ≠ s.cx.pc.toNat →
         (t.ctx s.iss.ctx).loops = { l with left := 1 } :: rest ∧ (t.ctx s.iss.ctx).pc = s.cx.pc + 1) ∧
       (∀ l rest, s.cx.loops = l :: rest → l.stop = s.cx.pc.toNat → (∀ k ∈ rest, k.stop ≠ s.cx.pc.toNat) →
         (t.ctx s.iss.ctx).loops = rest ∧ (t.ctx s.iss.ctx).pc = s.cx.pc + 1)) ∧
    ∃ t, exec (.brLkset m) s = .next t ∧
      sendsOne m s t { due := s.cycle + 1, unit := 3, acts := [.port 0x230 (BitVec.ofNat 2048 ((soleValue m s).toNat % 2 ^ 32))] }

/-! ### Vector operations -/

/-- R344 to R355. Every vector operation whose type port passes completes, outside checked mode: at its latency one result,
each of whose lanes is what the operation's row gives of the operands' lanes, goes to its port and to the register of
`.w`, with the flags of all its lanes; nothing else changes. That `absd` has a zero of +0 is assumption 12. -/
def Obligations.VectorsComplete : Prop :=
  ∀ (i : Instr) (r : VRow) (s : State), vxRow i = some r ∨ vsRow i = some r → canMove r.m false s →
    wbOk r.unit s → typesPass r s → ten s.cx = 0 →
    ∃ t v fl, exec i s = .next t ∧ r.gives (r.arg s) v fl ∧
      sendsOne r.m s t ⟨s.cycle + r.lat, r.unit,
        [.port (if r.unit = 6 then 0x260 else 0x270) v] ++ wbActs r.unit s v ++ landFlags fl⟩

/-! ### Moves -/

/-- R242, R247, R250, R252, R255. A move to a register whose source can be read writes the low bytes of the value to
the bytes that the port names, ephemerally when F = 1 and the source is no register, and changes nothing else. -/
def Obligations.MovesToRegisters : Prop :=
  ∀ (d : BitVec 9) (m : Mv) (s : State), canMove m true s →
    let p := resolve s.cx d.toNat
    ∃ t, exec (.moveRegister d m) s = .next t ∧ plainMove s t ∧ popsOnly m s.cx (t.ctx s.iss.ctx) ∧
      bytesAfter p (soleValue m s) s.cx (t.ctx s.iss.ctx) ∧
      unitsAfter p (m.f && !isRegPort m.s.toNat) s.cycle s.cx (t.ctx s.iss.ctx) ∧
      (let x := s.cx
       let y := t.ctx s.iss.ctx
       onlyFlow { x with regs := y.regs, units := y.units, wrote := y.wrote, wroteAt := y.wroteAt } y)

/-- R259, R263, R264, R257. A move to an operand port, a guard, a queue tail or `nul` completes and writes what its
destination takes of the value, and nothing else: the port its width, the guard bit 0, the queue an entry of 8 bytes
behind those that it holds after the bundle's own pop. That room in a queue is counted after the bundle's own pops is the
model's choice (log entry 8). -/
def Obligations.MovesElsewhere : Prop :=
  ∀ (m : Mv) (s : State), canMove m false s →
    (∀ (d : BitVec 10) (w : Nat), operandWidth d.toNat = some w →
      ∃ t, exec (.operandPortWrite d m) s = .next t ∧ plainMove s t ∧ popsOnly m s.cx (t.ctx s.iss.ctx) ∧
        (∀ p, opnd (t.ctx s.iss.ctx) p =
          if p = d.toNat then BitVec.ofNat 2048 ((soleValue m s).toNat % 2 ^ (8 * w)) else opnd s.cx p) ∧
        (let x := s.cx
         onlyFlow { x with opnd := (t.ctx s.iss.ctx).opnd } (t.ctx s.iss.ctx))) ∧
    (∀ d : BitVec 3,
      ∃ t, exec (.guardWrite d m) s = .next t ∧ plainMove s t ∧ popsOnly m s.cx (t.ctx s.iss.ctx) ∧
        (∀ k, k < 8 → (t.ctx s.iss.ctx).guards.getLsbD k =
          if k = d.toNat then (soleValue m s).getLsbD 0 else s.cx.guards.getLsbD k) ∧
        (let x := s.cx
         onlyFlow { x with guards := (t.ctx s.iss.ctx).guards } (t.ctx s.iss.ctx))) ∧
    (∀ q : BitVec 4,
      let held := if m.s.toNat = 0x380 + q.toNat then (queueOf s.cx q.toNat).tail else queueOf s.cx q.toNat
      held.length < 16 →
      ∃ t, exec (.queuePush q m) s = .next t ∧ plainMove s t ∧ onlyFlow s.cx (t.ctx s.iss.ctx) ∧
        (∀ k, queueOf (t.ctx s.iss.ctx) k =
          if k = q.toNat then held ++ [toW (soleValue m s)]
          else if m.s.toNat = 0x380 + k ∧ k < 16 then (queueOf s.cx k).tail else queueOf s.cx k)) ∧
    (∃ t, exec (.moveNul m) s = .next t ∧ plainMove s t ∧ popsOnly m s.cx (t.ctx s.iss.ctx) ∧
        onlyFlow s.cx (t.ctx s.iss.ctx))

/-- R241. A move of any kind whose guard does not hold has no effect: it reads no register, pops and pushes no queue,
writes nothing and triggers nothing; its bundle issues. -/
def Obligations.GuardedOffDoesNothing : Prop :=
  ∀ (i : Instr) (d : Nat) (m : Mv) (s : State), moveOf i = some (d, m) → moveSound m (toReg i) → ¬ guardHolds m s →
    ∃ t, exec i s = .next t ∧ plainMove s t ∧ onlyFlow s.cx (t.ctx s.iss.ctx) ∧
      (t.ctx s.iss.ctx).queues = s.cx.queues

/-! ### Traps (R211 to R219, R250, R265) -/

/-- R250, R265. A move whose register source is empty waits when F = 0, with no effect, and traps EMPTY when F = 1 with
the first byte of the register; a failed one traps MEMUE with what the register keeps of its failure. -/
def Obligations.RegisterReadTraps : Prop :=
  ∀ (i : Instr) (d : Nat) (m : Mv) (s : State), moveOf i = some (d, m) → moveSound m (toReg i) → guardHolds m s →
    isRegPort m.s.toNat = true → placedWell i s →
    let src := resolve s.cx m.s.toNat
    (regState s.cx src s.cycle = .empty → m.f = true →
      exec i s = .next (takeTrap s.iss.ctx
        { code := 0x04, info0 := BitVec.ofNat 64 src.first, info1 := BitVec.ofNat 64 s.iss.slot } s)) ∧
    (regState s.cx src s.cycle = .empty → m.f = false →
      exec i s = .next (s.setCtx s.iss.ctx (let x := s.cx; { x with blocked := .register }))) ∧
    (∀ a l, regState s.cx src s.cycle = .failed a l →
      exec i s = .next (takeTrap s.iss.ctx
        { code := 0x18, info0 := a, info1 := BitVec.ofNat 64 (l + 16 * s.iss.slot) } s))

/-- R213 to R216, R218. A trap of a context outside a handler with a vector for its cause: the record holds the pc, the
pending transfer, TACT, the code and the information words; the snapshot holds the operand and result ports, the guards,
the loops and the results in flight by offset; the context goes on at the vector with no loop and no pending transfer.
Registers, flags, queues, views and vectors stay, and so does all else but the count of traps. R214. A trap without a
vector for its cause, or in a handler, is fatal: the record is written, the context stops with its snapshot intact, and
the end of its launch falls due, with the trap's code for the first fatal trap. That a fatal trap without a vector writes
the record and keeps the snapshot, and what becomes of the originals in flight, are the model's choices (log entries 28
and 29). -/
def Obligations.TrapEntry : Prop :=
  (∀ (c : Nat) (t : Trap) (v : BitVec 32) (s : State), tget (s.ctx c).vectors t.code = some v → tact (s.ctx c) = false →
     1 ≤ t.code → t.code ≤ 0x18 → (t.code = 0x18 → modeDet (bMode (s.board c)) = false) →
     let x := s.ctx c
     let y := (takeTrap c t s).ctx c
     takeTrap c t s = { s with ctxs := (takeTrap c t s).ctxs } ∧ (∀ k, k ≠ c → (takeTrap c t s).ctx k = s.ctx k) ∧
     y.pc = v ∧ y.loops = [] ∧ y.shadow = none ∧ y.tpc = x.pc ∧ y.info0 = t.info0 ∧ y.info1 = t.info1 ∧
     y.tnext = (match x.shadow with | some h => h.target | none => 0) ∧
     (y.cause.extractLsb' 0 8).toNat = t.code ∧ tact y = true ∧ y.cause.getLsbD 21 = x.shadow.isSome ∧
     (∀ h, x.shadow = some h → h.left < 4 → (y.cause.extractLsb' 22 2).toNat = h.left) ∧
     (y.cause.extractLsb' 24 8).toNat = 0 ∧ (y.cause.extractLsb' 8 12).toNat = 0 ∧
     y.snap = some
       { opnd := x.opnd, res := x.res, guards := x.guards, loops := x.loops
         flights := x.replay ++ (x.flights.filter fun f => decide (s.cycle < f.due)).map fun f => { f with due := f.due - s.cycle } } ∧
     y = { x with
       pc := y.pc, loops := y.loops, shadow := y.shadow, tpc := y.tpc, tnext := y.tnext, cause := y.cause
       info0 := y.info0, info1 := y.info1, snap := y.snap, replay := [], counters := y.counters
       blocked := .none, sent := false, answer := none, clusterAt := none, early := none, walked := [], unmade := [], paid := [], onLine := false
       atTbar := false, atCbar := none, atStep := false }) ∧
  (∀ (c : Nat) (t : Trap) (s : State), (tget (s.ctx c).vectors t.code = none ∨ tact (s.ctx c) = true) →
     1 ≤ t.code → t.code ≤ 0x18 → (t.code = 0x18 → modeDet (bMode (s.board c)) = false) →
     let x := s.ctx c
     let y := (takeTrap c t s).ctx c
     y.run = .stopped ∧ y.snap = x.snap ∧ y.pc = x.pc ∧ y.tpc = x.pc ∧ y.info0 = t.info0 ∧ y.info1 = t.info1 ∧
     (y.cause.extractLsb' 0 8).toNat = t.code ∧ tact y = tact x ∧ y.regs = x.regs ∧
     (∃ d ∈ (takeTrap c t s).agenda, d.ev.row = .teamEnd ∧ d.ev.arg.a = bLid (s.board c) ∧ d.ev.arg.c = t.code) ∧
     (∀ l, tget s.tm.launches (bLid (s.board c)) = some l → l.ending = none →
       ((tget (takeTrap c t s).tm.launches (bLid (s.board c))).bind (·.ending)) =
         some { status := 0x06, cause := t.code, fteam := bTeam (s.board c), finfo := t.info0 }))

/-! ### Loads and stores (R75 to R78, R88, R125, R320 to R325) -/

/-- R75, R77, R78, R88. Where an access to a scratchpad path leads, in the order of its checks: reserved address bits,
alignment, the window of the team. -/
def Obligations.ScratchpadAddresses : Prop :=
  ∀ (s : State) (c va size align : Nat) (u : Use) (vh : Bool), u ≠ .line → u ≠ .packet → u ≠ .handle → va < 2 ^ 64 →
    let b := s.board c
    let inWindow (core off : Nat) : Route3 :=
      if s.cr.absent.contains (clusterOf c * 16 + core) ∨ bWsize b * 4096 < off + size then .fault 0x0C 0x3
      else .spad ((clusterOf c * 16 + core) * 2 ^ 21 + bWbase b core * 4096 + off) (clusterOf c * 16 + core)
    (va / 2 ^ 60 = 2 → route s c va size align u vh =
      if va % 2 ^ 60 / 2 ^ 21 ≠ 0 then .fault 0x0C 0x2
      else if va % align ≠ 0 then .fault 0x0D 0x0
      else inWindow (c / 4 % 16) (va % 2 ^ 21)) ∧
    (va / 2 ^ 60 = 3 → route s c va size align u vh =
      if va % 2 ^ 56 / 2 ^ 21 ≠ 0 then .fault 0x0C 0x2
      else if va % align ≠ 0 then .fault 0x0D 0x0
      else match targetCore b (va / 2 ^ 56 % 16) with
        | none => .fault 0x0C 0x3
        | some t => inWindow t (va % 2 ^ 21)) ∧
    (4 ≤ va / 2 ^ 60 → route s c va size align u vh = .fault 0x0C 0x1)

/-- R320, R322, R323. A load from a scratchpad that the checks pass completes once it is accepted: its value, by the
bytes at the address, lands at latency 4 in the port of its unit and the register of `.w`; nothing else changes. -/
def Obligations.ScratchpadLoads : Prop :=
  ∀ (i : Instr) (r : LoadRow) (s : State) (a k : Nat), loadRow i = some r → canMove r.m false s →
    wbOk (4 + r.u.toNat) s → MemQuiet s → accepted (soleVa r.m s) s →
    route s s.iss.ctx (soleVa r.m s) r.post.size r.post.size .load r.vh = .spad a k →
    let v := loadValue r.post (rdBytes s.ms.spad a r.post.size)
    ∃ t, exec i s = .next t ∧
      sendsOne r.m s t ⟨s.cycle + 4, 4 + r.u.toNat, .port (0x240 + 0x10 * r.u.toNat) v :: wbActs (4 + r.u.toNat) s v⟩

/-- R320, R322, R6. A store to the own scratchpad that the checks pass completes and writes the bytes that it names,
from its first one at the address that the checks give; every other byte of every memory, and everything else but the
flow of the program, stays. R323, R125. A store on the cluster path is posted: its record waits for the arbiter of the
target core, at least 10 cycles on, and no byte has changed yet. -/
def Obligations.ScratchpadStores : Prop :=
  (∀ (i : Instr) (r : StoreRow) (s : State) (a k : Nat), storeRow i = some r → canMove r.m false s → MemQuiet s →
     memoriesOk s = true → pathOf (soleVa r.m s) = 2 →
     route s s.iss.ctx (soleVa r.m s) r.size r.size .store r.vh = .spad a k →
     ∃ t, exec i s = .next t ∧
       t = { s with ctxs := t.ctxs, cr := { s.cr with cores := t.cr.cores }, ms := { s.ms with spad := t.ms.spad } } ∧
       (∀ c, c ≠ s.iss.ctx → t.ctx c = s.ctx c) ∧ onlyFlow s.cx (t.ctx s.iss.ctx) ∧ popsOnly r.m s.cx (t.ctx s.iss.ctx) ∧
       goesOn s.cx (t.ctx s.iss.ctx) ∧ sends s.cx (t.ctx s.iss.ctx) s.cycle [] ∧ memoriesOk t = true ∧
       (∀ n, r.writes s n → rdByte t.ms.spad (a + n) = (r.a s).extractLsb' (8 * n) 8) ∧
       (∀ n, (n < a ∨ ¬ r.writes s (n - a)) → rdByte t.ms.spad n = rdByte s.ms.spad n)) ∧
  (∀ (i : Instr) (r : StoreRow) (s : State) (a k : Nat), storeRow i = some r → canMove r.m false s → MemQuiet s →
     pathOf (soleVa r.m s) = 3 → route s s.iss.ctx (soleVa r.m s) r.size r.size .store r.vh = .spad a k →
     ∃ t, exec i s = .next t ∧
       onlySent s t (soleAcc r.m s (r.kind s) (.spad a) 0 r.size (r.a s) 0 none) ∧
       popsOnly r.m s.cx (t.ctx s.iss.ctx) ∧ emptied none s.cx (t.ctx s.iss.ctx) ∧ pendRaised 0 s.cx (t.ctx s.iss.ctx) ∧
       underWay s t .clusterAccessAccept s.nextId 9)

/-- R125, R251, R262. A load on a global path that the checks pass leaves its context: its record goes to the memory
port, and its register is empty from then on. A load of a LINED page goes to the line's home Badger. R125, R130, R140,
R103. A store on a global path that the checks pass leaves its context, and the counters of pending bytes rise by what
it writes: to an ATOMIC page as a write of its port, to a LINED page as a write into the context's open patch on that
line. No byte of memory has changed yet. -/
def Obligations.GlobalAccessesLeave : Prop :=
  (∀ (i : Instr) (r : LoadRow) (s : State) (pa ta : Nat) (low high : W64), loadRow i = some r → canMove r.m false s →
     wbOk (4 + r.u.toNat) s → MemQuiet s →
     route s s.iss.ctx (soleVa r.m s) r.post.size r.post.size .load r.vh = .page pa low high ta →
     blocksServed s s.iss.ctx (accessBlocks s (.page pa low high ta) r.post.size r.vh) = true →
     (dKind low ≠ kLined →
       ∃ t, exec i s = .next t ∧
         onlySent s t (soleAcc r.m s (.load r.post) (.phys pa) pa r.post.size 0 0 (wbReg (4 + r.u.toNat) s)) ∧
         popsOnly r.m s.cx (t.ctx s.iss.ctx) ∧ emptied (wbReg (4 + r.u.toNat) s) s.cx (t.ctx s.iss.ctx) ∧
         pendRaised 0 s.cx (t.ctx s.iss.ctx) ∧ underWay s t .variableArrival s.nextId 0) ∧
     (dKind low = kLined → (∃ l, s.line (lineKey high) = some l ∧ l.st = .live) → s.cx.onLine = false →
       lineKey high ∉ s.cx.unmade →
       ∃ t v, exec i s = .next t ∧
         onlySent s t (soleAcc r.m s (.chain r.post) (.line (lineKey high) (ta % 2 ^ (dXlog high + 1))) pa r.post.size v 0
           (wbReg (4 + r.u.toNat) s)) ∧
         popsOnly r.m s.cx (t.ctx s.iss.ctx) ∧ emptied (wbReg (4 + r.u.toNat) s) s.cx (t.ctx s.iss.ctx) ∧
         pendRaised 0 s.cx (t.ctx s.iss.ctx) ∧ underWay s t .chainRead s.nextId 0)) ∧
  (∀ (i : Instr) (r : StoreRow) (s : State) (pa ta : Nat) (low high : W64), storeRow i = some r → canMove r.m false s →
     MemQuiet s → route s s.iss.ctx (soleVa r.m s) r.size r.size .store r.vh = .page pa low high ta →
     blocksServed s s.iss.ctx (storeBlocks s (.page pa low high ta) r.size r.vh (if r.lanes then some (r.mask s) else none)) = true →
     let bytes := if r.lanes then 4 * popBelow (r.mask s).toNat 64 else r.size
     pendFits s.cx.pend bytes = true →
     (dKind low ≠ kLined →
       ∃ t, exec i s = .next t ∧
         onlySent s t (soleAcc r.m s (r.kind s) (.phys pa) pa r.size (r.a s) 0 none) ∧
         popsOnly r.m s.cx (t.ctx s.iss.ctx) ∧ emptied none s.cx (t.ctx s.iss.ctx) ∧
         pendRaised bytes s.cx (t.ctx s.iss.ctx) ∧ underWay s t .globalWritePerformed s.nextId 0) ∧
     (dKind low = kLined →
       (∃ l, s.line (lineKey high) = some l ∧ l.st = .live ∧ l.opens.any (fun o => o.ctx == s.iss.ctx) = true) →
       let a := soleAcc r.m s (if r.lanes then .lanes (r.mask s) else .patch)
         (.line (lineKey high) (ta % 2 ^ (dXlog high + 1))) pa r.size (r.a s) 0 none
       poolUsed (addAcc s a) (lineKey high / 2 ^ 24) ≤ poolMax s (lineKey high / 2 ^ 24) →
       ∃ t, exec i s = .next t ∧ onlySent s t a ∧
         popsOnly r.m s.cx (t.ctx s.iss.ctx) ∧ emptied none s.cx (t.ctx s.iss.ctx) ∧
         pendRaised bytes s.cx (t.ctx s.iss.ctx) ∧ underWay s t .patchWriteArrival s.nextId 0))

/-! ### Tagged words, atomics, fences, barriers, queues and the Sett (R134 to R140, R178 to R187, R327 to R340) -/

/-- R134, R323, R327. A tagged operation on a word for which nothing waits, and no record is to be replayed, on the own
scratchpad or, once its arbiter has accepted it, on the cluster path: `ldf` and `ldk` take a full word, and leave it empty or
full; `stf` on an empty word and `stx` on any write it and leave it full; `ldf` and `ldk` on an empty word and `stf` on a full
one wait at the word. The bundle issues in every case. `stf` and `stx` on the cluster path are posted: the record waits for
the arbiter, at least 10 cycles on. -/
def Obligations.TaggedWords : Prop :=
  ∀ (m : Mv) (s : State) (a k : Nat), canMove m false s → MemQuiet s → memoriesOk s = true → s.cx.down = none →
    accepted (soleVa m s) s → (∀ q ∈ s.ms.tagq, q.word ≠ a / 4) →
    route s s.iss.ctx (soleVa m s) 4 4 .tagged false = .spad a k →
    nextRecord s (bLid (s.board s.iss.ctx)) (s.seenDie s.iss.ctx) 0x05 (tagSite s s.iss.ctx a) = none →
    let data : BitVec 32 := (opnd s.cx 0x380).setWidth 32
    let req (op : Nat) (dest : Option Dest) : TagReq :=
      { ctx := s.iss.ctx, num := s.cx.bundles, word := a / 4, op := op, data := data, dest := dest, va := toW (soleValue m s) }
    let word : W64 := (wordAt s.ms.spad a).setWidth 64
    let full (t : State) (on : Bool) : Prop :=
      tagFull t a = on ∧ ∀ w, w ≠ a / 4 → t.ms.full.contains w = s.ms.full.contains w
    (wbOk 10 s → tagFull s a = true → ∃ t, exec (.syLdf m) s = .next t ∧ syncDone m s t ∧ othersStay s t ∧
      t.tm = s.tm ∧ t.ms = { s.ms with full := t.ms.full, arrivals := t.ms.arrivals } ∧ full t false ∧
      emptied (wbReg 10 s) s.cx (t.ctx s.iss.ctx) ∧ onItsWay s t (wbReg 10 s) word (toW (soleValue m s)) 2) ∧
    (wbOk 10 s → tagFull s a = true → ∃ t, exec (.syLdk m) s = .next t ∧ syncDone m s t ∧ othersStay s t ∧
      t.tm = s.tm ∧ t.ms = { s.ms with arrivals := t.ms.arrivals } ∧
      emptied (wbReg 10 s) s.cx (t.ctx s.iss.ctx) ∧ onItsWay s t (wbReg 10 s) word (toW (soleValue m s)) 2) ∧
    (wbOk 10 s → tagFull s a = false → ∀ op : Bool, ∃ t, exec (if op then .syLdf m else .syLdk m) s = .next t ∧ syncDone m s t ∧
      othersStay s t ∧ t.tm = s.tm ∧ t.ms = { s.ms with tagq := s.ms.tagq ++ [req (if op then 0 else 1) (wbReg 10 s)] } ∧
      emptied (wbReg 10 s) s.cx (t.ctx s.iss.ctx)) ∧
    let own := pathOf (soleVa m s) = 2
    (own → tagFull s a = false → ∃ t, exec (.syStf m) s = .next t ∧ syncDone m s t ∧ othersStay s t ∧
      t.tm = s.tm ∧ t.ms = { s.ms with full := t.ms.full, spad := t.ms.spad } ∧ full t true ∧
      wordOnly s.ms.spad t.ms.spad a data) ∧
    (own → ∃ t, exec (.syStx m) s = .next t ∧ syncDone m s t ∧ othersStay s t ∧
      t.tm = s.tm ∧ t.ms = { s.ms with full := t.ms.full, spad := t.ms.spad } ∧ full t true ∧
      wordOnly s.ms.spad t.ms.spad a data) ∧
    (own → tagFull s a = true → ∃ t, exec (.syStf m) s = .next t ∧ syncDone m s t ∧ othersStay s t ∧
      t.tm = s.tm ∧ t.ms = { s.ms with tagq := s.ms.tagq ++ [req 2 none] }) ∧
    (pathOf (soleVa m s) = 3 → ∀ stx : Bool, ∃ t, exec (if stx then .syStx m else .syStf m) s = .next t ∧
      onlySent s t (soleAcc m s (.tag (if stx then 3 else 2)) (.spad a) 0 4 (data.setWidth 2048) 0 none) ∧
      popsOnly m s.cx (t.ctx s.iss.ctx) ∧ emptied none s.cx (t.ctx s.iss.ctx) ∧ pendRaised 0 s.cx (t.ctx s.iss.ctx) ∧
      underWay s t .clusterAccessAccept s.nextId 9)

/-- R323, R329 to R331. An atomic on a word of the own scratchpad, and a returning one on the cluster path that its arbiter
has accepted, replaces the word, outside deterministic modes; a returning one sends the old word to the register of `.w`; no
other byte changes. One of the cluster path that returns nothing is posted: its record waits for the arbiter, at least 10
cycles on, and no byte has changed yet. -/
def Obligations.ScratchpadAtomics : Prop :=
  ∀ (i : Instr) (r : AtomRow) (s : State) (a k : Nat), atomRow i = some r → canMove r.m false s →
    (r.ret = true → wbOk 10 s) → MemQuiet s → route s s.iss.ctx (soleVa r.m s) 4 4 .atom false = .spad a k →
    let old := wordAt s.ms.spad a
    let va := (opnd s.cx 0x380).setWidth 32
    let vb := (opnd s.cx 0x381).setWidth 32
    (r.ret = true ∨ pathOf (soleVa r.m s) = 2 → accepted (soleVa r.m s) s → memoriesOk s = true →
      lidDet s (bLid (s.board s.iss.ctx)) = false →
      ∃ t, exec i s = .next t ∧ syncDone r.m s t ∧ othersStay s t ∧ t.tm = s.tm ∧
        t.ms = { s.ms with spad := t.ms.spad, arrivals := t.ms.arrivals } ∧ memoriesOk t = true ∧
        wordOnly s.ms.spad t.ms.spad a (r.new old va vb) ∧
        (r.ret = true → emptied (wbReg 10 s) s.cx (t.ctx s.iss.ctx) ∧
          onItsWay s t (wbReg 10 s) (old.setWidth 64) (toW (soleValue r.m s)) 2) ∧
        (r.ret = false → t.ms.arrivals = s.ms.arrivals ∧ emptied none s.cx (t.ctx s.iss.ctx))) ∧
    (r.ret = false → pathOf (soleVa r.m s) = 3 →
      ∃ t, exec i s = .next t ∧ onlySent s t (soleAcc r.m s (.atom r.op false) (.spad a) 0 4 (va.setWidth 2048) vb none) ∧
        popsOnly r.m s.cx (t.ctx s.iss.ctx) ∧ emptied none s.cx (t.ctx s.iss.ctx) ∧ pendRaised 0 s.cx (t.ctx s.iss.ctx) ∧
        underWay s t .clusterAccessAccept s.nextId 9)

/-- R135, R136, R140, R329. An atomic on an ATOMIC page leaves its context for the port's write queue, or in a
deterministic launch, when it returns nothing, for the holding buffer of its bank; a returning one empties the register
of `.w`. -/
def Obligations.GlobalAtomicsLeave : Prop :=
  ∀ (i : Instr) (r : AtomRow) (s : State) (pa ta : Nat) (low high : W64), atomRow i = some r → canMove r.m false s →
    (r.ret = true → wbOk 10 s) → MemQuiet s →
    route s s.iss.ctx (soleVa r.m s) 4 4 .atom false = .page pa low high ta →
    pendFits s.cx.pend 4 = true → blocksServed s s.iss.ctx (accessBlocks s (.page pa low high ta) 4 false) = true →
    let dest := if r.ret then wbReg 10 s else none
    let det := lidDet s (bLid (s.board s.iss.ctx))
    ∃ t, exec i s = .next t ∧
      onlySent s t (soleAcc r.m s (.atom r.op r.ret) (.phys pa) pa 4
        (((opnd s.cx 0x380).setWidth 32).setWidth 2048) ((opnd s.cx 0x381).setWidth 32) dest) ∧
      popsOnly r.m s.cx (t.ctx s.iss.ctx) ∧ emptied dest s.cx (t.ctx s.iss.ctx) ∧ pendRaised 4 s.cx (t.ctx s.iss.ctx) ∧
      underWay s t
        (if det ∧ r.ret = false then .reductionHold
         else if det ∧ r.op = .swap then .globalWritePerformed else .atomicQueuePerform) s.nextId 0

/-- R332. `fence` and `pwait` take the scope code from value[2:0], and ignore the bits above. A fence is in force from
then on for the context's later bundles; a wait completes when the counter of its scope is 0, and is held otherwise. -/
def Obligations.FenceAndWaitScopes : Prop :=
  ∀ (m : Mv) (s : State), canMove m false s →
    let scope := (toW (soleValue m s)).toNat % 8
    (∃ t, exec (.syFence m) s = .next t ∧
      ownCtx m s t (let x := s.cx; { x with fences := (t.ctx s.iss.ctx).fences }) ∧
      (t.ctx s.iss.ctx).fences =
        (s.cx.fences.filter fun f => fenceOut s s.iss.ctx f.limit) ++ [{ scope := scope, limit := s.cx.bundles }]) ∧
    (pendOf s.cx.pend scope = 0 → ∃ t, exec (.syPwait m) s = .next t ∧ ownCtx m s t s.cx) ∧
    (pendOf s.cx.pend scope ≠ 0 →
      exec (.syPwait m) s = .next (s.setCtx s.iss.ctx (let x := s.cx; { x with blocked := .pwait })))

/-- R139. A fence in force holds every memory access of a later bundle, with no effect, while an access of a bundle
before it, or a Sett operation on an item, is still to be performed. -/
def Obligations.FencesHold : Prop :=
  ∀ (i : Instr) (m : Mv) (s : State),
    ((∃ r, loadRow i = some r ∧ r.m = m) ∨ (∃ r, storeRow i = some r ∧ r.m = m) ∨ (∃ r, atomRow i = some r ∧ r.m = m) ∨
      i = .syLdf m ∨ i = .syLdk m ∨ i = .syStf m ∨ i = .syStx m) →
    canMove m false s → (∃ f ∈ s.cx.fences, fenceOut s s.iss.ctx f.limit = true) →
    exec i s = .next (s.setCtx s.iss.ctx (let x := s.cx; { x with blocked := .fence }))

/-- R178. The team barrier: once its accesses are performed, and every other live member has arrived (it waits at the
same barrier, or has passed it), a context goes on, with one more barrier behind it and no tainted work; any other waits.
R179, R333. Crews: `cbar` lands 0 at once for a context outside the crew, and 1 for a member whose barrier has
completed; `join` adds the context to the crew that value[2:0] names, and `leave` removes it. R223, R333. In a handler of
TEAMDOWN either barrier raises TEAMDOWN again. -/
def Obligations.BarriersAndCrews : Prop :=
  (∀ (m : Mv) (s : State), canMove m false s →
     let c := s.iss.ctx
     (∀ u, downAgain s c = some u → exec (.syTbar m) s = .next (takeTrap c u s) ∧
       (wbOk 10 s → exec (.syCbar m) s = .next (takeTrap c u s))) ∧
     let arrived (k : Nat) : Prop :=
       s.cx.bars < (s.ctx k).bars ∨ ((s.ctx k).bars = s.cx.bars ∧ (s.ctx k).atTbar = true)
     (s.cx.down = none → fenceOut s c s.cx.bundles = false → (∀ k ∈ liveMembers s c, k ≠ c → arrived k) →
       ∃ t, exec (.syTbar m) s = .next t ∧
         ownCtx m s t (let x := s.cx; { x with atTbar := false, bars := x.bars + 1 }) ∧ (t.ctx c).dirty = false) ∧
     (s.cx.down = none → fenceOut s c s.cx.bundles = false → (∃ k ∈ liveMembers s c, k ≠ c ∧ ¬ arrived k) →
       exec (.syTbar m) s = .next (s.setCtx c (let x := s.cx; { x with atTbar := true, blocked := .tbar }))) ∧
     (s.cx.down = none → fenceOut s c s.cx.bundles = true →
       exec (.syTbar m) s = .next (s.setCtx c (let x := s.cx; { x with blocked := .fence })))) ∧
  (∀ (m : Mv) (s : State), canMove m false s →
     let c := s.iss.ctx
     let crew := (toW (soleValue m s)).toNat % 8
     let key := s.cx.slot * 8 + crew
     (wbOk 10 s → s.cx.down = none → crew ∉ s.cx.released → c ∉ crewMembers s key →
       ∃ t, exec (.syCbar m) s = .next t ∧ sendsOne m s t ⟨s.cycle + 1, 10, .port 0x2A0 0 :: wbActs 10 s 0⟩) ∧
     (wbOk 10 s → s.cx.down = none → fenceOut s c s.cx.bundles = false → c ∈ crewMembers s key → crew ∈ s.cx.released →
       ∃ t, exec (.syCbar m) s = .next t ∧ onlyCtx c s t ∧
         onlyFlow (let x := s.cx; { x with released := sdel crew x.released }) (t.ctx c) ∧ popsOnly m s.cx (t.ctx c) ∧
         goesOn s.cx (t.ctx c) ∧ sends s.cx (t.ctx c) s.cycle [⟨s.cycle + 1, 10, .port 0x2A0 1 :: wbActs 10 s 1⟩]) ∧
     (∃ t, exec (.syJoin m) s = .next t ∧ onlyFlow s.cx (t.ctx c) ∧ popsOnly m s.cx (t.ctx c) ∧ goesOn s.cx (t.ctx c) ∧
       othersStay s t ∧
       t = { s with ctxs := t.ctxs, cr := { s.cr with cores := t.cr.cores }, tm := { s.tm with crews := t.tm.crews } } ∧
       (∀ k, k ∈ crewMembers t key ↔ k = c ∨ k ∈ crewMembers s key) ∧
       (∀ j, j ≠ key → crewMembers t j = crewMembers s j)) ∧
     (tget s.tm.crewOpen key = none → ∃ t, exec (.syLeave m) s = .next t ∧ onlyFlow s.cx (t.ctx c) ∧
       popsOnly m s.cx (t.ctx c) ∧ goesOn s.cx (t.ctx c) ∧ othersStay s t ∧
       t = { s with ctxs := t.ctxs, cr := { s.cr with cores := t.cr.cores }, tm := { s.tm with crews := t.tm.crews } } ∧
       (∀ k, k ∈ crewMembers t key ↔ k ≠ c ∧ k ∈ crewMembers s key) ∧
       (∀ j, j ≠ key → crewMembers t j = crewMembers s j)))

/-- R186, R337, R338. A Sett operation of a gain launch goes on its way as its bundle issues: a pop or a poll to the Sett of
its die, its register empty from then on; `sgadd`, `sgset` and `sdone` to the Sett that holds the item that `.a`[31:0] names,
and an item that is done leaves the held list. R185 to R187, R337. As it arrives, a pop or poll outside deterministic modes
takes the eligible item of greatest gain, the lowest index among equals: the item runs for the context, which holds it, and
its index goes to the register of `.w`. With none eligible a poll answers 0xFFFF_FFFE and a pop waits; after the end both
answer 0xFFFF_FFFF. `sgadd` adds its value to the gain, limited to the range of 64 bits, with SAT where it limits; `sgset`
sets the gain; `sdone` gives its item its residual, ends its run, and changes the launch's residual by the difference. That
the latency is open, and that an operation goes to the Sett that is to receive an item in transit, is log entry 39; that the
Sett of a die in MODE 3 is that of SDIE0 + (logical die mod SDIES) is the model's reading (log entry 38), and that a residual
which is a signalling NaN sets SAT alone is its choice (log entry 134). -/
def Obligations.SettPopsAndItems : Prop :=
  (∀ (m : Mv) (s : State) (l : Launch), canMove m false s → s.launchOf s.iss.ctx = some l → modeGain l.mode = true →
     let c := s.iss.ctx
     let lid := bLid (s.board c)
     let i := (opnd s.cx 0x380).toNat % 2 ^ 32
     let op (kind idx key : Nat) (v : W64) (d : Option Dest) : SettOp :=
       { id := s.nextId, ctx := c, num := s.cx.bundles, lid := lid, key := key, kind := kind, idx := idx, val := v, dest := d
         at_ := 0 }
     (∀ poll : Bool, wbOk 10 s → s.cx.held.length + (popsOut s c).length < 16 →
       ∃ t, exec (if poll then .sySpoll m else .sySpop m) s = .next t ∧ syncDone m s t ∧ othersStay s t ∧ t.ms = s.ms ∧
         emptied (wbReg 10 s) s.cx (t.ctx c) ∧ (t.ctx c).held = s.cx.held ∧
         settSent s t (op (if poll then 4 else 3) 0
           (lid * 16 + if modeDet l.mode then l.sdie0 + s.seenDie c % max 1 l.sdies else dieOf c) 0 (wbReg 10 s))) ∧
     (i < l.nitems →
       (∀ add : Bool, ∃ t, exec (if add then .sySgadd m else .sySgset m) s = .next t ∧ syncDone m s t ∧ othersStay s t ∧
         t.ms = s.ms ∧ emptied none s.cx (t.ctx c) ∧ (t.ctx c).held = s.cx.held ∧
         settSent s t (op (if add then 0 else 1) i (settFor s lid i) (toW (soleValue m s)) none)) ∧
       (i ∈ s.cx.held → ∃ t, exec (.sySdone m) s = .next t ∧ syncDone m s t ∧ othersStay s t ∧ t.ms = s.ms ∧
         emptied none s.cx (t.ctx c) ∧ (t.ctx c).held = s.cx.held.erase i ∧
         settSent s t (op 2 i (settFor s lid i) (toW (soleValue m s)) none)))) ∧
  (∀ (s : State) (o : SettOp) (l : Launch) (st : Sett), PopArrives s o l st →
     let answered (t : State) (v : W64) : Prop :=
       t.ms = { s.ms with arrivals := s.ms.arrivals ++
         [{ id := s.nextId, ctx := o.ctx, dest := o.dest, val := some (ofW v), addr := 0, loc := 0 }] } ∧
       (∃ d ∈ t.agenda, d.ev.row = .variableArrival ∧ d.ev.arg.a = s.nextId ∧ s.cycle < d.cyc) ∧
       t.tm.settOps = s.tm.settOps.erase o ∧ ∀ k, k ≠ o.ctx → t.ctx k = s.ctx k
     (∀ (i : Nat) (x : Item), l.endCode = 0 → popTakes l.floor st.items i x →
       ∃ t st', exec .settPopAnswer s = .next t ∧ answered t (BitVec.ofNat 64 i) ∧
         t.ctx o.ctx = (let y := s.ctx o.ctx; { y with held := y.held ++ [i] }) ∧ tget t.tm.setts o.key = some st' ∧
         st'.waits = [] ∧ tget st'.items i = some { x with runner := some o.ctx } ∧
         ∀ j, j ≠ i → tget st'.items j = tget st.items j) ∧
     (l.endCode = 0 → (∀ e ∈ st.items, itemEligible l.floor e.2 = false) →
       (o.kind = 4 → ∃ t, exec .settPopAnswer s = .next t ∧ answered t 0xFFFFFFFE ∧ t.ctxs = s.ctxs) ∧
       (o.kind = 3 → ∃ t, exec .settPopAnswer s = .next t ∧ t.ms = s.ms ∧ t.ctxs = s.ctxs ∧
         tget t.tm.setts o.key = some { st with waits := [⟨o.ctx, o.dest, false⟩] })) ∧
     (l.endCode ≠ 0 → ∃ t, exec .settPopAnswer s = .next t ∧ answered t 0xFFFFFFFF ∧ t.ctxs = s.ctxs)) ∧
  (∀ (s : State) (o : SettOp) (l : Launch) (x : Item), SettOpDue s o → o.kind < 3 →
     tget s.tm.launches o.lid = some l → itemOf s o.lid o.idx = some x →
     let sum := x.gain + o.val.toInt
     let lim := max (-(2 ^ 63 : Int)) (min (2 ^ 63 - 1) sum)
     let r := residualOf (o.val.toNat % 2 ^ 32)
     let sat := (o.kind = 0 ∧ lim ≠ sum) ∨ (o.kind = 2 ∧ r.2 = true)
     ∃ t l', exec .settPopAnswer s = .next t ∧ t.ms = s.ms ∧ t.tm.settOps = s.tm.settOps.erase o ∧
       (∀ k, k ≠ o.ctx → t.ctx k = s.ctx k) ∧
       t.ctx o.ctx = (let y := s.ctx o.ctx; { y with flags := if sat then y.flags ||| fSAT.setWidth 32 else y.flags }) ∧
       tget t.tm.launches o.lid = some l' ∧
       l'.residual = (if o.kind = 2 then l.residual - x.residual + r.1 else l.residual) ∧
       itemOf t o.lid o.idx = some
         (if o.kind = 0 then { x with gain := lim } else if o.kind = 1 then { x with gain := o.val.toInt }
          else { x with residual := r.1, runner := none }))

/-! ### The matrix unit (R53 to R61, R357 to R378) -/

/-- R358, R359, R373. `alloc` takes the lowest run of the count that its value gives of banks that are free and that no call
names, within the team's share: each is held by the context, with every exponent the low 16 bits of `.a` and every element 0, and the first bank's
number lands at latency 4. `free` releases the banks that its value and `.a` name. Other banks stay. -/
def Obligations.BanksAllocateAndFree : Prop :=
  ∀ (m : Mv) (s : State), canMove m false s →
    let c := s.iss.ctx
    let core := coreOf c
    let n := (toW (soleValue m s)).toNat
    let e : BitVec 16 := (opnd s.cx 0x348).setWidth 16
    let isFree (b : Nat) : Prop := callNames s core b n = false ∧ ∀ k, k < n → bankAt s core (b + k) = none
    (∀ first, wbOk 8 s → 1 ≤ n → first + n ≤ 256 → teamBanks s c + n ≤ bBanks (s.board c) → isFree first →
      (∀ b, b < first → ¬ isFree b) →
      ∃ t, exec (.mxAlloc m) s = .next t ∧
        onlyBanks m s t [⟨s.cycle + 4, 8, .port 0x280 (BitVec.ofNat 2048 first) :: wbActs 8 s (BitVec.ofNat 2048 first)⟩] ∧
        ∀ b, tget t.cr.banks b =
          if core * 256 + first ≤ b ∧ b < core * 256 + first + n then
            some { holder := c, e0 := e, e1 := e, e2 := e, e3 := e, els := [] } else tget s.cr.banks b) ∧
    (let count := (opnd s.cx 0x348).toNat
     n + count ≤ 256 → (∀ b, n ≤ b → b < n + count → teamHolds s c b = true) → callNames s core n count = false →
      ∃ t, exec (.mxFree m) s = .next t ∧ onlyBanks m s t [] ∧
        ∀ b, tget t.cr.banks b =
          if core * 256 + n ≤ b ∧ b < core * 256 + n + count then none else tget s.cr.banks b)

/-- R60, R61, R360. The row operations on a row of a held bank: `norm` renormalises it by R60; `rd` lands its elements
in TYPE at latency 8, rounded with index 64 × row + element, nothing above them, and leaves the row as it is; `wr` enters
the lanes of `.a`. The flags of all 64 elements land together at latency 8. -/
def Obligations.RowOperations : Prop :=
  ∀ (m : Mv) (s : State), canMove m false s →
    let core := coreOf s.iss.ctx
    let g := (toW (soleValue m s)).toNat % 1024
    let w := (opnd s.cx 0x349).toNat
    let ty := w % 16
    let rnd := w / 16 % 8
    let ex := rowExp s core g
    let es := rowElems s core g
    let elem (k : Nat) : Elem := es.getD k {}
    RowReady g s →
    (∃ t, exec (.mxNorm m) s = .next t ∧
      onlyBanks m s t [⟨s.cycle + 8, 8, landFlags (normRow ex es).2.2⟩] ∧
      rowOnly core g s t (normRow ex es).1 (normRow ex es).2.1) ∧
    (wbOk 8 s → 4 ≤ ty → ty ≤ 0xC → rnd ≤ 4 →
      let conv (k : Nat) : Nat × Flags :=
        toElem ty { mode := rnd, seed := w / 2 ^ 32 % 2 ^ 32, index := (64 * g + k) % 2 ^ 32 } (elemNum ex rnd (elem k))
      ∃ t v, exec (.mxRd m) s = .next t ∧
        onlyBanks m s t [⟨s.cycle + 8, 8, .port 0x282 v :: wbActs 8 s v⟩,
          ⟨s.cycle + 8, 8, landFlags (((List.range 64).map fun k => (conv k).2).foldl (· ||| ·) 0)⟩] ∧
        t.cr.banks = s.cr.banks ∧ (∀ k, k < 64 → laneAt (tyBits ty) k v = (conv k).1 % 2 ^ tyBits ty) ∧
        v.toNat < 2 ^ (64 * tyBits ty)) ∧
    (4 ≤ ty → ty ≤ 0xC →
      let conv (k : Nat) : Elem × Flags := elemOfCode ex ty (laneAt (tyBits ty) k (opnd s.cx 0x348))
      ∃ t, exec (.mxWr m) s = .next t ∧
        onlyBanks m s t [⟨s.cycle + 8, 8, landFlags (((List.range 64).map fun k => (conv k).2).foldl (· ||| ·) 0)⟩] ∧
        rowOnly core g s t ex ((List.range 64).map fun k => (conv k).1))

/-- R361, R364 to R367, R371, R374. A call of each routine of the catalogue that is admitted takes the core's array,
from its first step or the one that `mx.row` names: its interval runs for its cost, and its first step begins 16 cycles on.
That the register of `.w` is empty until the call ends is the model's choice (log entry 19). -/
def Obligations.CallsStart : Prop :=
  ∀ (i : Instr) (n : Nat) (m : Mv) (r : Routine) (s : State), routineRow i = some (n, m) → canMove m false s →
    (toW (soleValue m s)).toNat % 256 = n → routineOf n = some r → wbOk 8 s → CallAdmitted n s →
    let c := s.iss.ctx
    let a := callArg s n
    let first := if a.fresh = false ∧ (resPort s.cx 0x281).getLsbD 63 = true then (resPort s.cx 0x281).toNat % 2 ^ 32 else 0
    first < a.steps r →
    ∃ t k, exec i s = .next t ∧ tget t.cr.calls (coreOf c) = some k ∧
      k.ctx = c ∧ k.rout = n ∧ k.arg = a ∧ k.step = first ∧ k.steps = a.steps r ∧ k.cyc = a.cyc r ∧ k.begun = false ∧
      k.stop = false ∧ k.wb = wbReg 8 s ∧ k.num = s.cx.bundles ∧
      (t.ctx c).callEnd = some (s.cycle + (a.steps r - first) * a.cyc r) ∧
      emptied (wbReg 8 s) s.cx (t.ctx c) ∧ (t.ctx c).regs = s.cx.regs ∧ goesOn s.cx (t.ctx c) ∧ othersStay s t ∧
      t.cr.banks = s.cr.banks ∧ t.ms = s.ms ∧ t.tm = s.tm ∧
      t.agenda = s.agenda ++
        [{ cyc := s.cycle + 16, early := true, ev := { row := .matrixStepBegin, arg := { a := coreOf c } } }]

/-- R56, R57, R63, R366, R369, R370, R377. A step of a call begins once the context's scratchpad accesses are performed, and
works on its operands as they then stand, where none was written while its loaders read: a multiply step in classical order
without a mask enters into each finite element of its tile the products of finite operands, each rounded once, and clamps;
`acc.ld` enters X, `acc.norm` renormalises, `acc.st` has written each element in TYPE once its writes are performed, by its
end, `acc.zero` leaves every element of its tile's rows 0. A step that ends adds its flags to the flag word; after the last
the array is free and `mx.st` is 1, in its port and on its way to the register of `.w`. That a step works at its beginning
and lands its flags at its end is the model's choice (log entry 22). R372. A call that a pre-emption stops is issued again by
the core on resume, from the restored parameters, with FRESH as 0, as soon as the array is free and the Timetable admits it,
before a bundle of the context; that it keeps the slot, the register of `.w` and the bundle number of its trigger is the
model's reading (log entry 96). -/
def Obligations.MatrixSteps : Prop :=
  (∀ (s : State) (k : Call), tget s.cr.calls s.ev.a = some k →
     let core := s.ev.a
     (s.ev.b = 0 → (∀ b ∈ s.ms.accs, b.ctx ≠ k.ctx) → s.ms.holds = [] → stepFails s core k = none →
       (∀ f ∈ s.ms.former, core ∉ f.cores) →
       ∃ t, exec .matrixStepBegin s = .next t ∧
         (∃ k', tget t.cr.calls core = some k' ∧ k'.begun = true ∧ k'.step = k.step ∧ k'.ctx = k.ctx ∧
           (k.rout ≠ 9 → k'.stores = []) ∧ ∀ w ∈ k'.stores, w.1 ≤ s.cycle + k.cyc) ∧
         t.cr.banks = (runStep s core k).1.cr.banks ∧
         (k.rout ≠ 9 → t.ms = { s.ms with former := t.ms.former }) ∧
         (∃ d ∈ t.agenda, d.ev.row = .matrixStepEnd ∧ d.ev.arg.a = core ∧ d.cyc = s.cycle + k.cyc) ∧
         ∀ r, routineOf k.rout = some r →
           let p := stepAt k.arg r k.step
           let g (i j : Nat) : Nat := cellRow k.arg (p.i0 + i) (p.j0 + j)
           let elem (u : State) (i j : Nat) : Elem := (rowElems u core (g i j)).getD (j % 64) {}
           ∀ i j, i < r.tile → j < r.tile → (bankAt s core (g i j / 4)).isSome = true →
             (k.rout ≤ 5 ∨ (k.rout = 6 ∧ k.arg.classic = true ∧ 128 ≤ k.arg.m) → k.arg.mask = false → (elem s i j).st = .finite →
               (∀ e ∈ stepPairs s k r i j, finiteNum e.1 ∧ finiteNum e.2) →
               entersAs (rowExp s core (g i j)) (stepPairs s k r i j) (elem s i j) (elem t i j)) ∧
             (k.rout = 8 → (elem s i j).st = .finite → finiteNum ((sideA s k.ctx k.arg).num s (p.i0 + i) (p.j0 + j)) →
               entersAs (rowExp s core (g i j)) [((sideA s k.ctx k.arg).num s (p.i0 + i) (p.j0 + j), .fin false 1 0)]
                 (elem s i j) (elem t i j)) ∧
             (k.rout = 9 → 4 ≤ k.arg.at_ → k.arg.at_ ≤ 0xC → 64 * tyBits k.arg.at_ ≤ 8 * k.arg.astr → s.ms.failSpad = [] →
               let x := sideA s k.ctx k.arg
               rdNat (performStores t core true).ms.spad (x.key + x.bitOff (p.i0 + i) (p.j0 + j) / 8) (tyBits k.arg.at_ / 8) =
                 (toElem k.arg.at_ { mode := k.arg.rnd, seed := k.arg.seed, index := ((p.i0 + i) * k.arg.n + p.j0 + j) % 2 ^ 32 }
                   (elemNum (rowExp s core (g i j)) k.arg.rnd (elem s i j))).1 % 2 ^ tyBits k.arg.at_) ∧
             (k.rout = 0x0A → rowExp t core (g i j) = (normRow (rowExp s core (g i j)) (rowElems s core (g i j))).1 ∧
               rowElems t core (g i j) = (normRow (rowExp s core (g i j)) (rowElems s core (g i j))).2.1) ∧
             (k.rout = 0x0B → elem t i j = {} ∧ rowExp t core (g i j) = rowExp s core (g i j))) ∧
     (k.begun = true → s.ms.holds = [] → stepTrap (s.ctx k.ctx) k.flags = none → k.steps ≤ k.step + 1 →
       ∃ t, exec .matrixStepEnd s = .next t ∧ tget t.cr.calls core = none ∧
         resPort (t.ctx k.ctx) 0x280 = 1 ∧ resPort (t.ctx k.ctx) 0x281 = 0 ∧
         (t.ctx k.ctx).flags = (s.ctx k.ctx).flags ||| (k.flags.foldl (fun (f : Flags) (e : Nat × BitVec 8) => f ||| e.2) 0).setWidth 32 ∧
         t.ms = { (performStores s core true).ms with
           arrivals := s.ms.arrivals ++ stArrivals s k 1, former := t.ms.former } ∧
         (∀ a ∈ stArrivals s k 1, ∃ d ∈ t.agenda, d.ev.row = .variableArrival ∧ d.ev.arg.a = a.id) ∧
         t.cr.banks = s.cr.banks) ∧
     (k.begun = true → s.ms.holds = [] → stepTrap (s.ctx k.ctx) k.flags = none → k.step + 1 < k.steps → k.stop = false →
       ∃ t, exec .matrixStepEnd s = .next t ∧
         tget t.cr.calls core = some { k with step := k.step + 1, flags := [], stores := [] } ∧
         (∃ d ∈ t.agenda, d.ev.row = .matrixStepBegin ∧ d.ev.arg.a = core ∧ d.cyc = s.cycle ∧ d.early = true) ∧
         t.ms = (performStores s core true).ms ∧ t.cr.banks = s.cr.banks) ∧
     (k.begun = true → s.ms.holds = [] → stepTrap (s.ctx k.ctx) k.flags = none → k.step + 1 < k.steps → k.stop = true →
       ∃ t, exec .matrixStepEnd s = .next t ∧ tget t.cr.calls core = none ∧ resPort (t.ctx k.ctx) 0x280 = 2 ∧
         resPort (t.ctx k.ctx) 0x281 = BitVec.ofNat 2048 (2 ^ 63 + k.rout % 256 * 2 ^ 48 + (k.step + 1) % 2 ^ 32) ∧
         t.ms = { (performStores s core true).ms with
           arrivals := s.ms.arrivals ++ stArrivals s k 2, former := t.ms.former } ∧
         ((s.ctx k.ctx).preempt = true ∨ (s.ctx k.ctx).run = .preempted →
           (t.ctx k.ctx).reissue = some ⟨k.rout, k.slot, k.wb, k.num, false⟩))) ∧
  (∀ (s : State) (n slot num : Nat) (wb : Option Dest) (on : Bool) (r : Routine), routineOf n = some r →
     let c := s.ev.a
     let x := s.ctx c
     let p (i : Nat) : W64 := toW (opnd x (0x340 + i))
     let a := mxArg n (p 0) (p 1) (p 2) (p 3) (p 4) (p 5) (p 6) (p 7 &&& ~~~4)
     x.reissue = some ⟨n, slot, wb, num, on⟩ → callChecks s c slot a = [] → tget s.cr.calls (coreOf c) = none → s.ms.holds = [] →
     callPosted s c a = false → mxAdmits s (dieOf c) (bComp (s.board c)) (callCost x a) = true →
     let first := if (resPort x 0x281).getLsbD 63 = true then (resPort x 0x281).toNat % 2 ^ 32 else 0
     first < a.steps r →
     ∃ t k, exec .matrixCallReissue s = .next t ∧ tget t.cr.calls (coreOf c) = some k ∧ k.ctx = c ∧ k.rout = n ∧
       k.slot = slot ∧ k.wb = wb ∧ k.num = num ∧ k.arg = a ∧ k.step = first ∧ k.steps = a.steps r ∧ (t.ctx c).reissue = none ∧ (t.ctx c).pc = x.pc ∧
       (t.ctx c).bundles = x.bundles ∧
       t.agenda = s.agenda ++
         [{ cyc := s.cycle + 16, early := true, ev := { row := .matrixStepBegin, arg := { a := coreOf c } } }])

/-! ### Patch commands (R95 to R123) -/

/-- R102, R105, R113. `popen` opens a patch of the context on a LIVE line under its name, kind and siding. `pclose` of
a patch with a name new to the line, its writes arrived, enters the name and puts the patch at the tip of the chain, or
of its siding, outside deterministic modes. -/
def Obligations.PatchesOpenAndClose : Prop :=
  ∀ (m : Mv) (s : State) (key : Nat) (l : Line), canMove m false s → namesLine 0 key s → PatchReady key 1 s →
    s.line key = some l →
    (let w := ctlWord m s
     let name := nameAt 1 s
     l.st = .live → (l.fmt ≤ 3 → w % 4 = 0 ∨ w % 4 = 3) → name ≠ 0 →
     (∀ e ∈ s.ms.lines, ∀ o ∈ e.2.opens, o.ctx ≠ s.iss.ctx) → (∀ o ∈ l.opens, o.ctx ≠ s.iss.ctx) →
     poolUsed s (key / 2 ^ 24) + 1 ≤ poolMax s (key / 2 ^ 24) →
     ∃ t, exec (.ecPopen m) s = .next t ∧ patched m s t key
       { l with opens := l.opens ++ [⟨s.iss.ctx, name, w % 4, if w / 2 ^ 9 % 2 = 1 then some (w / 4 % 64) else none, []⟩] }) ∧
    (∀ o, l.opens.find? (fun o => o.ctx == s.iss.ctx) = some o → patchWritesOut s s.iss.ctx key = false →
      (∀ a ∈ s.ms.accs, intoPatch s.iss.ctx key (s.cx.bundles + 1) a = false) →
      nameOf l o.name = none → lidDet s (bLid (s.board s.iss.ctx)) = false →
      let p : Patch := { name := o.name, kind := o.kind, pay := o.pay, digest := digestOf o.kind o.pay }
      let named : Line :=
        { l with
          opens := l.opens.filter fun q => q.ctx != s.iss.ctx
          names := l.names ++ [{ name := o.name, digest := p.digest, squashed := false }] }
      (o.siding = none → l.chain.length < 65535 →
        ∃ t, exec (.ecPclose m) s = .next t ∧ patched m s t key { named with chain := l.chain ++ [p] }) ∧
      (∀ n, o.siding = some n → ((tget l.sidings n).getD []).length < 65535 →
        ∃ t, exec (.ecPclose m) s = .next t ∧
          patched m s t key { named with sidings := tput n ((tget l.sidings n).getD [] ++ [p]) l.sidings }))

/-- R109 to R112. `pcomm` swaps two adjacent patches that commute. `pinv` removes a patch that commutes with every
later one, with its name. `psq` makes the chain's value the base, leaves the chain empty, and keeps or drops the names.
-/
def Obligations.ChainsReorder : Prop :=
  ∀ (m : Mv) (s : State) (key : Nat) (l : Line), canMove m false s → namesLine 0 key s →
    s.line key = some l → PatchReady key (2 + l.chain.length) s →
    (∀ pre p q post, l.chain = pre ++ p :: q :: post → p.name = nameAt 1 s → q.name = nameAt 2 s → p.name ≠ q.name →
      (∀ r ∈ pre, r.name ≠ p.name ∧ r.name ≠ q.name) → commutes p q = true →
      ∃ t, exec (.ecPcomm m) s = .next t ∧ patched m s t key { l with chain := pre ++ q :: p :: post }) ∧
    (∀ pre p post, l.chain = pre ++ p :: post → p.name = nameAt 1 s → (∀ r ∈ pre ++ post, r.name ≠ p.name) →
      (∀ q ∈ post, commutes p q = true) →
      ∃ t, exec (.ecPinv m) s = .next t ∧
        patched m s t key { l with chain := pre ++ post, names := l.names.filter fun e => e.name != p.name }) ∧
    (l.st = .live → l.chain ≠ [] →
      ∃ t, exec (.ecPsq m) s = .next t ∧ patched m s t key
        { l with
          base := squashedBase l, hash := baseHash l.fmt l.xlog (squashedBase l), chain := []
          names :=
            if ctlWord m s / 2 ^ 15 % 2 = 1 then
              l.names.map fun e => if l.chain.any (fun p => p.name == e.name) then { e with squashed := true } else e
            else l.names.filter fun e => !l.chain.any fun p => p.name == e.name })

/-- R114 to R116. `pfork` makes a line that is not LIVE a copy of the source's base and of its chain up to a patch, or of
the base alone. `pxpl` copies a patch to the tip of another line, behind the fork point, when it commutes with all that it
passes and its name is new there. That both are checked against the patch pool as they act is the model's choice (log
entry 47). -/
def Obligations.LinesForkAndTransplant : Prop :=
  ∀ (m : Mv) (s : State) (ka kb : Nat) (a b : Line), canMove m false s → namesLine 0 ka s →
    PatchReady kb (1 + a.chain.length) s → s.line ka = some a → s.line kb = some b → a.st = .live → geometryDiffers ka kb a b = false →
    (namesLine 1 kb s → b.st ≠ .live →
      (∀ (ps post : List Patch), a.chain = ps ++ post →
        (nameAt 2 s = 0 → ps = []) → (nameAt 2 s ≠ 0 → ∃ qs p, ps = qs ++ [p] ∧ p.name = nameAt 2 s ∧
          ∀ q ∈ qs, q.name ≠ nameAt 2 s) →
        let made : Line :=
          { b with
            st := .live, base := a.base, hash := a.hash, chain := ps, sidings := []
            names := ps.map fun p => { name := p.name, digest := p.digest, squashed := false } }
        poolShort s (s.setLine kb made) (kb / 2 ^ 24) = false →
        ∃ t, exec (.ecPfork m) s = .next t ∧ patched m s t kb made)) ∧
    (namesLine 2 kb s → b.st = .live →
      (∀ (pre mid post : List Patch) (p : Patch), a.chain = pre ++ mid ++ p :: post → pre.length = forkPoint a b →
        p.name = nameAt 1 s → (∀ q ∈ pre ++ mid, q.name ≠ p.name) → (∀ q ∈ mid, commutes p q = true) →
        (∀ q ∈ b.chain.drop (forkPoint a b), commutes p q = true) → nameOf b p.name = none → b.chain.length < 65535 →
        let made : Line :=
          { b with
            chain := b.chain ++ [p]
            names := b.names ++ [{ name := p.name, digest := p.digest, squashed := false }] }
        poolShort s (s.setLine kb made) (kb / 2 ^ 24) = false →
        ∃ t, exec (.ecPxpl m) s = .next t ∧ patched m s t kb made))

/-- R117, R118, R121. `pfold` of one siding whose names are on no chain moves its patches, in their order, to the tip of
the chain. `preg` registers the table address of a launch packet as the line's producer. `pdrop` releases a LIVE line,
which becomes DROPPED if it has a producer and VACANT otherwise. That the producer is kept as the table address of its
packet, and that a fold of a siding whose names stand on the line is a move, are the model's choices (log entries 62 and
48). -/
def Obligations.FoldsAndProducers : Prop :=
  ∀ (m : Mv) (s : State) (key : Nat) (l : Line), canMove m false s → namesLine 0 key s →
    PatchReady key (heldPatches l) s → s.line key = some l →
    (∀ (n : Nat) (ps : List Patch), n < 64 → (opnd s.cx 0x361).toNat % 2 ^ 64 = 2 ^ n → tget l.sidings n = some ps →
      ps ≠ [] → (ps.map (·.name)).Nodup → (∀ p ∈ ps, ∀ q ∈ l.chain, q.name ≠ p.name) →
      (∀ e ∈ l.names, e.squashed = false) → l.chain.length + ps.length ≤ 65535 →
      ∃ t, exec (.ecPfold m) s = .next t ∧
        patched m s t key { l with chain := l.chain ++ ps, sidings := tdel n l.sidings }) ∧
    (∀ pa low high ta, l.st = .live →
      route s s.iss.ctx (toW (opnd s.cx 0x361)).toNat 192 64 .handle false = .page pa low high ta →
      ∃ t, exec (.ecPreg m) s = .next t ∧ patched m s t key { l with producer := some (BitVec.ofNat 64 ta) }) ∧
    (l.st = .live →
      ∃ t, exec (.ecPdrop m) s = .next t ∧ patched m s t key
        { l with
          st := if l.producer.isSome then .dropped else .vacant
          base := [], hash := 0, chain := [], sidings := [], names := [], opens := [] })

/-! ### Data commands (R380 to R400) -/

/-- R380, R381, R384, R400. A data command is accepted as its bundle issues: TAG and sequence number land in `ec.st`
and the register of `.w` at latency 1, and the count of accepted commands rises. A sound one joins its engine with its
bytes counted as pending; one that fails a check stands with status 1 and the check's number, and a Shuttle command without
a session with status 9 and its bytes counted. No byte has moved. -/
def Obligations.DataCommandsAccepted : Prop :=
  ∀ (i : Instr) (op : CmdOp) (m : Mv) (s : State), dataRow i = some (op, m) → canMove m false s → wbOk 9 s →
    fenceHolds s s.iss.ctx = false → (s.en.cmds.filter fun c => c.ctx == s.iss.ctx && !c.away).length < 16 →
    let k := dataCmd op m s
    let bad := k.badCheck (pkgNumber s) (pkgCount s)
    let word : Vec := BitVec.ofNat 2048 ((toW (soleValue m s)).toNat / 2 ^ 24 % 2 ^ 8 * 2 ^ 32 + s.cx.seq.toNat)
    let accepted (t : State) : Prop :=
      t.ms = s.ms ∧ t.tm = { s.tm with launches := t.tm.launches } ∧ (op.freight = true → t.tm = s.tm) ∧ othersStay s t ∧
      (t.ctx s.iss.ctx).seq = s.cx.seq + 1 ∧ (t.ctx s.iss.ctx).regs = s.cx.regs ∧ goesOn s.cx (t.ctx s.iss.ctx) ∧
      sends s.cx (t.ctx s.iss.ctx) s.cycle [⟨s.cycle + 1, 9, .port 0x290 word :: wbActs 9 s word⟩]
    let stopped (t : State) (f : Nat × Nat × W64) : Prop :=
      t.en.cmds.map (fun c => (c.id, c.status)) =
        (s.en.cmds ++ [k]).map (fun c => (c.id, if c.id = k.id then c.status <|> some f else c.status))
    (bad ≠ 0 → ∃ t, exec i s = .next t ∧ accepted t ∧ stopped t (1, bad, 0) ∧ (t.ctx s.iss.ctx).pend = s.cx.pend) ∧
    (bad = 0 → pendFits s.cx.pend k.bytes = true → op.freight = false → sessionOk s k.peer k.comp = false →
      ∃ t, exec i s = .next t ∧ accepted t ∧ stopped t (9, 0, 0) ∧ pendRaised k.bytes s.cx (t.ctx s.iss.ctx)) ∧
    (bad = 0 → pendFits s.cx.pend k.bytes = true → op.freight = true →
      ∃ t, exec i s = .next t ∧ accepted t ∧ t.en = { s.en with cmds := s.en.cmds ++ [{ k with left := k.bytes, leftSys := k.bytes }] } ∧
        pendRaised k.bytes s.cx (t.ctx s.iss.ctx)) ∧
    (bad = 0 → pendFits s.cx.pend k.bytes = true → op.freight = false → sessionOk s k.peer k.comp = true →
      ∃ t k', exec i s = .next t ∧ accepted t ∧ t.en.cmds = s.en.cmds ++ [k'] ∧
        { k' with sendIx := 0, recvIx := 0 } = { k with left := k.bytes, leftSys := k.bytes } ∧
        k'.sendIx = ((tget s.en.posted (chanKey k.peer k.chan k.comp)).getD (0, 0)).1 ∧
        k'.recvIx = ((tget s.en.posted (chanKey k.peer k.chan k.comp)).getD (0, 0)).2 ∧
        pendRaised k.bytes s.cx (t.ctx s.iss.ctx))

/-! ### System operations (R401 to R416) -/

/-- R405. `trw` writes the word of the trap record that `.a`[2:0] names: of `trap.cause` DLY, SHD and CODE, with TACT
and the reserved bits kept; of `trap.pc` and `trap.next` 32 bits; of the information words all 64; words 5 to 7 name
nothing. It changes only the record. -/
def Obligations.TrapRecordWrites : Prop :=
  ∀ (m : Mv) (s : State), canMove m false s →
    let word := (toW (opnd s.cx 0x3A0)).toNat % 8
    let v := toW (soleValue m s)
    ∃ t, exec (.sysTrw m) s = .next t ∧
      (let x := s.cx
       let y := t.ctx s.iss.ctx
       ownCtx m s t { x with cause := y.cause, tpc := y.tpc, tnext := y.tnext, info0 := y.info0, info1 := y.info1 } ∧
       (∀ k, k < 32 → y.cause.getLsbD k =
         if word = 0 ∧ (k < 8 ∨ (21 ≤ k ∧ k ≤ 23)) then v.getLsbD k else x.cause.getLsbD k) ∧
       y.tpc = (if word = 1 then v.setWidth 32 else x.tpc) ∧ y.tnext = (if word = 2 then v.setWidth 32 else x.tnext) ∧
       y.info0 = (if word = 3 then v else x.info0) ∧ y.info1 = (if word = 4 then v else x.info1))

/-- R406, R215, R216. Trap-return in a handler clears TACT and restores the operand ports, the result ports but `mx.st`
and `mx.row`, the guards and the loops of the snapshot; its captured results wait for the next bundle, the one at
`trap.pc`, or at `trap.next` when SHD = 1 and DLY = 0; with SHD = 1 the pending transfer stands again. Registers, flags,
views, vectors and queues stay. That SHD = 1 with DLY = 0 goes on at `trap.next` at once is the model's choice, by R218
(log entry 26). -/
def Obligations.TrapReturn : Prop :=
  ∀ (m : Mv) (s : State) (p : Snap), canMove m false s → tact s.cx = true → s.cx.shadow = none → s.cx.loops = [] →
    s.cx.down = none → s.cx.snap = some p →
    let x := s.cx
    let dly := (x.cause.extractLsb' 22 2).toNat
    let shd := x.cause.getLsbD 21
    ∃ t, exec (.sysTret m) s = .next t ∧ onlyCtx s.iss.ctx s t ∧ popsOnly m x (t.ctx s.iss.ctx) ∧
      (let y := t.ctx s.iss.ctx
       tact y = false ∧ (∀ k, k ≠ 20 → y.cause.getLsbD k = x.cause.getLsbD k) ∧ y.snap = none ∧
       y.opnd = p.opnd ∧ y.guards = p.guards ∧ y.loops = p.loops ∧ y.replay = p.flights ∧
       (∀ q, q ≠ 0x280 → q ≠ 0x281 → resPort y q = (tget p.res q).getD 0) ∧
       resPort y 0x280 = resPort x 0x280 ∧ resPort y 0x281 = resPort x 0x281 ∧
       y.pc = (if shd = true ∧ dly = 0 then x.tnext else x.tpc) ∧
       y.shadow = (if shd = true ∧ dly ≠ 0 then some { left := dly, target := x.tnext } else none) ∧
       y.regs = x.regs ∧ y.units = x.units ∧ y.flags = x.flags ∧ y.vectors = x.vectors ∧
       y.vws = x.vws ∧ y.vwd = x.vwd ∧ y.vwv = x.vwv ∧ y.vwh = x.vwh ∧ y.run = x.run ∧
       y.tpc = x.tpc ∧ y.tnext = x.tnext ∧ y.info0 = x.info0 ∧ y.info1 = x.info1)

/-- R246, R407. A view write sends value[14:0], its low alignment bits cleared, to the view's BASE from two cycles on;
`vwrd` gives, at latency 2, the BASE of view value[1:0] as a write on its way leaves it. R404. `vec` sets or, with
value[31:0] = 0xFFFF_FFFF, clears the vector of the cause that `.a`[7:0] names: of all 24 for 0, of none for a code
above 0x18. -/
def Obligations.ViewsAndVectors : Prop :=
  (∀ (m : Mv) (s : State), canMove m false s →
     let v := (toW (soleValue m s)).toNat
     let base (bits : Nat) : BitVec 15 := BitVec.ofNat 15 (v % 2 ^ 15 / 2 ^ bits * 2 ^ bits)
     (∀ i n bits, (i = .sysWvws m ∧ n = 0 ∧ bits = 2) ∨ (i = .sysWvwd m ∧ n = 1 ∧ bits = 3) ∨
         (i = .sysWvwv m ∧ n = 2 ∧ bits = 8) ∨ (i = .sysWvwh m ∧ n = 3 ∧ bits = 1) →
       ∃ t, exec i s = .next t ∧ sendsOne m s t ⟨s.cycle + 2, 11, [.view n (base bits)]⟩) ∧
     (wbOk 11 s → s.cx.replay = [] →
       (s.cx.flights = [] →
         let r : Vec := BitVec.ofNat 2048 (baseOf s.cx (v % 4))
         ∃ t, exec (.sysVwrd m) s = .next t ∧ sendsOne m s t ⟨s.cycle + 2, 11, .port 0x2B0 r :: wbActs 11 s r⟩) ∧
       (∀ due b, s.cx.flights = [⟨due, 11, [.view (v % 4) b]⟩] → due ≤ s.cycle + 2 →
         let r : Vec := BitVec.ofNat 2048 b.toNat
         ∃ t, exec (.sysVwrd m) s = .next t ∧ sendsOne m s t ⟨s.cycle + 2, 11, .port 0x2B0 r :: wbActs 11 s r⟩))) ∧
  (∀ (m : Mv) (s : State), canMove m false s →
     let code := (toW (opnd s.cx 0x3A0)).toNat % 256
     let v : BitVec 32 := (toW (soleValue m s)).setWidth 32
     ∃ t, exec (.sysVec m) s = .next t ∧
       ownCtx m s t (let x := s.cx; { x with vectors := (t.ctx s.iss.ctx).vectors }) ∧
       ∀ k, 1 ≤ k → k ≤ 24 → tget (t.ctx s.iss.ctx).vectors k =
         if code = 0 ∨ code = k then (if v = 0xFFFFFFFF then none else some v) else tget s.cx.vectors k)

/-- R408, R50, R412, R414, R415. `flrd` gives the flag word at latency 2; `flwr` sets TEN to value[15:8] and clears
each flag whose bit is 1; `ctrcfg` sets up the counter of `.a`[2:0]; `ctrrd` gives a counter's count at latency 2;
`logc` gives 0 outside deterministic modes and for values 1 to 3 of value[1:0], at latency 1; `yield` keeps the
context's next bundle from issuing in the next cycle. R336, R257. `qlen` and `qpeek` give, at latency 2, the entry
count and the head of the queue that value[3:0] names, after the bundle's own pop; 0 is the head of an empty queue.
They pop nothing. That the bundle of `ctrcfg` is counted under what it writes is the model's choice (log entry 153). -/
def Obligations.FlagsCountersQueues : Prop :=
  (∀ (m : Mv) (s : State), canMove m false s →
     let v := toW (soleValue m s)
     let n := (toW (opnd s.cx 0x3A0)).toNat % 8
     let counter (x : Ctx) (k : Nat) : Counter := (tget x.counters k).getD {}
     (wbOk 11 s → ∃ t, exec (.sysFlrd m) s = .next t ∧
       sendsOne m s t ⟨s.cycle + 2, 11,
         .port 0x2B0 (s.cx.flags.setWidth 2048) :: wbActs 11 s (s.cx.flags.setWidth 2048)⟩) ∧
     (∃ t, exec (.sysFlwr m) s = .next t ∧
       ownCtx m s t (let x := s.cx; { x with flags := (t.ctx s.iss.ctx).flags }) ∧
       ∀ k, k < 32 → (t.ctx s.iss.ctx).flags.getLsbD k =
         if k < 8 then s.cx.flags.getLsbD k && !v.getLsbD k else if k < 16 then v.getLsbD k else false) ∧
     (∃ t, exec (.sysCtrcfg m) s = .next t ∧ ownCtx m s t s.cx ∧
       (counter (t.ctx s.iss.ctx) n).en = v.getLsbD 8 ∧ (counter (t.ctx s.iss.ctx) n).evt = v.setWidth 8 ∧
       ((v.setWidth 8 ≠ 2#8 ∨ v.getLsbD 8 = false) → (counter (t.ctx s.iss.ctx) n).count =
         if v.getLsbD 9 then 0 else (counter s.cx n).count)) ∧
     (wbOk 11 s → let r : Vec := (counter s.cx (v.toNat % 8)).count.setWidth 2048
       ∃ t, exec (.sysCtrrd m) s = .next t ∧ sendsOne m s t ⟨s.cycle + 2, 11, .port 0x2B0 r :: wbActs 11 s r⟩) ∧
     (wbOk 11 s → modeDet (bMode (s.board s.iss.ctx)) = false ∨ v.toNat % 4 ≠ 0 →
       ∃ t, exec (.sysLogc m) s = .next t ∧ sendsOne m s t ⟨s.cycle + 1, 11, .port 0x2B0 0 :: wbActs 11 s 0⟩) ∧
     (∃ t, exec (.sysYield m) s = .next t ∧
       ownCtx m s t (let x := s.cx; { x with notBefore := max x.notBefore (s.cycle + 2) }))) ∧
  (∀ (m : Mv) (s : State), canMove m false s → wbOk 10 s →
     let q := (toW (soleValue m s)).toNat % 16
     let held := if m.s.toNat = 0x380 + q then (queueOf s.cx q).tail else queueOf s.cx q
     (∃ t, exec (.syQlen m) s = .next t ∧
       sendsOne m s t ⟨s.cycle + 2, 10, [.queue false q (BitVec.ofNat 64 held.length) (wbReg 10 s)]⟩) ∧
     (∃ t, exec (.syQpeek m) s = .next t ∧
       sendsOne m s t ⟨s.cycle + 2, 10, [.queue true q (held.headD 0) (wbReg 10 s)]⟩))

/-- R409. `launch` posts its packet, whose header may stand on two pages, once the context's accesses are performed, and is
held until Zitrum has validated it; the answer then lands at latency 1. R410. `stepb` of a context with no open patch and no
matrix call arrives at the step boundary and waits; once Zitrum has performed it, the number of the step that begins lands at
latency 1. R411. A service is performed by Zitrum, and its status word lands at latency 1: REPORT, SHARE and UNSHARE by value[7:0] 1, 2
and 3. REPORT writes the report to its destination, and gives its length; it is BADSVC for more than 256 lines and for a
line number above 24 bits, and BADADDR where an area fails. SHARE makes the lowest free entry a window of the compartment
over the pages, beside every other window, and gives its number; it is BADSVC for no page and for reserved bits, BADADDR off
the global path, DENIED for a LINED page and for W over a CONST page, NOROOM where no entry is free. UNSHARE revokes an
entry of the compartment, and denies any other; any other service is unknown. The request of a packet names the blocks of its
header, at `pa` and, beyond the page, at `pa'`. Choices of the model: that a FREE entry is denied (log entry 155), that line
numbers above 24 bits are BADSVC (log entry 112), and that more than 256 lines and a SHARE of no page are, with subcode 2 (log entry 142);
that `stepb` raises TEAMDOWN in its handler (log entry 111); the cycle in which a service is performed, and the entry and
offset of a window (log entries 57 and 65). -/
def Obligations.CallsOnZitrum : Prop :=
  (∀ (m : Mv) (s : State), canMove m false s → wbOk 11 s →
     let c := s.iss.ctx
     (∀ pa low high ta pa' low' high' ta', s.cx.sent = false → s.cx.answer = none → fenceHolds s c = false →
       outstanding s c s.cx.bundles = false →
       route s c (soleVa m s) 192 64 .packet false = .page pa low high ta →
       (4096 < soleVa m s % 4096 + 192 →
         route s c (soleVa m s / 4096 * 4096 + 4096) 64 64 .packet false = .page pa' low' high' ta') →
       ∃ t q, exec (.sysLaunch m) s = .next t ∧ t.ho = { s.ho with requests := s.ho.requests ++ [q] } ∧
         q.route = .ctx (bLid (s.board c)) (s.rank c) ∧ q.code = 1 ∧ q.own = some (bComp (s.board c)) ∧
         (∀ k, k < 3 → let off := soleVa m s % 4096 + 64 * k
           q.blocks[k]? = some (some (if off < 4096 then pa + 64 * k else pa' + (off - 4096)))) ∧
         t = { s with ctxs := t.ctxs, ho := t.ho, nextId := s.nextId + 1 } ∧ othersStay s t ∧
         t.ctx c = (let x := s.cx; { x with sent := true, blocked := .launch })) ∧
     (∀ v, s.cx.sent = true → s.cx.answer = some (.value v) →
       ∃ t, exec (.sysLaunch m) s = .next t ∧ sendsOne m s t ⟨s.cycle + 1, 11, .port 0x2B0 (ofW v) :: wbActs 11 s (ofW v)⟩)) ∧
  (∀ (m : Mv) (s : State) (l : Launch), canMove m false s → wbOk 11 s → s.launchOf s.iss.ctx = some l →
     let c := s.iss.ctx
     (∀ u, downAgain s c = some u → exec (.sysStepb m) s = .next (takeTrap c u s)) ∧
     (s.cx.down = none → s.cx.stepped = false → stepBusy s c = false →
       exec (.sysStepb m) s = .next (s.setCtx c (let x := s.cx; { x with atStep := true, blocked := .stepb }))) ∧
     (s.cx.down = none → s.cx.stepped = true →
       let r : Vec := BitVec.ofNat 2048 l.steps
       ∃ t, exec (.sysStepb m) s = .next t ∧ onlyCtx c s t ∧
         onlyFlow (let x := s.cx; { x with stepped := false }) (t.ctx c) ∧ goesOn s.cx (t.ctx c) ∧
         sends s.cx (t.ctx c) s.cycle [⟨s.cycle + 1, 11, .port 0x2B0 r :: wbActs 11 s r⟩])) ∧
  (∀ (m : Mv) (s : State), canMove m false s → wbOk 11 s → s.cx.answer = none → s.rt.zitrum = true →
     let c := s.iss.ctx
     let code := (toW (soleValue m s)).toNat % 256
     let a := toW (opnd s.cx 0x3A0)
     let b := toW (opnd s.cx 0x3A1)
     let answers (t : State) (v : W64) : Prop :=
       othersStay s t ∧ goesOn s.cx (t.ctx c) ∧ (t.ctx c).regs = s.cx.regs ∧
       sends s.cx (t.ctx c) s.cycle [⟨s.cycle + 1, 11, .port 0x2B0 (ofW v) :: wbActs 11 s (ofW v)⟩]
     let ends (i : Instr) (w : Nat) : Prop :=
       ∃ t, exec i s = .next t ∧ answers t (BitVec.ofNat 64 w) ∧ t.ho = s.ho ∧ t.ms = s.ms
     (code = 1 → outstanding s c s.cx.bundles = false → s.ms.holds = [] →
       (∀ n, svcPieces s c 1 false (cutPages 3 a.toNat 36) = .error (.sub n) → ends (.sysSvcReport m) (2 + 256 * n)) ∧
       ∀ hp, svcPieces s c 1 false (cutPages 3 a.toNat 36) = .ok hp →
         let hdr := readPieces s hp
         let n := bytesNat ((hdr.drop 32).take 2)
         (256 < n → ends (.sysSvcReport m) 0x201) ∧
         ∀ lp, n ≤ 256 → svcPieces s c 1 false (cutPages 3 (a.toNat + 36) (4 * n)) = .ok lp →
           let lines := (List.range n).map fun k => bytesNat (((readPieces s lp).drop (4 * k)).take 4)
           let rep := reportBytes s (bComp (s.board c)) (hdr.take 32) lines
           ((∃ x ∈ lines, 2 ^ 24 ≤ x) → ends (.sysSvcReport m) 0x201) ∧
           ((∀ x ∈ lines, x < 2 ^ 24) →
             (∀ j, svcPieces s c 64 true (cutPages 8 b.toNat rep.length) = .error (.sub j) →
               ends (.sysSvcReport m) (2 + 256 * j)) ∧
             ∀ pa, svcPieces s c 64 true (cutPages 8 b.toNat rep.length) = .ok [(pa, rep.length)] → Undisturbed s →
               ∃ t, exec (.sysSvcReport m) s = .next t ∧ answers t (BitVec.ofNat 64 (rep.length * 2 ^ 32)) ∧ t.ho = s.ho ∧
                 bytesPut s.ms.mem t.ms.mem pa rep.length (fun k => rep.getD k 0) ∧ t.ms.spad = s.ms.spad)) ∧
     (let n := b.toNat % 2 ^ 32
      let w := b.getLsbD 32
      let pageAt (k : Nat) : Route3 := routeBy (svcLook s c) s c (a.toNat + 4096 * k) 1 4096 .load false
      let free (e : Nat) : Prop := ∀ u, tget s.ho.windows e = some u → wV u = false
      code = 2 →
       (2 ^ 33 ≤ b.toNat ∨ n = 0 → ends (.sysSvcShare m) 0x201) ∧
       (b.toNat < 2 ^ 33 → n ≠ 0 →
         (∀ f sub, pageAt 0 = .fault f sub → pathOf a.toNat ≠ 0 → ends (.sysSvcShare m) (2 + 256 * sub)) ∧
         (∀ pa low high ta, pageAt 0 = .page pa low high ta → pathOf a.toNat = 0 →
           dKind low = kLined ∨ (dKind low = kConst ∧ w = true) → ends (.sysSvcShare m) 4) ∧
         ∀ pages : List Nat, pages.length = n →
           (∀ k, k < n → pathOf (a.toNat + 4096 * k) = 0 ∧ ∃ pa low high ta, pageAt k = .page pa low high ta ∧
             pa / 4096 = pages.getD k 0 ∧ (dKind low = kAtomic ∨ (dKind low = kConst ∧ w = false))) →
           ((∀ e, e < 256 → ¬ free e) → ends (.sysSvcShare m) 3) ∧
           ∀ e, e < 256 → free e → (∀ j, j < e → ¬ free j) → freeHoff s n ≠ none →
             ∃ t v, exec (.sysSvcShare m) s = .next t ∧ answers t (BitVec.ofNat 64 (e * 2 ^ 32)) ∧ t.ms = s.ms ∧
               tget t.ho.windows e = some v ∧ wV v = true ∧ wW v = w ∧ wComp v = bComp (s.board c) ∧ wPages v = n ∧
               tget t.ho.winPages e = some (pages.map some) ∧ (∀ k, k ≠ e → tget t.ho.windows k = tget s.ho.windows k) ∧
               ∀ k u, k ≠ e → tget s.ho.windows k = some u → wV u = true →
                 wHoff v + n ≤ wHoff u ∨ wHoff u + wPages u ≤ wHoff v)) ∧
     (code = 3 → ∀ w, tget s.ho.windows a.toNat = some w → wV w = true → wComp w = bComp (s.board c) →
       windowBusy s w = false →
       ∃ t, exec (.sysSvcUnshare m) s = .next t ∧ answers t 0 ∧ tget t.ho.windows a.toNat = none ∧
         (∀ k, k ≠ a.toNat → tget t.ho.windows k = tget s.ho.windows k) ∧ t.ms = s.ms) ∧
     (code = 3 → (∀ w, tget s.ho.windows a.toNat = some w → wV w = false ∨ wComp w ≠ bComp (s.board c)) →
       ∃ t, exec (.sysSvcUnshare m) s = .next t ∧ answers t 4 ∧ t.ho = s.ho ∧ t.ms = s.ms) ∧
     (code ≠ 1 → code ≠ 2 → code ≠ 3 →
       ∃ t, exec (.sysSvcReport m) s = .next t ∧ answers t 0x101 ∧ t.ho = s.ho ∧ t.ms = s.ms))

/-- R178, R403. A task that has passed a team barrier since its last engine, matrix or synchronising work, and holds no
bank, ends by `exit`: its results, arrivals, tagged requests and open patches are discarded. Its registers and the
memories stay. -/
def Obligations.TasksExit : Prop :=
  ∀ (m : Mv) (s : State), canMove m false s → s.cx.down = none → s.cx.dirty = false → s.cx.bars ≠ 0 →
    (∀ e ∈ s.cr.banks, e.2.holder ≠ s.iss.ctx) → (∀ k ∈ s.cr.calls, k.2.ctx ≠ s.iss.ctx) →
    ∃ t, exec (.sysExit m) s = .next t ∧ (t.ctx s.iss.ctx).run = .exited ∧ (t.ctx s.iss.ctx).flights = [] ∧
      (t.ctx s.iss.ctx).regs = s.cx.regs ∧ (∀ a ∈ t.ms.arrivals, a.ctx ≠ s.iss.ctx) ∧
      (∀ q ∈ t.ms.tagq, q.ctx ≠ s.iss.ctx) ∧ (∀ e ∈ t.ms.lines, ∀ o ∈ e.2.opens, o.ctx ≠ s.iss.ctx) ∧
      t.ms.mem = s.ms.mem ∧ t.ms.spad = s.ms.spad

/-! ### Events of accesses, results and upkeep (R90 to R93, R122, R125 to R137, R217, R252, R260, R262, R323, R447) -/

/-- R103, R107, R108, R125, R134 to R136, R323 to R325, R327, R329. An access that no earlier one of its context is
before is performed by its event. A store to memory writes its words one by one, in order of address, and a store of the
cluster path all of them; an atomic replaces its word; a tagged store finds its word empty, or waits; a load sends the bytes
on their way, and a read of a line what `walk` gives of its granules; a reduction of a deterministic launch is held and
changes no byte; a write into an open patch changes that patch. No other byte changes, and the counters of pending bytes fall
by what the access counts. That the reader's own open patch counts among the chain positions that a read is charged for is the
model's choice (log entry 144). -/
def Obligations.AccessesPerformed : Prop :=
  ∀ (s : State) (a : Acc), accOf s s.ev.a = some a → accBehind s a = false → Undisturbed s → a.size ≤ 256 →
    (∀ pa, isStore a → a.place = .phys pa → lidDet s a.lid = false →
      ∃ t, exec .globalWritePerformed s = .next t ∧ t.ms.spad = s.ms.spad ∧ memoriesOk t = true ∧
        bytesStored s.ms.mem t.ms.mem a pa (storeWord a pa a.cmp.toNat) ∧
        (storeCount a pa ≤ a.cmp.toNat + 1 → settled s t a) ∧
        (a.cmp.toNat + 1 < storeCount a pa → t.ctxs = s.ctxs ∧
          t.ms.accs = s.ms.accs.map (fun b => if b.id = a.id then { b with cmp := a.cmp + 1 } else b) ∧
          ∃ d ∈ t.agenda, d.ev.row = .globalWritePerformed ∧ d.ev.arg.a = a.id ∧ s.cycle ≤ d.cyc)) ∧
    (∀ o, isStore a → a.place = .spad o →
      ∃ t, exec .clusterAccessAccept s = .next t ∧ settled s t a ∧
        bytesStored s.ms.spad t.ms.spad a o (fun n => ∃ j, storeWord a o j n) ∧ t.ms.mem = s.ms.mem ∧ memoriesOk t = true) ∧
    (∀ i r pa, atomRow i = some r → a.kind = .atom r.op r.ret → a.place = .phys pa → pa % 4 = 0 → lidDet s a.lid = false →
      let old := wordAt s.ms.mem pa
      ∃ t, exec .atomicQueuePerform s = .next t ∧ settled s t a ∧
        wordOnly s.ms.mem t.ms.mem pa (r.new old (a.data.setWidth 32) a.cmp) ∧ t.ms.spad = s.ms.spad ∧
        (r.ret = true → delivered s t a (old.setWidth 2048) (physLoc a.pa)) ∧
        (r.ret = false → t.ms.arrivals = s.ms.arrivals)) ∧
    (∀ i r o, atomRow i = some r → a.kind = .atom r.op false → r.ret = false → a.place = .spad o → o % 4 = 0 →
      lidDet s a.lid = false →
      ∃ t, exec .clusterAccessAccept s = .next t ∧ settled s t a ∧ t.ms.mem = s.ms.mem ∧ t.ms.arrivals = s.ms.arrivals ∧
        wordOnly s.ms.spad t.ms.spad o (r.new (wordAt s.ms.spad o) (a.data.setWidth 32) a.cmp)) ∧
    (∀ i r row, atomRow i = some r → a.kind = .atom r.op false → r.ret = false → lidDet s a.lid = true →
      (∀ g ∈ s.tm.logs, g.replay = []) →
      (∃ pa, a.place = .phys pa ∧ row = .reductionHold) ∨ (∃ o, a.place = .spad o ∧ row = .clusterAccessAccept) →
      ∃ t key h, exec row s = .next t ∧ settled s t a ∧ t.ms.mem = s.ms.mem ∧ t.ms.spad = s.ms.spad ∧
        tget t.ms.holds key = some h ∧ h.lid = a.lid ∧ h.fallback = false ∧
        h.held = [⟨a.rank, a.num, a.slot, r.op, a.place, a.data.setWidth 32⟩]) ∧
    (∀ op o, a.kind = .tag op → op = 2 ∨ op = 3 → a.place = .spad o → o % 4 = 0 → (s.ctx a.ctx).run = .running →
      (∀ d, (s.ctx a.ctx).down = some d → d.delivered = false) → (∀ q ∈ s.ms.tagq, q.word ≠ o / 4) →
      nextRecord s (bLid (s.board a.ctx)) (s.seenDie a.ctx) 0x05 (tagSite s a.ctx o) = none →
      ∃ t, exec .clusterAccessAccept s = .next t ∧ settled s t a ∧ t.ms.mem = s.ms.mem ∧
        (op = 3 ∨ tagFull s o = false → wordOnly s.ms.spad t.ms.spad o (a.data.setWidth 32) ∧ tagFull t o = true ∧
          (∀ w, w ≠ o / 4 → t.ms.full.contains w = s.ms.full.contains w) ∧ t.ms.tagq = s.ms.tagq) ∧
        (op = 2 → tagFull s o = true → t.ms.spad = s.ms.spad ∧ t.ms.full = s.ms.full ∧
          t.ms.tagq = s.ms.tagq ++ [tagReqOf a op o])) ∧
    (∀ i r pa, loadRow i = some r → a.kind = .load r.post → a.size = r.post.size → a.place = .phys pa →
      ∃ t, exec .variableArrival s = .next t ∧ settled s t a ∧ t.ms.mem = s.ms.mem ∧ t.ms.spad = s.ms.spad ∧
        delivered s t a (loadValue r.post (rdBytes s.ms.mem a.pa a.size)) (physLoc a.pa)) ∧
    (∀ i r key off l, loadRow i = some r → a.kind = .chain r.post → a.size = r.post.size → a.place = .line key off →
      a.cmp = 0 → s.line key = some l → l.st = .live → chainSound l (chainFor l a.ctx) →
      (l.fmt ≤ 3 → off < 2 ^ l.xlog → r.vh = true) → 0 < avail s (dieOf a.ctx) (key / 2 ^ 24) 2 l.home →
      (chainFor l a.ctx).length ≤ avail s (dieOf a.ctx) (key / 2 ^ 24) 2 l.home →
      ∃ t bs, exec .chainRead s = .next t ∧ settled s t a ∧ t.ms.lines = s.ms.lines ∧ t.ms.mem = s.ms.mem ∧
        chainBytes l (chainFor l a.ctx) off a.size bs ∧ delivered s t a (loadValue r.post bs) 5) ∧
    (∀ key off l, a.kind = .patch → a.place = .line key off → s.line key = some l →
      let add (o : OpenPatch) : OpenPatch :=
        if o.ctx = a.ctx then
          { o with pay := granPutAll (storeGrans l.fmt l.xlog off a.size (bytesOf a.data 256)) o.pay } else o
      ∃ t, exec .patchWriteArrival s = .next t ∧ settled s t a ∧ t.ms.mem = s.ms.mem ∧
        t.line key = some { l with opens := l.opens.map add } ∧ ∀ k, k ≠ key → t.line k = s.line k)

/-- R252, R260, R262. A result lands in its port and its register once it is due, and not before; a value that arrives
from memory lands in its register; an ephemeral unit whose time has come is empty, and no other unit changes. -/
def Obligations.ResultsLand : Prop :=
  ∀ (s : State),
    let c := s.ev.a
    let x := s.ctx c
    (∀ due unit p v d, x.flights = [⟨due, unit, [.port p v, .reg d v]⟩] → unit < 12 → d.size ≤ 256 → due ≤ s.cycle →
      ∃ t, exec .resultLanding s = .next t ∧ onlyThis c s t ∧ (t.ctx c).flights = [] ∧
        resPort (t.ctx c) p = lowBytes ((resultWidth p).getD 0) v ∧ bytesAfter d v x (t.ctx c) ∧
        unitsAfter d false s.cycle x (t.ctx c)) ∧
    ((∀ f ∈ x.flights, s.cycle < f.due) →
      ∃ t, exec .resultLanding s = .next t ∧ onlyThis c s t ∧ t.ctx c = x) ∧
    (∃ t, exec .ephemeralExpiry s = .next t ∧ onlyThis c s t ∧ (t.ctx c).regs = x.regs ∧
      ∀ u, tget (t.ctx c).units u =
        match tget x.units u with
        | some (.ephemeral e) => if e ≤ s.cycle then some .empty else some (.ephemeral e)
        | w => w) ∧
    (∀ (a : Arrival) (d : Dest) (v : Vec), accOf s s.ev.a = none → s.ms.arrivals.find? (fun b => b.id == s.ev.a) = some a →
      a.dest = some d → a.val = some v → d.size ≤ 256 → (s.ctx a.ctx).wroteAt ≠ s.cycle →
      ∃ t, exec .variableArrival s = .next t ∧ bytesAfter d v (s.ctx a.ctx) (t.ctx a.ctx) ∧
        unitsAfter d false s.cycle (s.ctx a.ctx) (t.ctx a.ctx) ∧ (∀ k, k ≠ a.ctx → t.ctx k = s.ctx k) ∧
        t.ms = { s.ms with arrivals := s.ms.arrivals.filter fun b => b.id != s.ev.a })

/-- R22, R217, R447. At the fairness limit a core goes on with the next ready context in cyclic order. An uncorrectable
error makes its word, register unit, accumulator element or bundle one that fails when it is read; the failing bundle of a
resident team is loaded anew from its image. -/
def Obligations.LimitsAndErrors : Prop :=
  ∀ (s : State),
    (∀ j k, let core := s.ev.a
      let turn (i : Nat) : Nat := core * 4 + ((s.core core).cur + i) % 4
      1 ≤ j → j ≤ 3 → k = turn j → ready s k = true → (∀ i, 1 ≤ i → i < j → ready s (turn i) = false) →
      ∃ t, exec .fairnessLimit s = .next t ∧ t.core core = { cur := k % 4, run := 0 } ∧
        (∀ n, n ≠ core → t.core n = s.core n) ∧ t = { s with cr := { s.cr with cores := t.cr.cores } }) ∧
    (∃ t, exec .uncorrectableError s = .next t ∧ t.ms.mem = s.ms.mem ∧ t.ms.spad = s.ms.spad ∧
      (∀ n, s.ev.a = 0 → s.ev.b = 4 * n → physRead t (4 * n) 4 = none) ∧
      (∀ n, s.ev.a = 1 → s.ev.b = 4 * n → spadRead t (4 * n) 4 = none) ∧
      (∀ u, s.ev.a = 2 → s.ev.b = 2 * u →
        regState (t.ctx s.ev.c) { first := 2 * u, size := 2 } s.cycle = .failed (BitVec.ofNat 64 (2 * u)) 3) ∧
      (s.ev.a = 3 → t.cr.failAcc.contains s.ev.b = true) ∧ (s.ev.a = 4 → t.cr.failBundle.contains s.ev.b = true)) ∧
    (∀ key b l w, let core := s.ev.a / 4096
      let n := s.ev.a % 4096
      s.tm.boards = [(key, b)] → bV b = true → key / 64 = core / 16 → teamOn b (core % 16) = true →
      bIbase b ≤ n → n < bIbase b + bIlen b → tget s.tm.launches (bLid b) = some l →
      (imageBundles l)[n - bIbase b]? = some w →
      ∃ t, exec .ibundleEccReload s = .next t ∧ tget t.cr.istore s.ev.a = some w ∧
        t.cr.failBundle.contains s.ev.a = false ∧ (∀ k, k ≠ s.ev.a → tget t.cr.istore k = tget s.cr.istore k) ∧
        t.ctxs = s.ctxs ∧ t.ms = s.ms)

/-- R90 to R94, R202. A walk that ends answers the context that waits for it, whose core's buffer holds the page from then
on, or the engine's command. A declined demand leaves the waiting fault standing; an installed one writes the descriptor
of a cleared page that is charged to the compartment, and whoever waits on that page translates anew; a page that is
mapped already needs no decision, and without Zitrum every decision waits. An invalidation is complete once every access
from before it is performed, and its memory is then released. What the service decides, and which memory it takes, are the
model's choices (log entries 74, 75 and 119). -/
def Obligations.TranslationsEnd : Prop :=
  ∀ (s : State),
    (∀ w c low high level, s.ms.walks.find? (fun v => v.id == s.ev.a) = some w → w.ctxs = [c] → c < 2 ^ 20 →
      walkTables s w.comp (w.page * 4096) = .desc low high level →
      ∃ t, exec .translationWalkEnd s = .next t ∧ (∀ v ∈ t.ms.walks, v.id ≠ s.ev.a) ∧
        (t.ctx c).walked = (s.ctx c).walked ++ [(w.comp, w.page, .desc low high level)] ∧
        (∃ e ∈ t.ms.tlb, e.core = coreOf c ∧ e.comp = w.comp ∧ e.page = w.page ∧ e.low = low ∧ e.high = high) ∧
        t.ms.mem = s.ms.mem ∧ ∀ k, k ≠ c → t.ctx k = s.ctx k) ∧
    (∀ w k, s.ms.walks.find? (fun v => v.id == s.ev.a) = some w → w.ctxs = [2 ^ 20 + k.id] → cmdOf s k.id = some k →
      ∃ t, exec .translationWalkEnd s = .next t ∧ (∀ v ∈ t.ms.walks, v.id ≠ s.ev.a) ∧ t.ms.mem = s.ms.mem ∧
        t.ctxs = s.ctxs ∧ t.ms.tlb = s.ms.tlb ∧
        cmdOf t k.id = some { k with walked := k.walked ++ [(w.comp, w.page, walkTables s w.comp (w.page * 4096))] }) ∧
    (s.rt.zitrum = false → ∃ t, exec .demandMapService s = .next t ∧
      t = { s with agenda := s.agenda ++ [⟨s.cycle + 1, false, .demandMapService, s.ev⟩] }) ∧
    (s.rt.zitrum = true → (s.ev.a, s.ev.b, s.ev.c) ∈ s.ms.demand →
      let low : W64 := BitVec.ofNat 64 (bytesNat (s.ev.body.take 8))
      let high : W64 := BitVec.ofNat 64 (bytesNat ((s.ev.body.drop 8).take 8))
      let bytes := 2 ^ sizeLog (dSize low)
      let ta := s.ev.c * 4096 / bytes * bytes
      (∀ l h n, walkTables s s.ev.b (s.ev.c * 4096) = .desc l h n →
        ∃ t, exec .demandMapService s = .next t ∧ t.ms.mem = s.ms.mem ∧
          ∀ d ∈ t.ms.demand, ¬ (d.2.1 = s.ev.b ∧ d.2.2 = s.ev.c)) ∧
      (∀ sub f, walkTables s s.ev.b (s.ev.c * 4096) = .fault sub f →
        (s.ev.d ≠ 1 → s.ev.a < 2 ^ 20 →
          ∃ t, exec .demandMapService s = .next t ∧ (s.ev.a, s.ev.b, s.ev.c) ∉ t.ms.demand ∧ t.ms.mem = s.ms.mem ∧
            (s.ev.b, s.ev.c, WalkAns.fault sub true) ∈ (t.ctx s.ev.a).walked ∧ ∀ k, k ≠ s.ev.a → t.ctx k = s.ctx k) ∧
        (∀ k pa u v, let n := if 2 ^ 44 ≤ dPa low then fld (dPa low) 43 40 else fld (dPa low) 39 36
          let word : W64 := BitVec.ofNat 64 (low.toNat - fld low.toNat 44 12 * 4096 + pa)
          s.ev.d = 1 → dV low = true → dLeaf low = true → dComp high = s.ev.b → tget s.tt.comps s.ev.b = some k →
          pagesUsed s s.ev.b + bytes / 4096 ≤ quotaPages s s.ev.b → (dKind low = kLined → lineAgrees s high ta = true) →
          takePages s (decide (2 ^ 44 ≤ dPa low)) n bytes 1 = some (pa, u) →
          badDesc word high (leafLevel (dSize low)) = false → putLeaf u k.root ta (dSize low) word high = some v →
          ∃ t, exec .demandMapService s = .next t ∧ t.ms.mem = v.ms.mem ∧
            (s.ms.failPorts = [] → ∀ j, j < bytes → rdByte u.ms.mem (pa + j) = 0) ∧
            tget t.tt.comps s.ev.b = some { k with pages := k.pages + bytes / 4096 } ∧
            ∀ d ∈ t.ms.demand, ¬ (d.2.1 = s.ev.b ∧ ta / 4096 ≤ d.2.2 ∧ d.2.2 * 4096 < ta + bytes)))) ∧
    (∀ i, s.ms.invals.find? (fun i => i.comp == s.ev.a) = some i →
      ∃ t, exec .compartmentInvalidation s = .next t ∧ (invalDone s i = false → t = s) ∧
        (invalDone s i = true → t.ms.invals = s.ms.invals.erase i ∧ t.ms.mem = s.ms.mem ∧
          (∀ p ∈ i.pages, ∃ r ∈ t.tt.freed, r.1 ≤ p.1 ∧ p.1 + p.2 ≤ r.1 + r.2) ∧
          (∀ k, tget s.tt.comps s.ev.a = some k → tget t.tt.comps s.ev.a =
            some { k with pages := k.pages - (i.pages.map fun p => p.2 / 4096).sum }) ∧
          ∀ q ∈ s.ho.waiting, q.code ≠ 6 → q ∈ t.ho.waiting))

/-- R18, R19, R121, R122, R167. A load of a dropped line is held, and its producer is launched from the packet that the
handle names; when it has ended, the readers that wait go on or, if the line is not LIVE or the producer has failed, trap
RECOMPUTE with the address and the line. A core that fails is absent, its scratchpad cleared; a spare that takes its place
makes it present again. The packet of a producer is that of the blocks at its handle, which is kept as a table address, as
the tables stand then: the model's reading (log entry 62). That a reader is held until the launch is complete, and that the
memories of the core that a spare stands for are empty, are the model's choices (log entries 41 and 91). -/
def Obligations.ProducersAndCores : Prop :=
  ∀ (s : State),
    (∀ l h, s.rt.zitrum = true → s.line s.ev.a = some l → l.producer = some h →
      let block (k : Nat) : WalkAns := walkTables s (s.ev.a / 2 ^ 24) ((h.toNat + 64 * k) % 2 ^ 56)
      ∃ t q, exec .producerLaunch s = .next t ∧ t = { s with ho := { s.ho with requests := s.ho.requests ++ [q] } } ∧
        q.route = .producer s.ev.a ∧ q.code = 1 ∧ q.taken = true ∧ q.own = some (s.ev.a / 2 ^ 24) ∧
        q.blocks.length = 19 ∧ ∀ k low high n, k < 19 → block k = .desc low high n →
          q.blocks[k]? = some (some (dPa low + (h.toNat + 64 * k) % 2 ^ 56 % 2 ^ sizeLog (dSize low)))) ∧
    (∀ l, s.line s.ev.a = some l →
      ∃ t, exec .producerComplete s = .next t ∧ t.line s.ev.a = some { l with making := none, waiters := [] } ∧
        (∀ k, k ≠ s.ev.a → t.line k = s.line k) ∧ t.ms.mem = s.ms.mem ∧
        (s.ev.b = 1 → l.st = .live → t.ctxs = s.ctxs ∧ t.en = s.en) ∧
        (s.ev.b ≠ 1 ∨ l.st ≠ .live →
          (∀ n ∈ l.waiters, n < 2 ^ 20 → s.ev.a ∈ (t.ctx n).unmade) ∧
          (∀ k, cmdOf s k.id = some k → 2 ^ 20 + k.id ∈ l.waiters → cmdOf t k.id = some { k with recomp := true }) ∧
          ∀ n, n ∉ l.waiters → t.ctx n = s.ctx n)) ∧
    (∀ i r pa ta low high l, loadRow i = some r → canMove r.m false s → wbOk (4 + r.u.toNat) s → MemQuiet s →
      route s s.iss.ctx (soleVa r.m s) r.post.size r.post.size .load r.vh = .page pa low high ta → dKind low = kLined →
      blocksServed s s.iss.ctx (accessBlocks s (.page pa low high ta) r.post.size r.vh) = true →
      s.line (lineKey high) = some l →
      (lineKey high ∈ s.cx.unmade → exec i s = .next (takeTrap s.iss.ctx
        { code := 0x14, info0 := toW (soleValue r.m s), info1 := BitVec.ofNat 64 (lineKey high % 2 ^ 24) } s)) ∧
      (lineKey high ∉ s.cx.unmade → l.st = .dropped → l.making = none →
        ∃ t, exec i s = .next t ∧ (t.ctx s.iss.ctx).blocked = .line ∧ (t.ctx s.iss.ctx).pc = s.cx.pc ∧
          t.line (lineKey high) = some { l with waiters := sins s.iss.ctx l.waiters, making := some 0 } ∧
          ∃ d ∈ t.agenda, d.ev = ⟨.producerLaunch, { a := lineKey high }⟩)) ∧
    (∃ t, let core := s.ev.a
      exec .coreFailure s = .next t ∧ t.cr.absent.contains core = true ∧ t.ms.mem = s.ms.mem ∧
      (∀ n, rdByte t.ms.spad n =
        if core * 2 ^ 21 ≤ n ∧ n < (core + 1) * 2 ^ 21 then 0 else rdByte s.ms.spad n)) ∧
    (canSubstitute s s.ev.a = true →
      ∃ t, let core := s.ev.a
        exec .coreSubstitute s = .next t ∧ t.cr.absent.contains core = false ∧ t.ms.mem = s.ms.mem ∧
        tget t.cr.spares (core / 144) = some ((tget s.cr.spares (core / 144)).getD 0 + 1) ∧
        (∀ n, rdByte t.ms.spad n =
          if core * 2 ^ 21 ≤ n ∧ n < (core + 1) * 2 ^ 21 then 0 else rdByte s.ms.spad n) ∧ t.ctxs = s.ctxs)

/-! ### Events of data commands (R222, R380 to R397) -/

/-- R384 to R386, R390, R388. In its turn a started burst of Freight takes the next element of its nest: `copy` and
`tcopy` read it at its source address and write it, converted, at its target address, with dimensions 0 and 1 of the
target exchanged by `tcopy`; `fill` writes raw bits. No other byte changes, its bytes leave the counters, the flags of the
conversion gather, and after its last element the command stops with status 0. R382, R335. A command that has stopped
posts its status, with the second entry of a failure, to the queue that it names, and retires: the bytes that it has not
performed leave the counters, but for those of a DONE one's writes on their way. A status that has waited is posted once
the queue has room. That an element is read after the command's earlier writes is the model's choice (log entry 110). -/
def Obligations.CommandsComplete : Prop :=
  ∀ (s : State) (k : Cmd), k.parked = false → k.withdrawn = false →
    (∀ (i : Nat → Nat) (x o core va : Nat), (∀ d, d < 6 → i d < k.ext d) → s.en.cmds = [k] → s.en.writes = [] → s.delays = [] →
      k.op.freight = true → k.block = false → k.eng = s.ev.a → s.ev.a < 2 ^ 20 → k.status = none → k.burst = 1 →
      k.next = nestNumber k i → cmdReady s k = true → cwFill k.ctl = false → 4 ≤ k.sty → k.sty ≤ 0xC → 4 ≤ k.dty → k.dty ≤ 0xC →
      Undisturbed s → freightReads s k (nestSource k i) x → engAddr k.p1 (nestTarget k i) = (va, none) →
      let ds := unitBytes k.dty
      engRoute s k va ds ds true false = .spad o core →
      let same := k.op = .fill ∨ k.sty = k.dty
      let y := if same then x else
        (convertElem k.sty k.dty { mode := k.rnd, seed := k.seed, index := k.next % 2 ^ 32 } x).1
      let fl : Flags := if same then 0 else
        (convertElem k.sty k.dty { mode := k.rnd, seed := k.seed, index := k.next % 2 ^ 32 } x).2
      ∃ t k', exec .freightBurst s = .next t ∧
        bytesPut s.ms.spad t.ms.spad o ds (fun j => BitVec.ofNat 8 (y / 2 ^ (8 * j))) ∧ t.ms.mem = s.ms.mem ∧
        (∀ scope, pendOf (t.ctx k.ctx).pend scope = pendOf (s.ctx k.ctx).pend scope - BitVec.ofNat 56 ds) ∧
        t.en.cmds = [k'] ∧ k'.next = k.next + 1 ∧ k'.flags = k.flags ||| (fl &&& 0x1F) ∧
        (k.next + 1 < k.total → k'.status = none ∧ k'.burst = 0) ∧
        (k.total ≤ k.next + 1 → k'.status = some (0, 0, 0) ∧
          ∃ d ∈ t.agenda, d.ev.row = .dataCommandRetire ∧ d.ev.arg.a = k.id)) ∧
    (∀ st sub second, cmdOf s s.ev.a = some k → k.status = some (st, sub, second) →
      (cwRel k.ctl = true → outstanding s k.ctx k.num = false ∧ ∀ w ∈ s.en.writes, w.cmd ≠ s.ev.a) →
      (s.ctx k.ctx).run = .running →
      let entries := if st = 0 then [statusWord k st sub] else [statusWord k st sub, second]
      let fly := if st = 0 then ((s.en.writes.filter fun w => w.cmd == k.id).map (·.count)).sum else 0
      ((queueOf (s.ctx k.ctx) (cwQueue k.ctl)).length + entries.length ≤ 16 ∨ cwQen k.ctl = false) →
      ∃ t, exec .dataCommandRetire s = .next t ∧ (∀ c ∈ t.en.cmds, c.id ≠ s.ev.a) ∧ t.ms = s.ms ∧
        (∀ q, queueOf (t.ctx k.ctx) q =
          if cwQen k.ctl = true ∧ q = cwQueue k.ctl then queueOf (s.ctx k.ctx) q ++ entries else queueOf (s.ctx k.ctx) q) ∧
        (∀ scope, pendOf (t.ctx k.ctx).pend scope = pendOf (s.ctx k.ctx).pend scope -
          BitVec.ofNat 56 (if scope < 5 then k.left - fly else k.leftSys - fly)) ∧
        (t.ctx k.ctx).regs = (s.ctx k.ctx).regs ∧ ∀ c, c ≠ k.ctx → t.ctx c = s.ctx c) ∧
    (∀ w, cmdOf s s.ev.a = some k → s.en.statusWaits.find? (fun w => w.cmd == s.ev.a) = some w →
      (queueOf (s.ctx k.ctx) (cwQueue k.ctl)).length + w.entries.length ≤ 16 →
      ∃ t, exec .statusPushWait s = .next t ∧ (∀ c ∈ t.en.cmds, c.id ≠ s.ev.a) ∧ t.ms = s.ms ∧
        (∀ v ∈ t.en.statusWaits, v.cmd ≠ s.ev.a) ∧
        queueOf (t.ctx k.ctx) (cwQueue k.ctl) = queueOf (s.ctx k.ctx) (cwQueue k.ctl) ++ w.entries)

/-- R393 to R396, R384, R443. Shuttle matches a receive with what its peer has posted at the same place of the channel's
count, or stops it as MISMATCH where the transfer words differ. A chunk that arrives is written whole, and no other byte
changes; `recva` adds it, an integer limited to 32 bits, and an FP element rounded once; a chunk that fails its CRC
changes nothing. The acknowledgement of the last chunk of a send stops it with status 0. A lost peer takes its session and
ports down, and stops every command that names it, once no chunk that has arrived is still to be written. How the chunks
of a command arrive is an event from outside (log entries 13, 45 and 117). -/
def Obligations.ShuttleEvents : Prop :=
  ∀ (s : State),
    (∀ k p, cmdOf s k.id = some k → k.status = none → k.lost = false → s.ev.a = 2 ^ 20 + k.id → k.op = .recv →
      (k.begun = true ∨ cmdReady s k = true) → peerPostFor s k false k.recvIx = some p →
      ∃ t k', exec .shuttleMatch s = .next t ∧ cmdOf t k.id = some k' ∧ t.ms = s.ms ∧ t.ctxs = s.ctxs ∧
        k'.begun = true ∧ (wordsDiffer p.word k.p3 = false → k'.matchedRecv = true ∧ k'.status = none) ∧
        (wordsDiffer p.word k.p3 = true → k'.status = some (0xB, 0, p.word))) ∧
    (s.ev.a < 2 ^ 20 → (∀ c ∈ s.en.cmds, c.peer ≠ s.ev.a) →
      ∃ t, exec .shuttleMatch s = .next t ∧
        t = { s with en := { s.en with peerPosts := s.en.peerPosts ++
          [{ peer := s.ev.a, chan := s.ev.b, comp := s.ev.c, recv := s.ev.d % 2 == 1, ix := s.ev.d / 2
             word := BitVec.ofNat 64 (bytesNat s.ev.body) }] } }) ∧
    (∀ v k k2 c a core va, let n := k.chunkLen c
      ChunkHere s v k c → cmdOf v k.id = some k2 → (payChunk false c 5 v k2).1 = true → k.op = .recv →
      engAddr k.p1 ((k.p1.toNat : Int) + c * k.chunk) = (va, none) → piecesOf va n = [(va, n)] →
      Undisturbed s → engRoute s k va n 1 true false = .spad a core →
      ∃ t k', exec .shuttleChunkArrival s = .next t ∧ bytesPut s.ms.spad t.ms.spad a n (fun i => s.ev.body.getD i 0) ∧
        t.ms.mem = s.ms.mem ∧ cmdOf t k.id = some k' ∧ (∀ i, i < 64 → k'.rcvd.getLsbD i = (k.rcvd.getLsbD i || i == c)) ∧
        k'.status = (if allChunks k (k.rcvd ||| ((1 : BitVec 64) <<< c)) then some (0, 0, 0) else none) ∧
        ∀ scope, pendOf (t.ctx k.ctx).pend scope = pendOf (s.ctx k.ctx).pend scope - BitVec.ofNat 56 n) ∧
    (∀ v k k2 c a core va, let ss := tyBits k.aSty / 8
      let e := c * k.chunk / ss
      ChunkHere s v k c → cmdOf v k.id = some k2 → (payChunk false c 5 v k2).1 = true → k.op = .recva →
      addPair k.aSty k.aDty = true → k.chunkLen c = ss → engAddr k.p1 ((k.p1.toNat : Int) + 4 * e) = (va, none) →
      Undisturbed s → engRoute s k va 4 4 true false = .spad a core →
      let old := wordAt s.ms.spad a
      let new := bytesNat s.ev.body
      let sum := addFp { mode := k.aRnd, seed := 0, index := e % 2 ^ 32 } [decodeElem k.aSty new, decodeFp .fp32 old.toNat]
      let total := old.toInt + decodeInt k.aSty new
      ∃ t k', exec .shuttleChunkArrival s = .next t ∧ t.ms.mem = s.ms.mem ∧ cmdOf t k.id = some k' ∧
        wordOnly s.ms.spad t.ms.spad a
          (if k.aDty = 0xC then BitVec.ofInt 32 (max (-(2 ^ 31)) (min (2 ^ 31 - 1) total)) else BitVec.ofNat 32 sum.1) ∧
        k'.flags = k.flags ||| (if k.aDty = 0xC then
          (if total < -(2 ^ 31) ∨ 2 ^ 31 - 1 < total then fSAT else 0) else sum.2 &&& 0x1F)) ∧
    (64 ≤ s.ev.c → ∃ t, exec .shuttleChunkArrival s = .next t ∧ t = s) ∧
    (∀ k, let c := s.ev.d % 64
      let n := k.chunkLen c
      cmdOf s k.id = some k → cmdAt s s.ev true = some k → k.op = .send → k.flying = some c → k.lost = false → s.ev.a < 2 ^ 20 →
      allChunks k (k.sent ||| ((1 : BitVec 64) <<< c)) = true →
      ∃ t k', exec .shuttleChunkAck s = .next t ∧ t.ms = s.ms ∧ cmdOf t k.id = some k' ∧ k'.flying = none ∧
        k'.status = some (0, 0, 0) ∧
        ∀ scope, pendOf (t.ctx k.ctx).pend scope = pendOf (s.ctx k.ctx).pend scope -
          BitVec.ofNat 56 (if scope < 5 ∧ k.written.getLsbD c = true then 0 else n)) ∧
    ((s.en.cmds.map (·.id)).Nodup →
      ∃ t, exec .peerLost s = .next t ∧ t.ms = s.ms ∧ t.ctxs = s.ctxs ∧
      (∀ n, tget s.en.sessions s.ev.a = some n → tget t.en.sessions s.ev.a = some { n with up := false }) ∧
      (∀ p, portSt s p = 3 → fld (nimmetPort s p).status.toNat 47 35 = s.ev.a → portSt t p = 2) ∧
      ∀ c ∈ t.en.cmds, c.op.freight = false → c.peer = s.ev.a → c.arrived &&& ~~~c.rcvd = 0 → c.status.isSome = true)

/-! ### Boot, hand-over, links and heat (R9, R193 to R198, R204, R232 to R236, R433, R440 to R445) -/

/-- R9, R193, R195 to R197. Power-up takes the first source of the boot order, with the fuses as they were; an image that
arrives is verified, with STATE 3 meanwhile; a source whose time is over, whose image is bad, whose body does not commit or
whose watchdog expires gives way to the next: the first of two to the second of the boot order, a staged image being taken at
once, and the last, or the only one, to the wait of the ROM; a body that posts its SVN in time commits, and the floor of
Zitrum rises to it. Power that goes leaves the fuses alone. Its timers, and the events that carry an image, are the
model's choices (log entries 13, 87 and 124). -/
def Obligations.BootSequence : Prop :=
  ∀ (s : State),
    let goesOnTo (t : State) (n fail : Nat) : Prop := bootFailCode t = fail ∧
      (if n = 0 ∧ Config.bootSrc % 4 = 1 then t.rt.boot = .network 1 0 ∧ bootSt t = 1
       else if n = 0 ∧ Config.bootSrc % 4 = 0 then
        (if s.ho.hostLink = true ∧ s.ho.stageGo = true then t.rt.boot = .verifying 1 (stagedImage s) ∧ bootSt t = 3
         else t.rt.boot = (if s.ho.hostLink then .hostImage 1 else .hostLink 1) ∧ bootSt t = 2)
       else t.rt.boot = .waiting ∧ bootSt t = 0)
    (∃ t, exec .powerUp s = .next t ∧ (s.powered = true → t = s) ∧
      (s.powered = false → t.powered = true ∧ t.rt.devKey = true ∧ t.rt.zitrum = false ∧ t.rt.floor = s.rt.floor ∧
        t.ctxs = [] ∧ t.ms = State.reset.ms ∧ t.tm = State.reset.tm ∧
        t.rt.boot = (if netFirst then .network 0 0 else .hostLink 0))) ∧
    (∃ t, exec .powerRemoved s = .next t ∧ unpowered s t) ∧
    (∃ t, exec .thermalShutdown s = .next t ∧ unpowered s t) ∧
    (∀ n, s.rt.boot = .network n 0 →
      ∃ t, exec .bootFetchTimeout s = .next t ∧ t.rt.boot = .network n 3 ∧ bootFailCode t = 1 ∧ bootSt t = 1) ∧
    (∀ n, s.rt.boot = .network n 3 ∨ s.rt.boot = .hostLink n ∨ s.rt.boot = .hostImage n →
      ∃ t, exec .bootFetchTimeout s = .next t ∧ goesOnTo t n 1) ∧
    (s.rt.boot = .waiting → s.ho.stageGo = false →
      ∃ t, exec .bootRetryWait s = .next t ∧
        t.rt.boot = (if netFirst then .network 0 0 else if s.ho.hostLink then .hostImage 0 else .hostLink 0)) ∧
    (∀ n, s.ev.d ≠ 1 → s.rt.boot = .network n s.ev.a →
      ∃ t, exec .tftpImageArrival s = .next t ∧ t.ms = s.ms ∧ t.rt.boot = .verifying n s.ev.body ∧ bootSt t = 3 ∧
        ∃ d ∈ t.agenda, d.ev = ⟨.tftpImageArrival, { d := 1 }⟩ ∧ s.cycle < d.cyc) ∧
    (∀ n b, s.ev.d = 1 → s.rt.boot = .verifying n b →
      let code := verifyImage 1 s.rt.floor b
      ∃ t, exec .tftpImageArrival s = .next t ∧ t.ms = s.ms ∧ t.rt.floor = s.rt.floor ∧
        (if code = 0 then t.rt.boot = .started n ∧ bootSt t = 4 ∧ tget t.rt.firmware 1 = some (firmwareIn b)
         else goesOnTo t n code)) ∧
    (∀ n, s.rt.boot = .started n → s.rt.alive = some (firmwareOf s 1).svn →
      ∃ t, exec .bootCommitDeadline s = .next t ∧ t.rt.boot = .committed ∧ t.rt.zitrum = true ∧ bootSt t = 5 ∧
        t.rt.floor = max s.rt.floor (firmwareOf s 1).svn) ∧
    (∀ n, s.rt.boot = .started n → s.rt.alive ≠ some (firmwareOf s 1).svn →
      ∃ t, exec .bootCommitDeadline s = .next t ∧ goesOnTo t n 7 ∧ t.rt.floor = s.rt.floor) ∧
    (∀ n, s.rt.boot = .started n → s.rt.hand = none →
      ∃ t, exec .stationmasterWatchdog s = .next t ∧ goesOnTo t n 7) ∧
    (∀ n, s.rt.boot = .hostLink n → s.ho.stageGo = false →
      ∃ t, exec .hostLinkUp s = .next t ∧ t.rt.boot = .hostImage n ∧ t.ho.hostLink = true ∧ t.ms = s.ms)

/-- R197, R233 to R235, R435. ALIVE posts an SVN; a hand-over that has switched commits at its deadline if the new image
has posted its own, and the floor of its kind rises, and otherwise reverts to the old image; a watchdog that expires
reverts it too. The deadline is set to 1 to 1,000 ms. The bytes of a hand-over record give back what was written (their
encoding is log entry 58). GO alone is only set. The event that sets the deadline is log entry 123. -/
def Obligations.HandOvers : Prop :=
  ∀ (s : State),
    (s.rt.hand = none → ∃ t, exec .alivePost s = .next t ∧ t = { s with rt := { s.rt with alive := some s.ev.a } }) ∧
    (∀ h, s.rt.hand = some h → h.switched = true → h.kind < 256 →
      (∃ t, exec .alivePost s = .next t ∧ t.rt.alive = some s.ev.a ∧
        t.rt.hand = some { h with alive := s.ev.a == h.image.svn }) ∧
      (s.ev.b ≠ 1 → h.alive = true → ∃ t, exec .handoverDeadline s = .next t ∧ t.rt.hand = none ∧ t.rt.zitrum = true ∧ handSt t = 3 ∧
        t.rt.firmware = s.rt.firmware ∧ floorOf t h.kind = max (floorOf s h.kind) h.image.svn) ∧
      (s.ev.b ≠ 1 → h.alive = false → ∃ t, exec .handoverDeadline s = .next t ∧ t.rt.hand = none ∧ t.rt.zitrum = true ∧ handSt t = 4 ∧
        handFailCode t = 0x10 ∧ firmwareOf t h.kind = h.old ∧ floorOf t h.kind = floorOf s h.kind) ∧
      (∃ t, exec .stationmasterWatchdog s = .next t ∧ t.rt.hand = none ∧ handSt t = 4 ∧ handFailCode t = 0x12 ∧
        firmwareOf t h.kind = h.old)) ∧
    (∀ r, recordOf (recordData r) = some r) ∧
    (s.ev.b = 1 → ∃ t, exec .handoverDeadline s = .next t ∧
      t = { s with rt := { s.rt with deadline := if 1 ≤ s.ev.a ∧ s.ev.a ≤ 1000 then s.ev.a else s.rt.deadline } }) ∧
    ((∀ n, s.rt.boot ≠ .hostImage n) → (∀ q ∈ s.ho.waiting, q.code ≠ 9) →
      ∃ t, exec .stageGo s = .next t ∧ t = { s with ho := { s.ho with stageGo := true } })

/-- R204, R440 to R443, R445. Links and sessions: a port trains as PKGINFO and its peer's number allow; a session that is
set up has a key of its own and a counter of 0, and a new key sets the counter back; a frame is taken once, in sequence,
and a frame sent again is counted; a failed port of the second tier fails every address on it; a hot die is noticed to the
host. What the peers send is an event from outside (log entries 13 and 103). -/
def Obligations.LinksAndHeat : Prop :=
  ∀ (s : State),
    (let valid := s.ho.pkginfo.getLsbD 31
     ∃ t, exec .nimmetLinkTrain s = .next t ∧ t.ms = s.ms ∧ t.ctxs = s.ctxs ∧
      (s.ev.b < 2 → portSt t s.ev.a = s.ev.b) ∧
      (s.ev.b = 2 → portSt t s.ev.a = if valid = false then 1 else if s.ev.c = pkgNumber s then 4 else 2) ∧
      (s.ev.b = 2 → fld (nimmetPort t s.ev.a).status.toNat 47 35 = s.ev.c % 2 ^ 13)) ∧
    (s.ev.c = 1 → ∃ t n, exec .nimmetSessionSetup s = .next t ∧ tget t.en.sessions s.ev.a = some n ∧ n.up = true ∧
      n.counter = 0 ∧ n.key = s.nextId ∧ n.tags = tagsOf 64 s.ev.body ∧
      ∀ p, p ≠ s.ev.a → tget t.en.sessions p = tget s.en.sessions p) ∧
    (∀ n, tget s.en.sessions s.ev.a = some n →
      ∃ t, exec .sessionRekey s = .next t ∧
        tget t.en.sessions s.ev.a = some { n with key := s.nextId, counter := 0 } ∧ t.nextId = s.nextId + 1) ∧
    (∃ t, exec .nimmetFrameReceive s = .next t ∧
      let n := nimmetPort s s.ev.a
      (nimmetPort t s.ev.a).rxSeq = if s.ev.c = 1 ∧ s.ev.b = n.rxSeq then (n.rxSeq + 1) % 2 ^ 48 else n.rxSeq) ∧
    ((nimmetPort s s.ev.a).unacked ≠ [] →
      ∃ t, exec .nimmetFrameResend s = .next t ∧ (nimmetPort t s.ev.a).unacked = (nimmetPort s s.ev.a).unacked ∧
        fld (nimmetPort t s.ev.a).status.toNat 23 0 =
          min (2 ^ 24 - 1) (fld (nimmetPort s s.ev.a).status.toNat 23 0 + 1)) ∧
    (∃ t, exec .secondTierPortFail s = .next t ∧ t.ms.mem = s.ms.mem ∧
      (∀ off n, s.ev.a < 16 → off < 2 ^ 40 → physRead t (2 ^ 44 + s.ev.a * 2 ^ 40 + off) n = none) ∧
      ∀ pa n, pa < 2 ^ 44 → physRead t pa n = physRead s pa n) ∧
    (∃ t, exec .thermalWarning s = .next t ∧ t.ho.ncount = s.ho.ncount + 1 ∧
      tget t.ho.notices (s.ho.ncount % 256) = some (BitVec.ofNat 64 (5 + s.ev.a * 2 ^ 16), BitVec.ofNat 64 s.ev.b) ∧
      t.ho.msix = (if s.ho.hostLink then s.ho.msix ++ [1] else s.ho.msix) ∧
      t = { s with ho := { s.ho with ncount := t.ho.ncount, notices := t.ho.notices, msix := t.ho.msix } })

/-! ### The host port and Zitrum's requests (R203, R231, R433 to R440, R444) -/

/-- R203, R433, R435 to R437, R444. A host access outside every window reads all ones and writes nothing; a read inside
one returns the bytes of memory, and a write changes those bytes alone, where the window allows it. A byte written to the
staging window stands there; the status registers ignore a write. A slot that is posted waits for Zitrum, and one that is
freed is free; a value that STATE does not take is answered as BADREQ. A datagram joins Zitrum's queue. That a write to a
window without W is dropped is the model's choice (log entry 86). -/
def Obligations.HostPort : Prop :=
  ∀ (s : State),
    (windowAt s s.ev.a (if s.ev.b = 1 then s.ev.body.length else s.ev.c) = none →
      ∃ t, exec .hostWindowAccess s = .next t ∧ t.ms = s.ms ∧
        (s.ev.b ≠ 1 → t.ho.readback = List.replicate s.ev.c 0xFF) ∧ (s.ev.b = 1 → t = s)) ∧
    (∀ w pages o pa, let n := if s.ev.b = 1 then s.ev.body.length else s.ev.c
      windowAt s s.ev.a n = some (w, pages, o) → windowPieces pages o n = some [(pa, n)] → Undisturbed s →
      ∃ t, exec .hostWindowAccess s = .next t ∧ t.ms.spad = s.ms.spad ∧ t.ctxs = s.ctxs ∧
        (s.ev.b ≠ 1 → t.ms.mem = s.ms.mem ∧ t.ho.readback = rdBytes s.ms.mem pa n) ∧
        (s.ev.b = 1 → wW w = true → bytesPut s.ms.mem t.ms.mem pa n (fun k => s.ev.body.getD k 0)) ∧
        (s.ev.b = 1 → wW w = false → t = s)) ∧
    (∀ b, s.ev.body = [b] → s.ev.a ≠ 0x10 → memoriesOk s = true →
      ∃ t, exec .hostRegisterWrite s = .next t ∧ t.ms = s.ms ∧ t.ctxs = s.ctxs ∧
        (0x1000000 ≤ s.ev.a → s.ev.a < 0x6000000 →
          bytesPut s.ho.staging t.ho.staging (s.ev.a - 0x1000000) 1 (fun _ => b)) ∧
        (s.ev.a < 0x10 → t = s)) ∧
    (let n := s.ev.a % 64
     let st := slotState (hostSlot s n)
     (st = 0 ∨ st = 3 → ∃ t, exec .slotPost s = .next t ∧ slotState (hostSlot t n) = 1 ∧
        (hostSlot t n).body = (hostSlot s n).body ∧
        t.ho.requests = s.ho.requests ++ [{ route := .host n, code := 0, ticket := 0, len := 0, body := [] }]) ∧
     (st = 1 ∨ st = 3 → ∃ t, exec .slotFree s = .next t ∧ slotState (hostSlot t n) = 0 ∧
        (st = 1 → ∀ q ∈ t.ho.requests, q.route = .host n → q.taken = true) ∧
        (st = 3 → t.ho.requests = s.ho.requests)) ∧
     (2 ≤ s.ev.b → s.ev.b < 256 → st ≠ 2 → ∃ t, exec .slotBadState s = .next t ∧ slotState (hostSlot t n) = 3 ∧
        fld (slotHdr (hostSlot t n) 0).toNat 47 40 = 0x10 ∧ fld (slotHdr (hostSlot t n) 0).toNat 39 32 = 1)) ∧
    (∃ t, exec .mgmtRequest s = .next t ∧
      (s.rt.zitrum = false → s.rt.hand = none → (∀ n, s.rt.boot ≠ .started n) → t = s) ∧
      (s.rt.zitrum = true ∨ s.rt.hand.isSome = true ∨ (∃ n, s.rt.boot = .started n) → ∃ q, t = { s with ho := { s.ho with requests := s.ho.requests ++ [q] } } ∧
        q.route = .mgmt s.ev.a q.ticket ∧ q.code = fld (bytesNat (s.ev.body.take 8)) 55 48 ∧
        q.ticket = fld (bytesNat (s.ev.body.take 8)) 31 0 ∧ q.body = s.ev.body.drop 64 ∧ q.taken = false))

/-- R202, R205, R207, R438. Requests on compartments, pages and budgets, taken from the head of the queue with a body that
names no other bit: MKCOMP gives the lowest free number its record and a key; RMCOMP removes a compartment without
launches, with its lines and logs; MAP enters the pages in its tables and answers with their first address; UNMAP drops
the buffered translations and waits for the invalidation, at which their memory is released, and of CODE and CONST pages
it first waits for the teams of the compartment (log entry 120); BUDGET writes for the next boundary what breaks no limit.
Which memory is handed out, and how the limits are judged, are the model's choices (log entries 75, 78 and 79). -/
def Obligations.CompartmentRequests : Prop :=
  ∀ (s u : State) (q : Request),
    (∀ k root u', Taken 3 s q u →
      wellFormedBody q [1, maskOf 63 0, maskOf 63 0, maskOf 63 0, maskOf 63 0, maskOf 63 0, maskOf 63 0] 56 →
      k < 63 → tget u.tt.comps (k + 1) = none → (∀ j, j < k → tget u.tt.comps (j + 1) ≠ none) →
      takeTable u = some (root, u') →
      ∃ t c, exec .mkcomp s = .next t ∧ tget t.tt.comps (k + 1) = some c ∧ c.isol = (bodyWord q 0).testBit 0 ∧
        c.poolmax = BitVec.ofNat 64 (bodyWord q 1) ∧ c.quota = BitVec.ofNat 64 (bodyWord q 2) ∧
        c.tag = BitVec.ofNat 256 (bytesNat ((q.body.drop 24).take 32)) ∧ c.kchain = 0 ∧ c.kcount = 0 ∧ c.root = root ∧
        c.pages = 0 ∧ c.pool = 0 ∧ c.key = u'.tt.nextKey ∧ (∀ j, j ≠ k + 1 → tget t.tt.comps j = tget u.tt.comps j) ∧
        (t.tt.nextKey = u'.tt.nextKey + 1) ∧ t = respond { u' with tt := t.tt } q 0 0 (k + 1) []) ∧
    (let comp := bodyWord q 0 % 64
     s.ev.a ≠ 1 → Taken 4 s q u → wellFormedBody q [maskOf 5 0] 8 → 1 ≤ comp → (tget u.tt.comps comp).isSome = true →
      compBusy u comp = false →
      ∃ t, exec .rmcomp s = .next t ∧ tget t.tt.comps comp = none ∧ t.ms.mem = u.ms.mem ∧
        (∀ e ∈ t.ms.lines, e.1 / 2 ^ 24 ≠ comp) ∧ (∀ h ∈ t.tm.heldLogs, h.comp ≠ comp) ∧
        (∀ e ∈ t.ho.windows, wComp e.2 ≠ comp) ∧ (∀ e ∈ t.ms.tlb, e.comp ≠ comp) ∧
        ∀ k, k ≠ comp → tget t.tt.comps k = tget u.tt.comps k) ∧
    (let w2 := bodyWord q 2
     let ta := bodyWord q 1
     let count := fld w2 31 0
     let size := fld w2 34 32
     let high : W64 := BitVec.ofNat 64 (bodyWord q 0)
     let low : W64 := BitVec.ofNat 64 (3 + (if w2.testBit 37 then 64 else 0) + fld w2 36 35 * 128 + size * 512)
     let bytes := pageBytes size
     let comp := dComp high
     ∀ k pa u1 u2, Taken 5 s q u → wellFormedBody q [maskOf 63 8, maskOf 55 0, maskOf 42 0] 24 →
      comp ≠ 0 → size < 4 → count ≠ 0 → ta % bytes = 0 → ta + count * bytes ≤ 2 ^ 56 →
      badDesc low high (leafLevel size) = false → tget u.tt.comps comp = some k →
      (dKind low = kLined → lineAgrees u high ta = true ∧ lineAgrees u high (ta + (count - 1) * bytes) = true ∧
        ta / 2 ^ (dXlog high + 1) = (ta + (count - 1) * bytes) / 2 ^ (dXlog high + 1)) →
      pagesUsed u comp + count * (bytes / 4096) ≤ quotaPages u comp →
      takePages u (w2.testBit 38) (fld w2 42 39) bytes count = some (pa, u1) →
      mapPages k.root size bytes low high count ta pa u1 = some u2 →
      ∃ t u3, exec .map s = .next t ∧ t = respond u3 q 0 0 pa [] ∧ u3.ms.mem = u2.ms.mem ∧
        tget u3.tt.comps comp = some { k with pages := k.pages + count * (bytes / 4096) } ∧
        (dKind low ≠ kLined → u3.ms.lines = u2.ms.lines) ∧
        (dKind low = kLined → ∃ l, u3.line (lineKey high) = some l)) ∧
    (let comp := bodyWord q 0 % 64
     let w2 := bodyWord q 2
     let size := fld w2 34 32
     let n := fld w2 31 0
     ∀ k, s.ev.a ≠ 1 → Taken 6 s q u → wellFormedBody q [maskOf 5 0, maskOf 55 0, maskOf 34 0] 24 → 1 ≤ comp → size < 4 →
      n ≠ 0 → bodyWord q 1 % pageBytes size = 0 → bodyWord q 1 + n * pageBytes size ≤ 2 ^ 56 →
      tget u.tt.comps comp = some k →
      ∃ t, exec .unmap s = .next t ∧
        (pagesKept u comp (bodyWord q 1) (n * pageBytes size) = true →
          t = { u with ho := { u.ho with waiting := u.ho.waiting ++ [q] } }) ∧
        (pagesKept u comp (bodyWord q 1) (n * pageBytes size) = false → ∀ l v,
          unmapPages k.root size (pageBytes size) n (bodyWord q 1) ([], u) = (l, v) →
          t.ho.waiting = u.ho.waiting ++ [{ q with own := some comp }] ∧ t.ms.mem = v.ms.mem ∧
            (∀ e ∈ t.ms.tlb, e.comp ≠ comp) ∧ (∀ c, ∀ w ∈ (t.ctx c).walked, w.1 ≠ comp) ∧
            t.ms.invals = u.ms.invals ++ [{ comp := comp, upto := v.nextId, pages := l }])) ∧
    (∀ q, let comp := bodyWord q 0 % 64
      s.ev.a = 1 → s.ho.waiting = [q] → unmapWaits s q = true → (tget s.tt.comps comp).isSome = true →
      ∃ t, exec .unmap s = .next t ∧ t.ho.waiting = [{ q with own := some comp }] ∧ (∀ e ∈ t.ms.tlb, e.comp ≠ comp)) ∧
    (let target := fld (bodyWord q 0) 23 16
     let block : BitVec 256 := BitVec.ofNat 256 (bytesNat ((q.body.drop 8).take 32))
     ∀ v, Taken 7 s q u → wellFormedBody q (budgetMasks q) (budgetReads q) → target < 64 →
      fld (bodyWord q 1) 55 32 % 4096 = 0 → fld (bodyWord q 2) 23 0 % 64 = 0 →
      v = { u with tt := { u.tt with clsNext := v.tt.clsNext } } →
      (∀ d c, d < 16 → c < 64 → tget v.tt.clsNext (d * 64 + c) =
        if c = target ∧ (bodyWord q 0).testBit d = true then some block else tget u.tt.clsNext (d * 64 + c)) →
      ∃ t, exec .budget s = .next t ∧
        (limitBroken v = none → ∀ d c, d < 16 → c < 64 → tget t.tt.clsNext (d * 64 + c) = tget v.tt.clsNext (d * 64 + c)) ∧
        (∀ r, limitBroken v = some r → t = respond u q 0x11 r 0 []))

/-- R199, R224, R231, R438. The other requests: LAUNCH stands ready for its validation; KILL ends its launch and waits;
ABANDON asks for the step to be undone, and CKPT for a checkpoint at the next boundary; LOGREL forgets a held log; PKGNUM
sets the number once; WINLIST and REPORT answer with their bytes; STAGE waits for GO, or takes the image that stands in the
staging window (log entry 84); RESTORE finds a manifest and the objects of its lines, which stand in memory as log entry
58 lays them out, and starts its teams again. -/
def Obligations.OtherRequests : Prop :=
  ∀ (s u : State) (q : Request),
    (Taken 1 s q u → q.taken = true → wellFormedBody q [] (192 + 32 * pkNrange q.body) →
      (∀ q0 rest, s.ho.requests = q0 :: rest → q0.taken = false) →
      ∃ t, exec .launch s = .next t ∧ t = { u with ho := { u.ho with requests := q :: u.ho.requests } }) ∧
    (∀ l, Taken 2 s q u → wellFormedBody q [maskOf 15 0] 8 → tget u.tm.launches (reqLid q) = some l →
      ∃ t l', exec .kill s = .next t ∧ t.ho.waiting = u.ho.waiting ++ [q] ∧ tget t.tm.launches (reqLid q) = some l' ∧
        l'.ending = (l.ending <|> some { status := 7, sub := 1 }) ∧
        ∃ d ∈ t.agenda, d.ev.row = .teamEnd ∧ d.ev.arg.a = reqLid q ∧ d.ev.arg.d = 1) ∧
    (∀ l, Taken 0x0B s q u → wellFormedBody q [maskOf 15 0, maskOf 63 0] 16 → tget u.tm.launches (reqLid q) = some l →
      modeDet l.mode = true → mayRun l = true → l.steps = bodyWord q 1 →
      ∃ t, exec .abandon s = .next t ∧ t.ho.waiting = u.ho.waiting ++ [q] ∧ t.tm = u.tm ∧
        ∃ d ∈ t.agenda, d.ev.row = .stepAbandon ∧ d.ev.arg.a = l.lid ∧ d.ev.arg.c = 1) ∧
    (∀ l, Taken 0x0A s q u → wellFormedBody q [maskOf 5 0 + maskOf 31 16, maskOf 63 0, maskOf 63 0] 24 →
      1 ≤ bodyWord q 0 % 64 → bodyWord q 1 % 4096 = 0 → bodyWord q 1 < 2 ^ 56 →
      bodyWord q 1 + bodyWord q 2 ≤ 2 ^ 56 → tget u.tm.launches (reqLid q) = some l →
      l.comp = bodyWord q 0 % 64 → mayRun l = true →
      ∃ t, exec .ckpt s = .next t ∧ t = { u with ho := { u.ho with waiting := u.ho.waiting ++ [q] } }) ∧
    (let mine (h : HeldLog) : Bool := h.comp == bodyWord q 0 % 64 && h.lid == reqLid q
     Taken 0x0C s q u → wellFormedBody q [maskOf 5 0 + maskOf 31 16] 8 → 1 ≤ bodyWord q 0 % 64 →
      (∃ h ∈ u.tm.heldLogs, mine h = true) →
      ∃ t, exec .logrel s = .next t ∧
        t = respond { u with tm := { u.tm with heldLogs := u.tm.heldLogs.filter fun h => !mine h } } q 0 0 0 []) ∧
    (Taken 0x0D s q u → wellFormedBody q [maskOf 12 0 + maskOf 28 16] 8 →
      ∃ t, exec .pkgnum s = .next t ∧
        (u.ho.pkginfo.getLsbD 31 = true → t = respond u q 0x12 0 0 []) ∧
        (u.ho.pkginfo.getLsbD 31 = false → t.ho.pkginfo = BitVec.ofNat 64 (2 ^ 31 + bodyWord q 0) ∧
          t = respond { u with ho := { u.ho with pkginfo := t.ho.pkginfo } } q 0 0 0 [])) ∧
    (let first := fld (bodyWord q 0) 7 0
     let k := min (fld (bodyWord q 0) 16 8) (256 - first)
     Taken 0x0E s q u → wellFormedBody q [maskOf 7 0 + maskOf 16 8] 8 → fld (bodyWord q 0) 16 8 ≠ 0 →
      fld (bodyWord q 0) 16 8 ≤ 256 →
      ∃ t, exec .winlist s = .next t ∧ t = respond u q 0 0 k
        ((List.range k).flatMap fun j => natBytes ((tget u.ho.windows (first + j)).getD 0).toNat 16)) ∧
    (let n := fld (bodyWord q 0) 24 16
     let nums := (List.range n).map fun k => bytesNat ((q.body.drop (40 + 4 * k)).take 4)
     let comp := bodyWord q 0 % 64
     Taken 8 s q u →
      wellFormedBody q [maskOf 5 0 + maskOf 24 16, maskOf 63 0, maskOf 63 0, maskOf 63 0, maskOf 63 0] (40 + 4 * n) →
      (∀ x ∈ nums, x < 2 ^ 24) → n ≤ 256 → 1 ≤ comp → (tget u.tt.comps comp).isSome = true →
      ∃ t b, exec .report s = .next t ∧ t = respond u q 0 0 b.length b ∧
        b = reportBody u comp ((q.body.drop 8).take 32) nums ++
          (Config.falconSign deviceKeys.2 (shake64 (reportBody u comp ((q.body.drop 8).take 32) nums)) ++
            List.replicate 1280 0).take 1280) ∧
    (let kind := bodyWord q 0 % 8
     Taken 9 s q u → wellFormedBody q [7] 8 → 1 ≤ kind → kind ≤ 4 → u.rt.hand = none → (∀ p ∈ u.ho.waiting, p.code ≠ 9) →
      ∃ t, exec .stage s = .next t ∧
        (u.ho.stageGo = false → t = { u with ho := { u.ho with waiting := u.ho.waiting ++ [q] } }) ∧
        (u.ho.stageGo = true →
          let code := verifyImage kind (floorOf u kind) (stagedImage u)
          t.ho.stageGo = false ∧ t.rt.firmware = u.rt.firmware ∧
          if code = 0 then handSt t = 1 ∧ ∃ h, t.rt.hand = some h ∧ h.kind = kind ∧ h.image = firmwareIn (stagedImage u) ∧
            h.old = firmwareOf u kind ∧ h.switched = false
          else t.rt.hand = none ∧ t.rt.handStatus = BitVec.ofNat 64 (u.rt.handStatus.toNat -
              fld u.rt.handStatus.toNat 23 16 * 2 ^ 16 + code % 256 * 2 ^ 16) ∧
            t = respond { u with ho := { u.ho with stageGo := false }, rt := { u.rt with handStatus := t.rt.handStatus } } q
              0x15 code 0 [])) ∧
    (let comp := bodyWord q 0 % 64
     s.ev.a ≠ 1 → Taken 0x0F s q u → wellFormedBody q [maskOf 5 0, maskOf 63 0, maskOf 63 0, maskOf 63 0] 32 → 1 ≤ comp →
      bodyWord q 1 < 2 ^ 56 → bodyWord q 2 + bodyWord q 3 ≤ 2 ^ 56 → u.ms.holds = [] → (tget u.tt.comps comp).isSome = true →
      ∃ t, exec .restore s = .next t ∧
        match findManifest u comp (bodyWord q 1), readTable u comp (bodyWord q 2) (bodyWord q 3) with
        | none, _ => t = respond u q 0x15 0x20 0 []
        | some _, none => t = respond u q 0x15 0x20 0 []
        | some k, some area =>
          (k.lines.all (lineFits u comp) = false → t = respond u q 0x13 2 0 []) ∧
          (k.lines.all (lineFits u comp) = true →
            match k.lines.mapM (lineParts (objsAt area.length area).1) with
            | none => t = respond u q 0x15 0x20 0 []
            | some parts => k.pages = [] →
              let v := parts.foldl (restoreLine comp) u
              ∀ image, packetChecks v none (packetFor comp k.packet) = .ok image →
                ∃ lid w, t = placementRun (respond w q 0 0 lid []) ∧ w.ms.mem = u.ms.mem ∧
                  (∀ e ∈ k.teams, ∃ v ∈ w.tm.swaps, v.lid = lid ∧ v.team = e.team ∧ v.ctxs = e.ctxs) ∧
                  ∃ l, tget w.tm.launches lid = some l ∧ l.steps = k.step ∧
                    l.tdone = l.nteams - (k.teams.filter fun v => v.ctxs.any fun e => e.2.run != .exited).length))

/-! ### Launches, teams and steps (R163 to R192, R206, R219 to R230) -/

/-- R165, R166, R169, R170, R178. A packet at the head of the queue is accepted, under a number from 1 to 65,535 that no
launch has while one is left, or refused: its request is answered with the status and subcode of its first failing check,
and no launch begins. A slot word that binds a team starts every member at the image's
entry; a cleared slot is free. A launch whose last team has left is complete, and gone. R180, R223, R234. Zitrum ends the
teams of a launch: its waiting and swapped-out teams are gone, and 16,384 cycles later every member that still runs after
TEAMDOWN is stopped, and not before; while no Zitrum runs (R234) either waits, and nothing of the launch changes. That Zitrum acts at the end of a
cycle, and that a launch is removed with its record, are the model's choices (log entries 60 and 73). -/
def Obligations.LaunchesBeginAndEnd : Prop :=
  ∀ (s : State),
    (∀ q rest, s.ho.requests = q :: rest →
      let u := { s with ho := { s.ho with requests := rest } }
      s.ms.holds = [] → ∃ t, exec .launchAcceptance s = .next t ∧
        (∀ st sub, packetChecks u q.own (packetBytes u q) = .error (st, sub) →
          ∃ v, t = respond v q st sub 0 [] ∧ v.tm = { s.tm with launches := v.tm.launches } ∧ v.ctxs = s.ctxs ∧
            v.ho.requests = rest ∧ v.ho.slots = s.ho.slots ∧
            ∀ k, (tget t.tm.launches k).isSome = (tget s.tm.launches k).isSome) ∧
        (∀ image, packetChecks u q.own (packetBytes u q) = .ok image →
          (s.tm.launches.length + s.tm.heldLogs.length < 65535 →
            1 ≤ freshLid u ∧ freshLid u < 65536 ∧ tget s.tm.launches (freshLid u) = none) ∧
          ∃ v l, t = placementRun (respond v q 0 0 (freshLid u) []) ∧ tget v.tm.launches (freshLid u) = some l ∧
            l.lid = freshLid u ∧ l.accept = s.tm.accepted + 1 ∧ l.image = measured image ∧
            l.digest = shake64 (measured image) ∧ l.nteams = pkNteams (packetBytes u q) ∧ l.tdone = 0 ∧
            v.ms.mem = s.ms.mem ∧ v.tm.accepted = s.tm.accepted + 1)) ∧
    (∀ l, let w : BitVec 512 := BitVec.ofNat 512 (bytesNat s.ev.body)
      tget s.tm.boards s.ev.a = none → bV w = true → bSwap w = false → tget s.tm.launches (bLid w) = some l →
      ∃ t, exec .boardSlotWrite s = .next t ∧ tget t.tm.boards s.ev.a = some w ∧ (s.ms.holds = [] → t.ms.mem = s.ms.mem) ∧
        ∀ c ∈ membersOf s.ev.a w, (t.ctx c).run = .running ∧ (t.ctx c).slot = s.ev.a ∧
          (t.ctx c).pc = BitVec.ofNat 32 (bytesNat ((l.image.drop 8).take 2)) ∧ (t.ctx c).flags = 0 ∧
          (t.ctx c).units = []) ∧
    (∀ b, let w : BitVec 512 := BitVec.ofNat 512 (bytesNat s.ev.body)
      tget s.tm.boards s.ev.a = some b → bV b = true → w = 0 →
      ∃ t u, exec .boardSlotWrite s = .next t ∧ t = placementRun u ∧ tget u.tm.boards s.ev.a = none ∧
        u.ms.mem = s.ms.mem ∧ u.ms.spad = s.ms.spad ∧ ∀ c ∈ membersOf s.ev.a b, (u.ctx c).run = .unbound) ∧
    (∀ l, tget s.tm.launches s.ev.a = some l → l.lid = s.ev.a →
      ∃ t, exec .launchCompletion s = .next t ∧ (completionReady s l = false → t = s) ∧
        (completionReady s l = true → ∃ u, t = placementRun u ∧ tget u.tm.launches l.lid = none ∧
          (∀ g ∈ u.tm.logs, g.lid ≠ l.lid) ∧ (∀ e ∈ u.tm.setts, e.2.lid ≠ l.lid) ∧
          (s.ms.holds = [] → u.ms.spad = s.ms.spad))) ∧
    (∃ t, exec .teamEnd s = .next t ∧
      (s.rt.zitrum = false → s.cr.calls = [] → t.tm = s.tm ∧ t.ms = s.ms ∧ t.ctxs = s.ctxs) ∧
      (∀ l, s.rt.zitrum = true → tget s.tm.launches s.ev.a = some l → l.down = none → boardsOf s s.ev.a = [] →
        (tget t.tm.launches s.ev.a).bind (·.down) = some s.cycle ∧ (∀ w ∈ t.tm.waiting, w.lid ≠ s.ev.a) ∧
        (∀ v ∈ t.tm.swaps, v.lid ≠ s.ev.a) ∧ t.ms.mem = s.ms.mem ∧
        ∃ d ∈ t.agenda, d.ev.row = .teamdownTimeout ∧ d.ev.arg.a = s.ev.a ∧ d.cyc = s.cycle + 16384)) ∧
    (∀ since, (tget s.tm.launches s.ev.a).bind (·.down) = some since →
      ∃ t, exec .teamdownTimeout s = .next t ∧ (s.cycle < since + 16384 → t = s) ∧
        (since + 16384 ≤ s.cycle → s.rt.zitrum = false → t.tm = s.tm ∧ t.ms = s.ms ∧ t.ctxs = s.ctxs ∧
          ∃ d ∈ t.agenda, d.ev.row = .teamdownTimeout ∧ d.ev.arg.a = s.ev.a ∧ d.cyc = s.cycle + 1) ∧
        (since + 16384 ≤ s.cycle → s.rt.zitrum = true → t.ms.mem = s.ms.mem ∧
          ∀ e ∈ boardsOf s s.ev.a, ∀ c ∈ membersOf e.1 e.2, (t.ctx c).run ≠ .running ∧ (t.ctx c).run ≠ .preempted))

/-- R176, R219, R222, R234, R371, R372. A context that can stop is pre-empted, its state kept and its results in flight
captured, and one that cannot stops when it can; its call stops at its next step, and is issued again at resume. A team
whose members are at rest is saved and leaves its Board; one that has a slot again takes its state back, and its members
run, once a Zitrum runs. That a blocked context stops at once, also in a shadow, is the model's choice (log entry 71). -/
def Obligations.SwapsKeepTeams : Prop :=
  ∀ (s : State),
    (let c := s.ev.a
     let x := s.ctx c
     let calm := ∀ k, tget s.cr.calls (coreOf c) = some k → k.ctx ≠ c
     ∃ t, exec .preempt s = .next t ∧ t.ms.mem = s.ms.mem ∧ t.ms.spad = s.ms.spad ∧ (∀ k, k ≠ c → t.ctx k = s.ctx k) ∧
      (x.run ≠ .running → t = s) ∧
      (x.run = .running → canStop x s.cycle = false → (t.ctx c).run = .running ∧ (t.ctx c).preempt = true ∧
        (calm → t = s.modCtx c fun y => { y with preempt := true })) ∧
      (canStop x s.cycle = true → (t.ctx c).run = .preempted ∧ (t.ctx c).flights = [] ∧ (t.ctx c).pc = x.pc ∧
        (t.ctx c).shadow = x.shadow ∧ (t.ctx c).queues = x.queues ∧ (t.ctx c).loops = x.loops ∧
        (t.ctx c).flags = x.flags ∧ (∀ q ∈ t.ms.tagq, q.ctx ≠ c) ∧
        (calm → (t.ctx c).psnap = some (capture x s.cycle) ∧ (t.ctx c).regs = x.regs)) ∧
      (∀ k, tget s.cr.calls (coreOf c) = some k → k.ctx = c → x.run = .running →
        (k.begun = true → tget t.cr.calls (coreOf c) = some { k with stop := true }) ∧
        (k.begun = false → tget t.cr.calls (coreOf c) = none ∧
          tget (t.ctx c).res 0x281 = some (ofW (progressWord k)) ∧
          (t.ctx c).reissue = some ⟨k.rout, k.slot, k.wb, k.num, false⟩))) ∧
    (∀ b, tget s.tm.boards s.ev.a = some b → bV b = true → swapReady s s.ev.a b = true →
      ∃ t u v, exec .swapOut s = .next t ∧ t = placementRun u ∧ tget u.tm.boards s.ev.a = none ∧ v ∈ u.tm.swaps ∧
        v.lid = bLid b ∧ v.team = bTeam b ∧ v.key = s.ev.a ∧ v.word = b ∧ v.ctxs.map (·.1) = membersOf s.ev.a b ∧
        (∃ w ∈ u.tm.waiting, w.lid = bLid b ∧ w.team = bTeam b) ∧ s.ev.a ∉ u.tm.leaving ∧
        (∀ e ∈ u.cr.banks, e.2.holder ∉ membersOf s.ev.a b) ∧
        (s.ms.holds = [] → u.ms.mem = s.ms.mem ∧ u.ms.spad = s.ms.spad)) ∧
    (∀ w, tget s.tm.placing s.ev.a = some w → s.rt.zitrum = false →
      ∃ t, exec .swapIn s = .next t ∧ t.tm = s.tm ∧ t.ctxs = s.ctxs ∧ t.ms = s.ms) ∧
    (∀ w v c x, tget s.tm.placing s.ev.a = some w → s.rt.zitrum = true →
      s.tm.swaps.find? (fun v => v.lid == bLid w && v.team == bTeam w) = some v → membersOf s.ev.a w = [c] →
      v.ctxs = [(c, x)] → x.run = .preempted → x.pulled = [] → x.pulledPops = [] →
      ∃ t, exec .swapIn s = .next t ∧ tget t.tm.boards s.ev.a = some w ∧ tget t.tm.placing s.ev.a = none ∧
        (∀ u ∈ t.tm.swaps, ¬ (u.lid = v.lid ∧ u.team = v.team)) ∧
        (s.ms.holds = [] → t.ms.mem = s.ms.mem) ∧
        (t.ctx c).run = .running ∧ (t.ctx c).slot = s.ev.a ∧ (t.ctx c).regs = x.regs ∧ (t.ctx c).pc = x.pc ∧
        (t.ctx c).flags = x.flags ∧ (t.ctx c).queues = x.queues)

/-- R184, R186, R190, R206, R227, R229, R234. The Setts are filled from GAINS; a pop that waits takes the best item; items
in transit are inserted. At a period boundary what was written for it comes into force. At a step boundary the step is
counted and every member that waits goes on; an abandoned step gives its pages back what stood in them when it began. That
the pages and the Setts of the step's beginning come back at once is the model's choice (log entries 55 and 73). -/
def Obligations.BoundariesAndSetts : Prop :=
  ∀ (s : State),
    (∀ l ps, tget s.tm.launches s.ev.a = some l → l.filled = false → s.ms.holds = [] →
      taskPieces s l.ranges l.comp false [kAtomic, kConst] (cutRange (l.word 7) (8 * l.nitems)) = .ok ps →
      ∃ t u l', exec .settFill s = .next t ∧ t = placementRun u ∧ tget u.tm.launches s.ev.a = some l' ∧
        l'.filled = true ∧ u.ms.mem = s.ms.mem ∧
        (∀ j, j < l.sdies →
          ∃ st, tget u.tm.setts (settKey s.ev.a (l.sdie0 + j)) = some st ∧ st.waits = [] ∧
            st.items = settItems l ((List.range l.nitems).map fun i =>
              sextInt (bytesNat (((readPieces s ps).drop (8 * i)).take 8)) 64) j)) ∧
    (∀ l st w i x, let key := s.ev.a
      s.ev.b ≠ 1 → tget s.tm.setts key = some st → tget s.tm.launches (key / 16) = some l → l.endCode = 0 → modeDet l.mode = false →
      replaying s (key / 16) (key % 16) = false → st.lid = key / 16 → st.waits = [w] → popTakes l.floor st.items i x →
      ∃ t st', exec .settPopAnswer s = .next t ∧ tget t.tm.setts key = some st' ∧ st'.waits = [] ∧
        tget st'.items i = some { x with runner := some w.ctx } ∧
        (t.ctx w.ctx).held = (s.ctx w.ctx).held ++ [i] ∧
        t.ms.arrivals = s.ms.arrivals ++
          [{ id := s.nextId, ctx := w.ctx, dest := w.dest, val := some (ofW (BitVec.ofNat 64 i)), addr := 0, loc := 0 }]) ∧
    (∀ tr r, s.tm.transits.find? (fun t => t.lid == s.ev.a) = some tr →
      tget s.tm.setts (settKey s.ev.a tr.receiver) = some r →
      ∃ t u r', exec .receiverInsertsItems s = .next t ∧
        t = serveSett (settTest u s.ev.a false) (settKey s.ev.a tr.receiver) ∧ u.tm.transits = s.tm.transits.erase tr ∧
        tget u.tm.setts (settKey s.ev.a tr.receiver) = some r' ∧ r'.waits = r.waits ∧
        (∀ i x, tr.items = [(i, x)] → tget r'.items i = some { x with transit := false } ∧
          ∀ j, j ≠ i → tget r'.items j = tget r.items j) ∧ u.ms = s.ms) ∧
    (∃ t u, exec .timetablePeriodBoundary s = .next t ∧ t = zitrumPeriod (handSwitch u) ∧
      u.tt.periods = s.tt.periods + 1 ∧ u.tt.nextBoundary = s.cycle + per256 s * 256 ∧ u.tt.ctlNext = [] ∧
      u.tt.clsNext = [] ∧ u.tt.lentOut = [] ∧ (∀ k b, s.tt.clsNext = [(k, b)] → tget u.tt.cls k = some b ∧
        ∀ j, j ≠ k → tget u.tt.cls j = tget s.tt.cls j) ∧
      (s.tt.clsNext = [] → u.tt.cls = s.tt.cls) ∧ (∀ b ∈ u.tt.budgets, ∃ o ∈ s.tt.budgets, o.left < 0 ∧
        b = { o with left := allot u o.die o.cls o.res + o.left }) ∧ u = { s with tt := u.tt }) ∧
    (∀ l, tget s.tm.launches s.ev.a = some l → l.lid = s.ev.a →
      ∃ t, exec .stepBoundary s = .next t ∧ (stepReady s l = false → t = s) ∧
        (stepReady s l = true → s.ho.waiting = [] → s.ms.holds = [] →
          (∃ l', tget t.tm.launches s.ev.a = some l' ∧ l'.steps = l.steps + 1 ∧ l'.abandons = 0) ∧
          t.ms.mem = s.ms.mem ∧
          ∀ e ∈ boardsOf s s.ev.a, ∀ c ∈ membersOf e.1 e.2, (s.ctx c).atStep = true →
            (t.ctx c).atStep = false ∧ (t.ctx c).stepped = true ∧ (t.ctx c).regs = (s.ctx c).regs)) ∧
    (∀ l, tget s.tm.launches s.ev.a = some l → l.lid = s.ev.a → s.ev.c = 1 → s.rt.zitrum = true → mayRun l = true → modeDet l.mode = true →
      ∃ t l', exec .stepAbandon s = .next t ∧ tget t.tm.launches s.ev.a = some l' ∧ l'.aband = some s.ev.b ∧
        t.ms.mem = s.ms.mem ∧ ∀ e ∈ boardsOf s s.ev.a, ∀ c ∈ membersOf e.1 e.2, (t.ctx c).run ≠ .running) ∧
    (∀ l page bs, tget s.tm.launches s.ev.a = some l → l.lid = s.ev.a → s.ev.c = 2 → abandReady s l s.ev.b = true →
      l.abandons < 7 → l.noUndo = false → l.journal = [(page, bs)] → bs.length = 4096 → s.ms.failPorts = [] →
      memoriesOk s = true →
      ∃ t u l', exec .stepAbandon s = .next t ∧ t = endHomeless (placementRun u) ∧ tget u.tm.launches s.ev.a = some l' ∧
        l'.abandons = l.abandons + 1 ∧ l'.aband = none ∧ l'.journal = [] ∧
        bytesPut s.ms.mem u.ms.mem (page * 4096) 4096 (fun k => bs.getD k 0))

/-! ### Words, steps and the whole machine -/

/-- R240, R242, R254, R258, R271. Encoding and decoding agree on every move: the word of a well-formed one decodes to it, but
for the rows of `mx.call` and `sys.svc`, which share one word each; and a word that decodes is the word of a well-formed
move. -/
def Obligations.EncodeAndDecodeAgree : Prop :=
  (∀ (i : Instr) (w : BitVec 24), i.wf = true → encode i = some w →
    decodeMove w = .ok (portRow i) ∧ decodeTableWord 24 w.toNat = some (portRow i)) ∧
  (∀ (w : BitVec 24) (i : Instr), decodeMove w = .ok i → i.wf = true ∧ encode i = some w) ∧
  ∀ i : Instr, (moveOf i).isSome = true → (encode i).isSome = true

/-- R240, R258, R271, R287, R288. Words written out from the layout GUARD, SRC, DST, F decode to the moves that they stand
for: a register move, an operand port, a guard, a queue tail, and one trigger of each unit block; an unassigned
destination, a reserved source and an F without a register are refused by name. -/
def Obligations.WordsDecode : Prop :=
  decodeMove (0b000#3 ++ 0b1100000101#10 ++ 0b0001000011#10 ++ 0b1#1) = .ok (.moveRegister 0x43 ⟨0, 0x305, true⟩) ∧
  decodeMove (0b000#3 ++ 0b0000000101#10 ++ 0b1000100000#10 ++ 0b0#1) = .ok (.operandPortWrite 0x220 ⟨0, 0x005, false⟩) ∧
  decodeMove (0b010#3 ++ 0b0000000101#10 ++ 0b1111000011#10 ++ 0b0#1) = .ok (.guardWrite 3 ⟨2, 0x005, false⟩) ∧
  decodeMove (0b000#3 ++ 0b1100000001#10 ++ 0b1111011001#10 ++ 0b0#1) = .ok (.queuePush 9 ⟨0, 0x301, false⟩) ∧
  decodeMove (0b001#3 ++ 0b1100000001#10 ++ 0b1000101000#10 ++ 0b0#1) = .ok (.iaAdd 1 ⟨1, 0x301, false⟩) ∧
  decodeMove (0b000#3 ++ 0b1101000000#10 ++ 0b1001000110#10 ++ 0b0#1) = .ok (.amMul ⟨0, 0x340, false⟩) ∧
  decodeMove (0b111#3 ++ 0b1101000010#10 ++ 0b1001101001#10 ++ 0b0#1) = .ok (.brJnz ⟨7, 0x342, false⟩) ∧
  decodeMove (0b000#3 ++ 0b0001000001#10 ++ 0b1010101000#10 ++ 0b1#1) = .ok (.lsLd32 1 ⟨0, 0x041, true⟩) ∧
  decodeMove (0b000#3 ++ 0b0010000010#10 ++ 0b1011001011#10 ++ 0b0#1) = .ok (.vxFma ⟨0, 0x082, false⟩) ∧
  decodeMove (0b000#3 ++ 0b0010000010#10 ++ 0b1100010010#10 ++ 0b0#1) = .ok (.vsCvt ⟨0, 0x082, false⟩) ∧
  decodeMove (0b000#3 ++ 0b1100000100#10 ++ 0b1101010001#10 ++ 0b0#1) = .ok (.mxAlloc ⟨0, 0x304, false⟩) ∧
  decodeMove (0b000#3 ++ 0b1100000000#10 ++ 0b1101101010#10 ++ 0b0#1) = .ok (.ecPopen ⟨0, 0x300, false⟩) ∧
  decodeMove (0b000#3 ++ 0b1110000011#10 ++ 0b1110010011#10 ++ 0b0#1) = .ok (.syFence ⟨0, 0x383, false⟩) ∧
  decodeMove (0b000#3 ++ 0b1100000000#10 ++ 0b1110100100#10 ++ 0b0#1) = .ok (.sysExit ⟨0, 0x300, false⟩) ∧
  decodeMove (0b000#3 ++ 0b1100000000#10 ++ 0b1000000011#10 ++ 0b0#1) = .error (.badDst 0x203) ∧
  decodeMove (0b000#3 ++ 0b1110010000#10 ++ 0b1111111111#10 ++ 0b0#1) = .error (.badSrc 0x390) ∧
  decodeMove (0b000#3 ++ 0b1100000000#10 ++ 0b1111111111#10 ++ 0b1#1) = .error .illMove

/-- R22, R238, R265. A step takes the events from outside first; then, where nothing falls due before the issue of the
cycle, the context whose turn it is issues the bundle at its program counter: a bundle of one sound move runs as that
instruction, and any other as a whole, by its decode trap or its moves; and where nothing is left to be done the cycle
ends. The order of what falls due within a cycle is log entry 11, and that events from outside come first log entry 13. -/
def Obligations.StepsRunBundles : Prop :=
  ∀ (s : State),
    (∀ e rest, s.inputs = e :: rest → moveOf e.row = none → (s.powered = true ∨ e.row = .powerUp) → waitsBehind s e = false →
      step s = exec e.row { s with inputs := rest, ev := e.arg }) ∧
    (∀ c b, s.inputs = [] → s.powered = true → beforeIssue s = none → turnDue s = some c → limitReached s c = false →
      (s.ctx c).reissue = none → downDue s c = none → (s.ctx c).pendTrap = none →
      s.cr.failBundle.contains (fetchKey s c) = false → fetch s c = some b →
      let u := s.modCtx c fun x => { x with tried := some s.cycle }
      (∀ k i, bundleTrap b = none → usedSlots b = [k] → decodeMove (slotOf b k) = .ok i →
        let v := { u with ev := {}, iss := latchOf c b k }
        step s = exec (rowOf i (lowValue u c (mvOfWord (slotOf b k).toNat) (limmOf b))) v ∧
        (portRow i = i → (∀ m, i ≠ .mmB4 m) → (∀ m, i ≠ .sysSvcReport m) → step s = exec i v)) ∧
      (bundleTrap b ≠ none ∨ (∃ j k rest, usedSlots b = j :: k :: rest) →
        step s = exec .bundleIssue { u with ev := { a := c } })) ∧
    (let c := s.ev.a
     ∀ b, (s.ctx c).run = .running → (s.ctx c).notBefore ≤ s.cycle → downDue s c = none → (s.ctx c).pendTrap = none →
      s.cr.failBundle.contains (fetchKey s c) = false → fetch s c = some b →
      exec .bundleIssue s = .next (match bundleTrap b with
        | some t => takeTrap c t s
        | none => issueItems c (limmOf b) (partsOf b) s)) ∧
    (s.inputs = [] → s.powered = true → nextTodo s = none →
      ∃ t, step s = .next t ∧ t = { s with cycle := s.cycle + 1, ctxs := t.ctxs } ∧
        ∀ c, (t.ctx c).regs = (s.ctx c).regs ∧ (t.ctx c).pc = (s.ctx c).pc)

/-- R6. Every step leaves the memories of the package in their canonical form. -/
def Obligations.MemoriesStayCanonical : Prop :=
  ∀ s t : State, memoriesOk s = true → step s = .next t → memoriesOk t = true

/-- R195, R235. No step lowers the fused floor of Zitrum's images: fuses are blown, and never restored. -/
def Obligations.FusesOnlyRise : Prop :=
  ∀ s t : State, step s = .next t → s.rt.floor ≤ t.rt.floor

/-- R8, R9, R50, R140, R168, R170, R196, R236, R248, R263, R288, R435. What the machine holds right after reset: no
slot is taken, no compartment and no launch exists; a context at its first bundle has every `.w` port at 0x3FF, every other
operand port, guard, flag, index base and pending-byte counter at 0; the registers of the host port hold their reset column,
the boot status among them.
The memories list nothing (log entry 3: they read as 0). -/
def Obligations.ResetHolds : Prop :=
  let s := State.reset
  memoriesOk s = true ∧ s.ms.mem = [] ∧ s.ms.spad = [] ∧ s.tm.boards = [] ∧ s.tm.launches = [] ∧ s.tt.comps = [] ∧
  s.tt.cls = [] ∧ s.rt.hand = none ∧ s.rt.handStatus = 0 ∧ s.ho.ncount = 0 ∧ s.ho.pkginfo = 0 ∧ s.ho.slots = [] ∧
  s.ho.windows = [] ∧ s.rt.bootStatus = 0 ∧ s.ho.stageGo = false ∧ (∀ p, (nimmetPort s p).status = 0) ∧
  ∀ c, let x := s.ctx c
    x.run = .unbound ∧ x.flags = 0 ∧ x.guards = 0 ∧ x.xs = 0 ∧ x.xd = 0 ∧ x.xv = 0 ∧ x.xh = 0 ∧
    (∀ scope, pendOf x.pend scope = 0) ∧ x.vectors = [] ∧ tact x = false ∧ (∀ q, queueOf x q = []) ∧
    ∀ p, opnd x p = if p = 0x202 ∨ p = 0x222 ∨ p = 0x242 ∨ p = 0x282 ∨ p = 0x2A2 ∨ p = 0x2C6 ∨ p = 0x307 ∨ p = 0x34A ∨
      p = 0x368 ∨ p = 0x382 ∨ p = 0x3A2 then 0x3FF else 0
end

