-- ==== Sys2Proof/Laws/Tables.lean ====
section
/-! SUPPORT. Laws of sparse tables and number sets: reading after writing, and after removing. -/

namespace Sys2Proof.Machine

theorem tget_isSome_mem {α : Type} (t : Tab α) (n : Nat) (h : (tget t n).isSome = true) : n ∈ t.map (·.1) := by
  induction t with
  | nil => simp [tget] at h
  | cons e t ih =>
    obtain ⟨k, w⟩ := e
    by_cases hk : k = n
    · simp [hk]
    · simp only [tget, hk, if_false] at h
      exact List.mem_cons_of_mem _ (ih h)

theorem tget_tput_same {α : Type} (n : Nat) (v : α) (t : Tab α) : tget (tput n v t) n = some v := by
  induction t with
  | nil => simp [tput, tget]
  | cons e t ih =>
    obtain ⟨k, w⟩ := e
    by_cases h : k = n
    · simp [tput, tget, h]
    · by_cases h2 : n < k <;> simp [tput, tget, h, h2, ih]

theorem tget_tput_other {α : Type} (n k : Nat) (v : α) (t : Tab α) (h : k ≠ n) :
    tget (tput n v t) k = tget t k := by
  induction t with
  | nil => simp [tput, tget, Ne.symm h]
  | cons e t ih =>
    obtain ⟨j, w⟩ := e
    by_cases hj : j = n
    · subst hj; simp [tput, tget, Ne.symm h]
    · by_cases h2 : n < j
      · simp [tput, tget, hj, h2, Ne.symm h]
      · simp [tput, tget, hj, h2, ih]

theorem tget_tput {α : Type} (n k : Nat) (v : α) (t : Tab α) :
    tget (tput n v t) k = if k = n then some v else tget t k := by
  by_cases h : k = n
  · subst h; simp [tget_tput_same]
  · simp [tget_tput_other _ _ _ _ h, h]

theorem tget_tdel_same {α : Type} (n : Nat) (t : Tab α) : tget (tdel n t) n = none := by
  induction t with
  | nil => rfl
  | cons e t ih =>
    obtain ⟨k, w⟩ := e
    by_cases h : k = n <;> simp [tdel, tget, h, ih]

theorem tget_tdel_other {α : Type} (n k : Nat) (t : Tab α) (h : k ≠ n) : tget (tdel n t) k = tget t k := by
  induction t with
  | nil => rfl
  | cons e t ih =>
    obtain ⟨j, w⟩ := e
    by_cases hj : j = n
    · subst hj; simp [tdel, tget, Ne.symm h, ih]
    · simp [tdel, tget, hj, ih]

theorem mem_sins (n k : Nat) (l : List Nat) : k ∈ sins n l ↔ k = n ∨ k ∈ l := by
  induction l with
  | nil => simp [sins]
  | cons j t ih =>
    simp only [sins]
    split
    · next h => simp [h]
    · split
      · simp
      · simp only [List.mem_cons, ih]
        constructor
        · rintro (h | h | h) <;> simp [h]
        · rintro (h | h | h) <;> simp [h]

theorem mem_sdel (n k : Nat) (l : List Nat) : k ∈ sdel n l ↔ k ≠ n ∧ k ∈ l := by
  induction l with
  | nil => simp [sdel]
  | cons j t ih =>
    simp only [sdel]
    split
    · next h =>
      subst h
      rw [ih]
      constructor
      · rintro ⟨h1, h2⟩; exact ⟨h1, List.mem_cons_of_mem _ h2⟩
      · rintro ⟨h1, h2⟩; rcases List.mem_cons.mp h2 with h3 | h3
        · exact absurd h3 h1
        · exact ⟨h1, h3⟩
    · next h =>
      simp only [List.mem_cons, ih]
      constructor
      · rintro (h1 | ⟨h1, h2⟩)
        · subst h1; exact ⟨h, Or.inl rfl⟩
        · exact ⟨h1, Or.inr h2⟩
      · rintro ⟨h1, h2 | h2⟩
        · exact Or.inl h2
        · exact Or.inr ⟨h1, h2⟩

end Sys2Proof.Machine
end

