-- ==== Sys2Proof/Laws/State.lean ====
section
/-! SUPPORT. What each update of the state leaves alone: one lemma per field and update; and contexts after an update. -/

namespace Sys2Proof.Machine

/-! R20. A context replaced. -/

@[simp] theorem setCtx_powered (s : State) (c : Nat) (x : Ctx) : (s.setCtx c x).powered = s.powered := rfl
@[simp] theorem setCtx_cycle (s : State) (c : Nat) (x : Ctx) : (s.setCtx c x).cycle = s.cycle := rfl
@[simp] theorem setCtx_ev (s : State) (c : Nat) (x : Ctx) : (s.setCtx c x).ev = s.ev := rfl
@[simp] theorem setCtx_inputs (s : State) (c : Nat) (x : Ctx) : (s.setCtx c x).inputs = s.inputs := rfl
@[simp] theorem setCtx_agenda (s : State) (c : Nat) (x : Ctx) : (s.setCtx c x).agenda = s.agenda := rfl
@[simp] theorem setCtx_delays (s : State) (c : Nat) (x : Ctx) : (s.setCtx c x).delays = s.delays := rfl
@[simp] theorem setCtx_free (s : State) (c : Nat) (x : Ctx) : (s.setCtx c x).free = s.free := rfl
@[simp] theorem setCtx_iss (s : State) (c : Nat) (x : Ctx) : (s.setCtx c x).iss = s.iss := rfl
@[simp] theorem setCtx_nextId (s : State) (c : Nat) (x : Ctx) : (s.setCtx c x).nextId = s.nextId := rfl
@[simp] theorem setCtx_cr (s : State) (c : Nat) (x : Ctx) : (s.setCtx c x).cr = s.cr := rfl
@[simp] theorem setCtx_ms (s : State) (c : Nat) (x : Ctx) : (s.setCtx c x).ms = s.ms := rfl
@[simp] theorem setCtx_tm (s : State) (c : Nat) (x : Ctx) : (s.setCtx c x).tm = s.tm := rfl
@[simp] theorem setCtx_en (s : State) (c : Nat) (x : Ctx) : (s.setCtx c x).en = s.en := rfl
@[simp] theorem setCtx_tt (s : State) (c : Nat) (x : Ctx) : (s.setCtx c x).tt = s.tt := rfl
@[simp] theorem setCtx_ho (s : State) (c : Nat) (x : Ctx) : (s.setCtx c x).ho = s.ho := rfl
@[simp] theorem setCtx_rt (s : State) (c : Nat) (x : Ctx) : (s.setCtx c x).rt = s.rt := rfl

/-! A context changed. -/

@[simp] theorem modCtx_powered (s : State) (c : Nat) (f : Ctx → Ctx) : (s.modCtx c f).powered = s.powered := rfl
@[simp] theorem modCtx_cycle (s : State) (c : Nat) (f : Ctx → Ctx) : (s.modCtx c f).cycle = s.cycle := rfl
@[simp] theorem modCtx_ev (s : State) (c : Nat) (f : Ctx → Ctx) : (s.modCtx c f).ev = s.ev := rfl
@[simp] theorem modCtx_inputs (s : State) (c : Nat) (f : Ctx → Ctx) : (s.modCtx c f).inputs = s.inputs := rfl
@[simp] theorem modCtx_agenda (s : State) (c : Nat) (f : Ctx → Ctx) : (s.modCtx c f).agenda = s.agenda := rfl
@[simp] theorem modCtx_delays (s : State) (c : Nat) (f : Ctx → Ctx) : (s.modCtx c f).delays = s.delays := rfl
@[simp] theorem modCtx_free (s : State) (c : Nat) (f : Ctx → Ctx) : (s.modCtx c f).free = s.free := rfl
@[simp] theorem modCtx_iss (s : State) (c : Nat) (f : Ctx → Ctx) : (s.modCtx c f).iss = s.iss := rfl
@[simp] theorem modCtx_nextId (s : State) (c : Nat) (f : Ctx → Ctx) : (s.modCtx c f).nextId = s.nextId := rfl
@[simp] theorem modCtx_cr (s : State) (c : Nat) (f : Ctx → Ctx) : (s.modCtx c f).cr = s.cr := rfl
@[simp] theorem modCtx_ms (s : State) (c : Nat) (f : Ctx → Ctx) : (s.modCtx c f).ms = s.ms := rfl
@[simp] theorem modCtx_tm (s : State) (c : Nat) (f : Ctx → Ctx) : (s.modCtx c f).tm = s.tm := rfl
@[simp] theorem modCtx_en (s : State) (c : Nat) (f : Ctx → Ctx) : (s.modCtx c f).en = s.en := rfl
@[simp] theorem modCtx_tt (s : State) (c : Nat) (f : Ctx → Ctx) : (s.modCtx c f).tt = s.tt := rfl
@[simp] theorem modCtx_ho (s : State) (c : Nat) (f : Ctx → Ctx) : (s.modCtx c f).ho = s.ho := rfl
@[simp] theorem modCtx_rt (s : State) (c : Nat) (f : Ctx → Ctx) : (s.modCtx c f).rt = s.rt := rfl

/-! R22. A core replaced. -/

@[simp] theorem setCore_powered (s : State) (k : Nat) (x : Core) : (s.setCore k x).powered = s.powered := rfl
@[simp] theorem setCore_cycle (s : State) (k : Nat) (x : Core) : (s.setCore k x).cycle = s.cycle := rfl
@[simp] theorem setCore_ev (s : State) (k : Nat) (x : Core) : (s.setCore k x).ev = s.ev := rfl
@[simp] theorem setCore_inputs (s : State) (k : Nat) (x : Core) : (s.setCore k x).inputs = s.inputs := rfl
@[simp] theorem setCore_agenda (s : State) (k : Nat) (x : Core) : (s.setCore k x).agenda = s.agenda := rfl
@[simp] theorem setCore_delays (s : State) (k : Nat) (x : Core) : (s.setCore k x).delays = s.delays := rfl
@[simp] theorem setCore_free (s : State) (k : Nat) (x : Core) : (s.setCore k x).free = s.free := rfl
@[simp] theorem setCore_iss (s : State) (k : Nat) (x : Core) : (s.setCore k x).iss = s.iss := rfl
@[simp] theorem setCore_nextId (s : State) (k : Nat) (x : Core) : (s.setCore k x).nextId = s.nextId := rfl
@[simp] theorem setCore_ctxs (s : State) (k : Nat) (x : Core) : (s.setCore k x).ctxs = s.ctxs := rfl
@[simp] theorem setCore_ms (s : State) (k : Nat) (x : Core) : (s.setCore k x).ms = s.ms := rfl
@[simp] theorem setCore_tm (s : State) (k : Nat) (x : Core) : (s.setCore k x).tm = s.tm := rfl
@[simp] theorem setCore_en (s : State) (k : Nat) (x : Core) : (s.setCore k x).en = s.en := rfl
@[simp] theorem setCore_tt (s : State) (k : Nat) (x : Core) : (s.setCore k x).tt = s.tt := rfl
@[simp] theorem setCore_ho (s : State) (k : Nat) (x : Core) : (s.setCore k x).ho = s.ho := rfl
@[simp] theorem setCore_rt (s : State) (k : Nat) (x : Core) : (s.setCore k x).rt = s.rt := rfl

/-! A launch changed. -/

@[simp] theorem modLaunch_powered (s : State) (n : Nat) (f : Launch → Launch) : (s.modLaunch n f).powered = s.powered := by unfold State.modLaunch; split <;> rfl
@[simp] theorem modLaunch_cycle (s : State) (n : Nat) (f : Launch → Launch) : (s.modLaunch n f).cycle = s.cycle := by unfold State.modLaunch; split <;> rfl
@[simp] theorem modLaunch_ev (s : State) (n : Nat) (f : Launch → Launch) : (s.modLaunch n f).ev = s.ev := by unfold State.modLaunch; split <;> rfl
@[simp] theorem modLaunch_inputs (s : State) (n : Nat) (f : Launch → Launch) : (s.modLaunch n f).inputs = s.inputs := by unfold State.modLaunch; split <;> rfl
@[simp] theorem modLaunch_agenda (s : State) (n : Nat) (f : Launch → Launch) : (s.modLaunch n f).agenda = s.agenda := by unfold State.modLaunch; split <;> rfl
@[simp] theorem modLaunch_delays (s : State) (n : Nat) (f : Launch → Launch) : (s.modLaunch n f).delays = s.delays := by unfold State.modLaunch; split <;> rfl
@[simp] theorem modLaunch_free (s : State) (n : Nat) (f : Launch → Launch) : (s.modLaunch n f).free = s.free := by unfold State.modLaunch; split <;> rfl
@[simp] theorem modLaunch_iss (s : State) (n : Nat) (f : Launch → Launch) : (s.modLaunch n f).iss = s.iss := by unfold State.modLaunch; split <;> rfl
@[simp] theorem modLaunch_nextId (s : State) (n : Nat) (f : Launch → Launch) : (s.modLaunch n f).nextId = s.nextId := by unfold State.modLaunch; split <;> rfl
@[simp] theorem modLaunch_ctxs (s : State) (n : Nat) (f : Launch → Launch) : (s.modLaunch n f).ctxs = s.ctxs := by unfold State.modLaunch; split <;> rfl
@[simp] theorem modLaunch_cr (s : State) (n : Nat) (f : Launch → Launch) : (s.modLaunch n f).cr = s.cr := by unfold State.modLaunch; split <;> rfl
@[simp] theorem modLaunch_ms (s : State) (n : Nat) (f : Launch → Launch) : (s.modLaunch n f).ms = s.ms := by unfold State.modLaunch; split <;> rfl
@[simp] theorem modLaunch_en (s : State) (n : Nat) (f : Launch → Launch) : (s.modLaunch n f).en = s.en := by unfold State.modLaunch; split <;> rfl
@[simp] theorem modLaunch_tt (s : State) (n : Nat) (f : Launch → Launch) : (s.modLaunch n f).tt = s.tt := by unfold State.modLaunch; split <;> rfl
@[simp] theorem modLaunch_ho (s : State) (n : Nat) (f : Launch → Launch) : (s.modLaunch n f).ho = s.ho := by unfold State.modLaunch; split <;> rfl
@[simp] theorem modLaunch_rt (s : State) (n : Nat) (f : Launch → Launch) : (s.modLaunch n f).rt = s.rt := by unfold State.modLaunch; split <;> rfl

/-! An event put on the agenda. -/

@[simp] theorem after_powered (s : State) (t : Nat) (e : Bool) (r : Instr) (a : EvArg) : (s.after t e r a).powered = s.powered := rfl
@[simp] theorem after_cycle (s : State) (t : Nat) (e : Bool) (r : Instr) (a : EvArg) : (s.after t e r a).cycle = s.cycle := rfl
@[simp] theorem after_ev (s : State) (t : Nat) (e : Bool) (r : Instr) (a : EvArg) : (s.after t e r a).ev = s.ev := rfl
@[simp] theorem after_inputs (s : State) (t : Nat) (e : Bool) (r : Instr) (a : EvArg) : (s.after t e r a).inputs = s.inputs := rfl
@[simp] theorem after_delays (s : State) (t : Nat) (e : Bool) (r : Instr) (a : EvArg) : (s.after t e r a).delays = s.delays := rfl
@[simp] theorem after_free (s : State) (t : Nat) (e : Bool) (r : Instr) (a : EvArg) : (s.after t e r a).free = s.free := rfl
@[simp] theorem after_iss (s : State) (t : Nat) (e : Bool) (r : Instr) (a : EvArg) : (s.after t e r a).iss = s.iss := rfl
@[simp] theorem after_nextId (s : State) (t : Nat) (e : Bool) (r : Instr) (a : EvArg) : (s.after t e r a).nextId = s.nextId := rfl
@[simp] theorem after_ctxs (s : State) (t : Nat) (e : Bool) (r : Instr) (a : EvArg) : (s.after t e r a).ctxs = s.ctxs := rfl
@[simp] theorem after_cr (s : State) (t : Nat) (e : Bool) (r : Instr) (a : EvArg) : (s.after t e r a).cr = s.cr := rfl
@[simp] theorem after_ms (s : State) (t : Nat) (e : Bool) (r : Instr) (a : EvArg) : (s.after t e r a).ms = s.ms := rfl
@[simp] theorem after_tm (s : State) (t : Nat) (e : Bool) (r : Instr) (a : EvArg) : (s.after t e r a).tm = s.tm := rfl
@[simp] theorem after_en (s : State) (t : Nat) (e : Bool) (r : Instr) (a : EvArg) : (s.after t e r a).en = s.en := rfl
@[simp] theorem after_tt (s : State) (t : Nat) (e : Bool) (r : Instr) (a : EvArg) : (s.after t e r a).tt = s.tt := rfl
@[simp] theorem after_ho (s : State) (t : Nat) (e : Bool) (r : Instr) (a : EvArg) : (s.after t e r a).ho = s.ho := rfl
@[simp] theorem after_rt (s : State) (t : Nat) (e : Bool) (r : Instr) (a : EvArg) : (s.after t e r a).rt = s.rt := rfl

/-! An event taken off the agenda. -/

@[simp] theorem cancel_powered (s : State) (r : Instr) (a : Nat) : (s.cancel r a).powered = s.powered := rfl
@[simp] theorem cancel_cycle (s : State) (r : Instr) (a : Nat) : (s.cancel r a).cycle = s.cycle := rfl
@[simp] theorem cancel_ev (s : State) (r : Instr) (a : Nat) : (s.cancel r a).ev = s.ev := rfl
@[simp] theorem cancel_inputs (s : State) (r : Instr) (a : Nat) : (s.cancel r a).inputs = s.inputs := rfl
@[simp] theorem cancel_delays (s : State) (r : Instr) (a : Nat) : (s.cancel r a).delays = s.delays := rfl
@[simp] theorem cancel_free (s : State) (r : Instr) (a : Nat) : (s.cancel r a).free = s.free := rfl
@[simp] theorem cancel_iss (s : State) (r : Instr) (a : Nat) : (s.cancel r a).iss = s.iss := rfl
@[simp] theorem cancel_nextId (s : State) (r : Instr) (a : Nat) : (s.cancel r a).nextId = s.nextId := rfl
@[simp] theorem cancel_ctxs (s : State) (r : Instr) (a : Nat) : (s.cancel r a).ctxs = s.ctxs := rfl
@[simp] theorem cancel_cr (s : State) (r : Instr) (a : Nat) : (s.cancel r a).cr = s.cr := rfl
@[simp] theorem cancel_ms (s : State) (r : Instr) (a : Nat) : (s.cancel r a).ms = s.ms := rfl
@[simp] theorem cancel_tm (s : State) (r : Instr) (a : Nat) : (s.cancel r a).tm = s.tm := rfl
@[simp] theorem cancel_en (s : State) (r : Instr) (a : Nat) : (s.cancel r a).en = s.en := rfl
@[simp] theorem cancel_tt (s : State) (r : Instr) (a : Nat) : (s.cancel r a).tt = s.tt := rfl
@[simp] theorem cancel_ho (s : State) (r : Instr) (a : Nat) : (s.cancel r a).ho = s.ho := rfl
@[simp] theorem cancel_rt (s : State) (r : Instr) (a : Nat) : (s.cancel r a).rt = s.rt := rfl

/-! R260. A result sent. -/

@[simp] theorem fly_powered (s : State) (c : Nat) (f : Flight) : (s.fly c f).powered = s.powered := rfl
@[simp] theorem fly_cycle (s : State) (c : Nat) (f : Flight) : (s.fly c f).cycle = s.cycle := rfl
@[simp] theorem fly_ev (s : State) (c : Nat) (f : Flight) : (s.fly c f).ev = s.ev := rfl
@[simp] theorem fly_inputs (s : State) (c : Nat) (f : Flight) : (s.fly c f).inputs = s.inputs := rfl
@[simp] theorem fly_agenda (s : State) (c : Nat) (f : Flight) : (s.fly c f).agenda = s.agenda := rfl
@[simp] theorem fly_delays (s : State) (c : Nat) (f : Flight) : (s.fly c f).delays = s.delays := rfl
@[simp] theorem fly_free (s : State) (c : Nat) (f : Flight) : (s.fly c f).free = s.free := rfl
@[simp] theorem fly_iss (s : State) (c : Nat) (f : Flight) : (s.fly c f).iss = s.iss := rfl
@[simp] theorem fly_nextId (s : State) (c : Nat) (f : Flight) : (s.fly c f).nextId = s.nextId := rfl
@[simp] theorem fly_cr (s : State) (c : Nat) (f : Flight) : (s.fly c f).cr = s.cr := rfl
@[simp] theorem fly_ms (s : State) (c : Nat) (f : Flight) : (s.fly c f).ms = s.ms := rfl
@[simp] theorem fly_tm (s : State) (c : Nat) (f : Flight) : (s.fly c f).tm = s.tm := rfl
@[simp] theorem fly_en (s : State) (c : Nat) (f : Flight) : (s.fly c f).en = s.en := rfl
@[simp] theorem fly_tt (s : State) (c : Nat) (f : Flight) : (s.fly c f).tt = s.tt := rfl
@[simp] theorem fly_ho (s : State) (c : Nat) (f : Flight) : (s.fly c f).ho = s.ho := rfl
@[simp] theorem fly_rt (s : State) (c : Nat) (f : Flight) : (s.fly c f).rt = s.rt := rfl

/-! R414. A count. -/

@[simp] theorem bump_powered (s : State) (c e n : Nat) : (s.bump c e n).powered = s.powered := rfl
@[simp] theorem bump_cycle (s : State) (c e n : Nat) : (s.bump c e n).cycle = s.cycle := rfl
@[simp] theorem bump_ev (s : State) (c e n : Nat) : (s.bump c e n).ev = s.ev := rfl
@[simp] theorem bump_inputs (s : State) (c e n : Nat) : (s.bump c e n).inputs = s.inputs := rfl
@[simp] theorem bump_agenda (s : State) (c e n : Nat) : (s.bump c e n).agenda = s.agenda := rfl
@[simp] theorem bump_delays (s : State) (c e n : Nat) : (s.bump c e n).delays = s.delays := rfl
@[simp] theorem bump_free (s : State) (c e n : Nat) : (s.bump c e n).free = s.free := rfl
@[simp] theorem bump_iss (s : State) (c e n : Nat) : (s.bump c e n).iss = s.iss := rfl
@[simp] theorem bump_nextId (s : State) (c e n : Nat) : (s.bump c e n).nextId = s.nextId := rfl
@[simp] theorem bump_cr (s : State) (c e n : Nat) : (s.bump c e n).cr = s.cr := rfl
@[simp] theorem bump_ms (s : State) (c e n : Nat) : (s.bump c e n).ms = s.ms := rfl
@[simp] theorem bump_tm (s : State) (c e n : Nat) : (s.bump c e n).tm = s.tm := rfl
@[simp] theorem bump_en (s : State) (c e n : Nat) : (s.bump c e n).en = s.en := rfl
@[simp] theorem bump_tt (s : State) (c e n : Nat) : (s.bump c e n).tt = s.tt := rfl
@[simp] theorem bump_ho (s : State) (c e n : Nat) : (s.bump c e n).ho = s.ho := rfl
@[simp] theorem bump_rt (s : State) (c e n : Nat) : (s.bump c e n).rt = s.rt := rfl

/-! R228. A step to be abandoned. -/

@[simp] theorem askAbandon_powered (s : State) (n w : Nat) : (s.askAbandon n w).powered = s.powered := rfl
@[simp] theorem askAbandon_cycle (s : State) (n w : Nat) : (s.askAbandon n w).cycle = s.cycle := rfl
@[simp] theorem askAbandon_ev (s : State) (n w : Nat) : (s.askAbandon n w).ev = s.ev := rfl
@[simp] theorem askAbandon_inputs (s : State) (n w : Nat) : (s.askAbandon n w).inputs = s.inputs := rfl
@[simp] theorem askAbandon_delays (s : State) (n w : Nat) : (s.askAbandon n w).delays = s.delays := rfl
@[simp] theorem askAbandon_free (s : State) (n w : Nat) : (s.askAbandon n w).free = s.free := rfl
@[simp] theorem askAbandon_iss (s : State) (n w : Nat) : (s.askAbandon n w).iss = s.iss := rfl
@[simp] theorem askAbandon_nextId (s : State) (n w : Nat) : (s.askAbandon n w).nextId = s.nextId := rfl
@[simp] theorem askAbandon_ctxs (s : State) (n w : Nat) : (s.askAbandon n w).ctxs = s.ctxs := rfl
@[simp] theorem askAbandon_cr (s : State) (n w : Nat) : (s.askAbandon n w).cr = s.cr := rfl
@[simp] theorem askAbandon_ms (s : State) (n w : Nat) : (s.askAbandon n w).ms = s.ms := rfl
@[simp] theorem askAbandon_tm (s : State) (n w : Nat) : (s.askAbandon n w).tm = s.tm := rfl
@[simp] theorem askAbandon_en (s : State) (n w : Nat) : (s.askAbandon n w).en = s.en := rfl
@[simp] theorem askAbandon_tt (s : State) (n w : Nat) : (s.askAbandon n w).tt = s.tt := rfl
@[simp] theorem askAbandon_ho (s : State) (n w : Nat) : (s.askAbandon n w).ho = s.ho := rfl
@[simp] theorem askAbandon_rt (s : State) (n w : Nat) : (s.askAbandon n w).rt = s.rt := rfl

/-! R22. A bundle issued. -/

@[simp] theorem noteIssue_powered (s : State) (c : Nat) : (s.noteIssue c).powered = s.powered := rfl
@[simp] theorem noteIssue_cycle (s : State) (c : Nat) : (s.noteIssue c).cycle = s.cycle := rfl
@[simp] theorem noteIssue_ev (s : State) (c : Nat) : (s.noteIssue c).ev = s.ev := rfl
@[simp] theorem noteIssue_inputs (s : State) (c : Nat) : (s.noteIssue c).inputs = s.inputs := rfl
@[simp] theorem noteIssue_agenda (s : State) (c : Nat) : (s.noteIssue c).agenda = s.agenda := rfl
@[simp] theorem noteIssue_delays (s : State) (c : Nat) : (s.noteIssue c).delays = s.delays := rfl
@[simp] theorem noteIssue_free (s : State) (c : Nat) : (s.noteIssue c).free = s.free := rfl
@[simp] theorem noteIssue_iss (s : State) (c : Nat) : (s.noteIssue c).iss = s.iss := rfl
@[simp] theorem noteIssue_nextId (s : State) (c : Nat) : (s.noteIssue c).nextId = s.nextId := rfl
@[simp] theorem noteIssue_ctxs (s : State) (c : Nat) : (s.noteIssue c).ctxs = s.ctxs := rfl
@[simp] theorem noteIssue_ms (s : State) (c : Nat) : (s.noteIssue c).ms = s.ms := rfl
@[simp] theorem noteIssue_tm (s : State) (c : Nat) : (s.noteIssue c).tm = s.tm := rfl
@[simp] theorem noteIssue_en (s : State) (c : Nat) : (s.noteIssue c).en = s.en := rfl
@[simp] theorem noteIssue_tt (s : State) (c : Nat) : (s.noteIssue c).tt = s.tt := rfl
@[simp] theorem noteIssue_ho (s : State) (c : Nat) : (s.noteIssue c).ho = s.ho := rfl
@[simp] theorem noteIssue_rt (s : State) (c : Nat) : (s.noteIssue c).rt = s.rt := rfl

/-! R265. A bundle held. -/

@[simp] theorem holdBundle_powered (s : State) (c : Nat) (b : Wait) : (s.holdBundle c b).powered = s.powered := rfl
@[simp] theorem holdBundle_cycle (s : State) (c : Nat) (b : Wait) : (s.holdBundle c b).cycle = s.cycle := rfl
@[simp] theorem holdBundle_ev (s : State) (c : Nat) (b : Wait) : (s.holdBundle c b).ev = s.ev := rfl
@[simp] theorem holdBundle_inputs (s : State) (c : Nat) (b : Wait) : (s.holdBundle c b).inputs = s.inputs := rfl
@[simp] theorem holdBundle_agenda (s : State) (c : Nat) (b : Wait) : (s.holdBundle c b).agenda = s.agenda := rfl
@[simp] theorem holdBundle_delays (s : State) (c : Nat) (b : Wait) : (s.holdBundle c b).delays = s.delays := rfl
@[simp] theorem holdBundle_free (s : State) (c : Nat) (b : Wait) : (s.holdBundle c b).free = s.free := rfl
@[simp] theorem holdBundle_iss (s : State) (c : Nat) (b : Wait) : (s.holdBundle c b).iss = s.iss := rfl
@[simp] theorem holdBundle_nextId (s : State) (c : Nat) (b : Wait) : (s.holdBundle c b).nextId = s.nextId := rfl
@[simp] theorem holdBundle_cr (s : State) (c : Nat) (b : Wait) : (s.holdBundle c b).cr = s.cr := rfl
@[simp] theorem holdBundle_ms (s : State) (c : Nat) (b : Wait) : (s.holdBundle c b).ms = s.ms := rfl
@[simp] theorem holdBundle_tm (s : State) (c : Nat) (b : Wait) : (s.holdBundle c b).tm = s.tm := rfl
@[simp] theorem holdBundle_en (s : State) (c : Nat) (b : Wait) : (s.holdBundle c b).en = s.en := rfl
@[simp] theorem holdBundle_tt (s : State) (c : Nat) (b : Wait) : (s.holdBundle c b).tt = s.tt := rfl
@[simp] theorem holdBundle_ho (s : State) (c : Nat) (b : Wait) : (s.holdBundle c b).ho = s.ho := rfl
@[simp] theorem holdBundle_rt (s : State) (c : Nat) (b : Wait) : (s.holdBundle c b).rt = s.rt := rfl

/-! What `delay` leaves alone. -/

@[simp] theorem delay_powered (s : State) : (s.delay.2).powered = s.powered := by unfold State.delay; split <;> rfl
@[simp] theorem delay_cycle (s : State) : (s.delay.2).cycle = s.cycle := by unfold State.delay; split <;> rfl
@[simp] theorem delay_ev (s : State) : (s.delay.2).ev = s.ev := by unfold State.delay; split <;> rfl
@[simp] theorem delay_inputs (s : State) : (s.delay.2).inputs = s.inputs := by unfold State.delay; split <;> rfl
@[simp] theorem delay_agenda (s : State) : (s.delay.2).agenda = s.agenda := by unfold State.delay; split <;> rfl
@[simp] theorem delay_free (s : State) : (s.delay.2).free = s.free := by unfold State.delay; split <;> rfl
@[simp] theorem delay_iss (s : State) : (s.delay.2).iss = s.iss := by unfold State.delay; split <;> rfl
@[simp] theorem delay_nextId (s : State) : (s.delay.2).nextId = s.nextId := by unfold State.delay; split <;> rfl
@[simp] theorem delay_ctxs (s : State) : (s.delay.2).ctxs = s.ctxs := by unfold State.delay; split <;> rfl
@[simp] theorem delay_cr (s : State) : (s.delay.2).cr = s.cr := by unfold State.delay; split <;> rfl
@[simp] theorem delay_ms (s : State) : (s.delay.2).ms = s.ms := by unfold State.delay; split <;> rfl
@[simp] theorem delay_tm (s : State) : (s.delay.2).tm = s.tm := by unfold State.delay; split <;> rfl
@[simp] theorem delay_en (s : State) : (s.delay.2).en = s.en := by unfold State.delay; split <;> rfl
@[simp] theorem delay_tt (s : State) : (s.delay.2).tt = s.tt := by unfold State.delay; split <;> rfl
@[simp] theorem delay_ho (s : State) : (s.delay.2).ho = s.ho := by unfold State.delay; split <;> rfl
@[simp] theorem delay_rt (s : State) : (s.delay.2).rt = s.rt := by unfold State.delay; split <;> rfl

/-! What `fresh` leaves alone. -/

@[simp] theorem fresh_powered (s : State) : (s.fresh.2).powered = s.powered := rfl
@[simp] theorem fresh_cycle (s : State) : (s.fresh.2).cycle = s.cycle := rfl
@[simp] theorem fresh_ev (s : State) : (s.fresh.2).ev = s.ev := rfl
@[simp] theorem fresh_inputs (s : State) : (s.fresh.2).inputs = s.inputs := rfl
@[simp] theorem fresh_agenda (s : State) : (s.fresh.2).agenda = s.agenda := rfl
@[simp] theorem fresh_delays (s : State) : (s.fresh.2).delays = s.delays := rfl
@[simp] theorem fresh_free (s : State) : (s.fresh.2).free = s.free := rfl
@[simp] theorem fresh_iss (s : State) : (s.fresh.2).iss = s.iss := rfl
@[simp] theorem fresh_ctxs (s : State) : (s.fresh.2).ctxs = s.ctxs := rfl
@[simp] theorem fresh_cr (s : State) : (s.fresh.2).cr = s.cr := rfl
@[simp] theorem fresh_ms (s : State) : (s.fresh.2).ms = s.ms := rfl
@[simp] theorem fresh_tm (s : State) : (s.fresh.2).tm = s.tm := rfl
@[simp] theorem fresh_en (s : State) : (s.fresh.2).en = s.en := rfl
@[simp] theorem fresh_tt (s : State) : (s.fresh.2).tt = s.tt := rfl
@[simp] theorem fresh_ho (s : State) : (s.fresh.2).ho = s.ho := rfl
@[simp] theorem fresh_rt (s : State) : (s.fresh.2).rt = s.rt := rfl

/-! What `freeVal` leaves alone. -/

@[simp] theorem freeVal_powered (s : State) : (s.freeVal.2).powered = s.powered := rfl
@[simp] theorem freeVal_cycle (s : State) : (s.freeVal.2).cycle = s.cycle := rfl
@[simp] theorem freeVal_ev (s : State) : (s.freeVal.2).ev = s.ev := rfl
@[simp] theorem freeVal_inputs (s : State) : (s.freeVal.2).inputs = s.inputs := rfl
@[simp] theorem freeVal_agenda (s : State) : (s.freeVal.2).agenda = s.agenda := rfl
@[simp] theorem freeVal_delays (s : State) : (s.freeVal.2).delays = s.delays := rfl
@[simp] theorem freeVal_iss (s : State) : (s.freeVal.2).iss = s.iss := rfl
@[simp] theorem freeVal_nextId (s : State) : (s.freeVal.2).nextId = s.nextId := rfl
@[simp] theorem freeVal_ctxs (s : State) : (s.freeVal.2).ctxs = s.ctxs := rfl
@[simp] theorem freeVal_cr (s : State) : (s.freeVal.2).cr = s.cr := rfl
@[simp] theorem freeVal_ms (s : State) : (s.freeVal.2).ms = s.ms := rfl
@[simp] theorem freeVal_tm (s : State) : (s.freeVal.2).tm = s.tm := rfl
@[simp] theorem freeVal_en (s : State) : (s.freeVal.2).en = s.en := rfl
@[simp] theorem freeVal_tt (s : State) : (s.freeVal.2).tt = s.tt := rfl
@[simp] theorem freeVal_ho (s : State) : (s.freeVal.2).ho = s.ho := rfl
@[simp] theorem freeVal_rt (s : State) : (s.freeVal.2).rt = s.rt := rfl

/-! R414. A held cycle noted. -/

@[simp] theorem noteHeld_powered (s : State) (c : Nat) : (s.noteHeld c).powered = s.powered := rfl
@[simp] theorem noteHeld_cycle (s : State) (c : Nat) : (s.noteHeld c).cycle = s.cycle := rfl
@[simp] theorem noteHeld_ev (s : State) (c : Nat) : (s.noteHeld c).ev = s.ev := rfl
@[simp] theorem noteHeld_inputs (s : State) (c : Nat) : (s.noteHeld c).inputs = s.inputs := rfl
@[simp] theorem noteHeld_agenda (s : State) (c : Nat) : (s.noteHeld c).agenda = s.agenda := rfl
@[simp] theorem noteHeld_delays (s : State) (c : Nat) : (s.noteHeld c).delays = s.delays := rfl
@[simp] theorem noteHeld_free (s : State) (c : Nat) : (s.noteHeld c).free = s.free := rfl
@[simp] theorem noteHeld_iss (s : State) (c : Nat) : (s.noteHeld c).iss = s.iss := rfl
@[simp] theorem noteHeld_nextId (s : State) (c : Nat) : (s.noteHeld c).nextId = s.nextId := rfl
@[simp] theorem noteHeld_cr (s : State) (c : Nat) : (s.noteHeld c).cr = s.cr := rfl
@[simp] theorem noteHeld_ms (s : State) (c : Nat) : (s.noteHeld c).ms = s.ms := rfl
@[simp] theorem noteHeld_tm (s : State) (c : Nat) : (s.noteHeld c).tm = s.tm := rfl
@[simp] theorem noteHeld_en (s : State) (c : Nat) : (s.noteHeld c).en = s.en := rfl
@[simp] theorem noteHeld_tt (s : State) (c : Nat) : (s.noteHeld c).tt = s.tt := rfl
@[simp] theorem noteHeld_ho (s : State) (c : Nat) : (s.noteHeld c).ho = s.ho := rfl
@[simp] theorem noteHeld_rt (s : State) (c : Nat) : (s.noteHeld c).rt = s.rt := rfl

/-! R210. A class that waits. -/

@[simp] theorem want_powered (s : State) (die comp who : Nat) (l : List Need) : (s.want die comp who l).powered = s.powered := rfl
@[simp] theorem want_cycle (s : State) (die comp who : Nat) (l : List Need) : (s.want die comp who l).cycle = s.cycle := rfl
@[simp] theorem want_ev (s : State) (die comp who : Nat) (l : List Need) : (s.want die comp who l).ev = s.ev := rfl
@[simp] theorem want_inputs (s : State) (die comp who : Nat) (l : List Need) : (s.want die comp who l).inputs = s.inputs := rfl
@[simp] theorem want_agenda (s : State) (die comp who : Nat) (l : List Need) : (s.want die comp who l).agenda = s.agenda := rfl
@[simp] theorem want_delays (s : State) (die comp who : Nat) (l : List Need) : (s.want die comp who l).delays = s.delays := rfl
@[simp] theorem want_free (s : State) (die comp who : Nat) (l : List Need) : (s.want die comp who l).free = s.free := rfl
@[simp] theorem want_iss (s : State) (die comp who : Nat) (l : List Need) : (s.want die comp who l).iss = s.iss := rfl
@[simp] theorem want_nextId (s : State) (die comp who : Nat) (l : List Need) : (s.want die comp who l).nextId = s.nextId := rfl
@[simp] theorem want_ctxs (s : State) (die comp who : Nat) (l : List Need) : (s.want die comp who l).ctxs = s.ctxs := rfl
@[simp] theorem want_cr (s : State) (die comp who : Nat) (l : List Need) : (s.want die comp who l).cr = s.cr := rfl
@[simp] theorem want_ms (s : State) (die comp who : Nat) (l : List Need) : (s.want die comp who l).ms = s.ms := rfl
@[simp] theorem want_tm (s : State) (die comp who : Nat) (l : List Need) : (s.want die comp who l).tm = s.tm := rfl
@[simp] theorem want_en (s : State) (die comp who : Nat) (l : List Need) : (s.want die comp who l).en = s.en := rfl
@[simp] theorem want_ho (s : State) (die comp who : Nat) (l : List Need) : (s.want die comp who l).ho = s.ho := rfl
@[simp] theorem want_rt (s : State) (die comp who : Nat) (l : List Need) : (s.want die comp who l).rt = s.rt := rfl

/-! R381. A command changed. -/

@[simp] theorem modCmd_powered (s : State) (n : Nat) (f : Cmd → Cmd) : (modCmd s n f).powered = s.powered := rfl
@[simp] theorem modCmd_cycle (s : State) (n : Nat) (f : Cmd → Cmd) : (modCmd s n f).cycle = s.cycle := rfl
@[simp] theorem modCmd_ev (s : State) (n : Nat) (f : Cmd → Cmd) : (modCmd s n f).ev = s.ev := rfl
@[simp] theorem modCmd_inputs (s : State) (n : Nat) (f : Cmd → Cmd) : (modCmd s n f).inputs = s.inputs := rfl
@[simp] theorem modCmd_agenda (s : State) (n : Nat) (f : Cmd → Cmd) : (modCmd s n f).agenda = s.agenda := rfl
@[simp] theorem modCmd_delays (s : State) (n : Nat) (f : Cmd → Cmd) : (modCmd s n f).delays = s.delays := rfl
@[simp] theorem modCmd_free (s : State) (n : Nat) (f : Cmd → Cmd) : (modCmd s n f).free = s.free := rfl
@[simp] theorem modCmd_iss (s : State) (n : Nat) (f : Cmd → Cmd) : (modCmd s n f).iss = s.iss := rfl
@[simp] theorem modCmd_nextId (s : State) (n : Nat) (f : Cmd → Cmd) : (modCmd s n f).nextId = s.nextId := rfl
@[simp] theorem modCmd_ctxs (s : State) (n : Nat) (f : Cmd → Cmd) : (modCmd s n f).ctxs = s.ctxs := rfl
@[simp] theorem modCmd_cr (s : State) (n : Nat) (f : Cmd → Cmd) : (modCmd s n f).cr = s.cr := rfl
@[simp] theorem modCmd_ms (s : State) (n : Nat) (f : Cmd → Cmd) : (modCmd s n f).ms = s.ms := rfl
@[simp] theorem modCmd_tm (s : State) (n : Nat) (f : Cmd → Cmd) : (modCmd s n f).tm = s.tm := rfl
@[simp] theorem modCmd_tt (s : State) (n : Nat) (f : Cmd → Cmd) : (modCmd s n f).tt = s.tt := rfl
@[simp] theorem modCmd_ho (s : State) (n : Nat) (f : Cmd → Cmd) : (modCmd s n f).ho = s.ho := rfl
@[simp] theorem modCmd_rt (s : State) (n : Nat) (f : Cmd → Cmd) : (modCmd s n f).rt = s.rt := rfl

/-! R95. A line replaced. -/

@[simp] theorem setLine_powered (s : State) (k : Nat) (l : Line) : (s.setLine k l).powered = s.powered := rfl
@[simp] theorem setLine_cycle (s : State) (k : Nat) (l : Line) : (s.setLine k l).cycle = s.cycle := rfl
@[simp] theorem setLine_ev (s : State) (k : Nat) (l : Line) : (s.setLine k l).ev = s.ev := rfl
@[simp] theorem setLine_inputs (s : State) (k : Nat) (l : Line) : (s.setLine k l).inputs = s.inputs := rfl
@[simp] theorem setLine_agenda (s : State) (k : Nat) (l : Line) : (s.setLine k l).agenda = s.agenda := rfl
@[simp] theorem setLine_delays (s : State) (k : Nat) (l : Line) : (s.setLine k l).delays = s.delays := rfl
@[simp] theorem setLine_free (s : State) (k : Nat) (l : Line) : (s.setLine k l).free = s.free := rfl
@[simp] theorem setLine_iss (s : State) (k : Nat) (l : Line) : (s.setLine k l).iss = s.iss := rfl
@[simp] theorem setLine_nextId (s : State) (k : Nat) (l : Line) : (s.setLine k l).nextId = s.nextId := rfl
@[simp] theorem setLine_ctxs (s : State) (k : Nat) (l : Line) : (s.setLine k l).ctxs = s.ctxs := rfl
@[simp] theorem setLine_cr (s : State) (k : Nat) (l : Line) : (s.setLine k l).cr = s.cr := rfl
@[simp] theorem setLine_tm (s : State) (k : Nat) (l : Line) : (s.setLine k l).tm = s.tm := rfl
@[simp] theorem setLine_en (s : State) (k : Nat) (l : Line) : (s.setLine k l).en = s.en := rfl
@[simp] theorem setLine_tt (s : State) (k : Nat) (l : Line) : (s.setLine k l).tt = s.tt := rfl
@[simp] theorem setLine_ho (s : State) (k : Nat) (l : Line) : (s.setLine k l).ho = s.ho := rfl
@[simp] theorem setLine_rt (s : State) (k : Nat) (l : Line) : (s.setLine k l).rt = s.rt := rfl

/-! R184. A Sett replaced. -/

@[simp] theorem setSett_powered (s : State) (k : Nat) (t : Sett) : (s.setSett k t).powered = s.powered := rfl
@[simp] theorem setSett_cycle (s : State) (k : Nat) (t : Sett) : (s.setSett k t).cycle = s.cycle := rfl
@[simp] theorem setSett_ev (s : State) (k : Nat) (t : Sett) : (s.setSett k t).ev = s.ev := rfl
@[simp] theorem setSett_inputs (s : State) (k : Nat) (t : Sett) : (s.setSett k t).inputs = s.inputs := rfl
@[simp] theorem setSett_agenda (s : State) (k : Nat) (t : Sett) : (s.setSett k t).agenda = s.agenda := rfl
@[simp] theorem setSett_delays (s : State) (k : Nat) (t : Sett) : (s.setSett k t).delays = s.delays := rfl
@[simp] theorem setSett_free (s : State) (k : Nat) (t : Sett) : (s.setSett k t).free = s.free := rfl
@[simp] theorem setSett_iss (s : State) (k : Nat) (t : Sett) : (s.setSett k t).iss = s.iss := rfl
@[simp] theorem setSett_nextId (s : State) (k : Nat) (t : Sett) : (s.setSett k t).nextId = s.nextId := rfl
@[simp] theorem setSett_ctxs (s : State) (k : Nat) (t : Sett) : (s.setSett k t).ctxs = s.ctxs := rfl
@[simp] theorem setSett_cr (s : State) (k : Nat) (t : Sett) : (s.setSett k t).cr = s.cr := rfl
@[simp] theorem setSett_ms (s : State) (k : Nat) (t : Sett) : (s.setSett k t).ms = s.ms := rfl
@[simp] theorem setSett_en (s : State) (k : Nat) (t : Sett) : (s.setSett k t).en = s.en := rfl
@[simp] theorem setSett_tt (s : State) (k : Nat) (t : Sett) : (s.setSett k t).tt = s.tt := rfl
@[simp] theorem setSett_ho (s : State) (k : Nat) (t : Sett) : (s.setSett k t).ho = s.ho := rfl
@[simp] theorem setSett_rt (s : State) (k : Nat) (t : Sett) : (s.setSett k t).rt = s.rt := rfl

/-! R184. An item changed. -/

@[simp] theorem modItem_powered (s : State) (lid i : Nat) (f : Item → Item) : (modItem s lid i f).powered = s.powered := rfl
@[simp] theorem modItem_cycle (s : State) (lid i : Nat) (f : Item → Item) : (modItem s lid i f).cycle = s.cycle := rfl
@[simp] theorem modItem_ev (s : State) (lid i : Nat) (f : Item → Item) : (modItem s lid i f).ev = s.ev := rfl
@[simp] theorem modItem_inputs (s : State) (lid i : Nat) (f : Item → Item) : (modItem s lid i f).inputs = s.inputs := rfl
@[simp] theorem modItem_agenda (s : State) (lid i : Nat) (f : Item → Item) : (modItem s lid i f).agenda = s.agenda := rfl
@[simp] theorem modItem_delays (s : State) (lid i : Nat) (f : Item → Item) : (modItem s lid i f).delays = s.delays := rfl
@[simp] theorem modItem_free (s : State) (lid i : Nat) (f : Item → Item) : (modItem s lid i f).free = s.free := rfl
@[simp] theorem modItem_iss (s : State) (lid i : Nat) (f : Item → Item) : (modItem s lid i f).iss = s.iss := rfl
@[simp] theorem modItem_nextId (s : State) (lid i : Nat) (f : Item → Item) : (modItem s lid i f).nextId = s.nextId := rfl
@[simp] theorem modItem_ctxs (s : State) (lid i : Nat) (f : Item → Item) : (modItem s lid i f).ctxs = s.ctxs := rfl
@[simp] theorem modItem_cr (s : State) (lid i : Nat) (f : Item → Item) : (modItem s lid i f).cr = s.cr := rfl
@[simp] theorem modItem_ms (s : State) (lid i : Nat) (f : Item → Item) : (modItem s lid i f).ms = s.ms := rfl
@[simp] theorem modItem_en (s : State) (lid i : Nat) (f : Item → Item) : (modItem s lid i f).en = s.en := rfl
@[simp] theorem modItem_tt (s : State) (lid i : Nat) (f : Item → Item) : (modItem s lid i f).tt = s.tt := rfl
@[simp] theorem modItem_ho (s : State) (lid i : Nat) (f : Item → Item) : (modItem s lid i f).ho = s.ho := rfl
@[simp] theorem modItem_rt (s : State) (lid i : Nat) (f : Item → Item) : (modItem s lid i f).rt = s.rt := rfl

/-! R206. Units taken from a budget. -/

@[simp] theorem spend_powered (s : State) (d c r k n : Nat) : (spend s d c r k n).powered = s.powered := rfl
@[simp] theorem spend_cycle (s : State) (d c r k n : Nat) : (spend s d c r k n).cycle = s.cycle := rfl
@[simp] theorem spend_ev (s : State) (d c r k n : Nat) : (spend s d c r k n).ev = s.ev := rfl
@[simp] theorem spend_inputs (s : State) (d c r k n : Nat) : (spend s d c r k n).inputs = s.inputs := rfl
@[simp] theorem spend_agenda (s : State) (d c r k n : Nat) : (spend s d c r k n).agenda = s.agenda := rfl
@[simp] theorem spend_delays (s : State) (d c r k n : Nat) : (spend s d c r k n).delays = s.delays := rfl
@[simp] theorem spend_free (s : State) (d c r k n : Nat) : (spend s d c r k n).free = s.free := rfl
@[simp] theorem spend_iss (s : State) (d c r k n : Nat) : (spend s d c r k n).iss = s.iss := rfl
@[simp] theorem spend_nextId (s : State) (d c r k n : Nat) : (spend s d c r k n).nextId = s.nextId := rfl
@[simp] theorem spend_ctxs (s : State) (d c r k n : Nat) : (spend s d c r k n).ctxs = s.ctxs := rfl
@[simp] theorem spend_cr (s : State) (d c r k n : Nat) : (spend s d c r k n).cr = s.cr := rfl
@[simp] theorem spend_ms (s : State) (d c r k n : Nat) : (spend s d c r k n).ms = s.ms := rfl
@[simp] theorem spend_tm (s : State) (d c r k n : Nat) : (spend s d c r k n).tm = s.tm := rfl
@[simp] theorem spend_en (s : State) (d c r k n : Nat) : (spend s d c r k n).en = s.en := rfl
@[simp] theorem spend_ho (s : State) (d c r k n : Nat) : (spend s d c r k n).ho = s.ho := rfl
@[simp] theorem spend_rt (s : State) (d c r k n : Nat) : (spend s d c r k n).rt = s.rt := rfl

/-! R433. An MSI-X message. -/

@[simp] theorem sendMsix_powered (s : State) (v : Nat) : (sendMsix s v).powered = s.powered := by
  unfold sendMsix; split <;> rfl
@[simp] theorem sendMsix_cycle (s : State) (v : Nat) : (sendMsix s v).cycle = s.cycle := by
  unfold sendMsix; split <;> rfl
@[simp] theorem sendMsix_ev (s : State) (v : Nat) : (sendMsix s v).ev = s.ev := by
  unfold sendMsix; split <;> rfl
@[simp] theorem sendMsix_inputs (s : State) (v : Nat) : (sendMsix s v).inputs = s.inputs := by
  unfold sendMsix; split <;> rfl
@[simp] theorem sendMsix_agenda (s : State) (v : Nat) : (sendMsix s v).agenda = s.agenda := by
  unfold sendMsix; split <;> rfl
@[simp] theorem sendMsix_delays (s : State) (v : Nat) : (sendMsix s v).delays = s.delays := by
  unfold sendMsix; split <;> rfl
@[simp] theorem sendMsix_free (s : State) (v : Nat) : (sendMsix s v).free = s.free := by
  unfold sendMsix; split <;> rfl
@[simp] theorem sendMsix_iss (s : State) (v : Nat) : (sendMsix s v).iss = s.iss := by
  unfold sendMsix; split <;> rfl
@[simp] theorem sendMsix_nextId (s : State) (v : Nat) : (sendMsix s v).nextId = s.nextId := by
  unfold sendMsix; split <;> rfl
@[simp] theorem sendMsix_ctxs (s : State) (v : Nat) : (sendMsix s v).ctxs = s.ctxs := by
  unfold sendMsix; split <;> rfl
@[simp] theorem sendMsix_cr (s : State) (v : Nat) : (sendMsix s v).cr = s.cr := by
  unfold sendMsix; split <;> rfl
@[simp] theorem sendMsix_ms (s : State) (v : Nat) : (sendMsix s v).ms = s.ms := by
  unfold sendMsix; split <;> rfl
@[simp] theorem sendMsix_tm (s : State) (v : Nat) : (sendMsix s v).tm = s.tm := by
  unfold sendMsix; split <;> rfl
@[simp] theorem sendMsix_en (s : State) (v : Nat) : (sendMsix s v).en = s.en := by
  unfold sendMsix; split <;> rfl
@[simp] theorem sendMsix_tt (s : State) (v : Nat) : (sendMsix s v).tt = s.tt := by
  unfold sendMsix; split <;> rfl
@[simp] theorem sendMsix_rt (s : State) (v : Nat) : (sendMsix s v).rt = s.rt := by
  unfold sendMsix; split <;> rfl

/-! ### Contexts -/

theorem ctx_setCtx (s : State) (c k : Nat) (x : Ctx) : (s.setCtx c x).ctx k = if k = c then x else s.ctx k := by
  simp only [State.ctx, State.setCtx, tget_tput]
  split <;> rfl

@[simp] theorem ctx_setCtx_same (s : State) (c : Nat) (x : Ctx) : (s.setCtx c x).ctx c = x := by
  simp [ctx_setCtx]

theorem ctx_setCtx_other (s : State) (c k : Nat) (x : Ctx) (h : k ≠ c) : (s.setCtx c x).ctx k = s.ctx k := by
  simp [ctx_setCtx, h]

theorem ctx_modCtx (s : State) (c k : Nat) (f : Ctx → Ctx) :
    (s.modCtx c f).ctx k = if k = c then f (s.ctx c) else s.ctx k := ctx_setCtx s c k (f (s.ctx c))

@[simp] theorem ctx_modCtx_same (s : State) (c : Nat) (f : Ctx → Ctx) : (s.modCtx c f).ctx c = f (s.ctx c) := by
  simp [ctx_modCtx]

theorem ctx_modCtx_other (s : State) (c k : Nat) (f : Ctx → Ctx) (h : k ≠ c) : (s.modCtx c f).ctx k = s.ctx k := by
  simp [ctx_modCtx, h]

@[simp] theorem ctx_setCore (s : State) (k c : Nat) (x : Core) : (s.setCore k x).ctx c = s.ctx c := rfl
@[simp] theorem ctx_noteIssue (s : State) (k c : Nat) : (s.noteIssue k).ctx c = s.ctx c := rfl
@[simp] theorem ctx_after (s : State) (t : Nat) (e : Bool) (r : Instr) (a : EvArg) (c : Nat) :
    (s.after t e r a).ctx c = s.ctx c := rfl
@[simp] theorem ctx_askAbandon (s : State) (n w c : Nat) : (s.askAbandon n w).ctx c = s.ctx c := rfl

@[simp] theorem ctx_modLaunch (s : State) (n : Nat) (f : Launch → Launch) (c : Nat) :
    (s.modLaunch n f).ctx c = s.ctx c := by
  unfold State.modLaunch
  split <;> rfl

/-- R168. The Board slot of a context stays while its number and the Boards stay. -/
theorem board_congr (s t : State) (c : Nat) (h : (t.ctx c).slot = (s.ctx c).slot) (hb : t.tm.boards = s.tm.boards) :
    t.board c = s.board c := by
  simp [State.board, h, hb]

/-! ### Updates of one context -/

@[simp] theorem setOpnd_run (x : Ctx) (p : Nat) (v : Vec) : (setOpnd x p v).run = x.run := rfl
@[simp] theorem setOpnd_slot (x : Ctx) (p : Nat) (v : Vec) : (setOpnd x p v).slot = x.slot := rfl
@[simp] theorem setOpnd_pc (x : Ctx) (p : Nat) (v : Vec) : (setOpnd x p v).pc = x.pc := rfl
@[simp] theorem setOpnd_regs (x : Ctx) (p : Nat) (v : Vec) : (setOpnd x p v).regs = x.regs := rfl
@[simp] theorem setOpnd_units (x : Ctx) (p : Nat) (v : Vec) : (setOpnd x p v).units = x.units := rfl
@[simp] theorem setOpnd_guards (x : Ctx) (p : Nat) (v : Vec) : (setOpnd x p v).guards = x.guards := rfl
@[simp] theorem setOpnd_xs (x : Ctx) (p : Nat) (v : Vec) : (setOpnd x p v).xs = x.xs := rfl
@[simp] theorem setOpnd_xd (x : Ctx) (p : Nat) (v : Vec) : (setOpnd x p v).xd = x.xd := rfl
@[simp] theorem setOpnd_xv (x : Ctx) (p : Nat) (v : Vec) : (setOpnd x p v).xv = x.xv := rfl
@[simp] theorem setOpnd_xh (x : Ctx) (p : Nat) (v : Vec) : (setOpnd x p v).xh = x.xh := rfl
@[simp] theorem setOpnd_vws (x : Ctx) (p : Nat) (v : Vec) : (setOpnd x p v).vws = x.vws := rfl
@[simp] theorem setOpnd_vwd (x : Ctx) (p : Nat) (v : Vec) : (setOpnd x p v).vwd = x.vwd := rfl
@[simp] theorem setOpnd_vwv (x : Ctx) (p : Nat) (v : Vec) : (setOpnd x p v).vwv = x.vwv := rfl
@[simp] theorem setOpnd_vwh (x : Ctx) (p : Nat) (v : Vec) : (setOpnd x p v).vwh = x.vwh := rfl
@[simp] theorem setOpnd_res (x : Ctx) (p : Nat) (v : Vec) : (setOpnd x p v).res = x.res := rfl
@[simp] theorem setOpnd_flags (x : Ctx) (p : Nat) (v : Vec) : (setOpnd x p v).flags = x.flags := rfl
@[simp] theorem setOpnd_pend (x : Ctx) (p : Nat) (v : Vec) : (setOpnd x p v).pend = x.pend := rfl
@[simp] theorem setOpnd_flights (x : Ctx) (p : Nat) (v : Vec) : (setOpnd x p v).flights = x.flights := rfl
@[simp] theorem setOpnd_loops (x : Ctx) (p : Nat) (v : Vec) : (setOpnd x p v).loops = x.loops := rfl
@[simp] theorem setOpnd_shadow (x : Ctx) (p : Nat) (v : Vec) : (setOpnd x p v).shadow = x.shadow := rfl
@[simp] theorem setOpnd_cause (x : Ctx) (p : Nat) (v : Vec) : (setOpnd x p v).cause = x.cause := rfl
@[simp] theorem setOpnd_tpc (x : Ctx) (p : Nat) (v : Vec) : (setOpnd x p v).tpc = x.tpc := rfl
@[simp] theorem setOpnd_tnext (x : Ctx) (p : Nat) (v : Vec) : (setOpnd x p v).tnext = x.tnext := rfl
@[simp] theorem setOpnd_info0 (x : Ctx) (p : Nat) (v : Vec) : (setOpnd x p v).info0 = x.info0 := rfl
@[simp] theorem setOpnd_info1 (x : Ctx) (p : Nat) (v : Vec) : (setOpnd x p v).info1 = x.info1 := rfl
@[simp] theorem setOpnd_vectors (x : Ctx) (p : Nat) (v : Vec) : (setOpnd x p v).vectors = x.vectors := rfl
@[simp] theorem setOpnd_snap (x : Ctx) (p : Nat) (v : Vec) : (setOpnd x p v).snap = x.snap := rfl
@[simp] theorem setOpnd_replay (x : Ctx) (p : Nat) (v : Vec) : (setOpnd x p v).replay = x.replay := rfl
@[simp] theorem setOpnd_psnap (x : Ctx) (p : Nat) (v : Vec) : (setOpnd x p v).psnap = x.psnap := rfl
@[simp] theorem setOpnd_queues (x : Ctx) (p : Nat) (v : Vec) : (setOpnd x p v).queues = x.queues := rfl
@[simp] theorem setOpnd_counters (x : Ctx) (p : Nat) (v : Vec) : (setOpnd x p v).counters = x.counters := rfl
@[simp] theorem setOpnd_held (x : Ctx) (p : Nat) (v : Vec) : (setOpnd x p v).held = x.held := rfl
@[simp] theorem setOpnd_seq (x : Ctx) (p : Nat) (v : Vec) : (setOpnd x p v).seq = x.seq := rfl
@[simp] theorem setOpnd_bars (x : Ctx) (p : Nat) (v : Vec) : (setOpnd x p v).bars = x.bars := rfl
@[simp] theorem setOpnd_dirty (x : Ctx) (p : Nat) (v : Vec) : (setOpnd x p v).dirty = x.dirty := rfl
@[simp] theorem setOpnd_atTbar (x : Ctx) (p : Nat) (v : Vec) : (setOpnd x p v).atTbar = x.atTbar := rfl
@[simp] theorem setOpnd_atCbar (x : Ctx) (p : Nat) (v : Vec) : (setOpnd x p v).atCbar = x.atCbar := rfl
@[simp] theorem setOpnd_atStep (x : Ctx) (p : Nat) (v : Vec) : (setOpnd x p v).atStep = x.atStep := rfl
@[simp] theorem setOpnd_released (x : Ctx) (p : Nat) (v : Vec) : (setOpnd x p v).released = x.released := rfl
@[simp] theorem setOpnd_pendTrap (x : Ctx) (p : Nat) (v : Vec) : (setOpnd x p v).pendTrap = x.pendTrap := rfl
@[simp] theorem setOpnd_callEnd (x : Ctx) (p : Nat) (v : Vec) : (setOpnd x p v).callEnd = x.callEnd := rfl
@[simp] theorem setOpnd_down (x : Ctx) (p : Nat) (v : Vec) : (setOpnd x p v).down = x.down := rfl
@[simp] theorem setOpnd_fences (x : Ctx) (p : Nat) (v : Vec) : (setOpnd x p v).fences = x.fences := rfl
@[simp] theorem setOpnd_lastCore (x : Ctx) (p : Nat) (v : Vec) : (setOpnd x p v).lastCore = x.lastCore := rfl
@[simp] theorem setOpnd_walked (x : Ctx) (p : Nat) (v : Vec) : (setOpnd x p v).walked = x.walked := rfl
@[simp] theorem setOpnd_answer (x : Ctx) (p : Nat) (v : Vec) : (setOpnd x p v).answer = x.answer := rfl
@[simp] theorem setOpnd_sent (x : Ctx) (p : Nat) (v : Vec) : (setOpnd x p v).sent = x.sent := rfl
@[simp] theorem setOpnd_clusterAt (x : Ctx) (p : Nat) (v : Vec) : (setOpnd x p v).clusterAt = x.clusterAt := rfl
@[simp] theorem setOpnd_early (x : Ctx) (p : Nat) (v : Vec) : (setOpnd x p v).early = x.early := rfl
@[simp] theorem setOpnd_notBefore (x : Ctx) (p : Nat) (v : Vec) : (setOpnd x p v).notBefore = x.notBefore := rfl
@[simp] theorem setOpnd_bundles (x : Ctx) (p : Nat) (v : Vec) : (setOpnd x p v).bundles = x.bundles := rfl
@[simp] theorem setOpnd_blocked (x : Ctx) (p : Nat) (v : Vec) : (setOpnd x p v).blocked = x.blocked := rfl
@[simp] theorem setOpnd_tried (x : Ctx) (p : Nat) (v : Vec) : (setOpnd x p v).tried = x.tried := rfl
@[simp] theorem setOpnd_wrote (x : Ctx) (p : Nat) (v : Vec) : (setOpnd x p v).wrote = x.wrote := rfl
@[simp] theorem setOpnd_wroteAt (x : Ctx) (p : Nat) (v : Vec) : (setOpnd x p v).wroteAt = x.wroteAt := rfl
@[simp] theorem setOpnd_jump (x : Ctx) (p : Nat) (v : Vec) : (setOpnd x p v).jump = x.jump := rfl
@[simp] theorem setOpnd_preempt (x : Ctx) (p : Nat) (v : Vec) : (setOpnd x p v).preempt = x.preempt := rfl
@[simp] theorem setOpnd_reissue (x : Ctx) (p : Nat) (v : Vec) : (setOpnd x p v).reissue = x.reissue := rfl
@[simp] theorem setOpnd_unmade (x : Ctx) (p : Nat) (v : Vec) : (setOpnd x p v).unmade = x.unmade := rfl
@[simp] theorem setOpnd_paid (x : Ctx) (p : Nat) (v : Vec) : (setOpnd x p v).paid = x.paid := rfl
@[simp] theorem setOpnd_onLine (x : Ctx) (p : Nat) (v : Vec) : (setOpnd x p v).onLine = x.onLine := rfl
@[simp] theorem setOpnd_heldAt (x : Ctx) (p : Nat) (v : Vec) : (setOpnd x p v).heldAt = x.heldAt := rfl
@[simp] theorem setOpnd_lastShuttle (x : Ctx) (p : Nat) (v : Vec) : (setOpnd x p v).lastShuttle = x.lastShuttle := rfl
@[simp] theorem setOpnd_lastFreight (x : Ctx) (p : Nat) (v : Vec) : (setOpnd x p v).lastFreight = x.lastFreight := rfl
@[simp] theorem setOpnd_pulled (x : Ctx) (p : Nat) (v : Vec) : (setOpnd x p v).pulled = x.pulled := rfl
@[simp] theorem setOpnd_pulledPops (x : Ctx) (p : Nat) (v : Vec) : (setOpnd x p v).pulledPops = x.pulledPops := rfl
@[simp] theorem setOpnd_stepped (x : Ctx) (p : Nat) (v : Vec) : (setOpnd x p v).stepped = x.stepped := rfl

@[simp] theorem setRes_run (x : Ctx) (p : Nat) (v : Vec) : (setRes x p v).run = x.run := rfl
@[simp] theorem setRes_slot (x : Ctx) (p : Nat) (v : Vec) : (setRes x p v).slot = x.slot := rfl
@[simp] theorem setRes_pc (x : Ctx) (p : Nat) (v : Vec) : (setRes x p v).pc = x.pc := rfl
@[simp] theorem setRes_regs (x : Ctx) (p : Nat) (v : Vec) : (setRes x p v).regs = x.regs := rfl
@[simp] theorem setRes_units (x : Ctx) (p : Nat) (v : Vec) : (setRes x p v).units = x.units := rfl
@[simp] theorem setRes_guards (x : Ctx) (p : Nat) (v : Vec) : (setRes x p v).guards = x.guards := rfl
@[simp] theorem setRes_xs (x : Ctx) (p : Nat) (v : Vec) : (setRes x p v).xs = x.xs := rfl
@[simp] theorem setRes_xd (x : Ctx) (p : Nat) (v : Vec) : (setRes x p v).xd = x.xd := rfl
@[simp] theorem setRes_xv (x : Ctx) (p : Nat) (v : Vec) : (setRes x p v).xv = x.xv := rfl
@[simp] theorem setRes_xh (x : Ctx) (p : Nat) (v : Vec) : (setRes x p v).xh = x.xh := rfl
@[simp] theorem setRes_vws (x : Ctx) (p : Nat) (v : Vec) : (setRes x p v).vws = x.vws := rfl
@[simp] theorem setRes_vwd (x : Ctx) (p : Nat) (v : Vec) : (setRes x p v).vwd = x.vwd := rfl
@[simp] theorem setRes_vwv (x : Ctx) (p : Nat) (v : Vec) : (setRes x p v).vwv = x.vwv := rfl
@[simp] theorem setRes_vwh (x : Ctx) (p : Nat) (v : Vec) : (setRes x p v).vwh = x.vwh := rfl
@[simp] theorem setRes_opnd (x : Ctx) (p : Nat) (v : Vec) : (setRes x p v).opnd = x.opnd := rfl
@[simp] theorem setRes_flags (x : Ctx) (p : Nat) (v : Vec) : (setRes x p v).flags = x.flags := rfl
@[simp] theorem setRes_pend (x : Ctx) (p : Nat) (v : Vec) : (setRes x p v).pend = x.pend := rfl
@[simp] theorem setRes_flights (x : Ctx) (p : Nat) (v : Vec) : (setRes x p v).flights = x.flights := rfl
@[simp] theorem setRes_loops (x : Ctx) (p : Nat) (v : Vec) : (setRes x p v).loops = x.loops := rfl
@[simp] theorem setRes_shadow (x : Ctx) (p : Nat) (v : Vec) : (setRes x p v).shadow = x.shadow := rfl
@[simp] theorem setRes_cause (x : Ctx) (p : Nat) (v : Vec) : (setRes x p v).cause = x.cause := rfl
@[simp] theorem setRes_tpc (x : Ctx) (p : Nat) (v : Vec) : (setRes x p v).tpc = x.tpc := rfl
@[simp] theorem setRes_tnext (x : Ctx) (p : Nat) (v : Vec) : (setRes x p v).tnext = x.tnext := rfl
@[simp] theorem setRes_info0 (x : Ctx) (p : Nat) (v : Vec) : (setRes x p v).info0 = x.info0 := rfl
@[simp] theorem setRes_info1 (x : Ctx) (p : Nat) (v : Vec) : (setRes x p v).info1 = x.info1 := rfl
@[simp] theorem setRes_vectors (x : Ctx) (p : Nat) (v : Vec) : (setRes x p v).vectors = x.vectors := rfl
@[simp] theorem setRes_snap (x : Ctx) (p : Nat) (v : Vec) : (setRes x p v).snap = x.snap := rfl
@[simp] theorem setRes_replay (x : Ctx) (p : Nat) (v : Vec) : (setRes x p v).replay = x.replay := rfl
@[simp] theorem setRes_psnap (x : Ctx) (p : Nat) (v : Vec) : (setRes x p v).psnap = x.psnap := rfl
@[simp] theorem setRes_queues (x : Ctx) (p : Nat) (v : Vec) : (setRes x p v).queues = x.queues := rfl
@[simp] theorem setRes_counters (x : Ctx) (p : Nat) (v : Vec) : (setRes x p v).counters = x.counters := rfl
@[simp] theorem setRes_held (x : Ctx) (p : Nat) (v : Vec) : (setRes x p v).held = x.held := rfl
@[simp] theorem setRes_seq (x : Ctx) (p : Nat) (v : Vec) : (setRes x p v).seq = x.seq := rfl
@[simp] theorem setRes_bars (x : Ctx) (p : Nat) (v : Vec) : (setRes x p v).bars = x.bars := rfl
@[simp] theorem setRes_dirty (x : Ctx) (p : Nat) (v : Vec) : (setRes x p v).dirty = x.dirty := rfl
@[simp] theorem setRes_atTbar (x : Ctx) (p : Nat) (v : Vec) : (setRes x p v).atTbar = x.atTbar := rfl
@[simp] theorem setRes_atCbar (x : Ctx) (p : Nat) (v : Vec) : (setRes x p v).atCbar = x.atCbar := rfl
@[simp] theorem setRes_atStep (x : Ctx) (p : Nat) (v : Vec) : (setRes x p v).atStep = x.atStep := rfl
@[simp] theorem setRes_released (x : Ctx) (p : Nat) (v : Vec) : (setRes x p v).released = x.released := rfl
@[simp] theorem setRes_pendTrap (x : Ctx) (p : Nat) (v : Vec) : (setRes x p v).pendTrap = x.pendTrap := rfl
@[simp] theorem setRes_callEnd (x : Ctx) (p : Nat) (v : Vec) : (setRes x p v).callEnd = x.callEnd := rfl
@[simp] theorem setRes_down (x : Ctx) (p : Nat) (v : Vec) : (setRes x p v).down = x.down := rfl
@[simp] theorem setRes_fences (x : Ctx) (p : Nat) (v : Vec) : (setRes x p v).fences = x.fences := rfl
@[simp] theorem setRes_lastCore (x : Ctx) (p : Nat) (v : Vec) : (setRes x p v).lastCore = x.lastCore := rfl
@[simp] theorem setRes_walked (x : Ctx) (p : Nat) (v : Vec) : (setRes x p v).walked = x.walked := rfl
@[simp] theorem setRes_answer (x : Ctx) (p : Nat) (v : Vec) : (setRes x p v).answer = x.answer := rfl
@[simp] theorem setRes_sent (x : Ctx) (p : Nat) (v : Vec) : (setRes x p v).sent = x.sent := rfl
@[simp] theorem setRes_clusterAt (x : Ctx) (p : Nat) (v : Vec) : (setRes x p v).clusterAt = x.clusterAt := rfl
@[simp] theorem setRes_early (x : Ctx) (p : Nat) (v : Vec) : (setRes x p v).early = x.early := rfl
@[simp] theorem setRes_notBefore (x : Ctx) (p : Nat) (v : Vec) : (setRes x p v).notBefore = x.notBefore := rfl
@[simp] theorem setRes_bundles (x : Ctx) (p : Nat) (v : Vec) : (setRes x p v).bundles = x.bundles := rfl
@[simp] theorem setRes_blocked (x : Ctx) (p : Nat) (v : Vec) : (setRes x p v).blocked = x.blocked := rfl
@[simp] theorem setRes_tried (x : Ctx) (p : Nat) (v : Vec) : (setRes x p v).tried = x.tried := rfl
@[simp] theorem setRes_wrote (x : Ctx) (p : Nat) (v : Vec) : (setRes x p v).wrote = x.wrote := rfl
@[simp] theorem setRes_wroteAt (x : Ctx) (p : Nat) (v : Vec) : (setRes x p v).wroteAt = x.wroteAt := rfl
@[simp] theorem setRes_jump (x : Ctx) (p : Nat) (v : Vec) : (setRes x p v).jump = x.jump := rfl
@[simp] theorem setRes_preempt (x : Ctx) (p : Nat) (v : Vec) : (setRes x p v).preempt = x.preempt := rfl
@[simp] theorem setRes_reissue (x : Ctx) (p : Nat) (v : Vec) : (setRes x p v).reissue = x.reissue := rfl
@[simp] theorem setRes_unmade (x : Ctx) (p : Nat) (v : Vec) : (setRes x p v).unmade = x.unmade := rfl
@[simp] theorem setRes_paid (x : Ctx) (p : Nat) (v : Vec) : (setRes x p v).paid = x.paid := rfl
@[simp] theorem setRes_onLine (x : Ctx) (p : Nat) (v : Vec) : (setRes x p v).onLine = x.onLine := rfl
@[simp] theorem setRes_heldAt (x : Ctx) (p : Nat) (v : Vec) : (setRes x p v).heldAt = x.heldAt := rfl
@[simp] theorem setRes_lastShuttle (x : Ctx) (p : Nat) (v : Vec) : (setRes x p v).lastShuttle = x.lastShuttle := rfl
@[simp] theorem setRes_lastFreight (x : Ctx) (p : Nat) (v : Vec) : (setRes x p v).lastFreight = x.lastFreight := rfl
@[simp] theorem setRes_pulled (x : Ctx) (p : Nat) (v : Vec) : (setRes x p v).pulled = x.pulled := rfl
@[simp] theorem setRes_pulledPops (x : Ctx) (p : Nat) (v : Vec) : (setRes x p v).pulledPops = x.pulledPops := rfl
@[simp] theorem setRes_stepped (x : Ctx) (p : Nat) (v : Vec) : (setRes x p v).stepped = x.stepped := rfl

@[simp] theorem regWrite_run (x : Ctx) (d : Dest) (v : Vec) : (regWrite x d v).run = x.run := rfl
@[simp] theorem regWrite_slot (x : Ctx) (d : Dest) (v : Vec) : (regWrite x d v).slot = x.slot := rfl
@[simp] theorem regWrite_pc (x : Ctx) (d : Dest) (v : Vec) : (regWrite x d v).pc = x.pc := rfl
@[simp] theorem regWrite_guards (x : Ctx) (d : Dest) (v : Vec) : (regWrite x d v).guards = x.guards := rfl
@[simp] theorem regWrite_xs (x : Ctx) (d : Dest) (v : Vec) : (regWrite x d v).xs = x.xs := rfl
@[simp] theorem regWrite_xd (x : Ctx) (d : Dest) (v : Vec) : (regWrite x d v).xd = x.xd := rfl
@[simp] theorem regWrite_xv (x : Ctx) (d : Dest) (v : Vec) : (regWrite x d v).xv = x.xv := rfl
@[simp] theorem regWrite_xh (x : Ctx) (d : Dest) (v : Vec) : (regWrite x d v).xh = x.xh := rfl
@[simp] theorem regWrite_vws (x : Ctx) (d : Dest) (v : Vec) : (regWrite x d v).vws = x.vws := rfl
@[simp] theorem regWrite_vwd (x : Ctx) (d : Dest) (v : Vec) : (regWrite x d v).vwd = x.vwd := rfl
@[simp] theorem regWrite_vwv (x : Ctx) (d : Dest) (v : Vec) : (regWrite x d v).vwv = x.vwv := rfl
@[simp] theorem regWrite_vwh (x : Ctx) (d : Dest) (v : Vec) : (regWrite x d v).vwh = x.vwh := rfl
@[simp] theorem regWrite_opnd (x : Ctx) (d : Dest) (v : Vec) : (regWrite x d v).opnd = x.opnd := rfl
@[simp] theorem regWrite_res (x : Ctx) (d : Dest) (v : Vec) : (regWrite x d v).res = x.res := rfl
@[simp] theorem regWrite_flags (x : Ctx) (d : Dest) (v : Vec) : (regWrite x d v).flags = x.flags := rfl
@[simp] theorem regWrite_pend (x : Ctx) (d : Dest) (v : Vec) : (regWrite x d v).pend = x.pend := rfl
@[simp] theorem regWrite_flights (x : Ctx) (d : Dest) (v : Vec) : (regWrite x d v).flights = x.flights := rfl
@[simp] theorem regWrite_loops (x : Ctx) (d : Dest) (v : Vec) : (regWrite x d v).loops = x.loops := rfl
@[simp] theorem regWrite_shadow (x : Ctx) (d : Dest) (v : Vec) : (regWrite x d v).shadow = x.shadow := rfl
@[simp] theorem regWrite_cause (x : Ctx) (d : Dest) (v : Vec) : (regWrite x d v).cause = x.cause := rfl
@[simp] theorem regWrite_tpc (x : Ctx) (d : Dest) (v : Vec) : (regWrite x d v).tpc = x.tpc := rfl
@[simp] theorem regWrite_tnext (x : Ctx) (d : Dest) (v : Vec) : (regWrite x d v).tnext = x.tnext := rfl
@[simp] theorem regWrite_info0 (x : Ctx) (d : Dest) (v : Vec) : (regWrite x d v).info0 = x.info0 := rfl
@[simp] theorem regWrite_info1 (x : Ctx) (d : Dest) (v : Vec) : (regWrite x d v).info1 = x.info1 := rfl
@[simp] theorem regWrite_vectors (x : Ctx) (d : Dest) (v : Vec) : (regWrite x d v).vectors = x.vectors := rfl
@[simp] theorem regWrite_snap (x : Ctx) (d : Dest) (v : Vec) : (regWrite x d v).snap = x.snap := rfl
@[simp] theorem regWrite_replay (x : Ctx) (d : Dest) (v : Vec) : (regWrite x d v).replay = x.replay := rfl
@[simp] theorem regWrite_psnap (x : Ctx) (d : Dest) (v : Vec) : (regWrite x d v).psnap = x.psnap := rfl
@[simp] theorem regWrite_queues (x : Ctx) (d : Dest) (v : Vec) : (regWrite x d v).queues = x.queues := rfl
@[simp] theorem regWrite_counters (x : Ctx) (d : Dest) (v : Vec) : (regWrite x d v).counters = x.counters := rfl
@[simp] theorem regWrite_held (x : Ctx) (d : Dest) (v : Vec) : (regWrite x d v).held = x.held := rfl
@[simp] theorem regWrite_seq (x : Ctx) (d : Dest) (v : Vec) : (regWrite x d v).seq = x.seq := rfl
@[simp] theorem regWrite_bars (x : Ctx) (d : Dest) (v : Vec) : (regWrite x d v).bars = x.bars := rfl
@[simp] theorem regWrite_dirty (x : Ctx) (d : Dest) (v : Vec) : (regWrite x d v).dirty = x.dirty := rfl
@[simp] theorem regWrite_atTbar (x : Ctx) (d : Dest) (v : Vec) : (regWrite x d v).atTbar = x.atTbar := rfl
@[simp] theorem regWrite_atCbar (x : Ctx) (d : Dest) (v : Vec) : (regWrite x d v).atCbar = x.atCbar := rfl
@[simp] theorem regWrite_atStep (x : Ctx) (d : Dest) (v : Vec) : (regWrite x d v).atStep = x.atStep := rfl
@[simp] theorem regWrite_released (x : Ctx) (d : Dest) (v : Vec) : (regWrite x d v).released = x.released := rfl
@[simp] theorem regWrite_pendTrap (x : Ctx) (d : Dest) (v : Vec) : (regWrite x d v).pendTrap = x.pendTrap := rfl
@[simp] theorem regWrite_callEnd (x : Ctx) (d : Dest) (v : Vec) : (regWrite x d v).callEnd = x.callEnd := rfl
@[simp] theorem regWrite_down (x : Ctx) (d : Dest) (v : Vec) : (regWrite x d v).down = x.down := rfl
@[simp] theorem regWrite_fences (x : Ctx) (d : Dest) (v : Vec) : (regWrite x d v).fences = x.fences := rfl
@[simp] theorem regWrite_lastCore (x : Ctx) (d : Dest) (v : Vec) : (regWrite x d v).lastCore = x.lastCore := rfl
@[simp] theorem regWrite_walked (x : Ctx) (d : Dest) (v : Vec) : (regWrite x d v).walked = x.walked := rfl
@[simp] theorem regWrite_answer (x : Ctx) (d : Dest) (v : Vec) : (regWrite x d v).answer = x.answer := rfl
@[simp] theorem regWrite_sent (x : Ctx) (d : Dest) (v : Vec) : (regWrite x d v).sent = x.sent := rfl
@[simp] theorem regWrite_clusterAt (x : Ctx) (d : Dest) (v : Vec) : (regWrite x d v).clusterAt = x.clusterAt := rfl
@[simp] theorem regWrite_early (x : Ctx) (d : Dest) (v : Vec) : (regWrite x d v).early = x.early := rfl
@[simp] theorem regWrite_notBefore (x : Ctx) (d : Dest) (v : Vec) : (regWrite x d v).notBefore = x.notBefore := rfl
@[simp] theorem regWrite_bundles (x : Ctx) (d : Dest) (v : Vec) : (regWrite x d v).bundles = x.bundles := rfl
@[simp] theorem regWrite_blocked (x : Ctx) (d : Dest) (v : Vec) : (regWrite x d v).blocked = x.blocked := rfl
@[simp] theorem regWrite_tried (x : Ctx) (d : Dest) (v : Vec) : (regWrite x d v).tried = x.tried := rfl
@[simp] theorem regWrite_wrote (x : Ctx) (d : Dest) (v : Vec) : (regWrite x d v).wrote = x.wrote := rfl
@[simp] theorem regWrite_wroteAt (x : Ctx) (d : Dest) (v : Vec) : (regWrite x d v).wroteAt = x.wroteAt := rfl
@[simp] theorem regWrite_jump (x : Ctx) (d : Dest) (v : Vec) : (regWrite x d v).jump = x.jump := rfl
@[simp] theorem regWrite_preempt (x : Ctx) (d : Dest) (v : Vec) : (regWrite x d v).preempt = x.preempt := rfl
@[simp] theorem regWrite_reissue (x : Ctx) (d : Dest) (v : Vec) : (regWrite x d v).reissue = x.reissue := rfl
@[simp] theorem regWrite_unmade (x : Ctx) (d : Dest) (v : Vec) : (regWrite x d v).unmade = x.unmade := rfl
@[simp] theorem regWrite_paid (x : Ctx) (d : Dest) (v : Vec) : (regWrite x d v).paid = x.paid := rfl
@[simp] theorem regWrite_onLine (x : Ctx) (d : Dest) (v : Vec) : (regWrite x d v).onLine = x.onLine := rfl
@[simp] theorem regWrite_heldAt (x : Ctx) (d : Dest) (v : Vec) : (regWrite x d v).heldAt = x.heldAt := rfl
@[simp] theorem regWrite_lastShuttle (x : Ctx) (d : Dest) (v : Vec) : (regWrite x d v).lastShuttle = x.lastShuttle := rfl
@[simp] theorem regWrite_lastFreight (x : Ctx) (d : Dest) (v : Vec) : (regWrite x d v).lastFreight = x.lastFreight := rfl
@[simp] theorem regWrite_pulled (x : Ctx) (d : Dest) (v : Vec) : (regWrite x d v).pulled = x.pulled := rfl
@[simp] theorem regWrite_pulledPops (x : Ctx) (d : Dest) (v : Vec) : (regWrite x d v).pulledPops = x.pulledPops := rfl
@[simp] theorem regWrite_stepped (x : Ctx) (d : Dest) (v : Vec) : (regWrite x d v).stepped = x.stepped := rfl

@[simp] theorem regWriteEph_run (x : Ctx) (d : Dest) (v : Vec) (n : Nat) : (regWriteEph x d v n).run = x.run := rfl
@[simp] theorem regWriteEph_slot (x : Ctx) (d : Dest) (v : Vec) (n : Nat) : (regWriteEph x d v n).slot = x.slot := rfl
@[simp] theorem regWriteEph_pc (x : Ctx) (d : Dest) (v : Vec) (n : Nat) : (regWriteEph x d v n).pc = x.pc := rfl
@[simp] theorem regWriteEph_guards (x : Ctx) (d : Dest) (v : Vec) (n : Nat) : (regWriteEph x d v n).guards = x.guards := rfl
@[simp] theorem regWriteEph_xs (x : Ctx) (d : Dest) (v : Vec) (n : Nat) : (regWriteEph x d v n).xs = x.xs := rfl
@[simp] theorem regWriteEph_xd (x : Ctx) (d : Dest) (v : Vec) (n : Nat) : (regWriteEph x d v n).xd = x.xd := rfl
@[simp] theorem regWriteEph_xv (x : Ctx) (d : Dest) (v : Vec) (n : Nat) : (regWriteEph x d v n).xv = x.xv := rfl
@[simp] theorem regWriteEph_xh (x : Ctx) (d : Dest) (v : Vec) (n : Nat) : (regWriteEph x d v n).xh = x.xh := rfl
@[simp] theorem regWriteEph_vws (x : Ctx) (d : Dest) (v : Vec) (n : Nat) : (regWriteEph x d v n).vws = x.vws := rfl
@[simp] theorem regWriteEph_vwd (x : Ctx) (d : Dest) (v : Vec) (n : Nat) : (regWriteEph x d v n).vwd = x.vwd := rfl
@[simp] theorem regWriteEph_vwv (x : Ctx) (d : Dest) (v : Vec) (n : Nat) : (regWriteEph x d v n).vwv = x.vwv := rfl
@[simp] theorem regWriteEph_vwh (x : Ctx) (d : Dest) (v : Vec) (n : Nat) : (regWriteEph x d v n).vwh = x.vwh := rfl
@[simp] theorem regWriteEph_opnd (x : Ctx) (d : Dest) (v : Vec) (n : Nat) : (regWriteEph x d v n).opnd = x.opnd := rfl
@[simp] theorem regWriteEph_res (x : Ctx) (d : Dest) (v : Vec) (n : Nat) : (regWriteEph x d v n).res = x.res := rfl
@[simp] theorem regWriteEph_flags (x : Ctx) (d : Dest) (v : Vec) (n : Nat) : (regWriteEph x d v n).flags = x.flags := rfl
@[simp] theorem regWriteEph_pend (x : Ctx) (d : Dest) (v : Vec) (n : Nat) : (regWriteEph x d v n).pend = x.pend := rfl
@[simp] theorem regWriteEph_flights (x : Ctx) (d : Dest) (v : Vec) (n : Nat) : (regWriteEph x d v n).flights = x.flights := rfl
@[simp] theorem regWriteEph_loops (x : Ctx) (d : Dest) (v : Vec) (n : Nat) : (regWriteEph x d v n).loops = x.loops := rfl
@[simp] theorem regWriteEph_shadow (x : Ctx) (d : Dest) (v : Vec) (n : Nat) : (regWriteEph x d v n).shadow = x.shadow := rfl
@[simp] theorem regWriteEph_cause (x : Ctx) (d : Dest) (v : Vec) (n : Nat) : (regWriteEph x d v n).cause = x.cause := rfl
@[simp] theorem regWriteEph_tpc (x : Ctx) (d : Dest) (v : Vec) (n : Nat) : (regWriteEph x d v n).tpc = x.tpc := rfl
@[simp] theorem regWriteEph_tnext (x : Ctx) (d : Dest) (v : Vec) (n : Nat) : (regWriteEph x d v n).tnext = x.tnext := rfl
@[simp] theorem regWriteEph_info0 (x : Ctx) (d : Dest) (v : Vec) (n : Nat) : (regWriteEph x d v n).info0 = x.info0 := rfl
@[simp] theorem regWriteEph_info1 (x : Ctx) (d : Dest) (v : Vec) (n : Nat) : (regWriteEph x d v n).info1 = x.info1 := rfl
@[simp] theorem regWriteEph_vectors (x : Ctx) (d : Dest) (v : Vec) (n : Nat) : (regWriteEph x d v n).vectors = x.vectors := rfl
@[simp] theorem regWriteEph_snap (x : Ctx) (d : Dest) (v : Vec) (n : Nat) : (regWriteEph x d v n).snap = x.snap := rfl
@[simp] theorem regWriteEph_replay (x : Ctx) (d : Dest) (v : Vec) (n : Nat) : (regWriteEph x d v n).replay = x.replay := rfl
@[simp] theorem regWriteEph_psnap (x : Ctx) (d : Dest) (v : Vec) (n : Nat) : (regWriteEph x d v n).psnap = x.psnap := rfl
@[simp] theorem regWriteEph_queues (x : Ctx) (d : Dest) (v : Vec) (n : Nat) : (regWriteEph x d v n).queues = x.queues := rfl
@[simp] theorem regWriteEph_counters (x : Ctx) (d : Dest) (v : Vec) (n : Nat) : (regWriteEph x d v n).counters = x.counters := rfl
@[simp] theorem regWriteEph_held (x : Ctx) (d : Dest) (v : Vec) (n : Nat) : (regWriteEph x d v n).held = x.held := rfl
@[simp] theorem regWriteEph_seq (x : Ctx) (d : Dest) (v : Vec) (n : Nat) : (regWriteEph x d v n).seq = x.seq := rfl
@[simp] theorem regWriteEph_bars (x : Ctx) (d : Dest) (v : Vec) (n : Nat) : (regWriteEph x d v n).bars = x.bars := rfl
@[simp] theorem regWriteEph_dirty (x : Ctx) (d : Dest) (v : Vec) (n : Nat) : (regWriteEph x d v n).dirty = x.dirty := rfl
@[simp] theorem regWriteEph_atTbar (x : Ctx) (d : Dest) (v : Vec) (n : Nat) : (regWriteEph x d v n).atTbar = x.atTbar := rfl
@[simp] theorem regWriteEph_atCbar (x : Ctx) (d : Dest) (v : Vec) (n : Nat) : (regWriteEph x d v n).atCbar = x.atCbar := rfl
@[simp] theorem regWriteEph_atStep (x : Ctx) (d : Dest) (v : Vec) (n : Nat) : (regWriteEph x d v n).atStep = x.atStep := rfl
@[simp] theorem regWriteEph_released (x : Ctx) (d : Dest) (v : Vec) (n : Nat) : (regWriteEph x d v n).released = x.released := rfl
@[simp] theorem regWriteEph_pendTrap (x : Ctx) (d : Dest) (v : Vec) (n : Nat) : (regWriteEph x d v n).pendTrap = x.pendTrap := rfl
@[simp] theorem regWriteEph_callEnd (x : Ctx) (d : Dest) (v : Vec) (n : Nat) : (regWriteEph x d v n).callEnd = x.callEnd := rfl
@[simp] theorem regWriteEph_down (x : Ctx) (d : Dest) (v : Vec) (n : Nat) : (regWriteEph x d v n).down = x.down := rfl
@[simp] theorem regWriteEph_fences (x : Ctx) (d : Dest) (v : Vec) (n : Nat) : (regWriteEph x d v n).fences = x.fences := rfl
@[simp] theorem regWriteEph_lastCore (x : Ctx) (d : Dest) (v : Vec) (n : Nat) : (regWriteEph x d v n).lastCore = x.lastCore := rfl
@[simp] theorem regWriteEph_walked (x : Ctx) (d : Dest) (v : Vec) (n : Nat) : (regWriteEph x d v n).walked = x.walked := rfl
@[simp] theorem regWriteEph_answer (x : Ctx) (d : Dest) (v : Vec) (n : Nat) : (regWriteEph x d v n).answer = x.answer := rfl
@[simp] theorem regWriteEph_sent (x : Ctx) (d : Dest) (v : Vec) (n : Nat) : (regWriteEph x d v n).sent = x.sent := rfl
@[simp] theorem regWriteEph_clusterAt (x : Ctx) (d : Dest) (v : Vec) (n : Nat) : (regWriteEph x d v n).clusterAt = x.clusterAt := rfl
@[simp] theorem regWriteEph_early (x : Ctx) (d : Dest) (v : Vec) (n : Nat) : (regWriteEph x d v n).early = x.early := rfl
@[simp] theorem regWriteEph_notBefore (x : Ctx) (d : Dest) (v : Vec) (n : Nat) : (regWriteEph x d v n).notBefore = x.notBefore := rfl
@[simp] theorem regWriteEph_bundles (x : Ctx) (d : Dest) (v : Vec) (n : Nat) : (regWriteEph x d v n).bundles = x.bundles := rfl
@[simp] theorem regWriteEph_blocked (x : Ctx) (d : Dest) (v : Vec) (n : Nat) : (regWriteEph x d v n).blocked = x.blocked := rfl
@[simp] theorem regWriteEph_tried (x : Ctx) (d : Dest) (v : Vec) (n : Nat) : (regWriteEph x d v n).tried = x.tried := rfl
@[simp] theorem regWriteEph_wrote (x : Ctx) (d : Dest) (v : Vec) (n : Nat) : (regWriteEph x d v n).wrote = x.wrote := rfl
@[simp] theorem regWriteEph_wroteAt (x : Ctx) (d : Dest) (v : Vec) (n : Nat) : (regWriteEph x d v n).wroteAt = x.wroteAt := rfl
@[simp] theorem regWriteEph_jump (x : Ctx) (d : Dest) (v : Vec) (n : Nat) : (regWriteEph x d v n).jump = x.jump := rfl
@[simp] theorem regWriteEph_preempt (x : Ctx) (d : Dest) (v : Vec) (n : Nat) : (regWriteEph x d v n).preempt = x.preempt := rfl
@[simp] theorem regWriteEph_reissue (x : Ctx) (d : Dest) (v : Vec) (n : Nat) : (regWriteEph x d v n).reissue = x.reissue := rfl
@[simp] theorem regWriteEph_unmade (x : Ctx) (d : Dest) (v : Vec) (n : Nat) : (regWriteEph x d v n).unmade = x.unmade := rfl
@[simp] theorem regWriteEph_paid (x : Ctx) (d : Dest) (v : Vec) (n : Nat) : (regWriteEph x d v n).paid = x.paid := rfl
@[simp] theorem regWriteEph_onLine (x : Ctx) (d : Dest) (v : Vec) (n : Nat) : (regWriteEph x d v n).onLine = x.onLine := rfl
@[simp] theorem regWriteEph_heldAt (x : Ctx) (d : Dest) (v : Vec) (n : Nat) : (regWriteEph x d v n).heldAt = x.heldAt := rfl
@[simp] theorem regWriteEph_lastShuttle (x : Ctx) (d : Dest) (v : Vec) (n : Nat) : (regWriteEph x d v n).lastShuttle = x.lastShuttle := rfl
@[simp] theorem regWriteEph_lastFreight (x : Ctx) (d : Dest) (v : Vec) (n : Nat) : (regWriteEph x d v n).lastFreight = x.lastFreight := rfl
@[simp] theorem regWriteEph_pulled (x : Ctx) (d : Dest) (v : Vec) (n : Nat) : (regWriteEph x d v n).pulled = x.pulled := rfl
@[simp] theorem regWriteEph_pulledPops (x : Ctx) (d : Dest) (v : Vec) (n : Nat) : (regWriteEph x d v n).pulledPops = x.pulledPops := rfl
@[simp] theorem regWriteEph_stepped (x : Ctx) (d : Dest) (v : Vec) (n : Nat) : (regWriteEph x d v n).stepped = x.stepped := rfl

@[simp] theorem setQueue_run (x : Ctx) (q : Nat) (l : List W64) : (setQueue x q l).run = x.run := rfl
@[simp] theorem setQueue_slot (x : Ctx) (q : Nat) (l : List W64) : (setQueue x q l).slot = x.slot := rfl
@[simp] theorem setQueue_pc (x : Ctx) (q : Nat) (l : List W64) : (setQueue x q l).pc = x.pc := rfl
@[simp] theorem setQueue_regs (x : Ctx) (q : Nat) (l : List W64) : (setQueue x q l).regs = x.regs := rfl
@[simp] theorem setQueue_units (x : Ctx) (q : Nat) (l : List W64) : (setQueue x q l).units = x.units := rfl
@[simp] theorem setQueue_guards (x : Ctx) (q : Nat) (l : List W64) : (setQueue x q l).guards = x.guards := rfl
@[simp] theorem setQueue_xs (x : Ctx) (q : Nat) (l : List W64) : (setQueue x q l).xs = x.xs := rfl
@[simp] theorem setQueue_xd (x : Ctx) (q : Nat) (l : List W64) : (setQueue x q l).xd = x.xd := rfl
@[simp] theorem setQueue_xv (x : Ctx) (q : Nat) (l : List W64) : (setQueue x q l).xv = x.xv := rfl
@[simp] theorem setQueue_xh (x : Ctx) (q : Nat) (l : List W64) : (setQueue x q l).xh = x.xh := rfl
@[simp] theorem setQueue_vws (x : Ctx) (q : Nat) (l : List W64) : (setQueue x q l).vws = x.vws := rfl
@[simp] theorem setQueue_vwd (x : Ctx) (q : Nat) (l : List W64) : (setQueue x q l).vwd = x.vwd := rfl
@[simp] theorem setQueue_vwv (x : Ctx) (q : Nat) (l : List W64) : (setQueue x q l).vwv = x.vwv := rfl
@[simp] theorem setQueue_vwh (x : Ctx) (q : Nat) (l : List W64) : (setQueue x q l).vwh = x.vwh := rfl
@[simp] theorem setQueue_opnd (x : Ctx) (q : Nat) (l : List W64) : (setQueue x q l).opnd = x.opnd := rfl
@[simp] theorem setQueue_res (x : Ctx) (q : Nat) (l : List W64) : (setQueue x q l).res = x.res := rfl
@[simp] theorem setQueue_flags (x : Ctx) (q : Nat) (l : List W64) : (setQueue x q l).flags = x.flags := rfl
@[simp] theorem setQueue_pend (x : Ctx) (q : Nat) (l : List W64) : (setQueue x q l).pend = x.pend := rfl
@[simp] theorem setQueue_flights (x : Ctx) (q : Nat) (l : List W64) : (setQueue x q l).flights = x.flights := rfl
@[simp] theorem setQueue_loops (x : Ctx) (q : Nat) (l : List W64) : (setQueue x q l).loops = x.loops := rfl
@[simp] theorem setQueue_shadow (x : Ctx) (q : Nat) (l : List W64) : (setQueue x q l).shadow = x.shadow := rfl
@[simp] theorem setQueue_cause (x : Ctx) (q : Nat) (l : List W64) : (setQueue x q l).cause = x.cause := rfl
@[simp] theorem setQueue_tpc (x : Ctx) (q : Nat) (l : List W64) : (setQueue x q l).tpc = x.tpc := rfl
@[simp] theorem setQueue_tnext (x : Ctx) (q : Nat) (l : List W64) : (setQueue x q l).tnext = x.tnext := rfl
@[simp] theorem setQueue_info0 (x : Ctx) (q : Nat) (l : List W64) : (setQueue x q l).info0 = x.info0 := rfl
@[simp] theorem setQueue_info1 (x : Ctx) (q : Nat) (l : List W64) : (setQueue x q l).info1 = x.info1 := rfl
@[simp] theorem setQueue_vectors (x : Ctx) (q : Nat) (l : List W64) : (setQueue x q l).vectors = x.vectors := rfl
@[simp] theorem setQueue_snap (x : Ctx) (q : Nat) (l : List W64) : (setQueue x q l).snap = x.snap := rfl
@[simp] theorem setQueue_replay (x : Ctx) (q : Nat) (l : List W64) : (setQueue x q l).replay = x.replay := rfl
@[simp] theorem setQueue_psnap (x : Ctx) (q : Nat) (l : List W64) : (setQueue x q l).psnap = x.psnap := rfl
@[simp] theorem setQueue_counters (x : Ctx) (q : Nat) (l : List W64) : (setQueue x q l).counters = x.counters := rfl
@[simp] theorem setQueue_held (x : Ctx) (q : Nat) (l : List W64) : (setQueue x q l).held = x.held := rfl
@[simp] theorem setQueue_seq (x : Ctx) (q : Nat) (l : List W64) : (setQueue x q l).seq = x.seq := rfl
@[simp] theorem setQueue_bars (x : Ctx) (q : Nat) (l : List W64) : (setQueue x q l).bars = x.bars := rfl
@[simp] theorem setQueue_dirty (x : Ctx) (q : Nat) (l : List W64) : (setQueue x q l).dirty = x.dirty := rfl
@[simp] theorem setQueue_atTbar (x : Ctx) (q : Nat) (l : List W64) : (setQueue x q l).atTbar = x.atTbar := rfl
@[simp] theorem setQueue_atCbar (x : Ctx) (q : Nat) (l : List W64) : (setQueue x q l).atCbar = x.atCbar := rfl
@[simp] theorem setQueue_atStep (x : Ctx) (q : Nat) (l : List W64) : (setQueue x q l).atStep = x.atStep := rfl
@[simp] theorem setQueue_released (x : Ctx) (q : Nat) (l : List W64) : (setQueue x q l).released = x.released := rfl
@[simp] theorem setQueue_pendTrap (x : Ctx) (q : Nat) (l : List W64) : (setQueue x q l).pendTrap = x.pendTrap := rfl
@[simp] theorem setQueue_callEnd (x : Ctx) (q : Nat) (l : List W64) : (setQueue x q l).callEnd = x.callEnd := rfl
@[simp] theorem setQueue_down (x : Ctx) (q : Nat) (l : List W64) : (setQueue x q l).down = x.down := rfl
@[simp] theorem setQueue_fences (x : Ctx) (q : Nat) (l : List W64) : (setQueue x q l).fences = x.fences := rfl
@[simp] theorem setQueue_lastCore (x : Ctx) (q : Nat) (l : List W64) : (setQueue x q l).lastCore = x.lastCore := rfl
@[simp] theorem setQueue_walked (x : Ctx) (q : Nat) (l : List W64) : (setQueue x q l).walked = x.walked := rfl
@[simp] theorem setQueue_answer (x : Ctx) (q : Nat) (l : List W64) : (setQueue x q l).answer = x.answer := rfl
@[simp] theorem setQueue_sent (x : Ctx) (q : Nat) (l : List W64) : (setQueue x q l).sent = x.sent := rfl
@[simp] theorem setQueue_clusterAt (x : Ctx) (q : Nat) (l : List W64) : (setQueue x q l).clusterAt = x.clusterAt := rfl
@[simp] theorem setQueue_early (x : Ctx) (q : Nat) (l : List W64) : (setQueue x q l).early = x.early := rfl
@[simp] theorem setQueue_notBefore (x : Ctx) (q : Nat) (l : List W64) : (setQueue x q l).notBefore = x.notBefore := rfl
@[simp] theorem setQueue_bundles (x : Ctx) (q : Nat) (l : List W64) : (setQueue x q l).bundles = x.bundles := rfl
@[simp] theorem setQueue_blocked (x : Ctx) (q : Nat) (l : List W64) : (setQueue x q l).blocked = x.blocked := rfl
@[simp] theorem setQueue_tried (x : Ctx) (q : Nat) (l : List W64) : (setQueue x q l).tried = x.tried := rfl
@[simp] theorem setQueue_wrote (x : Ctx) (q : Nat) (l : List W64) : (setQueue x q l).wrote = x.wrote := rfl
@[simp] theorem setQueue_wroteAt (x : Ctx) (q : Nat) (l : List W64) : (setQueue x q l).wroteAt = x.wroteAt := rfl
@[simp] theorem setQueue_jump (x : Ctx) (q : Nat) (l : List W64) : (setQueue x q l).jump = x.jump := rfl
@[simp] theorem setQueue_preempt (x : Ctx) (q : Nat) (l : List W64) : (setQueue x q l).preempt = x.preempt := rfl
@[simp] theorem setQueue_reissue (x : Ctx) (q : Nat) (l : List W64) : (setQueue x q l).reissue = x.reissue := rfl
@[simp] theorem setQueue_unmade (x : Ctx) (q : Nat) (l : List W64) : (setQueue x q l).unmade = x.unmade := rfl
@[simp] theorem setQueue_paid (x : Ctx) (q : Nat) (l : List W64) : (setQueue x q l).paid = x.paid := rfl
@[simp] theorem setQueue_onLine (x : Ctx) (q : Nat) (l : List W64) : (setQueue x q l).onLine = x.onLine := rfl
@[simp] theorem setQueue_heldAt (x : Ctx) (q : Nat) (l : List W64) : (setQueue x q l).heldAt = x.heldAt := rfl
@[simp] theorem setQueue_lastShuttle (x : Ctx) (q : Nat) (l : List W64) : (setQueue x q l).lastShuttle = x.lastShuttle := rfl
@[simp] theorem setQueue_lastFreight (x : Ctx) (q : Nat) (l : List W64) : (setQueue x q l).lastFreight = x.lastFreight := rfl
@[simp] theorem setQueue_pulled (x : Ctx) (q : Nat) (l : List W64) : (setQueue x q l).pulled = x.pulled := rfl
@[simp] theorem setQueue_pulledPops (x : Ctx) (q : Nat) (l : List W64) : (setQueue x q l).pulledPops = x.pulledPops := rfl
@[simp] theorem setQueue_stepped (x : Ctx) (q : Nat) (l : List W64) : (setQueue x q l).stepped = x.stepped := rfl

@[simp] theorem unhold_run (x : Ctx) : (unhold x).run = x.run := rfl
@[simp] theorem unhold_slot (x : Ctx) : (unhold x).slot = x.slot := rfl
@[simp] theorem unhold_pc (x : Ctx) : (unhold x).pc = x.pc := rfl
@[simp] theorem unhold_regs (x : Ctx) : (unhold x).regs = x.regs := rfl
@[simp] theorem unhold_units (x : Ctx) : (unhold x).units = x.units := rfl
@[simp] theorem unhold_guards (x : Ctx) : (unhold x).guards = x.guards := rfl
@[simp] theorem unhold_xs (x : Ctx) : (unhold x).xs = x.xs := rfl
@[simp] theorem unhold_xd (x : Ctx) : (unhold x).xd = x.xd := rfl
@[simp] theorem unhold_xv (x : Ctx) : (unhold x).xv = x.xv := rfl
@[simp] theorem unhold_xh (x : Ctx) : (unhold x).xh = x.xh := rfl
@[simp] theorem unhold_vws (x : Ctx) : (unhold x).vws = x.vws := rfl
@[simp] theorem unhold_vwd (x : Ctx) : (unhold x).vwd = x.vwd := rfl
@[simp] theorem unhold_vwv (x : Ctx) : (unhold x).vwv = x.vwv := rfl
@[simp] theorem unhold_vwh (x : Ctx) : (unhold x).vwh = x.vwh := rfl
@[simp] theorem unhold_opnd (x : Ctx) : (unhold x).opnd = x.opnd := rfl
@[simp] theorem unhold_res (x : Ctx) : (unhold x).res = x.res := rfl
@[simp] theorem unhold_flags (x : Ctx) : (unhold x).flags = x.flags := rfl
@[simp] theorem unhold_pend (x : Ctx) : (unhold x).pend = x.pend := rfl
@[simp] theorem unhold_flights (x : Ctx) : (unhold x).flights = x.flights := rfl
@[simp] theorem unhold_loops (x : Ctx) : (unhold x).loops = x.loops := rfl
@[simp] theorem unhold_shadow (x : Ctx) : (unhold x).shadow = x.shadow := rfl
@[simp] theorem unhold_cause (x : Ctx) : (unhold x).cause = x.cause := rfl
@[simp] theorem unhold_tpc (x : Ctx) : (unhold x).tpc = x.tpc := rfl
@[simp] theorem unhold_tnext (x : Ctx) : (unhold x).tnext = x.tnext := rfl
@[simp] theorem unhold_info0 (x : Ctx) : (unhold x).info0 = x.info0 := rfl
@[simp] theorem unhold_info1 (x : Ctx) : (unhold x).info1 = x.info1 := rfl
@[simp] theorem unhold_vectors (x : Ctx) : (unhold x).vectors = x.vectors := rfl
@[simp] theorem unhold_snap (x : Ctx) : (unhold x).snap = x.snap := rfl
@[simp] theorem unhold_replay (x : Ctx) : (unhold x).replay = x.replay := rfl
@[simp] theorem unhold_psnap (x : Ctx) : (unhold x).psnap = x.psnap := rfl
@[simp] theorem unhold_queues (x : Ctx) : (unhold x).queues = x.queues := rfl
@[simp] theorem unhold_counters (x : Ctx) : (unhold x).counters = x.counters := rfl
@[simp] theorem unhold_held (x : Ctx) : (unhold x).held = x.held := rfl
@[simp] theorem unhold_seq (x : Ctx) : (unhold x).seq = x.seq := rfl
@[simp] theorem unhold_bars (x : Ctx) : (unhold x).bars = x.bars := rfl
@[simp] theorem unhold_dirty (x : Ctx) : (unhold x).dirty = x.dirty := rfl
@[simp] theorem unhold_atTbar (x : Ctx) : (unhold x).atTbar = x.atTbar := rfl
@[simp] theorem unhold_atCbar (x : Ctx) : (unhold x).atCbar = x.atCbar := rfl
@[simp] theorem unhold_atStep (x : Ctx) : (unhold x).atStep = x.atStep := rfl
@[simp] theorem unhold_released (x : Ctx) : (unhold x).released = x.released := rfl
@[simp] theorem unhold_pendTrap (x : Ctx) : (unhold x).pendTrap = x.pendTrap := rfl
@[simp] theorem unhold_callEnd (x : Ctx) : (unhold x).callEnd = x.callEnd := rfl
@[simp] theorem unhold_down (x : Ctx) : (unhold x).down = x.down := rfl
@[simp] theorem unhold_fences (x : Ctx) : (unhold x).fences = x.fences := rfl
@[simp] theorem unhold_lastCore (x : Ctx) : (unhold x).lastCore = x.lastCore := rfl
@[simp] theorem unhold_notBefore (x : Ctx) : (unhold x).notBefore = x.notBefore := rfl
@[simp] theorem unhold_bundles (x : Ctx) : (unhold x).bundles = x.bundles := rfl
@[simp] theorem unhold_tried (x : Ctx) : (unhold x).tried = x.tried := rfl
@[simp] theorem unhold_wrote (x : Ctx) : (unhold x).wrote = x.wrote := rfl
@[simp] theorem unhold_wroteAt (x : Ctx) : (unhold x).wroteAt = x.wroteAt := rfl
@[simp] theorem unhold_jump (x : Ctx) : (unhold x).jump = x.jump := rfl
@[simp] theorem unhold_preempt (x : Ctx) : (unhold x).preempt = x.preempt := rfl
@[simp] theorem unhold_reissue (x : Ctx) : (unhold x).reissue = x.reissue := rfl
@[simp] theorem unhold_heldAt (x : Ctx) : (unhold x).heldAt = x.heldAt := rfl
@[simp] theorem unhold_lastShuttle (x : Ctx) : (unhold x).lastShuttle = x.lastShuttle := rfl
@[simp] theorem unhold_lastFreight (x : Ctx) : (unhold x).lastFreight = x.lastFreight := rfl
@[simp] theorem unhold_pulled (x : Ctx) : (unhold x).pulled = x.pulled := rfl
@[simp] theorem unhold_pulledPops (x : Ctx) : (unhold x).pulledPops = x.pulledPops := rfl
@[simp] theorem unhold_stepped (x : Ctx) : (unhold x).stepped = x.stepped := rfl
@[simp] theorem unhold_blocked (x : Ctx) : (unhold x).blocked = .none := rfl
@[simp] theorem unhold_sent (x : Ctx) : (unhold x).sent = false := rfl
@[simp] theorem unhold_answer (x : Ctx) : (unhold x).answer = none := rfl
@[simp] theorem unhold_clusterAt (x : Ctx) : (unhold x).clusterAt = none := rfl
@[simp] theorem unhold_early (x : Ctx) : (unhold x).early = none := rfl
@[simp] theorem unhold_walked (x : Ctx) : (unhold x).walked = [] := rfl
@[simp] theorem unhold_unmade (x : Ctx) : (unhold x).unmade = [] := rfl
@[simp] theorem unhold_paid (x : Ctx) : (unhold x).paid = [] := rfl
@[simp] theorem unhold_onLine (x : Ctx) : (unhold x).onLine = false := rfl

@[simp] theorem noteWrite_run (x : Ctx) (d : Dest) (n : Nat) : (noteWrite x d n).run = x.run := rfl
@[simp] theorem noteWrite_slot (x : Ctx) (d : Dest) (n : Nat) : (noteWrite x d n).slot = x.slot := rfl
@[simp] theorem noteWrite_pc (x : Ctx) (d : Dest) (n : Nat) : (noteWrite x d n).pc = x.pc := rfl
@[simp] theorem noteWrite_regs (x : Ctx) (d : Dest) (n : Nat) : (noteWrite x d n).regs = x.regs := rfl
@[simp] theorem noteWrite_units (x : Ctx) (d : Dest) (n : Nat) : (noteWrite x d n).units = x.units := rfl
@[simp] theorem noteWrite_guards (x : Ctx) (d : Dest) (n : Nat) : (noteWrite x d n).guards = x.guards := rfl
@[simp] theorem noteWrite_xs (x : Ctx) (d : Dest) (n : Nat) : (noteWrite x d n).xs = x.xs := rfl
@[simp] theorem noteWrite_xd (x : Ctx) (d : Dest) (n : Nat) : (noteWrite x d n).xd = x.xd := rfl
@[simp] theorem noteWrite_xv (x : Ctx) (d : Dest) (n : Nat) : (noteWrite x d n).xv = x.xv := rfl
@[simp] theorem noteWrite_xh (x : Ctx) (d : Dest) (n : Nat) : (noteWrite x d n).xh = x.xh := rfl
@[simp] theorem noteWrite_vws (x : Ctx) (d : Dest) (n : Nat) : (noteWrite x d n).vws = x.vws := rfl
@[simp] theorem noteWrite_vwd (x : Ctx) (d : Dest) (n : Nat) : (noteWrite x d n).vwd = x.vwd := rfl
@[simp] theorem noteWrite_vwv (x : Ctx) (d : Dest) (n : Nat) : (noteWrite x d n).vwv = x.vwv := rfl
@[simp] theorem noteWrite_vwh (x : Ctx) (d : Dest) (n : Nat) : (noteWrite x d n).vwh = x.vwh := rfl
@[simp] theorem noteWrite_opnd (x : Ctx) (d : Dest) (n : Nat) : (noteWrite x d n).opnd = x.opnd := rfl
@[simp] theorem noteWrite_res (x : Ctx) (d : Dest) (n : Nat) : (noteWrite x d n).res = x.res := rfl
@[simp] theorem noteWrite_flags (x : Ctx) (d : Dest) (n : Nat) : (noteWrite x d n).flags = x.flags := rfl
@[simp] theorem noteWrite_pend (x : Ctx) (d : Dest) (n : Nat) : (noteWrite x d n).pend = x.pend := rfl
@[simp] theorem noteWrite_flights (x : Ctx) (d : Dest) (n : Nat) : (noteWrite x d n).flights = x.flights := rfl
@[simp] theorem noteWrite_loops (x : Ctx) (d : Dest) (n : Nat) : (noteWrite x d n).loops = x.loops := rfl
@[simp] theorem noteWrite_shadow (x : Ctx) (d : Dest) (n : Nat) : (noteWrite x d n).shadow = x.shadow := rfl
@[simp] theorem noteWrite_cause (x : Ctx) (d : Dest) (n : Nat) : (noteWrite x d n).cause = x.cause := rfl
@[simp] theorem noteWrite_tpc (x : Ctx) (d : Dest) (n : Nat) : (noteWrite x d n).tpc = x.tpc := rfl
@[simp] theorem noteWrite_tnext (x : Ctx) (d : Dest) (n : Nat) : (noteWrite x d n).tnext = x.tnext := rfl
@[simp] theorem noteWrite_info0 (x : Ctx) (d : Dest) (n : Nat) : (noteWrite x d n).info0 = x.info0 := rfl
@[simp] theorem noteWrite_info1 (x : Ctx) (d : Dest) (n : Nat) : (noteWrite x d n).info1 = x.info1 := rfl
@[simp] theorem noteWrite_vectors (x : Ctx) (d : Dest) (n : Nat) : (noteWrite x d n).vectors = x.vectors := rfl
@[simp] theorem noteWrite_snap (x : Ctx) (d : Dest) (n : Nat) : (noteWrite x d n).snap = x.snap := rfl
@[simp] theorem noteWrite_replay (x : Ctx) (d : Dest) (n : Nat) : (noteWrite x d n).replay = x.replay := rfl
@[simp] theorem noteWrite_psnap (x : Ctx) (d : Dest) (n : Nat) : (noteWrite x d n).psnap = x.psnap := rfl
@[simp] theorem noteWrite_queues (x : Ctx) (d : Dest) (n : Nat) : (noteWrite x d n).queues = x.queues := rfl
@[simp] theorem noteWrite_counters (x : Ctx) (d : Dest) (n : Nat) : (noteWrite x d n).counters = x.counters := rfl
@[simp] theorem noteWrite_held (x : Ctx) (d : Dest) (n : Nat) : (noteWrite x d n).held = x.held := rfl
@[simp] theorem noteWrite_seq (x : Ctx) (d : Dest) (n : Nat) : (noteWrite x d n).seq = x.seq := rfl
@[simp] theorem noteWrite_bars (x : Ctx) (d : Dest) (n : Nat) : (noteWrite x d n).bars = x.bars := rfl
@[simp] theorem noteWrite_dirty (x : Ctx) (d : Dest) (n : Nat) : (noteWrite x d n).dirty = x.dirty := rfl
@[simp] theorem noteWrite_atTbar (x : Ctx) (d : Dest) (n : Nat) : (noteWrite x d n).atTbar = x.atTbar := rfl
@[simp] theorem noteWrite_atCbar (x : Ctx) (d : Dest) (n : Nat) : (noteWrite x d n).atCbar = x.atCbar := rfl
@[simp] theorem noteWrite_atStep (x : Ctx) (d : Dest) (n : Nat) : (noteWrite x d n).atStep = x.atStep := rfl
@[simp] theorem noteWrite_released (x : Ctx) (d : Dest) (n : Nat) : (noteWrite x d n).released = x.released := rfl
@[simp] theorem noteWrite_pendTrap (x : Ctx) (d : Dest) (n : Nat) : (noteWrite x d n).pendTrap = x.pendTrap := rfl
@[simp] theorem noteWrite_callEnd (x : Ctx) (d : Dest) (n : Nat) : (noteWrite x d n).callEnd = x.callEnd := rfl
@[simp] theorem noteWrite_down (x : Ctx) (d : Dest) (n : Nat) : (noteWrite x d n).down = x.down := rfl
@[simp] theorem noteWrite_fences (x : Ctx) (d : Dest) (n : Nat) : (noteWrite x d n).fences = x.fences := rfl
@[simp] theorem noteWrite_lastCore (x : Ctx) (d : Dest) (n : Nat) : (noteWrite x d n).lastCore = x.lastCore := rfl
@[simp] theorem noteWrite_walked (x : Ctx) (d : Dest) (n : Nat) : (noteWrite x d n).walked = x.walked := rfl
@[simp] theorem noteWrite_answer (x : Ctx) (d : Dest) (n : Nat) : (noteWrite x d n).answer = x.answer := rfl
@[simp] theorem noteWrite_sent (x : Ctx) (d : Dest) (n : Nat) : (noteWrite x d n).sent = x.sent := rfl
@[simp] theorem noteWrite_clusterAt (x : Ctx) (d : Dest) (n : Nat) : (noteWrite x d n).clusterAt = x.clusterAt := rfl
@[simp] theorem noteWrite_early (x : Ctx) (d : Dest) (n : Nat) : (noteWrite x d n).early = x.early := rfl
@[simp] theorem noteWrite_notBefore (x : Ctx) (d : Dest) (n : Nat) : (noteWrite x d n).notBefore = x.notBefore := rfl
@[simp] theorem noteWrite_bundles (x : Ctx) (d : Dest) (n : Nat) : (noteWrite x d n).bundles = x.bundles := rfl
@[simp] theorem noteWrite_blocked (x : Ctx) (d : Dest) (n : Nat) : (noteWrite x d n).blocked = x.blocked := rfl
@[simp] theorem noteWrite_tried (x : Ctx) (d : Dest) (n : Nat) : (noteWrite x d n).tried = x.tried := rfl
@[simp] theorem noteWrite_jump (x : Ctx) (d : Dest) (n : Nat) : (noteWrite x d n).jump = x.jump := rfl
@[simp] theorem noteWrite_preempt (x : Ctx) (d : Dest) (n : Nat) : (noteWrite x d n).preempt = x.preempt := rfl
@[simp] theorem noteWrite_reissue (x : Ctx) (d : Dest) (n : Nat) : (noteWrite x d n).reissue = x.reissue := rfl
@[simp] theorem noteWrite_unmade (x : Ctx) (d : Dest) (n : Nat) : (noteWrite x d n).unmade = x.unmade := rfl
@[simp] theorem noteWrite_paid (x : Ctx) (d : Dest) (n : Nat) : (noteWrite x d n).paid = x.paid := rfl
@[simp] theorem noteWrite_onLine (x : Ctx) (d : Dest) (n : Nat) : (noteWrite x d n).onLine = x.onLine := rfl
@[simp] theorem noteWrite_heldAt (x : Ctx) (d : Dest) (n : Nat) : (noteWrite x d n).heldAt = x.heldAt := rfl
@[simp] theorem noteWrite_lastShuttle (x : Ctx) (d : Dest) (n : Nat) : (noteWrite x d n).lastShuttle = x.lastShuttle := rfl
@[simp] theorem noteWrite_lastFreight (x : Ctx) (d : Dest) (n : Nat) : (noteWrite x d n).lastFreight = x.lastFreight := rfl
@[simp] theorem noteWrite_pulled (x : Ctx) (d : Dest) (n : Nat) : (noteWrite x d n).pulled = x.pulled := rfl
@[simp] theorem noteWrite_pulledPops (x : Ctx) (d : Dest) (n : Nat) : (noteWrite x d n).pulledPops = x.pulledPops := rfl
@[simp] theorem noteWrite_stepped (x : Ctx) (d : Dest) (n : Nat) : (noteWrite x d n).stepped = x.stepped := rfl

@[simp] theorem bumpCtx_run (x : Ctx) (e n : Nat) : (bumpCtx e n x).run = x.run := rfl
@[simp] theorem bumpCtx_slot (x : Ctx) (e n : Nat) : (bumpCtx e n x).slot = x.slot := rfl
@[simp] theorem bumpCtx_pc (x : Ctx) (e n : Nat) : (bumpCtx e n x).pc = x.pc := rfl
@[simp] theorem bumpCtx_regs (x : Ctx) (e n : Nat) : (bumpCtx e n x).regs = x.regs := rfl
@[simp] theorem bumpCtx_units (x : Ctx) (e n : Nat) : (bumpCtx e n x).units = x.units := rfl
@[simp] theorem bumpCtx_guards (x : Ctx) (e n : Nat) : (bumpCtx e n x).guards = x.guards := rfl
@[simp] theorem bumpCtx_xs (x : Ctx) (e n : Nat) : (bumpCtx e n x).xs = x.xs := rfl
@[simp] theorem bumpCtx_xd (x : Ctx) (e n : Nat) : (bumpCtx e n x).xd = x.xd := rfl
@[simp] theorem bumpCtx_xv (x : Ctx) (e n : Nat) : (bumpCtx e n x).xv = x.xv := rfl
@[simp] theorem bumpCtx_xh (x : Ctx) (e n : Nat) : (bumpCtx e n x).xh = x.xh := rfl
@[simp] theorem bumpCtx_vws (x : Ctx) (e n : Nat) : (bumpCtx e n x).vws = x.vws := rfl
@[simp] theorem bumpCtx_vwd (x : Ctx) (e n : Nat) : (bumpCtx e n x).vwd = x.vwd := rfl
@[simp] theorem bumpCtx_vwv (x : Ctx) (e n : Nat) : (bumpCtx e n x).vwv = x.vwv := rfl
@[simp] theorem bumpCtx_vwh (x : Ctx) (e n : Nat) : (bumpCtx e n x).vwh = x.vwh := rfl
@[simp] theorem bumpCtx_opnd (x : Ctx) (e n : Nat) : (bumpCtx e n x).opnd = x.opnd := rfl
@[simp] theorem bumpCtx_res (x : Ctx) (e n : Nat) : (bumpCtx e n x).res = x.res := rfl
@[simp] theorem bumpCtx_flags (x : Ctx) (e n : Nat) : (bumpCtx e n x).flags = x.flags := rfl
@[simp] theorem bumpCtx_pend (x : Ctx) (e n : Nat) : (bumpCtx e n x).pend = x.pend := rfl
@[simp] theorem bumpCtx_flights (x : Ctx) (e n : Nat) : (bumpCtx e n x).flights = x.flights := rfl
@[simp] theorem bumpCtx_loops (x : Ctx) (e n : Nat) : (bumpCtx e n x).loops = x.loops := rfl
@[simp] theorem bumpCtx_shadow (x : Ctx) (e n : Nat) : (bumpCtx e n x).shadow = x.shadow := rfl
@[simp] theorem bumpCtx_cause (x : Ctx) (e n : Nat) : (bumpCtx e n x).cause = x.cause := rfl
@[simp] theorem bumpCtx_tpc (x : Ctx) (e n : Nat) : (bumpCtx e n x).tpc = x.tpc := rfl
@[simp] theorem bumpCtx_tnext (x : Ctx) (e n : Nat) : (bumpCtx e n x).tnext = x.tnext := rfl
@[simp] theorem bumpCtx_info0 (x : Ctx) (e n : Nat) : (bumpCtx e n x).info0 = x.info0 := rfl
@[simp] theorem bumpCtx_info1 (x : Ctx) (e n : Nat) : (bumpCtx e n x).info1 = x.info1 := rfl
@[simp] theorem bumpCtx_vectors (x : Ctx) (e n : Nat) : (bumpCtx e n x).vectors = x.vectors := rfl
@[simp] theorem bumpCtx_snap (x : Ctx) (e n : Nat) : (bumpCtx e n x).snap = x.snap := rfl
@[simp] theorem bumpCtx_replay (x : Ctx) (e n : Nat) : (bumpCtx e n x).replay = x.replay := rfl
@[simp] theorem bumpCtx_psnap (x : Ctx) (e n : Nat) : (bumpCtx e n x).psnap = x.psnap := rfl
@[simp] theorem bumpCtx_queues (x : Ctx) (e n : Nat) : (bumpCtx e n x).queues = x.queues := rfl
@[simp] theorem bumpCtx_held (x : Ctx) (e n : Nat) : (bumpCtx e n x).held = x.held := rfl
@[simp] theorem bumpCtx_seq (x : Ctx) (e n : Nat) : (bumpCtx e n x).seq = x.seq := rfl
@[simp] theorem bumpCtx_bars (x : Ctx) (e n : Nat) : (bumpCtx e n x).bars = x.bars := rfl
@[simp] theorem bumpCtx_dirty (x : Ctx) (e n : Nat) : (bumpCtx e n x).dirty = x.dirty := rfl
@[simp] theorem bumpCtx_atTbar (x : Ctx) (e n : Nat) : (bumpCtx e n x).atTbar = x.atTbar := rfl
@[simp] theorem bumpCtx_atCbar (x : Ctx) (e n : Nat) : (bumpCtx e n x).atCbar = x.atCbar := rfl
@[simp] theorem bumpCtx_atStep (x : Ctx) (e n : Nat) : (bumpCtx e n x).atStep = x.atStep := rfl
@[simp] theorem bumpCtx_released (x : Ctx) (e n : Nat) : (bumpCtx e n x).released = x.released := rfl
@[simp] theorem bumpCtx_pendTrap (x : Ctx) (e n : Nat) : (bumpCtx e n x).pendTrap = x.pendTrap := rfl
@[simp] theorem bumpCtx_callEnd (x : Ctx) (e n : Nat) : (bumpCtx e n x).callEnd = x.callEnd := rfl
@[simp] theorem bumpCtx_down (x : Ctx) (e n : Nat) : (bumpCtx e n x).down = x.down := rfl
@[simp] theorem bumpCtx_fences (x : Ctx) (e n : Nat) : (bumpCtx e n x).fences = x.fences := rfl
@[simp] theorem bumpCtx_lastCore (x : Ctx) (e n : Nat) : (bumpCtx e n x).lastCore = x.lastCore := rfl
@[simp] theorem bumpCtx_walked (x : Ctx) (e n : Nat) : (bumpCtx e n x).walked = x.walked := rfl
@[simp] theorem bumpCtx_answer (x : Ctx) (e n : Nat) : (bumpCtx e n x).answer = x.answer := rfl
@[simp] theorem bumpCtx_sent (x : Ctx) (e n : Nat) : (bumpCtx e n x).sent = x.sent := rfl
@[simp] theorem bumpCtx_clusterAt (x : Ctx) (e n : Nat) : (bumpCtx e n x).clusterAt = x.clusterAt := rfl
@[simp] theorem bumpCtx_early (x : Ctx) (e n : Nat) : (bumpCtx e n x).early = x.early := rfl
@[simp] theorem bumpCtx_notBefore (x : Ctx) (e n : Nat) : (bumpCtx e n x).notBefore = x.notBefore := rfl
@[simp] theorem bumpCtx_bundles (x : Ctx) (e n : Nat) : (bumpCtx e n x).bundles = x.bundles := rfl
@[simp] theorem bumpCtx_blocked (x : Ctx) (e n : Nat) : (bumpCtx e n x).blocked = x.blocked := rfl
@[simp] theorem bumpCtx_tried (x : Ctx) (e n : Nat) : (bumpCtx e n x).tried = x.tried := rfl
@[simp] theorem bumpCtx_wrote (x : Ctx) (e n : Nat) : (bumpCtx e n x).wrote = x.wrote := rfl
@[simp] theorem bumpCtx_wroteAt (x : Ctx) (e n : Nat) : (bumpCtx e n x).wroteAt = x.wroteAt := rfl
@[simp] theorem bumpCtx_jump (x : Ctx) (e n : Nat) : (bumpCtx e n x).jump = x.jump := rfl
@[simp] theorem bumpCtx_preempt (x : Ctx) (e n : Nat) : (bumpCtx e n x).preempt = x.preempt := rfl
@[simp] theorem bumpCtx_reissue (x : Ctx) (e n : Nat) : (bumpCtx e n x).reissue = x.reissue := rfl
@[simp] theorem bumpCtx_unmade (x : Ctx) (e n : Nat) : (bumpCtx e n x).unmade = x.unmade := rfl
@[simp] theorem bumpCtx_paid (x : Ctx) (e n : Nat) : (bumpCtx e n x).paid = x.paid := rfl
@[simp] theorem bumpCtx_onLine (x : Ctx) (e n : Nat) : (bumpCtx e n x).onLine = x.onLine := rfl
@[simp] theorem bumpCtx_heldAt (x : Ctx) (e n : Nat) : (bumpCtx e n x).heldAt = x.heldAt := rfl
@[simp] theorem bumpCtx_lastShuttle (x : Ctx) (e n : Nat) : (bumpCtx e n x).lastShuttle = x.lastShuttle := rfl
@[simp] theorem bumpCtx_lastFreight (x : Ctx) (e n : Nat) : (bumpCtx e n x).lastFreight = x.lastFreight := rfl
@[simp] theorem bumpCtx_pulled (x : Ctx) (e n : Nat) : (bumpCtx e n x).pulled = x.pulled := rfl
@[simp] theorem bumpCtx_pulledPops (x : Ctx) (e n : Nat) : (bumpCtx e n x).pulledPops = x.pulledPops := rfl
@[simp] theorem bumpCtx_stepped (x : Ctx) (e n : Nat) : (bumpCtx e n x).stepped = x.stepped := rfl

@[simp] theorem replayNow_run (x : Ctx) (n : Nat) : (replayNow x n).run = x.run := rfl
@[simp] theorem replayNow_slot (x : Ctx) (n : Nat) : (replayNow x n).slot = x.slot := rfl
@[simp] theorem replayNow_pc (x : Ctx) (n : Nat) : (replayNow x n).pc = x.pc := rfl
@[simp] theorem replayNow_regs (x : Ctx) (n : Nat) : (replayNow x n).regs = x.regs := rfl
@[simp] theorem replayNow_units (x : Ctx) (n : Nat) : (replayNow x n).units = x.units := rfl
@[simp] theorem replayNow_guards (x : Ctx) (n : Nat) : (replayNow x n).guards = x.guards := rfl
@[simp] theorem replayNow_xs (x : Ctx) (n : Nat) : (replayNow x n).xs = x.xs := rfl
@[simp] theorem replayNow_xd (x : Ctx) (n : Nat) : (replayNow x n).xd = x.xd := rfl
@[simp] theorem replayNow_xv (x : Ctx) (n : Nat) : (replayNow x n).xv = x.xv := rfl
@[simp] theorem replayNow_xh (x : Ctx) (n : Nat) : (replayNow x n).xh = x.xh := rfl
@[simp] theorem replayNow_vws (x : Ctx) (n : Nat) : (replayNow x n).vws = x.vws := rfl
@[simp] theorem replayNow_vwd (x : Ctx) (n : Nat) : (replayNow x n).vwd = x.vwd := rfl
@[simp] theorem replayNow_vwv (x : Ctx) (n : Nat) : (replayNow x n).vwv = x.vwv := rfl
@[simp] theorem replayNow_vwh (x : Ctx) (n : Nat) : (replayNow x n).vwh = x.vwh := rfl
@[simp] theorem replayNow_opnd (x : Ctx) (n : Nat) : (replayNow x n).opnd = x.opnd := rfl
@[simp] theorem replayNow_res (x : Ctx) (n : Nat) : (replayNow x n).res = x.res := rfl
@[simp] theorem replayNow_flags (x : Ctx) (n : Nat) : (replayNow x n).flags = x.flags := rfl
@[simp] theorem replayNow_pend (x : Ctx) (n : Nat) : (replayNow x n).pend = x.pend := rfl
@[simp] theorem replayNow_loops (x : Ctx) (n : Nat) : (replayNow x n).loops = x.loops := rfl
@[simp] theorem replayNow_shadow (x : Ctx) (n : Nat) : (replayNow x n).shadow = x.shadow := rfl
@[simp] theorem replayNow_cause (x : Ctx) (n : Nat) : (replayNow x n).cause = x.cause := rfl
@[simp] theorem replayNow_tpc (x : Ctx) (n : Nat) : (replayNow x n).tpc = x.tpc := rfl
@[simp] theorem replayNow_tnext (x : Ctx) (n : Nat) : (replayNow x n).tnext = x.tnext := rfl
@[simp] theorem replayNow_info0 (x : Ctx) (n : Nat) : (replayNow x n).info0 = x.info0 := rfl
@[simp] theorem replayNow_info1 (x : Ctx) (n : Nat) : (replayNow x n).info1 = x.info1 := rfl
@[simp] theorem replayNow_vectors (x : Ctx) (n : Nat) : (replayNow x n).vectors = x.vectors := rfl
@[simp] theorem replayNow_snap (x : Ctx) (n : Nat) : (replayNow x n).snap = x.snap := rfl
@[simp] theorem replayNow_psnap (x : Ctx) (n : Nat) : (replayNow x n).psnap = x.psnap := rfl
@[simp] theorem replayNow_queues (x : Ctx) (n : Nat) : (replayNow x n).queues = x.queues := rfl
@[simp] theorem replayNow_counters (x : Ctx) (n : Nat) : (replayNow x n).counters = x.counters := rfl
@[simp] theorem replayNow_held (x : Ctx) (n : Nat) : (replayNow x n).held = x.held := rfl
@[simp] theorem replayNow_seq (x : Ctx) (n : Nat) : (replayNow x n).seq = x.seq := rfl
@[simp] theorem replayNow_bars (x : Ctx) (n : Nat) : (replayNow x n).bars = x.bars := rfl
@[simp] theorem replayNow_dirty (x : Ctx) (n : Nat) : (replayNow x n).dirty = x.dirty := rfl
@[simp] theorem replayNow_atTbar (x : Ctx) (n : Nat) : (replayNow x n).atTbar = x.atTbar := rfl
@[simp] theorem replayNow_atCbar (x : Ctx) (n : Nat) : (replayNow x n).atCbar = x.atCbar := rfl
@[simp] theorem replayNow_atStep (x : Ctx) (n : Nat) : (replayNow x n).atStep = x.atStep := rfl
@[simp] theorem replayNow_released (x : Ctx) (n : Nat) : (replayNow x n).released = x.released := rfl
@[simp] theorem replayNow_pendTrap (x : Ctx) (n : Nat) : (replayNow x n).pendTrap = x.pendTrap := rfl
@[simp] theorem replayNow_callEnd (x : Ctx) (n : Nat) : (replayNow x n).callEnd = x.callEnd := rfl
@[simp] theorem replayNow_down (x : Ctx) (n : Nat) : (replayNow x n).down = x.down := rfl
@[simp] theorem replayNow_fences (x : Ctx) (n : Nat) : (replayNow x n).fences = x.fences := rfl
@[simp] theorem replayNow_lastCore (x : Ctx) (n : Nat) : (replayNow x n).lastCore = x.lastCore := rfl
@[simp] theorem replayNow_walked (x : Ctx) (n : Nat) : (replayNow x n).walked = x.walked := rfl
@[simp] theorem replayNow_answer (x : Ctx) (n : Nat) : (replayNow x n).answer = x.answer := rfl
@[simp] theorem replayNow_sent (x : Ctx) (n : Nat) : (replayNow x n).sent = x.sent := rfl
@[simp] theorem replayNow_clusterAt (x : Ctx) (n : Nat) : (replayNow x n).clusterAt = x.clusterAt := rfl
@[simp] theorem replayNow_early (x : Ctx) (n : Nat) : (replayNow x n).early = x.early := rfl
@[simp] theorem replayNow_notBefore (x : Ctx) (n : Nat) : (replayNow x n).notBefore = x.notBefore := rfl
@[simp] theorem replayNow_bundles (x : Ctx) (n : Nat) : (replayNow x n).bundles = x.bundles := rfl
@[simp] theorem replayNow_blocked (x : Ctx) (n : Nat) : (replayNow x n).blocked = x.blocked := rfl
@[simp] theorem replayNow_tried (x : Ctx) (n : Nat) : (replayNow x n).tried = x.tried := rfl
@[simp] theorem replayNow_wrote (x : Ctx) (n : Nat) : (replayNow x n).wrote = x.wrote := rfl
@[simp] theorem replayNow_wroteAt (x : Ctx) (n : Nat) : (replayNow x n).wroteAt = x.wroteAt := rfl
@[simp] theorem replayNow_jump (x : Ctx) (n : Nat) : (replayNow x n).jump = x.jump := rfl
@[simp] theorem replayNow_preempt (x : Ctx) (n : Nat) : (replayNow x n).preempt = x.preempt := rfl
@[simp] theorem replayNow_reissue (x : Ctx) (n : Nat) : (replayNow x n).reissue = x.reissue := rfl
@[simp] theorem replayNow_unmade (x : Ctx) (n : Nat) : (replayNow x n).unmade = x.unmade := rfl
@[simp] theorem replayNow_paid (x : Ctx) (n : Nat) : (replayNow x n).paid = x.paid := rfl
@[simp] theorem replayNow_onLine (x : Ctx) (n : Nat) : (replayNow x n).onLine = x.onLine := rfl
@[simp] theorem replayNow_heldAt (x : Ctx) (n : Nat) : (replayNow x n).heldAt = x.heldAt := rfl
@[simp] theorem replayNow_lastShuttle (x : Ctx) (n : Nat) : (replayNow x n).lastShuttle = x.lastShuttle := rfl
@[simp] theorem replayNow_lastFreight (x : Ctx) (n : Nat) : (replayNow x n).lastFreight = x.lastFreight := rfl
@[simp] theorem replayNow_pulled (x : Ctx) (n : Nat) : (replayNow x n).pulled = x.pulled := rfl
@[simp] theorem replayNow_pulledPops (x : Ctx) (n : Nat) : (replayNow x n).pulledPops = x.pulledPops := rfl
@[simp] theorem replayNow_stepped (x : Ctx) (n : Nat) : (replayNow x n).stepped = x.stepped := rfl

end Sys2Proof.Machine
end

