-- ==== Sys2Proof/Laws/Issue.lean ====
section
/-! SUPPORT. What issuing one move does, once and for all (R265): a plain move issues when its source can be read and
its destination takes it; a trigger issues when it starts. -/

namespace Sys2Proof.Machine

theorem sole_active (m : Mv) (a : Act) (s : State) (h : guardHolds m s) : (solePart m a s).active s.cx = true := by
  unfold Part.active solePart
  rcases h with h | h
  · simp [h]
  · by_cases hg : m.g = 0
    · simp [hg]
    · simp only [hg, if_false, bne_iff_ne]
      exact h

theorem sole_decode (m : Mv) (a : Act) (s : State) (h : moveSound m a.isReg)
    (ht : ∀ o, a = .trig o → o.dec s.cx s.iss.slot = none) : (solePart m a s).decode s.cx = none := by
  obtain ⟨h1, h2⟩ := h
  have hs : srcAssigned (solePart m a s).src = true := h1
  have hf : ((solePart m a s).mv.f && !isRegPort (solePart m a s).src && !(solePart m a s).act.isReg) = false := by
    simp only [solePart, Part.src]
    rcases h2 with h | h | h <;> simp [h]
  unfold Part.decode
  rw [if_neg (by simp [hs]), if_neg (by simp [hf])]
  cases a with
  | trig o =>
    change (if (solePart m (.trig o) s).active s.cx = true then o.dec s.cx s.iss.slot else none) = none
    rw [ht o rfl]
    simp
  | _ => rfl

theorem sole_readTrap (m : Mv) (a : Act) (s : State) (h : sourceReady m s) :
    (solePart m a s).readTrap s.cx s.cycle = none := by
  unfold Part.readTrap
  split
  · next hr => rw [show regState s.cx (resolve s.cx (solePart m a s).src) s.cycle = .full from h.1 hr]
  · rfl

theorem sole_blocks (m : Mv) (a : Act) (s : State) (l : List Nat) (h : sourceReady m s)
    (hq : ∀ q, a = .queue q → (if l.contains q then (queueOf s.cx q).tail else queueOf s.cx q).length < 16) :
    (solePart m a s).blocks l s.cx s.cycle = .none := by
  unfold Part.blocks
  rw [if_neg (by
    rintro ⟨hr, he⟩
    have := h.1 hr
    rw [show (solePart m a s).src = m.s.toNat from rfl] at he
    rw [this] at he
    exact RegSt.noConfusion he)]
  have hp : ∀ q, (solePart m a s).pops = some q → (queueOf s.cx q).isEmpty = false := by
    intro q hq'
    unfold Part.pops at hq'
    split at hq'
    · next hc =>
      simp only [Bool.and_eq_true, decide_eq_true_eq] at hc
      have h2 := h.2 hc.1 hc.2
      have : m.s.toNat - 0x380 = q := by simpa [solePart, Part.src] using hq'
      subst this
      simpa using h2
    · exact absurd hq' (by simp)
  rw [if_neg (by split <;> simp_all)]
  cases a with
  | queue q =>
    have := hq q rfl
    simp only [solePart]
    rw [if_neg (by omega)]
  | _ => rfl

/-- R265. A move whose source is ready can be read. -/
theorem sole_readable (m : Mv) (a : Act) (s : State) (h : sourceReady m s) :
    (solePart m a s).readable s.cx s.cycle = true := by
  unfold Part.readable
  have hs : (solePart m a s).src = m.s.toNat := rfl
  rw [Bool.and_eq_true, hs]
  constructor
  · by_cases hr : isRegPort m.s.toNat = true
    · simp [h.1 hr]
    · simp [Bool.eq_false_iff.mpr hr]
  · unfold Part.pops
    rw [hs]
    by_cases hc : 0x380 ≤ m.s.toNat ∧ m.s.toNat < 0x390
    · simpa [hc.1, hc.2] using h.2 hc.1 hc.2
    · simp only [Bool.and_eq_true, decide_eq_true_eq, hc, if_false]

/-- R314. A trigger alone in its bundle, whose value can be read, is judged on every port. -/
theorem sole_shape (m : Mv) (o : Op) (s : State) (h : sourceReady m s)
    (hs : o.shape (soleReq o m s) (fun _ => true) s = none) :
    shapeTraps s s.iss.ctx s.iss.limm [solePart m (.trig o) s] = [] := by
  have hr := sole_readable m (.trig o) s h
  have hb : ([solePart m (.trig o) s].filter fun i => !i.readable (s.ctx s.iss.ctx) s.cycle) = [] := by
    simp [hr]
  have hreq : requests s s.iss.ctx s.iss.limm [solePart m (.trig o) s] = [(o, soleReq o m s)] := rfl
  unfold shapeTraps
  simp only [hb, hreq]
  simp [hs]

theorem pendFits_zero (p : Pend) : pendFits p 0 = true := by
  unfold pendFits
  rw [List.all_eq_true]
  intro k _
  simpa using (pendOf p k).isLt

/-- R265. The end of a bundle whose moves decode, can be read and do not wait. -/
theorem issueItems_ready (c : Nat) (limm : BitVec 32) (items active : List Part) (s : State)
    (hd : leastCode ((items.filterMap fun i => i.decode (s.ctx c)) ++ shapeTraps s c limm active) = none)
    (hf : items.filter (fun i => i.active (s.ctx c)) = active)
    (hr : firstTrap (fun i => i.readTrap (s.ctx c) s.cycle) active = none)
    (hb : firstBlock (active.filterMap Part.pops) (s.ctx c) s.cycle active = .none)
    (he : earlyTrap (requests s c limm active) s = none)
    (hh : holdAll (requests s c limm active) s = (.none, s))
    (ha : addsFit (requests s c limm active) s c = true)
    (hs : blocksServed s c (blocksOfAll (requests s c limm active) s) = true)
    (hc : leastTrap ((requests s c limm active).flatMap fun e => e.1.checks e.2 s) = none)
    (s1 s2 : State) (h1 : commitAll (requests s c limm active) .none s = .go s1)
    (h2 : lastAll s1 (requests s c limm active) s1 = .go s2) :
    issueItems c limm items s = issueNow c limm active (requests s c limm active) s2 := by
  unfold issueItems
  simp [hd, hf, hr, hb, he, hh, ha, hs, hc, h1, h2]

/-- R265. A move that is no trigger issues when its source can be read and its queue has room. -/
theorem issueOne_move (m : Mv) (a : Act) (s : State) (hm : canMove m a.isReg s) (ha : ∀ o, a ≠ .trig o)
    (hq : ∀ q, a = .queue q → (if (([solePart m a s].filterMap Part.pops)).contains q then (queueOf s.cx q).tail
      else queueOf s.cx q).length < 16) :
    issueOne m a s = .next (issueNow s.iss.ctx s.iss.limm [solePart m a s] [] s) := by
  obtain ⟨h1, h2, h3⟩ := hm
  have hreq : requests s s.iss.ctx s.iss.limm [solePart m a s] = [] := by
    cases a with
    | trig o => exact absurd rfl (ha o)
    | _ => rfl
  have := issueItems_ready s.iss.ctx s.iss.limm [solePart m a s] [solePart m a s] s
    (by simp [sole_decode m a s h1 (fun o h => absurd h (ha o)), leastCode, shapeTraps, hreq])
    (by simp [sole_active m a s h2])
    (by simp [firstTrap, sole_readTrap m a s h3])
    (by simp only [firstBlock, sole_blocks m a s _ h3 hq])
    (by simp [hreq, earlyTrap]) (by simp [hreq, holdAll])
    (by rw [hreq]; exact pendFits_zero _) (by rw [hreq]; rfl) (by simp [hreq, leastTrap]) s s
    (by simp [hreq, commitAll]) (by simp [hreq, lastAll])
  rw [hreq] at this
  exact congrArg Host.Outcome.next this

/-- R265. A trigger issues when its source can be read and it starts. -/
theorem issueOne_trigger (m : Mv) (o : Op) (s s1 : State) (hm : canMove m false s) (hs : Starts o m s s1) :
    issueOne m (.trig o) s =
      .next (issueNow s.iss.ctx s.iss.limm [solePart m (.trig o) s] [(o, soleReq o m s)] s1) := by
  obtain ⟨h1, h2, h3⟩ := hm
  obtain ⟨s0, hc, hl⟩ := hs.sent
  have hreq : requests s s.iss.ctx s.iss.limm [solePart m (.trig o) s] = [(o, soleReq o m s)] := rfl
  have := issueItems_ready s.iss.ctx s.iss.limm [solePart m (.trig o) s] [solePart m (.trig o) s] s
    (by simp [sole_decode m (.trig o) s h1 (fun o' h => by cases h; exact hs.dec), sole_shape m o s h3 hs.shape, leastCode])
    (by simp [sole_active m (.trig o) s h2])
    (by simp [firstTrap, sole_readTrap m (.trig o) s h3])
    (by
      have hb := sole_blocks m (.trig o) s ([solePart m (.trig o) s].filterMap Part.pops) h3 (fun q h => Act.noConfusion h)
      simp only [firstBlock, hb])
    (by simp [hreq, earlyTrap, hs.early]) (by simp [hreq, holdAll, hs.hold])
    (by rw [hreq]; simpa [addsFit] using hs.adds) (by simpa [hreq, blocksOfAll] using hs.budget)
    (by simp [hreq, leastTrap, hs.checks]) s0 s1
    (by simp [hreq, commitAll, hc]) (by simp [hreq, lastAll, hl])
  rw [hreq] at this
  exact congrArg Host.Outcome.next this

/-! ### What an issued bundle leaves -/

/-- The context of a bundle of one trigger as its operation sees it: queues popped, captured results on their way, the
bookkeeping of holds forgotten. -/
def midCtx (o : Op) (m : Mv) (x : Ctx) (s : State) (cycle : Nat) : Ctx :=
  { unhold (replayNow (popQueues [solePart m (.trig o) s] x) cycle) with
    answer := x.answer, walked := x.walked, early := x.early
    dirty := (popQueues [solePart m (.trig o) s] x).dirty || taints [(o, soleReq o m s)] }

/-- The state in which the operation of a bundle of one trigger is started. -/
def midState (o : Op) (m : Mv) (s s1 : State) : State :=
  (s1.setCtx s.iss.ctx (midCtx o m (s1.ctx s.iss.ctx) s s1.cycle)).noteIssue s.iss.ctx

/-- The end of a bundle: the next bundle, and the counts. -/
def finish (c : Nat) (old : Option Shadow) (s : State) : State :=
  (s.modCtx c fun y => advance old { y with bundles := y.bundles + 1, answer := none, walked := [], early := none }).bump c 2 1

theorem effectAll_one (o : Op) (r : Req) (s : State) : effectAll [(o, r)] s = o.effect r s := by
  have h : [0, 1, 2, 3].flatMap (fun k => [(o, r)].filter fun e => startRank [(o, r)] s e == k) = [(o, r)] := by
    have hr : startRank [(o, r)] s (o, r) < 4 := by
      unfold startRank
      dsimp only
      repeat' split
      all_goals omega
    simp only [List.filter_cons, List.filter_nil]
    generalize startRank [(o, r)] s (o, r) = n at hr
    have hn : n = 0 ∨ n = 1 ∨ n = 2 ∨ n = 3 := by omega
    rcases hn with rfl | rfl | rfl | rfl <;> rfl
  unfold effectAll
  rw [h]
  rfl

/-- R206. What a charge changes: the budgets alone. -/
theorem foldl_lendUnits_eq (die res site : Nat) (l : List (Nat × Nat)) : ∀ s : State,
    l.foldl (fun t e => lendUnits t die e.1 res site e.2) s =
      { s with tt := (l.foldl (fun t e => lendUnits t die e.1 res site e.2) s).tt } := by
  induction l with
  | nil => intro _; rfl
  | cons e t ih => intro s; rw [List.foldl_cons, ih]; rfl

theorem noteLent_eq (die cls res site n : Nat) (s : State) :
    noteLent die cls res site n s = { s with tt := (noteLent die cls res site n s).tt } :=
  foldl_lendUnits_eq die res site _ s

theorem takeUnits_eq (s : State) (die cls res site n : Nat) :
    takeUnits s die cls res site n = { s with tt := (takeUnits s die cls res site n).tt } := by
  unfold takeUnits
  rw [noteLent_eq]
  split <;> rfl

theorem chargeBlocks_eq (s : State) (c : Nat) (l : List Nat) :
    chargeBlocks s c l = { s with tt := (chargeBlocks s c l).tt } := by
  unfold chargeBlocks
  generalize blockNeeds s c l = ns
  generalize dieOf c = die
  generalize bComp (s.board c) = comp
  induction ns generalizing s with
  | nil => rfl
  | cons n t ih => rw [List.foldl_cons, ih, takeUnits_eq s]

@[simp] theorem chargeBlocks_ctx (s : State) (c : Nat) (l : List Nat) (k : Nat) : (chargeBlocks s c l).ctx k = s.ctx k := by
  rw [chargeBlocks_eq]; rfl
@[simp] theorem chargeBlocks_cycle (s : State) (c : Nat) (l : List Nat) : (chargeBlocks s c l).cycle = s.cycle := by
  rw [chargeBlocks_eq]
@[simp] theorem chargeBlocks_nil (s : State) (c : Nat) : chargeBlocks s c [] = s := rfl

/-- R206, R265. The bundle of a trigger issues: charged, its operation started, and the next bundle. -/
theorem issueNow_charged (m : Mv) (o : Op) (s s1 : State) :
    issueNow s.iss.ctx s.iss.limm [solePart m (.trig o) s] [(o, soleReq o m s)] s1 =
      finish s.iss.ctx (s1.ctx s.iss.ctx).shadow
        (o.effect (soleReq o m s) (midState o m s (chargeBlocks s1 s.iss.ctx (o.blocks (soleReq o m s) s1)))) := by
  have hb : blocksOfAll [(o, soleReq o m s)] s1 = o.blocks (soleReq o m s) s1 := List.append_nil _
  rw [← effectAll_one, ← hb]
  unfold midState
  rw [chargeBlocks_ctx, chargeBlocks_cycle]
  rfl

/-- R265. The same where nothing is charged. -/
theorem issueNow_trigger (m : Mv) (o : Op) (s s1 : State) (hb : o.blocks (soleReq o m s) s1 = []) :
    issueNow s.iss.ctx s.iss.limm [solePart m (.trig o) s] [(o, soleReq o m s)] s1 =
      finish s.iss.ctx (s1.ctx s.iss.ctx).shadow (o.effect (soleReq o m s) (midState o m s s1)) := by
  rw [issueNow_charged, hb, chargeBlocks_nil]

@[simp] theorem midState_ctx (o : Op) (m : Mv) (s s1 : State) :
    (midState o m s s1).ctx s.iss.ctx = midCtx o m (s1.ctx s.iss.ctx) s s1.cycle := by
  simp [midState]

theorem midState_other (o : Op) (m : Mv) (s s1 : State) (k : Nat) (h : k ≠ s.iss.ctx) :
    (midState o m s s1).ctx k = s1.ctx k := by
  simp [midState, ctx_setCtx, h]

@[simp] theorem midState_cycle (o : Op) (m : Mv) (s s1 : State) : (midState o m s s1).cycle = s1.cycle := rfl
@[simp] theorem midState_ms (o : Op) (m : Mv) (s s1 : State) : (midState o m s s1).ms = s1.ms := rfl
@[simp] theorem midState_tm (o : Op) (m : Mv) (s s1 : State) : (midState o m s s1).tm = s1.tm := rfl
@[simp] theorem midState_en (o : Op) (m : Mv) (s s1 : State) : (midState o m s s1).en = s1.en := rfl
@[simp] theorem midState_tt (o : Op) (m : Mv) (s s1 : State) : (midState o m s s1).tt = s1.tt := rfl

/-- R257. The queues after the move of a bundle has popped the one that it reads. -/
def queuesAfter (m : Mv) (x : Ctx) : Tab (List W64) :=
  if 0x380 ≤ m.s.toNat ∧ m.s.toNat < 0x390 then
    tput (m.s.toNat - 0x380) (queueOf x (m.s.toNat - 0x380)).tail x.queues else x.queues

theorem popQueues_eq (m : Mv) (a : Act) (s : State) (x : Ctx) :
    popQueues [solePart m a s] x = { x with queues := queuesAfter m x } := by
  have hp : (solePart m a s).pops = if 0x380 ≤ m.s.toNat ∧ m.s.toNat < 0x390 then some (m.s.toNat - 0x380) else none := by
    simp only [Part.pops, Bool.and_eq_true, decide_eq_true_eq]
    rfl
  by_cases h : 0x380 ≤ m.s.toNat ∧ m.s.toNat < 0x390
  · rw [if_pos h] at hp
    have hl : ([solePart m a s].filterMap Part.pops).eraseDups = [m.s.toNat - 0x380] := by simp [hp, List.eraseDups_cons]
    simp only [popQueues, hl, List.foldl_cons, List.foldl_nil, queuesAfter, if_pos h]
    rfl
  · rw [if_neg h] at hp
    have hl : ([solePart m a s].filterMap Part.pops).eraseDups = [] := by simp [hp]
    simp only [popQueues, hl, List.foldl_nil, queuesAfter, if_neg h]

theorem midCtx_eq (o : Op) (m : Mv) (x : Ctx) (s : State) (n : Nat) :
    midCtx o m x s n = { x with
      queues := queuesAfter m x
      flights := (x.replay.map fun f => { f with due := f.due + n }) ++ x.flights, replay := []
      dirty := x.dirty || taints [(o, soleReq o m s)]
      blocked := .none, sent := false, clusterAt := none, unmade := [], paid := [], onLine := false } := by
  unfold midCtx
  rw [popQueues_eq]
  rfl

@[simp] theorem midCtx_opnd (o : Op) (m : Mv) (x : Ctx) (s : State) (n p : Nat) : opnd (midCtx o m x s n) p = opnd x p := by
  rw [midCtx_eq]; rfl

@[simp] theorem midCtx_resolve (o : Op) (m : Mv) (x : Ctx) (s : State) (n p : Nat) :
    resolve (midCtx o m x s n) p = resolve x p := by
  rw [midCtx_eq]; rfl

/-- R259. A trigger alone in its bundle reads the operand ports as they stand. -/
@[simp] theorem soleReq_port (o : Op) (m : Mv) (s s1 : State) (p : Nat) :
    (soleReq o m s).port (midState o m s s1) p = opnd (s1.ctx s.iss.ctx) p := by
  simp [Req.port, soleReq, tget]

theorem soleReq_port_at (o : Op) (m : Mv) (s : State) (p : Nat) : (soleReq o m s).port s p = opnd s.cx p := rfl

/-- R265, R267, R270. What `advance` leaves alone. -/
theorem advance_eq (old : Option Shadow) (x : Ctx) :
    advance old x = { x with
      pc := (advance old x).pc, jump := (advance old x).jump, loops := (advance old x).loops
      shadow := (advance old x).shadow } := by
  unfold advance
  split
  · rfl
  · split
    · split <;> rfl
    · rfl

theorem advance_plain (x : Ctx) (hl : x.loops = []) (hj : x.jump = none) :
    advance none x = { x with pc := x.pc + 1 } := by
  unfold advance
  cases x
  simp_all [loopTest]

theorem ctx_finish (c : Nat) (old : Option Shadow) (s : State) :
    (finish c old s).ctx c = bumpCtx 2 1 (advance old 
      { s.ctx c with bundles := (s.ctx c).bundles + 1, answer := none, walked := [], early := none }) := by
  simp [finish, State.bump]

theorem ctx_finish_other (c : Nat) (old : Option Shadow) (s : State) (k : Nat) (h : k ≠ c) :
    (finish c old s).ctx k = s.ctx k := by
  simp [finish, State.bump, ctx_modCtx, h]

/-- The bundle of a trigger that acts on its context only: `g` is what its operation does to the context. -/
theorem finish_onlyCtx (m : Mv) (o : Op) (s : State) (g : Ctx → Ctx)
    (hg : o.effect (soleReq o m s) (midState o m s s) = (midState o m s s).modCtx s.iss.ctx g) :
    onlyCtx s.iss.ctx s (finish s.iss.ctx s.cx.shadow (o.effect (soleReq o m s) (midState o m s s))) := by
  rw [hg]
  constructor
  · rfl
  · intro k hk
    rw [ctx_finish_other _ _ _ _ hk, ctx_modCtx_other _ _ _ _ hk, midState_other _ _ _ _ _ hk]

theorem finish_ctx (m : Mv) (o : Op) (s : State) (g : Ctx → Ctx)
    (hg : o.effect (soleReq o m s) (midState o m s s) = (midState o m s s).modCtx s.iss.ctx g) :
    (finish s.iss.ctx s.cx.shadow (o.effect (soleReq o m s) (midState o m s s))).ctx s.iss.ctx =
      bumpCtx 2 1 (advance s.cx.shadow { g (midCtx o m s.cx s s.cycle) with
        bundles := (g (midCtx o m s.cx s s.cycle)).bundles + 1, answer := none, walked := [], early := none }) := by
  rw [hg, ctx_finish]
  simp

/-- R260. A trigger that sends one result: the whole of what its bundle does. -/
theorem trigger_sends (m : Mv) (o : Op) (s : State) (f : Flight) (hm : canMove m false s) (hs : Starts o m s s)
    (hb : o.blocks (soleReq o m s) s = [])
    (hf : o.effect (soleReq o m s) (midState o m s s) = (midState o m s s).fly s.iss.ctx f) :
    ∃ t, issueOne m (.trig o) s = .next t ∧ onlyCtx s.iss.ctx s t ∧ onlyFlow s.cx (t.ctx s.iss.ctx) ∧
      popsOnly m s.cx (t.ctx s.iss.ctx) ∧ goesOn s.cx (t.ctx s.iss.ctx) ∧
      sends s.cx (t.ctx s.iss.ctx) s.cycle [f] := by
  refine ⟨_, ?_, finish_onlyCtx m o s (fun x => { x with flights := x.flights ++ [f] }) hf, ?_⟩
  · rw [issueOne_trigger m o s s hm hs, issueNow_trigger m o s s hb]
  · rw [finish_ctx m o s (fun x => { x with flights := x.flights ++ [f] }) hf, midCtx_eq]
    refine ⟨?_, ?_, ?_, ?_⟩
    · unfold onlyFlow
      rw [advance_eq]
      rfl
    · unfold popsOnly
      rw [advance_eq]
      rfl
    · intro h1 h2 h3
      have key : ∀ y : Ctx, y.loops = [] → y.jump = none → advance s.cx.shadow y = { y with pc := y.pc + 1 } := by
        intro y hy1 hy2
        rw [h1]
        exact advance_plain y hy1 hy2
      rw [key]
      · exact ⟨rfl, h1, h2⟩
      · exact h2
      · exact h3
    · unfold sends
      rw [advance_eq]
      rfl

end Sys2Proof.Machine
end

