-- ==== Sys2Proof/Laws/Exec.lean ====
section
/-! SUPPORT. Every move's meaning is the issue of that one move (R265), by what its row does. -/

namespace Sys2Proof.Machine

/-- The meaning of a move row. -/
theorem exec_move (i : Instr) (d : Nat) (m : Mv) (a : Act) (s : State) (h : moveOf i = some (d, m))
    (ha : actOf i = some a) : exec i s = issueOne m a s := by
  cases i <;> first | (cases h; cases ha; rfl) | cases h

end Sys2Proof.Machine
end

