-- ==== Sys2Proof/Laws/Launch.lean ====
section
/-! SUPPORT. Laws of packets: the addresses of a page, where the blocks of a packet lie, and the next launch number. -/

namespace Sys2Proof.Machine

/-! ### Addresses of one page -/

theorem fld_page (va d hi lo : Nat) (hd : va % 4096 + d < 4096) (hl : 12 ≤ lo) : fld (va + d) hi lo = fld va hi lo := by
  have h : (va + d) / 2 ^ 12 = va / 2 ^ 12 := by norm_num; omega
  obtain ⟨k, rfl⟩ := Nat.exists_eq_add_of_le hl
  unfold fld
  rw [Nat.shiftRight_eq_div_pow, Nat.shiftRight_eq_div_pow, pow_add, ← Nat.div_div_eq_div_mul, ← Nat.div_div_eq_div_mul, h]

theorem pathOf_page (va d : Nat) (hd : va % 4096 + d < 4096) : pathOf (va + d) = pathOf va := by
  unfold pathOf
  exact fld_page va d _ _ hd (by decide)

theorem tableAddr_page (r : Range) (va d : Nat) (hd : va % 4096 + d < 4096) :
    tableAddr r (va + d) = tableAddr r va + d ∧ tableAddr r va % 4096 = va % 4096 := by
  unfold tableAddr
  have h1 : (va + d) % 2 ^ 56 = va % 2 ^ 56 + d := by omega
  rw [h1]
  omega

theorem sizeLog_ge (n : Nat) : 12 ≤ sizeLog n := by
  unfold sizeLog
  repeat' split
  all_goals omega

theorem leafPa_page (low : W64) (ta d : Nat) (hd : ta % 4096 + d < 4096) : leafPa low (ta + d) = leafPa low ta + d := by
  unfold leafPa
  obtain ⟨k, hk⟩ := Nat.exists_eq_add_of_le (sizeLog_ge (dSize low))
  rw [hk, pow_add, Nat.add_assoc, Nat.add_left_cancel_iff]
  generalize 2 ^ k = m
  norm_num
  have e (x : Nat) : x % (4096 * m) = 4096 * (x / 4096 % m) + x % 4096 := by
    rw [Nat.mod_mul]; omega
  rw [e, e ta]
  have h1 : (ta + d) / 4096 = ta / 4096 := by omega
  have h2 : (ta + d) % 4096 = ta % 4096 + d := by omega
  rw [h1, h2]; omega

/-- R88. The checks of a global access give the same at each address of a page. -/
theorem globalCheck_page (look : Nat → Nat → Option WalkAns) (s : State) (c va d : Nat) (u : Use) (hd : va % 4096 + d < 4096) :
    globalCheck look s c (va + d) u = match globalCheck look s c va u with
      | .page pa low high ta => .page (pa + d) low high (ta + d)
      | f => f := by
  have hr (rs : List Range) : rangeFor rs (va + d) = rangeFor rs va := by
    unfold rangeFor
    rw [fld_page va d 55 12 hd (by decide)]
  unfold globalCheck
  dsimp only
  rw [hr, pathOf_page va d hd]
  cases hR : rangeFor (((s.launchOf c).map (·.ranges)).getD []) va with
  | none => rfl
  | some r =>
    dsimp only
    obtain ⟨h1, h2⟩ := tableAddr_page r va d hd
    have h3 : tableAddr r (va + d) / 4096 = tableAddr r va / 4096 := by omega
    rw [h3, h1]
    generalize ((if pathOf va = 0 then !rG r else !rC r) || u.writes && !rW r) = b
    cases b
    · cases look (bComp (s.board c)) (tableAddr r va / 4096) with
      | none => rfl
      | some w =>
        cases w with
        | fault sub f => cases hb : rD r && !f <;> simp [hb]
        | desc low high n =>
          by_cases hc : dComp high = bComp (s.board c)
          · cases hk : kindBad u (pathOf va) low <;> simp [hc, hk, leafPa_page low _ d (by omega : tableAddr r va % 4096 + d < 4096)]
          · simp [hc]
    · rfl

/-- R88, R409. A packet that passes checks 1 to 10 at an address does so at each aligned address of its page. -/
theorem route_packet_page (s : State) (c va d n pa ta : Nat) (low high : W64)
    (h : route s c va n 64 .packet false = .page pa low high ta) (hd : va % 4096 + d < 4096) (ha : d % 64 = 0) :
    route s c (va + d) 64 64 .packet false = .page (pa + d) low high (ta + d) := by
  unfold route routeBy at h ⊢
  dsimp only at h ⊢
  rw [pathOf_page va d hd, fld_page va d 55 21 hd (by decide), fld_page va d 59 21 hd (by decide), fld_page va d 59 56 hd (by decide),
    globalCheck_page _ s c va d .packet hd]
  by_cases h1 : 4 ≤ pathOf va
  · simp [h1] at h
  rw [if_neg h1] at h ⊢
  by_cases h2 : (if pathOf va = 3 then fld va 55 21 != 0 else if pathOf va = 2 then fld va 59 21 != 0 else fld va 59 56 != 0) = true
  · simp only [h2, if_true] at h; simp at h
  rw [if_neg h2] at h ⊢
  by_cases h3 : va % 64 ≠ 0
  · rw [if_pos h3] at h; simp at h
  rw [if_neg h3] at h
  rw [if_neg (by omega : ¬ (va + d) % 64 ≠ 0)]
  have h4 : ¬ (Use.packet = .tagged ∧ pathOf va ≤ 1) := by simp
  rw [if_neg h4] at h ⊢
  by_cases h5 : pathOf va = 2
  · rw [if_pos h5] at h
    split at h
    · simp at h
    · rename_i f hf
      unfold windowCheck at h
      dsimp only at h
      split at h
      · simp at h
      · split at h <;> simp at h
  rw [if_neg h5] at h ⊢
  by_cases h6 : pathOf va = 3
  · rw [if_pos h6] at h
    split at h
    · simp at h
    · split at h
      · simp at h
      · unfold windowCheck at h
        dsimp only at h
        split at h
        · simp at h
        · split at h <;> simp at h
  rw [if_neg h6] at h ⊢
  cases hg : globalCheck (lookup s c) s c va .packet with
  | page pa' low' high' ta' =>
    rw [hg] at h
    simp at h
    obtain ⟨rfl, rfl, rfl, rfl⟩ := h
    simp
  | fault _ _ => rw [hg] at h; simp at h
  | miss _ _ => rw [hg] at h; simp at h
  | demand _ _ => rw [hg] at h; simp at h
  | spad _ _ => rw [hg] at h; simp at h

/-- R409. The blocks of a packet lie on its page at the address that the check of its header has found. -/
theorem packetBlock_page (s : State) (c va d n pa ta : Nat) (low high : W64)
    (h : route s c va n 64 .packet false = .page pa low high ta) (hd : va % 4096 + d < 4096) (ha : d % 64 = 0) :
    packetBlock s c (va + d) = some (pa + d) := by
  rw [packetBlock, route_packet_page s c va d n pa ta low high h hd ha]
  rfl
/-! ### Launch numbers -/

/-- R163. While a launch number is left, the next one is from 1 to 65,535, and no launch has it. -/
theorem freshLid_free (s : State) (h : s.tm.launches.length + s.tm.heldLogs.length < 65535) :
    1 ≤ freshLid s ∧ freshLid s < 65536 ∧ tget s.tm.launches (freshLid s) = none := by
  unfold freshLid
  dsimp only
  cases hf : (((List.range 65535).map fun k => (s.tm.nextLid - 1 + k) % 65535 + 1).find? fun n =>
      !((tget s.tm.launches n).isSome || s.tm.heldLogs.any fun h => h.lid == n)) with
  | some n =>
    have h1 := List.find?_some hf
    have h2 := List.mem_of_find?_eq_some hf
    obtain ⟨k, -, rfl⟩ := List.mem_map.1 h2
    simp only [Bool.not_or, Bool.and_eq_true, Bool.not_eq_true', Option.isSome_eq_false_iff, Option.isNone_iff_eq_none] at h1
    exact ⟨Nat.le_add_left _ _, by simp only [Option.getD_some]; omega, h1.1⟩
  | none =>
    have hu := List.find?_eq_none.1 hf
    have hsub : ((List.range 65535).map fun k => (s.tm.nextLid - 1 + k) % 65535 + 1) ⊆
        s.tm.launches.map (·.1) ++ s.tm.heldLogs.map (·.lid) := by
      intro n hn
      have := hu n hn
      simp only [Bool.not_eq_true', Bool.not_eq_false, Bool.or_eq_true, List.any_eq_true, beq_iff_eq] at this
      rcases this with h1 | ⟨g, hg, rfl⟩
      · exact List.mem_append_left _ (tget_isSome_mem _ _ h1)
      · exact List.mem_append_right _ (List.mem_map_of_mem hg)
    have hnd : ((List.range 65535).map fun k => (s.tm.nextLid - 1 + k) % 65535 + 1).Nodup := by
      refine List.Nodup.map_on (fun a ha b hb hab => ?_) List.nodup_range
      have ha := List.mem_range.1 ha
      have hb := List.mem_range.1 hb
      omega
    have := (List.subperm_of_subset hnd hsub).length_le
    simp only [List.length_map, List.length_range, List.length_append] at this
    omega
end Sys2Proof.Machine
end

