-- ==== Sys2Proof/Laws/Memory.lean ====
section
/-! SUPPORT. Laws of memory: a byte read after a write, and the canonical form, which every operation keeps. -/

namespace Sys2Proof.Machine

theorem memOk_weaken (m : Memory) (lo hi : Nat) (h : lo ≤ hi) (hm : memOk hi m = true) : memOk lo m = true := by
  cases m with
  | nil => rfl
  | cons e t =>
    obtain ⟨a, b⟩ := e
    simp only [memOk, Bool.and_eq_true, decide_eq_true_eq] at hm ⊢
    exact ⟨⟨by omega, hm.1.2⟩, hm.2⟩

/-- R6. A byte reads as it was written. -/
theorem rdByte_below (m : Memory) (lo n : Nat) (h : n < lo) (hm : memOk lo m = true) : rdByte m n = 0 := by
  induction m generalizing lo with
  | nil => rfl
  | cons e t ih =>
    obtain ⟨a, b⟩ := e
    simp only [memOk, Bool.and_eq_true, decide_eq_true_eq] at hm
    have : a ≠ n := by omega
    simp only [rdByte, this, if_false]
    exact ih (a + 1) (by omega) hm.2

theorem rdByte_wrByte_same (m : Memory) (lo n : Nat) (v : Byte) (hm : memOk lo m = true) :
    rdByte (wrByte n v m) n = v := by
  induction m generalizing lo with
  | nil => by_cases hv : v = 0#8 <;> simp [wrByte, rdByte, hv]
  | cons e t ih =>
    obtain ⟨a, b⟩ := e
    simp only [memOk, Bool.and_eq_true, decide_eq_true_eq] at hm
    by_cases h : a = n
    · subst h
      by_cases hv : v = 0#8
      · simp [wrByte, hv, rdByte_below t (a + 1) a (by omega) hm.2]
      · simp [wrByte, rdByte, hv]
    · by_cases h2 : n < a
      · by_cases hv : v = 0#8
        · have h3 := rdByte_below t (a + 1) n (by omega) hm.2
          simp [wrByte, rdByte, h, h2, hv, h3]
        · simp [wrByte, rdByte, h, h2, hv]
      · simp only [wrByte, h, h2, if_false, rdByte]
        exact ih (a + 1) hm.2

/-- R6. A write leaves every other byte as it was. -/
theorem rdByte_wrByte_other (m : Memory) (n k : Nat) (v : Byte) (h : k ≠ n) :
    rdByte (wrByte n v m) k = rdByte m k := by
  induction m with
  | nil => by_cases hv : v = 0#8 <;> simp [wrByte, rdByte, hv, Ne.symm h]
  | cons e t ih =>
    obtain ⟨a, b⟩ := e
    by_cases ha : a = n
    · subst ha
      by_cases hv : v = 0#8 <;> simp [wrByte, rdByte, hv, Ne.symm h]
    · by_cases h2 : n < a
      · by_cases hv : v = 0#8 <;> simp [wrByte, rdByte, ha, h2, hv, Ne.symm h]
      · simp [wrByte, rdByte, ha, h2, ih]

theorem memOk_wrByte (m : Memory) (lo n : Nat) (v : Byte) (hn : lo ≤ n) (hm : memOk lo m = true) :
    memOk lo (wrByte n v m) = true := by
  induction m generalizing lo with
  | nil =>
    by_cases hv : v = 0#8
    · simp [wrByte, hv, memOk]
    · simp [wrByte, hv, memOk, hn]
  | cons e t ih =>
    obtain ⟨a, b⟩ := e
    have hm' := hm
    simp only [memOk, Bool.and_eq_true, decide_eq_true_eq] at hm
    by_cases ha : a = n
    · subst ha
      by_cases hv : v = 0#8
      · simp only [wrByte, hv, if_true]
        exact memOk_weaken t lo (a + 1) (by omega) hm.2
      · simp [wrByte, hv, memOk, hn, hm.2]
    · by_cases h2 : n < a
      · by_cases hv : v = 0#8
        · simp only [wrByte, ha, h2, hv, if_false, if_true]; exact hm'
        · have hb : b ≠ 0#8 := by simpa using hm.1.2
          simp [wrByte, ha, h2, hv, memOk, hn, hb, hm.2] <;> omega
      · simp only [wrByte, ha, h2, if_false, memOk, Bool.and_eq_true, decide_eq_true_eq]
        exact ⟨hm.1, ih (a + 1) (by omega) hm.2⟩

/-- A write keeps the canonical form. -/
theorem memWf_wrByte (m : Memory) (n : Nat) (v : Byte) (hm : memWf m = true) : memWf (wrByte n v m) = true :=
  memOk_wrByte m 0 n v (Nat.zero_le n) hm

theorem memWf_wrBytes (bs : List Byte) (a : Nat) (m : Memory) (hm : memWf m = true) :
    memWf (wrBytes a bs m) = true := by
  induction bs generalizing a m with
  | nil => exact hm
  | cons b t ih => exact ih (a + 1) (wrByte a b m) (memWf_wrByte m a b hm)

theorem memOk_filter (f : Host.Cell → Bool) (m : Memory) (lo : Nat) (hm : memOk lo m = true) :
    memOk lo (m.filter f) = true := by
  induction m generalizing lo with
  | nil => rfl
  | cons e t ih =>
    obtain ⟨a, b⟩ := e
    simp only [memOk, Bool.and_eq_true, decide_eq_true_eq] at hm
    have h2 := ih (a + 1) hm.2
    by_cases hf : f (a, b) = true
    · simp only [List.filter_cons, hf, if_true, memOk, Bool.and_eq_true, decide_eq_true_eq]
      exact ⟨hm.1, h2⟩
    · simp only [List.filter_cons, hf]
      exact memOk_weaken _ lo (a + 1) (by omega) h2

theorem memWf_filter (f : Host.Cell → Bool) (m : Memory) (hm : memWf m = true) : memWf (m.filter f) = true :=
  memOk_filter f m 0 hm

theorem memWf_memDrop (lo n : Nat) (m : Memory) (hm : memWf m = true) : memWf (memDrop lo n m) = true :=
  memWf_filter _ m hm

theorem memWf_memTake (lo n : Nat) (m : Memory) (hm : memWf m = true) : memWf (memTake lo n m) = true :=
  memWf_filter _ m hm

theorem memWf_foldl_wrByte {α : Type} (f : α → Nat) (g : α → Byte) (l : List α) (m : Memory)
    (hm : memWf m = true) : memWf (l.foldl (fun m e => wrByte (f e) (g e) m) m) = true := by
  induction l generalizing m with
  | nil => exact hm
  | cons e t ih => exact ih _ (memWf_wrByte m (f e) (g e) hm)

theorem rdByte_wrBytes_other (bs : List Byte) (a k : Nat) (m : Memory) (h : k < a ∨ a + bs.length ≤ k) :
    rdByte (wrBytes a bs m) k = rdByte m k := by
  induction bs generalizing a m with
  | nil => rfl
  | cons b t ih =>
    simp only [List.length_cons] at h
    rw [wrBytes, ih (a + 1) (wrByte a b m) (by omega), rdByte_wrByte_other m a k b (by omega)]

theorem rdByte_wrBytes_same (bs : List Byte) (a i : Nat) (m : Memory) (hm : memWf m = true) (hi : i < bs.length) :
    rdByte (wrBytes a bs m) (a + i) = bs[i] := by
  induction bs generalizing a m i with
  | nil => simp at hi
  | cons b t ih =>
    rw [wrBytes]
    cases i with
    | zero =>
      have h1 := rdByte_wrBytes_other t (a + 1) a (wrByte a b m) (by omega)
      have h2 := rdByte_wrByte_same m 0 a b hm
      simpa [h2] using h1
    | succ j =>
      have : a + (j + 1) = (a + 1) + j := by omega
      rw [this, ih (a + 1) j (wrByte a b m) (memWf_wrByte m a b hm) (by simpa using hi)]
      rfl

/-- Memories in canonical form that read alike are equal. -/
theorem memory_ext (m n : Memory) (lo : Nat) (hm : memOk lo m = true) (hn : memOk lo n = true)
    (h : ∀ a, rdByte m a = rdByte n a) : m = n := by
  induction m generalizing n lo with
  | nil =>
    cases n with
    | nil => rfl
    | cons e t =>
      obtain ⟨a, b⟩ := e
      have h1 := h a
      simp only [memOk, Bool.and_eq_true, bne_iff_ne] at hn
      simp only [rdByte, if_true] at h1
      exact absurd h1.symm hn.1.2
  | cons e t ih =>
    obtain ⟨a, b⟩ := e
    simp only [memOk, Bool.and_eq_true, decide_eq_true_eq, bne_iff_ne] at hm
    cases n with
    | nil =>
      have h1 := h a
      simp only [rdByte, if_true] at h1
      exact absurd h1 hm.1.2
    | cons f u =>
      obtain ⟨c, d⟩ := f
      simp only [memOk, Bool.and_eq_true, decide_eq_true_eq, bne_iff_ne] at hn
      have hac : a = c := by
        rcases Nat.lt_trichotomy a c with hlt | heq | hgt
        · have h1 := h a
          have h2 : rdByte u a = 0 := rdByte_below u (c + 1) a (by omega) hn.2
          simp only [rdByte, if_true] at h1
          rw [if_neg (by omega), h2] at h1
          exact absurd h1 hm.1.2
        · exact heq
        · have h1 := h c
          have h2 : rdByte t c = 0 := rdByte_below t (a + 1) c (by omega) hm.2
          simp only [rdByte, if_true] at h1
          rw [if_neg (by omega), h2] at h1
          exact absurd h1.symm hn.1.2
      subst hac
      have hb : b = d := by simpa [rdByte] using h a
      subst hb
      have : t = u := ih u (a + 1) hm.2 hn.2 (fun k => by
        by_cases hk : k = a
        · subst hk
          rw [rdByte_below t (k + 1) k (by omega) hm.2, rdByte_below u (k + 1) k (by omega) hn.2]
        · have h1 := h k
          simpa [rdByte, Ne.symm hk] using h1)
      rw [this]

end Sys2Proof.Machine
end

