-- ==== Sys2Proof/Laws/Trigger.lean ====
section
/-! SUPPORT. What the shared operations of a trigger do (R260, R261, R265): the write-back port, a result of fixed latency, a
change of the own context alone. -/

namespace Sys2Proof.Machine

/-! ### The write-back port (R261) -/

theorem wbCheck_nil (unit : Nat) (o : Op) (m : Mv) (s : State) (h : wbOk unit s) : wbCheck unit (soleReq o m s) s = [] := by
  unfold wbCheck wbSel
  rw [soleReq_port_at]
  exact if_pos h

theorem wbDest_sole (unit : Nat) (o : Op) (m : Mv) (s : State) : wbDest unit (soleReq o m s) s = wbReg unit s := rfl

theorem wbDest_mid (unit : Nat) (o : Op) (m : Mv) (s : State) :
    wbDest unit (soleReq o m s) (midState o m s s) = wbReg unit s := by
  unfold wbDest wbSel wbReg
  rw [soleReq_port]
  change (if _ then some (resolve ((midState o m s s).ctx s.iss.ctx) _) else none) = _
  rw [midState_ctx, midCtx_resolve]

theorem wbActs_eq (unit : Nat) (s : State) (v : Vec) :
    wbActs unit s v = (match wbReg unit s with | some d => [.reg d v] | none => []) := by
  unfold wbActs wbReg
  by_cases h : (opnd s.cx (wbPort unit)).toNat % 1024 < 0x200
  · rw [if_pos h, if_pos h]
  · rw [if_neg h, if_neg h]

theorem wbLand_mid (unit : Nat) (o : Op) (m : Mv) (s : State) (v : Vec) :
    wbLand unit (soleReq o m s) (midState o m s s) v = wbActs unit s v := by
  rw [wbActs_eq, wbLand, wbDest_mid] <;> cases wbReg unit s <;> rfl

/-! ### A result of fixed latency (R260) -/

/-- R260. A trigger with one result of fixed latency completes where its `.w` is sound. -/
theorem result_sends (unit lat port : Nat) (f : Req → State → Vec) (m : Mv) (s : State) (v : Vec)
    (hm : canMove m false s) (hw : wbOk unit s)
    (hv : f (soleReq (opResult unit lat port f) m s) (midState (opResult unit lat port f) m s s) = v) :
    ∃ t, issueOne m (.trig (opResult unit lat port f)) s = .next t ∧
      sendsOne m s t { due := s.cycle + lat, unit := unit, acts := .port port v :: wbActs unit s v } := by
  apply trigger_sends m _ s _ hm
  · exact ⟨rfl, rfl, rfl, rfl, pendFits_zero _, rfl, wbCheck_nil unit _ m s hw, s, rfl, rfl⟩
  · rfl
  · change landResult unit lat port _ _ _ = _
    unfold landResult
    rw [wbLand_mid, hv]
    rfl

/-! ### A change of the own context alone -/

/-- R265. A trigger that changes its own context alone, by `g`: what its bundle leaves of that context. -/
theorem trigger_ctx (m : Mv) (o : Op) (s : State) (g : Ctx → Ctx) (hm : canMove m false s) (hs : Starts o m s s)
    (hb : o.blocks (soleReq o m s) s = []) (hf : o.effect (soleReq o m s) (midState o m s s) = (midState o m s s).modCtx s.iss.ctx g) :
    ∃ t, issueOne m (.trig o) s = .next t ∧ onlyCtx s.iss.ctx s t ∧
      t.ctx s.iss.ctx = bumpCtx 2 1 (advance s.cx.shadow { g (midCtx o m s.cx s s.cycle) with
        bundles := (g (midCtx o m s.cx s s.cycle)).bundles + 1, answer := none, walked := [], early := none }) :=
  ⟨_, by rw [issueOne_trigger m o s s hm hs, issueNow_trigger m o s s hb], finish_onlyCtx m o s g hf, finish_ctx m o s g hf⟩

/-- A context with the flow of another: the fields that a bundle moves on. -/
def withFlow (z y : Ctx) : Ctx :=
  { z with
    pc := y.pc, loops := y.loops, shadow := y.shadow, jump := y.jump, flights := y.flights, replay := y.replay
    queues := y.queues, bundles := y.bundles, counters := y.counters, dirty := y.dirty, blocked := y.blocked, sent := y.sent
    answer := y.answer, clusterAt := y.clusterAt, early := y.early, walked := y.walked, unmade := y.unmade, paid := y.paid, onLine := y.onLine }

/-- R265. A trigger that changes its own context alone, to `z` but for the flow of the program, and sends no result. -/
theorem trigger_owns (m : Mv) (o : Op) (s : State) (g : Ctx → Ctx) (z : Ctx) (hm : canMove m false s) (hs : Starts o m s s)
    (hn : o.blocks (soleReq o m s) s = [])
    (hf : o.effect (soleReq o m s) (midState o m s s) = (midState o m s s).modCtx s.iss.ctx g)
    (hz : ∀ y, y = withFlow s.cx y → g y = withFlow z y) (hb : z.bundles = s.cx.bundles) :
    ∃ t, issueOne m (.trig o) s = .next t ∧ ownCtx m s t z := by
  obtain ⟨t, h1, h2, h3⟩ := trigger_ctx m o s g hm hs hn hf
  refine ⟨t, h1, h2, ?_⟩
  rw [h3, hz _ (by rw [midCtx_eq]; rfl), midCtx_eq]
  refine ⟨?_, ?_, ?_, ?_⟩
  · unfold onlyFlow
    rw [advance_eq, hb]
    rfl
  · unfold popsOnly
    rw [advance_eq]
    rfl
  · intro k1 k2 k3
    have key : ∀ y : Ctx, y.loops = [] → y.jump = none → advance s.cx.shadow y = { y with pc := y.pc + 1 } := by
      intro y hy1 hy2
      rw [show s.cx.shadow = none from k1]
      exact advance_plain y hy1 hy2
    rw [key]
    · exact ⟨rfl, k1, k2⟩
    · exact k2
    · exact k3
  · unfold sends
    rw [advance_eq]
    show (_ ++ _ : List Flight) = _
    simp

end Sys2Proof.Machine
end

