-- ==== Sys2Proof/Tests/Slice0.lean ====
section
/-! SUPPORT. The model's own tests, and for each statement with hypotheses a state that meets them. -/

namespace Sys2Proof.Tests

open Sys2Proof Sys2Proof.Machine

set_option Elab.async false

/-! ### Ill-formed terms and words -/

theorem test_wf_refuses_source : (Instr.iaAdd 0 ⟨0, 0x3A0, false⟩).wf = false := by decide
theorem test_wf_refuses_f : (Instr.iaAdd 0 ⟨0, 0x301, true⟩).wf = false := by decide
theorem test_wf_refuses_f_at_nul : (Instr.moveNul ⟨0, 0x301, true⟩).wf = false := by decide
theorem test_wf_refuses_guard_zero : (Instr.guardWrite 0 ⟨0, 0x301, false⟩).wf = false := by decide
theorem test_wf_refuses_operand_port : (Instr.operandPortWrite 0x203 ⟨0, 0x301, false⟩).wf = false := by decide
theorem test_wf_takes_register_f : (Instr.iaAdd 0 ⟨0, 0x041, true⟩).wf = true := by decide

/-! ### States -/

/-- `#1`, LIMM, and the head of queue 0, as the source of an unguarded move. -/
def im : Mv := ⟨0, 0x301, false⟩
def lm : Mv := ⟨0, 0x340, false⟩
def qm : Mv := ⟨0, 0x380, false⟩

/-- A team of context 0, with an empty move to run. -/
def b0 : State := State.reset.withFetchWord 24 0x1807FE

/-- b0 with something else in context 0, and with a LIMM. -/
def onCtx (f : Ctx → Ctx) : State := { b0 with ctxs := [(0, f (b0.ctx 0))] }
def limm (n : BitVec 32) (s : State) : State := { s with iss := { s.iss with limm := n } }

/-- b0 with an address at the head of queue 0, and operand ports. -/
def atQ (v : W64) (ports : Tab Vec) : State := onCtx fun x => { x with queues := [(0, [v])], opnd := ports }

/-- A launch of compartment 1 in a mode, with number 0, the one of b0's slot. -/
def lau (mode : Nat) : Launch :=
  { lid := 0, accept := 1, comp := 1, mode := mode, replay := false, prio := 0, spread := false, teamsz := 1, banks := 4
    wsize := 1, nteams := 1, lclust := 1, words := List.replicate 24 0, ranges := [], packet := [], digest := 0, image := []
    tdone := 0, since := 0, nextTeam := 1, skipped := [], cmap := [], down := none, aband := none, ending := none, steps := 0
    abandons := 0, route := .host 0, residual := 0, endCode := 0, filled := false, armed := false, noUndo := false, links := []
    journal := [], writtenPages := [], markSetts := [], markTransits := [], markResidual := 0, markEnd := 0 }
def withLau (l : Launch) (s : State) : State := { s with tm := { s.tm with launches := [(0, l)] } }

theorem can_im (r : Bool) (s : State) : canMove im r s :=
  ⟨⟨rfl, .inl rfl⟩, .inl rfl, fun h => absurd h (by decide), fun h => absurd h (by decide)⟩

theorem can_lm (r : Bool) (s : State) : canMove lm r s :=
  ⟨⟨rfl, .inl rfl⟩, .inl rfl, fun h => absurd h (by decide), fun h => absurd h (by decide)⟩

theorem can_qm {r : Bool} {s : State} (h : queueOf s.cx 0 ≠ []) : canMove qm r s :=
  ⟨⟨rfl, .inl rfl⟩, .inl rfl, fun k => absurd k (by decide), fun _ _ => h⟩

theorem wb_none {u : Nat} {s : State} (h : (opnd s.cx (wbPort u)).toNat % 1024 = 0x3FF) : wbOk u s := .inr h

/-! ### Integer, address and control operations -/

theorem wit_IntegerResults : ∃ i u m f s, iaRow i = some (u, m, f) ∧ canMove m false s ∧ wbOk u.toNat s :=
  ⟨.iaAdd 1 im, 1, im, _, b0, rfl, can_im _ _, wb_none (by decide +kernel)⟩

theorem wit_AddressResults :
    (∃ i m f h s, amRow i = some (m, f, h) ∧ canMove m false s ∧ wbOk 2 s) ∧
      ∃ i m view s, baseRow i = some (m, view) ∧ canMove m false s :=
  ⟨⟨.amMulu im, im, _, _, b0, rfl, can_im _ _, wb_none (by decide +kernel)⟩, ⟨.amWxh im, im, 3, b0, rfl, can_im _ _⟩⟩

theorem wit_WrapReduces : ∃ m s, canMove m false s ∧ wbOk 2 s := ⟨im, b0, can_im _ _, wb_none (by decide +kernel)⟩

theorem wit_TransfersOpenShadows : ∃ i m n s, jumpRow i = some (m, n) ∧ canMove m false s ∧ s.cx.shadow = none ∧
    s.cx.loops = [] ∧ s.cx.jump = none :=
  ⟨.brCall im, im, _, b0, rfl, can_im _ _, by decide +kernel, by decide +kernel, by decide +kernel⟩

theorem wit_BranchesOpenShadows : ∃ i m taken s, branchRow i = some (m, taken) ∧ canMove m false s ∧
    s.cx.shadow = none ∧ s.cx.loops = [] ∧ s.cx.jump = none :=
  ⟨.brJz im, im, _, b0, rfl, can_im _ _, by decide +kernel, by decide +kernel, by decide +kernel⟩

/-- The body of 64 bundles, the longest, with a count; a count of 0; and loops to break from. -/
theorem wit_LoopsAndLinks :
    (∃ m s, canMove m false s ∧ s.cx.shadow = none ∧ s.cx.jump = none ∧ (toW (soleValue m s)).toNat = 64 ∧
      (opnd s.cx 0x260).toNat % 2 ^ 32 ≠ 0 ∧ s.cx.loops.length < 3 ∧
      ∀ l ∈ s.cx.loops, s.cx.pc.toNat + 64 ≤ l.stop) ∧
    (∃ m s, canMove m false s ∧ s.cx.shadow = none ∧ s.cx.jump = none ∧ (toW (soleValue m s)).toNat = 1 ∧
      (opnd s.cx 0x260).toNat % 2 ^ 32 = 0 ∧ s.cx.loops.length < 3 ∧
      (∀ l ∈ s.cx.loops, s.cx.pc.toNat + 1 ≤ l.stop) ∧ ∀ l ∈ s.cx.loops, l.stop ≠ s.cx.pc.toNat) ∧
    ∃ m s, canMove m false s ∧ s.cx.shadow = none ∧ s.cx.jump = none ∧
      ∃ l rest, s.cx.loops = l :: rest ∧ l.stop = s.cx.pc.toNat ∧ ∀ k ∈ rest, k.stop ≠ s.cx.pc.toNat :=
  ⟨⟨lm, limm 64 (onCtx fun x => { x with opnd := [(0x260, 5)], loops := [⟨0, 64, 2⟩] }), can_lm _ _, by decide +kernel⟩,
    ⟨im, onCtx fun x => { x with loops := [⟨0, 1, 2⟩] }, can_im _ _, by decide +kernel⟩,
    ⟨im, onCtx fun x => { x with pc := 4, loops := [⟨2, 4, 2⟩, ⟨0, 6, 3⟩] }, can_im _ _, by decide +kernel, by decide +kernel,
      ⟨2, 4, 2⟩, [⟨0, 6, 3⟩], by decide +kernel⟩⟩

/-- FP32 types pass the fused multiply-add. -/
def vecSt : State := onCtx fun x => { x with opnd := [(0x2C3, 8)] }

theorem wit_VectorsComplete : ∃ i r s, (vxRow i = some r ∨ vsRow i = some r) ∧ canMove r.m false s ∧ wbOk r.unit s ∧
    typesPass r s ∧ ten s.cx = 0 := by
  refine ⟨.vxFma im, _, vecSt, .inl rfl, can_im _ _, wb_none (by decide +kernel), ⟨?_, ?_, by decide +kernel⟩, by decide +kernel⟩
  · intro f h; cases h; decide +kernel
  · intro f h; cases h

/-! ### Moves and traps -/

theorem wit_MovesToRegisters : ∃ m s, canMove m true s := ⟨⟨0, 0x301, true⟩, b0, ⟨rfl, .inr (.inr rfl)⟩, .inl rfl, by decide, by decide⟩

/-- A queue of 16 entries that the move pops has room for its push. -/
theorem wit_MovesElsewhere : ∃ m s, canMove m false s ∧ (queueOf s.cx 0).length = 16 ∧ m.s.toNat = 0x380 ∧
    (queueOf s.cx 0).tail.length < 16 :=
  ⟨qm, onCtx fun x => { x with queues := [(0, List.replicate 16 7)] }, can_qm (by decide +kernel), by decide +kernel⟩

theorem wit_GuardedOffDoesNothing : ∃ i d m s, moveOf i = some (d, m) ∧ moveSound m (toReg i) ∧ ¬ guardHolds m s :=
  ⟨.sysExit ⟨5, 0x301, false⟩, _, ⟨5, 0x301, false⟩, b0, rfl, ⟨rfl, .inl rfl⟩, by unfold guardHolds; decide +kernel⟩

/-- An empty register with either F, and a failed one. -/
theorem wit_RegisterReadTraps :
    (∀ f, ∃ i d m s, moveOf i = some (d, m) ∧ moveSound m (toReg i) ∧ guardHolds m s ∧ isRegPort m.s.toNat = true ∧
      placedWell i s ∧ regState s.cx (resolve s.cx m.s.toNat) s.cycle = .empty ∧ m.f = f) ∧
    ∃ i d m s a l, moveOf i = some (d, m) ∧ moveSound m (toReg i) ∧ guardHolds m s ∧ isRegPort m.s.toNat = true ∧
      placedWell i s ∧ regState s.cx (resolve s.cx m.s.toNat) s.cycle = .failed a l :=
  ⟨fun f => ⟨.iaAdd 0 ⟨0, 2, f⟩, _, ⟨0, 2, f⟩, onCtx fun x => { x with units := [(4, .empty)] }, rfl,
      ⟨rfl, .inr (.inl rfl)⟩, .inl rfl, rfl, ⟨fun h => absurd h (by cases f <;> decide), (fun _ h => nomatch h), (fun _ h => nomatch h)⟩,
      by cases f <;> decide +kernel, rfl⟩,
    ⟨.brLoop ⟨0, 2, false⟩, _, ⟨0, 2, false⟩, onCtx fun x => { x with units := [(5, .failed 0x40 2)] }, 0x40, 2, rfl,
      ⟨rfl, .inl rfl⟩, .inl rfl, rfl, ⟨by decide, fun _ _ => by decide +kernel, fun _ h => nomatch h⟩, by decide +kernel⟩⟩

/-- The first and the last cause, with a vector and outside a handler; without a vector; in a handler. -/
theorem wit_TrapEntry :
    (∃ s : State, tget (s.ctx 0).vectors 1 = some 7 ∧ tget (s.ctx 0).vectors 0x18 = some 7 ∧ tact (s.ctx 0) = false ∧
      modeDet (bMode (s.board 0)) = false) ∧
    (∃ s : State, tget (s.ctx 0).vectors 1 = none ∧ ∃ l, tget s.tm.launches (bLid (s.board 0)) = some l ∧ l.ending = none) ∧
    ∃ s : State, tact (s.ctx 0) = true :=
  ⟨⟨onCtx fun x => { x with vectors := [(1, 7), (0x18, 7)] }, by decide +kernel⟩,
    ⟨withLau (lau 0) b0, by decide +kernel, lau 0, by decide +kernel⟩,
    ⟨onCtx fun x => { x with cause := 0x100000 }, by decide +kernel⟩⟩

/-! ### Memory -/

/-- An own-scratchpad address, a cluster-path address of the own core, and where a global page of a kind stands. -/
def ownVa (n : W64) : W64 := 0x2000000000000000 + n
def cluVa (n : W64) : W64 := 0x3000000000000000 + n

/-- Descriptors of a page of compartment 1: LINED, ATOMIC and CONST; line 5, FP32, a region of 8,192 bytes. -/
def lineDesc : W64 := 0x10043
def atomDesc : W64 := 0x100C3
def constDesc : W64 := 0x101C3
def descHigh : W64 := 0x0400001600000000 + 0x000000000C000100
def lineNo : Nat := 2 ^ 24 + 5
def wide : Range := ⟨0, 0x00FFFFFFFFFFF000, 0, 0x1F⟩

/-- A state with page 0 of the tables mapped by a descriptor, budgets for compartment 1, and a launch in a mode. -/
def paged (mode : Nat) (low : W64) (s : State) : State :=
  { withLau { lau mode with ranges := [wide] } s with
    ms := { s.ms with tlb := [⟨0, 1, 0, low, descHigh, 4⟩] }
    tt := { s.tt with cls := [(1, 2 ^ 160 - 1)] } }

theorem quiet {s : State} (h1 : s.ms.accs = []) (h2 : s.ms.tagq = []) (h3 : s.cr.calls = []) (h4 : s.ms.holds = [])
    (h5 : s.iss.malias = false) (h6 : s.ms.failSpad = []) (h7 : s.tm.settOps = [] := by rfl) : MemQuiet s :=
  ⟨by simp [h1], by simp [h2], by simp [h3], by simp [h7], h4, by simp [h5], h6⟩

/-- The last byte below 2^64 on each kind of path. -/
theorem wit_ScratchpadAddresses : ∀ va ∈ [2 ^ 61, 2 ^ 61 + 2 ^ 60 - 1, 3 * 2 ^ 60, 2 ^ 62 - 1, 2 ^ 62, 2 ^ 64 - 1],
    Use.load ≠ .line ∧ Use.load ≠ .packet ∧ Use.load ≠ .handle ∧ va < 2 ^ 64 := by decide

/-- The last word of a window of 4 KiB, on the own path, and on the cluster path once it is accepted. -/
theorem wit_ScratchpadLoads :
    (∃ i r s a k, loadRow i = some r ∧ canMove r.m false s ∧ wbOk (4 + r.u.toNat) s ∧ MemQuiet s ∧ accepted (soleVa r.m s) s ∧
      route s s.iss.ctx (soleVa r.m s) r.post.size r.post.size .load r.vh = .spad a k) ∧
    ∃ i r s a k, loadRow i = some r ∧ canMove r.m false s ∧ wbOk (4 + r.u.toNat) s ∧ MemQuiet s ∧ accepted (soleVa r.m s) s ∧
      pathOf (soleVa r.m s) = 3 ∧ route s s.iss.ctx (soleVa r.m s) r.post.size r.post.size .load r.vh = .spad a k :=
  ⟨⟨.lsLd32s 1 qm, _, atQ (ownVa 0xFFC) [], 0xFFC, 0, rfl, can_qm (by decide +kernel), wb_none (by decide +kernel),
      quiet rfl rfl rfl rfl rfl rfl, fun h => absurd h (by decide +kernel), by decide +kernel⟩,
    ⟨.lsLdv 0 qm, _, onCtx fun x => { x with queues := [(0, [cluVa 0xF00])], clusterAt := some 0 }, 0xF00, 0, rfl,
      can_qm (by decide +kernel), wb_none (by decide +kernel), quiet rfl rfl rfl rfl rfl rfl,
      fun _ => ⟨0, by decide +kernel⟩, by decide +kernel⟩⟩

theorem wit_ScratchpadStores :
    (∃ i r s a k, storeRow i = some r ∧ canMove r.m false s ∧ MemQuiet s ∧ memoriesOk s = true ∧ pathOf (soleVa r.m s) = 2 ∧
      route s s.iss.ctx (soleVa r.m s) r.size r.size .store r.vh = .spad a k) ∧
    ∃ i r s a k, storeRow i = some r ∧ canMove r.m false s ∧ MemQuiet s ∧ pathOf (soleVa r.m s) = 3 ∧
      route s s.iss.ctx (soleVa r.m s) r.size r.size .store r.vh = .spad a k :=
  ⟨⟨.lsStvm 0 qm, _, atQ (ownVa 0xF00) [(0x281, 5)], 0xF00, 0, rfl, can_qm (by decide +kernel), quiet rfl rfl rfl rfl rfl rfl,
      by decide +kernel⟩,
    ⟨.lsSt8 0 qm, _, atQ (cluVa 0xFFF) [], 0xFFF, 0, rfl, can_qm (by decide +kernel), quiet rfl rfl rfl rfl rfl rfl,
      by decide +kernel⟩⟩

/-- A live line of compartment 1, number 5. -/
def line5 : Line := { vacantLine with st := .live, fmt := 8, xlog := 12, cols8 := 1 }
def withLine (l : Line) (s : State) : State := { s with ms := { s.ms with lines := [(lineNo, l)] } }
/-- Compartment 1, with a pool of 64 units. -/
def comp1 : Comp :=
  { isol := false, poolmax := 64, quota := 1024, tag := 0, kchain := 0, kcount := 0, root := 0, pages := 0, pool := 64, key := 1 }
def pooled (s : State) : State := { s with tt := { s.tt with comps := [(1, comp1)] } }
def open5 : OpenPatch := ⟨0, 9, 0, none, []⟩

theorem wit_GlobalAccessesLeave_load : ∀ low ∈ [lineDesc, atomDesc], ∃ i r s pa ta high, loadRow i = some r ∧
    canMove r.m false s ∧ wbOk (4 + r.u.toNat) s ∧ MemQuiet s ∧
    route s s.iss.ctx (soleVa r.m s) r.post.size r.post.size .load r.vh = .page pa low high ta ∧
    blocksServed s s.iss.ctx (accessBlocks s (.page pa low high ta) r.post.size r.vh) = true ∧
    (dKind low = kLined → (∃ l, s.line (lineKey high) = some l ∧ l.st = .live) ∧ s.cx.onLine = false ∧
      lineKey high ∉ s.cx.unmade) := by
  intro low h
  refine ⟨.lsLd32 0 qm, _, withLine line5 (paged 0 low (atQ 0x7FC [])), 0x107FC, 0x7FC, descHigh, rfl,
    can_qm ?_, wb_none ?_, quiet rfl rfl rfl rfl rfl rfl, ?_, ?_, fun _ => ⟨⟨line5, ?_⟩, ?_, ?_⟩⟩
  all_goals rcases (by simpa using h : low = lineDesc ∨ low = atomDesc) with rfl | rfl <;> decide +kernel

/-- The last word of the page, into an open patch of a compartment with a pool of 64 units; and to an ATOMIC page. -/
theorem wit_GlobalAccessesLeave_store : ∀ low ∈ [lineDesc, atomDesc], ∃ i r s pa ta high, storeRow i = some r ∧
    canMove r.m false s ∧ MemQuiet s ∧
    route s s.iss.ctx (soleVa r.m s) r.size r.size .store r.vh = .page pa low high ta ∧ pendFits s.cx.pend r.size = true ∧
    blocksServed s s.iss.ctx (storeBlocks s (.page pa low high ta) r.size r.vh (if r.lanes then some (r.mask s) else none)) = true ∧
    (dKind low = kLined →
      (∃ l, s.line (lineKey high) = some l ∧ l.st = .live ∧ l.opens.any (fun o => o.ctx == s.iss.ctx) = true) ∧
      poolUsed (addAcc s (soleAcc r.m s .patch (.line (lineKey high) (ta % 2 ^ (dXlog high + 1))) pa r.size (r.a s) 0 none))
        (lineKey high / 2 ^ 24) ≤ poolMax s (lineKey high / 2 ^ 24)) := by
  intro low h
  refine ⟨.lsSt32 0 qm, _, pooled (withLine { line5 with opens := [open5] } (paged 0 low (atQ 0x7FC []))), 0x107FC, 0x7FC,
    descHigh, rfl, can_qm ?_, quiet rfl rfl rfl rfl rfl rfl, ?_, ?_, ?_, fun _ => ⟨⟨{ line5 with opens := [open5] }, ?_⟩, ?_⟩⟩
  all_goals rcases (by simpa using h : low = lineDesc ∨ low = atomDesc) with rfl | rfl <;> decide +kernel

/-- A full and an empty word, which nothing waits for, of the own scratchpad and on the cluster path. -/
theorem wit_TaggedWords : ∀ full ∈ [[], [3]], ∀ path ∈ [2, 3], ∃ m s a k, canMove m false s ∧ MemQuiet s ∧
    memoriesOk s = true ∧ s.cx.down = none ∧ accepted (soleVa m s) s ∧ pathOf (soleVa m s) = path ∧
    (∀ q ∈ s.ms.tagq, q.word ≠ a / 4) ∧ route s s.iss.ctx (soleVa m s) 4 4 .tagged false = .spad a k ∧
    nextRecord s (bLid (s.board s.iss.ctx)) (s.seenDie s.iss.ctx) 0x05 (tagSite s s.iss.ctx a) = none ∧ wbOk 10 s ∧
    tagFull s a = full.contains 3 := by
  intro full h path g
  refine ⟨qm, { (onCtx fun x => { x with queues := [(0, [if path = 2 then ownVa 12 else cluVa 12])], clusterAt := some 0 }) with
      ms := { b0.ms with full := full } }, 12, 0, can_qm ?_,
    quiet rfl rfl rfl rfl rfl rfl, ?_, ?_, fun _ => ⟨0, ?_, ?_⟩, ?_, ?_, ?_, ?_, wb_none ?_, ?_⟩
  all_goals rcases (by simpa using h : full = [] ∨ full = [3]) with rfl | rfl <;>
    rcases (by simpa using g : path = 2 ∨ path = 3) with rfl | rfl <;> decide +kernel

/-- The last word of the window: an atomic that returns, on either path, and one that does not, on either path. -/
theorem wit_ScratchpadAtomics : ∀ path ∈ [2, 3], ∀ ret : Bool, ∃ i r s a k, atomRow i = some r ∧ canMove r.m false s ∧
    (r.ret = true → wbOk 10 s) ∧ MemQuiet s ∧ route s s.iss.ctx (soleVa r.m s) 4 4 .atom false = .spad a k ∧ r.ret = ret ∧
    pathOf (soleVa r.m s) = path ∧ accepted (soleVa r.m s) s ∧ memoriesOk s = true ∧
    lidDet s (bLid (s.board s.iss.ctx)) = false := by
  intro path g ret
  let s := onCtx fun x => { x with queues := [(0, [if path = 2 then ownVa 0xFFC else cluVa 0xFFC])], clusterAt := some 0 }
  cases ret
  · refine ⟨.syRxor qm, _, s, 0xFFC, 0, rfl, can_qm ?_, fun _ => wb_none ?_, quiet rfl rfl rfl rfl rfl rfl, ?_, rfl, ?_,
      fun _ => ⟨0, ?_, ?_⟩, ?_, ?_⟩
    all_goals rcases (by simpa using g : path = 2 ∨ path = 3) with rfl | rfl <;> decide +kernel
  · refine ⟨.sySwap qm, _, s, 0xFFC, 0, rfl, can_qm ?_, fun _ => wb_none ?_, quiet rfl rfl rfl rfl rfl rfl, ?_, rfl, ?_,
      fun _ => ⟨0, ?_, ?_⟩, ?_, ?_⟩
    all_goals rcases (by simpa using g : path = 2 ∨ path = 3) with rfl | rfl <;> decide +kernel

/-- In a deterministic mode and outside one. -/
theorem wit_GlobalAtomicsLeave : ∀ mode ∈ [0, 1], ∃ i r s pa ta low high, atomRow i = some r ∧ canMove r.m false s ∧
    (r.ret = true → wbOk 10 s) ∧ MemQuiet s ∧ route s s.iss.ctx (soleVa r.m s) 4 4 .atom false = .page pa low high ta ∧
    pendFits s.cx.pend 4 = true ∧ blocksServed s s.iss.ctx (accessBlocks s (.page pa low high ta) 4 false) = true ∧
    lidDet s (bLid (s.board s.iss.ctx)) = (mode == 1) := by
  intro mode h
  refine ⟨.syRadd qm, _, paged mode atomDesc (atQ 0xFFC []), 0x10FFC, 0xFFC, atomDesc, descHigh, rfl,
    can_qm ?_, fun _ => wb_none ?_, quiet rfl rfl rfl rfl rfl rfl, ?_, ?_, ?_, ?_⟩
  all_goals rcases (by simpa using h : mode = 0 ∨ mode = 1) with rfl | rfl <;> decide +kernel

/-- A scope whose counter is 0, and one whose counter is not; scope codes above 5 are counters too. -/
theorem wit_FenceAndWaitScopes : (∃ m s, canMove m false s ∧ pendOf s.cx.pend ((toW (soleValue m s)).toNat % 8) = 0) ∧
    ∃ m s, canMove m false s ∧ pendOf s.cx.pend ((toW (soleValue m s)).toNat % 8) ≠ 0 :=
  ⟨⟨im, b0, can_im _ _, by decide +kernel⟩,
    ⟨im, onCtx fun x => { x with pend := { core := 8 } }, can_im _ _, by decide +kernel⟩⟩

/-- A store on its way of an earlier bundle. -/
def acc0 (kind : AccKind) (place : Place) (size : Nat) : Acc :=
  { id := 7, ctx := 0, num := 0, slot := 0, rank := 0, lid := 0, kind := kind, place := place, va := 0, pa := 0x10000, size := size
    data := 0x44332211, cmp := 0, dest := none }

theorem wit_FencesHold : ∃ i m s, (∃ r, loadRow i = some r ∧ r.m = m) ∧ canMove m false s ∧
    ∃ f ∈ s.cx.fences, fenceOut s s.iss.ctx f.limit = true :=
  ⟨.lsLd8 0 im, im, { (onCtx fun x => { x with bundles := 1, fences := [⟨0, 1⟩] }) with
      ms := { b0.ms with accs := [acc0 .store (.phys 0x10000) 4] } }, ⟨_, rfl, rfl⟩, can_im _ _, ⟨0, 1⟩, by decide +kernel⟩

/-! ### Barriers and the Sett -/

/-- A team of two contexts. -/
def pair (x y : Ctx) : State :=
  { b0 with
    ctxs := [(0, x), (1, y)]
    tm := { b0.tm with boards := [(0, loneSlot ||| ((1 : BitVec 512) <<< 65) ||| ((1 : BitVec 512) <<< 45))] } }

/-- TEAMDOWN that is to be raised again; the last member to arrive, one that the others have passed, one that is to wait,
one with an access still out; a context outside its crew, and a member whose barrier has completed. -/
theorem wit_BarriersAndCrews :
    (∃ m s u, canMove m false s ∧ wbOk 10 s ∧ downAgain s s.iss.ctx = some u) ∧
    (∀ passed : Bool, ∃ m s, canMove m false s ∧ s.cx.down = none ∧ fenceOut s s.iss.ctx s.cx.bundles = false ∧
      1 ∈ liveMembers s s.iss.ctx ∧ ∀ k ∈ liveMembers s s.iss.ctx, k ≠ s.iss.ctx →
        if passed then s.cx.bars < (s.ctx k).bars else (s.ctx k).bars = s.cx.bars ∧ (s.ctx k).atTbar = true) ∧
    (∃ m s, canMove m false s ∧ s.cx.down = none ∧ fenceOut s s.iss.ctx s.cx.bundles = false ∧
      ∃ k ∈ liveMembers s s.iss.ctx, k ≠ s.iss.ctx ∧ (s.ctx k).bars = s.cx.bars ∧ (s.ctx k).atTbar = false) ∧
    (∃ m s, canMove m false s ∧ s.cx.down = none ∧ fenceOut s s.iss.ctx s.cx.bundles = true) ∧
    (∃ m s, canMove m false s ∧ wbOk 10 s ∧ s.cx.down = none ∧ (toW (soleValue m s)).toNat % 8 ∉ s.cx.released ∧
      s.iss.ctx ∉ crewMembers s (s.cx.slot * 8 + (toW (soleValue m s)).toNat % 8) ∧
      tget s.tm.crewOpen (s.cx.slot * 8 + (toW (soleValue m s)).toNat % 8) = none) ∧
    ∃ m s, canMove m false s ∧ wbOk 10 s ∧ s.cx.down = none ∧ fenceOut s s.iss.ctx s.cx.bundles = false ∧
      s.iss.ctx ∈ crewMembers s (s.cx.slot * 8 + (toW (soleValue m s)).toNat % 8) ∧
      (toW (soleValue m s)).toNat % 8 ∈ s.cx.released := by
  have h : (downAgain (onCtx fun x => { x with cause := 0x100015, down := some ⟨1, 2, 0, true, 0⟩ }) 0).isSome = true := by
    decide +kernel
  obtain ⟨u, hu⟩ := Option.isSome_iff_exists.1 h
  exact ⟨⟨im, _, u, can_im _ _, wb_none (by decide +kernel), hu⟩,
    fun passed => ⟨im, pair { run := .running } { run := .running, atTbar := true, bars := if passed then 1 else 0 }, can_im _ _,
      by cases passed <;> decide +kernel⟩,
    ⟨im, pair { run := .running } { run := .running }, can_im _ _, by decide +kernel, by decide +kernel, 1, by decide +kernel⟩,
    ⟨im, { (onCtx fun x => { x with bundles := 1 }) with ms := { b0.ms with accs := [acc0 .store (.phys 0x10000) 4] } },
      can_im _ _, by decide +kernel⟩,
    ⟨im, b0, can_im _ _, wb_none (by decide +kernel), by decide +kernel⟩,
    ⟨im, { (onCtx fun x => { x with released := [0, 1] }) with tm := { b0.tm with crews := [(0, [0]), (1, [0])] } }, can_im _ _,
      wb_none (by decide +kernel), by decide +kernel⟩⟩

/-- A gain launch of two items on die 0, with an END code, and its Sett. -/
def gainLau (code : Nat) : Launch := { lau 2 with words := [0, 0, 0, 0, 0, 0, 2 + 2 ^ 36], endCode := code, filled := true }
def sett (items : Tab Item) : Sett := ⟨0, items, []⟩
def gain (code : Nat) (items : Tab Item) (s : State) : State :=
  { s with tm := { s.tm with launches := [(0, gainLau code)], setts := [(0, sett items)] } }
def twoItems : Tab Item := [(0, ⟨5, 1, none, false⟩), (1, ⟨5, 2, none, false⟩)]

/-- A Sett operation of context 0 that arrives. -/
def op0 (kind idx : Nat) (val : W64) : SettOp :=
  { id := 7, ctx := 0, num := 0, lid := 0, key := 0, kind := kind, idx := idx, val := val, dest := none, at_ := 0 }
def arriving (o : SettOp) (s : State) : State :=
  { s with ev := { b := 1, c := 7 }, tm := { s.tm with settOps := [o] } }

/-- Pops and polls of the Sett, of items and an operation on the last item of the launch, held by the context. -/
theorem wit_SettPopsAndItems_issue : ∃ m s l, canMove m false s ∧ s.launchOf s.iss.ctx = some l ∧ modeGain l.mode = true ∧
    wbOk 10 s ∧ s.cx.held.length + (popsOut s s.iss.ctx).length < 16 ∧ (opnd s.cx 0x380).toNat % 2 ^ 32 = 1 ∧ 1 < l.nitems ∧
    1 ∈ s.cx.held :=
  ⟨im, gain 0 twoItems (onCtx fun x => { x with opnd := [(0x380, 1)], held := [1] }), gainLau 0, can_im _ _, by decide +kernel,
    by decide +kernel, wb_none (by decide +kernel), by decide +kernel⟩

/-- Two items of equal gain; none eligible, for a poll and for a pop; a launch that has ended. -/
theorem wit_SettPopsAndItems_pops :
    (∃ s o l st i x, PopArrives s o l st ∧ l.endCode = 0 ∧ popTakes l.floor st.items i x) ∧
    (∀ kind ∈ [3, 4], ∃ s o l st, PopArrives s o l st ∧ l.endCode = 0 ∧ o.kind = kind ∧
      ∀ e ∈ st.items, itemEligible l.floor e.2 = false) ∧
    ∃ s o l st, PopArrives s o l st ∧ l.endCode ≠ 0 := by
  refine ⟨⟨arriving (op0 3 0 0) (gain 0 twoItems b0), op0 3 0 0, _, _, 0, ⟨5, 1, none, false⟩,
      ⟨⟨rfl, rfl⟩, .inl rfl, rfl, rfl, rfl, rfl, rfl, by decide +kernel⟩, rfl,
      ⟨by decide +kernel, by decide +kernel, by decide +kernel, by decide +kernel⟩⟩,
    fun kind h => ⟨arriving (op0 kind 0 0) (gain 0 [(0, ⟨0, 1, none, false⟩)] b0), op0 kind 0 0, gainLau 0,
      sett [(0, ⟨0, 1, none, false⟩)],
      ⟨⟨rfl, rfl⟩, (by simpa using h : kind = 3 ∨ kind = 4), ?_, rfl, ?_, ?_, rfl, ?_⟩, rfl, rfl, by decide +kernel⟩,
    ⟨arriving (op0 4 0 0) (gain 1 twoItems b0), op0 4 0 0, _, _, ⟨⟨rfl, rfl⟩, .inr rfl, rfl, rfl, rfl, rfl, rfl, by decide +kernel⟩,
      by decide⟩⟩
  all_goals rcases (by simpa using h : kind = 3 ∨ kind = 4) with rfl | rfl <;> first | rfl | decide +kernel

/-- A gain that passes its limit, one that is set, and an item that is done. -/
theorem wit_SettPopsAndItems_items : ∀ kind ∈ [0, 1, 2], ∃ s o l x, SettOpDue s o ∧ o.kind < 3 ∧ o.kind = kind ∧
    tget s.tm.launches o.lid = some l ∧ itemOf s o.lid o.idx = some x ∧ 2 ^ 63 - 1 < x.gain + o.val.toInt := by
  intro kind h
  refine ⟨arriving (op0 kind 1 (2 ^ 63 - 1)) (gain 0 twoItems b0), op0 kind 1 (2 ^ 63 - 1), gainLau 0, ⟨5, 2, none, false⟩,
    ⟨rfl, rfl⟩, ?_, rfl, rfl, ?_, ?_⟩
  all_goals rcases (by simpa using h : kind = 0 ∨ kind = 1 ∨ kind = 2) with rfl | rfl | rfl <;> decide +kernel

/-! ### The matrix unit -/

/-- Banks 0 to 15 held by context 0. -/
def bank0 : Bank := { holder := 0, e0 := 0, e1 := 0, e2 := 0, e3 := 0, els := [] }
def banked (s : State) : State := { s with cr := { s.cr with banks := (List.range 16).map fun b => (b, bank0) } }

/-- Alloc of one bank; free of the last bank. -/
theorem wit_BanksAllocateAndFree :
    (∃ m s first, canMove m false s ∧ wbOk 8 s ∧ (toW (soleValue m s)).toNat = 1 ∧ first + 1 ≤ 256 ∧
      teamBanks s s.iss.ctx + 1 ≤ bBanks (s.board s.iss.ctx) ∧
      (∀ k, k < 1 → bankAt s (coreOf s.iss.ctx) (first + k) = none) ∧
      ∀ b, b < first → ¬ ∀ k, k < 1 → bankAt s (coreOf s.iss.ctx) (b + k) = none) ∧
    ∃ m s, canMove m false s ∧ (toW (soleValue m s)).toNat = 255 ∧ (opnd s.cx 0x348).toNat = 1 ∧
      (∀ b, 255 ≤ b → b < 256 → teamHolds s s.iss.ctx b = true) ∧ callNames s (coreOf s.iss.ctx) 255 1 = false :=
  ⟨⟨im, { b0 with
        tm := { b0.tm with boards := [(0, loneSlot ||| ((4 : BitVec 512) <<< 163))] } }, 0, can_im _ _, wb_none (by decide +kernel),
      by decide +kernel, by decide, by decide +kernel, by decide +kernel, fun b h => absurd h (Nat.not_lt_zero b)⟩,
    ⟨lm, limm 255 { (onCtx fun x => { x with opnd := [(0x348, 1)] }) with cr := { b0.cr with banks := [(255, bank0)] } },
      can_lm _ _, by decide +kernel, by decide +kernel, by
        intro b h1 h2
        rw [show b = 255 by omega]; decide +kernel, by decide +kernel⟩⟩

/-- FP32 and NEAREST, of row 0. -/
theorem wit_RowOperations : ∃ m s, canMove m false s ∧ RowReady ((toW (soleValue m s)).toNat % 1024) s ∧ wbOk 8 s ∧
    4 ≤ (opnd s.cx 0x349).toNat % 16 ∧ (opnd s.cx 0x349).toNat % 16 ≤ 0xC ∧ (opnd s.cx 0x349).toNat / 16 % 8 ≤ 4 :=
  ⟨im, banked (onCtx fun x => { x with opnd := [(0x349, 0x48)] }), can_im _ _, ⟨by decide +kernel, by decide +kernel,
    by decide +kernel⟩, wb_none (by decide +kernel), by decide +kernel⟩

/-- `acc.zero` of a tile of 64 × 64 in banks 0 to 15. -/
def zm : Mv := ⟨0, 0x30B, false⟩
def zeroCall : State := paged 0 atomDesc (banked (onCtx fun x => { x with opnd := [(0x343, 0x101)] }))

theorem wit_CallsStart : ∃ i n m r s, routineRow i = some (n, m) ∧ canMove m false s ∧ (toW (soleValue m s)).toNat % 256 = n ∧
    routineOf n = some r ∧ wbOk 8 s ∧ CallAdmitted n s ∧
    (if (callArg s n).fresh = false ∧ (resPort s.cx 0x281).getLsbD 63 = true then (resPort s.cx 0x281).toNat % 2 ^ 32 else 0) <
      (callArg s n).steps r :=
  ⟨.accZero zm, 0x0B, zm, routAccZero, zeroCall, rfl,
    ⟨⟨rfl, .inl rfl⟩, .inl rfl, fun h => absurd h (by decide), fun h => absurd h (by decide)⟩, by decide +kernel, rfl,
    wb_none (by decide +kernel), ⟨by decide +kernel, by decide +kernel, by decide +kernel, by decide +kernel, by decide +kernel,
      by decide +kernel, rfl, fun h => absurd h (by decide +kernel), by decide +kernel⟩, by decide +kernel⟩

/-- A call of `acc.zero` on core 0, with steps done and to do. -/
def call0 (step steps : Nat) (begun stop : Bool) : Call :=
  { ctx := 0, slot := 0, rout := 0x0B, mp0 := 0, mp1 := 0, mp2 := 0, mp3 := 0x101, mp4 := 0, mp5 := 0, mp6 := 0, mp7 := 0
    step := step, steps := steps, cyc := 16, begun := begun, stop := stop, wb := some ⟨8, 4⟩, num := 0, stride := 0, flags := [] }
def calling (k : Call) : State := let s := banked b0; { s with cr := { s.cr with calls := [(0, k)] } }

/-- A step of `mm.h`, of FP32 `acc.ld` and `acc.st`, of `acc.norm` and `acc.zero`, at the foot of the window. -/
def callOf (n : Nat) : Call :=
  { call0 0 1 false false with
    rout := n, mp0 := ownVa 0, mp1 := ownVa 0x800, mp2 := if n = 4 then 0x66 else 8
    mp3 := if n = 4 then 0x4000000101 else 0x101, mp4 := if n = 4 then 0x8000000080 else 0x100 }

/-- The first element of the tile. -/
theorem wit_MatrixSteps_begin : ∀ n ∈ [4, 8, 9, 0x0A, 0x0B], ∃ (s : State) (k : Call) (r : Routine),
    tget s.cr.calls s.ev.a = some k ∧ routineOf k.rout = some r ∧ s.ev.b = 0 ∧ (∀ b ∈ s.ms.accs, b.ctx ≠ k.ctx) ∧ s.ms.holds = [] ∧
    (∀ f ∈ s.ms.former, s.ev.a ∉ f.cores) ∧ stepFails s s.ev.a k = none ∧ k.rout = n ∧ 0 < r.tile ∧
    (let g := cellRow k.arg (stepAt k.arg r k.step).i0 (stepAt k.arg r k.step).j0
     (bankAt s s.ev.a (g / 4)).isSome = true ∧ ((rowElems s s.ev.a g).getD 0 {}).st = .finite) ∧
    (n = 4 → k.arg.mask = false ∧ ∀ e ∈ stepPairs s k r 0 0, e.1.isNan = false ∧ e.1.isInf = false ∧ e.2.isNan = false ∧ e.2.isInf = false) ∧
    (n = 8 → ((sideA s k.ctx k.arg).num s 0 0).isNan = false ∧ ((sideA s k.ctx k.arg).num s 0 0).isInf = false) ∧
    (n = 9 → 4 ≤ k.arg.at_ ∧ k.arg.at_ ≤ 0xC ∧ 64 * tyBits k.arg.at_ ≤ 8 * k.arg.astr ∧ s.ms.failSpad = []) := by
  intro n h
  rcases (by simpa using h : n = 4 ∨ n = 8 ∨ n = 9 ∨ n = 0x0A ∨ n = 0x0B) with rfl | rfl | rfl | rfl | rfl
  · exact ⟨calling (callOf 4), callOf 4, routMmH, rfl, rfl, by decide +kernel⟩
  · exact ⟨calling (callOf 8), callOf 8, routAccLd, rfl, rfl, by decide +kernel⟩
  · exact ⟨calling (callOf 9), callOf 9, routAccSt, rfl, rfl, by decide +kernel⟩
  · exact ⟨calling (callOf 0x0A), callOf 0x0A, routAccNorm, rfl, rfl, by decide +kernel⟩
  · exact ⟨calling (callOf 0x0B), callOf 0x0B, routAccZero, rfl, rfl, by decide +kernel⟩

/-- The last step, one before the last, and one of a call that is to stop; a call that is issued again. -/
theorem wit_MatrixSteps_end :
    (∃ (s : State) (k : Call), tget s.cr.calls s.ev.a = some k ∧ k.begun = true ∧ s.ms.holds = [] ∧ stepTrap (s.ctx k.ctx) k.flags = none ∧
      k.steps ≤ k.step + 1) ∧
    (∀ stop : Bool, ∃ (s : State) (k : Call), tget s.cr.calls s.ev.a = some k ∧ k.begun = true ∧ s.ms.holds = [] ∧
      stepTrap (s.ctx k.ctx) k.flags = none ∧ k.step + 1 < k.steps ∧ k.stop = stop ∧ (s.ctx k.ctx).preempt = stop) ∧
    ∃ (s : State) (n slot num : Nat) (wb : Option Dest) (on : Bool) (r : Routine), routineOf n = some r ∧
      (s.ctx s.ev.a).reissue = some ⟨n, slot, wb, num, on⟩ ∧ s.ms.holds = [] ∧
      (let x := s.ctx s.ev.a
       let p (i : Nat) : W64 := toW (opnd x (0x340 + i))
       let a := mxArg n (p 0) (p 1) (p 2) (p 3) (p 4) (p 5) (p 6) (p 7 &&& ~~~4)
       callChecks s s.ev.a slot a = [] ∧ tget s.cr.calls (coreOf s.ev.a) = none ∧ callPosted s s.ev.a a = false ∧
         mxAdmits s (dieOf s.ev.a) (bComp (s.board s.ev.a)) (callCost x a) = true ∧
         (if (resPort x 0x281).getLsbD 63 = true then (resPort x 0x281).toNat % 2 ^ 32 else 0) < a.steps r) :=
  ⟨⟨calling (call0 0 1 true false), call0 0 1 true false, by decide +kernel⟩,
    fun stop => ⟨(calling (call0 0 2 true stop)).modCtx 0 fun x => { x with preempt := stop }, call0 0 2 true stop,
      by cases stop <;> decide +kernel⟩,
    ⟨let s := zeroCall; { s with ctxs := [(0, let x := s.ctx 0; { x with reissue := some ⟨0x0B, 5, none, 3, true⟩ })] }, 0x0B, 5, 3, none, true,
      routAccZero, rfl, by decide +kernel⟩⟩

/-! ### Patch and data commands -/

/-- `#0`, a control word of zeros. -/
def nm : Mv := ⟨0, 0x300, false⟩
theorem can_nm (r : Bool) (s : State) : canMove nm r s :=
  ⟨⟨rfl, .inl rfl⟩, .inl rfl, fun h => absurd h (by decide), fun h => absurd h (by decide)⟩

/-- A patch command of context 0: the tables name line 5 at page 0 and line 6 at page 1; the parameters; the lines. -/
def lined (ports : Tab Vec) (lines : Tab Line) : State :=
  let s := pooled (paged 0 lineDesc (onCtx fun x => { x with opnd := ports }))
  { s with ms := { s.ms with
      lines := lines
      tlb := [⟨0, 1, 0, lineDesc, descHigh, 4⟩, ⟨0, 1, 1, lineDesc, descHigh + 0x400000000, 4⟩, ⟨0, 1, 2, constDesc, descHigh, 4⟩] } }

theorem names0 {k : Nat} {ports : Tab Vec} {lines : Tab Line}
    (h0 : (toW (opnd (lined ports lines).cx (0x360 + k))).toNat = 0)
    (h : route (lined ports lines) (lined ports lines).iss.ctx 0 1 1 .line false = .page 0x10000 lineDesc descHigh 0) :
    namesLine k lineNo (lined ports lines) := ⟨_, _, _, _, by rw [h0]; exact h, by decide +kernel⟩

theorem names1 {k : Nat} {ports : Tab Vec} {lines : Tab Line}
    (h0 : (toW (opnd (lined ports lines).cx (0x360 + k))).toNat = 0x1000)
    (h : route (lined ports lines) (lined ports lines).iss.ctx 0x1000 1 1 .line false =
      .page 0x10000 lineDesc (descHigh + 0x400000000) 0x1000) :
    namesLine k (lineNo + 1) (lined ports lines) := ⟨_, _, _, _, by rw [h0]; exact h, by decide +kernel⟩

theorem patch_ready {key n : Nat} {s : State} (h1 : (opnd s.cx (wbPort 9)).toNat % 1024 = 0x3FF) (h2 : fenceHolds s s.iss.ctx = false)
    (h3 : outstanding s s.iss.ctx s.cx.bundles = false)
    (h4 : 0 < avail s (dieOf s.iss.ctx) (key / 2 ^ 24) 2 (homeOf s key) ∧
      n - paidAt s.cx.paid 2 (homeOf s key) ≤ avail s (dieOf s.iss.ctx) (key / 2 ^ 24) 2 (homeOf s key)) : PatchReady key n s :=
  ⟨.inr h1, h2, h3, h4.1, h4.2⟩

/-- Patches that commute: of one granule each, at different offsets. -/
def pat (name : Nat) (off : Nat) : Patch := ⟨name, 0, [(off, [1, 0, 0, 0])], 0⟩

theorem wit_PatchesOpenAndClose_open : ∃ m s key l, canMove m false s ∧ namesLine 0 key s ∧ PatchReady key 1 s ∧ s.line key = some l ∧ l.st = .live ∧
    (l.fmt ≤ 3 → ctlWord m s % 4 = 0 ∨ ctlWord m s % 4 = 3) ∧ nameAt 1 s ≠ 0 ∧
    (∀ e ∈ s.ms.lines, ∀ o ∈ e.2.opens, o.ctx ≠ s.iss.ctx) ∧ (∀ o ∈ l.opens, o.ctx ≠ s.iss.ctx) ∧
    poolUsed s (key / 2 ^ 24) + 1 ≤ poolMax s (key / 2 ^ 24) :=
  ⟨nm, lined [(0x361, 0xFFFFFFFF)] [(lineNo, line5)], lineNo, line5, can_nm _ _, names0 (by decide +kernel) (by decide +kernel),
    patch_ready (by decide +kernel) (by decide +kernel) (by decide +kernel) (by decide +kernel), by decide +kernel⟩

/-- A patch that closes onto the chain, and one onto siding 63. -/
theorem wit_PatchesOpenAndClose_close : ∀ n ∈ [none, some 63], ∃ m s key l o, canMove m false s ∧ namesLine 0 key s ∧ PatchReady key 1 s ∧
    s.line key = some l ∧ l.opens.find? (fun o => o.ctx == s.iss.ctx) = some o ∧ patchWritesOut s s.iss.ctx key = false ∧
    (∀ a ∈ s.ms.accs, intoPatch s.iss.ctx key (s.cx.bundles + 1) a = false) ∧
    nameOf l o.name = none ∧ lidDet s (bLid (s.board s.iss.ctx)) = false ∧ o.siding = n ∧ l.chain.length < 65535 ∧
    ((tget l.sidings 63).getD []).length < 65535 := by
  intro n h
  refine ⟨nm, lined [] [(lineNo, { line5 with opens := [{ open5 with siding := n }] })], lineNo,
    { line5 with opens := [{ open5 with siding := n }] }, { open5 with siding := n }, can_nm _ _, ?_, ?_, ?_⟩
  · rcases (by simpa using h : n = none ∨ n = some 63) with rfl | rfl <;>
      exact names0 (by decide +kernel) (by decide +kernel)
  · rcases (by simpa using h : n = none ∨ n = some 63) with rfl | rfl <;>
      exact patch_ready (by decide +kernel) (by decide +kernel) (by decide +kernel) (by decide +kernel)
  · rcases (by simpa using h : n = none ∨ n = some 63) with rfl | rfl <;> decide +kernel

/-- A chain of two patches that commute: both exchanged, the first inverted, the chain squashed. -/
theorem wit_ChainsReorder : ∃ m s key l, canMove m false s ∧ namesLine 0 key s ∧ PatchReady key (2 + l.chain.length) s ∧ s.line key = some l ∧
    l.chain = [] ++ pat 1 0 :: pat 2 4 :: [] ∧ (pat 1 0).name = nameAt 1 s ∧ (pat 2 4).name = nameAt 2 s ∧
    (pat 1 0).name ≠ (pat 2 4).name ∧ commutes (pat 1 0) (pat 2 4) = true ∧
    (∀ q ∈ [pat 2 4], commutes (pat 1 0) q = true) ∧ (∀ r ∈ [] ++ [pat 2 4], r.name ≠ (pat 1 0).name) ∧ l.st = .live ∧
    l.chain ≠ [] :=
  ⟨nm, lined [(0x361, 1), (0x362, 2)] [(lineNo, { line5 with chain := [pat 1 0, pat 2 4] })], lineNo,
    { line5 with chain := [pat 1 0, pat 2 4] }, can_nm _ _, names0 (by decide +kernel) (by decide +kernel),
    patch_ready (by decide +kernel) (by decide +kernel) (by decide +kernel) (by decide +kernel), by decide +kernel⟩

/-- A fork of the base alone, and of one patch of two, onto a vacant line. -/
theorem wit_LinesForkAndTransplant_fork : ∀ name ∈ [0, 1], ∃ m s ka kb a b ps post, canMove m false s ∧ namesLine 0 ka s ∧ PatchReady kb (1 + a.chain.length) s ∧
    s.line ka = some a ∧ s.line kb = some b ∧ a.st = .live ∧ geometryDiffers ka kb a b = false ∧ namesLine 1 kb s ∧ b.st ≠ .live ∧
    a.chain = ps ++ post ∧ nameAt 2 s = name ∧ (nameAt 2 s = 0 → ps = []) ∧
    (nameAt 2 s ≠ 0 → ∃ qs p, ps = qs ++ [p] ∧ p.name = nameAt 2 s ∧ ∀ q ∈ qs, q.name ≠ nameAt 2 s) ∧
    poolShort s (s.setLine kb { b with
      st := .live, base := a.base, hash := a.hash, chain := ps, sidings := []
      names := ps.map fun p => { name := p.name, digest := p.digest, squashed := false } }) (kb / 2 ^ 24) = false := by
  intro name h
  rcases (by simpa using h : name = 0 ∨ name = 1) with rfl | rfl
  · exact ⟨nm, lined [(0x361, 0x1000)] [(lineNo, { line5 with chain := [pat 1 0, pat 2 4] }), (lineNo + 1, { line5 with st := .vacant })],
      lineNo, lineNo + 1, { line5 with chain := [pat 1 0, pat 2 4] }, { line5 with st := .vacant }, [], [pat 1 0, pat 2 4],
      can_nm _ _, names0 (by decide +kernel) (by decide +kernel),
      patch_ready (by decide +kernel) (by decide +kernel) (by decide +kernel) (by decide +kernel), by decide +kernel,
      by decide +kernel, rfl, by decide +kernel, names1 (by decide +kernel) (by decide +kernel), by decide +kernel, rfl,
      by decide +kernel, fun _ => rfl, fun h => absurd (by decide +kernel) h, by decide +kernel⟩
  · exact ⟨nm, lined [(0x361, 0x1000), (0x362, 1)] [(lineNo, { line5 with chain := [pat 1 0, pat 2 4] }), (lineNo + 1, { line5 with st := .vacant })],
      lineNo, lineNo + 1, { line5 with chain := [pat 1 0, pat 2 4] }, { line5 with st := .vacant }, [pat 1 0], [pat 2 4],
      can_nm _ _, names0 (by decide +kernel) (by decide +kernel),
      patch_ready (by decide +kernel) (by decide +kernel) (by decide +kernel) (by decide +kernel), by decide +kernel,
      by decide +kernel, rfl, by decide +kernel, names1 (by decide +kernel) (by decide +kernel), by decide +kernel, rfl,
      by decide +kernel, fun h => absurd h (by decide +kernel), fun _ => ⟨[], pat 1 0, rfl, by decide +kernel⟩, by decide +kernel⟩

/-- A patch behind the fork point, past one that it commutes with. -/
theorem wit_LinesForkAndTransplant_transplant : ∃ m s ka kb a b pre mid post p, canMove m false s ∧ namesLine 0 ka s ∧ PatchReady kb (1 + a.chain.length) s ∧
    s.line ka = some a ∧ s.line kb = some b ∧ a.st = .live ∧ geometryDiffers ka kb a b = false ∧ namesLine 2 kb s ∧ b.st = .live ∧
    a.chain = pre ++ mid ++ p :: post ∧ pre.length = forkPoint a b ∧ p.name = nameAt 1 s ∧
    (∀ q ∈ pre ++ mid, q.name ≠ p.name) ∧ (∀ q ∈ mid, commutes p q = true) ∧
    (∀ q ∈ b.chain.drop (forkPoint a b), commutes p q = true) ∧ nameOf b p.name = none ∧ b.chain.length < 65535 ∧
    poolShort s (s.setLine kb { b with
      chain := b.chain ++ [p], names := b.names ++ [{ name := p.name, digest := p.digest, squashed := false }] }) (kb / 2 ^ 24) = false :=
  ⟨nm, lined [(0x361, 3), (0x362, 0x1000)] [(lineNo, { line5 with chain := [pat 1 0, pat 2 4, pat 3 8] }),
      (lineNo + 1, { line5 with chain := [pat 1 0] })],
    lineNo, lineNo + 1, { line5 with chain := [pat 1 0, pat 2 4, pat 3 8] }, { line5 with chain := [pat 1 0] }, [pat 1 0], [pat 2 4],
    [], pat 3 8, can_nm _ _, names0 (by decide +kernel) (by decide +kernel),
    patch_ready (by decide +kernel) (by decide +kernel) (by decide +kernel) (by decide +kernel), by decide +kernel,
    by decide +kernel, rfl, by decide +kernel, names1 (by decide +kernel) (by decide +kernel), by decide +kernel⟩

/-- The last siding folds; a packet on a CONST page becomes the producer; a LIVE line is dropped. -/
theorem wit_FoldsAndProducers :
    (∃ m s key l n ps, canMove m false s ∧ namesLine 0 key s ∧ PatchReady key (heldPatches l) s ∧ s.line key = some l ∧ n < 64 ∧
      (opnd s.cx 0x361).toNat % 2 ^ 64 = 2 ^ n ∧ tget l.sidings n = some ps ∧ ps ≠ [] ∧ (ps.map (·.name)).Nodup ∧
      (∀ p ∈ ps, ∀ q ∈ l.chain, q.name ≠ p.name) ∧ (∀ e ∈ l.names, e.squashed = false) ∧ l.chain.length + ps.length ≤ 65535) ∧
    ∃ m s key l pa low high ta, canMove m false s ∧ namesLine 0 key s ∧ PatchReady key (heldPatches l) s ∧ s.line key = some l ∧ l.st = .live ∧
      route s s.iss.ctx (toW (opnd s.cx 0x361)).toNat 192 64 .handle false = .page pa low high ta :=
  ⟨⟨nm, lined [(0x361, 2 ^ 63)] [(lineNo, { line5 with sidings := [(63, [pat 1 0])] })], lineNo,
      { line5 with sidings := [(63, [pat 1 0])] }, 63, [pat 1 0], can_nm _ _, names0 (by decide +kernel) (by decide +kernel),
      patch_ready (by decide +kernel) (by decide +kernel) (by decide +kernel) (by decide +kernel), by decide +kernel⟩,
    ⟨nm, lined [(0x361, 0x2F40)] [(lineNo, line5)], lineNo, line5, 0x10F40, constDesc, descHigh, 0x2F40, can_nm _ _,
      names0 (by decide +kernel) (by decide +kernel),
      patch_ready (by decide +kernel) (by decide +kernel) (by decide +kernel) (by decide +kernel), by decide +kernel⟩⟩

/-- Package 0 of two, with a session to package 1. -/
def linked (s : State) : State :=
  { pooled s with
    ho := { s.ho with pkginfo := 0x80010000 }
    en := { s.en with sessions := [(1, ⟨1, true, 1, 0, [(1, 0)]⟩)] } }

/-- A control word with a reserved bit; a fill of one FP32 element; a send of 256 bytes. -/
theorem wit_DataCommandsAccepted :
    (∃ i op m s, dataRow i = some (op, m) ∧ canMove m false s ∧ wbOk 9 s ∧ fenceHolds s s.iss.ctx = false ∧
      (s.en.cmds.filter fun c => c.ctx == s.iss.ctx && !c.away).length < 16 ∧
      (dataCmd op m s).badCheck (pkgNumber s) (pkgCount s) ≠ 0) ∧
    (∃ i op m s, dataRow i = some (op, m) ∧ canMove m false s ∧ wbOk 9 s ∧ fenceHolds s s.iss.ctx = false ∧
      (s.en.cmds.filter fun c => c.ctx == s.iss.ctx && !c.away).length < 16 ∧
      (dataCmd op m s).badCheck (pkgNumber s) (pkgCount s) = 0 ∧ pendFits s.cx.pend (dataCmd op m s).bytes = true ∧
      op.freight = true) ∧
    ∃ i op m s, dataRow i = some (op, m) ∧ canMove m false s ∧ wbOk 9 s ∧ fenceHolds s s.iss.ctx = false ∧
      (s.en.cmds.filter fun c => c.ctx == s.iss.ctx && !c.away).length < 16 ∧
      (dataCmd op m s).badCheck (pkgNumber s) (pkgCount s) = 0 ∧ pendFits s.cx.pend (dataCmd op m s).bytes = true ∧
      op.freight = false ∧ sessionOk s (dataCmd op m s).peer (dataCmd op m s).comp = true :=
  ⟨⟨.ecFill im, .fill, im, b0, rfl, can_im _ _, wb_none (by decide +kernel), by decide +kernel⟩,
    ⟨.ecFill nm, .fill, nm, onCtx fun x => { x with opnd := [(0x362, 0x12080)] }, rfl, can_nm _ _, wb_none (by decide +kernel),
      by decide +kernel⟩,
    ⟨.ecSend nm, .send, nm, linked (onCtx fun x => { x with opnd := [(0x362, 1), (0x363, 256)] }), rfl, can_nm _ _,
      wb_none (by decide +kernel), by decide +kernel⟩⟩

/-! ### System operations -/

theorem wit_TrapRecordWrites : ∃ m s, canMove m false s ∧ (toW (opnd s.cx 0x3A0)).toNat % 8 = 4 :=
  ⟨im, onCtx fun x => { x with opnd := [(0x3A0, 4)] }, can_im _ _, by decide +kernel⟩

/-- A handler with a pending transfer that has no bundle left in its shadow. -/
theorem wit_TrapReturn : ∃ m s p, canMove m false s ∧ tact s.cx = true ∧ s.cx.shadow = none ∧ s.cx.loops = [] ∧
    s.cx.down = none ∧ s.cx.snap = some p ∧ s.cx.cause.getLsbD 21 = true ∧ (s.cx.cause.extractLsb' 22 2).toNat = 0 :=
  ⟨im, onCtx fun x => { x with cause := 0x300000, snap := some ⟨[], [], [], 0, []⟩ }, ⟨[], [], [], 0, []⟩, can_im _ _,
    by decide +kernel⟩

/-- A view write that lands in the cycle that `vwrd` reads. -/
theorem wit_ViewsAndVectors : (∃ m s, canMove m false s ∧ wbOk 11 s ∧ s.cx.replay = [] ∧ s.cx.flights = []) ∧
    ∃ m s due b, canMove m false s ∧ wbOk 11 s ∧ s.cx.replay = [] ∧
      s.cx.flights = [⟨due, 11, [.view ((toW (soleValue m s)).toNat % 4) b]⟩] ∧ due ≤ s.cycle + 2 :=
  ⟨⟨im, b0, can_im _ _, wb_none (by decide +kernel), by decide +kernel⟩,
    ⟨im, onCtx fun x => { x with flights := [⟨2, 11, [.view 1 8]⟩] }, 2, 8, can_im _ _, wb_none (by decide +kernel),
      by decide +kernel⟩⟩

theorem wit_FlagsCountersQueues : (∃ m s, canMove m false s ∧ wbOk 11 s ∧ modeDet (bMode (s.board s.iss.ctx)) = false) ∧
    ∃ m s, canMove m false s ∧ wbOk 10 s ∧ m.s.toNat = 0x380 + (toW (soleValue m s)).toNat % 16 :=
  ⟨⟨im, b0, can_im _ _, wb_none (by decide +kernel), by decide +kernel⟩,
    ⟨qm, atQ 0 [], can_qm (by decide +kernel), wb_none (by decide +kernel), by decide +kernel⟩⟩

/-- Compartment 1's tables, with a leaf of 1 GiB at table address 0, whose memory, from 2^30 on, begins with these bytes;
and the operands `.a` and `.b` of a service. -/
def gigMem (low : Nat) (bs : List Byte) : Memory :=
  wrBytes 0x10000 (natBytes 0x12001 8) (wrBytes 0x12000 (natBytes 0x14001 8)
    (wrBytes 0x14000 (natBytes low 8 ++ natBytes (2 ^ 58) 8) (wrBytes 0x40000000 bs [])))
def gig (low : Nat) (bs : List Byte) (a b : W64) : State :=
  { withLau { lau 0 with ranges := [wide] } b0 with
    tt := { b0.tt with comps := [(1, { comp1 with root := 0x10000 })] }
    ms := { b0.ms with mem := gigMem low bs }
    ctxs := [(0, { b0.ctx 0 with opnd := [(0x3A0, a.setWidth 2048), (0x3A1, b.setWidth 2048)] })] }
def gigAtomic : Nat := 0x400006C3
def gigConst : Nat := 0x400007C3

/-- A packet that leaves, on one page and on two; its answer; TEAMDOWN again; a step boundary reached and performed. -/
theorem wit_CallsOnZitrum_calls :
    (∀ off ∈ [(0xF40 : W64), 0xF80], ∃ m s pa low high ta pa' low' high' ta', canMove m false s ∧ wbOk 11 s ∧ s.cx.sent = false ∧
      s.cx.answer = none ∧ fenceHolds s s.iss.ctx = false ∧ outstanding s s.iss.ctx s.cx.bundles = false ∧
      soleVa m s = off.toNat ∧ route s s.iss.ctx (soleVa m s) 192 64 .packet false = .page pa low high ta ∧
      route s s.iss.ctx (soleVa m s / 4096 * 4096 + 4096) 64 64 .packet false = .page pa' low' high' ta') ∧
    (∃ m s v, canMove m false s ∧ wbOk 11 s ∧ s.cx.sent = true ∧ s.cx.answer = some (.value v)) ∧
    (∃ m s l u, canMove m false s ∧ wbOk 11 s ∧ s.launchOf s.iss.ctx = some l ∧ downAgain s s.iss.ctx = some u) ∧
    (∃ m s l, canMove m false s ∧ wbOk 11 s ∧ s.launchOf s.iss.ctx = some l ∧ s.cx.down = none ∧ s.cx.stepped = false ∧
      stepBusy s s.iss.ctx = false) ∧
    ∃ m s l, canMove m false s ∧ wbOk 11 s ∧ s.launchOf s.iss.ctx = some l ∧ s.cx.down = none ∧ s.cx.stepped = true := by
  have h : (downAgain (paged 1 atomDesc (onCtx fun x => { x with cause := 0x100015, down := some ⟨1, 2, 0, true, 0⟩ })) 0).isSome = true := by
    decide +kernel
  obtain ⟨u, hu⟩ := Option.isSome_iff_exists.1 h
  refine ⟨fun off h => ?_,
    ⟨im, onCtx fun x => { x with sent := true, answer := some (.value 3) }, 3, can_im _ _, wb_none (by decide +kernel),
      by decide +kernel⟩,
    ⟨im, _, { lau 1 with ranges := [wide] }, u, can_im _ _, wb_none (by decide +kernel), by decide +kernel, hu⟩,
    ⟨im, paged 1 atomDesc b0, { lau 1 with ranges := [wide] }, can_im _ _, wb_none (by decide +kernel), by decide +kernel⟩,
    ⟨im, paged 1 atomDesc (onCtx fun x => { x with stepped := true }), { lau 1 with ranges := [wide] }, can_im _ _,
      wb_none (by decide +kernel), by decide +kernel⟩⟩
  let s : State := paged 0 atomDesc (atQ off [])
  let t : State := { s with ms := { s.ms with tlb := s.ms.tlb ++ [⟨0, 1, 1, 0x110C3, descHigh, 4⟩] } }
  refine ⟨qm, t, 0x10000 + off.toNat, atomDesc, descHigh, off.toNat, 0x11000, 0x110C3, descHigh, 0x1000, can_qm ?_, wb_none ?_, ?_⟩ <;>
    rcases (by simpa using h : off = 0xF40 ∨ off = 0xF80) with rfl | rfl <;> decide +kernel

/-- What every clause about a service asks, of the value that names it; a REPORT also asks that no access is out. -/
def serves (code : Nat) (m : Mv) (s : State) : Prop :=
  canMove m false s ∧ wbOk 11 s ∧ s.cx.answer = none ∧ s.rt.zitrum = true ∧ (toW (soleValue m s)).toNat % 256 = code ∧
    outstanding s s.iss.ctx s.cx.bundles = false

theorem gig_serves {code : Nat} {s : State} (h : s.cx.answer.isNone = true ∧ s.rt.zitrum = true ∧
    (opnd s.cx (wbPort 11)).toNat % 1024 = 0x3FF ∧ (toW (soleValue lm s)).toNat % 256 = code ∧
    outstanding s s.iss.ctx s.cx.bundles = false) : serves code lm s :=
  ⟨can_lm _ _, wb_none h.2.2.1, Option.isNone_iff_eq_none.1 h.1, h.2.1, h.2.2.2⟩

/-- Whether a range has these pieces, or its first bad piece this subcode. -/
def hasPieces (l : List (Nat × Nat)) : Except SvcBad (List (Nat × Nat)) → Bool
  | .ok x => x == l
  | .error _ => false
def hasSub (n : Nat) : Except SvcBad (List (Nat × Nat)) → Bool
  | .error (.sub k) => k == n
  | .error (.demand _ _) => false
  | .ok _ => false
theorem hasPieces_ok {l} {r : Except SvcBad (List (Nat × Nat))} (h : hasPieces l r = true) : r = .ok l := by
  cases r with
  | ok x => rw [show x = l by simpa [hasPieces] using h]
  | error _ => simp [hasPieces] at h
theorem hasSub_ok {n} {r : Except SvcBad (List (Nat × Nat))} (h : hasSub n r = true) : r = .error (.sub n) := by
  cases r with
  | ok x => simp [hasSub] at h
  | error e =>
    cases e with
    | sub k => rw [show k = n by simpa [hasSub] using h]
    | demand _ _ => simp [hasSub] at h

/-- The header of a request of n lines. -/
def header (n : Nat) : List Byte := List.replicate 32 7 ++ natBytes n 2

/-- A report of no line has 480 bytes before SIG, and 1,280 of SIG. -/
theorem report_length (s : State) (comp : Nat) (nonce : List Byte) (h : nonce.length = 32) :
    (reportBytes s comp nonce []).length = 1760 := by
  have nat : ∀ (n x : Nat), (natBytes x n).length = n := by
    intro n
    induction n with
    | zero => intro _; rfl
    | succ n ih => intro x; rw [natBytes, List.length_cons, ih]
  have digest : ∀ {w : Nat} (d : BitVec w), (digestBytes d).length = w / 8 := by
    intro w d; rw [digestBytes, List.length_map, List.length_range]
  have body : (reportBody s comp nonce []).length = 480 := by
    simp only [reportBody, show reportLines s comp [] = [] from rfl, List.flatMap_nil, List.length_append, List.length_nil, nat, digest, h]
  show (reportBody s comp nonce [] ++ (_ ++ List.replicate 1280 (0 : Byte)).take 1280).length = 1760
  rw [List.length_append, body, List.length_take, List.length_append, List.length_replicate]
  omega

/-- A header that cannot be read; 257 lines; a line of 2^24; a destination that is not aligned; a report of no line. -/
theorem wit_CallsOnZitrum_report :
    (∃ m s n, serves 1 m s ∧ s.ms.holds = [] ∧
      svcPieces s s.iss.ctx 1 false (cutPages 3 (toW (opnd s.cx 0x3A0)).toNat 36) = .error (.sub n)) ∧
    (∃ m s hp, serves 1 m s ∧ s.ms.holds = [] ∧
      svcPieces s s.iss.ctx 1 false (cutPages 3 (toW (opnd s.cx 0x3A0)).toNat 36) = .ok hp ∧
      bytesNat (((readPieces s hp).drop 32).take 2) = 257) ∧
    (∃ m s hp lp, serves 1 m s ∧ s.ms.holds = [] ∧
      svcPieces s s.iss.ctx 1 false (cutPages 3 (toW (opnd s.cx 0x3A0)).toNat 36) = .ok hp ∧
      bytesNat (((readPieces s hp).drop 32).take 2) = 1 ∧
      svcPieces s s.iss.ctx 1 false (cutPages 3 ((toW (opnd s.cx 0x3A0)).toNat + 36) 4) = .ok lp ∧
      bytesNat ((readPieces s lp).take 4) = 2 ^ 24) ∧
    ∀ b ∈ [(1 : W64), 0x1000], ∃ m s hp, serves 1 m s ∧ s.ms.holds = [] ∧
      svcPieces s s.iss.ctx 1 false (cutPages 3 (toW (opnd s.cx 0x3A0)).toNat 36) = .ok hp ∧
      bytesNat (((readPieces s hp).drop 32).take 2) = 0 ∧
      (let rep := reportBytes s (bComp (s.board s.iss.ctx)) ((readPieces s hp).take 32) []
       (b = 1 → ∃ j, svcPieces s s.iss.ctx 64 true (cutPages 8 (toW (opnd s.cx 0x3A1)).toNat rep.length) = .error (.sub j)) ∧
       (b = 0x1000 → ∃ pa, svcPieces s s.iss.ctx 64 true (cutPages 8 (toW (opnd s.cx 0x3A1)).toNat rep.length) =
         .ok [(pa, rep.length)] ∧ Undisturbed s)) := by
  refine ⟨⟨lm, limm 1 (gig gigAtomic [] (2 ^ 62) 0), 1, gig_serves (by decide +kernel), rfl, hasSub_ok (by decide +kernel)⟩,
    ⟨lm, limm 1 (gig gigAtomic (header 257) 0 0), [(0x40000000, 36)], gig_serves (by decide +kernel), rfl,
      hasPieces_ok (by decide +kernel), by decide +kernel⟩,
    ⟨lm, limm 1 (gig gigAtomic (header 1 ++ natBytes (2 ^ 40) 6) 0 0), [(0x40000000, 36)], [(0x40000024, 4)],
      gig_serves (by decide +kernel), rfl, hasPieces_ok (by decide +kernel), by decide +kernel, hasPieces_ok (by decide +kernel),
      by decide +kernel⟩, fun b h => ?_⟩
  have hl : ((readPieces (limm 1 (gig gigAtomic (header 0) 0 b)) [(0x40000000, 36)]).take 32).length = 32 := by
    show ((rdBytes _ _ 36 ++ []).take 32).length = 32
    rw [List.append_nil]; rfl
  refine ⟨lm, limm 1 (gig gigAtomic (header 0) 0 b), [(0x40000000, 36)], gig_serves ?_, rfl, hasPieces_ok ?_, ?_, ?_⟩
  · rcases (by simpa using h : b = 1 ∨ b = 0x1000) with rfl | rfl <;> decide +kernel
  · rcases (by simpa using h : b = 1 ∨ b = 0x1000) with rfl | rfl <;> decide +kernel
  · rcases (by simpa using h : b = 1 ∨ b = 0x1000) with rfl | rfl <;> decide +kernel
  · simp only [report_length _ _ _ hl]
    rcases (by simpa using h : b = 1 ∨ b = 0x1000) with rfl | rfl
    · exact ⟨fun _ => ⟨0, hasSub_ok (by decide +kernel)⟩, fun h => absurd h (by decide)⟩
    · exact ⟨fun h => absurd h (by decide), fun _ => ⟨0x40001000, hasPieces_ok (by decide +kernel), rfl, rfl, rfl, rfl,
        by decide +kernel⟩⟩

/-- 256 windows of compartment 2. -/
def allWindows (s : State) : State :=
  { s with ho := { s.ho with windows := (List.range 256).map fun e => (e, (1 : BitVec 128) <<< 127 ||| (2 : BitVec 128) <<< 120) } }

/-- No page, and a reserved bit; a path that is reserved; W over a CONST page; all entries taken; the first entry free. -/
theorem wit_CallsOnZitrum_share :
    let pageAt (s : State) (k : Nat) : Route3 :=
      routeBy (svcLook s s.iss.ctx) s s.iss.ctx ((toW (opnd s.cx 0x3A0)).toNat + 4096 * k) 1 4096 .load false
    (∀ b ∈ [(0 : W64), 2 ^ 33 + 1], ∃ m s, serves 2 m s ∧ toW (opnd s.cx 0x3A1) = b) ∧
    (∃ m s f sub, serves 2 m s ∧ toW (opnd s.cx 0x3A1) = 1 ∧ pageAt s 0 = .fault f sub ∧ pathOf (toW (opnd s.cx 0x3A0)).toNat ≠ 0) ∧
    (∃ m s pa low high ta, serves 2 m s ∧ toW (opnd s.cx 0x3A1) = 2 ^ 32 + 1 ∧ pageAt s 0 = .page pa low high ta ∧
      pathOf (toW (opnd s.cx 0x3A0)).toNat = 0 ∧ dKind low = kConst) ∧
    ∀ full : Bool, ∃ m s pa low high ta, serves 2 m s ∧ toW (opnd s.cx 0x3A1) = 1 ∧ pageAt s 0 = .page pa low high ta ∧
      pathOf (toW (opnd s.cx 0x3A0)).toNat = 0 ∧ dKind low = kAtomic ∧
      (full = true → ∀ e, e < 256 → ¬ ∀ u, tget s.ho.windows e = some u → wV u = false) ∧
      (full = false → (∀ u, tget s.ho.windows 0 = some u → wV u = false) ∧ freeHoff s 1 ≠ none) := by
  refine ⟨fun b h => ⟨lm, limm 2 (gig gigAtomic [] 0 b), gig_serves ?_, ?_⟩,
    ⟨lm, limm 2 (gig gigAtomic [] (2 ^ 62) 1), 0x0C, 1, gig_serves (by decide +kernel), by decide +kernel⟩,
    ⟨lm, limm 2 (gig gigConst [] 0 (2 ^ 32 + 1)), 0x40000000, 0x400007C3, 0x400000000000000, 0, gig_serves (by decide +kernel),
      by decide +kernel⟩, fun full => ?_⟩
  · rcases (by simpa using h : b = 0 ∨ b = 2 ^ 33 + 1) with rfl | rfl <;> decide +kernel
  · rcases (by simpa using h : b = 0 ∨ b = 2 ^ 33 + 1) with rfl | rfl <;> decide +kernel
  · cases full
    · exact ⟨lm, limm 2 (gig gigAtomic [] 0 1), 0x40000000, 0x400006C3, 0x400000000000000, 0, gig_serves (by decide +kernel),
        by decide +kernel, by decide +kernel, by decide +kernel, by decide, fun h => absurd h (by decide),
        fun _ => ⟨(fun _ h => nomatch h), by decide +kernel⟩⟩
    · refine ⟨lm, allWindows (limm 2 (gig gigAtomic [] 0 1)), 0x40000000, 0x400006C3, 0x400000000000000, 0,
        gig_serves (by decide +kernel), by decide +kernel, by decide +kernel, by decide +kernel, by decide, fun _ e he h => ?_,
        fun h => absurd h (by decide)⟩
      have all : ∀ e, e < 256 → tget (allWindows (limm 2 (gig gigAtomic [] 0 1))).ho.windows e =
          some ((1 : BitVec 128) <<< 127 ||| (2 : BitVec 128) <<< 120) := by decide +kernel
      exact absurd (h _ (all e he)) (by decide +kernel)

/-- A window of the compartment, and one of another; a FREE entry; a service that the table does not name. -/
theorem wit_CallsOnZitrum_unshare :
    (∀ comp ∈ [1, 2], ∃ m s w, serves 3 m s ∧ tget s.ho.windows (toW (opnd s.cx 0x3A0)).toNat = some w ∧ wV w = true ∧
      wComp w = comp ∧ bComp (s.board s.iss.ctx) = 1 ∧ windowBusy s w = false) ∧
    (∃ m s, serves 3 m s ∧ ∀ w, tget s.ho.windows (toW (opnd s.cx 0x3A0)).toNat = some w → wV w = false ∨ wComp w ≠ 1) ∧
    ∀ code ∈ [0, 4, 255], ∃ m s, serves code m s := by
  refine ⟨fun comp h => ?_, ⟨lm, limm 3 (gig gigAtomic [] 0 0), gig_serves (by decide +kernel), fun _ h => nomatch h⟩, fun code h => ?_⟩
  · let w : BitVec 128 := (1 : BitVec 128) <<< 127 ||| BitVec.ofNat 128 comp <<< 120
    refine ⟨lm, let s := limm 3 (gig gigAtomic [] 0 0); { s with ho := { s.ho with windows := [(0, w)] } }, w,
      gig_serves ?_, ?_, ?_, ?_, ?_, ?_⟩ <;>
      rcases (by simpa using h : comp = 1 ∨ comp = 2) with rfl | rfl <;> decide +kernel
  · refine ⟨lm, limm (BitVec.ofNat 32 code) (gig gigAtomic [] 0 0), gig_serves ?_⟩
    rcases (by simpa using h : code = 0 ∨ code = 4 ∨ code = 255) with rfl | rfl | rfl <;> decide +kernel

theorem wit_TasksExit : ∃ m s, canMove m false s ∧ s.cx.down = none ∧ s.cx.dirty = false ∧ s.cx.bars ≠ 0 ∧
    (∀ e ∈ s.cr.banks, e.2.holder ≠ s.iss.ctx) ∧ ∀ k ∈ s.cr.calls, k.2.ctx ≠ s.iss.ctx :=
  ⟨im, onCtx fun x => { x with bars := 1 }, can_im _ _, by decide +kernel⟩

/-! ### Events of accesses, results and upkeep -/

/-- A state in which only one access is under way, and its event. -/
def going (a : Acc) (s : State) : State := { s with ev := { a := 7 }, ms := { s.ms with accs := [a] } }

/-- What every clause about an access asks. -/
def atHand (s : State) (a : Acc) : Prop := accOf s s.ev.a = some a ∧ accBehind s a = false ∧ Undisturbed s ∧ a.size ≤ 256

theorem going_atHand (kind : AccKind) (place : Place) {size : Nat} (s : State) (h : size ≤ 256)
    (h1 : s.ms.holds = []) (h2 : s.ms.failMem = []) (h3 : s.ms.failSpad = []) (h4 : s.ms.failPorts = [])
    (h5 : memoriesOk s = true) : atHand (going (acc0 kind place size) s) (acc0 kind place size) :=
  ⟨rfl, rfl, ⟨h1, h2, h3, h4, h5⟩, h⟩

/-- A store of memory at its only word and at its first of two, one of lanes, and one on the cluster path. -/
theorem wit_AccessesPerformed_stores :
    (∀ size ∈ [4, 8], ∃ s a pa, atHand s a ∧ isStore a ∧ a.place = .phys pa ∧ lidDet s a.lid = false ∧
      storeCount a pa = size / 4 ∧ a.cmp = 0) ∧
    (∃ s a pa m, atHand s a ∧ isStore a ∧ a.kind = .lanes m ∧ a.place = .phys pa ∧ lidDet s a.lid = false) ∧
    ∃ s a o, atHand s a ∧ isStore a ∧ a.place = .spad o := by
  refine ⟨fun size h => ?_,
    ⟨_, _, 0x10000, 5, going_atHand (.lanes 5) (.phys 0x10000) (size := 256) b0 (by decide) rfl rfl rfl rfl rfl, .inr ⟨5, rfl⟩, rfl,
      rfl, by decide +kernel⟩,
    ⟨_, _, 2 ^ 21 - 4, going_atHand .store (.spad (2 ^ 21 - 4)) (size := 4) b0 (by decide) rfl rfl rfl rfl rfl, .inl rfl, rfl⟩⟩
  rcases (by simpa using h : size = 4 ∨ size = 8) with rfl | rfl
  · exact ⟨_, _, 0x10000, going_atHand .store (.phys 0x10000) (size := 4) b0 (by decide) rfl rfl rfl rfl rfl, .inl rfl, rfl,
      by decide +kernel, by decide +kernel, rfl⟩
  · exact ⟨_, _, 0x10000, going_atHand .store (.phys 0x10000) (size := 8) b0 (by decide) rfl rfl rfl rfl rfl, .inl rfl, rfl,
      by decide +kernel, by decide +kernel, rfl⟩

/-- An atomic that returns and one that does not, of memory; one of the cluster path; a reduction of a deterministic launch,
of memory and of the cluster path. -/
theorem wit_AccessesPerformed_atomics :
    (∀ ret : Bool, ∃ s a i r pa, atHand s a ∧ atomRow i = some r ∧ a.kind = .atom r.op r.ret ∧ r.ret = ret ∧
      a.place = .phys pa ∧ pa % 4 = 0 ∧ lidDet s a.lid = false) ∧
    (∃ s a i r o, atHand s a ∧ atomRow i = some r ∧ a.kind = .atom r.op false ∧ r.ret = false ∧ a.place = .spad o ∧ o % 4 = 0 ∧
      lidDet s a.lid = false) ∧
    ∀ place ∈ [Place.phys 0x10FFC, .spad 0xFFC], ∃ s a i r, atHand s a ∧ atomRow i = some r ∧ a.kind = .atom r.op false ∧
      r.ret = false ∧ lidDet s a.lid = true ∧ (∀ g ∈ s.tm.logs, g.replay = []) ∧ a.place = place := by
  refine ⟨fun ret => ?_,
    ⟨_, _, .syRxor im, _, 0xFFC, going_atHand (.atom .rxor false) (.spad 0xFFC) (size := 4) b0 (by decide) rfl rfl rfl rfl rfl, rfl,
      rfl, rfl, rfl, rfl, by decide +kernel⟩,
    fun place h => ⟨_, _, .syRaddf im, _, going_atHand (.atom .raddf false) place (size := 4) (paged 1 atomDesc b0) (by decide)
      rfl rfl rfl rfl rfl, rfl, rfl, rfl, ?_, (fun _ h => nomatch h), rfl⟩⟩
  · cases ret
    · exact ⟨_, _, .syRxor im, _, 0x10FFC, going_atHand (.atom .rxor false) (.phys 0x10FFC) (size := 4) b0 (by decide)
        rfl rfl rfl rfl rfl, rfl, rfl, rfl, rfl, rfl, by decide +kernel⟩
    · exact ⟨_, _, .syCas im, _, 0x10FFC, going_atHand (.atom .cas true) (.phys 0x10FFC) (size := 4) b0 (by decide)
        rfl rfl rfl rfl rfl, rfl, rfl, rfl, rfl, rfl, by decide +kernel⟩
  · rcases (by simpa using h : place = .phys 0x10FFC ∨ place = .spad 0xFFC) with rfl | rfl <;> decide +kernel

/-- `stf` and `stx` of the cluster path, on a full word and on an empty one. -/
theorem wit_AccessesPerformed_tags : ∀ full : Bool, ∀ op ∈ [2, 3], ∃ s a o, atHand s a ∧ a.kind = .tag op ∧ a.place = .spad o ∧
    o % 4 = 0 ∧ (s.ctx a.ctx).run = .running ∧ (∀ d, (s.ctx a.ctx).down = some d → d.delivered = false) ∧
    (∀ q ∈ s.ms.tagq, q.word ≠ o / 4) ∧ nextRecord s (bLid (s.board a.ctx)) (s.seenDie a.ctx) 0x05 (tagSite s a.ctx o) = none ∧ tagFull s o = full := by
  intro full op h
  let s : State := { b0 with ms := { b0.ms with full := if full then [3] else [] } }
  refine ⟨going (acc0 (.tag op) (.spad 12) 4) s, _, 12, going_atHand (.tag op) (.spad 12) (size := 4) s (by decide) rfl rfl rfl rfl ?_,
    rfl, rfl, rfl, ?_, (fun _ h => nomatch h), (fun _ h => nomatch h), ?_, ?_⟩
  all_goals cases full <;> rcases (by simpa using h : op = 2 ∨ op = 3) with rfl | rfl <;> decide +kernel

/-- A load of memory, a read of a line, and a write into an open patch. -/
theorem wit_AccessesPerformed_lines :
    (∃ s a i r pa, atHand s a ∧ loadRow i = some r ∧ a.kind = .load r.post ∧ a.size = r.post.size ∧ a.place = .phys pa) ∧
    (∃ s a i r key off l, atHand s a ∧ loadRow i = some r ∧ a.kind = .chain r.post ∧ a.size = r.post.size ∧
      a.place = .line key off ∧ a.cmp = 0 ∧ s.line key = some l ∧ l.st = .live ∧ chainSound l (chainFor l a.ctx) ∧
      chainFor l a.ctx ≠ [] ∧ (l.fmt ≤ 3 → off < 2 ^ l.xlog → r.vh = true) ∧
      0 < avail s (dieOf a.ctx) (key / 2 ^ 24) 2 l.home ∧ (chainFor l a.ctx).length ≤ avail s (dieOf a.ctx) (key / 2 ^ 24) 2 l.home) ∧
    ∃ s a key off l, atHand s a ∧ a.kind = .patch ∧ a.place = .line key off ∧ s.line key = some l := by
  let l5 : Line := { line5 with chain := [pat 1 0x7FC] }
  refine ⟨⟨_, _, .lsLdbc 0 im, _, 0x10FFC, going_atHand (.load { size := 4, bcast := true }) (.phys 0x10FFC) (size := 4) b0 (by decide)
      rfl rfl rfl rfl rfl, rfl, rfl, rfl, rfl⟩,
    ⟨_, _, .lsLd32 0 im, _, lineNo, 0x7FC, l5, going_atHand (.chain { size := 4 }) (.line lineNo 0x7FC) (size := 4)
      (withLine l5 (paged 0 lineDesc b0)) (by decide) rfl rfl rfl rfl ?_, rfl, rfl, rfl, rfl, rfl, ?_, rfl,
      ⟨by decide, ?_⟩, ?_, fun h => absurd h (by decide), ?_, ?_⟩,
    ⟨_, _, lineNo, 0x7FC, line5, going_atHand .patch (.line lineNo 0x7FC) (size := 4) (withLine line5 b0) (by decide)
      rfl rfl rfl rfl rfl, rfl, rfl, ?_⟩⟩
  all_goals decide +kernel

/-- A result due now, and one due later; an arrival. -/
theorem wit_ResultsLand :
    (∃ s : State, ∃ due unit p v d, (s.ctx s.ev.a).flights = [⟨due, unit, [.port p v, .reg d v]⟩] ∧ unit < 12 ∧ d.size ≤ 256 ∧
      due = s.cycle) ∧
    (∃ s : State, ∃ f, (s.ctx s.ev.a).flights = [f] ∧ s.cycle < f.due) ∧
    ∃ (s : State) (a : Arrival) (d : Dest) (v : Vec), accOf s s.ev.a = none ∧
      s.ms.arrivals.find? (fun b => b.id == s.ev.a) = some a ∧ a.dest = some d ∧ a.val = some v ∧ d.size ≤ 256 ∧
      (s.ctx a.ctx).wroteAt ≠ s.cycle :=
  ⟨⟨onCtx fun x => { x with flights := [⟨0, 11, [.port 0x2B0 9, .reg ⟨32512, 256⟩ 9]⟩] }, 0, 11, 0x2B0, 9, ⟨32512, 256⟩, by decide +kernel⟩,
    ⟨onCtx fun x => { x with flights := [⟨1, 0, []⟩] }, ⟨1, 0, []⟩, by decide +kernel⟩,
    ⟨{ b0 with cycle := 1, ms := { b0.ms with arrivals := [⟨0, 0, some ⟨0, 8⟩, some 9, 0, 0⟩] } }, ⟨0, 0, some ⟨0, 8⟩, some 9, 0, 0⟩,
      ⟨0, 8⟩, 9, by decide +kernel⟩⟩

/-- The last context in cyclic order; a bundle of a resident team that fails. -/
theorem wit_LimitsAndErrors :
    (∃ (s : State) (j k : Nat), k = s.ev.a * 4 + ((s.core s.ev.a).cur + j) % 4 ∧ j = 3 ∧ ready s k = true ∧
      ∀ i, 1 ≤ i → i < j → ready s (s.ev.a * 4 + ((s.core s.ev.a).cur + i) % 4) = false) ∧
    ∃ (s : State) (key : Nat) (b : BitVec 512) (l : Launch) (w : BitVec 256), s.tm.boards = [(key, b)] ∧ bV b = true ∧
      key / 64 = s.ev.a / 4096 / 16 ∧ teamOn b (s.ev.a / 4096 % 16) = true ∧ bIbase b ≤ s.ev.a % 4096 ∧
      s.ev.a % 4096 < bIbase b + bIlen b ∧ tget s.tm.launches (bLid b) = some l ∧
      (imageBundles l)[s.ev.a % 4096 - bIbase b]? = some w := by
  refine ⟨⟨{ b0 with cr := { b0.cr with cores := [(0, ⟨1, 16⟩)] } }, 3, 0, by decide +kernel, rfl, by decide +kernel, ?_⟩, ?_⟩
  · intro i h1 h2
    rcases (by omega : i = 1 ∨ i = 2) with rfl | rfl <;> decide +kernel
  · exact ⟨withLau { lau 0 with image := List.replicate 256 7 } b0, 0, loneSlot, { lau 0 with image := List.replicate 256 7 },
      (imageBundles { lau 0 with image := List.replicate 256 7 })[0]?.getD 0, by decide +kernel⟩

/-- Command 7 of context 0 in compartment 1, to or from package 1, at the end of a window of its own scratchpad. -/
def cmd7 (op : CmdOp) (p2 p3 : W64) : Cmd :=
  { id := 7, ctx := 0, num := 0, lid := 0, team := 0, comp := 1, seq := 0, op := op, eng := 0, ctl := 0, p0 := 0x44332211
    p1 := ownVa 0xF00, p2 := p2, p3 := p3, p4 := 0, p5 := 0, p6 := 0, p7 := 0, next := 0, flags := 0, left := 256, sent := 0
    rcvd := 0, flying := none, sendIx := 3, recvIx := 5, matchedSend := false, matchedRecv := false, begun := true, order := 0
    parked := false, withdrawn := false, declined := [], slot := 0, bandsDone := [], recomp := false, status := none
    leftSys := 256, burst := 0, walked := [], prev := none, paid := [], arrived := 0, lost := false, written := 0, port := none }
def withCmd (k : Cmd) (ev : EvArg) (s : State) : State := { s with ev := ev, en := { s.en with cmds := [k] } }

def rotWith (f : Rot → Rot) (s : State) : State := { s with rt := f s.rt }
def hostWith (f : HostPort → HostPort) (s : State) : State := { s with ho := f s.ho }

/-- A table of compartment 1 with its root at 2^36 − 8,192, and none below. -/
def rooted (s : State) : State :=
  { s with tt := { s.tt with comps := [(1, { comp1 with root := 2 ^ 36 - 8192 })], freePages := [(32, 1)] } }

/-- Five tables, of which each names the next, and a leaf for page 0. -/
def tables : Memory :=
  wrBytes 0x10000 (natBytes 0x12001 8) (wrBytes 0x12000 (natBytes 0x14001 8) (wrBytes 0x14000 (natBytes 0x16001 8)
    (wrBytes 0x16000 (natBytes 0x18001 8) (wrBytes 0x18000 (natBytes 0x100C3 8) []))))

/-- A walk that a context waits for, and one that a command does; an invalidation. -/
theorem wit_TranslationsEnd_walks :
    (∃ (s : State) (w : Walk) (c : Nat) (low high : W64) (level : Nat), s.ms.walks.find? (fun v => v.id == s.ev.a) = some w ∧
      w.ctxs = [c] ∧ c < 2 ^ 20 ∧ walkTables s w.comp (w.page * 4096) = .desc low high level) ∧
    (∃ (s : State) (w : Walk) (k : Cmd), s.ms.walks.find? (fun v => v.id == s.ev.a) = some w ∧ w.ctxs = [2 ^ 20 + k.id] ∧
      cmdOf s k.id = some k) ∧
    ∀ done : Bool, ∃ (s : State) (i : Invalidation), s.ms.invals.find? (fun i => i.comp == s.ev.a) = some i ∧ invalDone s i = done := by
  refine ⟨⟨{ b0 with
        tt := { b0.tt with comps := [(1, { comp1 with root := 0x10000 })] }
        ms := { b0.ms with mem := tables, walks := [⟨0, 0, 1, 0, [0], true⟩] } }, ⟨0, 0, 1, 0, [0], true⟩, 0, 0x100C3, 0, 4,
      by decide +kernel⟩,
    ⟨let s := withCmd (cmd7 .fill 0x12080 0) {} b0
     { s with ms := { s.ms with walks := [⟨0, 0, 1, 0, [2 ^ 20 + 7], true⟩] } }, ⟨0, 0, 1, 0, [2 ^ 20 + 7], true⟩,
      cmd7 .fill 0x12080 0, rfl, rfl, rfl⟩, fun done => ?_⟩
  cases done
  · exact ⟨let s := going { acc0 .store (.phys 0x10000) 4 with id := 0 } (withLau (lau 0) b0)
      { s with ev := { a := 1 }, ms := { s.ms with invals := [⟨1, 1, [(0x10000, 4096)]⟩] } }, ⟨1, 1, [(0x10000, 4096)]⟩, by decide +kernel⟩
  · exact ⟨{ b0 with ev := { a := 1 }, ms := { b0.ms with invals := [⟨1, 0, [(0x10000, 4096)]⟩] } }, ⟨1, 0, [(0x10000, 4096)]⟩,
      by decide +kernel⟩

/-- A demand of context 0 for page 2 of compartment 1, as the service decides it. -/
def wanting (d : Nat) (s : State) : State :=
  { s with ev := { b := 1, c := 2, d := d, body := natBytes 0x100C3 8 ++ natBytes (2 ^ 58) 8 }, ms := { s.ms with demand := [(0, 1, 2)] } }

/-- A page that is mapped already, one that is declined, and one that is installed; no Zitrum. -/
theorem wit_TranslationsEnd_demand :
    (∃ s : State, s.rt.zitrum = false) ∧
    (∃ (s : State) (l h : W64) (n : Nat), s.rt.zitrum = true ∧ (s.ev.a, s.ev.b, s.ev.c) ∈ s.ms.demand ∧
      walkTables s s.ev.b (s.ev.c * 4096) = .desc l h n) ∧
    (∃ (s : State) (sub : Nat) (f : Bool), s.rt.zitrum = true ∧ (s.ev.a, s.ev.b, s.ev.c) ∈ s.ms.demand ∧
      walkTables s s.ev.b (s.ev.c * 4096) = .fault sub f ∧ s.ev.d ≠ 1 ∧ s.ev.a < 2 ^ 20) ∧
    ∃ (s : State) (sub : Nat) (f : Bool),
      let low : W64 := BitVec.ofNat 64 (bytesNat (s.ev.body.take 8))
      let high : W64 := BitVec.ofNat 64 (bytesNat ((s.ev.body.drop 8).take 8))
      let bytes := 2 ^ sizeLog (dSize low)
      let ta := s.ev.c * 4096 / bytes * bytes
      ∃ k pa u v, let n := if 2 ^ 44 ≤ dPa low then fld (dPa low) 43 40 else fld (dPa low) 39 36
        let word : W64 := BitVec.ofNat 64 (low.toNat - fld low.toNat 44 12 * 4096 + pa)
        s.rt.zitrum = true ∧ (s.ev.a, s.ev.b, s.ev.c) ∈ s.ms.demand ∧ walkTables s s.ev.b (s.ev.c * 4096) = .fault sub f ∧
        s.ev.d = 1 ∧ dV low = true ∧ dLeaf low = true ∧ dComp high = s.ev.b ∧ tget s.tt.comps s.ev.b = some k ∧
        pagesUsed s s.ev.b + bytes / 4096 ≤ quotaPages s s.ev.b ∧ dKind low ≠ kLined ∧
        takePages s (decide (2 ^ 44 ≤ dPa low)) n bytes 1 = some (pa, u) ∧
        badDesc word high (leafLevel (dSize low)) = false ∧ putLeaf u k.root ta (dSize low) word high = some v := by
  refine ⟨⟨rotWith (fun r => { r with zitrum := false }) b0, rfl⟩,
    ⟨let s := wanting 1 b0
     { s with ev := { s.ev with c := 0 }, tt := { b0.tt with comps := [(1, { comp1 with root := 0x10000 })] }
              ms := { s.ms with mem := tables, demand := [(0, 1, 0)] } }, 0x100C3, 0, 4, by decide +kernel⟩,
    ⟨wanting 0 (rooted b0), 2, false, by decide +kernel⟩, wanting 1 (rooted b0), 2, false, ?_⟩
  have h1 : ((takePages (wanting 1 (rooted b0)) false 0 4096 1).bind fun r =>
      putLeaf r.2 (2 ^ 36 - 8192) 0x2000 0 (BitVec.ofNat 64 (0xC3 + r.1)) 0x400000000000000).isSome = true := by decide +kernel
  have h5 : ∀ r ∈ takePages (wanting 1 (rooted b0)) false 0 4096 1, r.1 = 0 := by decide +kernel
  obtain ⟨v, h2⟩ := Option.isSome_iff_exists.1 h1
  obtain ⟨⟨pa, u⟩, h3, h4⟩ := Option.bind_eq_some_iff.1 h2
  obtain rfl : pa = 0 := h5 _ h3
  have low : BitVec.ofNat 64 (bytesNat ((wanting 1 (rooted b0)).ev.body.take 8)) = (0x100C3 : W64) := by decide +kernel
  have high : BitVec.ofNat 64 (bytesNat (((wanting 1 (rooted b0)).ev.body.drop 8).take 8)) = (0x400000000000000 : W64) := by
    decide +kernel
  have port : (if 2 ^ 44 ≤ dPa 0x100C3 then fld (dPa 0x100C3) 43 40 else fld (dPa 0x100C3) 39 36) = 0 := by decide +kernel
  have page : (wanting 1 (rooted b0)).ev.c * 4096 / 4096 * 4096 = 0x2000 := by decide +kernel
  have word : BitVec.ofNat 64 ((0x100C3 : W64).toNat - fld (0x100C3 : W64).toNat 44 12 * 4096 + 0) = BitVec.ofNat 64 (0xC3 + 0) := by
    decide +kernel
  refine ⟨{ comp1 with root := 2 ^ 36 - 8192 }, 0, u, v, ?_⟩
  simp only [low, high, port, page, word, show decide (2 ^ 44 ≤ dPa 0x100C3) = false by decide +kernel,
    show 2 ^ sizeLog 0 = 4096 by decide +kernel, show dSize 0x100C3 = 0 by decide +kernel]
  refine ⟨?_, ?_, ?_, ?_, ?_, ?_, ?_, ?_, ?_, ?_, h3, ?_, h4⟩ <;> decide +kernel

/-- A producer that is launched, with a handle that the tables map; its end with the line LIVE, with a failure, and with the line gone; a load of a dropped line,
and one whose line was not made; a spare that stands for a core. -/
theorem wit_ProducersAndCores :
    (∃ (s : State) (l : Line) (h : W64) (low high : W64) (n : Nat), s.rt.zitrum = true ∧ s.line s.ev.a = some l ∧
      l.producer = some h ∧ walkTables s (s.ev.a / 2 ^ 24) ((h.toNat + 64 * 18) % 2 ^ 56) = .desc low high n) ∧
    (∀ b st, b = 1 ∧ st = LineSt.live ∨ b = 0 ∧ st = .live ∨ b = 1 ∧ st = .vacant →
      ∃ (s : State) (l : Line), s.line s.ev.a = some l ∧ s.ev.b = b ∧ l.st = st ∧ l.waiters = [0]) ∧
    (∀ unmade : Bool, ∃ i r s pa ta low high l, loadRow i = some r ∧ canMove r.m false s ∧ wbOk (4 + r.u.toNat) s ∧ MemQuiet s ∧
      route s s.iss.ctx (soleVa r.m s) r.post.size r.post.size .load r.vh = .page pa low high ta ∧ dKind low = kLined ∧
      blocksServed s s.iss.ctx (accessBlocks s (.page pa low high ta) r.post.size r.vh) = true ∧ s.line (lineKey high) = some l ∧
      l.st = .dropped ∧ l.making = none ∧ s.cx.unmade.contains (lineKey high) = unmade) ∧
    ∃ s : State, canSubstitute s s.ev.a = true := by
  refine ⟨⟨{ withLine { line5 with producer := some 0x2F40 } (gig gigConst [] 0 0) with ev := { a := lineNo } },
      { line5 with producer := some 0x2F40 }, 0x2F40, 0x400007C3, 0x400000000000000, 2, by decide +kernel⟩, fun b st h => ?_, fun unmade => ?_, ⟨State.reset, by decide +kernel⟩⟩
  · rcases h with ⟨rfl, rfl⟩ | ⟨rfl, rfl⟩ | ⟨rfl, rfl⟩
    · exact ⟨{ withLine { line5 with waiters := [0] } b0 with ev := { a := lineNo, b := 1 } }, { line5 with waiters := [0] }, by decide +kernel⟩
    · exact ⟨{ withLine { line5 with waiters := [0] } b0 with ev := { a := lineNo, b := 0 } }, { line5 with waiters := [0] }, by decide +kernel⟩
    · exact ⟨{ withLine { line5 with st := .vacant, waiters := [0] } b0 with ev := { a := lineNo, b := 1 } },
        { line5 with st := .vacant, waiters := [0] }, by decide +kernel⟩
  · let gone : Line := { line5 with st := .dropped, producer := some 0x2F40 }
    refine ⟨.lsLd32 0 qm, _, withLine gone (paged 0 lineDesc (onCtx fun x =>
        { x with queues := [(0, [0x7FC])], unmade := if unmade then [lineNo] else [] })), 0x107FC, 0x7FC, lineDesc, descHigh, gone, rfl,
      can_qm ?_, wb_none ?_, quiet rfl rfl rfl rfl rfl rfl, ?_, ?_, ?_, ?_, rfl, rfl, ?_⟩ <;> cases unmade <;> decide +kernel

/-! ### Events of data commands -/

/-- The last element of a fill of one; of a copy that converts FP32 to FP16; of a transpose of 2 × 2. -/
def moving (op : CmdOp) : Cmd :=
  let k := cmd7 op (if op = .fill then 0x12080 else if op = .copy then 0x12068 else 0x24088) (2 + 8 * 2 ^ 16 + 8 * 2 ^ 40)
  { k with burst := 1, p0 := if op = .fill then 0x44332211 else ownVa 0x800, next := if op = .tcopy then 3 else 0 }

theorem wit_CommandsComplete_element : ∀ op ∈ [CmdOp.fill, .copy, .tcopy],
    ∃ (s : State) (k : Cmd) (i : Nat → Nat) (x o core va : Nat), k.op = op ∧ k.parked = false ∧ k.withdrawn = false ∧
      (∀ d, d < 6 → i d < k.ext d) ∧ s.en.cmds = [k] ∧ s.en.writes = [] ∧ s.delays = [] ∧ k.op.freight = true ∧ k.block = false ∧
      k.eng = s.ev.a ∧ s.ev.a < 2 ^ 20 ∧ k.status = none ∧ k.burst = 1 ∧ k.next = nestNumber k i ∧ cmdReady s k = true ∧
      cwFill k.ctl = false ∧ 4 ≤ k.sty ∧ k.sty ≤ 0xC ∧ 4 ≤ k.dty ∧ k.dty ≤ 0xC ∧ Undisturbed s ∧
      freightReads s k (nestSource k i) x ∧ engAddr k.p1 (nestTarget k i) = (va, none) ∧
      engRoute s k va (unitBytes k.dty) (unitBytes k.dty) true false = .spad o core ∧ k.total = k.next + 1 := by
  intro op h
  rcases (by simpa using h : op = .fill ∨ op = .copy ∨ op = .tcopy) with rfl | rfl | rfl
  · exact ⟨withCmd (moving .fill) {} b0, moving .fill, fun _ => 0, 0x44332211, 0xF00, 0, 0x2000000000000F00, rfl, rfl, rfl,
      by decide +kernel, rfl, rfl, rfl, rfl, rfl, rfl, by decide, rfl, rfl, by decide +kernel, by decide +kernel, by decide +kernel,
      by decide +kernel, by decide +kernel, by decide +kernel, by decide +kernel, ⟨rfl, rfl, rfl, rfl, by decide +kernel⟩,
      .inl ⟨rfl, by decide +kernel⟩, by decide +kernel⟩
  · exact ⟨withCmd (moving .copy) {} b0, moving .copy, fun _ => 0, _, 0xF00, 0, 0x2000000000000F00, rfl, rfl, rfl,
      by decide +kernel, rfl, rfl, rfl, rfl, rfl, rfl, by decide, rfl, rfl, by decide +kernel, by decide +kernel, by decide +kernel,
      by decide +kernel, by decide +kernel, by decide +kernel, by decide +kernel, ⟨rfl, rfl, rfl, rfl, by decide +kernel⟩,
      .inr ⟨by decide, 0x2000000000000800, by decide +kernel, .inl ⟨0x800, 0, by decide +kernel, rfl⟩⟩, by decide +kernel⟩
  · exact ⟨withCmd (moving .tcopy) {} b0, moving .tcopy, fun d => if d < 2 then 1 else 0, _, 0xF0C, 0, 0x2000000000000F0C, rfl, rfl, rfl,
      by decide +kernel, rfl, rfl, rfl, rfl, rfl, rfl, by decide, rfl, rfl, by decide +kernel, by decide +kernel, by decide +kernel,
      by decide +kernel, by decide +kernel, by decide +kernel, by decide +kernel, ⟨rfl, rfl, rfl, rfl, by decide +kernel⟩,
      .inr ⟨by decide, 0x200000000000080C, by decide +kernel, .inl ⟨0x80C, 0, by decide +kernel, rfl⟩⟩, by decide +kernel⟩

/-- A command that has stopped, and one that has failed with 14 entries in its queue; a status that waits. -/
theorem wit_CommandsComplete_status :
    (∀ st ∈ [0, 7], ∃ (s : State) (k : Cmd) (sub : Nat) (second : W64), k.parked = false ∧ k.withdrawn = false ∧
      cmdOf s s.ev.a = some k ∧ k.status = some (st, sub, second) ∧ cwRel k.ctl = true ∧
      (outstanding s k.ctx k.num = false ∧ ∀ w ∈ s.en.writes, w.cmd ≠ s.ev.a) ∧ (s.ctx k.ctx).run = .running ∧ cwQen k.ctl = true ∧
      (queueOf (s.ctx k.ctx) (cwQueue k.ctl)).length + (if st = 0 then [statusWord k st sub] else [statusWord k st sub, second]).length ≤ 16) ∧
    ∃ (s : State) (k : Cmd) (w : StatusWait), k.parked = false ∧ k.withdrawn = false ∧ cmdOf s s.ev.a = some k ∧
      s.en.statusWaits.find? (fun w => w.cmd == s.ev.a) = some w ∧
      (queueOf (s.ctx k.ctx) (cwQueue k.ctl)).length + w.entries.length = 16 := by
  refine ⟨fun st h => ?_,
    ⟨let s := withCmd (cmd7 .fill 0x12080 0) { a := 7 } (onCtx fun x => { x with queues := [(0, List.replicate 14 1)] })
     { s with en := { s.en with statusWaits := [⟨0, 7, 0, [1, 2]⟩] } }, cmd7 .fill 0x12080 0, ⟨0, 7, 0, [1, 2]⟩, by decide +kernel⟩⟩
  refine ⟨withCmd { cmd7 .fill 0x12080 0 with ctl := 0x80C00, status := some (st, 0, 9) } { a := 7 }
    (onCtx fun x => { x with queues := [(0, List.replicate 14 1)] }),
    { cmd7 .fill 0x12080 0 with ctl := 0x80C00, status := some (st, 0, 9) }, 0, 9, rfl, rfl, ?_⟩
  rcases (by simpa using h : st = 0 ∨ st = 7) with rfl | rfl <;> decide +kernel

/-- A post whose word agrees, and one whose word differs; a post that nothing waits for. -/
theorem wit_ShuttleEvents_match :
    (∀ word ∈ [(256 : W64), 512], ∃ (s : State) (k : Cmd) (p : PeerPost), cmdOf s k.id = some k ∧ k.status = none ∧ k.lost = false ∧
      s.ev.a = 2 ^ 20 + k.id ∧ k.op = .recv ∧ (k.begun = true ∨ cmdReady s k = true) ∧
      peerPostFor s k false k.recvIx = some p ∧ wordsDiffer p.word k.p3 = (word != 256)) ∧
    ∃ s : State, s.ev.a < 2 ^ 20 ∧ ∀ c ∈ s.en.cmds, c.peer ≠ s.ev.a := by
  refine ⟨fun word h => ?_, ⟨b0, by decide +kernel⟩⟩
  refine ⟨(let s := withCmd (cmd7 .recv 1 256) { a := 2 ^ 20 + 7 } b0
     { s with en := { s.en with peerPosts := [⟨1, 0, 1, false, 5, word⟩] } }), cmd7 .recv 1 256, ⟨1, 0, 1, false, 5, word⟩, rfl, rfl, rfl,
    rfl, rfl, .inl rfl, rfl, ?_⟩
  rcases (by simpa using h : word = 256 ∨ word = 512) with rfl | rfl <;> decide +kernel

/-- The only chunk of a receive of 256 bytes, and of a sum of one FP32 element; one that fails its CRC; the acknowledgement of
a last chunk; a lost peer. -/
def chunkState (k : Cmd) : State :=
  withCmd k { a := 1, c := 1, d := 320, body := List.replicate (k.chunkLen 0) 7 } (paged 0 atomDesc b0)
def noted (k : Cmd) : State :=
  modCmd (chunkState k) k.id fun x => { x with matchedRecv := true, arrived := x.arrived ||| ((1 : BitVec 64) <<< 0) }

theorem wit_ShuttleEvents_chunks :
    (∃ (s v : State) (k k2 : Cmd) (c a core va : Nat), ChunkHere s v k c ∧ cmdOf v k.id = some k2 ∧ (payChunk false c 5 v k2).1 = true ∧
      k.op = .recv ∧ engAddr k.p1 ((k.p1.toNat : Int) + c * k.chunk) = (va, none) ∧
      piecesOf va (k.chunkLen c) = [(va, k.chunkLen c)] ∧ Undisturbed s ∧ engRoute s k va (k.chunkLen c) 1 true false = .spad a core) ∧
    (∃ (s v : State) (k k2 : Cmd) (c a core va : Nat), ChunkHere s v k c ∧ cmdOf v k.id = some k2 ∧ (payChunk false c 5 v k2).1 = true ∧
      k.op = .recva ∧ addPair k.aSty k.aDty = true ∧ k.chunkLen c = tyBits k.aSty / 8 ∧
      engAddr k.p1 ((k.p1.toNat : Int) + 4 * (c * k.chunk / (tyBits k.aSty / 8) : Nat)) = (va, none) ∧ Undisturbed s ∧
      engRoute s k va 4 4 true false = .spad a core) ∧
    (∃ s : State, 64 ≤ s.ev.c) ∧
    (∃ (s : State) (k : Cmd), cmdOf s k.id = some k ∧ cmdAt s s.ev true = some k ∧ k.op = .send ∧
      k.flying = some (s.ev.d % 64) ∧ k.lost = false ∧ s.ev.a < 2 ^ 20 ∧
      allChunks k (k.sent ||| ((1 : BitVec 64) <<< (s.ev.d % 64))) = true) ∧
    ∃ (s : State) (n : Session) (c : Cmd), (s.en.cmds.map (·.id)).Nodup ∧ tget s.en.sessions s.ev.a = some n ∧ portSt s 0 = 3 ∧
      fld (nimmetPort s 0).status.toNat 47 35 = s.ev.a ∧ c ∈ s.en.cmds ∧ c.op.freight = false ∧ c.peer = s.ev.a ∧
      c.arrived &&& ~~~c.rcvd = 0 := by
  refine ⟨⟨chunkState (cmd7 .recv 1 256), noted (cmd7 .recv 1 256), cmd7 .recv 1 256,
      { cmd7 .recv 1 256 with matchedRecv := true, arrived := 1 }, 0, 0xF00, 0, 0x2000000000000F00,
      ⟨by decide +kernel, rfl, by decide, rfl, rfl, rfl, rfl, by decide, by decide, by decide +kernel, by decide +kernel,
        by decide +kernel, by decide +kernel, rfl⟩, by decide +kernel, by decide +kernel, rfl, by decide +kernel, by decide +kernel,
      ⟨rfl, rfl, rfl, rfl, by decide +kernel⟩, by decide +kernel⟩,
    ⟨chunkState (cmd7 .recva 1 (4 + 8 * 2 ^ 40 + 8 * 2 ^ 44)), noted (cmd7 .recva 1 (4 + 8 * 2 ^ 40 + 8 * 2 ^ 44)),
      cmd7 .recva 1 (4 + 8 * 2 ^ 40 + 8 * 2 ^ 44),
      { cmd7 .recva 1 (4 + 8 * 2 ^ 40 + 8 * 2 ^ 44) with matchedRecv := true, arrived := 1 }, 0, 0xF00, 0, 0x2000000000000F00,
      ⟨by decide +kernel, rfl, by decide, rfl, rfl, rfl, rfl, by decide, by decide, by decide +kernel, by decide +kernel,
        by decide +kernel, by decide +kernel, rfl⟩, by decide +kernel, by decide +kernel, rfl, by decide +kernel, by decide +kernel,
      by decide +kernel, ⟨rfl, rfl, rfl, rfl, by decide +kernel⟩, by decide +kernel⟩,
    ⟨{ b0 with ev := { c := 64 } }, by decide⟩,
    ⟨withCmd { cmd7 .send 1 256 with flying := some 0 } { a := 1, c := 1, d := 192 } b0, { cmd7 .send 1 256 with flying := some 0 },
      by decide +kernel⟩,
    ⟨let s := linked (withCmd (cmd7 .recv 1 256) { a := 1 } b0)
     { s with en := { s.en with nimmet := [(0, ⟨BitVec.ofNat 64 (3 * 2 ^ 24 + 2 ^ 35), 0, 0, []⟩)] } },
      ⟨1, true, 1, 0, [(1, 0)]⟩, cmd7 .recv 1 256, by decide +kernel⟩⟩

/-! ### Boot, hand-over, links, heat and the host port -/

/-- The attempts at each source, the first and the last, and the image that comes for it. -/
theorem wit_BootSequence :
    (∀ p, ∃ s : State, s.powered = p) ∧
    (∃ (s : State) (n : Nat), s.rt.boot = .network n 0) ∧
    (∀ n, ∀ b ∈ [Boot.network n 3, .hostLink n, .hostImage n], ∃ s : State, s.rt.boot = b ∧
      (s.rt.boot = .network n 3 ∨ s.rt.boot = .hostLink n ∨ s.rt.boot = .hostImage n)) ∧
    (∃ s : State, s.rt.boot = .waiting ∧ s.ho.stageGo = false) ∧
    (∃ (s : State) (n : Nat), s.ev.d ≠ 1 ∧ s.rt.boot = .network n s.ev.a) ∧
    (∀ n, ∃ (s : State) (b : List Byte), s.ev.d = 1 ∧ s.rt.boot = .verifying n b) ∧
    (∃ (s : State) (n : Nat), s.rt.boot = .started n ∧ s.rt.alive = some (firmwareOf s 1).svn) ∧
    (∀ n, ∃ s : State, s.rt.boot = .started n ∧ s.rt.alive ≠ some (firmwareOf s 1).svn ∧ s.rt.hand = none) ∧
    ∃ (s : State) (n : Nat), s.rt.boot = .hostLink n ∧ s.ho.stageGo = false := by
  refine ⟨fun p => ⟨{ State.reset with powered := p }, rfl⟩, ⟨rotWith (fun r => { r with boot := .network 0 0 }) b0, 0, rfl⟩,
    fun n b h => ⟨rotWith (fun r => { r with boot := b }) b0, rfl, ?_⟩,
    ⟨rotWith (fun r => { r with boot := .waiting }) b0, rfl, rfl⟩,
    ⟨rotWith (fun r => { r with boot := .network 1 0 }) b0, 1, by decide +kernel⟩,
    fun n => ⟨rotWith (fun r => { r with boot := .verifying n [] }) { b0 with ev := { d := 1 } }, [], rfl, rfl⟩,
    ⟨rotWith (fun r => { r with boot := .started 0, firmware := [(1, ⟨4, 0⟩)], alive := some 4 }) b0, 0, by decide +kernel⟩,
    fun n => ⟨rotWith (fun r => { r with boot := .started n, firmware := [(1, ⟨4, 0⟩)], alive := some 3 }) b0, rfl,
      show some 3 ≠ some 4 by decide, rfl⟩,
    ⟨rotWith (fun r => { r with boot := .hostLink 0 }) b0, 0, by decide +kernel⟩⟩
  rcases (by simpa using h : b = .network n 3 ∨ b = .hostLink n ∨ b = .hostImage n) with rfl | rfl | rfl
  · exact .inl rfl
  · exact .inr (.inl rfl)
  · exact .inr (.inr rfl)

theorem wit_HandOvers : (∃ s : State, s.rt.hand = none) ∧
    (∀ alive, ∃ (s : State) (h : Hand), s.rt.hand = some h ∧ h.switched = true ∧ h.kind < 256 ∧ s.ev.b ≠ 1 ∧ h.alive = alive) ∧
    (∀ ms ∈ [0, 1, 1000, 1001], ∃ s : State, s.ev.b = 1 ∧ s.ev.a = ms) ∧
    ∃ s : State, (∀ n, s.rt.boot ≠ .hostImage n) ∧ ∀ q ∈ s.ho.waiting, q.code ≠ 9 :=
  ⟨⟨b0, rfl⟩, fun alive => ⟨rotWith (fun r => { r with hand := some ⟨1, ⟨2, 1⟩, ⟨1, 0⟩, true, alive⟩ }) b0,
    ⟨1, ⟨2, 1⟩, ⟨1, 0⟩, true, alive⟩, rfl, rfl, show 1 < 256 by decide, show (0 : Nat) ≠ 1 by decide, rfl⟩,
    fun ms _ => ⟨{ b0 with ev := { a := ms, b := 1 } }, rfl, rfl⟩, ⟨b0, (fun _ h => nomatch h), (fun _ h => nomatch h)⟩⟩

/-- A link that goes down and one that comes up; the last byte of the last port of the second tier. -/
theorem wit_LinksAndHeat : (∀ b ∈ [0, 2], ∃ s : State, s.ev.b = b) ∧ (∃ s : State, s.ev.c = 1) ∧
    (∃ (s : State) (n : Session), tget s.en.sessions s.ev.a = some n) ∧
    (∀ seq ∈ [0, 2 ^ 48 - 1], ∃ s : State, s.ev.c = 1 ∧ s.ev.b = (nimmetPort s s.ev.a).rxSeq ∧ s.ev.b = seq) ∧
    (∃ s : State, (nimmetPort s s.ev.a).unacked ≠ []) ∧ ∃ (s : State) (off : Nat), s.ev.a < 16 ∧ off + 1 = 2 ^ 40 := by
  refine ⟨fun b _ => ⟨{ b0 with ev := { b := b } }, rfl⟩, ⟨{ b0 with ev := { c := 1 } }, rfl⟩,
    ⟨{ linked b0 with ev := { a := 1 } }, ⟨1, true, 1, 0, [(1, 0)]⟩, by decide +kernel⟩, fun seq _ =>
    ⟨{ b0 with ev := { b := seq, c := 1 }, en := { b0.en with nimmet := [(0, ⟨0, seq, 0, []⟩)] } }, rfl, rfl, rfl⟩,
    ⟨{ b0 with en := { b0.en with nimmet := [(0, ⟨0, 0, 1, [(0, [7])]⟩)] } }, by decide +kernel⟩,
    ⟨{ b0 with ev := { a := 15 } }, 2 ^ 40 - 1, by decide +kernel⟩⟩

/-- A window of two pages at 0 that the host may write; its last word, and the first byte after it. -/
def shared2 (w : Bool) (ev : EvArg) : State :=
  hostWith (fun p => { p with
    windows := [(0, (1 : BitVec 128) <<< 127 ||| (if w then 1 else 0) <<< 126 ||| 1 <<< 120 ||| 2 <<< 44)]
    winPages := [(0, [some 0x10, some 0x12])] }) { b0 with ev := ev }
def slotted (st : W64) (ev : EvArg) : State :=
  hostWith (fun p => { p with slots := [(63, ⟨[st <<< 56, 0, 0, 0, 0, 0, 0, 0], [], []⟩)] }) { b0 with ev := ev }

theorem wit_HostPort :
    (∀ b ∈ [0, 1], ∃ s : State, s.ev.b = b ∧ windowAt s s.ev.a (if s.ev.b = 1 then s.ev.body.length else s.ev.c) = none) ∧
    (∀ w b, w = true ∧ b = 1 ∨ w = false ∧ b = 1 ∨ w = true ∧ b = 0 → ∃ (s : State) (e : BitVec 128) (pages : List (Option Nat)) (o pa : Nat),
      s.ev.b = b ∧ wW e = w ∧ windowAt s s.ev.a (if s.ev.b = 1 then s.ev.body.length else s.ev.c) = some (e, pages, o) ∧
      windowPieces pages o (if s.ev.b = 1 then s.ev.body.length else s.ev.c) =
        some [(pa, if s.ev.b = 1 then s.ev.body.length else s.ev.c)] ∧ Undisturbed s) ∧
    (∀ a ∈ [0, 0xF, 0x1000000, 0x5FFFFFF], ∃ (s : State) (b : Byte), s.ev.body = [b] ∧ s.ev.a = a ∧ s.ev.a ≠ 0x10 ∧ memoriesOk s = true) ∧
    (∀ st ∈ [0, 1, 3], ∃ s : State, slotState (hostSlot s (s.ev.a % 64)) = st ∧ s.ev.b = 2) ∧
    (∃ s : State, s.rt.zitrum = false ∧ s.rt.hand = none ∧ ∀ n, s.rt.boot ≠ .started n) ∧
    ∃ s : State, s.rt.zitrum = true ∨ s.rt.hand.isSome = true ∨ ∃ n, s.rt.boot = .started n := by
  refine ⟨fun b h => ⟨shared2 true { a := 0x1FFF, b := b, c := 2, body := [1, 2] }, rfl, ?_⟩, fun w b h => ?_,
    fun a h => ⟨{ b0 with ev := { a := a, body := [7] } }, 7, rfl, rfl, ?_⟩,
    fun st h => ⟨slotted (BitVec.ofNat 64 st) { a := 63, b := 2 }, ?_⟩, ⟨rotWith (fun r => { r with zitrum := false }) b0, rfl, rfl, (fun _ h => nomatch h)⟩,
    ⟨b0, .inl rfl⟩⟩
  · rcases (by simpa using h : b = 0 ∨ b = 1) with rfl | rfl <;> decide +kernel
  · refine ⟨shared2 w { a := 0x1FFE, b := b, c := 2, body := [1, 2] },
      (1 : BitVec 128) <<< 127 ||| (if w then 1 else 0) <<< 126 ||| 1 <<< 120 ||| 2 <<< 44, [some 0x10, some 0x12], 0x1FFE, 0x12FFE, rfl, ?_, ?_,
      ?_, ⟨rfl, rfl, rfl, rfl, show memoriesOk b0 = true by decide +kernel⟩⟩ <;>
      rcases h with ⟨rfl, rfl⟩ | ⟨rfl, rfl⟩ | ⟨rfl, rfl⟩ <;> decide +kernel
  · rcases (by simpa using h : a = 0 ∨ a = 0xF ∨ a = 0x1000000 ∨ a = 0x5FFFFFF) with rfl | rfl | rfl | rfl <;> decide +kernel
  · rcases (by simpa using h : st = 0 ∨ st = 1 ∨ st = 3) with rfl | rfl | rfl <;> decide +kernel

/-! ### Zitrum's requests -/

/-- A request of a code and a body at the head of the queue, from management port 0, and the request as it is taken. -/
def asked (code : Nat) (body : List Byte) (s : State) : State :=
  hostWith (fun p => { p with requests := [{ route := .mgmt 0 9, code := code, ticket := 9, len := body.length, body := body }] }) s
def askQ (code : Nat) (body : List Byte) : Request :=
  { route := .mgmt 0 9, code := code, ticket := 9, len := body.length, body := padded (min body.length 16320) body, taken := true }
/-- The state without the request. -/
def unasked (s : State) : State := hostWith (fun p => { p with requests := [] }) s

theorem asked_taken (code : Nat) {body : List Byte} (s : State) (h : body.length ≤ 16320) :
    Taken code (asked code body s) (askQ code body) (unasked s) := ⟨_, [], rfl, rfl, rfl, h⟩

/-- A body of words. -/
def words (l : List Nat) : List Byte := l.flatMap fun n => natBytes n 8

/-- A page at the end of the table addresses: LINED, of line 5, and ATOMIC. -/
def mapHigh : W64 := descHigh
def atomHigh : W64 := 0x0400000000000000
def mapBody (high : W64) (w2 : Nat) : List Byte := words [high.toNat, 2 ^ 56 - 4096, w2]

theorem wit_CompartmentRequests :
    (∀ k ∈ [0, 62], ∃ (s u : State) (q : Request) (root : Nat) (u' : State), Taken 3 s q u ∧
      wellFormedBody q [1, maskOf 63 0, maskOf 63 0, maskOf 63 0, maskOf 63 0, maskOf 63 0, maskOf 63 0] 56 ∧ k < 63 ∧
      tget u.tt.comps (k + 1) = none ∧ (∀ j, j < k → tget u.tt.comps (j + 1) ≠ none) ∧ takeTable u = some (root, u')) ∧
    (∃ (s u : State) (q : Request), s.ev.a ≠ 1 ∧ Taken 4 s q u ∧ wellFormedBody q [maskOf 5 0] 8 ∧ 1 ≤ bodyWord q 0 % 64 ∧
      (tget u.tt.comps (bodyWord q 0 % 64)).isSome = true ∧ compBusy u (bodyWord q 0 % 64) = false) ∧
    (∀ kind ∈ [kLined, kAtomic], ∃ (s u : State) (q : Request),
      let w2 := bodyWord q 2
      let ta := bodyWord q 1
      let count := fld w2 31 0
      let size := fld w2 34 32
      let high : W64 := BitVec.ofNat 64 (bodyWord q 0)
      let low : W64 := BitVec.ofNat 64 (3 + (if w2.testBit 37 then 64 else 0) + fld w2 36 35 * 128 + size * 512)
      let bytes := pageBytes size
      let comp := dComp high
      ∃ k pa u1 u2, Taken 5 s q u ∧ wellFormedBody q [maskOf 63 8, maskOf 55 0, maskOf 42 0] 24 ∧ comp ≠ 0 ∧ size < 4 ∧
        count ≠ 0 ∧ ta % bytes = 0 ∧ ta + count * bytes = 2 ^ 56 ∧ badDesc low high (leafLevel size) = false ∧
        tget u.tt.comps comp = some k ∧ pagesUsed u comp + count * (bytes / 4096) ≤ quotaPages u comp ∧
        takePages u (w2.testBit 38) (fld w2 42 39) bytes count = some (pa, u1) ∧
        mapPages k.root size bytes low high count ta pa u1 = some u2 ∧ dKind low = kind ∧
        lineAgrees u high ta = true ∧ lineAgrees u high (ta + (count - 1) * bytes) = true ∧
        ta / 2 ^ (dXlog high + 1) = (ta + (count - 1) * bytes) / 2 ^ (dXlog high + 1)) ∧
    (∃ (s u : State) (q : Request) (k : Comp), s.ev.a ≠ 1 ∧ Taken 6 s q u ∧ wellFormedBody q [maskOf 5 0, maskOf 55 0, maskOf 34 0] 24 ∧
      1 ≤ bodyWord q 0 % 64 ∧ fld (bodyWord q 2) 34 32 < 4 ∧ fld (bodyWord q 2) 31 0 ≠ 0 ∧
      bodyWord q 1 % pageBytes (fld (bodyWord q 2) 34 32) = 0 ∧
      bodyWord q 1 + fld (bodyWord q 2) 31 0 * pageBytes (fld (bodyWord q 2) 34 32) ≤ 2 ^ 56 ∧
      tget u.tt.comps (bodyWord q 0 % 64) = some k ∧
      pagesKept u (bodyWord q 0 % 64) (bodyWord q 1) (fld (bodyWord q 2) 31 0 * pageBytes (fld (bodyWord q 2) 34 32)) = false) ∧
    (∃ (s : State) (q : Request), s.ev.a = 1 ∧ s.ho.waiting = [q] ∧ unmapWaits s q = true ∧
      (tget s.tt.comps (bodyWord q 0 % 64)).isSome = true) ∧
    ∃ (s u : State) (q : Request),
      let target := fld (bodyWord q 0) 23 16
      let block : BitVec 256 := BitVec.ofNat 256 (bytesNat ((q.body.drop 8).take 32))
      ∃ v, Taken 7 s q u ∧ wellFormedBody q (budgetMasks q) (budgetReads q) ∧ target < 64 ∧
        fld (bodyWord q 1) 55 32 % 4096 = 0 ∧ fld (bodyWord q 2) 23 0 % 64 = 0 ∧
        v = { u with tt := { u.tt with clsNext := v.tt.clsNext } } ∧
        (∀ d c, d < 16 → c < 64 → tget v.tt.clsNext (d * 64 + c) =
          if c = target ∧ (bodyWord q 0).testBit d = true then some block else tget u.tt.clsNext (d * 64 + c)) ∧
        limitBroken v = none := by
  refine ⟨fun k h => ?_, ?_, fun kind h => ?_, ?_, ?_, ?_⟩
  · rcases (by simpa using h : k = 0 ∨ k = 62) with rfl | rfl
    · have h1 : (takeTable (unasked b0)).isSome = true := by decide +kernel
      obtain ⟨⟨root, u'⟩, h2⟩ := Option.isSome_iff_exists.1 h1
      exact ⟨_, _, _, root, u', asked_taken 3 (body := words [1, 64, 1024, 0, 0, 0, 7]) b0 (by decide +kernel),
        ⟨by decide +kernel, by decide +kernel⟩, by decide, rfl, fun j h => absurd h (Nat.not_lt_zero j), h2⟩
    · have h1 : (takeTable (unasked { b0 with tt := { b0.tt with comps := (List.range 62).map fun k => (k + 1, comp1) } })).isSome = true := by
        decide +kernel
      obtain ⟨⟨root, u'⟩, h2⟩ := Option.isSome_iff_exists.1 h1
      exact ⟨_, _, _, root, u', asked_taken 3 (body := words [1, 64, 1024, 0, 0, 0, 7]) _ (by decide +kernel),
        ⟨by decide +kernel, by decide +kernel⟩, by decide, by decide +kernel, by decide +kernel, h2⟩
  · exact ⟨_, _, _, by decide +kernel, asked_taken 4 (body := words [1]) (pooled b0) (by decide +kernel), ⟨by decide +kernel, by decide +kernel⟩,
      by decide +kernel, by decide +kernel, by decide +kernel⟩
  · rcases (by simpa using h : kind = kLined ∨ kind = kAtomic) with rfl | rfl
    · have h1 : ((takePages (unasked (rooted b0)) false 1 4096 1).bind fun r =>
          mapPages (2 ^ 36 - 8192) 0 4096 0x43 mapHigh 1 (2 ^ 56 - 4096) r.1 r.2).isSome = true := by decide +kernel
      obtain ⟨u2, h2⟩ := Option.isSome_iff_exists.1 h1
      obtain ⟨⟨pa, u1⟩, h3, h4⟩ := Option.bind_eq_some_iff.1 h2
      refine ⟨asked 5 (mapBody mapHigh 0xA000000001) (rooted b0), unasked (rooted b0), askQ 5 (mapBody mapHigh 0xA000000001), ?_⟩
      have e0 : bodyWord (askQ 5 (mapBody mapHigh 0xA000000001)) 0 = mapHigh.toNat := by decide +kernel
      have e1 : bodyWord (askQ 5 (mapBody mapHigh 0xA000000001)) 1 = 2 ^ 56 - 4096 := by decide +kernel
      have e2 : bodyWord (askQ 5 (mapBody mapHigh 0xA000000001)) 2 = 0xA000000001 := by decide +kernel
      dsimp only
      rw [e0, e1, e2]
      refine ⟨{ comp1 with root := 2 ^ 36 - 8192 }, pa, u1, u2, asked_taken 5 _ (by decide +kernel), ⟨?_, ?_⟩,
        ?_, ?_, ?_, ?_, ?_, ?_, ?_, ?_, h3, h4, ?_, ?_, ?_, ?_⟩ <;> decide +kernel
    · have h1 : ((takePages (unasked (rooted b0)) false 0 4096 1).bind fun r =>
          mapPages (2 ^ 36 - 8192) 0 4096 0xC3 atomHigh 1 (2 ^ 56 - 4096) r.1 r.2).isSome = true := by decide +kernel
      obtain ⟨u2, h2⟩ := Option.isSome_iff_exists.1 h1
      obtain ⟨⟨pa, u1⟩, h3, h4⟩ := Option.bind_eq_some_iff.1 h2
      refine ⟨asked 5 (mapBody atomHigh 0x2800000001) (rooted b0), unasked (rooted b0), askQ 5 (mapBody atomHigh 0x2800000001), ?_⟩
      have e0 : bodyWord (askQ 5 (mapBody atomHigh 0x2800000001)) 0 = atomHigh.toNat := by decide +kernel
      have e1 : bodyWord (askQ 5 (mapBody atomHigh 0x2800000001)) 1 = 2 ^ 56 - 4096 := by decide +kernel
      have e2 : bodyWord (askQ 5 (mapBody atomHigh 0x2800000001)) 2 = 0x2800000001 := by decide +kernel
      dsimp only
      rw [e0, e1, e2]
      refine ⟨{ comp1 with root := 2 ^ 36 - 8192 }, pa, u1, u2, asked_taken 5 _ (by decide +kernel), ⟨?_, ?_⟩,
        ?_, ?_, ?_, ?_, ?_, ?_, ?_, ?_, h3, h4, ?_, ?_, ?_, ?_⟩ <;> decide +kernel
  · exact ⟨_, _, _, comp1, by decide +kernel, asked_taken 6 (body := words [1, 2 ^ 56 - 2 ^ 30, 1 + 3 * 2 ^ 32]) (pooled b0)
      (by decide +kernel), ⟨by decide +kernel, by decide +kernel⟩, by decide +kernel, by decide +kernel, by decide +kernel,
      by decide +kernel, by decide +kernel, by decide +kernel, by decide +kernel⟩
  · exact ⟨hostWith (fun p => { p with waiting := [askQ 6 (words [1, 0, 1])] }) (pooled { b0 with ev := { a := 1 } }),
      askQ 6 (words [1, 0, 1]), rfl, rfl, by decide +kernel, by decide +kernel⟩
  · let body := words [0x1FFFF, 2 ^ 63 + 4096 * 2 ^ 32 + 64, 64, 0, 0]
    let u := unasked b0
    let v : State := { u with tt := { u.tt with
      clsNext := (List.range 16).map fun d => (d * 64 + 1, BitVec.ofNat 256 (bytesNat ((body.drop 8).take 32))) } }
    have h : ∀ d, d < 16 → ∀ c, c < 64 → tget v.tt.clsNext (d * 64 + c) =
        if c = fld (bodyWord (askQ 7 body) 0) 23 16 ∧ (bodyWord (askQ 7 body) 0).testBit d = true then
          some (BitVec.ofNat 256 (bytesNat (((askQ 7 body).body.drop 8).take 32))) else tget u.tt.clsNext (d * 64 + c) := by
      decide +kernel
    exact ⟨_, u, _, v, asked_taken 7 (body := body) b0 (by decide +kernel), ⟨by decide +kernel, by decide +kernel⟩, by decide +kernel,
      by decide +kernel, by decide +kernel, rfl, fun d c hd hc => h d hd c hc, by decide +kernel⟩

/-! ### The other requests, launches and teams -/

theorem wit_OtherRequests :
    (∃ (s u : State) (q : Request), Taken 1 s q u ∧ q.taken = true ∧ wellFormedBody q [] (192 + 32 * pkNrange q.body) ∧
      ∀ q0 rest, s.ho.requests = q0 :: rest → q0.taken = false) ∧
    (∃ (s u : State) (q : Request) (l : Launch), Taken 2 s q u ∧ wellFormedBody q [maskOf 15 0] 8 ∧
      tget u.tm.launches (reqLid q) = some l) ∧
    (∃ (s u : State) (q : Request) (l : Launch), Taken 0x0B s q u ∧ wellFormedBody q [maskOf 15 0, maskOf 63 0] 16 ∧
      tget u.tm.launches (reqLid q) = some l ∧ modeDet l.mode = true ∧ mayRun l = true ∧ l.steps = bodyWord q 1) ∧
    (∃ (s u : State) (q : Request) (l : Launch), Taken 0x0A s q u ∧
      wellFormedBody q [maskOf 5 0 + maskOf 31 16, maskOf 63 0, maskOf 63 0] 24 ∧ 1 ≤ bodyWord q 0 % 64 ∧
      bodyWord q 1 % 4096 = 0 ∧ bodyWord q 1 < 2 ^ 56 ∧ bodyWord q 1 + bodyWord q 2 ≤ 2 ^ 56 ∧
      tget u.tm.launches (reqLid q) = some l ∧
      l.comp = bodyWord q 0 % 64 ∧ mayRun l = true) ∧
    (∃ (s u : State) (q : Request), Taken 0x0C s q u ∧ wellFormedBody q [maskOf 5 0 + maskOf 31 16] 8 ∧
      1 ≤ bodyWord q 0 % 64 ∧ ∃ h ∈ u.tm.heldLogs, (h.comp == bodyWord q 0 % 64 && h.lid == reqLid q) = true) ∧
    (∀ v, ∃ (s u : State) (q : Request), Taken 0x0D s q u ∧ wellFormedBody q [maskOf 12 0 + maskOf 28 16] 8 ∧
      u.ho.pkginfo.getLsbD 31 = v) ∧
    (∃ (s u : State) (q : Request), Taken 0x0E s q u ∧ wellFormedBody q [maskOf 7 0 + maskOf 16 8] 8 ∧
      fld (bodyWord q 0) 16 8 = 256 ∧ fld (bodyWord q 0) 7 0 = 255) ∧
    (∃ (s u : State) (q : Request), Taken 8 s q u ∧
      (let n := fld (bodyWord q 0) 24 16
       wellFormedBody q [maskOf 5 0 + maskOf 24 16, maskOf 63 0, maskOf 63 0, maskOf 63 0, maskOf 63 0] (40 + 4 * n) ∧
       (∀ x ∈ (List.range n).map fun k => bytesNat ((q.body.drop (40 + 4 * k)).take 4), x < 2 ^ 24) ∧ n = 256) ∧
      1 ≤ bodyWord q 0 % 64 ∧ (tget u.tt.comps (bodyWord q 0 % 64)).isSome = true) ∧
    (∀ go, ∃ (s u : State) (q : Request), Taken 9 s q u ∧ wellFormedBody q [7] 8 ∧ bodyWord q 0 % 8 = 4 ∧ u.rt.hand = none ∧
      (∀ p ∈ u.ho.waiting, p.code ≠ 9) ∧ u.ho.stageGo = go) ∧
    ∃ (s u : State) (q : Request), s.ev.a ≠ 1 ∧ Taken 0x0F s q u ∧
      wellFormedBody q [maskOf 5 0, maskOf 63 0, maskOf 63 0, maskOf 63 0] 32 ∧ 1 ≤ bodyWord q 0 % 64 ∧ bodyWord q 1 < 2 ^ 56 ∧
      bodyWord q 2 + bodyWord q 3 ≤ 2 ^ 56 ∧ u.ms.holds = [] ∧ (tget u.tt.comps (bodyWord q 0 % 64)).isSome = true ∧
      findManifest u (bodyWord q 0 % 64) (bodyWord q 1) = none := by
  refine ⟨⟨_, _, _, asked_taken 1 (body := words (List.replicate 28 0)) b0 (by decide +kernel), rfl,
      ⟨by decide +kernel, by decide +kernel⟩, ?_⟩,
    ⟨_, _, _, lau 0, asked_taken 2 (body := words [0]) (withLau (lau 0) b0) (by decide +kernel),
      ⟨by decide +kernel, by decide +kernel⟩, by decide +kernel⟩,
    ⟨_, _, _, lau 1, asked_taken 0x0B (body := words [0, 0]) (withLau (lau 1) b0) (by decide +kernel),
      ⟨by decide +kernel, by decide +kernel⟩, by decide +kernel⟩,
    ⟨_, _, _, lau 0, asked_taken 0x0A (body := words [1, 2 ^ 56 - 4096, 4096]) (withLau (lau 0) b0) (by decide +kernel),
      ⟨by decide +kernel, by decide +kernel⟩, by decide +kernel⟩,
    ⟨_, _, _, asked_taken 0x0C (body := words [1]) { b0 with tm := { b0.tm with heldLogs := [⟨1, 0, 0, [], []⟩] } } (by decide +kernel),
      ⟨by decide +kernel, by decide +kernel⟩, by decide +kernel, ⟨1, 0, 0, [], []⟩, by decide +kernel⟩,
    fun v => ⟨_, _, _, asked_taken 0x0D (body := words [0x10000]) (hostWith (fun p => { p with pkginfo := if v then 2 ^ 31 else 0 }) b0)
      (by decide +kernel), ⟨by decide +kernel, by decide +kernel⟩, by cases v <;> decide +kernel⟩,
    ⟨_, _, _, asked_taken 0x0E (body := words [0x100FF]) b0 (by decide +kernel), ⟨by decide +kernel, by decide +kernel⟩,
      by decide +kernel⟩,
    ⟨_, _, _, asked_taken 8 (body := words (0x1000001 :: List.replicate 132 0)) (pooled b0) (by decide +kernel),
      ⟨⟨by decide +kernel, by decide +kernel⟩, by decide +kernel, by decide +kernel⟩, by decide +kernel⟩,
    fun go => ⟨_, _, _, asked_taken 9 (body := words [4]) (hostWith (fun p => { p with stageGo := go }) b0) (by decide +kernel),
      ⟨by decide +kernel, by decide +kernel⟩, by decide +kernel, rfl, (fun _ h => nomatch h), rfl⟩,
    ⟨_, _, _, by decide +kernel, asked_taken 0x0F (body := words [1, 2 ^ 56 - 1, 2 ^ 56 - 4096, 4096]) (pooled b0) (by decide +kernel),
      ⟨by decide +kernel, by decide +kernel⟩, by decide +kernel, by decide +kernel, by decide +kernel, rfl, by decide +kernel,
      by decide +kernel⟩⟩
  intro q0 rest h
  cases h
  rfl

/-- An image of one empty bundle at physical address 2^30, on a CODE page of 1 GiB at table address 0, with the tables that
lead to it; and a packet of compartment 1 that names it, of one team of one member. -/
def codeMem : Memory :=
  wrBytes 0x10000 (natBytes 0x12001 8) (wrBytes 0x12000 (natBytes 0x14001 8)
    (wrBytes 0x14000 (natBytes 0x40000743 8 ++ natBytes (2 ^ 58) 8)
      (wrBytes 0x40000000 (natBytes 0x14F4C4B49 6 ++ natBytes 1 2 ++ natBytes 0 2 ++ natBytes 0x101 2 ++ natBytes 0xA0 4) [])))
def codePacket : List Byte :=
  words ([2 ^ 56 + 2 ^ 50 + 2 ^ 36 + 2 ^ 30 + 2 ^ 12, 1] ++ List.replicate 22 0 ++ [0, 0x00FFFFFFFFFFF000, 0, 0x1F])
def codeState : State :=
  { b0 with
    tt := { b0.tt with comps := [(1, { comp1 with root := 0x10000 })], cls := (List.range 16).map fun d => (d * 64 + 1, 2 ^ 160 - 1) }
    ms := { b0.ms with mem := codeMem } }

/-- The first bit of a table entry is that of its first byte. -/
theorem dV_rdNat (m : Memory) (a : Nat) : dV (BitVec.ofNat 64 (rdNat m a 8)) = (rdByte m a).getLsbD 0 := by
  have h (b : Byte) (l : List Byte) : (vecOf (b :: l)).getLsbD 0 = b.getLsbD 0 := by
    rw [show vecOf (b :: l) = b.setWidth 2048 ||| (vecOf l <<< 8) from rfl, BitVec.getLsbD_or, BitVec.getLsbD_setWidth,
      BitVec.getLsbD_shiftLeft]
    simp
  rw [show dV (BitVec.ofNat 64 (rdNat m a 8)) = (BitVec.ofNat 64 (vecOf (rdBytes m a 8)).toNat).getLsbD 0 from rfl,
    BitVec.getLsbD_ofNat, BitVec.testBit_toNat, show rdBytes m a 8 = rdByte m a :: rdBytes m (a + 1) 7 from rfl, h]
  simp

/-- Where a memory lists nothing between two addresses, the entries of a table there are not valid. -/
theorem rdByte_none {m : Memory} {n : Nat} (h : ∀ e ∈ m, e.1 ≠ n) : rdByte m n = 0 := by
  induction m with
  | nil => rfl
  | cons e t ih =>
    rw [rdByte, if_neg (h e (.head _))]
    exact ih fun x hx => h x (.tail _ hx)

/-- Of a table only its first n entries are listed. -/
def onlyFirst (m : Memory) (table n : Nat) : Prop := ∀ e ∈ m, e.1 < table + 16 * n ∨ table + 8192 ≤ e.1

theorem only_first {m : Memory} {table n level : Nat} (h : onlyFirst m table n) :
    ∀ i, i < (if level = 0 then 256 else 512) → n ≤ i → (rdByte m (table + 16 * i)).getLsbD 0 = false := by
  intro i hi hn
  have : i < 512 := by split at hi <;> omega
  rw [rdByte_none fun e he => by rcases h e he with h | h <;> omega]
  rfl

/-- A walk over a table of which only entry 0 is valid. -/
theorem leaves_first {m : Memory} {fuel table level ta : Nat} (h : onlyFirst m table 1) :
    leavesFrom m (fuel + 1) table level ta =
      (let low : W64 := BitVec.ofNat 64 (rdNat m table 8)
       let high : W64 := BitVec.ofNat 64 (rdNat m (table + 8) 8)
       if ¬ dV low then []
       else if dLeaf low then [(ta / 2 ^ sizeLog (dSize low) * 2 ^ sizeLog (dSize low), low, high)]
       else if badDesc low high level then []
       else leavesFrom m fuel (dPa low) (level + 1) ta) := by
  have aux : ∀ (n : Nat) (f : Nat → List (Nat × W64 × W64)), (∀ i, i < n → i ≠ 0 → f i = []) → 0 < n →
      (List.range n).flatMap f = f 0 := by
    intro n f hf hn
    induction n with
    | zero => exact absurd hn (by omega)
    | succ n ih =>
      rw [List.range_succ, List.flatMap_append]
      cases n with
      | zero => simp
      | succ n =>
        rw [ih (fun i hi h0 => hf i (by omega) h0) (by omega)]
        simp [hf (n + 1) (by omega) (by omega)]
  rw [leavesFrom, aux _ _ (fun i hi h0 => by simp only [dV_rdNat, only_first h i hi (by omega)]; simp) (by split <;> omega)]
  simp only [Nat.mul_zero, Nat.add_zero, Nat.zero_mul]

/-- Such a walk where entry 0 names the next table. -/
theorem leaves_table {m : Memory} {fuel table level ta p : Nat} (h : onlyFirst m table 1)
    (hv : dV (BitVec.ofNat 64 (rdNat m table 8)) = true) (hl : dLeaf (BitVec.ofNat 64 (rdNat m table 8)) = false)
    (hb : badDesc (BitVec.ofNat 64 (rdNat m table 8)) (BitVec.ofNat 64 (rdNat m (table + 8) 8)) level = false)
    (hp : dPa (BitVec.ofNat 64 (rdNat m table 8)) = p) :
    leavesFrom m (fuel + 1) table level ta = leavesFrom m fuel p (level + 1) ta := by
  simp only [leaves_first h, hv, hl, hb, hp, not_true_eq_false, if_false, Bool.false_eq_true]

theorem codeState_leaf : leavesOf codeState 1 = [(0 / 2 ^ sizeLog (dSize (BitVec.ofNat 64 (rdNat codeMem 0x14000 8))) *
    2 ^ sizeLog (dSize (BitVec.ofNat 64 (rdNat codeMem 0x14000 8))), BitVec.ofNat 64 (rdNat codeMem 0x14000 8),
    BitVec.ofNat 64 (rdNat codeMem (0x14000 + 8) 8))] := by
  refine (show leavesOf codeState 1 = leavesFrom codeMem 5 0x10000 0 0 from rfl).trans ?_
  have h : onlyFirst codeMem 0x10000 1 ∧ onlyFirst codeMem 0x12000 1 ∧ onlyFirst codeMem 0x14000 1 := by unfold onlyFirst; decide +kernel
  rw [leaves_table (p := 0x12000) h.1 (by decide +kernel) (by decide +kernel) (by decide +kernel) (by decide +kernel),
    leaves_table (p := 0x14000) h.2.1 (by decide +kernel) (by decide +kernel) (by decide +kernel) (by decide +kernel),
    leaves_first h.2.2]
  simp only [show dV (BitVec.ofNat 64 (rdNat codeMem 0x14000 8)) = true by decide +kernel,
    show dLeaf (BitVec.ofNat 64 (rdNat codeMem 0x14000 8)) = true by decide +kernel, not_true_eq_false, if_false, if_true]

theorem codeState_format : formatBad codeState codePacket = false := by
  unfold formatBad
  rw [show pkComp codePacket = 1 by decide +kernel, codeState_leaf]
  simp [show dKind (BitVec.ofNat 64 (rdNat codeMem 0x14000 8)) = 2 by decide +kernel, kLined]

/-- The last page of a CODE leaf of a compartment whose team is bound. -/
theorem wit_CompartmentRequests_kept : ∃ (s u : State) (q : Request) (k : Comp), s.ev.a ≠ 1 ∧ Taken 6 s q u ∧
    wellFormedBody q [maskOf 5 0, maskOf 55 0, maskOf 34 0] 24 ∧ 1 ≤ bodyWord q 0 % 64 ∧ fld (bodyWord q 2) 34 32 < 4 ∧
    fld (bodyWord q 2) 31 0 ≠ 0 ∧ bodyWord q 1 % pageBytes (fld (bodyWord q 2) 34 32) = 0 ∧
    bodyWord q 1 + fld (bodyWord q 2) 31 0 * pageBytes (fld (bodyWord q 2) 34 32) ≤ 2 ^ 56 ∧
    tget u.tt.comps (bodyWord q 0 % 64) = some k ∧
    pagesKept u (bodyWord q 0 % 64) (bodyWord q 1) (fld (bodyWord q 2) 31 0 * pageBytes (fld (bodyWord q 2) 34 32)) = true := by
  refine ⟨_, _, _, { comp1 with root := 0x10000 }, by decide +kernel, asked_taken 6 (body := words [1, 2 ^ 30 - 4096, 1]) codeState
    (by decide +kernel), ⟨by decide +kernel, by decide +kernel⟩, by decide +kernel, by decide +kernel, by decide +kernel,
    by decide +kernel, by decide +kernel, by decide +kernel, ?_⟩
  rw [show bodyWord (askQ 6 (words [1, 2 ^ 30 - 4096, 1])) 0 % 64 = 1 by decide +kernel,
    show bodyWord (askQ 6 (words [1, 2 ^ 30 - 4096, 1])) 1 = 2 ^ 30 - 4096 by decide +kernel,
    show fld (bodyWord (askQ 6 (words [1, 2 ^ 30 - 4096, 1])) 2) 31 0 * pageBytes (fld (bodyWord (askQ 6 (words [1, 2 ^ 30 - 4096, 1])) 2) 34 32) =
      4096 by decide +kernel, pagesKept, show leavesOf (unasked codeState) 1 = leavesOf codeState 1 from rfl, codeState_leaf]
  decide +kernel

/-- The image that stands there. -/
def codeImage : List Byte := rdBytes codeMem 0x40000000 0xA0

/-- Whether the checks of a packet pass. -/
def passes : Except (Nat × Nat) (List Byte) → Bool
  | .ok _ => true
  | .error _ => false

theorem passes_ok {r : Except (Nat × Nat) (List Byte)} (h : passes r = true) : ∃ image, r = .ok image := by
  cases r with
  | ok image => exact ⟨image, rfl⟩
  | error _ => simp [passes] at h

theorem codeState_accepts : passes (packetChecks codeState none codePacket) = true := by
  have h1 : readImage codeState codePacket = some codeImage := by decide +kernel
  unfold packetChecks
  simp only [h1, codeState_format]
  decide +kernel

theorem codeState_ok : ∃ image, packetChecks (unasked (asked 1 codePacket codeState)) none
    (packetBytes (unasked (asked 1 codePacket codeState))
      { route := .mgmt 0 9, code := 1, ticket := 9, len := codePacket.length, body := codePacket }) = .ok image := by
  rw [show unasked (asked 1 codePacket codeState) = codeState from rfl,
    show packetBytes codeState { route := .mgmt 0 9, code := 1, ticket := 9, len := codePacket.length, body := codePacket } =
      codePacket from rfl]
  exact passes_ok codeState_accepts

/-- A manifest, of these lines and this packet, with the hash that it names. -/
def manifest (lines : List CkptLine) (packet : List Byte) : Ckpt :=
  { comp := 1, step := 3, lines := lines, teams := [], pages := [], packet := packet }
def manifestAt (lines : List CkptLine) (packet : List Byte) (hash : Nat) : List Byte :=
  let rest := codecCkptRest.put (lines, [], [], packet)
  words [1, 3, lines.length, 0, rest.length] ++ natBytes hash 64 ++ rest
def whole : List Byte :=
  manifestAt [] codePacket
    0xc9f020e90937210aed93f0503943cb41ff66ad52c0974a1acb690c6a4f9163e4d04eafa875c87aba2a99d560e9dfa67a0e702663a474c897161ed63b886935ae
def lineOnly : List Byte :=
  manifestAt [⟨5, 8, 12, 1, 0, []⟩] []
    0x16d9ee0059d475c0f53d523fdf2668471145b698f64ad0541ada199fd371d1ecb8085b7e9b11a3346e0c94cf6825c1db26d2cd7df6ba0269dc4f0d0107bd7256

/-- Bytes from an address on. -/
def cells (a : Nat) : List Byte → Memory
  | [] => []
  | b :: t => if b = 0 then cells (a + 1) t else (a, b) :: cells (a + 1) t

/-- codeState with another first leaf, and a second one, ATOMIC, from 2^30 on, whose memory begins with a manifest. -/
def ckptMem (low high : Nat) (man : List Byte) : Memory :=
  wrBytes 0x10000 (natBytes 0x12001 8) (wrBytes 0x12000 (natBytes 0x14001 8)
    (wrBytes 0x14000 (natBytes low 8 ++ natBytes high 8 ++ natBytes 0x800006C3 8 ++ natBytes (2 ^ 58) 8)
      (wrBytes 0x40000000 (natBytes 0x14F4C4B49 6 ++ natBytes 1 2 ++ natBytes 0 2 ++ natBytes 0x101 2 ++ natBytes 0xA0 4)
        (cells 0x80000000 man))))
def ckptState (low high : Nat) (man : List Byte) : State := { codeState with ms := { b0.ms with mem := ckptMem low high man } }
def codeLow : Nat := 0x40000743
def linedLow : Nat := 0x40000643

/-- Two leaves at the head of a table. -/
theorem leaves_two {m : Memory} {fuel table level ta : Nat} (h : onlyFirst m table 2)
    (h0 : dV (BitVec.ofNat 64 (rdNat m table 8)) = true ∧ dLeaf (BitVec.ofNat 64 (rdNat m table 8)) = true)
    (h1 : dV (BitVec.ofNat 64 (rdNat m (table + 16) 8)) = true ∧ dLeaf (BitVec.ofNat 64 (rdNat m (table + 16) 8)) = true) :
    ∃ a b, leavesFrom m (fuel + 1) table level ta =
      [(a, BitVec.ofNat 64 (rdNat m table 8), BitVec.ofNat 64 (rdNat m (table + 8) 8)),
        (b, BitVec.ofNat 64 (rdNat m (table + 16) 8), BitVec.ofNat 64 (rdNat m (table + 16 + 8) 8))] := by
  have aux : ∀ (n : Nat) (f : Nat → List (Nat × W64 × W64)), (∀ i, i < n → i ≠ 0 → i ≠ 1 → f i = []) → 1 < n →
      (List.range n).flatMap f = f 0 ++ f 1 := by
    intro n f hf hn
    induction n with
    | zero => exact absurd hn (by omega)
    | succ n ih =>
      rw [List.range_succ, List.flatMap_append]
      by_cases h2 : n = 1
      · subst h2; simp
      · rw [ih (fun i hi h0 h1 => hf i (by omega) h0 h1) (by omega)]
        simp [hf n (by omega) (by omega) h2]
  rw [leavesFrom, aux _ _ (fun i hi h0 h1 => by simp only [dV_rdNat, only_first h i hi (by omega)]; simp) (by split <;> omega)]
  simp only [Nat.mul_zero, Nat.add_zero, Nat.mul_one, h0.1, h0.2, h1.1, h1.2, not_true_eq_false, if_false, if_true, List.cons_append,
    List.nil_append]
  exact ⟨_, _, rfl⟩

theorem leavesOf_root {s : State} {c : Nat} {k : Comp} (h : tget s.tt.comps c = some k) :
    leavesOf s c = leavesFrom s.ms.mem 5 k.root 0 0 := by simp only [leavesOf, h]

/-- Tables of which two leaves stand at the third level. -/
structure TwoLeaves (m : Memory) (low high : Nat) : Prop where
  listed : onlyFirst m 0x10000 1 ∧ onlyFirst m 0x12000 1 ∧ onlyFirst m 0x14000 2
  tables : rdNat m 0x10000 8 = 0x12001 ∧ rdNat m (0x10000 + 8) 8 = 0 ∧ rdNat m 0x12000 8 = 0x14001 ∧ rdNat m (0x12000 + 8) 8 = 0
  leaves : rdNat m 0x14000 8 = low ∧ rdNat m (0x14000 + 8) 8 = high ∧ rdNat m (0x14000 + 16) 8 = 0x800006C3 ∧
    rdNat m (0x14000 + 16 + 8) 8 = 2 ^ 58
  leaf : dV (BitVec.ofNat 64 low) = true ∧ dLeaf (BitVec.ofNat 64 low) = true

theorem leaves_deep {m : Memory} {low high : Nat} (h : TwoLeaves m low high) : ∃ a b,
    leavesFrom m 5 0x10000 0 0 = [(a, BitVec.ofNat 64 low, BitVec.ofNat 64 high), (b, BitVec.ofNat 64 0x800006C3, BitVec.ofNat 64 (2 ^ 58))] := by
  obtain ⟨e0, e1, e2, e3⟩ := h.tables
  obtain ⟨e4, e5, e6, e7⟩ := h.leaves
  obtain ⟨h0, h1, h2⟩ := h.listed
  rw [leaves_table (p := 0x12000) h0 (by rw [e0]; decide +kernel) (by rw [e0]; decide +kernel) (by rw [e0, e1]; decide +kernel)
      (by rw [e0]; decide +kernel),
    leaves_table (p := 0x14000) h1 (by rw [e2]; decide +kernel) (by rw [e2]; decide +kernel) (by rw [e2, e3]; decide +kernel)
      (by rw [e2]; decide +kernel)]
  obtain ⟨a, b, hl⟩ := leaves_two (fuel := 2) (ta := 0) h2 (by rw [e4]; exact h.leaf) (by rw [e6]; decide +kernel)
  rw [hl, e4, e5, e6, e7]
  exact ⟨a, b, rfl⟩

/-- The two leaves of ckptState. -/
theorem ckpt_leaves {low high : Nat} {man : List Byte} (h : TwoLeaves (ckptMem low high man) low high) :
    ∃ a b, leavesOf (unasked (ckptState low high man)) 1 =
      [(a, BitVec.ofNat 64 low, BitVec.ofNat 64 high), (b, BitVec.ofNat 64 0x800006C3, BitVec.ofNat 64 (2 ^ 58))] := by
  have h1 : tget (unasked (ckptState low high man)).tt.comps 1 = some { comp1 with root := 0x10000 } := rfl
  have h2 : (unasked (ckptState low high man)).ms.mem = ckptMem low high man := by simp only [unasked, hostWith, ckptState]
  rw [leavesOf_root h1, h2]
  exact leaves_deep h

/-- What every clause about RESTORE asks, of the body of a request. -/
def restores (s u : State) (q : Request) : Prop :=
  s.ev.a ≠ 1 ∧ Taken 0x0F s q u ∧ wellFormedBody q [maskOf 5 0, maskOf 63 0, maskOf 63 0, maskOf 63 0] 32 ∧
    1 ≤ bodyWord q 0 % 64 ∧ bodyWord q 1 < 2 ^ 56 ∧ bodyWord q 2 + bodyWord q 3 ≤ 2 ^ 56 ∧ u.ms.holds = [] ∧
    (tget u.tt.comps (bodyWord q 0 % 64)).isSome = true

theorem ckpt_restores (low high : Nat) (man : List Byte) (a n : Nat) (h : a + n ≤ 2 ^ 56)
    (hb : let q := askQ 0x0F (words [1, 2 ^ 30, a, n])
      (words [1, 2 ^ 30, a, n]).length ≤ 16320 ∧ bodyWord q 0 = 1 ∧ bodyWord q 1 = 2 ^ 30 ∧ bodyWord q 2 = a ∧ bodyWord q 3 = n ∧
      32 ≤ q.len ∧ bodyReserved q [maskOf 5 0, maskOf 63 0, maskOf 63 0, maskOf 63 0] 32 = false) :
    restores (asked 0x0F (words [1, 2 ^ 30, a, n]) (ckptState low high man)) (unasked (ckptState low high man))
      (askQ 0x0F (words [1, 2 ^ 30, a, n])) := by
  obtain ⟨hl, h0, h1, h2, h3, h4⟩ := hb
  refine ⟨show (0 : Nat) ≠ 1 by decide, asked_taken 0x0F _ hl, h4, ?_, ?_, ?_, rfl, ?_⟩
  · rw [h0] <;> decide
  · rw [h1]; decide
  · rw [h2, h3]; exact h
  · rw [h0]; rfl

/-- A manifest is found where its bytes stand. -/
theorem found_of {s : State} {man : Nat} {b : List Byte} {k : Ckpt} (h : manifestOf (b.take 104) (b.drop 104) = some k)
    (hr : readTable s 1 man 104 = some (b.take 104) ∧ ¬ 2 ^ 56 < man + 104 + headerWord (b.take 104) 4 ∧
      readTable s 1 (man + 104) (headerWord (b.take 104) 4) = some (b.drop 104)) : findManifest s 1 man = some k := by
  simp only [findManifest, hr.1, hr.2.2, Option.bind_some, if_neg hr.2.1, h]

/-- A manifest whose objects' area is not mapped; one of a line that no page names; one of a line without its objects. -/
theorem wit_OtherRequests_unrestored :
    (∃ s u q k, restores s u q ∧ findManifest u 1 (bodyWord q 1) = some k ∧ readTable u 1 (bodyWord q 2) (bodyWord q 3) = none) ∧
    (∃ s u q k area, restores s u q ∧ findManifest u 1 (bodyWord q 1) = some k ∧ readTable u 1 (bodyWord q 2) (bodyWord q 3) = some area ∧
      k.lines.all (lineFits u 1) = false) ∧
    ∃ s u q k area, restores s u q ∧ findManifest u 1 (bodyWord q 1) = some k ∧ readTable u 1 (bodyWord q 2) (bodyWord q 3) = some area ∧
      k.lines.all (lineFits u 1) = true ∧ k.lines.mapM (lineParts (objsAt area.length area).1) = none := by
  have line : manifestOf (lineOnly.take 104) (lineOnly.drop 104) = some (manifest [⟨5, 8, 12, 1, 0, []⟩] []) := by decide +kernel
  have leaf1 := ckpt_leaves (low := codeLow) (high := 2 ^ 58) (man := lineOnly) ⟨by unfold onlyFirst; decide +kernel,
    by decide +kernel, by decide +kernel, by decide +kernel⟩
  have leaf2 := ckpt_leaves (low := linedLow) (high := descHigh.toNat) (man := lineOnly) ⟨by unfold onlyFirst; decide +kernel,
    by decide +kernel, by decide +kernel, by decide +kernel⟩
  refine ⟨⟨_, unasked (ckptState codeLow (2 ^ 58) lineOnly), askQ 0x0F (words [1, 2 ^ 30, 2 ^ 56 - 4096, 4096]), manifest [⟨5, 8, 12, 1, 0, []⟩] [],
      ckpt_restores codeLow (2 ^ 58) lineOnly (2 ^ 56 - 4096) 4096 (by decide)
      (by decide +kernel), found_of line (by decide +kernel), by decide +kernel⟩,
    ⟨_, unasked (ckptState codeLow (2 ^ 58) lineOnly), askQ 0x0F (words [1, 2 ^ 30, 0, 0]), manifest [⟨5, 8, 12, 1, 0, []⟩] [], [],
      ckpt_restores codeLow (2 ^ 58) lineOnly 0 0 (by decide) (by decide +kernel),
      found_of line (by decide +kernel), by decide +kernel, ?_⟩,
    ⟨_, unasked (ckptState linedLow descHigh.toNat lineOnly), askQ 0x0F (words [1, 2 ^ 30, 0, 0]), manifest [⟨5, 8, 12, 1, 0, []⟩] [], [],
      ckpt_restores linedLow descHigh.toNat lineOnly 0 0 (by decide) (by decide +kernel),
      found_of line (by decide +kernel), by decide +kernel, ?_, by decide +kernel⟩⟩
  · obtain ⟨a, b, h⟩ := leaf1
    rw [show (manifest [⟨5, 8, 12, 1, 0, []⟩] []).lines = [⟨5, 8, 12, 1, 0, []⟩] from rfl, List.all_cons, lineFits, h]
    simp [codeLow, show dKind 0x40000743#64 = 2 by decide +kernel, show dKind 0x800006C3#64 = 1 by decide +kernel, kLined]
  · obtain ⟨a, b, h⟩ := leaf2
    rw [show (manifest [⟨5, 8, 12, 1, 0, []⟩] []).lines = [⟨5, 8, 12, 1, 0, []⟩] from rfl, List.all_cons, lineFits, h]
    simp [linedLow, show dKind 0x40000643#64 = 0 by decide +kernel, show dKind 0x800006C3#64 = 1 by decide +kernel, kLined]
    decide +kernel

/-- A manifest without lines, of a packet that is accepted. -/
theorem wit_OtherRequests_restored : ∃ s u q k area image, restores s u q ∧ findManifest u 1 (bodyWord q 1) = some k ∧
    readTable u 1 (bodyWord q 2) (bodyWord q 3) = some area ∧ k.lines.all (lineFits u 1) = true ∧
    k.lines.mapM (lineParts (objsAt area.length area).1) = some [] ∧ k.pages = [] ∧
    packetChecks u none (packetFor 1 k.packet) = .ok image := by
  obtain ⟨a, b, leaf⟩ := ckpt_leaves (low := codeLow) (high := 2 ^ 58) (man := whole) ⟨by unfold onlyFirst; decide +kernel,
    by decide +kernel, by decide +kernel, by decide +kernel⟩
  have h1 : readImage (unasked (ckptState codeLow (2 ^ 58) whole)) codePacket = some codeImage := by decide +kernel
  have h2 : formatBad (unasked (ckptState codeLow (2 ^ 58) whole)) codePacket = false := by
    unfold formatBad
    rw [show pkComp codePacket = 1 by decide +kernel, leaf]
    simp [codeLow, show dKind 0x40000743#64 = 2 by decide +kernel, show dKind 0x800006C3#64 = 1 by decide +kernel, kLined]
  have h3 : passes (packetChecks (unasked (ckptState codeLow (2 ^ 58) whole)) none codePacket) = true := by
    unfold packetChecks
    simp only [h1, h2]
    decide +kernel
  obtain ⟨image, h4⟩ := passes_ok h3
  have found : findManifest (unasked (ckptState codeLow (2 ^ 58) whole)) 1 (bodyWord (askQ 0x0F (words [1, 2 ^ 30, 0, 0])) 1) =
      some (manifest [] codePacket) := by decide +kernel
  exact ⟨_, unasked (ckptState codeLow (2 ^ 58) whole), askQ 0x0F (words [1, 2 ^ 30, 0, 0]), manifest [] codePacket, [], image, ckpt_restores codeLow (2 ^ 58) whole 0 0 (by decide) (by decide +kernel),
    found, by decide +kernel, rfl, rfl, rfl, by rw [show packetFor 1 (manifest [] codePacket).packet = codePacket by decide +kernel]; exact h4⟩

/-- The event of a slot write. -/
def slotEv (key : Nat) (w : BitVec 512) (s : State) : State := { s with ev := { a := key, body := natBytes w.toNat 64 } }
def noBoards (s : State) : State := { s with tm := { s.tm with boards := [] } }

theorem wit_LaunchesBeginAndEnd :
    (∃ (s : State) (q : Request) (rest : List Request), s.ho.requests = q :: rest ∧ s.ms.holds = [] ∧
      s.tm.launches.length + s.tm.heldLogs.length < 65535 ∧
      ∃ image, packetChecks { s with ho := { s.ho with requests := rest } } q.own
        (packetBytes { s with ho := { s.ho with requests := rest } } q) = .ok image) ∧
    (∃ (s : State) (q : Request) (rest : List Request) (st sub : Nat), s.ho.requests = q :: rest ∧ s.ms.holds = [] ∧
      packetChecks { s with ho := { s.ho with requests := rest } } q.own
        (packetBytes { s with ho := { s.ho with requests := rest } } q) = .error (st, sub)) ∧
    (∃ (s : State) (l : Launch), let w : BitVec 512 := BitVec.ofNat 512 (bytesNat s.ev.body)
      tget s.tm.boards s.ev.a = none ∧ bV w = true ∧ bSwap w = false ∧ tget s.tm.launches (bLid w) = some l) ∧
    (∃ (s : State) (b : BitVec 512), tget s.tm.boards s.ev.a = some b ∧ bV b = true ∧ BitVec.ofNat 512 (bytesNat s.ev.body) = 0) ∧
    (∀ ready, ∃ (s : State) (l : Launch), tget s.tm.launches s.ev.a = some l ∧ l.lid = s.ev.a ∧ completionReady s l = ready ∧
      s.ms.holds = []) ∧
    (∃ s : State, s.rt.zitrum = false ∧ s.cr.calls = []) ∧
    (∃ (s : State) (l : Launch), s.rt.zitrum = true ∧ tget s.tm.launches s.ev.a = some l ∧ l.down = none ∧ boardsOf s s.ev.a = []) ∧
    ∀ n ∈ [16383, 16384], ∀ zitrum : Bool, ∃ (s : State) (since : Nat), (tget s.tm.launches s.ev.a).bind (·.down) = some since ∧
      s.cycle = since + n ∧ s.rt.zitrum = zitrum := by
  refine ⟨⟨asked 1 codePacket codeState, _, [], rfl, rfl, by decide, codeState_ok⟩,
    ⟨asked 1 [] b0, _, [], 1, 1, rfl, rfl, rfl⟩,
    ⟨slotEv 1 loneSlot (noBoards (withLau (lau 0) b0)), lau 0, by decide +kernel⟩,
    ⟨{ b0 with ev := {} }, loneSlot, by decide +kernel⟩, fun ready => ?_,
    ⟨rotWith (fun r => { r with zitrum := false }) b0, rfl, rfl⟩, ⟨noBoards (withLau (lau 0) b0), lau 0, by decide +kernel⟩,
    fun n h zitrum => ⟨rotWith (fun r => { r with zitrum := zitrum }) { withLau { lau 0 with down := some 1 } b0 with cycle := 1 + n }, 1, rfl, rfl, rfl⟩⟩
  cases ready
  · exact ⟨withLau (lau 0) b0, lau 0, by decide +kernel⟩
  · exact ⟨noBoards (withLau (lau 0) b0), lau 0, by decide +kernel⟩

/-! ### Swaps, boundaries and Setts -/

/-- A context that runs and can stop or not, without a call; one whose call has begun or not; one that does not run; a team
at rest; and one with a slot again, with Zitrum and without. -/
theorem wit_SwapsKeepTeams :
    (∀ can : Bool, ∃ s : State, (s.ctx s.ev.a).run = .running ∧ canStop (s.ctx s.ev.a) s.cycle = can ∧
      ∀ k, tget s.cr.calls (coreOf s.ev.a) = some k → k.ctx ≠ s.ev.a) ∧
    (∃ s : State, (s.ctx s.ev.a).run ≠ .running) ∧
    (∀ begun : Bool, ∃ (s : State) (k : Call), tget s.cr.calls (coreOf s.ev.a) = some k ∧ k.ctx = s.ev.a ∧
      (s.ctx s.ev.a).run = .running ∧ k.begun = begun) ∧
    (∃ (s : State) (b : BitVec 512), tget s.tm.boards s.ev.a = some b ∧ bV b = true ∧ swapReady s s.ev.a b = true) ∧
    ∀ zitrum : Bool, ∃ (s : State) (w : BitVec 512) (v : Saved) (c : Nat) (x : Ctx), tget s.tm.placing s.ev.a = some w ∧
      s.rt.zitrum = zitrum ∧ s.tm.swaps.find? (fun v => v.lid == bLid w && v.team == bTeam w) = some v ∧
      membersOf s.ev.a w = [c] ∧ v.ctxs = [(c, x)] ∧ x.run = .preempted ∧ x.pulled = [] ∧ x.pulledPops = [] := by
  refine ⟨fun can => ?_, ⟨State.reset, by decide +kernel⟩, fun begun => ?_, ?_, fun zitrum => ?_⟩
  · cases can
    · exact ⟨onCtx fun x => { x with shadow := some ⟨2, 7⟩ }, by decide +kernel, by decide +kernel, fun _ h => nomatch h⟩
    · exact ⟨onCtx fun x => { x with shadow := some ⟨2, 7⟩, blocked := .tbar }, by decide +kernel, by decide +kernel,
        fun _ h => nomatch h⟩
  · exact ⟨calling (call0 1 2 begun false), call0 1 2 begun false, by cases begun <;> decide +kernel, rfl, by cases begun <;> decide +kernel, rfl⟩
  · exact ⟨let s := onCtx fun x => { x with run := .preempted }
      { s with tm := { s.tm with leaving := [0] } }, loneSlot, by decide +kernel⟩
  · exact ⟨rotWith (fun r => { r with zitrum := zitrum }) { noBoards b0 with tm := { b0.tm with
        boards := [], placing := [(0, loneSlot)], swaps := [⟨0, 0, 5, loneSlot, [(0, { run := .preempted })], [], [], [], [], [], [], []⟩] } },
      loneSlot, ⟨0, 0, 5, loneSlot, [(0, { run := .preempted })], [], [], [], [], [], [], []⟩, 0, { run := .preempted }, rfl, rfl,
      by cases zitrum <;> decide +kernel⟩

/-- The gains of two items at table address 0, on an ATOMIC page of 1 GiB. -/
def gainMem : Memory :=
  wrBytes 0x10000 (natBytes 0x12001 8) (wrBytes 0x12000 (natBytes 0x14001 8)
    (wrBytes 0x14000 (natBytes 0x400006C3 8 ++ natBytes (2 ^ 58) 8) (wrBytes 0x40000000 (words [5, 2 ^ 64 - 1]) [])))
def gainState (l : Launch) : State :=
  { b0 with
    tt := { b0.tt with comps := [(1, { comp1 with root := 0x10000 })] }
    ms := { b0.ms with mem := gainMem }
    tm := { b0.tm with launches := [(0, l)] } }

def taken2 : Except Nat (List (Nat × Nat)) → Bool
  | .ok _ => true
  | .error _ => false

theorem taken2_ok {r : Except Nat (List (Nat × Nat))} (h : taken2 r = true) : ∃ ps, r = .ok ps := by
  cases r with
  | ok ps => exact ⟨ps, rfl⟩
  | error _ => simp [taken2] at h

/-- A launch of a deterministic mode whose step has written page 16. -/
def undoable : Launch := { lau 1 with aband := some 0x18, abandons := 6, journal := [(16, List.replicate 4096 7)] }

theorem wit_BoundariesAndSetts :
    (∃ (s : State) (l : Launch), tget s.tm.launches s.ev.a = some l ∧ l.filled = false ∧ s.ms.holds = [] ∧ l.nitems = 2 ∧
      ∃ ps, taskPieces s l.ranges l.comp false [kAtomic, kConst] (cutRange (l.word 7) (8 * l.nitems)) = .ok ps) ∧
    (∃ (s : State) (l : Launch) (st : Sett) (w : PopWait) (i : Nat) (x : Item), s.ev.b ≠ 1 ∧ tget s.tm.setts s.ev.a = some st ∧
      tget s.tm.launches (s.ev.a / 16) = some l ∧ l.endCode = 0 ∧ modeDet l.mode = false ∧
      replaying s (s.ev.a / 16) (s.ev.a % 16) = false ∧ st.lid = s.ev.a / 16 ∧ st.waits = [w] ∧ popTakes l.floor st.items i x) ∧
    (∃ (s : State) (tr : Transit) (r : Sett) (i : Nat) (x : Item), s.tm.transits.find? (fun t => t.lid == s.ev.a) = some tr ∧
      tget s.tm.setts (settKey s.ev.a tr.receiver) = some r ∧ tr.items = [(i, x)]) ∧
    (∃ (s : State) (k : Nat) (b : BitVec 256), s.tt.clsNext = [(k, b)]) ∧ (∃ s : State, s.tt.clsNext = []) ∧
    (∀ ready, ∃ (s : State) (l : Launch), tget s.tm.launches s.ev.a = some l ∧ l.lid = s.ev.a ∧ stepReady s l = ready ∧
      s.ho.waiting = [] ∧ s.ms.holds = []) ∧
    (∃ (s : State) (l : Launch), tget s.tm.launches s.ev.a = some l ∧ l.lid = s.ev.a ∧ s.ev.c = 1 ∧ s.rt.zitrum = true ∧ mayRun l = true ∧
      modeDet l.mode = true) ∧
    ∃ (s : State) (l : Launch) (page : Nat) (bs : List Byte), tget s.tm.launches s.ev.a = some l ∧ l.lid = s.ev.a ∧ s.ev.c = 2 ∧
      abandReady s l s.ev.b = true ∧ l.abandons < 7 ∧ l.noUndo = false ∧ l.journal = [(page, bs)] ∧ bs.length = 4096 ∧
      s.ms.failPorts = [] ∧ memoriesOk s = true := by
  refine ⟨⟨gainState { gainLau 0 with filled := false, ranges := [wide] }, { gainLau 0 with filled := false, ranges := [wide] },
      rfl, rfl, rfl, by decide +kernel, taken2_ok (by decide +kernel)⟩,
    ⟨let s := gain 0 twoItems b0
     { s with tm := { s.tm with setts := [(0, ⟨0, twoItems, [⟨0, none, false⟩]⟩)] } }, gainLau 0, ⟨0, twoItems, [⟨0, none, false⟩]⟩,
      ⟨0, none, false⟩, 0, ⟨5, 1, none, false⟩, by decide +kernel, rfl, rfl, rfl, rfl, by decide +kernel, rfl, rfl,
      ⟨by decide +kernel, by decide +kernel, by decide +kernel, by decide +kernel⟩⟩,
    ⟨let s := gain 0 twoItems b0
     { s with tm := { s.tm with transits := [⟨0, 1, 0, [(7, ⟨9, 1, none, true⟩)]⟩] } }, ⟨0, 1, 0, [(7, ⟨9, 1, none, true⟩)]⟩,
      sett twoItems, 7, ⟨9, 1, none, true⟩, by decide +kernel⟩,
    ⟨{ b0 with tt := { b0.tt with clsNext := [(1, 2 ^ 160 - 1)] } }, 1, 2 ^ 160 - 1, rfl⟩, ⟨b0, rfl⟩, fun ready => ?_,
    ⟨{ withLau (lau 1) b0 with ev := { c := 1 } }, lau 1, by decide +kernel⟩,
    ⟨{ withLau undoable (onCtx fun x => { x with run := .stopped }) with ev := { b := 0x18, c := 2 } }, undoable, 16,
      List.replicate 4096 7, rfl, rfl, rfl, by decide +kernel, by decide, rfl, rfl, List.length_replicate .., rfl, by decide +kernel⟩⟩
  cases ready
  · exact ⟨withLau (lau 1) b0, lau 1, by decide +kernel⟩
  · exact ⟨withLau (lau 1) (onCtx fun x => { x with atStep := true, blocked := .stepb }), lau 1, by decide +kernel⟩

/-! ### Words, steps and the whole machine -/

theorem wit_EncodeAndDecodeAgree : (∃ (i : Instr) (w : BitVec 24), i.wf = true ∧ encode i = some w) ∧
    (∃ (w : BitVec 24) (i : Instr), decodeMove w = .ok i) ∧ ∃ i : Instr, (moveOf i).isSome = true :=
  ⟨⟨.vsTbl ⟨7, 0x1FF, true⟩, _, by decide, rfl⟩, ⟨0x1807FE, _, rfl⟩, ⟨.sysYield im, rfl⟩⟩

/-- Whether a step goes on. -/
def goes : Host.Outcome State Fault Refusal → Bool
  | .next _ => true
  | .fault _ => false
  | .refused _ => false

theorem goes_next {o : Host.Outcome State Fault Refusal} (h : goes o = true) : ∃ t, o = .next t := by
  cases o with
  | next t => exact ⟨t, rfl⟩
  | fault _ => simp [goes] at h
  | refused _ => simp [goes] at h

/-- b0 with a bundle at 0. -/
def bundled (b : BitVec 256) : State := { b0 with cr := { b0.cr with istore := [(0, b)] } }
/-- The bundle of `#1 -> ia0.add` alone. -/
def addBundle : BitVec 256 :=
  0x1807FE1807FE1807FE1807FE1807FE1807FE1807FE180C10
def turnReady (s : State) : Prop :=
  s.inputs = [] ∧ s.powered = true ∧ beforeIssue s = none ∧ turnDue s = some 0 ∧ limitReached s 0 = false ∧
    (s.ctx 0).reissue = none ∧ downDue s 0 = none ∧ (s.ctx 0).pendTrap = none ∧ s.cr.failBundle.contains (fetchKey s 0) = false

theorem wit_StepsRunBundles :
    (∀ p, ∃ (s : State) (e : Event) (rest : List Event), s.inputs = e :: rest ∧ moveOf e.row = none ∧ s.powered = p ∧
      (s.powered = true ∨ e.row = .powerUp) ∧ waitsBehind s e = false) ∧
    (∃ (s : State) (b : BitVec 256) (k : Nat) (i : Instr), turnReady s ∧ fetch s 0 = some b ∧ bundleTrap b = none ∧
      usedSlots b = [k] ∧ decodeMove (slotOf b k) = .ok i ∧ portRow i = i ∧ (∀ m, i ≠ .mmB4 m) ∧ ∀ m, i ≠ .sysSvcReport m) ∧
    (∃ (s : State) (b : BitVec 256) (j k : Nat) (rest : List Nat), turnReady s ∧ fetch s 0 = some b ∧ usedSlots b = j :: k :: rest) ∧
    (∀ trap, ∃ (s : State) (b : BitVec 256), (s.ctx s.ev.a).run = .running ∧ (s.ctx s.ev.a).notBefore ≤ s.cycle ∧
      downDue s s.ev.a = none ∧ (s.ctx s.ev.a).pendTrap = none ∧ s.cr.failBundle.contains (fetchKey s s.ev.a) = false ∧
      fetch s s.ev.a = some b ∧ (bundleTrap b).isSome = trap) ∧
    ∃ s : State, s.inputs = [] ∧ s.powered = true ∧ nextTodo s = none := by
  refine ⟨fun p => ?_, ⟨bundled addBundle, addBundle, 0, .iaAdd 0 im, ⟨rfl, rfl, ?_, ?_, ?_, rfl, ?_, rfl, ?_⟩, ?_, ?_, ?_, rfl, rfl,
      (fun _ h => nomatch h), (fun _ h => nomatch h)⟩,
    ⟨bundled 0, 0, 0, 1, [2, 3, 4, 5, 6, 7], ⟨rfl, rfl, ?_, ?_, ?_, rfl, ?_, rfl, ?_⟩, ?_, ?_⟩,
    fun trap => ⟨bundled (if trap then 0x1807FF else addBundle), if trap then 0x1807FF else addBundle, ?_⟩, ⟨State.reset, rfl, rfl, ?_⟩⟩
  · cases p
    · exact ⟨{ State.reset with powered := false, inputs := [⟨.powerUp, {}⟩] }, ⟨.powerUp, {}⟩, [], rfl, rfl, rfl, .inr rfl, rfl⟩
    · exact ⟨{ State.reset with inputs := [⟨.slotPost, {}⟩] }, ⟨.slotPost, {}⟩, [], rfl, rfl, rfl, .inl rfl, rfl⟩
  all_goals first
    | exact Option.isNone_iff_eq_none.1 (by decide +kernel)
    | decide +kernel
    | (cases trap <;> decide +kernel)

theorem wit_MemoriesStayCanonical : ∃ s t : State, memoriesOk s = true ∧ step s = .next t := by
  obtain ⟨t, h⟩ := goes_next (o := step b0) (by decide +kernel)
  exact ⟨b0, t, by decide +kernel, h⟩

theorem wit_FusesOnlyRise : ∃ s t : State, step s = .next t := by
  obtain ⟨t, h⟩ := goes_next (o := step b0) (by decide +kernel)
  exact ⟨b0, t, h⟩

/-! ### Decoding -/

theorem test_decode_queue_head_to_register :
    decodeMove (0b000#3 ++ 0b1110001111#10 ++ 0b0111111111#10 ++ 0b1#1) = .ok (.moveRegister 0x1FF ⟨0, 0x38F, true⟩) := rfl
theorem test_decode_nul : decodeMove (0b000#3 ++ 0b1100000000#10 ++ 0b1111111111#10 ++ 0b0#1) = .ok (.moveNul ⟨0, 0x300, false⟩) := rfl
theorem test_decode_ia : decodeMove (0b000#3 ++ 0b1100000001#10 ++ 0b1000011110#10 ++ 0b0#1) = .ok (.iaClz 0 im) := rfl
theorem test_decode_am : decodeMove (0b000#3 ++ 0b1100000001#10 ++ 0b1001001011#10 ++ 0b0#1) = .ok (.amWrap im) := rfl
/-- The words of the manual's bundle 20 (the table under R318). -/
theorem test_decode_manual_slot0 : decodeMove 0x0224C0 = .ok (.operandPortWrite 0x260 ⟨0, 0x044, false⟩) := rfl
theorem test_decode_manual_slot1 : decodeMove 0x181CC2 = .ok (.operandPortWrite 0x261 ⟨0, 0x303, false⟩) := rfl
theorem test_decode_manual_slot2 : decodeMove 0x1A14D8 = .ok (.brJlt ⟨0, 0x342, false⟩) := rfl
theorem test_decode_ls : decodeMove (0b000#3 ++ 0b1100000001#10 ++ 0b1010010010#10 ++ 0b0#1) = .ok (.lsSt64 0 im) := rfl
theorem test_decode_vx : decodeMove (0b000#3 ++ 0b1100000001#10 ++ 0b1011101010#10 ++ 0b0#1) = .ok (.vxDot4 im) := rfl
theorem test_decode_vs : decodeMove (0b000#3 ++ 0b1100000001#10 ++ 0b1100100101#10 ++ 0b0#1) = .ok (.vsRev im) := rfl
theorem test_decode_mx : decodeMove (0b000#3 ++ 0b1100000001#10 ++ 0b1101010011#10 ++ 0b0#1) = .ok (.mxNorm im) := rfl
theorem test_decode_ec : decodeMove (0b000#3 ++ 0b1100000001#10 ++ 0b1101110110#10 ++ 0b0#1) = .ok (.ecFill im) := rfl
theorem test_decode_sy : decodeMove (0b000#3 ++ 0b1100000001#10 ++ 0b1110010101#10 ++ 0b0#1) = .ok (.syTbar im) := rfl
theorem test_decode_sys : decodeMove (0b000#3 ++ 0b1100000001#10 ++ 0b1110101100#10 ++ 0b0#1) = .ok (.sysWvwv im) := rfl

/-- The 32 bytes of the manual's bundle 20, from byte 0. -/
def bundle20 : List Byte :=
  [0xC0, 0x24, 0x02, 0xC2, 0x1C, 0x18, 0xD8, 0x14, 0x1A, 0xFE, 0x07, 0x18, 0xFE, 0x07, 0x18, 0xFE, 0x07, 0x18, 0xFE, 0x07, 0x18, 0xFE,
    0x07, 0x18, 0x0A, 0, 0, 0, 0, 0, 0, 0]
def bundle20Word : BitVec 256 := (imageBundles { lau 0 with image := List.replicate 6 0 ++ [1, 0] ++ List.replicate 120 0 ++ bundle20 })[0]?.getD 0

theorem test_bundle20_slots : (List.range 3).map (slotOf bundle20Word) = [0x0224C0, 0x181CC2, 0x1A14D8] ∧
    usedSlots bundle20Word = [0, 1, 2] ∧ limmOf bundle20Word = 10 := by decide +kernel

/-! ### Steps, with results from the manual's tables -/

/-- The value that the one result of a bundle brings to a port. -/
def resultOf (i : Instr) (s : State) : Option W64 :=
  match exec i s with
  | .next t => (match (t.ctx 0).flights with
    | [⟨_, _, .port _ v :: _⟩] => some (toW v)
    | _ => none)
  | .fault _ => none
  | .refused _ => none

/-- b0 with a value at the head of queue 0, and `.a` and `.b` of a unit. -/
def ab (block : Nat) (a b v : W64) : State := atQ v [(block, a.setWidth 2048), (block + 1, b.setWidth 2048)]

theorem test_shl_63 : resultOf (.iaShl 0 qm) (ab 0x200 1 0 63) = some 0x8000000000000000 := by decide +kernel
theorem test_shl_64 : resultOf (.iaShl 0 qm) (ab 0x200 1 0 64) = some 0 := by decide +kernel
theorem test_sar_70 : resultOf (.iaSar 1 qm) (ab 0x220 0x8000000000000000 0 70) = some 0xFFFFFFFFFFFFFFFF := by decide +kernel
theorem test_rotl_minus_one : resultOf (.iaRotl 0 qm) (ab 0x200 1 0 (-1)) = some 0x8000000000000000 := by decide +kernel
theorem test_ext_8 : resultOf (.iaExt 0 qm) (ab 0x200 0xABCD 4 8) = some 0xBC := by decide +kernel
theorem test_ext_past_63 : resultOf (.iaExt 0 qm) (ab 0x200 0xABCD 60 8) = some 0 := by decide +kernel
theorem test_clz_zero : resultOf (.iaClz 0 qm) (ab 0x200 0 0 0) = some 64 := by decide +kernel
theorem test_lt_zero_extended : resultOf (.iaLt 0 qm) (ab 0x200 0xFFFFFFFF 0 3) = some 0 := by decide +kernel
theorem test_lt_minus_one : resultOf (.iaLt 0 qm) (ab 0x200 0xFFFFFFFFFFFFFFFF 0 3) = some 1 := by decide +kernel
theorem test_ltu_largest : resultOf (.iaLtu 0 qm) (ab 0x200 0xFFFFFFFFFFFFFFFF 0 3) = some 0 := by decide +kernel
theorem test_wrap_16 : resultOf (.amWrap qm) (ab 0x240 14 16 5) = some 3 := by decide +kernel
theorem test_wrap_0 : resultOf (.amWrap qm) (ab 0x240 14 0 5) = some 19 := by decide +kernel
theorem test_wrap_large_a : resultOf (.amWrap qm) (ab 0x240 40 16 0) = some 8 := by decide +kernel

/-- Both halves of a product. -/
def halves (i : Instr) (s : State) : Option (W64 × W64) :=
  match exec i s with
  | .next t => (match (t.ctx 0).flights with
    | [⟨_, _, .port 0x220 v :: .port 0x221 h :: _⟩] => some (toW v, toW h)
    | _ => none)
  | .fault _ => none
  | .refused _ => none

theorem test_mulu_halves : halves (.amMulu qm) (ab 0x240 0xFFFFFFFFFFFFFFFF 0 2) = some (0xFFFFFFFFFFFFFFFE, 1) := by decide +kernel
theorem test_mul_halves : halves (.amMul qm) (ab 0x240 0xFFFFFFFFFFFFFFFF 0 2) = some (0xFFFFFFFFFFFFFFFE, 0xFFFFFFFFFFFFFFFF) := by
  decide +kernel

/-- What the context holds after a step. -/
def afterStep (i : Instr) (s : State) : Ctx :=
  match exec i s with
  | .next t => t.ctx 0
  | .fault _ => {}
  | .refused _ => {}

/-- Bundle 20's branch: −1 < 3 is taken to 30, and 4,294,967,295 < 3 is not, with the shadow of 2 either way. -/
theorem test_jlt_taken : (afterStep (.brJlt qm) (let s := ab 0x260 0xFFFFFFFFFFFFFFFF 3 30
    { s with ctxs := [(0, { s.ctx 0 with pc := 20 })] })).shadow = some ⟨2, 30⟩ := by decide +kernel
theorem test_jlt_not_taken : (afterStep (.brJlt qm) (let s := ab 0x260 0xFFFFFFFF 3 30
    { s with ctxs := [(0, { s.ctx 0 with pc := 20 })] })).shadow = some ⟨2, 23⟩ := by decide +kernel
/-- The call in bundle 30: the link is 34, and the shadow 3. -/
theorem test_call_link : resultOf (.brCall qm) (let s := ab 0x260 0 0 50
    { s with ctxs := [(0, { s.ctx 0 with pc := 30 })] }) = some 34 := by decide +kernel
/-- A store of four bytes is little-endian (R6). -/
theorem test_st32_bytes : (match exec (.lsSt32 0 qm) (ab 0x280 0x44332211 0 (ownVa 0xFFC)) with
    | .next t => t.ms.spad
    | .fault _ => []
    | .refused _ => []) = [(0xFFC, 0x11), (0xFFD, 0x22), (0xFFE, 0x33), (0xFFF, 0x44)] := by decide +kernel
/-- The largest unsigned byte of `ld8s` is −1 (R320). -/
theorem test_ld8s_sign : resultOf (.lsLd8s 0 qm) (let s := ab 0x280 0 0 (ownVa 0xFFF)
    { s with ms := { s.ms with spad := [(0xFFF, 0xFF)] } }) = some 0xFFFFFFFFFFFFFFFF := by decide +kernel

end Sys2Proof.Tests
end

section
/-! SUPPORT. The canonical form of the memories is kept by every function of the machine (R6): one rule for each, in the order
of the machine's files, by which the rules of the functions that call it go. The scratchpads count only where `W` holds: while
a saved team or a call in its own view is dealt with, others stand in their place. -/

namespace Sys2Proof.Machine

/-- The canonical form of HBM, of the staging window and, where `W` holds, of the scratchpads. -/
def Canon (W : Prop) (s : State) : Prop :=
  memWf s.ms.mem = true ∧ memWf s.ho.staging = true ∧ (W → memWf s.ms.spad = true)

/-- What holds of the value of an option, if any. -/
def OnSome {α : Type} (P : α → Prop) (o : Option α) : Prop := ∀ a, o = some a → P a

/-- The states that a request leaves are canonical. -/
def CanonCommit (W : Prop) : Commit → Prop
  | .go s => Canon W s
  | .held _ s => Canon W s
  | .trap _ => True
  | .refuse _ s => Canon W s

/-- What an engine's access comes to meets `P`, and a state in which it waits is canonical. -/
def CanonEng {α : Type} (W : Prop) (P : α → Prop) : Eng α → Prop
  | .ok v => P v
  | .fail _ => True
  | .wait s => Canon W s

/-- The state of an answer of a service is canonical. -/
def CanonSvc (W : Prop) : Svc → Prop
  | .answer _ s => Canon W s
  | .demand _ _ => True
  | .wait => True

/-- What is to be done starts from a canonical state. -/
def CanonTodo (W : Prop) (t : Todo) : Prop := Canon W t.st

/-- The next state of an outcome, if any, is canonical. -/
def CanonOut (W : Prop) (o : Host.Outcome State Fault Refusal) : Prop := ∀ t, o = .next t → Canon W t

section
variable {W : Prop} {s : State} {α β : Type} {P : α → Prop} {Q : β → Prop}

theorem canon_ite {c : Prop} [Decidable c] {a b : State} (ha : Canon W a) (hb : Canon W b) :
    Canon W (if c then a else b) := by
  split
  · exact ha
  · exact hb

theorem canon_foldl {f : State → α → State} (l : List α) (h : Canon W s) (hf : ∀ t a, Canon W t → Canon W (f t a)) :
    Canon W (l.foldl f s) :=
  List.foldlRecOn l f h fun t ht a _ => hf t a ht

theorem onSome_none : OnSome P none := nofun

theorem onSome_some {a : α} (h : P a) : OnSome P (some a) := by
  rintro _ ⟨⟩
  exact h

theorem onSome_ite {c : Prop} [Decidable c] {a b : Option α} (ha : OnSome P a) (hb : OnSome P b) :
    OnSome P (if c then a else b) := by
  split
  · exact ha
  · exact hb

theorem onSome_map {o : Option α} {f : α → β} (h : OnSome P o) (hf : ∀ a, P a → Q (f a)) : OnSome Q (o.map f) := by
  intro b hb
  obtain ⟨a, ha, rfl⟩ := Option.map_eq_some_iff.mp hb
  exact hf a (h a ha)

theorem onSome_bind {o : Option α} {f : α → Option β} (h : OnSome P o) (hf : ∀ a, P a → OnSome Q (f a)) :
    OnSome Q (o.bind f) := by
  intro b hb
  obtain ⟨a, ha, hfa⟩ := Option.bind_eq_some_iff.mp hb
  exact hf a (h a ha) b hfa

theorem onSome_map_of_forall {o : Option α} {f : α → β} (hf : ∀ a, Q (f a)) : OnSome Q (o.map f) :=
  onSome_map (P := fun _ => True) (fun _ _ => trivial) fun a _ => hf a

theorem onSome_bind_of_forall {o : Option α} {f : α → Option β} (hf : ∀ a, OnSome Q (f a)) : OnSome Q (o.bind f) :=
  onSome_bind (P := fun _ => True) (fun _ _ => trivial) fun a _ => hf a

theorem onSome_orElse {a b : Option α} (ha : OnSome P a) (hb : OnSome P b) : OnSome P (a <|> b) := by
  cases a with
  | none => simpa using hb
  | some x => simpa using ha

theorem onSome_findSome {f : β → Option α} (l : List β) (hf : ∀ b, OnSome P (f b)) : OnSome P (l.findSome? f) := by
  intro a ha
  obtain ⟨b, _, hb⟩ := List.exists_of_findSome?_eq_some ha
  exact hf b a hb

theorem onSome_getD {o : Option α} {d : α} (h : OnSome P o) (hd : P d) : P (o.getD d) := by
  cases o with
  | none => exact hd
  | some a => exact h a rfl

theorem onSome_foldl {f : Option α → β → Option α} {o : Option α} (l : List β) (h : OnSome P o)
    (hf : ∀ t a, OnSome P t → OnSome P (f t a)) : OnSome P (l.foldl f o) :=
  List.foldlRecOn l f h fun t ht a _ => hf t a ht

theorem CanonCommit.go {o : Commit} (h : CanonCommit W o) (e : o = .go s) : Canon W s := by
  subst e
  exact h

theorem CanonCommit.held {o : Commit} {b : Wait} (h : CanonCommit W o) (e : o = .held b s) : Canon W s := by
  subst e
  exact h

theorem CanonCommit.refuse {o : Commit} {t : Trap} (h : CanonCommit W o) (e : o = .refuse t s) : Canon W s := by
  subst e
  exact h

theorem CanonEng.ok {o : Eng α} {a : α} (h : CanonEng W P o) (e : o = .ok a) : P a := by
  subst e
  exact h

theorem CanonEng.wait {o : Eng α} (h : CanonEng W P o) (e : o = .wait s) : Canon W s := by
  subst e
  exact h

theorem CanonSvc.answer {o : Svc} {v : W64} (h : CanonSvc W o) (e : o = .answer v s) : Canon W s := by
  subst e
  exact h

theorem canon_of_fst {q : State × α} {a : α} (h : Canon W q.1) (e : q = (s, a)) : Canon W s := by
  subst e
  exact h

theorem canon_of_snd {q : α × State} {a : α} (h : Canon W q.2) (e : q = (a, s)) : Canon W s := by
  subst e
  exact h

theorem canonOut_fault {f : Fault} : CanonOut W (.fault f) := by
  intro t h
  cases h

theorem canonOut_next (h : Canon W s) : CanonOut W (.next s) := by
  rintro _ ⟨⟩
  exact h

end

end Sys2Proof.Machine
end

section
/-! SUPPORT. The rules of the machine's functions. -/

namespace Sys2Proof.Machine

section
-- One proof after another: as many at once as this section holds would each take a thread's stack.
set_option Elab.async false
variable {W : Prop} {s : State}

/-! What stands elsewhere in the state bears on no memory. -/

theorem canon_withRt {r : Rot} (hs : Canon W s) : Canon W { s with rt := r } := hs

theorem canon_withTt {t : Table} (hs : Canon W s) : Canon W { s with tt := t } := hs

theorem canon_withMem {m} (hs : Canon W s) (hm : memWf m = true) : Canon W { s with ms := { s.ms with mem := m } } :=
  ⟨hm, hs.2⟩

theorem canon_withSpad {m} (hs : Canon W s) : Canon False { s with ms := { s.ms with spad := m } } :=
  ⟨hs.1, hs.2.1, nofun⟩

theorem canon_withStaging {m} (hs : Canon W s) (hm : memWf m = true) :
    Canon W { s with ho := { s.ho with staging := m } } :=
  ⟨hs.1, hm, hs.2.2⟩

theorem canon_withWaiting {l} (hs : Canon W s) : Canon W { s with ho := { s.ho with waiting := l } } := hs

/-! ### Machine/Ops -/

theorem canon_setCtx {c x} (hs : Canon W s) : Canon W (s.setCtx c x) := hs

theorem canon_bindCtx {c x} (hs : Canon W s) : Canon W (s.bindCtx c x) := canon_setCtx hs

theorem canon_modCtx {c f} (hs : Canon W s) : Canon W (s.modCtx c f) := canon_setCtx hs

theorem canon_setCore {k x} (hs : Canon W s) : Canon W (s.setCore k x) := hs

theorem canon_modLaunch {lid f} (hs : Canon W s) : Canon W (s.modLaunch lid f) := by
  unfold State.modLaunch
  split
  all_goals exact hs

theorem canon_delay (hs : Canon W s) : Canon W s.delay.2 := by
  unfold State.delay
  split
  all_goals exact hs

theorem canon_pick (hs : Canon W s) : Canon W s.pick.2 := by
  unfold State.pick
  split
  all_goals exact hs

theorem canon_after {cyc early row arg} (hs : Canon W s) : Canon W (s.after cyc early row arg) := hs

theorem canon_cancel {row a} (hs : Canon W s) : Canon W (s.cancel row a) := hs

theorem canon_fresh (hs : Canon W s) : Canon W s.fresh.2 := hs

theorem canon_freeVal (hs : Canon W s) : Canon W s.freeVal.2 := hs

theorem canon_fly {c f} (hs : Canon W s) : Canon W (s.fly c f) := canon_modCtx hs

theorem canon_bump {c evt n} (hs : Canon W s) : Canon W (s.bump c evt n) := canon_modCtx hs

theorem canon_noteHeld {c} (hs : Canon W s) : Canon W (s.noteHeld c) := canon_modCtx hs

theorem canon_askAbandon {lid why} (hs : Canon W s) : Canon W (s.askAbandon lid why) := canon_after hs

theorem canon_fatal {c t} (hs : Canon W s) : Canon W (s.fatal c t) := canon_after (canon_modLaunch hs)

theorem canon_takeTrap {c t} (hs : Canon W s) : Canon W (takeTrap c t s) :=
  canon_ite (canon_askAbandon (canon_setCtx hs)) (canon_ite (canon_fatal (canon_bump (canon_setCtx hs)))
    (canon_bump (canon_setCtx hs)))

theorem canon_sendMsix {vector} (hs : Canon W s) : Canon W (sendMsix s vector) := canon_ite hs hs

theorem canon_postNotice {kind subject word1} (hs : Canon W s) : Canon W (postNotice s kind subject word1) :=
  canon_sendMsix hs

/-! ### Machine/Budget -/

theorem canon_lendUnits {die k res site n} (hs : Canon W s) : Canon W (lendUnits s die k res site n) := hs

theorem canon_noteLent {die cls res site n} (hs : Canon W s) : Canon W (noteLent die cls res site n s) :=
  canon_foldl _ hs fun _ _ ht => canon_lendUnits ht

theorem canon_spend {die cls res site n} (hs : Canon W s) : Canon W (spend s die cls res site n) := hs

theorem canon_takeUnits {die cls res site n} (hs : Canon W s) : Canon W (takeUnits s die cls res site n) :=
  canon_noteLent (canon_ite hs (canon_spend hs))

theorem canon_charge {die cls res site n} (hs : Canon W s) : Canon W (charge s die cls res site n) :=
  canon_ite (canon_noteLent hs) (canon_spend hs)

theorem canon_chargeAll {die cls l} (hs : Canon W s) : Canon W (chargeAll s die cls l) :=
  canon_foldl _ hs fun _ _ ht => canon_charge ht

theorem canon_waitFor {die cls who l} (hs : Canon W s) : Canon W (s.waitFor die cls who l) := hs

theorem canon_want {die cls who l} (hs : Canon W s) : Canon W (s.want die cls who l) := canon_waitFor hs

theorem canon_payNeeds {die cls c l} (hs : Canon W s) : Canon W (payNeeds die cls c l s) :=
  canon_foldl _ hs fun _ _ ht => canon_modCtx (canon_takeUnits ht)

theorem canon_holdBlocks {c blocks} (hs : Canon W s) : Canon W (holdBlocks s c blocks) :=
  canon_want (canon_noteHeld (canon_payNeeds hs))

theorem canon_chargeBlocks {c blocks} (hs : Canon W s) : Canon W (chargeBlocks s c blocks) :=
  canon_foldl _ hs fun _ _ ht => canon_takeUnits ht

/-! ### Machine/Issue -/

theorem canon_noteIssue {c} (hs : Canon W s) : Canon W (s.noteIssue c) := canon_setCore hs

theorem canon_holdBundle {c b} (hs : Canon W s) : Canon W (s.holdBundle c b) := canon_modCtx hs

theorem canon_landResult {unit lat port v r} (hs : Canon W s) : Canon W (landResult unit lat port v r s) :=
  canon_fly hs

/-! ### Machine/Trans -/

theorem canon_startWalkBy {d c comp page} (hs : Canon W s) : Canon W (startWalkBy s d c comp page) := by
  unfold startWalkBy
  split
  · exact canon_ite hs (canon_bump hs)
  · exact canon_ite (canon_after (canon_delay (canon_fresh hs))) (canon_fresh hs)

theorem canon_startWalk {c comp page} (hs : Canon W s) : Canon W (startWalk s c comp page) := canon_startWalkBy hs

theorem canon_startDemand {c comp page} (hs : Canon W s) : Canon W (startDemand s c comp page) := canon_ite hs hs

theorem canon_routeHold {c r} (hs : Canon W s) : OnSome (fun q => Canon W q.2) (routeHold s c r) := by
  unfold routeHold
  split
  · exact onSome_some (canon_startWalk hs)
  · exact onSome_some (canon_startDemand hs)
  all_goals exact onSome_none

/-! ### Machine/Lines -/

theorem canon_setLine {key l} (hs : Canon W s) : Canon W (s.setLine key l) := hs

theorem canon_modLog {lid die f} (hs : Canon W s) : Canon W (s.modLog lid die f) := hs

theorem canon_logAppend {lid die kind site entries} (hs : Canon W s) :
    Canon W (logAppend s lid die kind site entries) := canon_modLog hs

theorem canon_replayed {lid die kind site} (hs : Canon W s) : Canon W (replayed s lid die kind site) :=
  canon_modLog hs

theorem canon_logEvent {lid die kind site entries} (hs : Canon W s) :
    Canon W (logEvent s lid die kind site entries) := canon_ite (canon_replayed hs) (canon_logAppend hs)

theorem canon_diverge {lid} (hs : Canon W s) : Canon W (diverge s lid) := canon_after (canon_modLaunch hs)

/-! ### Machine/Mem -/

theorem canon_journalFor {comp lid page} (hs : Canon W s) : Canon W (journalFor s comp lid page) := hs

theorem canon_physPut {a bs} (hs : Canon W s) : Canon W (physPut s a bs) := by
  obtain ⟨hm, hg, hp⟩ := hs
  exact canon_ite ⟨hm, hg, hp⟩ (canon_ite ⟨hm, hg, hp⟩ ⟨memWf_wrBytes _ _ _ hm, hg, hp⟩)

theorem canon_pageWrite {comp lid a bs} (hs : Canon W s) : Canon W (pageWrite s comp lid a bs) :=
  canon_foldl _ hs fun _ _ ht => canon_physPut (canon_journalFor ht)

theorem canon_physWrite {lid a bs} (hs : Canon W s) : Canon W (physWrite s lid a bs) := canon_pageWrite hs

theorem canon_spadPut {a bs} (hs : Canon W s) : Canon W (spadPut s a bs) := by
  obtain ⟨hm, hg, hp⟩ := hs
  exact canon_ite ⟨hm, hg, hp⟩ ⟨hm, hg, fun w => memWf_wrBytes _ _ _ (hp w)⟩

theorem canon_spadWrite {a bs} (hs : Canon W s) : Canon W (spadWrite s a bs) :=
  canon_foldl _ hs fun _ _ ht => canon_spadPut ht

theorem canon_wordWrite {lid p v} (hs : Canon W s) : Canon W (wordWrite s lid p v) := by
  unfold wordWrite
  split
  · exact canon_physWrite hs
  · exact canon_spadWrite hs
  · exact hs

theorem canon_atomPerform {lid op p a b} (hs : Canon W s) : Canon W (atomPerform s lid op p a b).2 := by
  unfold atomPerform
  split
  · exact canon_wordWrite hs
  · split
    · exact canon_wordWrite hs
    · exact hs

theorem canon_seeOwn {mine words} (hs : Canon W s) : Canon W (seeOwn s mine words) := canon_ite hs hs

theorem canon_applyUpd {lid u} (hs : Canon W s) : Canon W (applyUpd s lid u) := by
  unfold applyUpd
  split
  · exact canon_seeOwn (canon_atomPerform hs)
  · exact canon_atomPerform hs
  · exact canon_atomPerform hs

theorem canon_applyUpds {lid l} (hs : Canon W s) : Canon W (applyUpds s lid l) :=
  canon_foldl _ hs fun _ _ ht => canon_applyUpd ht

theorem canon_setBuf {key b} (hs : Canon W s) : Canon W (s.setBuf key b) := hs

theorem canon_drain {key cause} (hs : Canon W s) : Canon W (drain s key cause) := by
  unfold drain
  split
  · exact hs
  · exact canon_ite (canon_applyUpds (canon_setBuf hs)) (canon_logEvent (canon_applyUpds (canon_setBuf hs)))

theorem canon_touch {hit} (hs : Canon W s) : OnSome (Canon W) (touch s hit) := by
  refine onSome_foldl _ (onSome_some hs) fun acc e ho => ?_
  split
  · exact onSome_none
  · split
    · split
      · exact onSome_some (canon_drain (ho _ rfl))
      · exact onSome_some (canon_diverge (canon_drain (ho _ rfl)))
      · exact onSome_none
    · exact ho

theorem canon_leaveWindow {hit} (hs : Canon W s) : Canon W (leaveWindow s hit) :=
  canon_foldl _ hs fun _ _ ht => canon_ite (canon_ite (canon_drain ht) ht) ht

theorem canon_startFallback {key h} (hs : Canon W s) : Canon W (startFallback s key h) :=
  canon_setBuf (canon_applyUpds hs)

theorem canon_closeFallback {key} (hs : Canon W s) : Canon W (closeFallback s key) := by
  unfold closeFallback
  split
  · exact hs
  · split
    · exact hs
    · exact canon_ite (canon_drain hs) hs

theorem canon_logReturn {w p} (hs : Canon W s) : OnSome (Canon W) (logReturn s w p) := by
  unfold logReturn
  split
  · exact onSome_some hs
  · split
    · split
      · exact onSome_ite (onSome_some (canon_setBuf hs)) onSome_none
      · exact onSome_some (canon_closeFallback (canon_setBuf hs))
      · exact onSome_ite onSome_none (onSome_some (canon_closeFallback (canon_setBuf hs)))

theorem canon_holdOwn {w op p v} (hs : Canon W s) : OnSome (Canon W) (holdOwn s w op p v) := by
  unfold holdOwn
  split
  · split
    · exact onSome_ite (onSome_some (canon_setBuf (canon_applyUpds hs)))
        (onSome_ite (onSome_some (canon_setBuf (canon_applyUpds (canon_startFallback hs))))
        (onSome_some (canon_setBuf hs)))
    · exact onSome_ite (onSome_ite (onSome_some (canon_closeFallback (canon_setBuf (canon_applyUpds hs))))
        onSome_none) (onSome_ite (onSome_ite (onSome_ite (onSome_some
        (canon_closeFallback (canon_startFallback (canon_setBuf hs))))
        (onSome_ite (onSome_some (canon_drain (canon_setBuf hs))) (onSome_some (canon_setBuf hs))))
        (onSome_some (canon_setBuf hs))) onSome_none)

theorem canon_holdUpdate {w op p v} (hs : Canon W s) : OnSome (Canon W) (holdUpdate s w op p v) := by
  unfold holdUpdate
  split
  · exact canon_holdOwn hs
  · split
    · exact onSome_none
    · exact canon_holdOwn (canon_drain hs)

theorem canon_drainLaunch {lid cause} (hs : Canon W s) : Canon W (drainLaunch s lid cause) :=
  canon_foldl _ hs fun _ _ ht => canon_ite (canon_ite (canon_diverge (canon_drain ht)) (canon_drain ht)) ht

theorem canon_atomArrive {w op p a b} (hs : Canon W s) : OnSome (fun q => Canon W q.2) (atomArrive s w op p a b) := by
  unfold atomArrive
  split
  · exact onSome_ite (onSome_map (canon_holdUpdate hs) fun _ ht => ht)
      (onSome_map (canon_touch hs) fun _ ht => canon_atomPerform ht)
  · split
    · exact onSome_none
    next heq => exact onSome_map (canon_logReturn (canon_touch hs _ heq)) fun _ hu => canon_atomPerform hu

theorem canon_addAcc {a} (hs : Canon W s) : Canon W (addAcc s a) := canon_fresh hs

theorem canon_startAcc {c num slot wait} (hs : Canon W s) : Canon W (startAcc s c num slot wait) := by
  unfold startAcc
  split
  · exact hs
  · exact canon_after (canon_modCtx (canon_delay hs))

theorem canon_sendAcc {a wait} (hs : Canon W s) : Canon W (sendAcc s a wait) := canon_startAcc (canon_addAcc hs)

theorem canon_accDone {a} (hs : Canon W s) : Canon W (accDone s a) := by
  unfold accDone
  refine canon_modCtx ?_
  split
  · exact canon_seeOwn hs
  all_goals exact hs

theorem canon_accRetry {a row} (hs : Canon W s) : Canon W (accRetry s a row) := canon_after hs

theorem canon_sendValue {c dest v addr loc} (hs : Canon W s) : Canon W (sendValue s c dest v addr loc) :=
  canon_after (canon_delay (canon_fresh hs))

theorem canon_markEmpty {c dest} (hs : Canon W s) : Canon W (markEmpty s c dest) := by
  unfold markEmpty
  split
  · exact hs
  · exact canon_modCtx hs

theorem canon_swapPiece {w p} (hs : Canon W s) : OnSome (Canon W) (swapPiece s w p) := by
  unfold swapPiece
  split
  · exact onSome_none
  next heq => exact onSome_map (canon_logReturn (canon_touch hs _ heq)) fun _ hu => canon_physWrite hu

theorem canon_spadStore {ps} (hs : Canon W s) : OnSome (Canon W) (spadStore s ps) := by
  refine onSome_foldl _ (onSome_some hs) fun acc e ho => ?_
  split
  · exact onSome_none
  · exact onSome_map (canon_touch (ho _ rfl)) fun _ ht => canon_spadPut ht

theorem canon_nextWord325 {a} (hs : Canon W s) : Canon W (nextWord325 s a) := canon_after (canon_delay hs)

theorem canon_performWrite {a} (hs : Canon W s) : Canon W (performWrite s a) := by
  unfold performWrite
  split
  · exact canon_accRetry hs
  · split
    · split
      · exact canon_accRetry hs
      next heq =>
        exact canon_ite (canon_sendValue (canon_accDone (canon_atomArrive hs _ heq)))
          (canon_accDone (canon_atomArrive hs _ heq))
    · split
      · exact canon_accDone hs
      · split
        · exact canon_accRetry hs
        next heq =>
          exact canon_ite (canon_accDone (canon_swapPiece hs _ heq)) (canon_nextWord325 (canon_swapPiece hs _ heq))
    · exact canon_accDone hs

theorem canon_performAtomic {a row} (hs : Canon W s) : Canon W (performAtomic s a row) := by
  unfold performAtomic
  split
  · exact canon_accRetry hs
  · split
    · split
      · exact canon_accRetry hs
      next heq =>
        exact canon_ite (canon_sendValue (canon_accDone (canon_atomArrive hs _ heq)))
          (canon_accDone (canon_atomArrive hs _ heq))
    · exact canon_accDone hs

theorem canon_performLoad {a} (hs : Canon W s) : Canon W (performLoad s a) := by
  unfold performLoad
  split
  · exact canon_accRetry hs
  · split
    next heq => exact canon_sendValue (canon_accDone (canon_touch hs _ heq))
    · exact canon_accRetry hs
    · exact canon_accDone hs

theorem canon_performChain {a} (hs : Canon W s) : Canon W (performChain s a) := by
  unfold performChain
  split
  · exact canon_ite (canon_accRetry hs) (canon_ite (canon_sendValue (canon_accDone (canon_takeUnits hs)))
      (canon_accRetry (canon_want (canon_noteHeld (canon_takeUnits hs)))))
  · exact canon_accDone hs

theorem canon_performPatch {a} (hs : Canon W s) : Canon W (performPatch s a) := by
  unfold performPatch
  split
  · exact canon_accRetry hs
  · split
    · split
      · exact canon_accDone (canon_setLine hs)
      · exact canon_accDone hs
    · exact canon_accDone hs

theorem canon_setTag {a on} (hs : Canon W s) : Canon W (setTag s a on) := hs

theorem canon_dropReqs {gone} (hs : Canon W s) : Canon W (dropReqs s gone) := hs

theorem canon_serveLoad {s0 q} (hs : Canon W s0) : Canon W (serveLoad s0 q) :=
  canon_sendValue (canon_ite (canon_setTag (onSome_getD (canon_touch hs) hs)) (onSome_getD (canon_touch hs) hs))

theorem canon_serveStore {s0 q} (hs : Canon W s0) : Canon W (serveStore s0 q) :=
  canon_setTag (canon_spadWrite (onSome_getD (canon_touch hs) hs))

theorem canon_replayTag {lid die site n} (hs : Canon W s) : Canon W (replayTag s lid die site n) := canon_modLog hs

theorem canon_serveTag {a fuel} (hs : Canon W s) : Canon W (serveTag a fuel s) := by
  induction fuel generalizing s with
  | zero => exact hs
  | succ fuel ih =>
    unfold serveTag
    dsimp only
    split
    · exact hs
    · split
      · exact hs
      · refine canon_ite (ih (canon_foldl _ (canon_dropReqs ?_) fun _ _ ht => canon_serveLoad ht))
          (ih (canon_serveStore (canon_dropReqs ?_)))
        all_goals
          split
          · exact hs
          · exact canon_ite (canon_logAppend hs) hs
          · exact canon_replayTag hs

theorem canon_serveWord {a} (hs : Canon W s) : Canon W (serveWord s a) := canon_serveTag hs

theorem canon_tagArrive {q} (hs : Canon W s) : Canon W (tagArrive s q) :=
  canon_ite (canon_serveWord (canon_serveStore hs)) (canon_serveWord hs)

theorem canon_tagStale {q} (hs : Canon W s) : Canon W (tagStale s q) := by
  unfold tagStale
  dsimp only
  split
  · exact hs
  · split
    · exact canon_ite hs (canon_ite (canon_dropReqs hs) (canon_modCtx (canon_dropReqs hs)))
    · exact hs
    · exact canon_modCtx (canon_dropReqs hs)
    · exact canon_dropReqs hs

theorem canon_performCluster {a} (hs : Canon W s) : Canon W (performCluster s a) := by
  unfold performCluster
  split
  · exact canon_accRetry hs
  · split
    · split
      · split
        · exact canon_accRetry hs
        next heq =>
          exact canon_ite (canon_sendValue (canon_accDone (canon_atomArrive hs _ heq)))
            (canon_accDone (canon_atomArrive hs _ heq))
      · exact canon_ite (canon_accRetry hs) (canon_tagStale (canon_tagArrive (canon_accDone hs)))
      · split
        · exact canon_accRetry hs
        next heq => exact canon_accDone (canon_spadStore hs _ heq)
    · exact canon_accDone hs

/-! ### Machine/Ls -/

theorem canon_spadHold {r a core words sync} (hs : Canon W s) :
    OnSome (fun q => Canon W q.2) (spadHold r s a core words sync) := onSome_ite (onSome_some hs)
      (onSome_ite (onSome_some hs) (onSome_ite (onSome_some hs) (onSome_ite (onSome_some hs) onSome_none)))

theorem canon_wordsHold {r rt words sync} (hs : Canon W s) :
    OnSome (fun q => Canon W q.2) (wordsHold r s rt words sync) := by
  unfold wordsHold
  split
  · exact onSome_some hs
  · split
    · exact canon_spadHold hs
    · exact onSome_none
    · exact onSome_none
    · exact canon_routeHold hs
    · exact canon_routeHold hs

theorem canon_accessHold {r rt size sync} (hs : Canon W s) :
    OnSome (fun q => Canon W q.2) (accessHold r s rt size sync) := canon_wordsHold hs

theorem canon_clusterCommit {r sync} (hs : Canon W s) : CanonCommit W (clusterCommit r s sync) := by
  unfold clusterCommit
  split
  · split
    · split
      all_goals exact hs
    · exact canon_modCtx (canon_delay hs)
  · exact hs

theorem canon_loadCommit {r a size} (hs : Canon W s) : CanonCommit W (loadCommit r s a size) := by
  unfold loadCommit
  split
  · split
    next heq _ =>
      exact canon_modCtx (canon_delay (onSome_getD (canon_touch ((canon_clusterCommit hs).go heq))
        ((canon_clusterCommit hs).go heq)))
    next heq _ => exact (canon_clusterCommit hs).go heq
  next heq => exact (canon_clusterCommit hs).held heq
  · trivial
  next heq => exact (canon_clusterCommit hs).refuse heq

theorem canon_lineReadCheck {r key} (hs : Canon W s) : CanonCommit W (lineReadCheck r s key) := by
  unfold lineReadCheck
  split
  · trivial
  · split
    · trivial
    · split
      · trivial
      · split
        all_goals exact hs
      · exact canon_ite (canon_after (canon_modCtx (canon_setLine hs))) (canon_modCtx (canon_setLine hs))

theorem canon_patchWriteCheck {r key a} (hs : Canon W s) : CanonCommit W (patchWriteCheck r s key a) := by
  unfold patchWriteCheck
  dsimp only
  split
  · trivial
  · split
    · trivial
    · split
      · trivial
      · split
        · trivial
        · exact canon_addAcc hs

/-! ### Machine/Mx -/

theorem canon_putRow {core g ex es} (hs : Canon W s) : Canon W (putRow s core g ex es) := by
  unfold putRow
  split
  all_goals exact hs

theorem canon_takeBanks {holder e core} : ∀ {first n : Nat} {s : State}, Canon W s → Canon W
    (takeBanks holder e core first n s)
  | _, 0, _, hs => hs
  | _, n + 1, _, hs => canon_takeBanks (n := n) hs

theorem canon_dropBanks {core} : ∀ {first n : Nat} {s : State}, Canon W s → Canon W (dropBanks core first n s)
  | _, 0, _, hs => hs
  | _, n + 1, _, hs => canon_dropBanks (n := n) hs

theorem canon_rowHold {r} (hs : Canon W s) : OnSome (fun q => Canon W q.2) (rowHold r s) :=
  onSome_ite (onSome_some hs) onSome_none

theorem canon_rowFlags {c f} (hs : Canon W s) : Canon W (rowFlags s c f) := canon_fly hs

theorem canon_landWb {c d v} (hs : Canon W s) : Canon W (landWb s c d v) := canon_after (canon_fresh hs)

theorem canon_endCall {core k st row} (hs : Canon W s) : Canon W (endCall s core k st row) := by
  unfold endCall
  refine canon_modCtx ?_
  split
  · exact canon_landWb (canon_cancel (canon_cancel hs))
  · exact canon_cancel (canon_cancel hs)

theorem canon_stopNow {core k} (hs : Canon W s) : Canon W (stopNow s core k) := canon_endCall hs

theorem canon_stopAsked {core k} (hs : Canon W s) : Canon W (stopAsked s core k) := canon_modCtx (canon_stopNow hs)

theorem canon_stopCall {c} (hs : Canon W s) : Canon W (stopCall s c) := by
  unfold stopCall
  split
  · exact hs
  · exact canon_ite hs (canon_ite hs (canon_stopAsked hs))

theorem canon_startCall {c slot num dest rout p0 p1 p2 p3 p4 p5 p6 p7} (hs : Canon W s) :
    Canon W (startCall s c slot num dest rout p0 p1 p2 p3 p4 p5 p6 p7) := by
  unfold startCall
  split
  · exact hs
  · exact canon_ite (canon_endCall (canon_modCtx (canon_markEmpty (canon_charge
      (canon_ite (onSome_getD (canon_touch hs) hs) hs))))) (canon_after
      (canon_markEmpty (canon_charge (canon_ite (onSome_getD (canon_touch hs) hs) hs))))

theorem canon_mxHold {c cost} (hs : Canon W s) : OnSome (fun q => Canon W q.2) (mxHold s c cost) :=
  onSome_ite onSome_none (onSome_some (canon_waitFor (canon_noteHeld hs)))

theorem canon_enterQuad {core a j minus} : ∀ {i : Nat} {A B : Rows} {s : State}, Canon W s →
    Canon W (enterQuad s core a i j minus A B).1
  | _, [], _, _, hs => hs
  | _, _ :: A, _, _, hs => canon_enterQuad (A := A) (canon_putRow hs)

theorem canon_clampQuad {core a j} : ∀ {i n : Nat} {s : State}, Canon W s → Canon W (clampQuad core a i j n s).1
  | _, 0, _, hs => hs
  | _, n + 1, _, hs => canon_clampQuad (n := n) (canon_putRow hs)

theorem canon_enterProduct {core a i0 j0 A B l} (hs : Canon W s) : Canon W (enterProduct core a i0 j0 A B l s).1 := by
  induction l generalizing s with
  | nil => exact hs
  | cons _ _ ih =>
    unfold enterProduct
    exact ih (canon_clampQuad (canon_enterQuad hs))

theorem canon_recombine {core a i0 j0 n minA minB A B l} (hs : Canon W s) :
    Canon W (recombine core a i0 j0 n minA minB A B l s).1 := by
  induction l generalizing s with
  | nil => exact hs
  | cons _ _ ih => exact ih (canon_enterProduct hs)

theorem canon_classical {core a i0 j0 A B l} (hs : Canon W s) : Canon W (classical core a i0 j0 A B l s).1 := by
  induction l generalizing s with
  | nil => exact hs
  | cons _ _ ih =>
    unfold classical
    exact ih (canon_clampQuad (canon_enterQuad hs))

theorem canon_maskQuad {core a base stride j} : ∀ {i n : Nat} {s : State}, Canon W s →
    Canon W (maskQuad core a base stride i j n s).1
  | _, 0, _, hs => hs
  | _, n + 1, _, hs => canon_maskQuad (n := n) (canon_putRow hs)

theorem canon_maskTile {core a base stride l} (hs : Canon W s) : Canon W (maskTile core a base stride l s).1 := by
  induction l generalizing s with
  | nil => exact hs
  | cons _ _ ih =>
    unfold maskTile
    exact ih (canon_maskQuad hs)

theorem canon_gemmStep {k core a r p} (hs : Canon W s) : Canon W (gemmStep s k core a r p).1 := by
  unfold gemmStep
  dsimp only
  split
  · exact canon_recombine hs
  · exact canon_classical hs

theorem canon_accLoad {core a x j} : ∀ {i n : Nat} {s : State}, Canon W s → Canon W (accLoad core a x i j n s).1
  | _, 0, _, hs => hs
  | _, n + 1, _, hs => canon_accLoad (n := n) (canon_putRow hs)

theorem canon_accNormRows {core a j} : ∀ {i n : Nat} {s : State}, Canon W s → Canon W (accNormRows core a i j n s).1
  | _, 0, _, hs => hs
  | _, n + 1, _, hs => canon_accNormRows (n := n) (canon_putRow hs)

theorem canon_accZeroRows {core a j} : ∀ {i n : Nat} {s : State}, Canon W s → Canon W (accZeroRows core a i j n s).1
  | _, 0, _, hs => hs
  | _, n + 1, _, hs => canon_accZeroRows (n := n) (canon_putRow hs)

theorem canon_runStep {core k} (hs : Canon W s) : Canon W (runStep s core k).1 := by
  unfold runStep
  dsimp only
  split
  · exact hs
  · split
    · split
      · exact canon_accLoad hs
      · exact hs
      · exact canon_accNormRows hs
      · exact canon_accZeroRows hs
    · split
      · exact canon_maskTile (canon_gemmStep hs)
      · exact canon_gemmStep hs

theorem canon_stepTouch {k} (hs : Canon W s) : OnSome (Canon W) (stepTouch s k) :=
  onSome_ite (onSome_some hs) (canon_touch hs)

theorem canon_runSeen {core k fs} (hs : Canon W s) : Canon W (runSeen s core k fs).1 := by
  have hq : Canon W (if fs.isEmpty then (0, s) else s.pick).2 := by
    split
    · exact hs
    · exact canon_pick hs
  unfold runSeen
  generalize (if fs.isEmpty then (0, s) else s.pick) = q at hq ⊢
  obtain ⟨n, u⟩ := q
  exact ⟨hq.1, (canon_runStep (canon_withSpad hq)).2.1, hq.2.2⟩

theorem canon_putStores : ∀ {late : List (Nat × List Byte)} {l : List (Nat × Nat × List Byte)} {s : State}, Canon W s
    →
    Canon W (putStores late l s).2
  | _, [], _, hs => hs
  | late, w :: l, s, hs => by
    unfold putStores
    split
    next u heq => exact canon_putStores (onSome_ite onSome_none (canon_spadStore hs) u heq)
    · exact canon_putStores hs

theorem canon_performStores {core all} (hs : Canon W s) : Canon W (performStores s core all) := by
  unfold performStores
  dsimp only
  split
  · exact hs
  · split
    · exact canon_putStores hs
    · exact canon_after (canon_putStores hs)

theorem canon_beginStep {core k fs} (hs : Canon W s) : Canon W (beginStep s core k fs) := by
  unfold beginStep
  dsimp only
  refine canon_performStores (canon_after ?_)
  split
  · exact canon_runSeen hs
  · exact canon_pick (canon_runSeen hs)

theorem canon_execMatrixStepBegin (hs : Canon W s) : CanonOut W (execMatrixStepBegin s) := by
  unfold execMatrixStepBegin
  dsimp only
  split
  · exact canonOut_next hs
  · split
    · exact canonOut_next (canon_performStores hs)
    · split
      · exact canonOut_next (canon_after hs)
      · split
        · exact canonOut_next (canon_after hs)
        · split
          next heq _ _ _ _ => exact canonOut_next (canon_modCtx (canon_stopNow (canon_stepTouch hs _ heq)))
          next heq _ _ => exact canonOut_next (canon_beginStep (canon_stepTouch hs _ heq))

theorem canon_endStep {core k} (hs : Canon W s) : Canon W (endStep s core k) := by
  unfold endStep
  dsimp only
  split
  · exact canon_modCtx (canon_stopNow (canon_bump (canon_modCtx hs)))
  · exact canon_ite (canon_stopAsked (canon_bump (canon_modCtx hs))) (canon_ite
      (canon_endCall (canon_bump (canon_modCtx hs))) (canon_after hs))

theorem canon_execMatrixStepEnd (hs : Canon W s) : CanonOut W (execMatrixStepEnd s) := by
  unfold execMatrixStepEnd
  dsimp only
  split
  · exact canonOut_next hs
  · split
    · exact canonOut_next hs
    · split
      · exact canonOut_next (canon_performStores hs)
      · split
        · exact canonOut_next (canon_endStep (canon_performStores hs))
        · exact canonOut_next (canon_after (canon_performStores hs))

theorem canon_reissueCall {c} (hs : Canon W s) : Canon W (reissueCall c s) := by
  unfold reissueCall
  dsimp only
  split
  · exact hs
  · split
    · exact canon_modCtx hs
    · split
      · exact canon_holdBundle hs
      · split
        · exact canon_holdBundle hs
        · split
          next heq => exact canon_holdBundle (canon_mxHold hs _ heq)
          · exact canon_startCall (canon_modCtx hs)

/-! ### Machine/Sett -/

theorem canon_setSett {k t} (hs : Canon W s) : Canon W (s.setSett k t) := hs

theorem canon_modItem {lid idx f} (hs : Canon W s) : Canon W (modItem s lid idx f) := hs

theorem canon_wakeSetts {lid} (hs : Canon W s) : Canon W (wakeSetts s lid) :=
  canon_foldl _ hs fun _ _ ht => canon_after ht

theorem canon_settEnd {lid code} (hs : Canon W s) : Canon W (settEnd s lid code) := by
  unfold settEnd
  split
  · exact hs
  · exact canon_ite hs (canon_wakeSetts (canon_modLaunch hs))

theorem canon_settTest {lid conv} (hs : Canon W s) : Canon W (settTest s lid conv) := by
  unfold settTest
  split
  · exact hs
  · exact canon_ite (canon_ite (canon_settEnd hs) (canon_ite (canon_settEnd hs) (canon_wakeSetts hs))) hs

theorem canon_setSat {c on} (hs : Canon W s) : Canon W (setSat s c on) := canon_ite (canon_modCtx hs) hs

theorem canon_settAdd {c lid idx delta} (hs : Canon W s) : Canon W (settAdd s c lid idx delta) := by
  unfold settAdd
  split
  · exact hs
  · exact canon_settTest (canon_setSat (canon_modItem hs))

theorem canon_settSet {lid idx gain} (hs : Canon W s) : Canon W (settSet s lid idx gain) :=
  canon_settTest (canon_modItem hs)

theorem canon_settDone {c lid idx code} (hs : Canon W s) : Canon W (settDone s c lid idx code) := by
  unfold settDone
  split
  · exact hs
  · exact canon_settTest (canon_modItem (canon_modLaunch (canon_setSat hs)))

theorem canon_dropSettRecord {lid die} (hs : Canon W s) : Canon W (dropSettRecord s lid die) := canon_modLog hs

theorem canon_answerPop {key w answer idx} (hs : Canon W s) : Canon W (answerPop s key w answer idx) :=
  canon_sendValue (canon_ite (canon_modCtx (canon_modItem (canon_ite (canon_dropSettRecord hs)
    (canon_ite (canon_logAppend hs) hs)))) (canon_ite (canon_dropSettRecord hs) (canon_ite (canon_logAppend hs) hs)))

theorem canon_settMove {lid donor receiver idxs fresh} (hs : Canon W s) :
    Canon W (settMove s lid donor receiver idxs fresh) := by
  unfold settMove
  split
  · exact hs
  · exact canon_after (canon_delay (canon_ite (canon_logAppend hs) hs))

theorem canon_servePops {key fuel} (hs : Canon W s) : Canon W (servePops key fuel s) := by
  induction fuel generalizing s with
  | zero => exact hs
  | succ fuel ih =>
    unfold servePops
    extract_lets
    split
    · split
      · split
        · exact canon_ite (ih (canon_settMove (canon_dropSettRecord hs))) hs
        · extract_lets
          split
          · exact hs
          · exact canon_ite (ih (canon_answerPop (canon_setSett hs))) hs
      · split
        · exact hs
        · split
          · exact canon_after hs
          · extract_lets
            split
            · exact ih (canon_answerPop (canon_setSett hs))
            · split
              · exact ih (canon_answerPop (canon_setSett hs))
              · split
                · exact ih (canon_answerPop (canon_setSett hs))
                · exact hs
    · exact hs

theorem canon_serveSett {key} (hs : Canon W s) : Canon W (serveSett s key) := canon_servePops hs

theorem canon_popArrive {key c dest poll} (hs : Canon W s) : Canon W (popArrive s key c dest poll) := by
  unfold popArrive
  dsimp only
  split
  · exact canon_ite (canon_answerPop hs) (canon_serveSett (canon_setSett hs))
  · exact canon_sendValue hs

theorem canon_sendSett {o} (hs : Canon W s) : Canon W (sendSett s o) := canon_after (canon_fresh (canon_delay hs))

theorem canon_countTeam {c} (hs : Canon W s) : Canon W (countTeam s c) := canon_ite (canon_modLaunch hs) hs

theorem canon_settArrive {id} (hs : Canon W s) : Canon W (settArrive s id) := by
  unfold settArrive
  split
  · exact hs
  · split
    · exact canon_countTeam (canon_settAdd hs)
    · exact canon_countTeam (canon_settSet hs)
    · exact canon_countTeam (canon_settDone hs)
    · exact canon_popArrive hs

theorem canon_releaseItems {c} (hs : Canon W s) : Canon W (releaseItems s c) :=
  canon_settTest (canon_modCtx (canon_foldl _ hs fun _ _ ht => canon_modItem ht))

/-! ### Machine/Replay -/

theorem canon_divergeCheck {lid} (hs : Canon W s) : Canon W (divergeCheck s lid) := canon_ite (canon_diverge hs) hs

/-! ### Machine/Badger -/

theorem canon_walkGate {r key n} {f : State → Commit} (hs : Canon W s) (hf : ∀ t, Canon W t → CanonCommit W (f t)) :
    CanonCommit W (walkGate r s key n f) := by
  unfold walkGate
  extract_lets
  split
  · exact hf _ (canon_takeUnits hs)
  · exact canon_want (canon_noteHeld (canon_modCtx (canon_takeUnits hs)))

theorem canon_doPopen {r} (hs : Canon W s) : CanonCommit W (doPopen r s) := by
  unfold doPopen
  dsimp only
  split
  · trivial
  · split
    · trivial
    · split
      · trivial
      · split
        · trivial
        · split
          · trivial
          · split
            · trivial
            · exact canon_setLine hs

theorem canon_ownWritesIn {c key} (hs : Canon W s) : Canon W (ownWritesIn s c key) := canon_ite hs (canon_setLine hs)

theorem canon_doPclose {r s0} (hs : Canon W s0) : CanonCommit W (doPclose r s0) := by
  unfold doPclose
  dsimp only
  split
  · trivial
  · split
    · exact hs
    · split
      · split
        · exact canon_setLine (canon_ownWritesIn hs)
        · trivial
      · split
        · split
          · trivial
          · exact canon_walkGate (canon_ownWritesIn hs) (fun _ ht => canon_setLine ht)
        · split
          · trivial
          · split
            · exact hs
            · exact canon_diverge hs
            · refine canon_walkGate (canon_ownWritesIn hs) (fun t ht => ?_)
              split
              · exact canon_logEvent (canon_setLine ht)
              · exact canon_setLine ht

theorem canon_doPcomm {r} (hs : Canon W s) : CanonCommit W (doPcomm r s) := by
  unfold doPcomm
  dsimp only
  split
  · trivial
  · trivial
  · split
    · trivial
    · split
      · split
        · trivial
        · exact canon_walkGate hs (fun _ ht => canon_setLine ht)
      · exact hs

theorem canon_doPinv {r} (hs : Canon W s) : CanonCommit W (doPinv r s) := by
  unfold doPinv
  dsimp only
  split
  · trivial
  · split
    · exact hs
    · split
      · trivial
      · exact canon_walkGate hs (fun _ ht => canon_setLine ht)

theorem canon_doPfork {r} (hs : Canon W s) : CanonCommit W (doPfork r s) := by
  unfold doPfork
  dsimp only
  split
  · trivial
  · split
    · trivial
    · split
      · trivial
      · split
        · trivial
        · split
          · trivial
          · exact canon_walkGate hs (fun _ ht => canon_setLine ht)

theorem canon_doPxpl {r} (hs : Canon W s) : CanonCommit W (doPxpl r s) := by
  unfold doPxpl
  dsimp only
  split
  · trivial
  · split
    · trivial
    · split
      · trivial
      · split
        · trivial
        · split
          · exact hs
          · split
            · exact hs
            · split
              · trivial
              · split
                · trivial
                · split
                  · split
                    · exact hs
                    · trivial
                  · split
                    · trivial
                    · split
                      · trivial
                      · exact canon_walkGate hs (fun _ ht => canon_setLine ht)

theorem canon_doPfold {r} (hs : Canon W s) : CanonCommit W (doPfold r s) := by
  unfold doPfold
  dsimp only
  split
  · split
    · exact hs
    · trivial
  · refine canon_walkGate hs (fun t ht => ?_)
    split
    · exact canon_setLine ht
    · exact canon_setLine ht

theorem canon_markNoUndo {lid} (hs : Canon W s) : Canon W (markNoUndo s lid) := canon_modLaunch hs

theorem canon_markLost {lid l} (hs : Canon W s) : Canon W (markLost s lid l) :=
  canon_foldl _ (canon_markNoUndo hs) fun _ _ ht => canon_ite (canon_markNoUndo ht) ht

theorem canon_doPsq {r} (hs : Canon W s) : CanonCommit W (doPsq r s) := by
  unfold doPsq
  dsimp only
  split
  · trivial
  · split
    · exact hs
    · exact canon_walkGate hs (fun _ ht => canon_markLost (canon_setLine ht))

theorem canon_doPreg {r} (hs : Canon W s) : CanonCommit W (doPreg r s) := by
  unfold doPreg
  dsimp only
  split
  · trivial
  · split
    · trivial
    · exact canon_startWalk hs
    · exact canon_startDemand hs
    · exact hs
    · exact canon_setLine hs

theorem canon_doPdrop {r} (hs : Canon W s) : CanonCommit W (doPdrop r s) := by
  unfold doPdrop
  dsimp only
  split
  · exact hs
  · exact canon_walkGate hs (fun _ ht => canon_markLost (canon_setLine ht))

theorem canon_discardOpens {c} (hs : Canon W s) : Canon W (discardOpens s c) := hs

/-! ### Machine/Engine -/

theorem canon_modCmd {id f} (hs : Canon W s) : Canon W (modCmd s id f) := hs

theorem canon_cmdPerformed {id c n m} (hs : Canon W s) : Canon W (cmdPerformed s id c n m) :=
  canon_modCtx (canon_modCmd hs)

theorem canon_cmdStop {id f} (hs : Canon W s) : Canon W (cmdStop s id f) := canon_after hs

theorem canon_mapOpens {f} (hs : Canon W s) : Canon W (mapOpens f s) := hs

/-- R222. A saved team acts on its own windows: the scratchpads come back as they were. -/
theorem canon_inSaved {v} {f : State → State} (hs : Canon W s) (hf : ∀ V t, Canon V t → Canon V (f t)) :
    Canon W (inSaved s v f) := by
  unfold inSaved
  extract_lets cs u here _ _ t
  have hu : Canon W u := canon_mapOpens hs
  have ht : Canon False t := hf False _ ⟨hu.1, hu.2.1, nofun⟩
  exact ⟨ht.1, ht.2.1, hu.2.2⟩

theorem canon_withTeam {k} {f : State → State} (hs : Canon W s) (hf : ∀ V t, Canon V t → Canon V (f t)) :
    Canon W (withTeam s k f) := by
  unfold withTeam
  split
  · split
    · exact canon_inSaved hs hf
    · exact hf W s hs
  · exact hf W s hs

theorem canon_cmdGone {k} (hs : Canon W s) : Canon W (cmdGone s k) := canon_ite (canon_askAbandon hs) hs

theorem canon_pushEntries {c q} : ∀ {l : List W64} {s : State}, Canon W s → Canon W (pushEntries s c q l).1
  | [], _, hs => hs
  | _ :: l, s, hs => by
    unfold pushEntries
    split
    · exact hs
    · exact canon_pushEntries (canon_modCtx hs)

theorem canon_postStatus {k entries} (hs : Canon W s) : Canon W (postStatus s k entries) :=
  canon_ite (canon_cmdGone (canon_pushEntries hs)) (canon_after (canon_pushEntries hs))

theorem canon_retireCmd {id} (hs : Canon W s) : Canon W (retireCmd s id) := by
  unfold retireCmd
  split
  · exact hs
  · split
    · exact hs
    · exact canon_withTeam hs (fun _ _ hs1 => canon_ite (canon_after hs1)
        (canon_ite (canon_cmdGone hs1) (canon_postStatus hs1)))

theorem canon_retryStatus {id} (hs : Canon W s) : Canon W (retryStatus s id) := by
  unfold retryStatus
  split
  · exact canon_withTeam hs (fun _ _ hs1 => canon_ite (canon_cmdGone hs1) (canon_postStatus hs1))
  · exact hs

theorem canon_engWalk {k comp page} (hs : Canon W s) : Canon W (engWalk s k comp page) := canon_startWalkBy hs

theorem canon_engDropped {k key va l} (hs : Canon W s) : CanonEng W (fun _ => True) (engDropped s k key va l) := by
  unfold engDropped
  split
  · trivial
  · exact canon_ite (canon_after (canon_setLine hs)) (canon_setLine hs)

theorem canon_engRead {k va size rt read beside} (hs : Canon W s) :
    CanonEng W (fun _ => True) (engRead s k va size rt read beside) := by
  unfold engRead
  dsimp only
  split
  · trivial
  · exact canon_engWalk hs
  · exact canon_startDemand hs
  · split
    · exact hs
    · split
      all_goals trivial
  · split
    · split
      · split
        all_goals trivial
      · exact canon_engDropped hs
      · split
        · trivial
        · split
          · exact hs
          · split
            all_goals trivial
    · split
      · exact hs
      · split
        all_goals trivial

theorem canon_engTouch {rt size} (hs : Canon W s) : Canon W (engTouch s rt size) := by
  unfold engTouch
  split
  · exact onSome_getD (canon_touch hs) hs
  · exact onSome_getD (canon_touch hs) hs
  all_goals exact hs

theorem canon_addWrite {k place bs gs fill count} (hs : Canon W s) : Canon W (addWrite s k place bs gs fill count) :=
  hs

theorem canon_fillWord {w} (hs : Canon W s) : Canon W (fillWord s w) := canon_serveWord (canon_setTag hs)

theorem canon_fillOrLeave {cmd id t x} (hs : Canon W t) : Canon W (fillOrLeave cmd id t x) := by
  unfold fillOrLeave
  dsimp only
  split
  · exact hs
  · exact canon_fillWord hs

theorem canon_fillWords {w} (hs : Canon W s) : Canon W (fillWords w s) :=
  canon_foldl _ hs fun _ _ ht => canon_fillOrLeave ht

theorem canon_writeStep {w} (hs : Canon W s) : OnSome (fun q => Canon W q.1) (writeStep s w) := by
  unfold writeStep
  split
  · exact onSome_map (canon_spadStore hs) fun _ ht => canon_fillWords ht
  · exact onSome_some (canon_ite (canon_setLine hs) hs)
  · split
    · exact onSome_some hs
    · exact onSome_map (canon_swapPiece hs) fun _ ht => ht

theorem canon_writeDone {w} (hs : Canon W s) : Canon W (writeDone s w) := canon_cmdPerformed hs

theorem canon_writeLater {id n} (hs : Canon W s) : Canon W (writeLater s id n) := canon_after hs

theorem canon_performEng {id fuel} (hs : Canon W s) : Canon W (performEng id fuel s) := by
  induction fuel generalizing s with
  | zero => exact hs
  | succ fuel ih =>
    unfold performEng
    split
    · exact hs
    · split
      · exact canon_writeLater hs
      · split
        · exact canon_writeLater hs
        next heq => exact canon_writeDone (canon_writeStep hs _ heq)
        next heq =>
          have ht := canon_delay (canon_writeStep hs _ heq)
          exact canon_ite (ih ht) (canon_writeLater ht)

theorem canon_startWrite {id} (hs : Canon W s) : Canon W (startWrite s id) :=
  canon_ite (canon_performEng (canon_delay hs)) (canon_writeLater (canon_delay hs))

theorem canon_performWriteOf {id} (hs : Canon W s) : Canon W (performWriteOf s id) := by
  unfold performWriteOf
  split
  · exact hs
  · split
    · exact canon_inSaved hs (fun _ _ ht => canon_performEng ht)
    · exact canon_performEng hs

theorem canon_engTarget {k va bs rt grans} (hs : Canon W s) :
    CanonEng W (fun _ => True) (engTarget s k va bs rt grans) := by
  unfold engTarget
  dsimp only
  split
  · trivial
  · exact canon_engWalk hs
  · exact canon_startDemand hs
  · split
    all_goals trivial
  · split
    · split
      · trivial
      · split
        · trivial
        · split
          all_goals trivial
    · split
      all_goals trivial

theorem canon_engWrite {k va bs rt grans fill count} (hs : Canon W s) :
    CanonEng W (Canon W) (engWrite s k va bs rt grans fill count) := by
  unfold engWrite
  split
  · trivial
  next heq => exact (canon_engTarget hs).wait heq
  · exact canon_startWrite (canon_addWrite hs)

theorem canon_takePlaces {k} (hs : Canon W s) : Canon W (takePlaces s k).1 := hs

theorem canon_acceptCmd {op r} (hs : Canon W s) : Canon W (acceptCmd op r s) := by
  unfold acceptCmd
  extract_lets k bad word s1 s2 s3 count full add s4
  have h1 : Canon W s1 := canon_landResult hs
  have h4 : Canon W s4 := canon_ite h1 (canon_modLaunch h1)
  have h5 : Canon W (if op.freight then (count s4, full) else takePlaces (count s4) full).1 := by
    split
    · exact h4
    · exact canon_takePlaces h4
  exact canon_ite (canon_cmdStop h4) (canon_ite (canon_cmdStop h4) (canon_ite
    (canon_ite (canon_delay h5) (canon_after (canon_delay h5))) (canon_after (canon_delay h5))))

/-! ### Machine/Freight -/

theorem canon_fillCut {k n} (hs : Canon W s) : Canon W (fillCut s k n) :=
  canon_foldl _ hs fun _ _ ht => canon_fillOrLeave ht

theorem canon_elemSource {k n} (hs : Canon W s) : CanonEng W (fun q => Canon W q.2) (elemSource s k n) := by
  unfold elemSource
  dsimp only
  split
  · exact hs
  · split
    · trivial
    · split
      · exact canon_engTouch hs
      · trivial
      next heq => exact (canon_engRead hs).wait heq

theorem canon_elemMove {k n} (hs : Canon W s) : CanonEng W (Canon W) (elemMove s k n) := by
  unfold elemMove
  dsimp only
  split
  · trivial
  next heq => exact (canon_elemSource hs).wait heq
  · split
    · trivial
    · split
      · trivial
      next heq _ _ _ _ _ heq1 => exact (canon_engWrite ((canon_elemSource hs).ok heq)).wait heq1
      next heq _ _ _ _ _ heq1 => exact canon_modCmd ((canon_engWrite ((canon_elemSource hs).ok heq)).ok heq1)

theorem canon_readAside {k base a size} (hs : Canon W s) :
    CanonEng W (fun q => Canon W q.2) (readAside s k base a size) := by
  unfold readAside
  dsimp only
  split
  · trivial
  · split
    · trivial
    next heq => exact (canon_engRead hs).wait heq
    · exact canon_engTouch hs

theorem canon_asidePart {k n j a bs} (hs : Canon W s) : CanonEng W (fun _ => True) (asidePart s k n j a bs) := by
  unfold asidePart
  dsimp only
  split
  · trivial
  · split
    · trivial
    next heq => exact (canon_engTarget hs).wait heq
    · trivial

theorem canon_blockSource {k n va band rt} (hs : Canon W s) :
    CanonEng W (fun q => Canon W q.2.2.2) (blockSource s k n va band rt) := by
  unfold blockSource
  dsimp only
  split
  · trivial
  next heq => exact (canon_engRead hs).wait heq
  · split
    · exact canon_engTouch hs
    · split
      · trivial
      next heq => exact (canon_readAside (canon_engTouch hs)).wait heq
      next heq =>
        have ht := (canon_readAside (canon_engTouch hs)).ok heq
        split
        · split
          · trivial
          next heq => exact (canon_readAside ht).wait heq
          next heq => exact (canon_readAside ht).ok heq
        · exact ht

theorem canon_sideParts {k n sc band} (hs : Canon W s) : CanonEng W (fun _ => True) (sideParts s k n sc band) := by
  unfold sideParts
  split
  · trivial
  next heq => exact (canon_asidePart hs).wait heq
  · split
    · trivial
    · split
      · trivial
      next heq => exact (canon_asidePart hs).wait heq
      · trivial

theorem canon_issueParts {k l} (hs : Canon W s) : Canon W (issueParts k l s) :=
  canon_foldl _ hs fun _ _ ht => canon_startWrite (canon_addWrite ht)

theorem canon_blockMove {k n} (hs : Canon W s) : CanonEng W (Canon W) (blockMove s k n) := by
  unfold blockMove
  dsimp only
  split
  · trivial
  · split
    · trivial
    · split
      · split
        next heq => exact (canon_engTarget hs).wait heq
        · trivial
        · exact hs
      · split
        · trivial
        next heq => exact (canon_blockSource hs).wait heq
        · split
          · trivial
          · split
            · split
              · trivial
              next heq _ _ _ _ _ heq1 => exact (canon_engWrite ((canon_blockSource hs).ok heq)).wait heq1
              next heq _ _ _ _ _ heq1 => exact canon_modCmd ((canon_engWrite ((canon_blockSource hs).ok heq)).ok heq1)
            · split
              · trivial
              next heq _ _ _ _ _ heq1 => exact (canon_sideParts ((canon_blockSource hs).ok heq)).wait heq1
              · split
                · trivial
                next heq _ _ _ _ _ _ _ _ heq1 => exact (canon_engTarget ((canon_blockSource hs).ok heq)).wait heq1
                next heq _ _ _ _ _ _ _ _ _ _ => exact canon_modCmd (canon_issueParts ((canon_blockSource hs).ok heq))

theorem canon_burstEnds {id} (hs : Canon W s) : Canon W (burstEnds s id) := canon_modCmd hs

theorem canon_moveElems {id fuel} (hs : Canon W s) : Canon W (moveElems id fuel s) := by
  induction fuel generalizing s with
  | zero => exact hs
  | succ fuel ih =>
    unfold moveElems
    split
    · exact hs
    next k _ =>
      split
      · exact hs
      · have hk : CanonEng W (Canon W) (if k.block then blockMove s k k.next else elemMove s k k.next) := by
          split
          · exact canon_blockMove hs
          · exact canon_elemMove hs
        split
        · exact canon_cmdStop (canon_burstEnds (canon_fillCut hs))
        next heq => exact hk.wait heq
        next heq =>
          have ht := hk.ok heq
          exact canon_ite (canon_cmdStop (canon_burstEnds ht)) (canon_ite (canon_burstEnds ht)
            (canon_ite (ih (canon_delay (canon_modCmd ht))) (canon_delay (canon_modCmd ht))))

theorem canon_burstOf {k} (hs : Canon W s) : Canon W (burstOf s k) :=
  canon_ite (canon_moveElems (canon_modCmd hs)) (canon_ite (canon_moveElems
    (canon_modCmd (canon_want (canon_chargeAll (canon_modCmd hs))))) (canon_want (canon_noteHeld (canon_modCmd hs))))

theorem canon_freightBurstOf {eng} (hs : Canon W s) : Canon W (freightBurstOf s eng) := by
  unfold freightBurstOf
  dsimp only
  split
  · exact canon_ite (canon_after (canon_delay (canon_burstOf hs))) (canon_burstOf hs)
  · exact canon_ite (canon_after (canon_delay hs)) hs

/-! ### Machine/Shuttle -/

theorem canon_readRange {k l} (hs : Canon W s) : CanonEng W (fun q => Canon W q.2) (readRange s k l) := by
  induction l generalizing s with
  | nil => exact hs
  | cons e l ih =>
    unfold readRange
    split
    · trivial
    · dsimp only
      split
      · trivial
      next heq =>
        split at heq
        · nomatch heq
        · exact (canon_engRead hs).wait heq
      · split
        · trivial
        · split
          next heq => exact ((ih (canon_engTouch hs)).ok heq :)
          · trivial
          next heq => exact ((ih (canon_engTouch hs)).wait heq :)

theorem canon_planWrites {k l bs ws} (hs : Canon W s) : CanonEng W (fun _ => True) (planWrites s k l bs ws) := by
  induction l generalizing bs ws with
  | nil => trivial
  | cons e l ih =>
    unfold planWrites
    split
    · trivial
    · dsimp only
      split
      · trivial
      next heq =>
        split at heq
        · nomatch heq
        · exact ((canon_engTarget (s := { s with en := { s.en with writes := s.en.writes ++ ws } }) hs).wait heq :)
      · split
        · trivial
        · exact ih

theorem canon_writeWhole {w} (hs : Canon W s) : OnSome (Canon W) (writeWhole s w) := by
  unfold writeWhole
  split
  · exact onSome_foldl _ (onSome_some hs) fun _ _ ho => onSome_bind ho fun _ ht => canon_swapPiece ht
  · exact onSome_map (canon_writeStep hs) fun _ hx => hx
  · exact onSome_map (canon_writeStep hs) fun _ hx => hx

theorem canon_planAdds {k fuel e bs} (hs : Canon W s) : CanonEng W (fun _ => True) (planAdds s k fuel e bs) := by
  induction fuel generalizing e bs with
  | zero => trivial
  | succ fuel ih =>
    unfold planAdds
    extract_lets
    split
    · trivial
    · split
      · trivial
      · extract_lets
        split
        · trivial
        · split
          · trivial
          next heq => exact (canon_engRead hs).wait heq
          · split
            · trivial
            next heq => exact ih.wait heq
            · trivial

theorem canon_writeAdds {k l} (hs : Canon W s) : OnSome (Canon W) (writeAdds s k l) :=
  onSome_foldl _ (onSome_some hs) fun _ e ho => onSome_bind ho fun t ht => by
    split
    · exact canon_spadStore ht
    · exact canon_swapPiece ht
    all_goals exact onSome_some ht

theorem canon_payChunk {send c fuel k} (hs : Canon W s) : Canon W (payChunk send c fuel s k).2 := by
  induction fuel generalizing s k with
  | zero => exact hs
  | succ fuel ih =>
    unfold payChunk
    extract_lets
    split
    · exact hs
    · split
      · exact ih (canon_modCmd (canon_want (canon_chargeAll hs)))
      · exact canon_want (canon_noteHeld hs)

theorem canon_portStatus {p st peer pport lanes} (hs : Canon W s) : Canon W (portStatus s p st peer pport lanes) :=
  canon_ite hs (canon_postNotice hs)

theorem canon_sendBytes {k bs} (hs : Canon W s) : Canon W (sendBytes s k bs) := canon_modCmd hs

theorem canon_shuttleRetry {id} (hs : Canon W s) : Canon W (shuttleRetry s id) := canon_after hs

theorem canon_shuttleDone {id} (hs : Canon W s) : Canon W (shuttleDone s id) := by
  unfold shuttleDone
  split
  · exact hs
  · exact canon_ite (canon_cmdStop hs) hs

theorem canon_sendChunk {k} (hs : Canon W s) : Canon W (sendChunk s k) := by
  unfold sendChunk
  split
  · exact hs
  · split
    · exact hs
    · split
      next heq => exact canon_shuttleRetry (canon_of_snd (canon_payChunk hs) heq)
      · split
        next heq _ _ _ => exact canon_cmdStop (canon_of_snd (canon_payChunk hs) heq)
        next heq _ _ heq1 =>
          exact canon_shuttleRetry ((canon_readRange (canon_of_snd (canon_payChunk hs) heq)).wait heq1)
        next heq _ _ _ heq1 =>
          exact canon_modCmd (canon_sendBytes ((canon_readRange (canon_of_snd (canon_payChunk hs) heq)).ok heq1))

theorem canon_findMatches {k} (hs : Canon W s) : Canon W (findMatches s k) := by
  unfold findMatches
  dsimp only
  split
  · exact canon_cmdStop hs
  · exact canon_cmdStop hs
  · exact canon_modCmd hs

theorem canon_shuttleGo {id} (hs : Canon W s) : Canon W (shuttleGo s id) := by
  unfold shuttleGo
  dsimp only
  split
  · exact hs
  · split
    · exact hs
    · split
      · exact canon_shuttleRetry hs
      · split
        · exact canon_findMatches (canon_modCmd hs)
        · exact canon_ite (canon_findMatches (canon_modCmd hs)) (canon_ite
            (canon_sendChunk (canon_findMatches (canon_modCmd hs))) (canon_findMatches (canon_modCmd hs)))

theorem canon_peerPosts {e} (hs : Canon W s) : Canon W (peerPosts s e) :=
  canon_foldl _ hs fun _ _ ht => canon_shuttleGo ht

theorem canon_lostDone {id} (hs : Canon W s) : Canon W (lostDone s id) := by
  unfold lostDone
  split
  · exact hs
  · exact canon_ite (canon_cmdStop hs) hs

theorem canon_putChunk {k c body} (hs : Canon W s) : CanonEng W (OnSome (Canon W)) (putChunk s k c body) := by
  unfold putChunk
  split
  · split
    · trivial
    next heq => exact (canon_planAdds hs).wait heq
    · exact onSome_map (canon_writeAdds hs) fun _ ht => canon_modCmd ht
  · split
    · trivial
    next heq => exact (canon_planWrites hs).wait heq
    · exact onSome_foldl _ (onSome_some hs) fun _ _ ho => onSome_bind ho fun _ ht => canon_writeWhole ht

theorem canon_noteArrival {k c} (hs : Canon W s) : Canon W (noteArrival s k c) := canon_ite hs hs

theorem canon_landChunk {id c body e} (hs : Canon W s) : Canon W (landChunk s id c body e) := by
  unfold landChunk
  split
  · exact hs
  · split
    · exact canon_after hs
    · split
      next heq => exact canon_after (canon_of_snd (canon_payChunk hs) heq)
      next heq =>
        have hu := canon_of_snd (canon_payChunk hs) heq
        split
        · exact canon_cmdStop hu
        next heq => exact canon_after ((canon_putChunk hu).wait heq)
        · exact canon_after hu
        next heq =>
          exact canon_lostDone (canon_shuttleDone (canon_cmdPerformed
            (canon_modCmd ((canon_putChunk hu).ok heq _ rfl))))

theorem canon_chunkArrives {e} (hs : Canon W s) : Canon W (chunkArrives s e) := by
  unfold chunkArrives
  split
  · exact hs
  · split
    · exact hs
    · exact canon_ite hs (canon_withTeam (canon_noteArrival (canon_modCmd hs)) (fun _ _ ht => canon_landChunk ht))

theorem canon_chunkWritten {k c} (hs : Canon W s) : Canon W (chunkWritten s k c) :=
  canon_ite hs (canon_cmdPerformed (canon_modCmd hs))

theorem canon_chunkAcked {e} (hs : Canon W s) : Canon W (chunkAcked s e) := by
  unfold chunkAcked
  split
  · exact hs
  · exact canon_ite hs (canon_ite (canon_chunkWritten hs) (canon_shuttleGo
      (canon_shuttleDone (canon_cmdPerformed (canon_modCmd (canon_chunkWritten hs))))))

theorem canon_portsDown {peer} (hs : Canon W s) : Canon W (portsDown s peer) :=
  canon_foldl _ hs fun _ _ ht => canon_portStatus ht

theorem canon_losePeer {peer} (hs : Canon W s) : Canon W (losePeer s peer) := by
  unfold losePeer
  refine canon_foldl _ (canon_portsDown ?_) fun _ _ ht => canon_lostDone (canon_modCmd ht)
  split
  all_goals exact hs

theorem canon_parkCmds {mine} (hs : Canon W s) : Canon W (parkCmds s mine) :=
  canon_foldl _ hs fun _ _ ht => canon_modCtx (canon_modCmd ht)

theorem canon_unparkCmds {lid team} (hs : Canon W s) : Canon W (unparkCmds s lid team) :=
  canon_foldl _ hs fun _ _ ht => canon_after (canon_modCtx (canon_modCmd ht))

/-! ### Machine/Report -/

theorem canon_touchPieces {l} (hs : Canon W s) : OnSome (Canon W) (touchPieces s l) :=
  onSome_foldl _ (onSome_some hs) fun _ _ ho => onSome_bind ho fun _ ht => canon_touch ht

theorem canon_writePieces {comp lid} : ∀ {l : List (Nat × Nat)} {bs : List Byte} {s : State}, Canon W s →
    Canon W (writePieces comp lid l bs s)
  | [], _, _, hs => hs
  | _ :: l, _, _, hs => canon_writePieces (l := l) (canon_pageWrite (onSome_getD (canon_touch hs) hs))

theorem canon_putWindow {e w comp n hoff pages} (hs : Canon W s) : Canon W (putWindow s e w comp n hoff pages) := hs

theorem canon_dropWindow {e} (hs : Canon W s) : Canon W (dropWindow s e) := hs

theorem canon_svcBad {x} (hs : Canon W s) : CanonSvc W (svcBad x s) := by
  unfold svcBad
  split
  · exact hs
  · trivial

theorem canon_svcReport {c a b} (hs : Canon W s) : CanonSvc W (svcReport s c a b) := by
  unfold svcReport
  split
  · exact canon_svcBad hs
  · split
    · trivial
    next u heq =>
      have hu := canon_touchPieces hs _ heq
      dsimp only
      split
      · exact hu
      · split
        · exact canon_svcBad hu
        · split
          · trivial
          next v heq =>
            have hv := canon_touchPieces hu _ heq
            split
            · exact hv
            · split
              · exact canon_svcBad hv
              · split
                · trivial
                next heq => exact canon_writePieces (canon_touchPieces hv _ heq)

theorem canon_svcShare {c a b} (hs : Canon W s) : CanonSvc W (svcShare s c a b) := by
  unfold svcShare
  dsimp only
  split
  · exact hs
  · split
    · trivial
    · exact hs
    · split
      · exact canon_putWindow hs
      · exact hs

theorem canon_svcUnshare {c a} (hs : Canon W s) : CanonSvc W (svcUnshare s c a) := by
  unfold svcUnshare
  split
  · split
    · split
      · trivial
      · exact canon_dropWindow hs
    · exact hs
  · exact hs

theorem canon_service {c code a b} (hs : Canon W s) : CanonSvc W (service s c code a b) := by
  unfold service
  split
  · exact canon_svcReport hs
  · exact canon_svcShare hs
  · exact canon_svcUnshare hs
  · exact hs

/-! ### Machine/Sy -/

theorem canon_cbarCheck {key} (hs : Canon W s) : Canon W (cbarCheck s key) := by
  unfold cbarCheck
  split
  · exact hs
  · exact canon_ite (canon_ite (canon_foldl _ hs fun _ _ ht => canon_modCtx ht)
      (canon_foldl _ hs fun _ _ ht => canon_modCtx ht)) hs

theorem canon_leaveCrew {c crew} (hs : Canon W s) : Canon W (leaveCrew s c crew) := canon_cbarCheck hs

theorem canon_barrierDown {r} (hs : Canon W s) : CanonCommit W (barrierDown r s) := by
  unfold barrierDown
  split
  · trivial
  · exact hs

theorem canon_cbarArrive {c crew} (hs : Canon W s) : Canon W (cbarArrive s c crew) :=
  canon_ite hs (canon_cbarCheck (canon_ite (canon_modCtx hs) hs))

/-! ### Machine/Sys -/

theorem canon_freeBanks {c} (hs : Canon W s) : Canon W (freeBanks s c) := hs

theorem canon_dropArrivals {c} (hs : Canon W s) : Canon W (dropArrivals s c) := hs

theorem canon_endContext {c run} (hs : Canon W s) : Canon W (endContext s c run) :=
  canon_divergeCheck (canon_countTeam (canon_foldl _ (canon_freeBanks
    (canon_releaseItems (canon_discardOpens (canon_dropArrivals (canon_stopCall (canon_modCtx hs)))))) fun _ _ ht =>
    canon_leaveCrew ht))

theorem canon_postLaunch {c va} (hs : Canon W s) : Canon W (postLaunch s c va) := canon_modCtx (canon_fresh hs)

theorem canon_serviceOfReq {r} (hs : Canon W s) : CanonSvc W (serviceOfReq r s) := canon_service hs

/-! ### Machine/Place -/

theorem canon_clearWindow {base size} (hs : Canon W s) : Canon W (clearWindow s base size) := by
  obtain ⟨hm, hg, hp⟩ := canon_leaveWindow (hit := hitSpad base size) hs
  exact ⟨hm, hg, fun w => memWf_memDrop _ _ _ (hp w)⟩

theorem canon_noteResident {key b} (hs : Canon W s) : Canon W (noteResident s key b) := hs

theorem canon_bindTeam {key b} (hs : Canon W s) : Canon W (bindTeam s key b) := by
  unfold bindTeam
  split
  · exact hs
  · exact canon_noteResident (canon_foldl _ (canon_foldl _ hs fun _ _ ht => canon_clearWindow ht) fun _ _ ht =>
      canon_bindCtx ht)

theorem canon_writeSlot {key w} (hs : Canon W s) : Canon W (writeSlot s key w) :=
  canon_ite (canon_bindTeam hs) (canon_ite (canon_foldl _ hs fun _ _ ht => canon_modCtx ht) hs)

theorem canon_mapTeam {c cl} (hs : Canon W s) : Canon W (mapTeam s c cl) := canon_modLaunch hs

theorem canon_placeIn {saved key w} (hs : Canon W s) : Canon W (placeIn s saved key w) :=
  canon_ite (canon_after hs) (canon_after hs)

theorem canon_placeCand {c cl key w} (hs : Canon W s) : Canon W (placeCand s c cl key w) :=
  canon_placeIn (canon_mapTeam hs)

theorem canon_askStop {m} (hs : Canon W s) : Canon W (askStop s m) := canon_stopCall (canon_modCtx hs)

theorem canon_beginSwap {key} (hs : Canon W s) : Canon W (beginSwap s key) := by
  unfold beginSwap
  split
  · exact hs
  · exact canon_foldl _ hs fun _ _ ht => canon_ite (canon_askStop ht) ht

theorem canon_reserveSetts {l} (hs : Canon W s) : Canon W (reserveSetts s l) :=
  canon_foldl _ (canon_after hs) fun _ _ ht => canon_setSett ht

theorem canon_makeRoom {l c cl vs} (hs : Canon W s) : OnSome (Canon W) (makeRoom s l c cl vs) := by
  unfold makeRoom
  split
  · exact onSome_some (canon_foldl _ (canon_mapTeam hs) fun _ _ ht => canon_beginSwap ht)
  · exact onSome_none

theorem canon_placeLoop : ∀ {fuel : Nat} {s : State}, Canon W s → Canon W (placeLoop fuel s)
  | 0, _, hs => hs
  | fuel + 1, s, hs => by
    unfold placeLoop
    dsimp only
    split
    · exact hs
    · split
      · exact hs
      · split
        · exact hs
        · split
          · exact canon_ite hs (canon_reserveSetts hs)
          · split
            · exact canon_placeLoop (canon_placeCand hs)
            · split
              next heq => exact canon_placeLoop (onSome_findSome _ (fun _ => onSome_bind (P := fun _ => True)
                (fun _ _ => trivial)
                  fun _ _ => canon_makeRoom hs) _ heq)
              · exact hs

theorem canon_bindReserved {r} (hs : Canon W s) : Canon W (bindReserved s r) := canon_ite hs (canon_placeIn hs)

theorem canon_placementRun (hs : Canon W s) : Canon W (placementRun s) :=
  canon_ite (canon_placeLoop (canon_foldl _ hs fun _ _ ht => canon_bindReserved ht)) hs

theorem canon_unplace {core} (hs : Canon W s) : Canon W (unplace s core) :=
  canon_foldl _ (canon_foldl _ hs fun _ _ ht => canon_ite (canon_cancel (canon_cancel ht))
    (canon_modLaunch (canon_cancel (canon_cancel ht)))) fun _ _ ht => canon_ite ht (canon_modLaunch ht)

/-! ### Machine/Launch -/

theorem canon_setPool {comp n} (hs : Canon W s) : Canon W (setPool s comp n) := by
  unfold setPool
  split
  all_goals exact hs

theorem canon_endPool {comp} (hs : Canon W s) : Canon W (endPool s comp) := canon_setPool hs

theorem canon_setSlot {n h} (hs : Canon W s) : Canon W (setSlot s n h) := hs

theorem canon_answerCtx {lid rank v} (hs : Canon W s) : Canon W (answerCtx s lid rank v) := by
  unfold answerCtx
  dsimp only
  split
  · exact canon_modCtx hs
  · exact hs

theorem canon_producerEnds {key ok} (hs : Canon W s) : Canon W (producerEnds s key ok) := canon_after hs

theorem canon_respond {q status sub res0 body} (hs : Canon W s) : Canon W (respond s q status sub res0 body) := by
  unfold respond
  split
  · exact canon_sendMsix (canon_setSlot hs)
  · exact hs
  · exact canon_answerCtx hs
  · exact canon_ite hs (canon_producerEnds hs)

theorem canon_writeRecord64 {lid comp ranges compl ws} (hs : Canon W s) :
    Canon W (writeRecord64 s lid comp ranges compl ws) := by
  unfold writeRecord64
  split
  · exact hs
  · split
    · exact hs
    · exact canon_postNotice (canon_foldl _ hs fun _ _ ht => canon_pageWrite (onSome_getD (canon_touch ht) ht))

theorem canon_makeLines {comp b} (hs : Canon W s) : Canon W (makeLines s comp b) :=
  canon_foldl _ hs fun _ _ ht => canon_ite ht (canon_setLine ht)

theorem canon_measure {comp digest} (hs : Canon W s) : Canon W (measure s comp digest) := by
  unfold measure
  split
  all_goals exact hs

theorem canon_reserveLogs {l} (hs : Canon W s) : Canon W (reserveLogs s l) := canon_ite hs hs

theorem canon_acceptPacket {q p image} (hs : Canon W s) : Canon W (acceptPacket s q p image).2 := by
  unfold acceptPacket
  dsimp only
  split
  · split
    · exact canon_setLine (canon_reserveLogs (canon_measure (canon_makeLines (canon_setPool hs))))
    · exact canon_reserveLogs (canon_measure (canon_makeLines (canon_setPool hs)))
  · exact canon_reserveLogs (canon_measure (canon_makeLines (canon_setPool hs)))
  · exact canon_reserveLogs (canon_measure (canon_makeLines (canon_setPool hs)))
  · exact canon_reserveLogs (canon_measure (canon_makeLines (canon_setPool hs)))

theorem canon_packetTouch {q} (hs : Canon W s) : OnSome (Canon W) (packetTouch s q) := canon_touchPieces hs

theorem canon_validate {q} (hs : Canon W s) : Canon W (validate s q) := by
  unfold validate
  dsimp only
  split
  · exact canon_respond (canon_ite (canon_writeRecord64 hs) hs)
  · exact canon_placementRun (canon_respond (canon_acceptPacket hs))

theorem canon_execLaunchAcceptance (hs : Canon W s) : CanonOut W (execLaunchAcceptance s) := by
  unfold execLaunchAcceptance
  split
  · exact canonOut_next hs
  · refine canonOut_next ?_
    split
    next heq => exact canon_validate ((canon_packetTouch hs _ heq :))
    · exact hs

theorem canon_fillSetts {lid} (hs : Canon W s) : Canon W (fillSetts s lid) := by
  unfold fillSetts
  split
  · exact hs
  · split
    · exact hs
    · split
      · exact canon_modLaunch hs
      · split
        · exact canon_after hs
        next heq =>
          exact canon_modLaunch (canon_settTest (canon_modLaunch (canon_foldl _ (canon_touchPieces hs _ heq)
            fun _ _ ht => canon_setSett ht)))

/-! ### Machine/Access -/

theorem canon_onAcc {f : State → Acc → State} (hs : Canon W s) (hf : ∀ t a, Canon W t → Canon W (f t a)) :
    CanonOut W (onAcc f s) := by
  refine canonOut_next ?_
  split
  · exact hf _ _ hs
  · exact hs

theorem canon_execGlobalWritePerformed (hs : Canon W s) : CanonOut W (execGlobalWritePerformed s) :=
  canon_onAcc hs (fun _ _ ht => canon_performWrite ht)

theorem canon_execAtomicQueuePerform (hs : Canon W s) : CanonOut W (execAtomicQueuePerform s) :=
  canon_onAcc hs (fun _ _ ht => canon_performAtomic ht)

theorem canon_execReductionHold (hs : Canon W s) : CanonOut W (execReductionHold s) :=
  canon_onAcc hs (fun _ _ ht => canon_performAtomic ht)

theorem canon_execChainRead (hs : Canon W s) : CanonOut W (execChainRead s) :=
  canon_onAcc hs (fun _ _ ht => canon_performChain ht)

theorem canon_execPatchWriteArrival (hs : Canon W s) : CanonOut W (execPatchWriteArrival s) :=
  canon_onAcc hs (fun _ _ ht => canon_performPatch ht)

theorem canon_execClusterAccessAccept (hs : Canon W s) : CanonOut W (execClusterAccessAccept s) :=
  canon_onAcc hs (fun _ _ ht => canon_performCluster ht)

theorem canon_arrive {id} (hs : Canon W s) : Canon W (arrive s id) := by
  unfold arrive
  split
  · exact hs
  · exact canon_modCtx hs

theorem canon_execVariableArrival (hs : Canon W s) : CanonOut W (execVariableArrival s) := by
  unfold execVariableArrival
  split
  · exact canonOut_next (canon_performLoad hs)
  · exact canonOut_next (canon_arrive hs)

theorem canon_startNext {die} (hs : Canon W s) : Canon W (startNext s die) := by
  unfold startNext
  split
  · exact hs
  · exact canon_after (canon_delay hs)

theorem canon_walkEnd {id} (hs : Canon W s) : Canon W (walkEnd s id) := by
  unfold walkEnd
  split
  · exact hs
  · refine canon_startNext ?_
    split
    · exact canon_foldl _ hs fun _ _ ht => canon_ite (canon_modCtx ht) (canon_modCmd ht)
    · exact canon_foldl _ hs fun _ _ ht => canon_ite (canon_modCtx ht) (canon_modCmd ht)

theorem canon_insertItems {lid} (hs : Canon W s) : Canon W (insertItems s lid) := by
  unfold insertItems
  dsimp only
  split
  · exact hs
  · split
    · exact hs
    · exact canon_serveSett (canon_settTest (canon_setSett hs))

theorem canon_failAt {kind at_ c} (hs : Canon W s) : Canon W (failAt s kind at_ c) := by
  unfold failAt
  split
  · exact hs
  · exact hs
  · exact canon_modCtx hs
  all_goals exact hs

theorem canon_reloadBundle {at_} (hs : Canon W s) : Canon W (reloadBundle s at_) := hs

/-! ### Machine/Swap -/

theorem canon_withdraw {c} (hs : Canon W s) : Canon W (withdraw s c) := hs

theorem canon_pullWaits {c} (hs : Canon W s) : Canon W (pullWaits s c) := canon_modCtx (canon_withdraw hs)

theorem canon_preemptCtx {c} (hs : Canon W s) : Canon W (preemptCtx s c) :=
  canon_ite hs (canon_ite (canon_askStop hs) (canon_modCtx (canon_pullWaits (canon_askStop hs))))

theorem canon_resumeCtx {c} (hs : Canon W s) : Canon W (resumeCtx s c) :=
  canon_ite hs (canon_foldl _ (canon_foldl _ (canon_setCtx hs) fun _ _ ht => canon_tagArrive ht) fun _ _ ht =>
    canon_sendSett ht)

theorem canon_holdBack {lid l place} (hs : Canon W s) : Canon W (holdBack s lid l place) := hs

theorem canon_dropCrews {key} (hs : Canon W s) : Canon W (dropCrews s key) := hs

theorem canon_swapOut {key} (hs : Canon W s) : Canon W (swapOut s key) := by
  unfold swapOut
  split
  · exact hs
  · exact canon_ite hs (canon_placementRun (canon_writeSlot (canon_mapOpens
      (canon_foldl _ (canon_leaveWindow (canon_foldl _ (canon_parkCmds hs) fun _ _ ht => canon_pullWaits ht))
      fun _ _ ht => canon_freeBanks ht))))

theorem canon_restoreParts {key w v r} (hs : Canon W s) : Canon W (restoreParts s key w v r) := by
  obtain ⟨hm, hg, hp⟩ : Canon W ((teamCores key w).foldl (fun t k =>
      let t := clearWindow t (teamWindow w k).1 (teamWindow w k).2
      { t with cr := { t.cr with
        istore := loadImage k (bIbase w) (((tget s.tm.launches v.lid).map imageBundles).getD []) t.cr.istore } }) s)
          :=
    canon_foldl _ hs fun _ _ ht => canon_clearWindow ht
  exact ⟨hm, hg, fun hw => memWf_foldl_wrByte _ _ _ _ (hp hw)⟩

theorem canon_swapIn {key} (hs : Canon W s) : Canon W (swapIn s key) := by
  unfold swapIn
  dsimp only
  split
  · exact hs
  · split
    · exact canon_after hs
    · split
      · exact hs
      · exact canon_foldl _ (canon_noteResident (canon_unparkCmds (canon_foldl _
          (canon_holdBack (canon_restoreParts hs)) fun _ _ ht => canon_bindCtx ht))) fun _ _ ht => canon_resumeCtx ht

theorem canon_clearSlot {key b} (hs : Canon W s) : Canon W (clearSlot s key b) :=
  canon_placementRun (canon_dropCrews (canon_writeSlot (canon_foldl _ hs fun _ _ ht => canon_ite (canon_endContext ht)
    ht)))

theorem canon_execBoardSlotWrite (hs : Canon W s) : CanonOut W (execBoardSlotWrite s) := by
  unfold execBoardSlotWrite
  refine canonOut_next ?_
  split
  · exact canon_ite (canon_clearSlot hs) (canon_writeSlot hs)
  · exact canon_writeSlot hs

theorem canon_takeDown {c d} (hs : Canon W s) : Canon W (takeDown s c d) :=
  canon_ite (canon_endContext (canon_takeTrap (canon_modCtx (canon_withdraw hs))))
    (canon_takeTrap (canon_modCtx (canon_withdraw hs)))

theorem canon_downMember {d c} (hs : Canon W s) : Canon W (downMember d s c) := by
  unfold downMember
  split
  · exact canon_endContext hs
  · split
    · exact hs
    · exact hs
    · exact canon_endContext hs
    · exact canon_modCtx (canon_resumeCtx (canon_modCtx hs))
    · exact canon_ite (canon_takeDown (canon_modCtx (canon_stopCall hs))) (canon_modCtx (canon_stopCall hs))

theorem canon_dropSaved {v} (hs : Canon W s) : Canon W (dropSaved s v) :=
  canon_foldl _ hs fun _ _ ht => canon_foldl _ ht fun _ _ hu => canon_modItem hu

theorem canon_stopPlacing {lid} (hs : Canon W s) : Canon W (stopPlacing s lid) :=
  canon_foldl _ hs fun _ _ ht => canon_cancel (canon_cancel ht)

theorem canon_giveUp {lid} (hs : Canon W s) : Canon W (giveUp s lid) :=
  canon_foldl _ (canon_stopPlacing hs) fun _ _ ht => canon_dropSaved ht

theorem canon_endLaunch {lid info0 info1} (hs : Canon W s) : Canon W (endLaunch s lid info0 info1) := by
  unfold endLaunch
  split
  · exact hs
  · exact canon_ite hs (canon_after (canon_foldl _ (canon_giveUp (canon_settEnd (canon_modLaunch hs))) fun _ _ ht =>
      canon_downMember ht))

theorem canon_stopCalls {lid} (hs : Canon W s) : Canon W (stopCalls s lid) :=
  canon_foldl _ hs fun _ _ ht => canon_ite (canon_stopCall ht) ht

theorem canon_teamEnd {e} (hs : Canon W s) : Canon W (teamEnd s e) :=
  canon_ite (canon_after (canon_stopCalls hs)) (canon_ite (canon_endLaunch
    (canon_ite (canon_modLaunch (canon_stopCalls hs)) (canon_stopCalls hs)))
    (canon_endLaunch (canon_ite (canon_modLaunch (canon_stopCalls hs)) (canon_stopCalls hs))))

theorem canon_downTimeout {lid} (hs : Canon W s) : Canon W (downTimeout s lid) := by
  unfold downTimeout
  split
  · exact hs
  · exact canon_ite hs (canon_ite (canon_after hs) (canon_foldl _ hs fun _ _ hu => canon_ite (canon_endContext hu)
      hu))

theorem canon_zitrumWrite {l va bs} (hs : Canon W s) : OnSome (Canon W) (zitrumWrite s l va bs) := by
  unfold zitrumWrite
  split
  · exact onSome_none
  · exact onSome_some (canon_writePieces hs)

theorem canon_writeList {l step} : ∀ {bss : List (List Byte)} {va : Nat} {r : Nat × Bool × State}, Canon W r.2.2 →
    Canon W (writeList l step bss va r).2.2
  | [], _, _, hr => hr
  | _ :: bss, va, (n, bad, s), hr => by
    unfold writeList
    split
    next heq => exact canon_writeList (canon_zitrumWrite hr _ heq)
    · exact canon_writeList hr

theorem canon_writeBack {l} (hs : Canon W s) : Canon W (writeBack s l).2.2.2 := by
  unfold writeBack
  split
  · exact hs
  · exact canon_writeList (canon_writeList hs)

theorem canon_completionTouch {l} (hs : Canon W s) : OnSome (Canon W) (completionTouch s l) :=
  canon_touchPieces (canon_drainLaunch hs)

theorem canon_holdLog {l} (hs : Canon W s) : Canon W (holdLog s l) := canon_ite hs hs

theorem canon_answerWaiting {lid} (hs : Canon W s) : Canon W (answerWaiting s lid) :=
  canon_foldl _ hs fun _ _ ht => canon_ite (canon_respond ht) (canon_respond ht)

theorem canon_leaveLines {lid done} (hs : Canon W s) : Canon W (leaveLines s lid done) :=
  canon_foldl _ hs fun _ _ ht => canon_producerEnds ht

theorem canon_complete {l} (hs : Canon W s) : Canon W (complete s l) :=
  canon_placementRun (canon_endPool (canon_leaveLines (canon_answerWaiting
    (canon_holdLog (canon_writeRecord64 (canon_writeBack (canon_drainLaunch hs)))))))

theorem canon_execLaunchCompletion (hs : Canon W s) : CanonOut W (execLaunchCompletion s) := by
  unfold execLaunchCompletion
  refine canonOut_next ?_
  split
  · exact canon_ite (canon_complete hs) hs
  · exact hs

/-! ### Machine/Ckpt -/

theorem canon_takeCkpt {l saves q} (hs : Canon W s) : Canon W (takeCkpt s l saves q) := by
  -- Unfolded as a function: against the applied term, the kernel would evaluate what its `match` is of.
  generalize hf : takeCkpt = f
  delta takeCkpt at hf
  subst hf
  beta_reduce
  extract_lets dest room man area wr
  have hwr {at_ b t} (ht : Canon W t) : Canon W (wr at_ b t) := by
    unfold wr
    split
    · exact canon_writePieces ht
    · exact ht
  clear_value dest room man area wr
  split
  · exact canon_ite (canon_respond hs) (canon_respond (hwr (hwr hs)))
  · exact canon_respond hs

theorem canon_ckptTouch {l q} (hs : Canon W s) : Canon W (ckptTouch s l q) := by
  unfold ckptTouch
  split
  · exact onSome_getD (canon_touchPieces hs) hs
  · exact hs

theorem canon_takeCkpts {lid saves} (hs : Canon W s) : Canon W (takeCkpts s lid saves) := by
  unfold takeCkpts
  extract_lets qs t
  split
  · exact hs
  · exact canon_foldl _ hs fun _ _ ht => canon_takeCkpt (canon_ckptTouch ht)

/-! ### Machine/Steps -/

theorem canon_stepLogs {lid n} (hs : Canon W s) : Canon W (stepLogs s lid n) :=
  canon_foldl _ hs fun _ _ ht => canon_logEvent ht

theorem canon_stepMarks {lid} (hs : Canon W s) : Canon W (stepMarks s lid) := canon_modLaunch hs

theorem canon_passAll {lid} (hs : Canon W s) : Canon W (passAll s lid) :=
  canon_foldl _ hs fun _ _ ht => canon_modCtx ht

theorem canon_boundary {l} (hs : Canon W s) : Canon W (boundary s l) := by
  unfold boundary
  extract_lets t u saves v w
  have ht : Canon W t := canon_drainLaunch hs
  have hu : Canon W u := canon_modLaunch ht
  clear_value u saves
  have hv : Canon W v := canon_takeCkpts hu
  have hw : Canon W w := canon_stepMarks (canon_stepLogs hv)
  exact canon_passAll (canon_ite (hw :) hv)

theorem canon_execStepBoundary (hs : Canon W s) : CanonOut W (execStepBoundary s) := by
  unfold execStepBoundary
  refine canonOut_next ?_
  split
  · exact canon_ite (canon_boundary hs) hs
  · exact hs

theorem canon_stopTasks {lid why} (hs : Canon W s) : Canon W (stopTasks s lid why) := by
  unfold stopTasks
  split
  · exact hs
  · exact canon_ite hs (canon_foldl _ (canon_stopPlacing (canon_modLaunch hs)) fun _ _ ht => canon_ite
      (canon_modCtx (canon_withdraw (canon_stopCall ht))) ht)

theorem canon_undoLines {lid ms} (hs : Canon W s) : Canon W (undoLines s lid ms) := hs

theorem canon_undoPages {pages} (hs : Canon W s) : Canon W (undoPages s pages) :=
  canon_foldl _ hs fun _ _ ht => canon_ite ht ⟨memWf_wrBytes _ _ _ ht.1, ht.2⟩

theorem canon_dropTeams {lid} (hs : Canon W s) : Canon W (dropTeams s lid) :=
  canon_foldl _ (canon_foldl _ hs fun _ _ ht => canon_dropCrews (canon_writeSlot
    (canon_foldl _ ht fun _ _ ht1 => canon_freeBanks ht1))) fun _ _ ht => canon_dropSaved ht

theorem canon_restart {l n} (hs : Canon W s) : Canon W (restart s l n) := canon_modLaunch hs

theorem canon_answerAbandon {lid} (hs : Canon W s) : Canon W (answerAbandon s lid) :=
  canon_foldl _ hs fun _ _ ht => canon_respond ht

theorem canon_abandonEnds {lid why} (hs : Canon W s) : Canon W (abandonEnds s lid why) :=
  canon_teamEnd (canon_modLaunch hs)

theorem canon_endHomeless (hs : Canon W s) : Canon W (endHomeless s) := canon_foldl _ hs fun _ _ ht => canon_after ht

theorem canon_abandon {l why} (hs : Canon W s) : Canon W (abandon s l why) :=
  canon_ite (canon_abandonEnds (canon_postNotice hs)) (canon_endHomeless
    (canon_placementRun (canon_answerAbandon (canon_restart (canon_dropTeams
    (canon_undoPages (canon_undoLines (canon_postNotice hs))))))))

theorem canon_execStepAbandon (hs : Canon W s) : CanonOut W (execStepAbandon s) := by
  unfold execStepAbandon
  refine canonOut_next ?_
  split
  · exact canon_ite (canon_stopTasks hs) (canon_after hs)
  · split
    · exact canon_ite (canon_abandon hs) hs
    · exact hs

theorem canon_teamLoses {core e} (hs : Canon W s) : Canon W (teamLoses core s e) :=
  canon_ite (canon_askAbandon (canon_foldl _ hs fun _ _ ht => canon_modCtx ht))
    (canon_after (canon_modLaunch (canon_foldl _ hs fun _ _ ht => canon_ite ht (canon_endContext ht))))

theorem canon_failCore {core} (hs : Canon W s) : Canon W (failCore s core) := by
  obtain ⟨hm, hg, hp⟩ := hs
  exact canon_endHomeless (canon_foldl _ (canon_unplace ⟨hm, hg, fun hw => memWf_memDrop _ _ _ (hp hw)⟩)
    fun _ _ ht => canon_teamLoses ht)

theorem canon_substitute {core} (hs : Canon W s) : Canon W (substitute s core) := by
  obtain ⟨hm, hg, hp⟩ := hs
  exact canon_ite ⟨hm, hg, hp⟩ ⟨hm, hg, fun hw => memWf_memDrop _ _ _ (hp hw)⟩

/-! ### Machine/Tables -/

theorem canon_zeroMem {a n} (hs : Canon W s) : Canon W (zeroMem s a n) :=
  canon_ite hs ⟨memWf_memDrop _ _ _ hs.1, hs.2⟩

theorem canon_takePages {tier2 n size count} (hs : Canon W s) :
    OnSome (fun q => Canon W q.2) (takePages s tier2 n size count) := by
  unfold takePages
  dsimp only
  split
  · exact onSome_none
  · split
    · exact onSome_some (canon_zeroMem hs)
    · exact onSome_ite onSome_none (onSome_some (canon_zeroMem hs))

theorem canon_takeTable (hs : Canon W s) : OnSome (fun q => Canon W q.2) (takeTable s) := by
  unfold takeTable
  dsimp only
  split
  · exact onSome_none
  · refine onSome_some ?_
    generalize 2 ^ 36 - 8192 * (tableCount s + 1) = a
    exact canon_zeroMem (canon_withTt hs)

theorem canon_putDesc {at_ low high} (hs : Canon W s) : Canon W (putDesc s at_ low high) :=
  canon_withMem hs (memWf_wrBytes _ _ _ hs.1)

theorem canon_tableFor {ta target fuel table level} (hs : Canon W s) :
    OnSome (fun q => Canon W q.2) (tableFor ta target fuel table level s) := by
  induction fuel generalizing table level s with
  | zero => exact onSome_none
  | succ fuel ih =>
    rw [tableFor]
    split
    · exact onSome_some hs
    · extract_lets
      split
      · exact onSome_ite onSome_none (ih hs)
      · split
        · exact onSome_none
        next heq => exact ih (canon_putDesc (canon_takeTable hs _ heq))

theorem canon_putLeaf {root ta size low high} (hs : Canon W s) :
    OnSome (Canon W) (putLeaf s root ta size low high) := by
  unfold putLeaf
  split
  · exact onSome_none
  next heq =>
    exact onSome_ite onSome_none (onSome_some (canon_foldl _ (canon_tableFor hs _ heq) fun _ _ hu => canon_putDesc
      hu))

theorem canon_dropLeaf {root ta size} (hs : Canon W s) : OnSome (fun q => Canon W q.2) (dropLeaf s root ta size) :=
  onSome_map_of_forall fun _ => canon_foldl _ hs fun _ _ hu => canon_putDesc hu

theorem canon_bearLine {high} (hs : Canon W s) : Canon W (bearLine s high) := canon_ite hs (canon_setLine hs)

theorem canon_mapPages {root size bytes low high} : ∀ {n ta pa : Nat} {s : State}, Canon W s →
    OnSome (Canon W) (mapPages root size bytes low high n ta pa s)
  | 0, _, _, _, hs => onSome_some hs
  | n + 1, ta, pa, s, hs => by
    unfold mapPages
    split
    · exact onSome_none
    next heq => exact canon_mapPages (canon_putLeaf hs _ heq)

theorem canon_invalidate {comp pages} (hs : Canon W s) : Canon W (invalidate s comp pages) := hs

theorem canon_releasePages {comp pages} (hs : Canon W s) : Canon W (releasePages s comp pages) := hs

theorem canon_endInval {comp} (hs : Canon W s) : Canon W (endInval s comp) := by
  unfold endInval
  dsimp only
  split
  · exact hs
  · split
    · exact hs
    · split
      · exact canon_releasePages hs
      · exact canon_respond hs

theorem canon_wakeDemand {comp ta bytes} (hs : Canon W s) : Canon W (wakeDemand s comp ta bytes) :=
  canon_foldl _ hs fun _ _ hu => canon_ite (canon_modCtx hu) (canon_modCmd hu)

theorem canon_installPage {comp ta low high} (hs : Canon W s) :
    OnSome (Canon W) (installPage s comp ta low high) := by
  unfold installPage
  dsimp only
  split
  · exact onSome_none
  · split
    · exact onSome_none
    · split
      · exact onSome_none
      next heq =>
        exact onSome_ite onSome_none (onSome_map (canon_putLeaf (canon_takePages hs _ heq)) fun _ ht => canon_ite
          (canon_bearLine ht) ht)

theorem canon_declineDemand {who comp page} (hs : Canon W s) : Canon W (declineDemand s who comp page) :=
  canon_ite (canon_modCtx hs) (canon_modCmd hs)

theorem canon_demandService {e} (hs : Canon W s) : Canon W (demandService s e) := by
  unfold demandService
  dsimp only
  split
  · exact canon_after hs
  · split
    · exact hs
    · split
      · exact canon_wakeDemand hs
      · split
        next heq => exact canon_wakeDemand (onSome_ite (canon_installPage hs) onSome_none _ heq)
        · exact canon_declineDemand hs

theorem canon_launchProducer {key} (hs : Canon W s) : Canon W (launchProducer s key) := by
  unfold launchProducer
  split
  · exact canon_after hs
  · split
    · exact hs
    · split
      · exact canon_producerEnds hs
      · exact hs

theorem canon_endProducer {key ok} (hs : Canon W s) : Canon W (endProducer s key ok) := by
  unfold endProducer
  split
  · exact hs
  · exact canon_ite (canon_setLine hs) (canon_foldl _ (canon_setLine hs) fun _ _ ht => canon_ite (canon_modCtx ht)
      (canon_modCmd ht))

/-! ### Machine/Requests -/

theorem canon_withdrawSlot {n} (hs : Canon W s) : Canon W (withdrawSlot s n) := hs

theorem canon_writeState {n v} (hs : Canon W s) : Canon W (writeState s n v) :=
  canon_ite (canon_ite hs hs) (canon_ite (canon_ite (canon_setSlot (canon_withdrawSlot hs))
    (canon_ite (canon_setSlot hs) hs)) (canon_ite hs (canon_sendMsix (canon_setSlot (canon_withdrawSlot hs)))))

theorem canon_takeReq {q} (hs : Canon W s) : Canon W (takeReq s q).2 := by
  unfold takeReq
  split
  · exact canon_setSlot hs
  all_goals exact hs

theorem canon_onRequest {code masks reads} {f : Request → State → State} (hs : Canon W s)
    (hf : ∀ q t, Canon W t → Canon W (f q t)) : CanonOut W (onRequest code masks reads f s) := by
  refine canonOut_next ?_
  split
  · exact hs
  · have ht (q : Request) (l : List Request) : Canon W (takeReq { s with ho := { s.ho with requests := l } } q).2 :=
      canon_takeReq hs
    exact canon_ite hs (canon_ite (canon_respond (ht _ _)) (canon_ite (canon_respond (ht _ _))
      (canon_ite (canon_respond (ht _ _)) (hf _ _ (ht _ _)))))

theorem canon_waitForRequest {q} (hs : Canon W s) : Canon W (waitFor s q) := hs

theorem canon_execSlotBadState (hs : Canon W s) : CanonOut W (execSlotBadState s) := by
  unfold execSlotBadState
  refine canonOut_next ?_
  split
  · split
    · exact hs
    · exact canon_ite hs (canon_respond (canon_takeReq hs))
  · exact canon_writeState hs

theorem canon_mgmtArrives {port d} (hs : Canon W s) : Canon W (mgmtArrives s port d) := canon_ite hs hs

theorem canon_execLaunch (hs : Canon W s) : CanonOut W (execLaunch s) := by
  unfold execLaunch
  split
  · exact canonOut_next hs
  · split
    · exact canonOut_next hs
    · exact canon_onRequest hs (fun _ _ hs1 => hs1)

theorem canon_killLaunch {lid sub} (hs : Canon W s) : Canon W (killLaunch s lid sub) :=
  canon_after (canon_modLaunch hs)

theorem canon_execKill (hs : Canon W s) : CanonOut W (execKill s) :=
  canon_onRequest hs (fun _ _ hs1 => canon_ite (canon_respond hs1) (canon_waitForRequest (canon_killLaunch hs1)))

theorem canon_execAbandon (hs : Canon W s) : CanonOut W (execAbandon s) := by
  unfold execAbandon
  refine canon_onRequest hs (fun q s1 hs1 => ?_)
  split
  · exact canon_ite (canon_askAbandon (canon_waitForRequest hs1)) (canon_respond hs1)
  · exact canon_respond hs1

theorem canon_execCkpt (hs : Canon W s) : CanonOut W (execCkpt s) := by
  unfold execCkpt
  dsimp only
  refine canon_onRequest hs (fun q s1 hs1 => ?_)
  split
  · exact canon_respond hs1
  · split
    · exact canon_ite (canon_waitForRequest hs1) (canon_respond hs1)
    · exact canon_respond hs1

theorem canon_execLogrel (hs : Canon W s) : CanonOut W (execLogrel s) :=
  canon_onRequest hs (fun _ _ hs1 => canon_ite (canon_respond hs1) (canon_ite (canon_respond hs1)
    (canon_respond hs1)))

theorem canon_makeComp {q} (hs : Canon W s) : Canon W (makeComp q s) := by
  unfold makeComp
  split
  next heq => exact canon_respond ((canon_takeTable hs _ heq :))
  · exact canon_respond hs

theorem canon_execMkcomp (hs : Canon W s) : CanonOut W (execMkcomp s) :=
  canon_onRequest hs (fun _ _ ht1 => canon_makeComp ht1)

theorem canon_destroyComp {comp} (hs : Canon W s) : Canon W (destroyComp s comp) :=
  canon_foldl _ hs fun _ _ ht => canon_dropWindow ht

theorem canon_execRmcomp (hs : Canon W s) : CanonOut W (execRmcomp s) := by
  unfold execRmcomp
  split
  · refine canonOut_next ?_
    split
    · exact canon_respond (canon_destroyComp hs)
    · exact hs
  · exact canon_onRequest hs (fun _ _ hs1 => canon_ite (canon_respond hs1)
      (canon_ite (canon_respond hs1) (canon_ite (canon_respond (canon_destroyComp hs1))
      (canon_waitForRequest (canon_foldl _ hs1 fun _ _ ht => canon_killLaunch ht)))))

theorem canon_mapRequest {q} (hs : Canon W s) : Canon W (mapRequest q s) := by
  unfold mapRequest
  extract_lets high w2 ta count size low bytes comp lineBad
  refine canon_ite (canon_respond hs) ?_
  split
  · exact canon_respond hs
  · refine canon_ite (canon_respond hs) ?_
    split
    · exact canon_respond hs
    next heq =>
      dsimp only
      split
      · exact canon_respond hs
      next heq1 =>
        have hu := canon_mapPages (canon_takePages hs _ heq) _ heq1
        exact canon_respond (canon_ite (canon_bearLine hu) hu)

theorem canon_execMap (hs : Canon W s) : CanonOut W (execMap s) :=
  canon_onRequest hs (fun _ _ ht1 => canon_mapRequest ht1)

/-! ### Machine/Tables -/

theorem canon_unmapPages {root size bytes} : ∀ {n ta : Nat} {r : List (Nat × Nat) × State}, Canon W r.2 →
    Canon W (unmapPages root size bytes n ta r).2
  | 0, _, _, hr => hr
  | n + 1, ta, (l, s), hr => by
    unfold unmapPages
    split
    next heq => exact canon_unmapPages (canon_dropLeaf hr _ heq)
    · exact canon_unmapPages hr

/-! ### Machine/Requests -/

theorem canon_unmapNow {q} (hs : Canon W s) : Canon W (unmapNow q s) := by
  unfold unmapNow
  dsimp only
  split
  · exact canon_respond hs
  · exact canon_waitForRequest (canon_invalidate (canon_unmapPages hs))

theorem canon_unmapRequest {q} (hs : Canon W s) : Canon W (unmapRequest q s) :=
  canon_ite (canon_respond hs) (canon_ite (canon_respond hs) (canon_ite (canon_waitForRequest hs)
    (canon_unmapNow hs)))

theorem canon_execUnmap (hs : Canon W s) : CanonOut W (execUnmap s) := by
  unfold execUnmap
  split
  · refine canonOut_next ?_
    split
    · exact canon_unmapNow hs
    · exact hs
  · exact canon_onRequest hs (fun _ _ ht1 => canon_unmapRequest ht1)

theorem canon_budgetRequest {q} (hs : Canon W s) : Canon W (budgetRequest q s) := by
  unfold budgetRequest
  dsimp only
  split
  · split
    · exact canon_respond hs
    · split
      · exact canon_respond hs
      · exact canon_respond hs
  · split
    · split
      · exact canon_respond hs
      · split
        · exact canon_respond hs
        · split
          · exact canon_respond hs
          · exact canon_respond hs
    · exact canon_respond hs

theorem canon_execBudget (hs : Canon W s) : CanonOut W (execBudget s) :=
  canon_onRequest hs (fun _ _ ht1 => canon_budgetRequest ht1)

theorem canon_reportRequest {q} (hs : Canon W s) : Canon W (reportRequest q s) :=
  canon_ite (canon_respond hs) (canon_ite (canon_respond hs) (canon_ite (canon_respond hs) (canon_respond hs)))

theorem canon_execReport (hs : Canon W s) : CanonOut W (execReport s) :=
  canon_onRequest hs (fun _ _ ht1 => canon_reportRequest ht1)

theorem canon_execPkgnum (hs : Canon W s) : CanonOut W (execPkgnum s) :=
  canon_onRequest hs (fun _ _ hs1 => canon_ite (canon_respond hs1) (canon_respond hs1))

theorem canon_execWinlist (hs : Canon W s) : CanonOut W (execWinlist s) :=
  canon_onRequest hs (fun _ _ hs1 => canon_ite (canon_respond hs1) (canon_respond hs1))

theorem canon_restoreLine {comp e} (hs : Canon W s) : Canon W (restoreLine comp s e) := canon_setLine hs

theorem canon_restoreTeams {k lid comp} (hs : Canon W s) : Canon W (restoreTeams s k lid comp) := canon_modLaunch hs

theorem canon_restorePage {comp e} (hs : Canon W s) : Canon W (restorePage comp s e) := by
  unfold restorePage
  split
  · exact canon_writePieces hs
  · exact hs

theorem canon_restoreCkpt {q comp k parts} (hs : Canon W s) : Canon W (restoreCkpt q comp k parts s) := by
  have ht : Canon W (k.pages.foldl (restorePage comp) (parts.foldl (restoreLine comp) s)) :=
    canon_foldl _ (canon_foldl _ hs fun _ _ ht => canon_restoreLine ht) fun _ _ ht => canon_restorePage ht
  -- Unfolded as a function: against the applied term, the kernel would evaluate what its `match` is of.
  generalize hf : restoreCkpt = f
  delta restoreCkpt at hf
  subst hf
  beta_reduce
  extract_lets u p
  have hu : Canon W u := ht
  clear_value u p
  split
  · exact canon_respond hu
  · exact canon_placementRun (canon_respond (canon_restoreTeams (canon_acceptPacket hu)))

theorem canon_restoreNow {q} (hs : Canon W s) : Canon W (restoreNow q s) := by
  unfold restoreNow
  dsimp only
  split
  · split
    · exact canon_respond hs
    · split
      · exact canon_respond hs
      · exact canon_restoreCkpt hs
  · exact canon_respond hs

theorem canon_restoreRequest {q} (hs : Canon W s) : Canon W (restoreRequest q s) := by
  unfold restoreRequest
  dsimp only
  split
  · exact canon_respond hs
  · split
    · exact canon_respond hs
    · split
      next heq => exact canon_restoreNow (canon_touchPieces hs _ heq)
      · exact canon_waitForRequest hs

theorem canon_execRestore (hs : Canon W s) : CanonOut W (execRestore s) := by
  unfold execRestore
  split
  · refine canonOut_next ?_
    split
    · exact canon_restoreRequest hs
    · exact hs
  · exact canon_onRequest hs (fun _ _ ht1 => canon_restoreRequest ht1)

theorem canon_hostWritePiece {comp pa bs} (hs : Canon W s) : Canon W (hostWritePiece comp s pa bs) :=
  canon_pageWrite hs

theorem canon_hostWritePieces {comp} : ∀ {l : List (Nat × Nat)} {bs : List Byte} {s : State}, Canon W s →
    Canon W (hostWritePieces comp l bs s)
  | [], _, _, hs => hs
  | _ :: l, _, _, hs => canon_hostWritePieces (l := l) (canon_hostWritePiece hs)

theorem canon_hostReadPiece {r q} (hr : Canon W r.2) : Canon W (hostReadPiece r q).2 := by
  unfold hostReadPiece
  split
  · exact hr
  · exact List.foldlRecOn (motive := fun (t : List Byte × State) => Canon W t.2) _ _ hr fun _ ht _ _ => canon_freeVal
      ht

theorem canon_windowAccess {e} (hs : Canon W s) : Canon W (windowAccess s e) := by
  unfold windowAccess
  split
  · exact canon_ite hs hs
  · split
    · exact hs
    · split
      · exact hs
      next heq =>
        have ht := canon_touchPieces hs _ heq
        exact canon_ite (canon_hostWritePieces ht)
          (List.foldlRecOn (motive := fun q => Canon W q.2) _ hostReadPiece ht fun _ hq _ _ => canon_hostReadPiece hq)

/-! ### Machine/Handover -/

theorem canon_installRecord {r} (hs : Canon W s) : Canon W (installRecord r s) := hs

theorem canon_dropRecord (hs : Canon W s) : Canon W (dropRecord s) := by
  unfold dropRecord
  split
  all_goals exact hs

theorem canon_placeRecord {b} (hs : Canon W s) : Canon W (placeRecord b s) := by
  unfold placeRecord
  split
  next heq =>
    obtain ⟨hm, hg, hp⟩ := onSome_findSome _ (fun _ => canon_takePages hs) _ heq
    exact ⟨memWf_wrBytes _ _ _ hm, hg, hp⟩
  · exact hs

theorem canon_putRecord {h} (hs : Canon W s) : Canon W (putRecord s h) := canon_placeRecord (canon_dropRecord hs)

theorem canon_resumeRecord {h} (hs : Canon W s) : Canon W (resumeRecord s h) := by
  unfold resumeRecord
  dsimp only
  split
  · exact canon_installRecord (canon_putRecord hs)
  · exact canon_putRecord hs

/-! ### Machine/Boot -/

theorem canon_bootWord {st fail attempt src} (hs : Canon W s) : Canon W (bootWord s st fail attempt src) :=
  canon_withRt hs

theorem canon_bootState {st} (hs : Canon W s) : Canon W (bootState s st) := canon_bootWord hs

theorem canon_bootFail {code} (hs : Canon W s) : Canon W (bootFail s code) := canon_bootWord hs

theorem canon_bootAttempt {st src} (hs : Canon W s) : Canon W (bootAttempt s st src) := canon_bootWord hs

theorem canon_bootTimersOff (hs : Canon W s) : Canon W (bootTimersOff s) :=
  canon_cancel (canon_cancel (canon_cancel hs))

theorem canon_bootStep {b ms row} (hs : Canon W s) : Canon W (bootStep s b ms row) :=
  canon_after (canon_bootTimersOff hs)

theorem canon_startBody {source b} (hs : Canon W s) : Canon W (startBody s source b) :=
  canon_bootStep (canon_bootState hs)

theorem canon_takeSource {source} (hs : Canon W s) : Canon W (takeSource s source) := by
  unfold takeSource
  split
  · exact canon_bootStep (canon_bootState hs)
  · exact canon_bootStep (canon_bootAttempt hs)
  · exact canon_ite (canon_bootStep (canon_bootAttempt hs)) (canon_bootStep (canon_bootAttempt hs))

theorem canon_bootImage {source b} (hs : Canon W s) : Canon W (bootImage s source b) :=
  canon_after (canon_delay (canon_bootState (canon_bootTimersOff hs)))

theorem canon_bootVerified {source b} (hs : Canon W s) : Canon W (bootVerified s source b) := by
  unfold bootVerified
  split
  · exact canon_startBody hs
  · exact canon_takeSource (canon_bootFail hs)

theorem canon_bootStaged (hs : Canon W s) : Canon W (bootStaged s) := by
  unfold bootStaged
  split
  · exact canon_ite (canon_bootImage hs) hs
  all_goals exact hs

theorem canon_powerOff {s : State} : Canon W (powerOff s) := ⟨rfl, rfl, fun _ => rfl⟩

theorem canon_powerOn (hs : Canon W s) : Canon W (powerOn s) :=
  canon_ite hs (canon_bootStaged (canon_takeSource ⟨rfl, rfl, fun _ => rfl⟩))

theorem canon_fetchTimeout (hs : Canon W s) : Canon W (fetchTimeout s) := by
  unfold fetchTimeout
  split
  · exact canon_bootStep (canon_bootAttempt (canon_bootFail hs))
  · exact canon_bootStaged (canon_takeSource (canon_bootFail hs))
  · exact canon_bootStaged (canon_takeSource (canon_bootFail hs))
  · exact canon_bootStaged (canon_takeSource (canon_bootFail hs))
  all_goals exact hs

theorem canon_imageArrives {e} (hs : Canon W s) : Canon W (imageArrives s e) := by
  unfold imageArrives
  split
  · exact canon_ite (canon_bootImage hs) hs
  all_goals exact hs

theorem canon_imageVerified (hs : Canon W s) : Canon W (imageVerified s) := by
  unfold imageVerified
  split
  · exact canon_bootStaged (canon_bootVerified hs)
  all_goals exact hs

theorem canon_linkUp (hs : Canon W s) : Canon W (linkUp s) := by
  unfold linkUp
  dsimp only
  split
  · exact canon_bootStaged (canon_bootStep hs)
  all_goals exact hs

theorem canon_bootCommit (hs : Canon W s) : Canon W (bootCommit s) := canon_bootState hs

theorem canon_bootLost {source} (hs : Canon W s) : Canon W (bootLost s source) :=
  canon_bootStaged (canon_takeSource (canon_bootFail hs))

theorem canon_execBootCommitDeadline (hs : Canon W s) : CanonOut W (execBootCommitDeadline s) := by
  unfold execBootCommitDeadline
  refine canonOut_next ?_
  split
  · exact canon_ite (canon_bootCommit hs) (canon_bootLost hs)
  all_goals exact hs

theorem canon_handState {st fail kind seq} (hs : Canon W s) : Canon W (handState s st fail kind seq) :=
  canon_postNotice (canon_withRt hs)

theorem canon_handFail {code} (hs : Canon W s) : Canon W (handFail s code) := hs

theorem canon_stageImage {q} (hs : Canon W s) : Canon W (stageImage q s) := by
  unfold stageImage
  dsimp only
  split
  · exact canon_respond (canon_handState hs)
  · exact canon_respond (canon_handFail hs)

theorem canon_execStage (hs : Canon W s) : CanonOut W (execStage s) :=
  canon_onRequest hs (fun _ _ hs1 => canon_ite (canon_respond hs1) (canon_ite (canon_respond hs1)
    (canon_ite (canon_stageImage hs1) (canon_waitForRequest hs1))))

theorem canon_goSet (hs : Canon W s) : Canon W (goSet s) := by
  unfold goSet
  dsimp only
  split
  · exact canon_ite (canon_stageImage (canon_bootStaged hs)) (canon_bootStaged hs)
  · exact canon_bootStaged hs

theorem canon_handRevert {h code} (hs : Canon W s) : Canon W (handRevert s h code) :=
  canon_handState (canon_dropRecord (canon_resumeRecord hs))

theorem canon_handCommit {h} (hs : Canon W s) : Canon W (handCommit s h) :=
  canon_ite (canon_handState (canon_dropRecord hs)) (canon_handState (canon_dropRecord hs))

theorem canon_handSwitch (hs : Canon W s) : Canon W (handSwitch s) := by
  unfold handSwitch
  dsimp only
  split
  · exact hs
  · split
    · exact hs
    · split
      · exact canon_ite (canon_after (canon_installRecord (canon_handState (canon_putRecord hs))))
          (canon_handRevert (canon_handState (canon_putRecord hs)))
      · exact canon_handRevert (canon_handState (canon_putRecord hs))

theorem canon_handDeadline (hs : Canon W s) : Canon W (handDeadline s) := by
  unfold handDeadline
  split
  · exact canon_ite hs (canon_ite (canon_handCommit hs) (canon_handRevert hs))
  · exact hs

theorem canon_alivePosted {svn} (hs : Canon W s) : Canon W (alivePosted s svn) := by
  unfold alivePosted
  dsimp only
  split
  · exact canon_ite hs hs
  · exact hs

theorem canon_watchdog (hs : Canon W s) : Canon W (watchdog s) := by
  unfold watchdog
  split
  · exact canon_ite (canon_handRevert hs) hs
  · split
    · exact canon_bootLost hs
    all_goals exact hs

theorem canon_regByte {a b} (hs : Canon W s) : Canon W (regByte s a b) := by
  unfold regByte
  split
  · dsimp only
    exact canon_ite (canon_setSlot hs) (canon_setSlot hs)
  · exact canon_ite (canon_withStaging hs (memWf_wrByte _ _ _ hs.2.1)) hs

theorem canon_regBytes : ∀ {bs : List Byte} {a : Nat} {s : State}, Canon W s → Canon W (regBytes a bs s)
  | [], _, _, hs => hs
  | _ :: bs, _, _, hs => canon_regBytes (bs := bs) (canon_regByte hs)

theorem canon_registerWrite {a bs} (hs : Canon W s) : Canon W (registerWrite s a bs) :=
  canon_foldl _ (canon_ite (canon_goSet (canon_regBytes hs)) (canon_regBytes hs)) fun _ _ ht => canon_ite
    (canon_writeState ht) ht

theorem canon_linkTrain {e} (hs : Canon W s) : Canon W (linkTrain s e) :=
  canon_ite (canon_portStatus hs) (canon_portStatus hs)

theorem canon_sessionUp {e} (hs : Canon W s) : Canon W (sessionUp s e) :=
  canon_ite hs (canon_ite (canon_portStatus hs) hs)

theorem canon_execSessionRekey (hs : Canon W s) : CanonOut W (execSessionRekey s) := by
  unfold execSessionRekey
  refine canonOut_next ?_
  split
  all_goals exact hs

/-! ### Machine/Period -/

theorem canon_newPeriod (hs : Canon W s) : Canon W (newPeriod s) := hs

theorem canon_rebalance {l} (hs : Canon W s) : Canon W (rebalance s l) := by
  unfold rebalance
  split
  · split
    · exact canon_ite hs (canon_settMove hs)
    all_goals exact hs
  · exact hs

theorem canon_zitrumPeriod (hs : Canon W s) : Canon W (zitrumPeriod s) := by
  unfold zitrumPeriod
  split
  · exact hs
  · refine canon_placementRun (canon_foldl _ hs fun t n ht => ?_)
    split
    · exact canon_ite (canon_after (canon_ite (canon_divergeCheck (canon_rebalance ht)) (canon_rebalance ht)))
        (canon_ite (canon_divergeCheck (canon_rebalance ht)) (canon_rebalance ht))
    · exact ht

theorem canon_periodBoundary (hs : Canon W s) : Canon W (periodBoundary s) :=
  canon_zitrumPeriod (canon_handSwitch (canon_newPeriod hs))

/-! ### Machine/Bundle -/

theorem canon_askReload {key} (hs : Canon W s) : Canon W (askReload s key) :=
  canon_ite hs (canon_after (canon_delay hs))

theorem canon_execFairnessLimit (hs : Canon W s) : CanonOut W (execFairnessLimit s) := by
  unfold execFairnessLimit
  refine canonOut_next ?_
  split
  · exact canon_setCore hs
  · exact hs

/-! ### Machine/Next -/

theorem canon_todo {row arg} (hs : Canon W s) : CanonTodo W (todo s row arg) := hs

theorem canon_takeDue {d} (hs : Canon W s) : CanonTodo W (takeDue s d) := canon_todo hs

theorem canon_beforeIssue (hs : Canon W s) : OnSome (CanonTodo W) (beforeIssue s) := by
  unfold beforeIssue
  split
  · exact onSome_some (canon_todo hs)
  · split
    · exact onSome_some (canon_takeDue hs)
    · split
      · exact onSome_some (canon_todo hs)
      · split
        · exact onSome_some (canon_todo hs)
        · exact onSome_map_of_forall fun _ => canon_todo hs

theorem canon_turn {c} (hs : Canon W s) : CanonTodo W (turn s c) := by
  unfold turn
  dsimp only
  split
  · exact canon_todo (canon_modCtx hs)
  · split
    · exact canon_todo (canon_modCtx hs)
    · split
      · exact canon_todo (canon_modCtx hs)
      · split
        · exact hs
        · exact canon_todo (canon_modCtx hs)

theorem canon_boardDue (hs : Canon W s) : OnSome (CanonTodo W) (boardDue s) :=
  onSome_ite onSome_none (onSome_findSome _ (fun _ => onSome_ite (onSome_some (canon_todo hs))
    (onSome_ite (onSome_some (canon_todo hs)) onSome_none)))

theorem canon_launchDue (hs : Canon W s) : OnSome (CanonTodo W) (launchDue s) := by
  unfold launchDue
  dsimp only
  split
  · exact onSome_none
  · refine onSome_findSome _ (fun e => ?_)
    split
    · exact onSome_some (canon_todo hs)
    · split
      · exact onSome_some (canon_todo hs)
      · split
        · exact onSome_ite (onSome_some (canon_todo hs)) onSome_none
        · exact onSome_ite (onSome_some (canon_todo hs)) onSome_none

theorem canon_requestDue (hs : Canon W s) : OnSome (CanonTodo W) (requestDue s) := by
  unfold requestDue
  split
  · exact onSome_none
  · split
    · exact onSome_ite (onSome_ite (onSome_some (canon_todo hs)) onSome_none) (onSome_some (canon_todo hs))
    · exact onSome_ite (onSome_some (canon_todo hs)) (onSome_ite (onSome_some (canon_todo hs))
        (onSome_ite (onSome_some (canon_todo hs)) (onSome_ite (onSome_some (canon_todo hs)) onSome_none)))

theorem canon_upkeepDue (hs : Canon W s) : OnSome (CanonTodo W) (upkeepDue s) := by
  unfold upkeepDue
  split
  · exact onSome_some (canon_todo hs)
  · split
    · exact onSome_some (canon_todo hs)
    · exact onSome_map_of_forall fun _ => canon_todo hs

theorem canon_hostDue (hs : Canon W s) : OnSome (CanonTodo W) (hostDue s) := by
  unfold hostDue
  split
  · exact onSome_ite (onSome_some (canon_todo hs)) onSome_none
  · exact onSome_none

theorem canon_afterIssue (hs : Canon W s) : OnSome (CanonTodo W) (afterIssue s) := by
  unfold afterIssue
  split
  · exact onSome_some (canon_takeDue hs)
  · exact onSome_orElse (canon_hostDue hs) (onSome_orElse (canon_boardDue hs)
      (onSome_orElse (canon_launchDue hs) (onSome_orElse (canon_requestDue hs) (canon_upkeepDue hs))))

theorem canon_tick (hs : Canon W s) : Canon W (tick s) := hs

theorem canon_nextTodo (hs : Canon W s) : OnSome (CanonTodo W) (nextTodo s) := by
  unfold nextTodo
  split
  next heq => exact onSome_some (canon_beforeIssue hs _ heq)
  · split
    · refine onSome_some ?_
      split
      · exact canon_todo hs
      · exact canon_turn hs
    · exact canon_afterIssue hs

theorem canon_passInput {e rest} (hs : Canon W s) : Canon W (passInput s e rest) := hs

theorem canon_inputTodo {e rest} (hs : Canon W s) : OnSome (CanonTodo W) (inputTodo s e rest) :=
  onSome_ite onSome_none (onSome_some (canon_todo hs))

/-! ### Operations -/

/-- An operation keeps the memories canonical: in what its hold starts, in what it sends while its bundle is held, in
what it does at a home Badger, and in its effect. -/
structure CanonOp (o : Op) : Prop where
  hold : ∀ {W : Prop} {r : Req} {s : State}, Canon W s → OnSome (fun q => Canon W q.2) (o.hold r s) := by
    exact fun _ => onSome_none
  commit : ∀ {W : Prop} {r : Req} {s : State}, Canon W s → CanonCommit W (o.commit r s) := by exact fun hs => hs
  last : ∀ {W : Prop} {r : Req} {s : State}, Canon W s → CanonCommit W (o.last r s) := by exact fun hs => hs
  effect : ∀ {W : Prop} {r : Req} {s : State}, Canon W s → Canon W (o.effect r s)

/-! ### Computation: the units `ia`, `am`, `br`, `vx`, `vs` -/

theorem canonOp_result {unit lat port f} : CanonOp (opResult unit lat port f) where
  effect hs := canon_landResult hs

theorem canonOp_amWide {f} : CanonOp (opAmWide f) where
  effect hs := canon_fly hs

theorem canonOp_amBase {view} : CanonOp (opAmBase view) where
  effect hs := canon_fly hs

theorem canonOp_branch {taken} : CanonOp (opBranch taken) where
  effect hs := canon_modCtx hs

theorem canonOp_brJmp : CanonOp opBrJmp where
  effect hs := canon_modCtx hs

theorem canonOp_brCall : CanonOp opBrCall where
  effect hs := canon_modCtx (canon_fly hs)

theorem canonOp_brRet : CanonOp opBrRet where
  effect hs := canon_modCtx hs

theorem canonOp_brLoop : CanonOp opBrLoop where
  effect hs := canon_modCtx hs

theorem canonOp_brLbrk : CanonOp opBrLbrk where
  effect hs := canon_modCtx hs

theorem canonOp_brLkset : CanonOp opBrLkset where
  effect hs := canon_fly hs

theorem canonOp_vec {unit lat p f} : CanonOp (opVec unit lat p f) where
  effect hs := canon_modCtx (canon_fly hs)

/-! ### Loads and stores -/

theorem canonOp_load {unit p vh} : CanonOp (opLoad unit p vh) where
  hold hs := canon_accessHold hs
  commit {W r s} hs := by
    unfold opLoad
    dsimp only
    split
    · exact canon_loadCommit hs
    all_goals exact hs
  last {W r s} hs := by
    unfold opLoad
    dsimp only
    split
    · split
      · exact canon_lineReadCheck hs
      · exact hs
    all_goals exact hs
  effect {W r s} hs := by
    unfold opLoad
    dsimp only
    split
    · exact canon_fly (onSome_getD (canon_touch hs) hs)
    · split
      · exact canon_sendAcc (canon_markEmpty hs)
      · exact canon_sendAcc (canon_markEmpty hs)
    all_goals exact hs

theorem canonOp_store {unit size vh data mask} : CanonOp (opStore unit size vh data mask) where
  hold hs := canon_wordsHold hs
  commit hs := canon_clusterCommit hs
  last {W r s} hs := by
    unfold opStore
    dsimp only
    split
    · split
      · exact canon_patchWriteCheck hs
      · exact hs
    all_goals exact hs
  effect {W r s} hs := by
    unfold opStore
    dsimp only
    split
    · split
      next heq => exact onSome_ite (canon_spadStore hs) onSome_none _ heq
      · exact canon_sendAcc hs
    · exact canon_ite (canon_startAcc hs) (canon_sendAcc hs)
    all_goals exact hs

/-! ### The matrix array -/

theorem canonOp_mxAlloc : CanonOp opMxAlloc where
  effect hs := canon_takeBanks (canon_landResult hs)

theorem canonOp_mxFree : CanonOp opMxFree where
  hold hs := onSome_ite (onSome_some hs) onSome_none
  effect hs := canon_dropBanks hs

theorem canonOp_mxNorm : CanonOp opMxNorm where
  hold hs := canon_rowHold hs
  effect hs := canon_rowFlags (canon_putRow hs)

theorem canonOp_mxRd : CanonOp opMxRd where
  hold hs := canon_rowHold hs
  effect hs := canon_rowFlags (canon_landResult hs)

theorem canonOp_mxWr : CanonOp opMxWr where
  hold hs := canon_rowHold hs
  effect hs := canon_rowFlags (canon_putRow hs)

theorem canonOp_mxCall : CanonOp opMxCall where
  hold hs := onSome_ite (onSome_some hs) (onSome_ite (onSome_some hs)
    (onSome_ite (onSome_some hs) (onSome_ite (onSome_some hs)
    (onSome_ite (onSome_some hs) (onSome_ite (onSome_some hs) (canon_mxHold hs))))))
  effect hs := canon_startCall hs

/-! ### Patch and data commands -/

theorem canonOp_patch {operands acq rel} {f : Req → State → Commit}
    (hf : ∀ {W r s}, Canon W s → CanonCommit W (f r s)) : CanonOp (opPatch operands acq rel f) where
  hold hs := onSome_ite (onSome_some hs) (onSome_findSome _ fun _ => canon_routeHold hs)
  last {W r s} hs := by
    unfold opPatch
    dsimp only
    split
    · exact hs
    · exact hf hs
  effect hs := canon_landResult hs

theorem canonOp_data {op} : CanonOp (opData op) where
  hold hs := onSome_ite (onSome_some hs) (onSome_ite (onSome_some hs) onSome_none)
  effect hs := canon_acceptCmd hs

/-! ### Tagged words and atomics -/

theorem canonOp_tagged {op} : CanonOp (opTagged op) where
  hold hs := canon_accessHold hs
  commit {W r s} hs := by
    unfold opTagged
    dsimp only
    split
    · split
      · trivial
      · exact canon_clusterCommit hs
    all_goals exact hs
  effect {W r s} hs := by
    unfold opTagged
    dsimp only
    split
    · exact canon_ite (canon_tagArrive (canon_markEmpty hs)) (canon_sendAcc (canon_markEmpty hs))
    all_goals exact hs

theorem canonOp_atom {op ret} : CanonOp (opAtom op ret) where
  hold {W r s} hs := by
    unfold opAtom
    dsimp only
    split
    next heq => exact heq ▸ canon_accessHold hs
    · split
      · exact onSome_ite (onSome_some hs) onSome_none
      all_goals exact onSome_none
  commit hs := canon_clusterCommit hs
  effect {W r s} hs := by
    unfold opAtom
    dsimp only
    split
    · split
      next heq =>
        have ht := onSome_ite (canon_atomArrive (canon_markEmpty hs)) onSome_none _ heq
        exact canon_ite (canon_sendValue ht) ht
      · exact canon_sendAcc (canon_markEmpty hs)
    · exact canon_sendAcc (canon_markEmpty hs)
    all_goals exact canon_markEmpty hs

/-! ### Barriers, fences, queues and the Sett -/

theorem canonOp_tbar : CanonOp opSyTbar where
  hold hs := onSome_ite onSome_none (onSome_ite (onSome_some hs) (onSome_ite onSome_none
    (onSome_some (canon_modCtx hs))))
  commit hs := canon_barrierDown hs
  effect hs := canon_modCtx hs

theorem canonOp_cbar : CanonOp opSyCbar where
  hold hs := onSome_ite onSome_none (onSome_ite (onSome_some hs) (onSome_ite onSome_none
    (onSome_some (canon_cbarArrive hs))))
  commit hs := canon_barrierDown hs
  effect hs := canon_landResult (canon_modCtx (canon_cbarArrive hs))

theorem canonOp_join : CanonOp opSyJoin where
  effect hs := hs

theorem canonOp_leave : CanonOp opSyLeave where
  effect hs := canon_leaveCrew hs

theorem canonOp_fence : CanonOp opSyFence where
  effect hs := canon_modCtx hs

theorem canonOp_pwait : CanonOp opSyPwait where
  hold hs := onSome_ite onSome_none (onSome_some hs)
  effect hs := hs

theorem canonOp_queue {peek} : CanonOp (opQueue peek) where
  effect hs := canon_fly hs

theorem canonOp_pop {poll} : CanonOp (opPop poll) where
  effect hs := canon_sendSett (canon_markEmpty hs)

theorem canonOp_item {kind} : CanonOp (opItem kind) where
  effect hs := canon_sendSett (canon_ite (canon_modCtx hs) hs)

/-! ### The system unit -/

theorem canonOp_sysExit : CanonOp opSysExit where
  effect hs := canon_endContext hs

theorem canonOp_sysVec : CanonOp opSysVec where
  effect hs := canon_modCtx hs

theorem canonOp_sysTrw : CanonOp opSysTrw where
  effect hs := canon_modCtx hs

theorem canonOp_sysTret : CanonOp opSysTret where
  effect hs := canon_ite (canon_endContext hs) (canon_modCtx hs)

theorem canonOp_view {view} : CanonOp (opView view) where
  effect hs := canon_fly hs

theorem canonOp_sysFlwr : CanonOp opSysFlwr where
  effect hs := canon_modCtx hs

theorem canonOp_sysLaunch : CanonOp opSysLaunch where
  hold {W r s} hs := by
    unfold opSysLaunch
    dsimp only
    refine onSome_ite onSome_none ?_
    split
    next heq => exact heq ▸ canon_routeHold hs
    · exact onSome_ite (onSome_some hs) onSome_none
  commit {W r s} hs := by
    unfold opSysLaunch
    dsimp only
    split
    · exact hs
    · split
      · exact hs
      · split
        · exact hs
        · exact canon_postLaunch hs
  effect hs := canon_landResult hs

theorem canonOp_sysStepb : CanonOp opSysStepb where
  hold hs := onSome_ite onSome_none (onSome_ite (onSome_some hs) (onSome_some (canon_modCtx hs)))
  commit hs := canon_barrierDown hs
  effect hs := canon_landResult (canon_modCtx hs)

theorem canonOp_sysSvc : CanonOp opSysSvc where
  hold {W r s} hs := by
    unfold opSysSvc
    dsimp only
    refine onSome_ite (onSome_some hs) (onSome_ite (onSome_some hs) ?_)
    split
    · exact onSome_none
    · exact onSome_some (canon_startDemand hs)
    · exact onSome_some hs
  last {W r s} hs := by
    unfold opSysSvc
    dsimp only
    split
    next heq => exact canon_modCtx ((canon_serviceOfReq hs).answer heq)
    · exact canon_startDemand hs
    · exact hs
  effect hs := canon_landResult hs

theorem canonOp_sysCtrcfg : CanonOp opSysCtrcfg where
  effect hs := canon_modCtx hs

theorem canonOp_sysYield : CanonOp opSysYield where
  effect hs := canon_modCtx hs

theorem CanonOp.of_eq {o o' : Op} (ho : CanonOp o) (h : some (Act.trig o) = some (.trig o')) : CanonOp o' := by
  cases h
  exact ho

/-- Every trigger of the opcode table is an operation that keeps the memories canonical. -/
theorem canonOp_of_actOf {i : Instr} {o : Op} (h : actOf i = some (.trig o)) : CanonOp o := by
  cases i with
  | iaAdd | iaSub | iaAnd | iaOr | iaXor | iaAndn | iaShl | iaShr | iaSar | iaRotl | iaMin | iaMax | iaMinu | iaMaxu
    | iaEq | iaNe | iaLt | iaLtu | iaLe | iaLeu | iaSel | iaExt | iaClz | iaPopc | amAdd | amSub | amLsa | amWrap |
    sysVwrd | sysFlrd | sysLogc | sysCtrrd =>
    exact canonOp_result.of_eq h
  | amMul | amMulu | amMad | amMadu => exact canonOp_amWide.of_eq h
  | amWxs | amWxd | amWxv | amWxh => exact canonOp_amBase.of_eq h
  | brJmp => exact canonOp_brJmp.of_eq h
  | brCall => exact canonOp_brCall.of_eq h
  | brRet => exact canonOp_brRet.of_eq h
  | brLoop => exact canonOp_brLoop.of_eq h
  | brJz | brJnz | brJeq | brJne | brJlt | brJge | brJltu | brJgeu =>
    exact canonOp_branch.of_eq h
  | brLbrk => exact canonOp_brLbrk.of_eq h
  | brLkset => exact canonOp_brLkset.of_eq h
  | lsLd8 | lsLd8s | lsLd16 | lsLd16s | lsLd32 | lsLd32s | lsLd64 | lsLd128 | lsLdvh | lsLdv | lsLdbc =>
    exact canonOp_load.of_eq h
  | lsSt8 | lsSt16 | lsSt32 | lsSt64 | lsSt128 | lsStvh | lsStv | lsStvm | lsStz =>
    exact canonOp_store.of_eq h
  | vxAdd | vxSub | vxMul | vxFma | vxFms | vxFnma | vxMin | vxMax | vxAbs | vxNeg | vxAddsat | vxSubsat | vxMulhi |
    vxAnd | vxOr | vxXor | vxAndn | vxShl | vxShr | vxSar | vxCeq | vxCne | vxClt | vxCle | vxCltu | vxCleu | vxSel
    | vxClamp | vxCopysign | vxAbsd | vxPopc | vxAvg | vxBcast | vxIota | vxDot4 | vxDot2 | vsLut3 | vsFsl | vsFsr |
    vsVrot | vsVshl | vsVshr | vsPerm | vsBperm | vsCompress | vsExpand | vsCvt | vsCvtzb4 | vsCvtmx | vsRedsum |
    vsRedmax | vsRedmin | vsRedand | vsRedor | vsRedxor | vsPack | vsUnpack | vsTbl | vsScan | vsZip | vsUnzip |
    vsBcastl | vsExtr | vsInsr | vsPcnt | vsRev =>
    exact canonOp_vec.of_eq h
  | mxAlloc => exact canonOp_mxAlloc.of_eq h
  | mxFree => exact canonOp_mxFree.of_eq h
  | mxNorm => exact canonOp_mxNorm.of_eq h
  | mxRd => exact canonOp_mxRd.of_eq h
  | mxWr => exact canonOp_mxWr.of_eq h
  | mmB4 | mmF8 | mmI8 | mmI16 | mmH | mmTn | mmS | mmS3 | accLd | accSt | accNorm | accZero =>
    exact canonOp_mxCall.of_eq h
  | ecPopen => exact (canonOp_patch canon_doPopen).of_eq h
  | ecPclose => exact (canonOp_patch canon_doPclose).of_eq h
  | ecPcomm => exact (canonOp_patch canon_doPcomm).of_eq h
  | ecPinv => exact (canonOp_patch canon_doPinv).of_eq h
  | ecPfork => exact (canonOp_patch canon_doPfork).of_eq h
  | ecPxpl => exact (canonOp_patch canon_doPxpl).of_eq h
  | ecPfold => exact (canonOp_patch canon_doPfold).of_eq h
  | ecPsq => exact (canonOp_patch canon_doPsq).of_eq h
  | ecPreg => exact (canonOp_patch canon_doPreg).of_eq h
  | ecPdrop => exact (canonOp_patch canon_doPdrop).of_eq h
  | ecCopy | ecTcopy | ecFill | ecSend | ecRecv | ecRecva | ecStep =>
    exact canonOp_data.of_eq h
  | syLdf | syLdk | syStf | syStx => exact canonOp_tagged.of_eq h
  | sySwap | syCas | syFadd | syFaddf | syRadd | syRaddf | syRmax | syRmin | syRmaxf | syRand | syRor | syRxor =>
    exact canonOp_atom.of_eq h
  | syFence => exact canonOp_fence.of_eq h
  | syPwait => exact canonOp_pwait.of_eq h
  | syTbar => exact canonOp_tbar.of_eq h
  | syCbar => exact canonOp_cbar.of_eq h
  | syJoin => exact canonOp_join.of_eq h
  | syLeave => exact canonOp_leave.of_eq h
  | syQlen | syQpeek => exact canonOp_queue.of_eq h
  | sySpop | sySpoll => exact canonOp_pop.of_eq h
  | sySgadd | sySgset | sySdone => exact canonOp_item.of_eq h
  | sysExit => exact canonOp_sysExit.of_eq h
  | sysStepb => exact canonOp_sysStepb.of_eq h
  | sysLaunch => exact canonOp_sysLaunch.of_eq h
  | sysTret => exact canonOp_sysTret.of_eq h
  | sysVec => exact canonOp_sysVec.of_eq h
  | sysTrw => exact canonOp_sysTrw.of_eq h
  | sysWvws | sysWvwd | sysWvwv | sysWvwh => exact canonOp_view.of_eq h
  | sysFlwr => exact canonOp_sysFlwr.of_eq h
  | sysSvcReport | sysSvcShare | sysSvcUnshare => exact canonOp_sysSvc.of_eq h
  | sysCtrcfg => exact canonOp_sysCtrcfg.of_eq h
  | sysYield => exact canonOp_sysYield.of_eq h
  | _ => cases h

/-! ### The issue of a bundle -/

/-- The triggers of a bundle are operations that keep the memories canonical. -/
def CanonParts (l : List Part) : Prop := ∀ i ∈ l, ∀ o, i.act = .trig o → CanonOp o

/-- The operations of requests keep the memories canonical. -/
def CanonReqs (l : List (Op × Req)) : Prop := ∀ e ∈ l, CanonOp e.1

theorem canonReqs_requests {c limm l} (h : CanonParts l) : CanonReqs (requests s c limm l) := by
  intro e he
  obtain ⟨i, hi, hie⟩ := List.mem_filterMap.mp he
  split at hie
  next o ho =>
    cases hie
    exact h i hi o ho
  · cases hie

theorem canon_holdAll {l} (hl : CanonReqs l) (hs : Canon W s) : Canon W (holdAll l s).2 := by
  induction l generalizing s with
  | nil => exact hs
  | cons e l ih =>
    obtain ⟨he, hl⟩ := List.forall_mem_cons.mp hl
    unfold holdAll
    split
    next heq => exact ih hl (he.hold hs _ heq)
    · exact ih hl hs

theorem canon_commitAll {l b} (hl : CanonReqs l) (hs : Canon W s) : CanonCommit W (commitAll l b s) := by
  induction l generalizing b s with
  | nil =>
    cases b with
    | none => exact hs
    | _ => exact hs
  | cons e l ih =>
    obtain ⟨he, hl⟩ := List.forall_mem_cons.mp hl
    unfold commitAll
    split
    next heq => exact ih hl ((he.commit hs).go heq)
    next heq => exact ih hl ((he.commit hs).held heq)
    all_goals trivial

theorem canon_lastAll {s0 l} (hl : CanonReqs l) (h0 : Canon W s0) (hs : Canon W s) :
    CanonCommit W (lastAll s0 l s) := by
  induction l generalizing s with
  | nil => exact hs
  | cons e l ih =>
    obtain ⟨he, hl⟩ := List.forall_mem_cons.mp hl
    unfold lastAll
    split
    next heq => exact ih hl ((he.last hs).go heq)
    · trivial
    · show Canon W _
      split
      next heq => exact (he.last h0).held heq
      all_goals exact h0
    · show Canon W _
      split
      next heq => exact (he.last h0).refuse heq
      all_goals exact h0

theorem canon_effectAll {l} (hl : CanonReqs l) (hs : Canon W s) : Canon W (effectAll l s) := by
  refine List.foldlRecOn _ _ hs fun t ht e he => ?_
  obtain ⟨k, _, hk⟩ := List.mem_flatMap.mp he
  exact (hl e (List.mem_filter.mp hk).1).effect ht

theorem canon_issueNow {c limm active rs} (hr : CanonReqs rs) (hs : Canon W s) :
    Canon W (issueNow c limm active rs s) :=
  canon_bump (canon_modCtx (canon_effectAll hr (canon_noteIssue (canon_setCtx (canon_chargeBlocks hs)))))

theorem canon_issueItems {c limm items} (hi : CanonParts items) (hs : Canon W s) :
    Canon W (issueItems c limm items s) := by
  have hr : CanonReqs (requests s c limm (items.filter fun i => i.active (s.ctx c))) :=
    canonReqs_requests fun i hm => hi i (List.mem_filter.mp hm).1
  unfold issueItems
  dsimp only
  split
  · exact canon_takeTrap hs
  · split
    · exact canon_takeTrap hs
    · split
      · split
        · exact canon_takeTrap hs
        · split
          · split
            · exact canon_holdBundle hs
            · split
              · exact canon_holdBundle (canon_holdBlocks hs)
              · split
                · exact canon_takeTrap hs
                · split
                  · exact canon_takeTrap hs
                  · exact canon_takeTrap hs
                  next heq => exact canon_holdBundle ((canon_commitAll hr hs).held heq)
                  next heq =>
                    have h1 := (canon_commitAll hr hs).go heq
                    split
                    · exact canon_takeTrap h1
                    next heq => exact canon_takeTrap ((canon_lastAll hr h1 h1).refuse heq)
                    next heq => exact canon_holdBundle ((canon_lastAll hr h1 h1).held heq)
                    next heq => exact canon_issueNow hr ((canon_lastAll hr h1 h1).go heq)
          next heq => exact canon_holdBundle (canon_of_snd (canon_holdAll hr hs) heq)
      · exact canon_holdBundle hs

theorem canonParts_partsOf {b} : CanonParts (partsOf b) := by
  intro i hi o ho
  obtain ⟨k, _, hk⟩ := List.mem_filterMap.mp hi
  obtain ⟨a, ha, rfl⟩ := Option.map_eq_some_iff.mp hk
  obtain ⟨j, _, hj⟩ := Option.bind_eq_some_iff.mp ha
  exact canonOp_of_actOf (hj.trans (congrArg some ho))

theorem canon_issueBundle {c b} (hs : Canon W s) : Canon W (issueBundle c b s) := by
  unfold issueBundle
  split
  · exact canon_takeTrap hs
  · exact canon_issueItems canonParts_partsOf hs

theorem canon_issueOne {m a} (ha : ∀ o, a = .trig o → CanonOp o) (hs : Canon W s) : CanonOut W (issueOne m a s) :=
  canonOut_next (canon_issueItems (by simpa [CanonParts] using ha) hs)

theorem canon_bundleIssue {c} (hs : Canon W s) : Canon W (bundleIssue s c) := by
  unfold bundleIssue
  split
  · exact hs
  · split
    · exact canon_takeDown hs
    · split
      · exact canon_takeTrap (canon_modCtx hs)
      · split
        · exact canon_takeTrap hs
        · exact canon_ite (canon_holdBundle (canon_askReload hs)) (canon_issueBundle hs)

/-! ### A step -/

theorem canon_execMove {i d m a} (h : moveOf i = some (d, m)) (ha : actOf i = some a) (hs : Canon W s) :
    CanonOut W (exec i s) := by
  rw [exec_move i d m a s h ha]
  exact canon_issueOne (fun _ ho => canonOp_of_actOf (ha.trans (congrArg some ho))) hs

theorem canon_exec {i} (hs : Canon W s) : CanonOut W (exec i s) := by
  cases i with
  | powerUp => exact canonOut_next (canon_powerOn hs)
  | bootFetchTimeout => exact canonOut_next (canon_fetchTimeout hs)
  | bootRetryWait => exact canonOut_next (canon_ite (canon_bootStaged (canon_takeSource hs)) hs)
  | alivePost => exact canonOut_next (canon_alivePosted hs)
  | bootCommitDeadline => exact canon_execBootCommitDeadline hs
  | stationmasterWatchdog => exact canonOut_next (canon_watchdog hs)
  | hostLinkUp => exact canonOut_next (canon_linkUp hs)
  | stageGo => exact canonOut_next (canon_goSet hs)
  | hostWindowAccess => exact canonOut_next (canon_windowAccess hs)
  | hostRegisterWrite => exact canonOut_next (canon_registerWrite hs)
  | slotPost => exact canonOut_next (canon_writeState hs)
  | slotFree => exact canonOut_next (canon_writeState hs)
  | slotBadState => exact canon_execSlotBadState hs
  | launch => exact canon_execLaunch hs
  | kill => exact canon_execKill hs
  | mkcomp => exact canon_execMkcomp hs
  | rmcomp => exact canon_execRmcomp hs
  | map => exact canon_execMap hs
  | unmap => exact canon_execUnmap hs
  | budget => exact canon_execBudget hs
  | report => exact canon_execReport hs
  | stage => exact canon_execStage hs
  | ckpt => exact canon_execCkpt hs
  | abandon => exact canon_execAbandon hs
  | logrel => exact canon_execLogrel hs
  | pkgnum => exact canon_execPkgnum hs
  | winlist => exact canon_execWinlist hs
  | restore => exact canon_execRestore hs
  | mgmtRequest => exact canonOut_next (canon_mgmtArrives hs)
  | launchAcceptance => exact canon_execLaunchAcceptance hs
  | settFill => exact canonOut_next (canon_placementRun (canon_fillSetts hs))
  | timetablePeriodBoundary => exact canonOut_next (canon_periodBoundary hs)
  | handoverDeadline => exact canonOut_next (canon_ite (canon_ite hs hs) (canon_handDeadline hs))
  | boardSlotWrite => exact canon_execBoardSlotWrite hs
  | swapOut => exact canonOut_next (canon_swapOut hs)
  | swapIn => exact canonOut_next (canon_swapIn hs)
  | preempt => exact canonOut_next (canon_preemptCtx hs)
  | matrixCallReissue => exact canonOut_next (canon_modCtx (canon_reissueCall hs))
  | teamEnd => exact canonOut_next (canon_teamEnd hs)
  | teamdownTimeout => exact canonOut_next (canon_downTimeout hs)
  | launchCompletion => exact canon_execLaunchCompletion hs
  | settPopAnswer => exact canonOut_next (canon_ite (canon_settArrive hs) (canon_serveSett hs))
  | stepBoundary => exact canon_execStepBoundary hs
  | stepAbandon => exact canon_execStepAbandon hs
  | demandMapService => exact canonOut_next (canon_demandService hs)
  | compartmentInvalidation => exact canonOut_next (canon_endInval hs)
  | producerLaunch => exact canonOut_next (canon_launchProducer hs)
  | producerComplete => exact canonOut_next (canon_endProducer hs)
  | ibundleEccReload => exact canonOut_next (canon_reloadBundle hs)
  | coreSubstitute => exact canonOut_next (canon_substitute hs)
  | coreFailure => exact canonOut_next (canon_failCore hs)
  | bundleIssue => exact canonOut_next (canon_bundleIssue hs)
  | fairnessLimit => exact canon_execFairnessLimit hs
  | resultLanding => exact canonOut_next (canon_modCtx hs)
  | variableArrival => exact canon_execVariableArrival hs
  | ephemeralExpiry => exact canonOut_next (canon_modCtx hs)
  | clusterAccessAccept => exact canon_execClusterAccessAccept hs
  | globalWritePerformed => exact canon_execGlobalWritePerformed hs
  | atomicQueuePerform => exact canon_execAtomicQueuePerform hs
  | reductionHold => exact canon_execReductionHold hs
  | chainRead => exact canon_execChainRead hs
  | patchWriteArrival => exact canon_execPatchWriteArrival hs
  | freightBurst => exact canonOut_next (canon_ite (canon_performWriteOf hs) (canon_freightBurstOf hs))
  | dataCommandRetire => exact canonOut_next (canon_retireCmd hs)
  | statusPushWait => exact canonOut_next (canon_retryStatus hs)
  | shuttleMatch => exact canonOut_next (canon_ite (canon_shuttleGo hs) (canon_peerPosts hs))
  | shuttleChunkArrival => exact canonOut_next (canon_chunkArrives hs)
  | shuttleChunkAck => exact canonOut_next (canon_chunkAcked hs)
  | peerLost => exact canonOut_next (canon_losePeer hs)
  | matrixStepBegin => exact canon_execMatrixStepBegin hs
  | matrixStepEnd => exact canon_execMatrixStepEnd hs
  | nimmetLinkTrain => exact canonOut_next (canon_linkTrain hs)
  | nimmetSessionSetup => exact canonOut_next (canon_sessionUp hs)
  | sessionRekey => exact canon_execSessionRekey hs
  | nimmetFrameReceive => exact canonOut_next (canon_ite hs hs)
  | nimmetFrameResend => exact canonOut_next (canon_ite hs hs)
  | secondTierPortFail => exact canonOut_next hs
  | thermalWarning => exact canonOut_next (canon_postNotice hs)
  | thermalShutdown => exact canonOut_next (canon_withRt canon_powerOff)
  | tftpImageArrival => exact canonOut_next (canon_ite (canon_imageVerified hs) (canon_imageArrives hs))
  | translationWalkEnd => exact canonOut_next (canon_walkEnd hs)
  | receiverInsertsItems => exact canonOut_next (canon_insertItems hs)
  | uncorrectableError => exact canonOut_next (canon_failAt hs)
  | powerRemoved => exact canonOut_next (canon_withRt canon_powerOff)
  | _ => exact canon_execMove rfl rfl hs

theorem canon_runTodo {t} (ht : CanonTodo W t) : CanonOut W (runTodo t) := canon_exec ht

theorem canon_step (hs : Canon W s) : CanonOut W (step s) := by
  unfold step
  split
  · split
    next heq => exact canon_runTodo (canon_inputTodo hs _ heq)
    · exact canonOut_next (canon_passInput hs)
  · split
    · exact canonOut_fault
    · split
      next heq => exact canon_runTodo (canon_nextTodo hs _ heq)
      · exact canonOut_next (canon_tick hs)

theorem memoriesOk_iff : memoriesOk s = true ↔ Canon True s := by
  rw [memoriesOk, Bool.and_eq_true, Bool.and_eq_true]
  exact ⟨fun ⟨⟨hm, hp⟩, hg⟩ => ⟨hm, hg, fun _ => hp⟩, fun ⟨hm, hg, hp⟩ => ⟨⟨hm, hp trivial⟩, hg⟩⟩

end

/-! ### O58 -/

/-- Settles O58. The invariant, `Canon`, is kept by every operation of the machine: one lemma for each of its functions, in
the order of its files, up to `canon_step`. -/
theorem memoriesStayCanonical : Obligations.MemoriesStayCanonical := by
  unfold Obligations.MemoriesStayCanonical
  intro s t hs ht
  exact memoriesOk_iff.mpr (canon_step (memoriesOk_iff.mp hs) t ht)

end Sys2Proof.Machine
end

section
/-! SUPPORT. What the machine holds after reset, for O60. -/

namespace Sys2Proof.Machine

/-- R263, R288. The reset value of an operand port: 0x3FF for the `.w` ports, and 0 for every other. -/
theorem operandReset_eq (p : Nat) : operandReset p =
    if p = 0x202 ∨ p = 0x222 ∨ p = 0x242 ∨ p = 0x282 ∨ p = 0x2A2 ∨ p = 0x2C6 ∨ p = 0x307 ∨ p = 0x34A ∨
      p = 0x368 ∨ p = 0x382 ∨ p = 0x3A2 then 0x3FF else 0 := by
  simp only [operandReset, isWbPort, Bool.or_eq_true, beq_iff_eq, or_assoc]

theorem pendOf_default (scope : Nat) : pendOf ({} : Ctx).pend scope = 0 := by
  unfold pendOf
  split
  all_goals rfl

theorem tact_default : tact ({} : Ctx) = false := by decide

/-- Settles O60: every part is a field of the reset state or of a context that no table lists. -/
theorem resetHolds : Obligations.ResetHolds := by
  unfold Obligations.ResetHolds
  refine ⟨by decide, rfl, rfl, rfl, rfl, rfl, rfl, rfl, rfl, rfl, rfl, rfl, rfl, rfl, rfl, fun _ => rfl, fun c => ?_⟩
  exact ⟨rfl, rfl, rfl, rfl, rfl, rfl, rfl, pendOf_default, rfl, tact_default, fun _ => rfl, operandReset_eq⟩

end Sys2Proof.Machine
end

section
/-! SUPPORT. Laws of the boot (R193, R195 to R197): the fields of the boot status, what each operation of the ROM leaves, and
how a source gives way to the next. -/

namespace Sys2Proof.Machine

/-! ### The boot status (R196) -/

theorem fld_lt_256 (x lo : Nat) : fld x (lo + 7) lo < 256 := by
  unfold fld
  rw [show lo + 7 + 1 - lo = 8 by omega]
  exact Nat.mod_lt _ (by decide)

theorem bootSt_bootWord {s : State} {st fail attempt src : Nat} (h : st < 256) (hf : fail < 256) (ha : attempt < 256)
    (hs : src < 256) : bootSt (bootWord s st fail attempt src) = st := by
  simp only [bootSt, bootWord, fld, BitVec.toNat_ofNat, Nat.shiftRight_eq_div_pow]
  norm_num
  omega

theorem bootFailCode_bootWord {s : State} {st fail attempt src : Nat} (hf : fail < 256) (ha : attempt < 256)
    (hs : src < 256) : bootFailCode (bootWord s st fail attempt src) = fail := by
  simp only [bootFailCode, bootWord, fld, BitVec.toNat_ofNat, Nat.shiftRight_eq_div_pow]
  norm_num
  omega

theorem bootSt_bootState {s : State} {st : Nat} (h : st < 256) : bootSt (bootState s st) = st :=
  bootSt_bootWord h (fld_lt_256 _ 16) (fld_lt_256 _ 8) (fld_lt_256 _ 0)

theorem bootFailCode_bootState {s : State} {st : Nat} : bootFailCode (bootState s st) = bootFailCode s :=
  bootFailCode_bootWord (fld_lt_256 _ 16) (fld_lt_256 _ 8) (fld_lt_256 _ 0)

theorem bootFailCode_bootFail {s : State} {code : Nat} (h : code < 256) : bootFailCode (bootFail s code) = code :=
  bootFailCode_bootWord h (fld_lt_256 _ 8) (fld_lt_256 _ 0)

theorem bootSt_bootAttempt {s : State} {st src : Nat} (h : st < 256) (hs : src < 256) : bootSt (bootAttempt s st src) = st :=
  bootSt_bootWord h (fld_lt_256 _ 16) (by omega) hs

theorem bootFailCode_bootAttempt {s : State} {st src : Nat} (hs : src < 256) :
    bootFailCode (bootAttempt s st src) = bootFailCode s :=
  bootFailCode_bootWord (fld_lt_256 _ 16) (by omega) hs

theorem withStatus_boot {s : State} {w : W64} :
    ({ s with rt := { s.rt with bootStatus := w } } : State).rt.boot = s.rt.boot := rfl

theorem bootState_boot {s : State} {st : Nat} : (bootState s st).rt.boot = s.rt.boot := withStatus_boot

theorem withRt_ho {s : State} {r : Rot} : ({ s with rt := r } : State).ho = s.ho := rfl

theorem bootWord_ho {s : State} {st fail attempt src : Nat} : (bootWord s st fail attempt src).ho = s.ho := withRt_ho

theorem bootFail_ho {s : State} {code : Nat} : (bootFail s code).ho = s.ho := bootWord_ho

theorem bootAttempt_ho {s : State} {st src : Nat} : (bootAttempt s st src).ho = s.ho := bootWord_ho

/-! ### Taking a source (R193) -/

theorem bootSt_congr {s t : State} (h : t.rt.bootStatus = s.rt.bootStatus) : bootSt t = bootSt s := by
  unfold bootSt
  rw [h]

theorem bootFailCode_congr {s t : State} (h : t.rt.bootStatus = s.rt.bootStatus) : bootFailCode t = bootFailCode s := by
  unfold bootFailCode
  rw [h]

/-- What the ROM does next is the one part of the root of trust that a step of the boot sets. -/
theorem bootStep_rt {s : State} {b : Boot} {ms : Nat} {row : Instr} :
    (bootStep s b ms row).rt = { s.rt with boot := b } := rfl

theorem bootStep_ho {s : State} {b : Boot} {ms : Nat} {row : Instr} : (bootStep s b ms row).ho = s.ho := rfl

theorem bootSt_bootStep {s : State} {b : Boot} {ms : Nat} {row : Instr} : bootSt (bootStep s b ms row) = bootSt s :=
  bootSt_congr rfl

theorem bootFailCode_bootStep {s : State} {b : Boot} {ms : Nat} {row : Instr} :
    bootFailCode (bootStep s b ms row) = bootFailCode s := bootFailCode_congr rfl

theorem bootSources_zero : bootSources[0]? = some netFirst := by
  unfold netFirst bootSources
  split
  all_goals rfl

/-- R193. What follows a source: the second of an order of two, or none. -/
theorem bootSources_succ {n : Nat} : bootSources[n + 1]? =
    if n = 0 ∧ Config.bootSrc % 4 = 1 then some true
    else if n = 0 ∧ Config.bootSrc % 4 = 0 then some false else none := by
  unfold bootSources
  split
  next h =>
    rw [h]
    cases n with
    | zero => rfl
    | succ n => simp
  next h =>
    rw [h]
    cases n with
    | zero => rfl
    | succ n => simp
  next h =>
    rw [h]
    simp
  next h0 h1 h2 =>
    rw [if_neg (by simpa using fun _ => h1), if_neg (by simpa using fun _ => h0)]
    rfl

theorem takeSource_none {s : State} {n : Nat} (h : bootSources[n]? = none) :
    takeSource s n = bootStep (bootState s 0) .waiting 10000 .bootRetryWait := by
  unfold takeSource
  rw [h]

theorem takeSource_net {s : State} {n : Nat} (h : bootSources[n]? = some true) :
    takeSource s n = bootStep (bootAttempt s 1 0) (.network n 0) 30000 .bootFetchTimeout := by
  unfold takeSource
  rw [h]

theorem takeSource_host {s : State} {n : Nat} (h : bootSources[n]? = some false) :
    takeSource s n = bootStep (bootAttempt s 2 2) (if s.ho.hostLink then .hostImage n else .hostLink n) 60000
      .bootFetchTimeout := by
  unfold takeSource
  rw [h]
  dsimp only
  split
  · rfl
  · rfl

/-! ### An image (R193, step 4) -/

theorem bootImage_rt {s : State} {n : Nat} {b : List Byte} :
    (bootImage s n b).rt = { (bootState s 3).rt with boot := .verifying n b } := by
  simp only [bootImage, after_rt, delay_rt]
  rfl


/-! ### What a step of the boot leaves -/

/-- Memory, teams, contexts and power are no part of the boot, and the fuses and keys stand. -/
structure BootFrame (s t : State) : Prop where
  powered : t.powered = s.powered
  ctxs : t.ctxs = s.ctxs
  ms : t.ms = s.ms
  tm : t.tm = s.tm
  devKey : t.rt.devKey = s.rt.devKey
  zitrum : t.rt.zitrum = s.rt.zitrum
  floor : t.rt.floor = s.rt.floor

theorem BootFrame.refl (s : State) : BootFrame s s := ⟨rfl, rfl, rfl, rfl, rfl, rfl, rfl⟩

theorem BootFrame.trans {s t u : State} (h : BootFrame s t) (h' : BootFrame t u) : BootFrame s u :=
  ⟨h'.powered.trans h.powered, h'.ctxs.trans h.ctxs, h'.ms.trans h.ms, h'.tm.trans h.tm, h'.devKey.trans h.devKey,
    h'.zitrum.trans h.zitrum, h'.floor.trans h.floor⟩

theorem bootFrame_withStatus {s : State} {w : W64} : BootFrame s { s with rt := { s.rt with bootStatus := w } } :=
  ⟨rfl, rfl, rfl, rfl, rfl, rfl, rfl⟩

theorem bootFrame_withHo {s : State} {h : HostPort} : BootFrame s { s with ho := h } :=
  ⟨rfl, rfl, rfl, rfl, rfl, rfl, rfl⟩

theorem bootFrame_withImage {s : State} {fw : Tab Firmware} {a : Option Nat} :
    BootFrame s { s with rt := { s.rt with firmware := fw, alive := a } } := ⟨rfl, rfl, rfl, rfl, rfl, rfl, rfl⟩

theorem bootFrame_bootWord {s : State} {st fail attempt src : Nat} : BootFrame s (bootWord s st fail attempt src) :=
  bootFrame_withStatus

theorem bootFrame_bootState {s : State} {st : Nat} : BootFrame s (bootState s st) := bootFrame_bootWord

theorem bootFrame_bootFail {s : State} {code : Nat} : BootFrame s (bootFail s code) := bootFrame_bootWord

theorem bootFrame_bootAttempt {s : State} {st src : Nat} : BootFrame s (bootAttempt s st src) := bootFrame_bootWord

theorem bootFrame_bootStep {s : State} {b : Boot} {ms : Nat} {row : Instr} : BootFrame s (bootStep s b ms row) :=
  ⟨rfl, rfl, rfl, rfl, rfl, rfl, rfl⟩

theorem bootFrame_takeSource {s : State} {n : Nat} : BootFrame s (takeSource s n) := by
  cases h : bootSources[n]? with
  | none =>
    rw [takeSource_none h]
    exact bootFrame_bootState.trans bootFrame_bootStep
  | some net =>
    cases net with
    | true =>
      rw [takeSource_net h]
      exact bootFrame_bootAttempt.trans bootFrame_bootStep
    | false =>
      rw [takeSource_host h]
      exact bootFrame_bootAttempt.trans bootFrame_bootStep

theorem bootFrame_bootImage {s : State} {n : Nat} {b : List Byte} : BootFrame s (bootImage s n b) := by
  have h : BootFrame s (bootState (bootTimersOff s) 3).delay.2 := by
    unfold State.delay
    split
    · exact ⟨rfl, rfl, rfl, rfl, rfl, rfl, rfl⟩
    · exact ⟨rfl, rfl, rfl, rfl, rfl, rfl, rfl⟩
  exact ⟨h.powered, h.ctxs, h.ms, h.tm, h.devKey, h.zitrum, h.floor⟩

theorem bootStaged_hostImage {s : State} {n : Nat} (h : s.rt.boot = .hostImage n) : bootStaged s =
    if s.ho.stageGo then bootImage { s with ho := { s.ho with stageGo := false } } n (stagedImage s) else s := by
  unfold bootStaged
  rw [h]

theorem bootStaged_of_ne {s : State} (h : ∀ n, s.rt.boot ≠ .hostImage n) : bootStaged s = s := by
  unfold bootStaged
  split
  next n hn => exact absurd hn (h n)
  all_goals rfl

theorem bootFrame_bootStaged {s : State} : BootFrame s (bootStaged s) := by
  by_cases h : ∃ n, s.rt.boot = .hostImage n
  · obtain ⟨n, hn⟩ := h
    rw [bootStaged_hostImage hn]
    split
    · exact bootFrame_withHo.trans bootFrame_bootImage
    · exact BootFrame.refl s
  · rw [bootStaged_of_ne (not_exists.mp h)]
    exact BootFrame.refl s

/-! ### How a source gives way to the next (R193, R195) -/

theorem bootSt_bootImage {s : State} {n : Nat} {b : List Byte} : bootSt (bootImage s n b) = 3 :=
  (bootSt_congr (by rw [bootImage_rt])).trans (bootSt_bootState (s := s) (by decide))

theorem bootFailCode_bootImage {s : State} {n : Nat} {b : List Byte} : bootFailCode (bootImage s n b) = bootFailCode s :=
  (bootFailCode_congr (by rw [bootImage_rt])).trans (bootFailCode_bootState (st := 3))

theorem stagedImage_congr {s t : State} (h : t.ho.staging = s.ho.staging) : stagedImage t = stagedImage s := by
  unfold stagedImage
  rw [h]

/-- The source at a place of the boot order has failed: what the ROM does then, by the order and the host port. -/
def GoesOnTo (s t : State) (n fail : Nat) : Prop := bootFailCode t = fail ∧
  (if n = 0 ∧ Config.bootSrc % 4 = 1 then t.rt.boot = .network 1 0 ∧ bootSt t = 1
   else if n = 0 ∧ Config.bootSrc % 4 = 0 then
    (if s.ho.hostLink = true ∧ s.ho.stageGo = true then t.rt.boot = .verifying 1 (stagedImage s) ∧ bootSt t = 3
     else t.rt.boot = (if s.ho.hostLink then .hostImage 1 else .hostLink 1) ∧ bootSt t = 2)
   else t.rt.boot = .waiting ∧ bootSt t = 0)

theorem takeSource_net_fields {s : State} {n : Nat} (h : bootSources[n]? = some true) :
    (takeSource s n).rt.boot = .network n 0 ∧ bootSt (takeSource s n) = 1 ∧
      bootFailCode (takeSource s n) = bootFailCode s := by
  rw [takeSource_net h]
  exact ⟨rfl, bootSt_bootStep.trans (bootSt_bootAttempt (by decide) (by decide)),
    bootFailCode_bootStep.trans (bootFailCode_bootAttempt (by decide))⟩

theorem takeSource_host_fields {s : State} {n : Nat} (h : bootSources[n]? = some false) :
    (takeSource s n).rt.boot = (if s.ho.hostLink then .hostImage n else .hostLink n) ∧ bootSt (takeSource s n) = 2 ∧
      bootFailCode (takeSource s n) = bootFailCode s ∧ (takeSource s n).ho = s.ho := by
  rw [takeSource_host h]
  exact ⟨rfl, bootSt_bootStep.trans (bootSt_bootAttempt (by decide) (by decide)),
    bootFailCode_bootStep.trans (bootFailCode_bootAttempt (by decide)), bootStep_ho.trans bootAttempt_ho⟩

theorem takeSource_none_fields {s : State} {n : Nat} (h : bootSources[n]? = none) :
    (takeSource s n).rt.boot = .waiting ∧ bootSt (takeSource s n) = 0 ∧
      bootFailCode (takeSource s n) = bootFailCode s := by
  rw [takeSource_none h]
  exact ⟨rfl, bootSt_bootStep.trans (bootSt_bootState (by decide)), bootFailCode_bootStep.trans bootFailCode_bootState⟩

/-- R193. The next source is taken from a state that records the failure and has the host port as it was. -/
theorem goesOnTo_takeSource {s u : State} {n fail : Nat} (hf : bootFailCode u = fail)
    (hl : u.ho.hostLink = s.ho.hostLink) (hg : u.ho.stageGo = s.ho.stageGo) (hi : u.ho.staging = s.ho.staging) :
    GoesOnTo s (bootStaged (takeSource u (n + 1))) n fail := by
  unfold GoesOnTo
  split
  next h1 =>
    have hsrc := bootSources_succ.trans (if_pos h1)
    obtain ⟨rfl, _⟩ := h1
    obtain ⟨hb, hst, hc⟩ := takeSource_net_fields (s := u) hsrc
    rw [bootStaged_of_ne (by simp [hb])]
    exact ⟨hc.trans hf, hb, hst⟩
  next h1 =>
    split
    next h0 =>
      have hsrc := bootSources_succ.trans ((if_neg h1).trans (if_pos h0))
      obtain ⟨rfl, _⟩ := h0
      obtain ⟨hb, hst, hc, hho⟩ := takeSource_host_fields (s := u) hsrc
      rw [hl] at hb
      split
      next h =>
        obtain ⟨hlink, hgo⟩ := h
        rw [if_pos hlink] at hb
        rw [bootStaged_hostImage hb, hho, hg, if_pos hgo, stagedImage_congr (hho ▸ hi)]
        exact ⟨bootFailCode_bootImage.trans (hc.trans hf), by rw [bootImage_rt], bootSt_bootImage⟩
      next h =>
        have hsame : bootStaged (takeSource u 1) = takeSource u 1 := by
          cases hlink : s.ho.hostLink with
          | true =>
            rw [hlink, if_pos rfl] at hb
            rw [bootStaged_hostImage hb, hho, hg, if_neg fun hgo => h ⟨hlink, hgo⟩]
          | false => exact bootStaged_of_ne (by simp [hb, hlink])
        rw [hsame]
        exact ⟨hc.trans hf, hb, hst⟩
    next h0 =>
      obtain ⟨hb, hst, hc⟩ := takeSource_none_fields (s := u) (bootSources_succ.trans ((if_neg h1).trans (if_neg h0)))
      rw [bootStaged_of_ne (by simp [hb])]
      exact ⟨hc.trans hf, hb, hst⟩

theorem goesOnTo_bootFail {s : State} {n code : Nat} (h : code < 256) :
    GoesOnTo s (bootStaged (takeSource (bootFail s code) (n + 1))) n code :=
  goesOnTo_takeSource (bootFailCode_bootFail h) (congrArg _ bootFail_ho) (congrArg _ bootFail_ho) (congrArg _ bootFail_ho)

theorem goesOnTo_bootLost {s : State} {n : Nat} : GoesOnTo s (bootLost s n) n 7 :=
  goesOnTo_takeSource (bootFailCode_bootFail (by decide)) (by rw [bootFail_ho]) (by rw [bootFail_ho]) (by rw [bootFail_ho])

/-! ### The events of the boot -/

theorem bootStaged_of_not_go {s : State} (h : s.ho.stageGo = false) : bootStaged s = s := by
  by_cases hb : ∃ n, s.rt.boot = .hostImage n
  · obtain ⟨n, hn⟩ := hb
    rw [bootStaged_hostImage hn, if_neg (by simp [h])]
  · exact bootStaged_of_ne (not_exists.mp hb)

/-- R193. The first source of the order, where no staged image is at hand. -/
theorem bootStaged_takeSource_zero {s : State} (h : s.ho.stageGo = false) :
    (bootStaged (takeSource s 0)).rt.boot =
      if netFirst then .network 0 0 else if s.ho.hostLink then .hostImage 0 else .hostLink 0 := by
  cases hn : netFirst with
  | true =>
    obtain ⟨hb, _, _⟩ := takeSource_net_fields (s := s) (bootSources_zero.trans (congrArg some hn))
    rw [bootStaged_of_ne (by simp [hb]), hb, if_pos rfl]
  | false =>
    obtain ⟨hb, _, _, hho⟩ := takeSource_host_fields (s := s) (bootSources_zero.trans (congrArg some hn))
    rw [bootStaged_of_not_go (hho ▸ h), hb]
    rfl

/-- R9. The package as power comes to it: the fuses stand, and the ROM has derived the device key. -/
def poweredUp (s : State) : State :=
  { powerOff s with powered := true, rt := { boot := .idle, zitrum := false, devKey := true, floor := s.rt.floor } }

theorem powerOn_eq {s : State} (h : s.powered = false) : powerOn s = bootStaged (takeSource (poweredUp s) 0) := by
  unfold powerOn
  rw [if_neg (by simp [h])]
  rfl

theorem fetchTimeout_first {s : State} {n : Nat} (h : s.rt.boot = .network n 0) : fetchTimeout s =
    bootStep (bootAttempt (bootFail s 1) 1 1) (.network n 3) 30000 .bootFetchTimeout := by
  unfold fetchTimeout
  rw [h]
  rfl

theorem fetchTimeout_last {s : State} {n : Nat}
    (h : s.rt.boot = .network n 3 ∨ s.rt.boot = .hostLink n ∨ s.rt.boot = .hostImage n) :
    fetchTimeout s = bootStaged (takeSource (bootFail s 1) (n + 1)) := by
  unfold fetchTimeout
  obtain h | h | h := h
  · rw [h]
    rfl
  · rw [h]
  · rw [h]

theorem imageArrives_eq {s : State} {n : Nat} (h : s.rt.boot = .network n s.ev.a) :
    imageArrives s s.ev = bootImage s n s.ev.body := by
  unfold imageArrives
  rw [h]
  exact if_pos rfl

theorem imageVerified_eq {s : State} {n : Nat} {b : List Byte} (h : s.rt.boot = .verifying n b) :
    imageVerified s = bootStaged (bootVerified s n b) := by
  unfold imageVerified
  rw [h]

theorem delay_pos (s : State) : 0 < s.delay.1 := by
  unfold State.delay
  split
  · exact Nat.one_pos
  · exact Nat.lt_of_lt_of_le Nat.one_pos (Nat.le_max_left _ _)

/-- The end of its verification is set for a later cycle. -/
theorem bootImage_agenda {s : State} {n : Nat} {b : List Byte} :
    ∃ d ∈ (bootImage s n b).agenda, d.ev = ⟨.tftpImageArrival, { d := 1 }⟩ ∧ s.cycle < d.cyc := by
  refine ⟨_, List.mem_append_right _ (List.mem_singleton_self _), rfl, ?_⟩
  have hc : (bootState (bootTimersOff s) 3).delay.2.cycle = s.cycle := delay_cycle _
  exact (Nat.lt_add_of_pos_right (delay_pos _)).trans_eq (congrArg (· + _) hc.symm)

theorem verifyImage_lt {kind floor : Nat} {b : List Byte} : verifyImage kind floor b < 256 := by
  unfold verifyImage
  dsimp only
  repeat' split
  all_goals decide

theorem bootFrame_nextSource {s : State} {n code : Nat} : BootFrame s (bootStaged (takeSource (bootFail s code) n)) :=
  bootFrame_bootFail.trans (bootFrame_takeSource.trans bootFrame_bootStaged)

theorem bootFrame_bootLost {s : State} {n : Nat} : BootFrame s (bootLost s n) :=
  bootFrame_withHo.trans bootFrame_nextSource

theorem bootVerified_ok {s : State} {n : Nat} {b : List Byte} (h : verifyImage 1 s.rt.floor b = 0) :
    bootVerified s n b = startBody s n b := by
  unfold bootVerified
  rw [h]
  rfl

theorem bootVerified_bad {s : State} {n : Nat} {b : List Byte} (h : verifyImage 1 s.rt.floor b ≠ 0) :
    bootVerified s n b = takeSource (bootFail s (verifyImage 1 s.rt.floor b)) (n + 1) := by
  unfold bootVerified
  split
  next h0 => exact absurd h0 h
  · rfl

/-- R193, step 5. What the start of a verified body sets. -/
theorem startBody_fields {s : State} {n : Nat} {b : List Byte} : (startBody s n b).rt.boot = .started n ∧
    bootSt (startBody s n b) = 4 ∧ tget (startBody s n b).rt.firmware 1 = some (firmwareIn b) :=
  ⟨rfl, bootSt_bootStep.trans (bootSt_bootState (by decide)), tget_tput_same _ _ _⟩

theorem bootFrame_startBody {s : State} {n : Nat} {b : List Byte} : BootFrame s (startBody s n b) :=
  bootFrame_withImage.trans (bootFrame_bootState.trans bootFrame_bootStep)

theorem bootCommit_fields {s : State} : (bootCommit s).rt.boot = .committed ∧ (bootCommit s).rt.zitrum = true ∧
    bootSt (bootCommit s) = 5 ∧ (bootCommit s).rt.floor = max s.rt.floor (firmwareOf s 1).svn := by
  unfold bootCommit
  extract_lets
  exact ⟨bootState_boot, bootFrame_bootState.zitrum, bootSt_bootState (by decide), bootFrame_bootState.floor⟩

theorem linkUp_hostLink {s : State} {n : Nat} (h : s.rt.boot = .hostLink n) : linkUp s =
    bootStaged (bootStep { s with ho := { s.ho with hostLink := true } } (.hostImage n) 60000 .bootFetchTimeout) := by
  unfold linkUp
  dsimp only
  rw [h]

/-! ### O46, event by event -/

theorem powerUp_boots (s : State) : ∃ t, exec .powerUp s = .next t ∧ (s.powered = true → t = s) ∧
    (s.powered = false → t.powered = true ∧ t.rt.devKey = true ∧ t.rt.zitrum = false ∧ t.rt.floor = s.rt.floor ∧
      t.ctxs = [] ∧ t.ms = State.reset.ms ∧ t.tm = State.reset.tm ∧
      t.rt.boot = (if netFirst then .network 0 0 else .hostLink 0)) := by
  refine ⟨powerOn s, rfl, fun h => if_pos h, fun h => ?_⟩
  have hf : BootFrame (poweredUp s) (powerOn s) := powerOn_eq h ▸ bootFrame_takeSource.trans bootFrame_bootStaged
  exact ⟨hf.powered, hf.devKey, hf.zitrum, hf.floor, hf.ctxs, hf.ms, hf.tm,
    powerOn_eq h ▸ bootStaged_takeSource_zero (s := poweredUp s) rfl⟩

theorem bootRetryWait_restarts {s : State} (hb : s.rt.boot = .waiting) (hg : s.ho.stageGo = false) :
    ∃ t, exec .bootRetryWait s = .next t ∧
      t.rt.boot = (if netFirst then .network 0 0 else if s.ho.hostLink then .hostImage 0 else .hostLink 0) :=
  ⟨_, congrArg Host.Outcome.next (if_pos hb), bootStaged_takeSource_zero hg⟩

theorem imageArrival_verifies {s : State} {n : Nat} (hd : s.ev.d ≠ 1) (hb : s.rt.boot = .network n s.ev.a) :
    ∃ t, exec .tftpImageArrival s = .next t ∧ t.ms = s.ms ∧ t.rt.boot = .verifying n s.ev.body ∧ bootSt t = 3 ∧
      ∃ d ∈ t.agenda, d.ev = ⟨.tftpImageArrival, { d := 1 }⟩ ∧ s.cycle < d.cyc :=
  ⟨_, congrArg Host.Outcome.next ((if_neg hd).trans (imageArrives_eq hb)), bootFrame_bootImage.ms, by rw [bootImage_rt],
    bootSt_bootImage, bootImage_agenda⟩

theorem imageVerified_decides {s : State} {n : Nat} {b : List Byte} (hd : s.ev.d = 1) (hb : s.rt.boot = .verifying n b) :
    ∃ t, exec .tftpImageArrival s = .next t ∧ t.ms = s.ms ∧ t.rt.floor = s.rt.floor ∧
      (if verifyImage 1 s.rt.floor b = 0 then
        t.rt.boot = .started n ∧ bootSt t = 4 ∧ tget t.rt.firmware 1 = some (firmwareIn b)
       else GoesOnTo s t n (verifyImage 1 s.rt.floor b)) := by
  refine ⟨_, congrArg Host.Outcome.next ((if_pos hd).trans (imageVerified_eq hb)), ?_⟩
  by_cases hc : verifyImage 1 s.rt.floor b = 0
  · obtain ⟨hboot, hst, hfw⟩ := startBody_fields (s := s) (n := n) (b := b)
    rw [bootVerified_ok hc, bootStaged_of_ne (by simp [hboot]), if_pos hc]
    exact ⟨bootFrame_startBody.ms, bootFrame_startBody.floor, hboot, hst, hfw⟩
  · rw [bootVerified_bad hc, if_neg hc]
    exact ⟨bootFrame_nextSource.ms, bootFrame_nextSource.floor, goesOnTo_bootFail verifyImage_lt⟩

theorem commitDeadline_commits {s : State} {n : Nat} (hb : s.rt.boot = .started n)
    (ha : s.rt.alive = some (firmwareOf s 1).svn) : ∃ t, exec .bootCommitDeadline s = .next t ∧
      t.rt.boot = .committed ∧ t.rt.zitrum = true ∧ bootSt t = 5 ∧ t.rt.floor = max s.rt.floor (firmwareOf s 1).svn := by
  refine ⟨bootCommit s, ?_, bootCommit_fields⟩
  simp only [exec, execBootCommitDeadline, hb, ha, if_true]

theorem commitDeadline_fails {s : State} {n : Nat} (hb : s.rt.boot = .started n)
    (ha : s.rt.alive ≠ some (firmwareOf s 1).svn) : ∃ t, exec .bootCommitDeadline s = .next t ∧ GoesOnTo s t n 7 ∧
      t.rt.floor = s.rt.floor := by
  refine ⟨bootLost s n, ?_, goesOnTo_bootLost, bootFrame_bootLost.floor⟩
  simp only [exec, execBootCommitDeadline, hb, if_neg ha]

theorem watchdog_fails {s : State} {n : Nat} (hb : s.rt.boot = .started n) (hh : s.rt.hand = none) :
    ∃ t, exec .stationmasterWatchdog s = .next t ∧ GoesOnTo s t n 7 := by
  refine ⟨bootLost s n, ?_, goesOnTo_bootLost⟩
  simp only [exec, execStationmasterWatchdog, watchdog, hh, hb]

theorem hostLinkUp_goesOn {s : State} {n : Nat} (hb : s.rt.boot = .hostLink n) (hg : s.ho.stageGo = false) :
    ∃ t, exec .hostLinkUp s = .next t ∧ t.rt.boot = .hostImage n ∧ t.ho.hostLink = true ∧ t.ms = s.ms := by
  refine ⟨_, congrArg Host.Outcome.next ((linkUp_hostLink hb).trans (bootStaged_of_not_go hg)), rfl, rfl, rfl⟩

/-- Settles O46: each clause is the lemma above about its event; a source that fails goes on as `GoesOnTo` says. -/
theorem bootSequence : Obligations.BootSequence := by
  unfold Obligations.BootSequence
  intro s
  refine ⟨powerUp_boots s, ⟨_, rfl, rfl⟩, ⟨_, rfl, rfl⟩, fun n hb => ?_, fun n hb => ?_, bootRetryWait_restarts,
    fun n => imageArrival_verifies, fun n b => imageVerified_decides, fun n => commitDeadline_commits,
    fun n => commitDeadline_fails, fun n => watchdog_fails, fun n => hostLinkUp_goesOn⟩
  · exact ⟨_, congrArg Host.Outcome.next (fetchTimeout_first hb), rfl,
      bootFailCode_bootStep.trans ((bootFailCode_bootAttempt (by decide)).trans (bootFailCode_bootFail (by decide))),
      bootSt_bootStep.trans (bootSt_bootAttempt (by decide) (by decide))⟩
  · exact ⟨_, congrArg Host.Outcome.next (fetchTimeout_last hb), goesOnTo_bootFail (by decide)⟩

end Sys2Proof.Machine
end

section
/-! SUPPORT. A step by what the package has to do (R22, R238, R265), for O57. -/

namespace Sys2Proof.Machine

/-! ### Which of its cases a step takes -/

theorem step_input {s : State} {e : Event} {rest : List Event} {t : Todo} (hi : s.inputs = e :: rest)
    (ht : inputTodo s e rest = some t) : step s = exec t.row t.st := by
  unfold step
  rw [hi]
  dsimp only
  rw [ht]
  rfl

theorem step_todo {s : State} {t : Todo} (hi : s.inputs = []) (hp : s.powered = true) (ht : nextTodo s = some t) :
    step s = exec t.row t.st := by
  unfold step
  rw [hi]
  dsimp only
  rw [if_neg (by simp [hp]), ht]
  rfl

theorem step_tick {s : State} (hi : s.inputs = []) (hp : s.powered = true) (ht : nextTodo s = none) :
    step s = .next (tick s) := by
  unfold step
  rw [hi]
  dsimp only
  rw [if_neg (by simp [hp]), ht]

/-- R9, R434. An event from outside is performed when it has no word, the package has power or gains it, and no host access
stands before it. -/
theorem inputTodo_eq {s : State} {e : Event} {rest : List Event} (hm : moveOf e.row = none)
    (hp : s.powered = true ∨ e.row = .powerUp) (hw : waitsBehind s e = false) :
    inputTodo s e rest = some (todo { s with inputs := rest } e.row e.arg) := by
  refine if_neg ?_
  rintro (h | ⟨hoff, hup⟩ | h)
  · simp [hm] at h
  · exact hp.elim hoff fun h => hup (by simp [isPowerUp, h])
  · simp [hw] at h

/-! ### A context's turn -/

/-- R22. The context as it comes to issue in this cycle. -/
def tryCtx (s : State) (c : Nat) : State := s.modCtx c fun x => { x with tried := some s.cycle }

section
variable {s : State} {c : Nat}

theorem ctx_tryCtx : (tryCtx s c).ctx c = { s.ctx c with tried := some s.cycle } := ctx_modCtx_same _ _ _

theorem board_tryCtx : (tryCtx s c).board c = s.board c := board_congr _ _ _ (by rw [ctx_tryCtx]) rfl

theorem fetchKey_tryCtx : fetchKey (tryCtx s c) c = fetchKey s c := by
  unfold fetchKey
  rw [ctx_tryCtx, board_tryCtx]

theorem fetch_tryCtx : fetch (tryCtx s c) c = fetch s c := by
  unfold fetch
  rw [ctx_tryCtx, board_tryCtx, fetchKey_tryCtx]
  rfl

theorem downAtOnce_tryCtx : downAtOnce (tryCtx s c) c = downAtOnce s c := by
  unfold downAtOnce
  rw [ctx_tryCtx]
  rfl

theorem downDue_tryCtx : downDue (tryCtx s c) c = downDue s c := by
  unfold downDue
  rw [ctx_tryCtx, downAtOnce_tryCtx]

/-- R265. Nothing is delivered before the bundle of a context, and its bundle is a good one. -/
theorem plainTurn_tryCtx (hd : downDue s c = none) (hp : (s.ctx c).pendTrap = none)
    (hf : s.cr.failBundle.contains (fetchKey s c) = false) : plainTurn (tryCtx s c) c = true := by
  unfold plainTurn
  rw [downDue_tryCtx, hd, ctx_tryCtx, fetchKey_tryCtx, hp, show (tryCtx s c).cr = s.cr from rfl, hf]
  rfl

/-- R22, R265. The turn of a context with no stopped call and nothing before its bundle: the bundle's one move, or the
bundle as a whole. -/
theorem turn_eq {b : BitVec 256} (hr : (s.ctx c).reissue = none) (hp : plainTurn (tryCtx s c) c = true)
    (hb : fetch s c = some b) : turn s c = match soleMove (tryCtx s c) c b with
      | some (i, k) => { row := i, st := { tryCtx s c with ev := {}, iss := latchOf c b k } }
      | none => todo (tryCtx s c) .bundleIssue { a := c } := by
  have hr' : reissues ((tryCtx s c).ctx c) = false := by rw [ctx_tryCtx, reissues, hr]; rfl
  have hb' : fetch (tryCtx s c) c = some b := fetch_tryCtx.trans hb
  unfold turn
  change (if reissues ((tryCtx s c).ctx c) = true then _ else if ¬ plainTurn (tryCtx s c) c = true then _ else
    match fetch (tryCtx s c) c with
      | none => _
      | some b => _) = _
  rw [hr', if_neg Bool.false_ne_true, hp, if_neg (not_not_intro rfl), hb']
  rfl

end

/-! ### The bundle that a context fetches -/

theorem instrAt_of_decodeMove {b : BitVec 256} {k : Nat} {i : Instr} (h : decodeMove (slotOf b k) = .ok i) :
    instrAt b k = some i := by
  unfold decodeMove at h
  dsimp only at h
  split at h
  · cases h
  · split at h
    · cases h
    next hd =>
      split at h
      · cases h
        exact hd
      · cases h

/-- R265. A sound bundle of one move runs as that move. -/
theorem soleMove_one {s : State} {c k : Nat} {b : BitVec 256} {i : Instr} (ht : bundleTrap b = none)
    (hu : usedSlots b = [k]) (hi : decodeMove (slotOf b k) = .ok i) : soleMove s c b =
      some (rowOf i (lowValue s c (mvOfWord (slotOf b k).toNat) (limmOf b)), k) := by
  unfold soleMove
  rw [ht, hu]
  dsimp only
  rw [instrAt_of_decodeMove hi]
  rfl

theorem soleMove_trap {s : State} {c : Nat} {b : BitVec 256} (ht : bundleTrap b ≠ none) : soleMove s c b = none :=
  if_pos (Option.isSome_iff_ne_none.mpr ht)

theorem soleMove_many {s : State} {c j k : Nat} {rest : List Nat} {b : BitVec 256} (hu : usedSlots b = j :: k :: rest) :
    soleMove s c b = none := by
  unfold soleMove
  rw [hu]
  exact ite_self _

/-- R357, R411. Every row but the two that share their word is the row of its move whatever the value. -/
theorem rowOf_self {i : Instr} {v : Nat} (hm : ∀ m, i ≠ .mmB4 m) (hs : ∀ m, i ≠ .sysSvcReport m) : rowOf i v = i := by
  unfold rowOf
  split
  next m => exact absurd rfl (hm m)
  next m => exact absurd rfl (hs m)
  · rfl

/-- R265. At its boundary a context with nothing else to take issues its bundle. -/
theorem bundleIssue_eq {s : State} {c : Nat} {b : BitVec 256} (hr : (s.ctx c).run = .running)
    (hn : (s.ctx c).notBefore ≤ s.cycle) (hd : downDue s c = none) (hp : (s.ctx c).pendTrap = none)
    (hf : s.cr.failBundle.contains (fetchKey s c) = false) (hb : fetch s c = some b) :
    bundleIssue s c = issueBundle c b s := by
  unfold bundleIssue
  rw [if_neg (by rintro (h | h); exacts [h hr, Nat.not_lt.mpr hn h]), hd]
  dsimp only
  rw [hp]
  dsimp only
  rw [hb]
  dsimp only
  rw [hf]
  exact if_neg Bool.false_ne_true

/-! ### The end of a cycle -/

theorem tget_map {α : Type} (f : Nat → α → α) (t : Tab α) (n : Nat) :
    tget (t.map fun e => (e.1, f e.1 e.2)) n = (tget t n).map (f n) := by
  induction t with
  | nil => rfl
  | cons e t ih =>
    obtain ⟨k, w⟩ := e
    simp only [List.map_cons, tget]
    split
    next h => rw [h]; rfl
    next h => exact ih

/-- R414. A cycle counts in a context, and leaves its registers and its place. -/
theorem tickCtx_keeps {s : State} {c : Nat} {x : Ctx} : (tickCtx s c x).regs = x.regs ∧ (tickCtx s c x).pc = x.pc := by
  unfold tickCtx
  split
  · exact ⟨rfl, rfl⟩
  · extract_lets y z
    have hz : z.regs = x.regs ∧ z.pc = x.pc := by
      unfold z
      split
      all_goals exact ⟨rfl, rfl⟩
    split
    · exact hz
    · split
      all_goals exact hz

/-- R238. The end of a cycle leaves the registers and the place of every context. -/
theorem tick_keeps {s : State} {c : Nat} : ((tick s).ctx c).regs = (s.ctx c).regs ∧ ((tick s).ctx c).pc = (s.ctx c).pc := by
  unfold State.ctx
  rw [show (tick s).ctxs = s.ctxs.map fun e => (e.1, tickCtx s e.1 e.2) from rfl, tget_map]
  cases tget s.ctxs c with
  | none => exact ⟨rfl, rfl⟩
  | some x => exact tickCtx_keeps

/-! ### O57, case by case -/

/-- R22. With nothing due before the issue, a step is the turn of the context that comes to issue. -/
theorem step_turn {s : State} {c : Nat} (hi : s.inputs = []) (hp : s.powered = true) (hb : beforeIssue s = none)
    (hc : turnDue s = some c) (hl : limitReached s c = false) : step s = exec (turn s c).row (turn s c).st := by
  refine step_todo hi hp ?_
  unfold nextTodo
  rw [hb, hc]
  dsimp only
  rw [hl]
  rfl

/-- Settles O57: a step is its input, the turn of a context, or the end of the cycle; `turn_eq` says what a turn runs. -/
theorem stepsRunBundles : Obligations.StepsRunBundles := by
  unfold Obligations.StepsRunBundles
  intro s
  refine ⟨fun e rest hi hm hp hw => step_input hi (inputTodo_eq hm hp hw), ?_, ?_, ?_⟩
  · intro c b hi hp hbefore hturn hlimit hr hd hpend hf hb u
    have hstep := step_turn hi hp hbefore hturn hlimit
    rw [turn_eq hr (plainTurn_tryCtx hd hpend hf) hb] at hstep
    refine ⟨?_, fun h => ?_⟩
    · intro k i ht hu hdec v
      rw [soleMove_one ht hu hdec] at hstep
      exact ⟨hstep, fun _ hmm hsvc => by rwa [rowOf_self hmm hsvc] at hstep⟩
    · have hsole : soleMove (tryCtx s c) c b = none :=
        h.elim soleMove_trap fun ⟨_, _, _, hu⟩ => soleMove_many hu
      rw [hsole] at hstep
      exact hstep
  · intro c b hr hn hd hp hf hb
    exact congrArg Host.Outcome.next (bundleIssue_eq hr hn hd hp hf hb)
  · exact fun hi hp ht => ⟨tick s, step_tick hi hp ht, rfl, fun c => tick_keeps⟩

end Sys2Proof.Machine
end

section
/-! SUPPORT. Laws of a trigger that its home Badger traps or holds (R101, R212, R265), and of the loads of a page. -/

namespace Sys2Proof.Machine

/-! ### A trigger that comes to its home Badger -/

/-- R265. The trigger of a bundle of one move comes to its last check, at the home Badger; `s0` is the state that its requests
leave. -/
structure ComesToBadger (o : Op) (m : Mv) (s s0 : State) : Prop where
  moves : canMove m false s
  dec : o.dec s.cx s.iss.slot = none
  shape : o.shape (soleReq o m s) (fun _ => true) s = none
  early : o.early (soleReq o m s) s = []
  hold : o.hold (soleReq o m s) s = none
  adds : pendFits s.cx.pend (o.adds (soleReq o m s) s) = true
  budget : blocksServed s s.iss.ctx (o.blocks (soleReq o m s) s) = true
  checks : o.checks (soleReq o m s) s = []
  sent : o.commit (soleReq o m s) s = .go s0

section
variable {o : Op} {m : Mv} {s s0 s1 : State}

/-- R101, R265. What becomes of the bundle is what the home Badger answers. -/
theorem issueItems_badger (h : ComesToBadger o m s s0) :
    issueItems s.iss.ctx s.iss.limm [solePart m (.trig o) s] s = match o.last (soleReq o m s) s0 with
      | .trap t => takeTrap s.iss.ctx t s0
      | .refuse t s1 => takeTrap s.iss.ctx t s1
      | .held b s1 => s1.holdBundle s.iss.ctx b
      | .go s1 => issueNow s.iss.ctx s.iss.limm [solePart m (.trig o) s] [(o, soleReq o m s)] s1 := by
  obtain ⟨hsound, hguard, hsource⟩ := h.moves
  have hreq : requests s s.iss.ctx s.iss.limm [solePart m (.trig o) s] = [(o, soleReq o m s)] := rfl
  have hactive : [solePart m (.trig o) s].filter (fun i => i.active s.cx) = [solePart m (.trig o) s] := by
    simp [sole_active m (.trig o) s hguard]
  have hdecode : ([solePart m (.trig o) s].filterMap fun i => i.decode s.cx) = [] := by
    simp [sole_decode m (.trig o) s hsound (fun o' ho => by cases ho; exact h.dec)]
  have hread : firstTrap (fun i => i.readTrap s.cx s.cycle) [solePart m (.trig o) s] = none := by
    simp [firstTrap, sole_readTrap m (.trig o) s hsource]
  have hblock := sole_blocks m (.trig o) s ([solePart m (.trig o) s].filterMap Part.pops) hsource nofun
  have hearly : earlyTrap [(o, soleReq o m s)] s = none := by simp [earlyTrap, h.early]
  have hhold : holdAll [(o, soleReq o m s)] s = (.none, s) := by simp [holdAll, h.hold]
  have hfit : addsFit [(o, soleReq o m s)] s s.iss.ctx = true := by simpa [addsFit] using h.adds
  have hserved : blocksServed s s.iss.ctx (blocksOfAll [(o, soleReq o m s)] s) = true := by
    simpa [blocksOfAll] using h.budget
  have hcheck : leastTrap ([(o, soleReq o m s)].flatMap fun e => e.1.checks e.2 s) = none := by
    simp [h.checks, leastTrap]
  have hcommit : commitAll [(o, soleReq o m s)] .none s = .go s0 := by simp [commitAll, h.sent]
  unfold issueItems
  cases hlast : o.last (soleReq o m s) s0
  all_goals
    simp only [hactive, hdecode, sole_shape m o s hsource h.shape, List.append_nil, leastCode, hread, firstBlock, hblock, hreq,
      hearly, hhold, hfit, hserved, hcheck, hcommit, not_true_eq_false, if_false, lastAll, hlast]

/-- R101. A refusal at the home Badger is the bundle's trap. -/
theorem issueOne_trap {t : Trap} (h : ComesToBadger o m s s0) (hl : o.last (soleReq o m s) s0 = .trap t) :
    issueOne m (.trig o) s = .next (takeTrap s.iss.ctx t s0) := by
  refine congrArg Host.Outcome.next ((issueItems_badger h).trans ?_)
  rw [hl]

/-- R101. A wait at the home Badger holds the bundle. -/
theorem issueOne_held {b : Wait} (h : ComesToBadger o m s s0) (hl : o.last (soleReq o m s) s0 = .held b s1) :
    issueOne m (.trig o) s = .next (s1.holdBundle s.iss.ctx b) := by
  refine congrArg Host.Outcome.next ((issueItems_badger h).trans ?_)
  rw [hl]

end

/-! ### Loads (R320) -/

/-- R320. A load is the one trigger of its row. -/
theorem exec_load {i : Instr} {r : LoadRow} {s : State} (h : loadRow i = some r) :
    exec i s = issueOne r.m (.trig (opLoad (4 + r.u.toNat) r.post r.vh)) s := by
  unfold loadRow at h
  split at h
  all_goals cases h
  all_goals rfl

/-- R139. No fence holds a context of which nothing is on its way. -/
theorem fenceHolds_quiet {s : State} (h : MemQuiet s) : fenceHolds s s.iss.ctx = false := by
  have hout : ∀ limit, fenceOut s s.iss.ctx limit = false := by
    intro limit
    have haccs : ∀ a ∈ s.ms.accs, ¬ (a.ctx == s.iss.ctx && decide (a.num < limit)) = true := fun a ha => by simp [h.accs a ha]
    have htags : ∀ q ∈ s.ms.tagq, ¬ (q.ctx == s.iss.ctx && decide (q.num < limit)) = true := fun q hq => by simp [h.tags q hq]
    have hcalls : ∀ k ∈ s.cr.calls, ¬ (k.2.ctx == s.iss.ctx && decide (k.2.num < limit)) = true :=
      fun k hk => by simp [h.calls k hk]
    have hitems : ∀ o ∈ s.tm.settOps, ¬ (o.ctx == s.iss.ctx && decide (o.kind < 3) && decide (o.num < limit)) = true :=
      fun o ho => by simp [h.items o ho]
    unfold fenceOut outstanding
    rw [List.any_eq_false.mpr haccs, List.any_eq_false.mpr htags, List.any_eq_false.mpr hcalls, List.any_eq_false.mpr hitems]
    rfl
  exact List.any_eq_false.mpr fun f _ => by simp [hout]

section
variable {unit pa ta : Nat} {p : Post} {vh : Bool} {r : Req} {s : State} {low high : W64}
  (h : route s r.c r.va p.size p.size .load vh = .page pa low high ta)
include h

theorem opLoad_hold_page (hf : fenceHolds s r.c = false) : (opLoad unit p vh).hold r s = none := by
  change accessHold r s (route s r.c r.va p.size p.size .load vh) p.size true = none
  rw [h, accessHold, wordsHold, hf]
  rfl

theorem opLoad_blocks_page : (opLoad unit p vh).blocks r s = accessBlocks s (.page pa low high ta) p.size vh := by
  change accessBlocks s (route s r.c r.va p.size p.size .load vh) p.size vh = _
  rw [h]

theorem opLoad_checks_page : (opLoad unit p vh).checks r s = wbCheck unit r s := by
  simp only [opLoad, h, routeTrap, List.append_nil]

theorem opLoad_commit_page : (opLoad unit p vh).commit r s = .go s := by
  simp only [opLoad, h]

/-- R106, R122. A load of a LINED page is checked by the state of its line. -/
theorem opLoad_last_lined (hk : dKind low = kLined) : (opLoad unit p vh).last r s = lineReadCheck r s (lineKey high) := by
  simp only [opLoad, h, hk, if_true]

end

/-- R265, R320. A load of a page that the checks pass comes to the home Badger of its line. -/
theorem load_comesToBadger {unit pa ta : Nat} {p : Post} {vh : Bool} {m : Mv} {s : State} {low high : W64}
    (hm : canMove m false s) (hw : wbOk unit s) (hq : MemQuiet s)
    (hr : route s s.iss.ctx (soleVa m s) p.size p.size .load vh = .page pa low high ta)
    (hb : blocksServed s s.iss.ctx (accessBlocks s (.page pa low high ta) p.size vh) = true) :
    ComesToBadger (opLoad unit p vh) m s s where
  moves := hm
  dec := rfl
  shape := rfl
  early := rfl
  hold := opLoad_hold_page (r := soleReq (opLoad unit p vh) m s) hr (fenceHolds_quiet hq)
  adds := pendFits_zero _
  budget := (opLoad_blocks_page (unit := unit) (r := soleReq (opLoad unit p vh) m s) hr).symm ▸ hb
  checks := (opLoad_checks_page (r := soleReq (opLoad unit p vh) m s) hr).trans (wbCheck_nil unit _ m s hw)
  sent := opLoad_commit_page (r := soleReq (opLoad unit p vh) m s) hr

end Sys2Proof.Machine
end

section
/-! SUPPORT. The fairness limit and the errors that cannot be corrected (R22, R217, R447), for O41. -/

namespace Sys2Proof.Machine

/-! ### The fairness limit (R22) -/

/-- R22. The contexts of a core are asked in cyclic order. -/
theorem find_othersOf {p : Nat → Bool} {core cur j : Nat} (h1 : 1 ≤ j) (h3 : j ≤ 3)
    (hj : p (core * 4 + (cur + j) % 4) = true) (hlt : ∀ i, 1 ≤ i → i < j → p (core * 4 + (cur + i) % 4) = false) :
    (othersOf core cur).find? p = some (core * 4 + (cur + j) % 4) := by
  obtain rfl | rfl | rfl : j = 1 ∨ j = 2 ∨ j = 3 := by omega
  · simp [othersOf, hj]
  · simp [othersOf, hj, hlt 1 (by decide) (by decide)]
  · simp [othersOf, hj, hlt 1 (by decide) (by decide), hlt 2 (by decide) (by decide)]

theorem core_setCore {s : State} {k n : Nat} {x : Core} : (s.setCore k x).core n = if n = k then x else s.core n := by
  simp only [State.core, State.setCore, tget_tput]
  split <;> rfl

/-- R22. What the fairness limit does where `k` is the next ready context of the core. -/
theorem fairnessLimit_eq {s : State} {k : Nat}
    (h : (othersOf s.ev.a (s.core s.ev.a).cur).find? (ready s) = some k) :
    exec .fairnessLimit s = .next (s.setCore s.ev.a { cur := k % 4, run := 0 }) := by
  simp only [exec, execFairnessLimit, h]

/-! ### Words, units, elements and bundles that fail (R217, R447) -/

theorem failAt_mem {s : State} {kind n c : Nat} : (failAt s kind n c).ms.mem = s.ms.mem := by
  unfold failAt
  split
  all_goals rfl

theorem failAt_spad {s : State} {kind n c : Nat} : (failAt s kind n c).ms.spad = s.ms.spad := by
  unfold failAt
  split
  all_goals rfl

/-- R447. The failing words, and the unit of a register, by their numbers. -/
theorem failAt_word {s : State} {n c : Nat} :
    failAt s 0 (4 * n) c = { s with ms := { s.ms with failMem := sins n s.ms.failMem } } := by
  rw [failAt, Nat.mul_div_cancel_left n (by decide)]

theorem failAt_spadWord {s : State} {n c : Nat} :
    failAt s 1 (4 * n) c = { s with ms := { s.ms with failSpad := sins n s.ms.failSpad } } := by
  rw [failAt, Nat.mul_div_cancel_left n (by decide)]

theorem failAt_unit {s : State} {u c : Nat} : failAt s 2 (2 * u) c =
    s.modCtx c fun x => { x with units := tput u (.failed (BitVec.ofNat 64 (2 * u)) 3) x.units } := by
  rw [failAt, Nat.mul_div_cancel_left u (by decide), Nat.mul_comm u 2]

theorem contains_sins {n : Nat} {l : List Nat} : (sins n l).contains n = true :=
  List.contains_iff_mem.mpr ((mem_sins n n l).mpr (.inl rfl))

theorem contains_sdel {n : Nat} {l : List Nat} : (sdel n l).contains n = false :=
  Bool.eq_false_iff.mpr fun h => ((mem_sdel n n l).mp (List.contains_iff_mem.mp h)).1 rfl

/-- The four bytes from a multiple of 4 on are one word. -/
theorem wordsOf_word {n : Nat} : wordsOf (4 * n) 4 = [n] := by
  have hcount : (4 * n + 4 + 3) / 4 - 4 * n / 4 = 1 := by omega
  have hfirst : 4 * n / 4 = n := by omega
  rw [wordsOf, hcount, hfirst]
  simp

theorem physRead_failed {s : State} {n : Nat} (h : s.ms.failMem.contains n = true) : physRead s (4 * n) 4 = none := by
  unfold physRead
  rw [wordsOf_word, List.any_cons, h]
  exact if_pos (.inr rfl)

theorem spadRead_failed {s : State} {n : Nat} (h : s.ms.failSpad.contains n = true) : spadRead s (4 * n) 4 = none := by
  unfold spadRead
  rw [wordsOf_word, List.any_cons, h]
  rfl

/-- Of the entries of one key the one that was put stands first. -/
theorem filter_tput {α : Type} {n : Nat} {v : α} {t : Tab α} {p : Nat × α → Bool} (hp : ∀ e, p e = true ↔ e.1 = n) :
    ∃ r, (tput n v t).filter p = (n, v) :: r := by
  have hn : p (n, v) = true := (hp _).mpr rfl
  induction t with
  | nil => exact ⟨[], List.filter_cons_of_pos hn⟩
  | cons e t ih =>
    obtain ⟨k, w⟩ := e
    unfold tput
    split
    · exact ⟨_, List.filter_cons_of_pos hn⟩
    next hk =>
      split
      · exact ⟨_, List.filter_cons_of_pos hn⟩
      · rw [List.filter_cons_of_neg (fun h => hk ((hp _).mp h))]
        exact ih

/-- R250. A unit that fails is read as failed, with what it keeps of its failure. -/
theorem regState_failed {x : Ctx} {u cycle l : Nat} {a : W64} :
    regState { x with units := tput u (.failed a l) x.units } { first := 2 * u, size := 2 } cycle = .failed a l := by
  obtain ⟨r, hr⟩ := filter_tput (n := u) (v := UnitSt.failed a l) (t := x.units)
    (p := fun e => decide (2 * u / 2 ≤ e.1 ∧ e.1 < (2 * u + 2 + 1) / 2)) (fun e => by rw [decide_eq_true_iff]; omega)
  unfold regState
  dsimp only
  rw [hr]
  rfl

/-! ### The bundle reloaded (R217) -/

/-- R217. Where one team is resident that the bundle belongs to, its image's bundle takes the place of the failing one. -/
theorem reloadBundle_eq {s : State} {key at_ : Nat} {b : BitVec 512} {l : Launch} {w : BitVec 256}
    (hb : s.tm.boards = [(key, b)]) (hv : bV b = true) (hk : key / 64 = at_ / 4096 / 16)
    (ht : teamOn b (at_ / 4096 % 16) = true) (hlo : bIbase b ≤ at_ % 4096) (hhi : at_ % 4096 < bIbase b + bIlen b)
    (hl : tget s.tm.launches (bLid b) = some l) (hw : (imageBundles l)[at_ % 4096 - bIbase b]? = some w) :
    reloadBundle s at_ =
      { s with cr := { s.cr with istore := tput at_ w s.cr.istore, failBundle := sdel at_ s.cr.failBundle } } := by
  have hfind : s.tm.boards.find? (fun e => e.1 / 64 == at_ / 4096 / 16 && bV e.2 && teamOn e.2 (at_ / 4096 % 16) &&
      decide (bIbase e.2 ≤ at_ % 4096) && decide (at_ % 4096 < bIbase e.2 + bIlen e.2)) = some (key, b) := by
    rw [hb]
    exact List.find?_cons_of_pos (by simp [hk, hv, ht, hlo, hhi])
  unfold reloadBundle
  dsimp only
  rw [hfind]
  dsimp only
  rw [hl, Option.map_some, Option.bind_some, hw]

/-! ### O41, event by event -/

theorem fairnessLimit_goesOn {s : State} {j : Nat} (h1 : 1 ≤ j) (h3 : j ≤ 3)
    (hj : ready s (s.ev.a * 4 + ((s.core s.ev.a).cur + j) % 4) = true)
    (hlt : ∀ i, 1 ≤ i → i < j → ready s (s.ev.a * 4 + ((s.core s.ev.a).cur + i) % 4) = false) :
    ∃ t, exec .fairnessLimit s = .next t ∧
      t.core s.ev.a = { cur := (s.ev.a * 4 + ((s.core s.ev.a).cur + j) % 4) % 4, run := 0 } ∧
      (∀ n, n ≠ s.ev.a → t.core n = s.core n) ∧ t = { s with cr := { s.cr with cores := t.cr.cores } } :=
  ⟨_, fairnessLimit_eq (find_othersOf h1 h3 hj hlt), core_setCore.trans (if_pos rfl),
    fun _ hn => core_setCore.trans (if_neg hn), rfl⟩

theorem uncorrectableError_fails (s : State) :
    ∃ t, exec .uncorrectableError s = .next t ∧ t.ms.mem = s.ms.mem ∧ t.ms.spad = s.ms.spad ∧
      (∀ n, s.ev.a = 0 → s.ev.b = 4 * n → physRead t (4 * n) 4 = none) ∧
      (∀ n, s.ev.a = 1 → s.ev.b = 4 * n → spadRead t (4 * n) 4 = none) ∧
      (∀ u, s.ev.a = 2 → s.ev.b = 2 * u →
        regState (t.ctx s.ev.c) { first := 2 * u, size := 2 } s.cycle = .failed (BitVec.ofNat 64 (2 * u)) 3) ∧
      (s.ev.a = 3 → t.cr.failAcc.contains s.ev.b = true) ∧ (s.ev.a = 4 → t.cr.failBundle.contains s.ev.b = true) := by
  refine ⟨_, rfl, failAt_mem, failAt_spad, fun n ha hb => ?_, fun n ha hb => ?_, fun u ha hb => ?_, fun ha => ?_,
    fun ha => ?_⟩
  · rw [ha, hb, failAt_word]
    exact physRead_failed contains_sins
  · rw [ha, hb, failAt_spadWord]
    exact spadRead_failed contains_sins
  · rw [ha, hb, failAt_unit, ctx_modCtx_same]
    exact regState_failed
  · rw [ha]
    exact contains_sins
  · rw [ha]
    exact contains_sins

/-- Settles O41: each clause is the lemma above about its event. -/
theorem limitsAndErrors : Obligations.LimitsAndErrors := by
  unfold Obligations.LimitsAndErrors
  intro s
  refine ⟨?_, uncorrectableError_fails s, ?_⟩
  · intro j k core turn h1 h3 hk hj hlt
    subst hk
    exact fairnessLimit_goesOn h1 h3 hj hlt
  · intro key b l w core n hb hv hk ht hlo hhi hl hw
    refine ⟨_, congrArg Host.Outcome.next (reloadBundle_eq hb hv hk ht hlo hhi hl hw), tget_tput_same _ _ _, contains_sdel,
      fun k hne => tget_tput_other _ _ _ _ hne, rfl, rfl⟩

end Sys2Proof.Machine
end

section
/-! SUPPORT. Producers of dropped lines, cores that fail, and spares (R18, R19, R121, R122, R167), for O43. -/

namespace Sys2Proof.Machine

/-! ### A producer's launch (R122, R167) -/

/-- R167. Where block k of a packet at a handle stands, as the tables of a compartment map it. -/
def handleBlock (s : State) (comp : Nat) (h : BitVec 64) (k : Nat) : Option Nat :=
  match walkTables s comp ((h.toNat + 64 * k) % 2 ^ 56) with
  | .desc low _ _ => some (leafPa low ((h.toNat + 64 * k) % 2 ^ 56))
  | .fault _ _ => none

/-- R122, R167. The request that launches the producer of a line. -/
def producerRequest (s : State) (key : Nat) (h : BitVec 64) : Request :=
  { route := .producer key, code := 1, ticket := 0, len := 0, body := [], own := some (key / 2 ^ 24)
    blocks := (List.range 19).map (handleBlock s (key / 2 ^ 24) h), taken := true }

theorem launchProducer_eq {s : State} {key : Nat} {l : Line} {h : BitVec 64} (hz : s.rt.zitrum = true)
    (hl : s.line key = some l) (hh : l.producer = some h) : launchProducer s key =
      { s with ho := { s.ho with requests := s.ho.requests ++ [producerRequest s key h] } } := by
  unfold launchProducer
  rw [if_neg (by simp [hz]), hl]
  dsimp only
  rw [hh]
  rfl

theorem handleBlock_desc {s : State} {comp k n : Nat} {h : BitVec 64} {low high : W64}
    (hw : walkTables s comp ((h.toNat + 64 * k) % 2 ^ 56) = .desc low high n) : handleBlock s comp h k =
      some (dPa low + (h.toNat + 64 * k) % 2 ^ 56 % 2 ^ sizeLog (dSize low)) := by
  unfold handleBlock
  rw [hw]
  rfl

theorem producerRequest_block {s : State} {key k : Nat} {h : BitVec 64} (hk : k < 19) :
    (producerRequest s key h).blocks[k]? = some (handleBlock s (key / 2 ^ 24) h k) := by
  simp [producerRequest, hk]

/-! ### A producer's end (R122) -/

theorem cmdOf_id {s : State} {id : Nat} {k : Cmd} (h : cmdOf s id = some k) : k.id = id :=
  beq_iff_eq.mp (List.find?_some (p := fun k : Cmd => k.id == id) h)

theorem cmdOf_modCmd {s : State} {n id : Nat} {f : Cmd → Cmd} (hf : ∀ k, (f k).id = k.id) :
    cmdOf (modCmd s n f) id = (cmdOf s id).map fun k => if k.id = n then f k else k := by
  unfold cmdOf modCmd
  rw [List.find?_map]
  congr 2
  funext k
  simp only [Function.comp_apply]
  split
  · rw [hf]
  · rfl

/-- R122. A waiter of a line is told that it was not made. -/
def tellUnmade (key : Nat) (s : State) (n : Nat) : State :=
  if n < 2 ^ 20 then s.modCtx n fun x => { x with unmade := sins key x.unmade }
  else modCmd s (n - 2 ^ 20) fun k => { k with recomp := true }

theorem endProducer_good {s : State} {key : Nat} {l : Line} (hl : s.line key = some l) (hg : l.st = .live) :
    endProducer s key true = s.setLine key { l with making := none, waiters := [] } := by
  unfold endProducer
  rw [hl]
  dsimp only
  rw [hg]
  rfl

theorem endProducer_bad {s : State} {key : Nat} {l : Line} {ok : Bool} (hl : s.line key = some l)
    (hb : ok = false ∨ l.st ≠ .live) : endProducer s key ok =
      l.waiters.foldl (tellUnmade key) (s.setLine key { l with making := none, waiters := [] }) := by
  have hgood : (ok && l.st == .live) = false := by
    obtain h | h := hb
    · simp [h]
    · simp [h]
  unfold endProducer
  rw [hl]
  dsimp only
  rw [hgood]
  rfl

section
variable {s : State} {key n : Nat}

theorem tellUnmade_ms : (tellUnmade key s n).ms = s.ms := by
  unfold tellUnmade
  split
  all_goals rfl

theorem tellUnmade_other {c : Nat} (h : c ≠ n) : (tellUnmade key s n).ctx c = s.ctx c := by
  unfold tellUnmade
  split
  · exact ctx_modCtx_other _ _ _ _ h
  · rfl

theorem tellUnmade_self (h : n < 2 ^ 20) : key ∈ ((tellUnmade key s n).ctx n).unmade := by
  rw [tellUnmade, if_pos h, ctx_modCtx_same]
  exact (mem_sins _ _ _).mpr (.inl rfl)

theorem tellUnmade_stays {c : Nat} (h : key ∈ (s.ctx c).unmade) : key ∈ ((tellUnmade key s n).ctx c).unmade := by
  by_cases hc : c = n
  · subst hc
    by_cases hn : c < 2 ^ 20
    · exact tellUnmade_self hn
    · rwa [tellUnmade, if_neg hn]
  · rwa [tellUnmade_other hc]

/-- R122. Only the command that waits is told. -/
theorem tellUnmade_cmdOf {id : Nat} : cmdOf (tellUnmade key s n) id =
    if n = 2 ^ 20 + id then (cmdOf s id).map fun k => { k with recomp := true } else cmdOf s id := by
  unfold tellUnmade
  split
  next hn => exact (if_neg (by omega)).symm
  next hn =>
    rw [cmdOf_modCmd (f := fun k => { k with recomp := true }) fun _ => rfl]
    cases hk : cmdOf s id with
    | none => simp
    | some k =>
      have hiff : k.id = n - 2 ^ 20 ↔ n = 2 ^ 20 + id := by
        rw [cmdOf_id hk]
        omega
      rw [Option.map_some]
      by_cases h : n = 2 ^ 20 + id
      · rw [if_pos (hiff.mpr h), if_pos h, Option.map_some]
      · rw [if_neg (mt hiff.mp h), if_neg h]

end

section
variable {key : Nat}

theorem tellAll_ms {l : List Nat} {s : State} : (l.foldl (tellUnmade key) s).ms = s.ms := by
  induction l generalizing s with
  | nil => rfl
  | cons n l ih => exact ih.trans tellUnmade_ms

theorem tellAll_other {l : List Nat} {s : State} {c : Nat} (h : c ∉ l) : (l.foldl (tellUnmade key) s).ctx c = s.ctx c := by
  induction l generalizing s with
  | nil => rfl
  | cons n l ih =>
    obtain ⟨hn, hl⟩ := not_or.mp (mt List.mem_cons.mpr h)
    exact (ih hl).trans (tellUnmade_other hn)

theorem tellAll_stays {l : List Nat} {s : State} {c : Nat} (h : key ∈ (s.ctx c).unmade) :
    key ∈ ((l.foldl (tellUnmade key) s).ctx c).unmade := by
  induction l generalizing s with
  | nil => exact h
  | cons n l ih => exact ih (tellUnmade_stays h)

/-- R122. Every context that waited raises RECOMPUTE. -/
theorem tellAll_waiter {l : List Nat} {s : State} {c : Nat} (hl : c ∈ l) (hc : c < 2 ^ 20) :
    key ∈ ((l.foldl (tellUnmade key) s).ctx c).unmade := by
  induction l generalizing s with
  | nil => cases hl
  | cons n l ih =>
    obtain rfl | hl := List.mem_cons.mp hl
    · exact tellAll_stays (l := l) (tellUnmade_self hc)
    · exact ih hl

/-- R122. Every command that waited is told, once or more. -/
theorem tellAll_cmdOf {l : List Nat} {s : State} {id : Nat} : cmdOf (l.foldl (tellUnmade key) s) id =
    if 2 ^ 20 + id ∈ l then (cmdOf s id).map fun k => { k with recomp := true } else cmdOf s id := by
  induction l generalizing s with
  | nil => rfl
  | cons n l ih =>
    simp only [List.foldl_cons, ih, tellUnmade_cmdOf, List.mem_cons]
    generalize 2 ^ 20 + id = w
    by_cases hn : n = w
    · subst hn
      by_cases hl : n ∈ l
      · simp [hl, Function.comp_def]
      · simp [hl]
    · simp [hn, Ne.symm hn]

end

theorem line_setLine {s : State} {key k : Nat} {l : Line} :
    (s.setLine key l).line k = if k = key then some l else s.line k := tget_tput _ _ _ _

theorem line_congr {s t : State} (h : t.ms = s.ms) (k : Nat) : t.line k = s.line k := by
  rw [State.line, State.line, h]

/-! ### A load of a line that is not LIVE (R122) -/

theorem lineReadCheck_unmade {r : Req} {s : State} {key : Nat} {l : Line} (hl : s.line key = some l)
    (hu : key ∈ (s.ctx r.c).unmade) : lineReadCheck r s key =
      .trap { code := 0x14, info0 := toW r.v, info1 := BitVec.ofNat 64 (key % 2 ^ 24) } := by
  unfold lineReadCheck
  rw [hl]
  exact if_pos (List.contains_iff_mem.mpr hu)

/-- R122. The state in which a read of a dropped line waits, as the first whose producer is asked for. -/
def awaitProducer (s : State) (c key : Nat) (l : Line) : State :=
  ((s.setLine key { l with waiters := sins c l.waiters, making := some 0 }).modCtx c fun x => { x with onLine := true }).after
    s.cycle false .producerLaunch { a := key }

theorem lineReadCheck_dropped {r : Req} {s : State} {key : Nat} {l : Line} (hl : s.line key = some l)
    (hu : key ∉ (s.ctx r.c).unmade) (hd : l.st = .dropped) (hm : l.making = none) :
    lineReadCheck r s key = .held .line (awaitProducer s r.c key l) := by
  unfold lineReadCheck
  rw [hl]
  dsimp only
  rw [if_neg (fun h => hu (List.contains_iff_mem.mp h))]
  split
  next h => exact absurd (hd.symm.trans h) (by decide)
  next h => exact absurd (hd.symm.trans h) (by decide)
  · rw [hm]
    rfl

theorem awaitProducer_held {s : State} {c key : Nat} {l : Line} :
    let t := (awaitProducer s c key l).holdBundle c .line
    (t.ctx c).blocked = .line ∧ (t.ctx c).pc = (s.ctx c).pc ∧
      t.line key = some { l with waiters := sins c l.waiters, making := some 0 } ∧
      ∃ d ∈ t.agenda, d.ev = ⟨.producerLaunch, { a := key }⟩ := by
  intro t
  have hctx : t.ctx c = { s.ctx c with onLine := true, blocked := .line } := by
    unfold t awaitProducer State.holdBundle
    rw [ctx_modCtx_same, ctx_after, ctx_modCtx_same]
    rfl
  rw [hctx]
  exact ⟨rfl, rfl, line_setLine.trans (if_pos rfl), _, List.mem_append_right _ (List.mem_singleton_self _), rfl⟩

/-! ### A core that fails, and one that is replaced (R18, R19) -/

/-- The bytes of the memories, and the cores that are absent. -/
def storesOf (s : State) : Memory × Memory × List Nat := (s.ms.mem, s.ms.spad, s.cr.absent)

section
variable {s : State}

theorem storesOf_foldl {α : Type} {f : State → α → State} (l : List α) (hf : ∀ t a, storesOf (f t a) = storesOf t) :
    storesOf (l.foldl f s) = storesOf s := by
  induction l generalizing s with
  | nil => rfl
  | cons a l ih => exact ih.trans (hf s a)

theorem storesOf_ite {c : Prop} [Decidable c] {a b : State} (ha : storesOf a = storesOf s) (hb : storesOf b = storesOf s) :
    storesOf (if c then a else b) = storesOf s := by
  split
  · exact ha
  · exact hb

theorem storesOf_modCtx {c : Nat} {f : Ctx → Ctx} : storesOf (s.modCtx c f) = storesOf s := rfl

theorem storesOf_modLaunch {lid : Nat} {f : Launch → Launch} : storesOf (s.modLaunch lid f) = storesOf s := by
  unfold State.modLaunch
  split
  all_goals rfl

theorem storesOf_endCall {core st : Nat} {k : Call} {row : W64} : storesOf (endCall s core k st row) = storesOf s := by
  unfold endCall
  refine storesOf_modCtx.trans ?_
  split
  all_goals rfl

theorem storesOf_stopCall {c : Nat} : storesOf (stopCall s c) = storesOf s := by
  unfold stopCall
  split
  · rfl
  · exact storesOf_ite rfl (storesOf_ite rfl (storesOf_modCtx.trans storesOf_endCall))

theorem storesOf_wakeSetts {lid : Nat} : storesOf (wakeSetts s lid) = storesOf s := storesOf_foldl _ fun _ _ => rfl

theorem storesOf_settEnd {lid code : Nat} : storesOf (settEnd s lid code) = storesOf s := by
  unfold settEnd
  split
  · rfl
  · exact storesOf_ite rfl (storesOf_wakeSetts.trans storesOf_modLaunch)

theorem storesOf_settTest {lid : Nat} {conv : Bool} : storesOf (settTest s lid conv) = storesOf s := by
  unfold settTest
  split
  · rfl
  · exact storesOf_ite (storesOf_ite storesOf_settEnd (storesOf_ite storesOf_settEnd storesOf_wakeSetts)) rfl

theorem storesOf_releaseItems {c : Nat} : storesOf (releaseItems s c) = storesOf s :=
  storesOf_settTest.trans (storesOf_foldl _ fun _ _ => rfl)

theorem storesOf_cbarCheck {key : Nat} : storesOf (cbarCheck s key) = storesOf s := by
  unfold cbarCheck
  split
  · rfl
  · exact storesOf_ite (storesOf_ite (storesOf_foldl _ fun _ _ => rfl) (storesOf_foldl _ fun _ _ => rfl)) rfl

theorem storesOf_leaveCrew {c crew : Nat} : storesOf (leaveCrew s c crew) = storesOf s := storesOf_cbarCheck

theorem storesOf_countTeam {c : Nat} : storesOf (countTeam s c) = storesOf s := storesOf_ite storesOf_modLaunch rfl

theorem storesOf_divergeCheck {lid : Nat} : storesOf (divergeCheck s lid) = storesOf s :=
  storesOf_ite storesOf_modLaunch rfl

/-- R403. The end of a context changes no byte, and makes no core absent. -/
theorem storesOf_endContext {c : Nat} {run : Run} : storesOf (endContext s c run) = storesOf s :=
  storesOf_divergeCheck.trans <| storesOf_countTeam.trans <| (storesOf_foldl _ fun _ _ => storesOf_leaveCrew).trans <|
    storesOf_releaseItems.trans storesOf_stopCall

theorem storesOf_teamLoses {core : Nat} {e : Nat × BitVec 512} : storesOf (teamLoses core s e) = storesOf s :=
  storesOf_ite (storesOf_foldl _ fun _ _ => rfl)
    (storesOf_modLaunch.trans (storesOf_foldl _ fun _ _ => storesOf_ite rfl storesOf_endContext))

theorem storesOf_unplace {core : Nat} : storesOf (unplace s core) = storesOf s :=
  (storesOf_foldl _ fun _ _ => storesOf_ite rfl storesOf_modLaunch).trans
    (storesOf_foldl _ fun _ _ => storesOf_ite rfl storesOf_modLaunch)

theorem storesOf_endHomeless : storesOf (endHomeless s) = storesOf s := storesOf_foldl _ fun _ _ => rfl

/-- R18. A core that fails loses its scratchpad and is absent; no other byte changes. -/
theorem storesOf_failCore {core : Nat} : storesOf (failCore s core) =
    (s.ms.mem, memDrop (core * 2 ^ 21) (2 ^ 21) s.ms.spad, sins core s.cr.absent) :=
  storesOf_endHomeless.trans ((storesOf_foldl _ fun _ _ => storesOf_teamLoses).trans storesOf_unplace)

end

theorem rdByte_filter {m : Memory} {p : Nat → Prop} [DecidablePred p] {n : Nat} :
    rdByte (m.filter fun e => decide (p e.1)) n = if p n then rdByte m n else 0 := by
  induction m with
  | nil => exact (ite_self _).symm
  | cons e m ih =>
    obtain ⟨a, b⟩ := e
    by_cases ha : a = n
    · subst ha
      by_cases hp : p a
      · simp [hp, rdByte]
      · simpa [hp] using ih
    · by_cases hp : p a
      · simp [hp, rdByte, ha, ih]
      · simpa [hp, rdByte, ha] using ih

/-- R18. The bytes of a core's scratchpad, cleared, and every other byte. -/
theorem rdByte_memDrop {m : Memory} {core n : Nat} : rdByte (memDrop (core * 2 ^ 21) (2 ^ 21) m) n =
    if core * 2 ^ 21 ≤ n ∧ n < (core + 1) * 2 ^ 21 then 0 else rdByte m n := by
  rw [memDrop, rdByte_filter (p := fun a => a < core * 2 ^ 21 ∨ core * 2 ^ 21 + 2 ^ 21 ≤ a)]
  by_cases h : core * 2 ^ 21 ≤ n ∧ n < (core + 1) * 2 ^ 21
  · rw [if_pos h, if_neg (by omega)]
  · rw [if_neg h, if_pos (by omega)]

/-! ### O43, event by event -/

theorem producerComplete_ends {s : State} {l : Line} (hl : s.line s.ev.a = some l) :
    ∃ t, exec .producerComplete s = .next t ∧ t.line s.ev.a = some { l with making := none, waiters := [] } ∧
      (∀ k, k ≠ s.ev.a → t.line k = s.line k) ∧ t.ms.mem = s.ms.mem ∧
      (s.ev.b = 1 → l.st = .live → t.ctxs = s.ctxs ∧ t.en = s.en) ∧
      (s.ev.b ≠ 1 ∨ l.st ≠ .live →
        (∀ n ∈ l.waiters, n < 2 ^ 20 → s.ev.a ∈ (t.ctx n).unmade) ∧
        (∀ k, cmdOf s k.id = some k → 2 ^ 20 + k.id ∈ l.waiters → cmdOf t k.id = some { k with recomp := true }) ∧
        ∀ n, n ∉ l.waiters → t.ctx n = s.ctx n) := by
  refine ⟨endProducer s s.ev.a (s.ev.b == 1), rfl, ?_⟩
  by_cases hgood : s.ev.b = 1 ∧ l.st = .live
  · obtain ⟨hb, hst⟩ := hgood
    rw [beq_iff_eq.mpr hb, endProducer_good hl hst]
    exact ⟨line_setLine.trans (if_pos rfl), fun k hk => line_setLine.trans (if_neg hk), rfl, fun _ _ => ⟨rfl, rfl⟩,
      fun h => absurd h (by simp [hb, hst])⟩
  · have hbad : s.ev.b ≠ 1 ∨ l.st ≠ .live := not_and_or.mp hgood
    rw [endProducer_bad hl (hbad.imp_left beq_eq_false_iff_ne.mpr)]
    refine ⟨(line_congr tellAll_ms _).trans (line_setLine.trans (if_pos rfl)),
      fun k hk => (line_congr tellAll_ms _).trans (line_setLine.trans (if_neg hk)), by rw [tellAll_ms]; rfl,
      fun hb hst => absurd ⟨hb, hst⟩ hgood, fun _ => ⟨fun n hn => tellAll_waiter hn, fun k hk hw => ?_,
      fun n hn => tellAll_other hn⟩⟩
    rw [tellAll_cmdOf, if_pos hw]
    exact congrArg (Option.map _) hk

/-- R18. A core that fails is absent and its scratchpad reads as 0. -/
theorem coreFailure_clears (s : State) :
    ∃ t, exec .coreFailure s = .next t ∧ t.cr.absent.contains s.ev.a = true ∧ t.ms.mem = s.ms.mem ∧
      (∀ n, rdByte t.ms.spad n =
        if s.ev.a * 2 ^ 21 ≤ n ∧ n < (s.ev.a + 1) * 2 ^ 21 then 0 else rdByte s.ms.spad n) := by
  have h := storesOf_failCore (s := s) (core := s.ev.a)
  simp only [storesOf, Prod.mk.injEq] at h
  obtain ⟨hmem, hspad, habsent⟩ := h
  exact ⟨_, rfl, habsent ▸ contains_sins, hmem, fun n => hspad ▸ rdByte_memDrop⟩

/-- R18. A spare takes the place of an absent core, with an empty scratchpad. -/
theorem coreSubstitute_restores {s : State} (h : canSubstitute s s.ev.a = true) :
    ∃ t, exec .coreSubstitute s = .next t ∧ t.cr.absent.contains s.ev.a = false ∧ t.ms.mem = s.ms.mem ∧
      tget t.cr.spares (s.ev.a / 144) = some ((tget s.cr.spares (s.ev.a / 144)).getD 0 + 1) ∧
      (∀ n, rdByte t.ms.spad n =
        if s.ev.a * 2 ^ 21 ≤ n ∧ n < (s.ev.a + 1) * 2 ^ 21 then 0 else rdByte s.ms.spad n) ∧ t.ctxs = s.ctxs := by
  refine ⟨_, congrArg Host.Outcome.next (if_neg (not_not_intro h)), contains_sdel, rfl, tget_tput_same _ _ _,
    fun n => rdByte_memDrop, rfl⟩

/-- Settles O43: each clause is the lemma above about its event; a load comes to its home Badger, whose answer decides. -/
theorem producersAndCores : Obligations.ProducersAndCores := by
  unfold Obligations.ProducersAndCores
  intro s
  refine ⟨?_, fun l => producerComplete_ends, ?_, coreFailure_clears s, coreSubstitute_restores⟩
  · intro l h hz hl hh block
    refine ⟨_, producerRequest s s.ev.a h, congrArg Host.Outcome.next (launchProducer_eq hz hl hh), rfl, rfl, rfl, rfl, rfl, ?_,
      fun k low high n hk hb => ?_⟩
    · rw [producerRequest, List.length_map, List.length_range]
    · rw [producerRequest_block hk, handleBlock_desc hb]
  · intro i r pa ta low high l hi hm hw hq hr hkind hb hl
    have hcomes := load_comesToBadger (unit := 4 + r.u.toNat) hm hw hq hr hb
    have hlast := opLoad_last_lined (unit := 4 + r.u.toNat) (r := soleReq (opLoad (4 + r.u.toNat) r.post r.vh) r.m s) hr hkind
    rw [exec_load hi]
    refine ⟨fun hu => issueOne_trap hcomes (hlast.trans (lineReadCheck_unmade hl hu)), fun hu hd hmaking => ?_⟩
    exact ⟨_, issueOne_held hcomes (hlast.trans (lineReadCheck_dropped hl hu hd hmaking)), awaitProducer_held⟩

end Sys2Proof.Machine
end

section
/-! SUPPORT. Accumulator rows and the row operations on them (R53, R60, R61, R360), for O25. -/

namespace Sys2Proof.Machine

/-! ### A bundle that changes banks (R260, R265, R360) -/

/-- What the operation of a trigger on banks may change: the banks with their failing words, and, of the contexts, the results
that one has in flight. -/
structure SendsBanks (c : Nat) (s u : State) (fs : List Flight) : Prop where
  rest : ∃ xs bs fa, u = { s with ctxs := xs, cr := { s.cr with banks := bs, failAcc := fa } }
  own : u.ctx c = { s.ctx c with flights := (s.ctx c).flights ++ fs }
  others : ∀ k, k ≠ c → u.ctx k = s.ctx k

theorem SendsBanks.refl (c : Nat) (s : State) : SendsBanks c s s [] :=
  ⟨⟨_, _, _, rfl⟩, by rw [List.append_nil], fun _ _ => rfl⟩

theorem SendsBanks.fly {c : Nat} {s u : State} {fs : List Flight} (h : SendsBanks c s u fs) (f : Flight) :
    SendsBanks c s (u.fly c f) (fs ++ [f]) where
  rest := by
    obtain ⟨_, _, _, rfl⟩ := h.rest
    exact ⟨_, _, _, rfl⟩
  own := by
    rw [State.fly, ctx_modCtx_same, h.own, List.append_assoc]
  others := fun k hk => (ctx_modCtx_other _ _ _ _ hk).trans (h.others k hk)

/-- R265, R267, R270. The end of a bundle whose operation has left `u`. -/
theorem onlyBanks_finish {m : Mv} {o : Op} {s u : State} {fs : List Flight} (h : SendsBanks s.iss.ctx (midState o m s s) u fs) :
    onlyBanks m s (finish s.iss.ctx s.cx.shadow u) fs := by
  refine ⟨?_, fun k hk => ?_, ?_⟩
  · obtain ⟨_, _, _, rfl⟩ := h.rest
    rfl
  · rw [ctx_finish_other _ _ _ _ hk, h.others k hk, midState_other _ _ _ _ _ hk]
  · rw [ctx_finish, h.own, midState_ctx, midCtx_eq]
    refine ⟨?_, ?_, fun hshadow hloops hjump => ?_, ?_⟩
    · rw [onlyFlow, advance_eq]; rfl
    · rw [popsOnly, advance_eq]; rfl
    · rw [hshadow, advance_plain]
      · exact ⟨rfl, rfl, hloops⟩
      · exact hloops
      · exact hjump
    · rw [sends, advance_eq]; rfl

/-- R265. The bundle of a trigger on banks: its own flow, the results that it sends, and the banks that its operation leaves. -/
theorem trigger_banks {m : Mv} {o : Op} {s : State} {fs : List Flight} (hm : canMove m false s) (hs : Starts o m s s)
    (hb : o.blocks (soleReq o m s) s = [])
    (hf : SendsBanks s.iss.ctx (midState o m s s) (o.effect (soleReq o m s) (midState o m s s)) fs) :
    ∃ t, issueOne m (.trig o) s = .next t ∧ onlyBanks m s t fs ∧
      t.cr.banks = (o.effect (soleReq o m s) (midState o m s s)).cr.banks :=
  ⟨_, (issueOne_trigger m o s s hm hs).trans (congrArg Host.Outcome.next (issueNow_trigger m o s s hb)), onlyBanks_finish hf, rfl⟩

/-! ### Writing a row of a bank (R53, R55) -/

/-- A bank with the exponent and the elements of one of its rows replaced. -/
def Bank.withRow (b : Bank) (row : Nat) (ex : Int) (es : List Elem) : Bank :=
  let b := { b with els := putElems row 0 es b.els }
  match row with
  | 0 => { b with e0 := BitVec.ofInt 16 ex } | 1 => { b with e1 := BitVec.ofInt 16 ex }
  | 2 => { b with e2 := BitVec.ofInt 16 ex } | _ => { b with e3 := BitVec.ofInt 16 ex }

theorem putRow_held {s : State} {core g : Nat} {b : Bank} (h : bankAt s core (g / 4) = some b) (ex : Int) (es : List Elem) :
    putRow s core g ex es = { s with cr := { s.cr with
      banks := tput (core * 256 + g / 4) (b.withRow (g % 4) ex es) s.cr.banks
      failAcc := s.cr.failAcc.filter fun k => k / 64 != core * 1024 + g } } := by
  rw [putRow, h]
  rfl

theorem putRow_banks_congr {s u : State} (h : u.cr.banks = s.cr.banks) (core g : Nat) (ex : Int) (es : List Elem) :
    (putRow u core g ex es).cr.banks = (putRow s core g ex es).cr.banks := by
  have hbank : bankAt u core (g / 4) = bankAt s core (g / 4) := congrArg (tget · _) h
  cases hb : bankAt s core (g / 4) with
  | none => rw [putRow, putRow, hbank, hb]; exact h
  | some b => rw [putRow_held hb, putRow_held (hbank.trans hb), h]

theorem withRow_els (b : Bank) (row : Nat) (ex : Int) (es : List Elem) :
    (b.withRow row ex es).els = putElems row 0 es b.els := by
  unfold Bank.withRow
  split <;> rfl

/-- An element that is not listed is 0, so that what is listed for a row, from element k on, reads as it was written. -/
theorem putElems_getD (row n : Nat) (es : List Elem) : ∀ (k : Nat) (t : Tab Elem),
    (tget (putElems row k es t) n).getD {} =
      if row * 64 + k ≤ n ∧ n < row * 64 + k + es.length then es.getD (n - (row * 64 + k)) {} else (tget t n).getD {} := by
  induction es with
  | nil => intro k t; rw [if_neg (by simp)]; rfl
  | cons e es ih =>
    intro k t
    have hhead : (tget (if e = {} then tdel (row * 64 + k) t else tput (row * 64 + k) e t) n).getD {} =
        if n = row * 64 + k then e else (tget t n).getD {} := by
      by_cases hn : n = row * 64 + k
      · subst hn
        by_cases he : e = {}
        · simp [he, tget_tdel_same]
        · simp [he, tget_tput_same]
      · by_cases he : e = {}
        · simp [he, hn, tget_tdel_other]
        · simp [he, hn, tget_tput_other]
    rw [putElems, ih, hhead]
    by_cases hn : n = row * 64 + k
    · simp [hn]
    · by_cases hin : row * 64 + k ≤ n ∧ n < row * 64 + k + (es.length + 1)
      · have hsucc : n - (row * 64 + k) = n - (row * 64 + (k + 1)) + 1 := by omega
        rw [if_pos (by omega), List.length_cons, if_pos hin, hsucc, List.getD_cons_succ]
      · rw [if_neg (by omega), if_neg hn, List.length_cons, if_neg hin]

theorem row_withRow_same {b : Bank} {row : Nat} {ex : Int} {es : List Elem} (h : es.length = 64) :
    (b.withRow row ex es).row row = es := by
  refine List.ext_getElem (by simp [Bank.row, h]) fun k hk hk' => ?_
  have hlisted : row * 64 + 0 ≤ row * 64 + k ∧ row * 64 + k < row * 64 + 0 + es.length := by omega
  simp only [Bank.row, List.getElem_map, List.getElem_range, withRow_els, putElems_getD, if_pos hlisted]
  rw [show row * 64 + k - (row * 64 + 0) = k by omega, List.getD_eq_getElem _ _ hk']

theorem row_withRow_other {b : Bank} {row r : Nat} {ex : Int} {es : List Elem} (h : es.length = 64) (hr : r ≠ row) :
    (b.withRow row ex es).row r = b.row r := by
  refine List.map_congr_left fun k hk => ?_
  have := List.mem_range.mp hk
  rw [withRow_els, putElems_getD, if_neg (by omega)]

/-- The exponents that a row's 16 bits can hold. -/
def ExpOk (ex : Int) : Prop := -32768 ≤ ex ∧ ex ≤ 32767

theorem toInt_ofInt_of_expOk {ex : Int} (h : ExpOk ex) : (BitVec.ofInt 16 ex).toInt = ex := by
  obtain ⟨hlow, hhigh⟩ := h
  rw [BitVec.toInt_ofInt]
  exact Int.bmod_eq_of_le (by omega) (by omega)

theorem exp_withRow_same {b : Bank} {row : Nat} {ex : Int} {es : List Elem} (h : ExpOk ex) :
    (b.withRow row ex es).exp row = ex := by
  unfold Bank.withRow Bank.exp
  split <;> simp [toInt_ofInt_of_expOk h]

theorem exp_withRow_other {b : Bank} {row r : Nat} {ex : Int} {es : List Elem} (hrow : row < 4) (hr : r < 4) (h : r ≠ row) :
    (b.withRow row ex es).exp r = b.exp r := by
  unfold Bank.withRow Bank.exp
  interval_cases row <;> interval_cases r <;> simp_all

theorem expOk_exp (b : Bank) (row : Nat) : ExpOk (b.exp row) := by
  have hword (w : BitVec 16) : ExpOk w.toInt := by
    have := w.toInt_lt
    have := w.le_toInt
    constructor <;> omega
  unfold Bank.exp
  split <;> exact hword _

theorem rowExp_held {s : State} {core g : Nat} {b : Bank} (h : bankAt s core (g / 4) = some b) :
    rowExp s core g = b.exp (g % 4) := by
  rw [rowExp, h]; rfl

theorem rowElems_held {s : State} {core g : Nat} {b : Bank} (h : bankAt s core (g / 4) = some b) :
    rowElems s core g = b.row (g % 4) := by
  rw [rowElems, h]; rfl

theorem length_rowElems {s : State} {core g : Nat} (h : (bankAt s core (g / 4)).isSome = true) :
    (rowElems s core g).length = 64 := by
  obtain ⟨b, hb⟩ := Option.isSome_iff_exists.mp h
  rw [rowElems_held hb, Bank.row, List.length_map, List.length_range]

theorem expOk_rowExp {s : State} {core g : Nat} (h : (bankAt s core (g / 4)).isSome = true) : ExpOk (rowExp s core g) := by
  obtain ⟨b, hb⟩ := Option.isSome_iff_exists.mp h
  rw [rowExp_held hb]
  exact expOk_exp b _

/-- R53. A row written into a held bank: it alone differs. -/
theorem putRow_rowOnly {s t : State} {core g : Nat} {ex : Int} {es : List Elem} (hg : g < 1024)
    (hb : (bankAt s core (g / 4)).isSome = true) (hex : ExpOk ex) (hes : es.length = 64)
    (ht : t.cr.banks = (putRow s core g ex es).cr.banks) : rowOnly core g s t ex es := by
  obtain ⟨b, hb⟩ := Option.isSome_iff_exists.mp hb
  rw [putRow_held hb] at ht
  have hbank (n : Nat) : bankAt t core n = if n = g / 4 then some (b.withRow (g % 4) ex es) else bankAt s core n := by
    simp only [bankAt, ht, tget_tput, Nat.add_left_cancel_iff]
  have hsame : bankAt t core (g / 4) = some (b.withRow (g % 4) ex es) := (hbank _).trans (if_pos rfl)
  refine ⟨(rowExp_held hsame).trans (exp_withRow_same hex), (rowElems_held hsame).trans (row_withRow_same hes), fun h hh => ?_,
    fun k hk => ?_⟩
  · by_cases hdiv : h / 4 = g / 4
    · have hmod : h % 4 ≠ g % 4 := by omega
      rw [← hdiv] at hsame hb
      rw [rowExp_held hsame, rowElems_held hsame, rowExp_held hb, rowElems_held hb,
        exp_withRow_other (by omega) (by omega) hmod, row_withRow_other hes hmod]
      exact ⟨rfl, rfl⟩
    · have hother := (hbank _).trans (if_neg hdiv)
      simp only [rowExp, rowElems, hother, and_self]
  · rw [ht, tget_tput_other _ _ _ _ (by omega)]

/-! ### Lanes of a value (R341) -/

theorem tyBits_le (ty : Nat) : tyBits ty ≤ 32 := by
  unfold tyBits
  split <;> decide

theorem lanesOf_eq_map (w n : Nat) : ∀ v, lanesOf w n v = (List.range n).map fun k => v / 2 ^ (w * k) % 2 ^ w := by
  induction n with
  | zero => intro v; rfl
  | succ n ih =>
    intro v
    rw [lanesOf, ih, List.range_succ_eq_map, List.map_cons, List.map_map, Nat.mul_zero, pow_zero, Nat.div_one]
    refine congrArg _ (List.map_congr_left fun k _ => ?_)
    rw [Function.comp_apply, Nat.div_div_eq_div_mul, ← pow_add, Nat.mul_succ, Nat.add_comm]

theorem joinLanes_lt (w : Nat) (l : List Nat) : joinLanes w l < 2 ^ (w * l.length) := by
  induction l with
  | nil => simp [joinLanes]
  | cons x l ih =>
    have hx : x % 2 ^ w < 2 ^ w := Nat.mod_lt _ (Nat.two_pow_pos w)
    have hstep : (joinLanes w l + 1) * 2 ^ w ≤ 2 ^ (w * l.length) * 2 ^ w := Nat.mul_le_mul_right _ ih
    rw [joinLanes, List.length_cons, Nat.mul_succ, pow_add]
    rw [Nat.add_mul, Nat.one_mul] at hstep
    omega

theorem joinLanes_lane (w : Nat) (l : List Nat) : ∀ k, joinLanes w l / 2 ^ (w * k) % 2 ^ w = l.getD k 0 % 2 ^ w := by
  induction l with
  | nil => intro k; simp [joinLanes]
  | cons x l ih =>
    intro k
    have hx : x % 2 ^ w < 2 ^ w := Nat.mod_lt _ (Nat.two_pow_pos w)
    cases k with
    | zero => simp [joinLanes]
    | succ k =>
      rw [joinLanes, Nat.mul_succ, Nat.add_comm (w * k), pow_add, ← Nat.div_div_eq_div_mul,
        Nat.add_mul_div_right _ _ (Nat.two_pow_pos w), Nat.div_eq_of_lt hx, Nat.zero_add, ih, List.getD_cons_succ]

/-- R341. The value of 64 lanes: nothing stands above them, and each reads as it was joined. -/
theorem toNat_joinLanes {w : Nat} {l : List Nat} (hw : w ≤ 32) (hl : l.length = 64) :
    (BitVec.ofNat 2048 (joinLanes w l)).toNat = joinLanes w l := by
  have hbits : w * l.length ≤ 2048 := by rw [hl]; omega
  rw [BitVec.toNat_ofNat, Nat.mod_eq_of_lt ((joinLanes_lt w l).trans_le (Nat.pow_le_pow_right Nat.zero_lt_two hbits))]

/-! ### What the row operations compute (R60, R61, R360) -/

theorem foldl_or_cons (f : Flags) (l : List Flags) : (f :: l).foldl (· ||| ·) 0 = f ||| l.foldl (· ||| ·) 0 := by
  rw [List.foldl_cons, BitVec.or_comm, List.foldl_assoc]

/-- R360, R61. Element k of a row is converted with the index of its first element and k. -/
theorem readRow_eq_map (ty : Nat) (ex : Int) (mode seed : Nat) (es : List Elem) : ∀ i,
    let conv (k : Nat) : Nat × Flags :=
      toElem ty { mode := mode, seed := seed, index := (i + k) % 2 ^ 32 } (elemNum ex mode (es.getD k {}))
    readRow ty ex { mode := mode, seed := seed, index := i % 2 ^ 32 } es =
      ((List.range es.length).map fun k => (conv k).1,
        ((List.range es.length).map fun k => (conv k).2).foldl (· ||| ·) 0) := by
  induction es with
  | nil => intro i; rfl
  | cons e es ih =>
    intro i
    have hnext : (i % 2 ^ 32 + 1) % 2 ^ 32 = (i + 1) % 2 ^ 32 := Nat.mod_add_mod _ _ _
    simp only [readRow, hnext, ih (i + 1), List.length_cons, List.range_succ_eq_map, List.map_cons, List.map_map, foldl_or_cons,
      Nat.add_zero, List.getD_cons_zero]
    have hsucc (k : Nat) : i + 1 + k = i + (k + 1) := by omega
    simp only [Function.comp_def, List.getD_cons_succ, hsucc, Nat.succ_eq_add_one]

theorem writeRow_eq_map (ty : Nat) (ex : Int) (l : List Nat) :
    writeRow ty ex l = (l.map fun x => (elemOfCode ex ty x).1, (l.map fun x => (elemOfCode ex ty x).2).foldl (· ||| ·) 0) := by
  induction l with
  | nil => rfl
  | cons x l ih => rw [writeRow, ih, List.map_cons, List.map_cons, foldl_or_cons]

theorem length_mapFlags (f : Elem → Elem × Flags) (es : List Elem) : (mapFlags f es).1.length = es.length := by
  induction es with
  | nil => rfl
  | cons e es ih => rw [mapFlags, List.length_cons, ih, List.length_cons]

theorem length_normRow (ex : Int) (es : List Elem) : (normRow ex es).2.1.length = es.length := by
  unfold normRow
  dsimp only
  split
  · rfl
  · exact length_mapFlags _ _

/-- R60. The shift is limited so that the exponent stays one of 16 bits. -/
theorem expOk_normRow {ex : Int} (h : ExpOk ex) (es : List Elem) : ExpOk (normRow ex es).1 := by
  obtain ⟨hlow, hhigh⟩ := h
  unfold normRow
  dsimp only
  split
  · exact ⟨hlow, hhigh⟩
  · unfold normShift ExpOk
    dsimp only
    omega

/-! ### The row operations (R360) -/

section
variable {o : Op} {m : Mv} {s : State}

/-- R360. The fields of `mx.ty`. -/
theorem fld_type (w : Nat) : fld w 3 0 = w % 16 := rfl
theorem fld_rounding (w : Nat) : fld w 6 4 = w / 16 % 8 := Nat.shiftRight_eq_div_pow w 4 ▸ rfl
theorem fld_seed (w : Nat) : fld w 63 32 = w / 2 ^ 32 % 2 ^ 32 := by rw [fld, Nat.shiftRight_eq_div_pow]

theorem mxTy_mid : mxTy (soleReq o m s) (midState o m s s) = (opnd s.cx 0x349).toNat % 16 := by
  rw [mxTy, soleReq_port, fld_type]

theorem mxRnd_mid : mxRnd (soleReq o m s) (midState o m s s) = (opnd s.cx 0x349).toNat / 16 % 8 := by
  rw [mxRnd, soleReq_port, fld_rounding]

theorem mxSeed_mid : mxSeed (soleReq o m s) (midState o m s s) = (opnd s.cx 0x349).toNat / 2 ^ 32 % 2 ^ 32 := by
  rw [mxSeed, soleReq_port, fld_seed]

theorem bankAt_isSome_of_teamHolds {c b : Nat} (h : teamHolds s c b = true) : (bankAt s (coreOf c) b).isSome = true := by
  unfold teamHolds at h
  split at h
  · next hb => rw [hb]; rfl
  · cases h

theorem rowHold_none (h : RowReady ((toW (soleValue m s)).toNat % 1024) s) : rowHold (soleReq o m s) s = none :=
  if_neg (Bool.eq_false_iff.mp h.free)

/-- R360. The checks of a row operation pass on a row that is ready and on a sound type word. -/
theorem rowChecks_nil {ty rnd reads : Bool} (h : RowReady ((toW (soleValue m s)).toNat % 1024) s)
    (hty : ty = true → 4 ≤ (opnd s.cx 0x349).toNat % 16 ∧ (opnd s.cx 0x349).toNat % 16 ≤ 0xC)
    (hrnd : rnd = true → (opnd s.cx 0x349).toNat / 16 % 8 ≤ 4) : rowChecks ty rnd reads (soleReq o m s) s = [] := by
  have hheld : teamHolds s (soleReq o m s).c (rowOperand (soleReq o m s) / 4) = true := h.held
  have hgood : rowFails s (coreOf (soleReq o m s).c) (rowOperand (soleReq o m s)) = false := h.good
  have htype : mxTy (soleReq o m s) s = (opnd s.cx 0x349).toNat % 16 := fld_type _
  have hround : mxRnd (soleReq o m s) s = (opnd s.cx 0x349).toNat / 16 % 8 := fld_rounding _
  have hfields : ¬ (ty = true ∧ (mxTy (soleReq o m s) s < 4 ∨ 0xC < mxTy (soleReq o m s) s ∨
      (rnd = true ∧ 4 < mxRnd (soleReq o m s) s))) := by
    rintro ⟨hused, hlow | hhigh | ⟨hrounds, hmode⟩⟩
    · have := hty hused; omega
    · have := hty hused; omega
    · have := hrnd hrounds; omega
  unfold rowChecks
  dsimp only
  rw [if_neg hfields, if_pos hheld, if_neg (by rw [hgood]; simp)]
  rfl

theorem sendsBanks_putRow {c core g : Nat} {ex : Int} {es : List Elem} : SendsBanks c s (putRow s core g ex es) [] := by
  cases hb : bankAt s core (g / 4) with
  | none => rw [putRow, hb]; exact SendsBanks.refl c s
  | some b => rw [putRow_held hb]; exact ⟨⟨_, _, _, rfl⟩, (SendsBanks.refl c s).own, fun _ _ => rfl⟩

theorem SendsBanks.rowFlags {c : Nat} {u : State} {fs : List Flight} (h : SendsBanks c s u fs) (f : Flags) :
    SendsBanks c s (rowFlags u c f) (fs ++ [⟨s.cycle + 8, 8, landFlags f⟩]) := by
  have hcycle : u.cycle = s.cycle := by
    obtain ⟨_, _, _, rfl⟩ := h.rest
    rfl
  rw [← hcycle]
  exact h.fly _

/-- R260, R261. A result of a trigger on banks. -/
theorem sendsBanks_landResult {unit lat port : Nat} {v : Vec} :
    SendsBanks s.iss.ctx (midState o m s s) (landResult unit lat port v (soleReq o m s) (midState o m s s))
      [⟨s.cycle + lat, unit, .port port v :: wbActs unit s v⟩] := by
  rw [landResult, wbLand_mid]
  exact (SendsBanks.refl _ _).fly _

/-- R360, R60. `norm` renormalises its row. -/
theorem mxNorm_row (hm : canMove m false s) (hr : RowReady ((toW (soleValue m s)).toNat % 1024) s) :
    let core := coreOf s.iss.ctx
    let g := (toW (soleValue m s)).toNat % 1024
    let n := normRow (rowExp s core g) (rowElems s core g)
    ∃ t, exec (.mxNorm m) s = .next t ∧ onlyBanks m s t [⟨s.cycle + 8, 8, landFlags n.2.2⟩] ∧ rowOnly core g s t n.1 n.2.1 := by
  intro core g n
  have hheld := bankAt_isSome_of_teamHolds hr.held
  have hs : Starts opMxNorm m s s :=
    ⟨rfl, rfl, rfl, rowHold_none hr, pendFits_zero _, rfl, rowChecks_nil hr nofun nofun, s, rfl, rfl⟩
  obtain ⟨t, hexec, honly, hbanks⟩ := trigger_banks hm hs rfl (sendsBanks_putRow.rowFlags n.2.2)
  exact ⟨t, hexec, honly, putRow_rowOnly (Nat.mod_lt _ (by decide)) hheld (expOk_normRow (expOk_rowExp hheld) _)
    ((length_normRow _ _).trans (length_rowElems hheld)) 
      (hbanks.trans (putRow_banks_congr (s := s) (u := midState opMxNorm m s s) rfl core g n.1 n.2.1))⟩

theorem mxRd_effect {r : Req} {q : List Nat × Flags}
    (h : readRow (mxTy r s) (rowExp s (coreOf r.c) (rowOperand r))
      { mode := mxRnd r s, seed := mxSeed r s, index := 64 * rowOperand r } (rowElems s (coreOf r.c) (rowOperand r)) = q) :
    opMxRd.effect r s = rowFlags (landResult 8 8 0x282 (BitVec.ofNat 2048 (joinLanes (tyBits (mxTy r s)) q.1)) r s) r.c q.2 := by
  rw [← h]; rfl

theorem mxWr_effect {r : Req} {q : List Elem × Flags}
    (h : writeRow (mxTy r s) (rowExp s (coreOf r.c) (rowOperand r)) (lanesOf (tyBits (mxTy r s)) 64 (r.port s 0x348).toNat) = q) :
    opMxWr.effect r s = rowFlags (putRow s (coreOf r.c) (rowOperand r) (rowExp s (coreOf r.c) (rowOperand r)) q.1) r.c q.2 := by
  rw [← h]; rfl

/-- R360, R61. `rd` lands the elements of its row in TYPE and leaves the row. -/
theorem mxRd_row (hm : canMove m false s) (hr : RowReady ((toW (soleValue m s)).toNat % 1024) s) (hw : wbOk 8 s) :
    let core := coreOf s.iss.ctx
    let g := (toW (soleValue m s)).toNat % 1024
    let w := (opnd s.cx 0x349).toNat
    let ty := w % 16
    let rnd := w / 16 % 8
    let conv (k : Nat) : Nat × Flags :=
      toElem ty { mode := rnd, seed := w / 2 ^ 32 % 2 ^ 32, index := (64 * g + k) % 2 ^ 32 }
        (elemNum (rowExp s core g) rnd ((rowElems s core g).getD k {}))
    4 ≤ ty → ty ≤ 0xC → rnd ≤ 4 →
    ∃ t v, exec (.mxRd m) s = .next t ∧
      onlyBanks m s t [⟨s.cycle + 8, 8, .port 0x282 v :: wbActs 8 s v⟩,
        ⟨s.cycle + 8, 8, landFlags (((List.range 64).map fun k => (conv k).2).foldl (· ||| ·) 0)⟩] ∧
      t.cr.banks = s.cr.banks ∧ (∀ k, k < 64 → laneAt (tyBits ty) k v = (conv k).1 % 2 ^ tyBits ty) ∧
      v.toNat < 2 ^ (64 * tyBits ty) := by
  intro core g w ty rnd conv hlow hhigh hmode
  have hlen := length_rowElems (bankAt_isSome_of_teamHolds hr.held)
  have hs : Starts opMxRd m s s :=
    ⟨rfl, rfl, rfl, rowHold_none hr, pendFits_zero _, rfl,
      List.append_eq_nil_iff.mpr ⟨rowChecks_nil hr (fun _ => ⟨hlow, hhigh⟩) (fun _ => hmode), wbCheck_nil 8 _ m s hw⟩, s, rfl, rfl⟩
  have hg : g < 1024 := Nat.mod_lt _ (by decide)
  have hread := readRow_eq_map ty (rowExp s core g) rnd (w / 2 ^ 32 % 2 ^ 32) (rowElems s core g) (64 * g)
  rw [Nat.mod_eq_of_lt (a := 64 * g) (by omega), hlen] at hread
  let codes := (List.range 64).map fun k => (conv k).1
  let flags := ((List.range 64).map fun k => (conv k).2).foldl (· ||| ·) 0
  let v : Vec := BitVec.ofNat 2048 (joinLanes (tyBits ty) codes)
  have heffect : opMxRd.effect (soleReq opMxRd m s) (midState opMxRd m s s) =
      rowFlags (landResult 8 8 0x282 v (soleReq opMxRd m s) (midState opMxRd m s s)) s.iss.ctx flags := by
    rw [mxRd_effect (q := (codes, flags)) (by rw [mxTy_mid, mxRnd_mid, mxSeed_mid]; exact hread), mxTy_mid]
    rfl
  have hcodes : codes.length = 64 := by rw [List.length_map, List.length_range]
  have hv : v.toNat = joinLanes (tyBits ty) codes := toNat_joinLanes (tyBits_le ty) hcodes
  obtain ⟨t, hexec, honly, hbanks⟩ := trigger_banks hm hs rfl (heffect ▸ sendsBanks_landResult.rowFlags flags)
  refine ⟨t, v, hexec, honly, hbanks.trans (congrArg (·.cr.banks) heffect), fun k hk => ?_, ?_⟩
  · rw [laneAt, hv, joinLanes_lane, List.getD_eq_getElem _ _ (by omega), List.getElem_map, List.getElem_range]
  · rw [hv, Nat.mul_comm, ← hcodes]
    exact joinLanes_lt _ _

/-- R360. `wr` enters the lanes of `.a` into its row. -/
theorem mxWr_row (hm : canMove m false s) (hr : RowReady ((toW (soleValue m s)).toNat % 1024) s) :
    let core := coreOf s.iss.ctx
    let g := (toW (soleValue m s)).toNat % 1024
    let ty := (opnd s.cx 0x349).toNat % 16
    let ex := rowExp s core g
    let conv (k : Nat) : Elem × Flags := elemOfCode ex ty (laneAt (tyBits ty) k (opnd s.cx 0x348))
    4 ≤ ty → ty ≤ 0xC →
    ∃ t, exec (.mxWr m) s = .next t ∧
      onlyBanks m s t [⟨s.cycle + 8, 8, landFlags (((List.range 64).map fun k => (conv k).2).foldl (· ||| ·) 0)⟩] ∧
      rowOnly core g s t ex ((List.range 64).map fun k => (conv k).1) := by
  intro core g ty ex conv hlow hhigh
  have hheld := bankAt_isSome_of_teamHolds hr.held
  have hs : Starts opMxWr m s s :=
    ⟨rfl, rfl, rfl, rowHold_none hr, pendFits_zero _, rfl, rowChecks_nil hr (fun _ => ⟨hlow, hhigh⟩) nofun, s, rfl, rfl⟩
  let es := (List.range 64).map fun k => (conv k).1
  let flags := ((List.range 64).map fun k => (conv k).2).foldl (· ||| ·) 0
  have heffect : opMxWr.effect (soleReq opMxWr m s) (midState opMxWr m s s) =
      rowFlags (putRow (midState opMxWr m s s) core g ex es) s.iss.ctx flags := by
    rw [mxWr_effect (q := (es, flags)) (by
      rw [mxTy_mid, soleReq_port, writeRow_eq_map, lanesOf_eq_map, List.map_map, List.map_map]; rfl)]
    rfl
  obtain ⟨t, hexec, honly, hbanks⟩ := trigger_banks hm hs rfl (heffect ▸ sendsBanks_putRow.rowFlags flags)
  exact ⟨t, hexec, honly, putRow_rowOnly (Nat.mod_lt _ (by decide)) hheld (expOk_rowExp hheld)
    (by rw [List.length_map, List.length_range])
    ((hbanks.trans (congrArg (·.cr.banks) heffect)).trans (putRow_banks_congr (s := s) (u := midState opMxWr m s s) rfl core g ex es))⟩

end

/-- Settles O25: the three row operations, one lemma each. -/
theorem rowOperations : Obligations.RowOperations := by
  unfold Obligations.RowOperations
  intro m s hm core g w ty rnd ex es elem hr
  exact ⟨mxNorm_row hm hr, mxRd_row hm hr, mxWr_row hm hr⟩

end Sys2Proof.Machine
end

section
/-! SUPPORT. Steps of a matrix call: how one begins, and what its writes leave of the scratchpads (R366, R368, R377), for O27. -/

namespace Sys2Proof.Machine

/-- R366. A step begins on the operands as they stand, where no access, no held update and no failing word is in its way and
none of its words was written while its loaders read. -/
theorem matrixStepBegin_begins {s : State} {k : Call} (hk : tget s.cr.calls s.ev.a = some k) (hb : s.ev.b = 0)
    (haccs : ∀ b ∈ s.ms.accs, b.ctx ≠ k.ctx) (hholds : s.ms.holds = []) (hfails : stepFails s s.ev.a k = none)
    (hformer : ∀ f ∈ s.ms.former, s.ev.a ∉ f.cores) :
    exec .matrixStepBegin s = .next (beginStep s s.ev.a k []) := by
  have hwait : loadersWait s k = false := by
    rw [loadersWait, List.any_eq_false]
    intro b hmem
    simp [haccs b hmem]
  have htouch : stepTouch s k = some s := if_pos (by rw [hholds]; rfl)
  have hseen : (if s.ev.c = 0 then s.ms.former.filter fun f => f.cores.contains s.ev.a else []) = [] := by
    rw [ite_eq_right_iff, List.filter_eq_nil_iff]
    intro _ f hmem
    simp [hformer f hmem]
  change execMatrixStepBegin s = _
  simp only [execMatrixStepBegin, hk, hb, hwait, htouch, hfails, hseen]
  simp

/-! ### The writes of a step (R368, R377) -/

section
variable {P : Memory → Prop} {s : State}

/-- A piece of bytes, when it is written, keeps `P`. -/
def PieceKeeps (P : Memory → Prop) (p : Nat × List Byte) : Prop := ∀ m, P m → P (wrBytes p.1 p.2 m)

/-- No update is held, and the scratchpads meet `P`. -/
def SpadMeets (P : Memory → Prop) (s : State) : Prop := s.ms.holds = [] ∧ P s.ms.spad

/-- R136. With no update held, no access waits. -/
theorem touch_of_noHolds (h : s.ms.holds = []) (hit : Place → Bool) : touch s hit = some s := by
  rw [touch, h]; rfl

theorem spadStore_one (h : s.ms.holds = []) (p : Nat × List Byte) : spadStore s [p] = some (spadPut s p.1 p.2) := by
  simp only [spadStore, List.foldl_cons, List.foldl_nil, touch_of_noHolds h, Option.map_some]

theorem spadMeets_spadPut (h : SpadMeets P s) {p : Nat × List Byte} (hp : PieceKeeps P p) : SpadMeets P (spadPut s p.1 p.2) := by
  unfold spadPut
  split
  · exact h
  · exact ⟨h.1, hp _ h.2⟩

theorem spadMeets_putStores (l : List (Nat × Nat × List Byte)) : ∀ (late : List (Nat × List Byte)) (s : State),
    SpadMeets P s → (∀ w ∈ l, PieceKeeps P w.2) →
      SpadMeets P (putStores late l s).2 ∧ ∀ w ∈ (putStores late l s).1, w.2 ∈ l.map (·.2) := by
  induction l with
  | nil => intro late s h _; exact ⟨h, nofun⟩
  | cons w l ih =>
    intro late s h hl
    obtain ⟨hw, hl⟩ := List.forall_mem_cons.mp hl
    rw [putStores]
    by_cases hlate : late.any (piecesMeet w.2) = true
    · obtain ⟨hmeets, hleft⟩ := ih (w.2 :: late) s h hl
      rw [if_pos hlate]
      refine ⟨hmeets, fun v hv => ?_⟩
      rcases List.mem_cons.mp hv with rfl | hv
      · exact List.mem_cons_self
      · exact List.mem_cons_of_mem _ (hleft v hv)
    · obtain ⟨hmeets, hleft⟩ := ih late _ (spadMeets_spadPut h hw) hl
      rw [if_neg hlate, spadStore_one h.1]
      exact ⟨hmeets, fun v hv => List.mem_cons_of_mem _ (hleft v hv)⟩

/-- R368. The writes of a step that are due are performed; what is left is of them. -/
theorem spadMeets_performStores {core : Nat} {k : Call} (all : Bool) (h : SpadMeets P s) (hk : tget s.cr.calls core = some k)
    (hl : ∀ w ∈ k.stores, PieceKeeps P w.2) :
    SpadMeets P (performStores s core all) ∧
      ∃ k', tget (performStores s core all).cr.calls core = some k' ∧ ∀ w ∈ k'.stores, PieceKeeps P w.2 := by
  let due (w : Nat × Nat × List Byte) : Bool := all || decide (w.1 ≤ s.cycle)
  obtain ⟨hmeets, hleft⟩ := spadMeets_putStores (k.stores.filter due) [] s h fun w hw => hl w (List.mem_of_mem_filter hw)
  have hrest : ∀ w ∈ (putStores [] (k.stores.filter due) s).1 ++ k.stores.filter (!due ·), PieceKeeps P w.2 := by
    intro w hw
    rcases List.mem_append.mp hw with hw | hw
    · obtain ⟨v, hv, hvw⟩ := List.mem_map.mp (hleft w hw)
      exact hvw ▸ hl v (List.mem_of_mem_filter hv)
    · exact hl w (List.mem_of_mem_filter hw)
  unfold performStores
  rw [hk]
  dsimp only
  split
  · exact ⟨hmeets, _, tget_tput_same _ _ _, hrest⟩
  · exact ⟨hmeets, _, tget_tput_same _ _ _, hrest⟩

theorem mem_timeStores {now cyc : Nat} {laps : Bool} (l : List (Nat × List Byte)) :
    ∀ (n : Nat) (before : List (Nat × Nat × List Byte)), ∀ w ∈ timeStores now cyc laps n before l, w.2 ∈ l := by
  induction l with
  | nil => intro n before w hw; cases hw
  | cons p l ih =>
    intro n before w hw
    rcases List.mem_cons.mp hw with rfl | hw
    · exact List.mem_cons_self
    · exact List.mem_cons_of_mem _ (ih _ _ w hw)

/-- R366, R368. A step that begins performs none but its own writes, whether at once or until its end. -/
theorem spadMeets_beginStep {core : Nat} {k : Call} (h : SpadMeets P s) (hl : ∀ p ∈ stepStores s core k, PieceKeeps P p) :
    SpadMeets P (performStores (beginStep s core k []) core true) := by
  have hrun (t : State) (n : Nat) (ht : t.ms = (runSeen s core k []).1.ms) :
      let k' := { k with
        begun := true, flags := (runSeen s core k []).2
        stores := timeStores s.cycle k.cyc (k.arg.astr < 8 * tyBits k.arg.at_) n [] (stepStores s core k) }
      SpadMeets P (performStores (performStores
        ({ t with cr := { t.cr with calls := tput core k' t.cr.calls } }.after (s.cycle + k.cyc) true .matrixStepEnd { a := core })
        core false) core true) := by
    intro k'
    have hmeets : SpadMeets P ({ t with cr := { t.cr with calls := tput core k' t.cr.calls } }.after (s.cycle + k.cyc) true
        .matrixStepEnd { a := core }) := by
      rw [SpadMeets, after_ms, ht]; exact h
    obtain ⟨hmeets, k'', hk'', hleft⟩ := spadMeets_performStores false hmeets (tget_tput_same core k' t.cr.calls)
      fun w hw => hl _ (mem_timeStores _ _ _ w hw)
    exact (spadMeets_performStores true hmeets hk'' hleft).1
  have hpick : ∀ t : State, t.pick.2.ms = t.ms := fun t => by unfold State.pick; split <;> rfl
  rw [beginStep]
  by_cases hnone : (stepStores s core k).isEmpty = true
  · rw [if_pos hnone]; exact hrun _ _ rfl
  · rw [if_neg hnone]; exact hrun _ _ (hpick _)

end

/-! ### A scratchpad that is not in its canonical form (R6) -/

theorem wrByte_zero_below {n a : Nat} {b : Byte} {m : Memory} (h : n < a) : wrByte n 0 ((a, b) :: m) = (a, b) :: m := by
  rw [wrByte, if_neg (by omega), if_pos h, if_pos rfl]

/-- Zeros that are written below the first address of a memory change nothing: `wrByte` takes every byte behind that address to
stand above it. -/
theorem wrBytes_zeros_below {a : Nat} {b : Byte} {m : Memory} (bs : List Byte) : ∀ n, (∀ x ∈ bs, x = 0) → n + bs.length ≤ a →
    wrBytes n bs ((a, b) :: m) = (a, b) :: m := by
  induction bs with
  | nil => intro n _ _; rfl
  | cons x bs ih =>
    intro n hzero hbelow
    obtain ⟨rfl, hrest⟩ := List.forall_mem_cons.mp hzero
    rw [List.length_cons] at hbelow
    rw [wrBytes, wrByte_zero_below (by omega), ih (n + 1) hrest (by omega)]

/-! What `acc.st` writes of elements that are 0 (R377). -/

theorem stepStores_accSt {s : State} {core : Nat} {k : Call} (h : k.rout = 9) :
    stepStores s core k = accStores s core k.arg (sideA s k.ctx k.arg) (stepAt k.arg routAccSt k.step).i0
      (stepAt k.arg routAccSt k.step).j0 := by
  rw [stepStores, h]
  rfl

theorem chunkWords_pieces (fuel : Nat) : ∀ (a : Nat) (bs : List Byte), ∀ p ∈ chunkWords fuel a bs,
    (∀ x ∈ p.2, x ∈ bs) ∧ p.1 + p.2.length ≤ a + bs.length := by
  induction fuel with
  | zero => intro a bs p hp; cases hp
  | succ fuel ih =>
    intro a bs p hp
    cases bs with
    | nil => cases hp
    | cons b bs =>
      rcases List.mem_cons.mp hp with rfl | hp
      · exact ⟨fun x hx => List.mem_of_mem_take hx, by rw [List.length_take]; omega⟩
      · obtain ⟨hbytes, hend⟩ := ih _ _ p hp
        have hmore : 4 - a % 4 < (b :: bs).length := by
          by_contra hle
          rw [List.drop_eq_nil_of_le (Nat.not_lt.mp hle)] at hp
          cases fuel <;> cases hp
        rw [List.length_drop] at hend
        exact ⟨fun x hx => List.mem_of_mem_drop (hbytes x hx), by omega⟩

/-- The bytes of n codes of 8 bits that are 0. -/
theorem codeBytes_zeros (n : Nat) : codeBytes 8 (List.replicate n 0) = List.replicate n 0 := by
  induction n with
  | zero => rfl
  | succ n ih =>
    rw [List.replicate_succ, codeBytes, ih]
    rfl

theorem tget_mem {α : Type} {t : Tab α} {n : Nat} {v : α} (h : tget t n = some v) : (n, v) ∈ t := by
  induction t with
  | nil => cases h
  | cons e t ih =>
    obtain ⟨k, w⟩ := e
    by_cases hk : k = n
    · rw [tget, if_pos hk, Option.some.injEq] at h
      rw [hk, h]
      exact List.mem_cons_self
    · rw [tget, if_neg hk] at h
      exact List.mem_cons_of_mem _ (ih h)

theorem rowElems_zero {s : State} (h : ∀ e ∈ s.cr.banks, e.2.els = []) (core g : Nat) :
    ∃ n ≤ 64, rowElems s core g = List.replicate n {} := by
  cases hb : bankAt s core (g / 4) with
  | none => exact ⟨0, Nat.zero_le _, by rw [rowElems, hb]; rfl⟩
  | some b =>
    refine ⟨64, le_rfl, ?_⟩
    rw [rowElems_held hb, Bank.row, h _ (tget_mem hb)]
    rfl

/-- R377, R47. The codes of a row of zeros in INT8. -/
theorem stCodes_zeros {s : State} {core i j n : Nat} {a : MxArg} (hty : a.at_ = 9) (hrnd : a.rnd = 0)
    (h : rowElems s core (cellRow a i j) = List.replicate n {}) : (stCodes s core a i j).1 = List.replicate n 0 := by
  have hcode (ex : Int) (index : Nat) : (toElem 9 { mode := 0, seed := a.seed, index := index } (elemNum ex 0 {})).1 = 0 := rfl
  rw [stCodes, readRow_eq_map, h, hty, hrnd, List.length_replicate]
  refine List.ext_getElem (by simp) fun k hk hk' => ?_
  rw [List.length_replicate] at hk'
  simp [List.getElem?_replicate, hk', hcode]

/-- One step of `acc.st` in INT8 on core 0: a tile of 64 × 64 of bank 0 to the foot of the context's window, 64 bytes a row. -/
def storeCall : Call :=
  { ctx := 0, slot := 0, rout := 9, mp0 := 0x2000000000000000, mp1 := 0, mp2 := 9, mp3 := 0x101, mp4 := 64, mp5 := 0, mp6 := 0
    mp7 := 0, step := 0, steps := 1, cyc := 64, begun := false, stop := false, wb := none, num := 0, stride := 0, flags := [] }

/-- Two bytes whose addresses do not rise. -/
def strayBytes : Memory := [(2 ^ 20, 1), (0, 1)]

/-- Core 0 with that step to begin, every element of its banks 0, and the stray bytes in its scratchpad. -/
def strayState : State :=
  let s := State.reset.withFetchWord 24 0x1807FE
  let bank (b : Nat) : Nat × Bank := (b, { holder := 0, e0 := 0, e1 := 0, e2 := 0, e3 := 0, els := [] })
  { s with
    cr := { s.cr with calls := [(0, storeCall)], banks := (List.range 16).map bank }
    ms := { s.ms with spad := strayBytes } }


/-- X of that step, at the foot of the scratchpad. -/
def storeSide : Side :=
  { ty := 9, key := 0, va := 0x2000000000000000, skey := 0, sva := 0x2000000000000000, bkey := 0, bva := 0x2000000000000000
    stride := 64, len := 64 }

theorem sideA_strayState : sideA strayState 0 storeCall.arg = storeSide := by
  simp only [sideA, storeSide, Side.mk.injEq]
  decide +kernel

/-- The elements are 0, and so are the bytes that the step writes. -/
theorem strayState_writes : ∀ p ∈ stepStores strayState 0 storeCall, (∀ x ∈ p.2, x = 0) ∧ p.1 + p.2.length ≤ 2 ^ 20 := by
  intro p hp
  have hrow : (stepAt storeCall.arg routAccSt storeCall.step).i0 = 0 := by decide +kernel
  have hcol : (stepAt storeCall.arg routAccSt storeCall.step).j0 = 0 := by decide +kernel
  rw [stepStores_accSt rfl, hrow, hcol, show storeCall.ctx = 0 from rfl, sideA_strayState] at hp
  obtain ⟨r, hr, hp⟩ := List.mem_flatMap.mp hp
  obtain ⟨n, hn, helems⟩ := rowElems_zero (s := strayState) (by decide +kernel) 0 (cellRow storeCall.arg (0 + r) 0)
  have hcodes := stCodes_zeros (a := storeCall.arg) (by decide +kernel) (by decide +kernel) helems
  have hplace : storeSide.key + storeSide.bitOff (0 + r) 0 / 8 = 64 * r := by
    simp [Side.bitOff, storeSide]
    omega
  rw [hplace, show tyBits storeCall.arg.at_ = 8 by decide +kernel, hcodes, codeBytes_zeros] at hp
  obtain ⟨hbytes, hend⟩ := chunkWords_pieces _ _ _ p hp
  rw [List.length_replicate] at hend
  exact ⟨fun x hx => List.eq_of_mem_replicate (hbytes x hx), by have := List.mem_range.mp hr; omega⟩

theorem strayState_stores : (performStores (beginStep strayState 0 storeCall []) 0 true).ms.spad = strayBytes := by
  have hkeeps : ∀ p ∈ stepStores strayState 0 storeCall, PieceKeeps (· = strayBytes) p := by
    rintro p hp _ rfl
    obtain ⟨hzero, hbelow⟩ := strayState_writes p hp
    exact wrBytes_zeros_below _ _ hzero hbelow
  exact (spadMeets_beginStep (P := (· = strayBytes)) ⟨rfl, rfl⟩ hkeeps).2

/-- Refutes O27, by its clause on `acc.st`: the step writes the byte 0 over the byte 1 at the foot of the window, and 1 is still
read there. The clause speaks of every state and asks for no `memoriesOk`; the scratchpad of `strayState` is not in its
canonical form, which every step keeps (O58), so that no run from reset comes to it. -/
theorem not_matrixSteps : ¬ Obligations.MatrixSteps := by
  unfold Obligations.MatrixSteps
  rintro ⟨hsteps, -⟩
  have haccs : ∀ b ∈ strayState.ms.accs, b.ctx ≠ storeCall.ctx := by decide +kernel
  have hformer : ∀ f ∈ strayState.ms.former, 0 ∉ f.cores := by decide +kernel
  have hfails : stepFails strayState 0 storeCall = none := by decide +kernel
  obtain ⟨hbegin, -⟩ := hsteps strayState storeCall rfl
  obtain ⟨t, ht, -, -, -, -, hvalues⟩ := hbegin rfl haccs rfl hfails hformer
  obtain ⟨-, -, hstore, -⟩ := hvalues routAccSt rfl 0 0 (by decide) (by decide) (by decide +kernel)
  have hread := hstore rfl (by decide +kernel) (by decide +kernel) (by decide +kernel) rfl
  rw [Host.Outcome.next.inj (ht.symm.trans (matrixStepBegin_begins rfl rfl haccs rfl hfails hformer)),
    show strayState.ev.a = 0 from rfl, strayState_stores] at hread
  exact absurd hread (by decide +kernel)

end Sys2Proof.Machine
end

section
/-! SUPPORT. The checks of an access to a scratchpad path (R75, R77, R78, R88), for O13. -/

namespace Sys2Proof.Machine

theorem fld_eq_div_mod (x hi lo : Nat) : fld x hi lo = x / 2 ^ lo % 2 ^ (hi + 1 - lo) := by
  rw [fld, Nat.shiftRight_eq_div_pow]

/-- R75. The path of a 64-bit address. -/
theorem pathOf_eq_div {va : Nat} (h : va < 2 ^ 64) : pathOf va = va / 2 ^ 60 := by
  rw [pathOf, fld_eq_div_mod]
  omega

/-- R77, R78. The window check faults on an absent core and beyond the window, and otherwise gives the byte. -/
theorem windowCheck_eq {s : State} {b : BitVec 512} {cluster core off size : Nat} :
    windowCheck s b cluster core off size =
      if s.cr.absent.contains (cluster * 16 + core) ∨ bWsize b * 4096 < off + size then .fault 0x0C 0x3
      else .spad ((cluster * 16 + core) * 2 ^ 21 + bWbase b core * 4096 + off) (cluster * 16 + core) := by
  unfold windowCheck windowOf
  by_cases habsent : s.cr.absent.contains (cluster * 16 + core) = true
  · rw [if_pos habsent, if_pos (.inl habsent)]
  · by_cases hfits : off + size ≤ bWsize b * 4096
    · rw [if_neg habsent, if_pos hfits, if_neg (not_or.mpr ⟨habsent, Nat.not_lt.mpr hfits⟩)]
    · rw [if_neg habsent, if_neg hfits, if_pos (.inr (Nat.not_le.mp hfits))]

section
variable {s : State} {c va size align : Nat} {u : Use} {vh : Bool}

/-- R88. A use that names no line, packet or handle may reach a scratchpad: its checks end with that of the window. -/
theorem keepsSpad {r : Route3} (hu : ¬ (u = .line ∨ u = .packet ∨ u = .handle)) :
    (match r with
      | .spad a k => if u = .line ∨ u = .packet ∨ u = .handle then .fault 0x0C 0x6 else .spad a k
      | f => f) = r := by
  cases r with
  | spad a k => exact if_neg hu
  | fault _ _ => rfl
  | miss _ _ => rfl
  | demand _ _ => rfl
  | page _ _ _ _ => rfl

/-- R75. A reserved path faults before every other check. -/
theorem route_reservedPath (hp : 4 ≤ pathOf va) : route s c va size align u vh = .fault 0x0C 0x1 := if_pos hp

/-- R75, R88. The checks of an access to the own scratchpad. -/
theorem route_ownPath (hp : pathOf va = 2) (hu : ¬ (u = .line ∨ u = .packet ∨ u = .handle)) :
    route s c va size align u vh =
      if fld va 59 21 ≠ 0 then .fault 0x0C 0x2
      else if va % align ≠ 0 then .fault 0x0D 0x0
      else windowCheck s (s.board c) (clusterOf c) (coreOf c % 16) (fld va 20 0) size := by
  unfold route routeBy
  simp only [hp, Nat.reduceLeDiff, ↓reduceIte, Nat.reduceEqDiff, bne_iff_ne, Nat.not_ofNat_le_one, and_false]
  exact if_congr Iff.rfl rfl (if_congr Iff.rfl rfl (keepsSpad hu))

/-- R75, R78, R88. The checks of an access to the scratchpad of a core of the cluster. -/
theorem route_clusterPath (hp : pathOf va = 3) (hu : ¬ (u = .line ∨ u = .packet ∨ u = .handle)) :
    route s c va size align u vh =
      if fld va 55 21 ≠ 0 then .fault 0x0C 0x2
      else if va % align ≠ 0 then .fault 0x0D 0x0
      else match targetCore (s.board c) (fld va 59 56) with
        | none => .fault 0x0C 0x3
        | some t => windowCheck s (s.board c) (clusterOf c) t (fld va 20 0) size := by
  unfold route routeBy
  simp only [hp, Nat.reduceLeDiff, ↓reduceIte, Nat.succ_ne_self, bne_iff_ne, Nat.not_ofNat_le_one, and_false]
  refine if_congr Iff.rfl rfl (if_congr Iff.rfl rfl ?_)
  cases targetCore (s.board c) (fld va 59 56) with
  | none => rfl
  | some t => exact keepsSpad hu

end

/-- Settles O13: each kind of path by its checks above, with the fields of the address as quotients and remainders. -/
theorem scratchpadAddresses : Obligations.ScratchpadAddresses := by
  unfold Obligations.ScratchpadAddresses
  intro s c va size align u vh hline hpacket hhandle hva b inWindow
  have hu : ¬ (u = .line ∨ u = .packet ∨ u = .handle) := by simp [hline, hpacket, hhandle]
  have hpath := pathOf_eq_div hva
  have hoff : fld va 20 0 = va % 2 ^ 21 := by rw [fld_eq_div_mod]; omega
  refine ⟨fun h => ?_, fun h => ?_, fun h => route_reservedPath (hpath ▸ h)⟩
  · have hreserved : fld va 59 21 = va % 2 ^ 60 / 2 ^ 21 := by rw [fld_eq_div_mod]; omega
    rw [route_ownPath (hpath.trans h) hu, hreserved, hoff, windowCheck_eq]
    rfl
  · have hreserved : fld va 55 21 = va % 2 ^ 56 / 2 ^ 21 := by rw [fld_eq_div_mod]; omega
    have hcore : fld va 59 56 = va / 2 ^ 56 % 16 := fld_eq_div_mod va 59 56
    rw [route_clusterPath (hpath.trans h) hu, hreserved, hoff, hcore]
    simp only [windowCheck_eq]
    rfl

end Sys2Proof.Machine
end

section
/-! SUPPORT. How walks, demands and invalidations end (R90 to R94, R202), for O42. -/

namespace Sys2Proof.Machine

/-- What every step of a fold keeps, the fold keeps. -/
theorem foldl_keeps {α β : Type} {g : State → β} {f : State → α → State} (hf : ∀ t a, g (f t a) = g t) (l : List α)
    (s : State) : g (l.foldl f s) = g s := by
  induction l generalizing s with
  | nil => rfl
  | cons a l ih => exact (ih (f s a)).trans (hf s a)

/-! ### The end of a walk (R90, R91, R94) -/

/-- R91. The answer of a walk reaches one that joined it: a context, or a data command. -/
def tellAnswer (comp page : Nat) (ans : WalkAns) (s : State) (c : Nat) : State :=
  if c < 2 ^ 20 then s.modCtx c fun x => { x with walked := x.walked ++ [(comp, page, ans)] }
  else modCmd s (c - 2 ^ 20) fun k => { k with walked := k.walked ++ [(comp, page, ans)] }

/-- R90. A walk that finds a page puts it into the buffer of each core that waits. -/
def holdPage (s : State) (w : Walk) (ans : WalkAns) : State :=
  match ans with
  | .desc low high level =>
    let held (k : Nat) : Tlb := { core := k, comp := w.comp, page := w.page, low := low, high := high, level := level }
    let cores := ((w.ctxs.filter (· < 2 ^ 20)).map coreOf).eraseDups
    { s with ms := { s.ms with tlb := cores.foldl (fun l k => tlbPut (held k) l) s.ms.tlb } }
  | .fault _ _ => s

/-- A walk is over. -/
def dropWalk (s : State) (id : Nat) : State :=
  { s with ms := { s.ms with walks := s.ms.walks.filter fun v => v.id != id } }

theorem walkEnd_eq {s : State} {id : Nat} {w : Walk} (hw : s.ms.walks.find? (fun v => v.id == id) = some w) :
    let ans := walkTables s w.comp (w.page * 4096)
    walkEnd s id =
      startNext (holdPage (w.ctxs.foldl (tellAnswer w.comp w.page ans) (dropWalk s id)) w ans) w.die := by
  unfold walkEnd
  rw [hw]
  rfl

theorem delay_eq (s : State) : ∃ n delays, s.delay = (n, { s with delays := delays }) := by
  unfold State.delay
  split
  all_goals exact ⟨_, _, rfl⟩

/-- R91. The next walk to begin changes no walk's number; what else it changes is when it ends. -/
theorem startNext_eq (s : State) (die : Nat) : ∃ walks last delays agenda,
    startNext s die =
      { s with delays := delays, agenda := agenda, ms := { s.ms with walks := walks, walkLast := last } } ∧
    walks.map (·.id) = s.ms.walks.map (·.id) := by
  unfold startNext
  split
  · exact ⟨_, _, _, _, rfl, rfl⟩
  next w _ =>
    extract_lets ms u
    obtain ⟨n, delays, hdelay⟩ := delay_eq u
    rw [hdelay]
    refine ⟨_, _, _, _, rfl, ?_⟩
    rw [List.map_map]
    refine List.map_congr_left fun v _ => ?_
    rw [Function.comp_apply, apply_ite Walk.id]
    exact ite_self _

section
variable {s : State} {w : Walk} {comp page c : Nat} {ans : WalkAns}

theorem tellAnswer_ms : (tellAnswer comp page ans s c).ms = s.ms := by
  unfold tellAnswer
  split
  all_goals rfl

theorem tellAnswer_context (hc : c < 2 ^ 20) : tellAnswer comp page ans s c =
    s.modCtx c fun x => { x with walked := x.walked ++ [(comp, page, ans)] } := if_pos hc

theorem tellAnswer_command {n : Nat} : tellAnswer comp page ans s (2 ^ 20 + n) =
    modCmd s n fun k => { k with walked := k.walked ++ [(comp, page, ans)] } := by
  rw [tellAnswer, if_neg (by omega), Nat.add_sub_cancel_left]

theorem holdPage_eq : ∃ tlb, holdPage s w ans = { s with ms := { s.ms with tlb := tlb } } := by
  unfold holdPage
  split
  all_goals exact ⟨_, rfl⟩

theorem mem_tlbPut {t : Tlb} {l : List Tlb} : t ∈ tlbPut t l :=
  List.mem_append_right _ (List.mem_singleton_self t)

/-- R90. The buffer of the core of a context that alone waits holds the page from then on. -/
theorem holdPage_context {low high : W64} {level : Nat} (hw : w.ctxs = [c]) (hc : c < 2 ^ 20) :
    ⟨coreOf c, w.comp, w.page, low, high, level⟩ ∈ (holdPage s w (.desc low high level)).ms.tlb := by
  have hcores : ((w.ctxs.filter (· < 2 ^ 20)).map coreOf).eraseDups = [coreOf c] := by
    rw [hw, List.filter_cons_of_pos (by simpa using hc)]
    rfl
  unfold holdPage
  dsimp only
  rw [hcores]
  exact mem_tlbPut

/-- R94. A data command's translation enters no buffer. -/
theorem holdPage_command {n : Nat} (hw : w.ctxs = [2 ^ 20 + n]) : holdPage s w ans = s := by
  have hcontexts : w.ctxs.filter (· < 2 ^ 20) = [] := by
    simp [hw]
  unfold holdPage
  split
  · dsimp only
    rw [hcontexts]
    rfl
  · rfl

end

/-- R91. A walk that ends changes no byte, and every walk that is left has another number. -/
theorem walkEnd_walks {s : State} {id : Nat} {w : Walk} (hw : s.ms.walks.find? (fun v => v.id == id) = some w) :
    (walkEnd s id).ms.mem = s.ms.mem ∧ ∀ v ∈ (walkEnd s id).ms.walks, v.id ≠ id := by
  rw [walkEnd_eq hw]
  generalize walkTables s w.comp (w.page * 4096) = ans
  have htold : (w.ctxs.foldl (tellAnswer w.comp w.page ans) (dropWalk s id)).ms = (dropWalk s id).ms :=
    foldl_keeps (fun _ _ => tellAnswer_ms) _ _
  generalize w.ctxs.foldl (tellAnswer w.comp w.page ans) (dropWalk s id) = told at htold ⊢
  obtain ⟨tlb, hheld⟩ := holdPage_eq (s := told) (w := w) (ans := ans)
  obtain ⟨walks, last, delays, agenda, hnext, hids⟩ := startNext_eq (holdPage told w ans) w.die
  rw [hnext, hheld]
  rw [hheld] at hids
  dsimp only at hids ⊢
  refine ⟨(congrArg MemSt.mem htold :), fun v hv => ?_⟩
  have hid : v.id ∈ (dropWalk s id).ms.walks.map (·.id) := htold ▸ hids ▸ List.mem_map_of_mem hv
  obtain ⟨u, hu, huv⟩ := List.mem_map.mp hid
  exact huv ▸ bne_iff_ne.mp (List.mem_filter.mp hu).2

/-- R90, R91. A walk answers the context that alone waits for it, and its core holds the page. -/
theorem walkEnd_context {s : State} {id c level : Nat} {w : Walk} {low high : W64}
    (hw : s.ms.walks.find? (fun v => v.id == id) = some w) (hctxs : w.ctxs = [c]) (hc : c < 2 ^ 20)
    (hans : walkTables s w.comp (w.page * 4096) = .desc low high level) :
    ((walkEnd s id).ctx c).walked = (s.ctx c).walked ++ [(w.comp, w.page, .desc low high level)] ∧
      ⟨coreOf c, w.comp, w.page, low, high, level⟩ ∈ (walkEnd s id).ms.tlb ∧
      ∀ k, k ≠ c → (walkEnd s id).ctx k = s.ctx k := by
  rw [walkEnd_eq hw, hans, hctxs, List.foldl_cons, List.foldl_nil, tellAnswer_context hc]
  generalize htold : (dropWalk s id).modCtx c _ = told
  obtain ⟨walks, last, delays, agenda, hnext, -⟩ := startNext_eq (holdPage told w (.desc low high level)) w.die
  obtain ⟨tlb, hheld⟩ := holdPage_eq (s := told) (w := w) (ans := .desc low high level)
  have hctx (k : Nat) : (startNext (holdPage told w (.desc low high level)) w.die).ctx k = told.ctx k := by
    rw [hnext, hheld]
    rfl
  refine ⟨?_, ?_, fun k hk => ?_⟩
  · rw [hctx, ← htold, ctx_modCtx_same]
    rfl
  · rw [hnext]
    exact holdPage_context hctxs hc
  · rw [hctx, ← htold, ctx_modCtx_other _ _ _ _ hk]
    rfl

/-- R94. A walk answers the data command that alone waits for it. -/
theorem walkEnd_command {s : State} {id : Nat} {w : Walk} {k : Cmd}
    (hw : s.ms.walks.find? (fun v => v.id == id) = some w) (hctxs : w.ctxs = [2 ^ 20 + k.id]) (hk : cmdOf s k.id = some k) :
    (walkEnd s id).ctxs = s.ctxs ∧ (walkEnd s id).ms.tlb = s.ms.tlb ∧ cmdOf (walkEnd s id) k.id =
      some { k with walked := k.walked ++ [(w.comp, w.page, walkTables s w.comp (w.page * 4096))] } := by
  rw [walkEnd_eq hw, holdPage_command hctxs, hctxs, List.foldl_cons, List.foldl_nil, tellAnswer_command]
  generalize walkTables s w.comp (w.page * 4096) = ans
  generalize htold : modCmd (dropWalk s id) k.id _ = told
  obtain ⟨walks, last, delays, agenda, hnext, -⟩ := startNext_eq told w.die
  rw [hnext]
  refine ⟨by rw [← htold]; rfl, by rw [← htold]; rfl, ?_⟩
  calc cmdOf told k.id
      = (cmdOf s k.id).map fun j => if j.id = k.id then { j with walked := j.walked ++ [(w.comp, w.page, ans)] } else j := by
        rw [← htold]
        exact cmdOf_modCmd (s := dropWalk s id)
          (f := fun j => { j with walked := j.walked ++ [(w.comp, w.page, ans)] }) fun _ => rfl
    _ = some { k with walked := k.walked ++ [(w.comp, w.page, ans)] } := by rw [hk, Option.map_some, if_pos rfl]

/-! ### Pages on demand (R92, R202) -/

section
variable {s : State} {comp ta bytes : Nat}

theorem wakeDemand_ms : (wakeDemand s comp ta bytes).ms =
    { s.ms with demand := s.ms.demand.filter fun d =>
      !(d.2.1 == comp && (decide (ta / 4096 ≤ d.2.2) && decide (d.2.2 * 4096 < ta + bytes))) } := by
  unfold wakeDemand
  extract_lets inside hit fresh woken
  have hwoken : woken.ms = s.ms := foldl_keeps (fun _ _ => by split <;> rfl) _ _
  exact congrArg (fun m : MemSt => { m with demand := m.demand.filter fun d => !hit d }) hwoken

theorem wakeDemand_tt : (wakeDemand s comp ta bytes).tt = s.tt :=
  foldl_keeps (g := State.tt) (fun _ _ => by split <;> rfl) _ _

/-- R92. No demand for a page of the range waits on. -/
theorem wakeDemand_demand : ∀ d ∈ (wakeDemand s comp ta bytes).ms.demand,
    ¬ (d.2.1 = comp ∧ ta / 4096 ≤ d.2.2 ∧ d.2.2 * 4096 < ta + bytes) := by
  rw [wakeDemand_ms]
  rintro d hd ⟨hcomp, hlo, hhi⟩
  have hout := (List.mem_filter.mp hd).2
  simp [hcomp, hlo, hhi] at hout

end

/-- R92. A context whose demand is declined keeps its fault, and its demand is gone; nothing else is changed. -/
theorem declineDemand_context {s : State} {who comp page sub : Nat} {f : Bool} (hwho : who < 2 ^ 20)
    (hfault : walkTables s comp (page * 4096) = .fault sub f) :
    (who, comp, page) ∉ (declineDemand s who comp page).ms.demand ∧ (declineDemand s who comp page).ms.mem = s.ms.mem ∧
      (comp, page, WalkAns.fault sub true) ∈ ((declineDemand s who comp page).ctx who).walked ∧
      ∀ k, k ≠ who → (declineDemand s who comp page).ctx k = s.ctx k := by
  have htables (demand : List (Nat × Nat × Nat)) :
      walkTables { s with ms := { s.ms with demand := demand } } comp (page * 4096) = .fault sub f := hfault
  unfold declineDemand
  dsimp only
  rw [if_pos hwho, htables]
  refine ⟨by simp, rfl, ?_, fun k hk => ctx_modCtx_other _ _ _ _ hk⟩
  rw [ctx_modCtx_same]
  exact List.mem_append_right _ (List.mem_singleton_self _)

/-- R202. Memory that is cleared reads as 0, where no port has failed. -/
theorem rdByte_zeroMem {s : State} {a n j : Nat} (hports : s.ms.failPorts = []) (hj : j < n) :
    rdByte (zeroMem s a n).ms.mem (a + j) = 0 := by
  have hport : portFailed s a = false := by simp [portFailed, hports]
  rw [zeroMem, hport]
  dsimp only
  rw [if_neg Bool.false_ne_true, memDrop, rdByte_filter (p := fun b => b < a ∨ a + n ≤ b), if_neg (by omega)]

/-- R202. The pages that Zitrum hands out are cleared as they leave its store. -/
theorem takePages_zeroMem {s u : State} {tier2 : Bool} {n size count pa : Nat}
    (htake : takePages s tier2 n size count = some (pa, u)) :
    ∃ tt, u = zeroMem { s with tt := tt } pa (size * count) := by
  unfold takePages at htake
  extract_lets key base at_ limit at htake
  split at htake
  · cases htake
  · split at htake
    · cases htake
      exact ⟨_, rfl⟩
    · split at htake
      · cases htake
      · cases htake
        exact ⟨_, rfl⟩

theorem bearLine_eq (s : State) (high : W64) :
    ∃ lines, bearLine s high = { s with ms := { s.ms with lines := lines } } := by
  unfold bearLine
  dsimp only
  split
  all_goals exact ⟨_, rfl⟩

/-- R84. The stack or the port of a descriptor's address. -/
def tierOf (low : W64) : Nat := if 2 ^ 44 ≤ dPa low then fld (dPa low) 43 40 else fld (dPa low) 39 36

/-- R82. A descriptor's low word with another address. -/
def wordAtPa (low : W64) (pa : Nat) : W64 := BitVec.ofNat 64 (low.toNat - fld low.toNat 44 12 * 4096 + pa)

/-- R92, R202. The service can install a page in a compartment `k`: the descriptor is that of a leaf of the compartment, the
quota holds it, pages at `pa` are at hand, which leaves `u`, and its place in the tables is free, which gives `v`. -/
structure CanInstall (s : State) (comp ta : Nat) (low high : W64) (k : Comp) (pa : Nat) (u v : State) : Prop where
  valid : dV low = true
  leaf : dLeaf low = true
  own : dComp high = comp
  charged : tget s.tt.comps comp = some k
  quota : pagesUsed s comp + pageBytes (dSize low) / 4096 ≤ quotaPages s comp
  line : dKind low = kLined → lineAgrees s high ta = true
  taken : takePages s (decide (2 ^ 44 ≤ dPa low)) (tierOf low) (pageBytes (dSize low)) 1 = some (pa, u)
  sound : badDesc (wordAtPa low pa) high (leafLevel (dSize low)) = false
  put : putLeaf u k.root ta (dSize low) (wordAtPa low pa) high = some v

section
variable {s u v : State} {comp ta pa : Nat} {low high : W64} {k : Comp}

/-- R202. The page that is installed is cleared. -/
theorem CanInstall.cleared (h : CanInstall s comp ta low high k pa u v) (hports : s.ms.failPorts = []) :
    ∀ j, j < pageBytes (dSize low) → rdByte u.ms.mem (pa + j) = 0 := by
  intro j hj
  obtain ⟨tt, hu⟩ := takePages_zeroMem h.taken
  rw [hu]
  exact rdByte_zeroMem hports (by rwa [Nat.mul_one])

/-- R92. The tables are those with the descriptor, and the compartment is charged. -/
theorem installPage_installs (h : CanInstall s comp ta low high k pa u v) :
    ∃ t, installPage s comp ta low high = some t ∧ t.ms.mem = v.ms.mem ∧
      tget t.tt.comps comp = some { k with pages := k.pages + pageBytes (dSize low) / 4096 } := by
  have hallowed : ¬ (¬ dV low ∨ ¬ dLeaf low ∨ dComp high ≠ comp ∨
      quotaPages s comp < pagesUsed s comp + pageBytes (dSize low) / 4096 ∨ (dKind low = kLined ∧ ¬ lineAgrees s high ta)) := by
    simp only [h.valid, h.leaf, h.own, Nat.not_lt.mpr h.quota, not_true_eq_false, false_or, ne_eq]
    exact fun ⟨hkind, hbad⟩ => hbad (h.line hkind)
  have htier : (if decide (2 ^ 44 ≤ dPa low) = true then fld (dPa low) 43 40 else fld (dPa low) 39 36) = tierOf low :=
    if_congr decide_eq_true_iff rfl rfl
  obtain ⟨lines, hborn⟩ := bearLine_eq v high
  unfold installPage
  rw [h.charged]
  dsimp only
  rw [← pageBytes, htier, if_neg hallowed, h.taken]
  dsimp only
  rw [← wordAtPa, h.sound, if_neg Bool.false_ne_true, h.put]
  refine ⟨_, rfl, ?_, tget_tput_same _ _ _⟩
  dsimp only
  split
  · rw [hborn]
  · rfl

end

/-! What the service does with a demand. -/

section
variable {s : State} {e : EvArg}

theorem demandService_waits (hz : s.rt.zitrum = false) :
    demandService s e = s.after (s.cycle + 1) false .demandMapService e := if_pos (by simp [hz])

variable (hz : s.rt.zitrum = true) (hd : (e.a, e.b, e.c) ∈ s.ms.demand)
include hz hd

/-- R92. A page that another decision has mapped needs none. -/
theorem demandService_mapped {low high : W64} {level : Nat} (hw : walkTables s e.b (e.c * 4096) = .desc low high level) :
    demandService s e = wakeDemand s e.b (e.c * 4096) 4096 := by
  unfold demandService
  rw [if_neg (by simp [hz]), if_neg (by simp [hd]), hw]

theorem demandService_declined {sub : Nat} {f : Bool} (hw : walkTables s e.b (e.c * 4096) = .fault sub f) (hno : e.d ≠ 1) :
    demandService s e = declineDemand s e.a e.b e.c := by
  unfold demandService
  rw [if_neg (by simp [hz]), if_neg (by simp [hd]), hw, if_neg hno]

theorem demandService_installed {sub ta : Nat} {f : Bool} {low high : W64} {t : State}
    (hw : walkTables s e.b (e.c * 4096) = .fault sub f) (hyes : e.d = 1)
    (hlow : low = BitVec.ofNat 64 (bytesNat (e.body.take 8)))
    (hhigh : high = BitVec.ofNat 64 (bytesNat ((e.body.drop 8).take 8)))
    (hta : ta = e.c * 4096 / pageBytes (dSize low) * pageBytes (dSize low)) (ht : installPage s e.b ta low high = some t) :
    demandService s e = wakeDemand t e.b ta (pageBytes (dSize low)) := by
  subst hta hlow hhigh
  unfold demandService
  rw [if_neg (by simp [hz]), if_neg (by simp [hd]), hw, if_pos hyes]
  dsimp only
  rw [← pageBytes, ht]

end

/-! ### The end of an invalidation (R93) -/

/-- A range of memory lies within one of a list. -/
def Within (p : Nat × Nat) (l : List (Nat × Nat)) : Prop := ∃ r ∈ l, r.1 ≤ p.1 ∧ p.1 + p.2 ≤ r.1 + r.2

theorem within_cons {p r : Nat × Nat} {l : List (Nat × Nat)} :
    Within p (r :: l) ↔ (r.1 ≤ p.1 ∧ p.1 + p.2 ≤ r.1 + r.2) ∨ Within p l := by
  simp [Within]

/-- R93. Memory that is released, and what was before, lies within the released ranges. -/
theorem within_freeInsert {p : Nat × Nat} (l : List (Nat × Nat)) :
    ∀ a n, Within p ((a, n) :: l) → Within p (freeInsert a n l) := by
  induction l with
  | nil => exact fun _ _ h => h
  | cons e l ih =>
    obtain ⟨b, m⟩ := e
    intro a n h
    simp only [within_cons] at h
    unfold freeInsert
    split
    next hjoin =>
      refine ih _ _ (within_cons.mpr ?_)
      obtain h | h | h := h
      · exact .inl ⟨by omega, by omega⟩
      · exact .inl ⟨by omega, by omega⟩
      · exact .inr h
    · split
      next hjoin =>
        refine within_cons.mpr ?_
        obtain h | h | h := h
        · exact .inl ⟨by omega, by omega⟩
        · exact .inl ⟨by omega, by omega⟩
        · exact .inr h
      · split
        · simpa only [within_cons] using h
        · refine within_cons.mpr ?_
          obtain h | h | h := h
          · exact .inr (ih _ _ (within_cons.mpr (.inl h)))
          · exact .inl h
          · exact .inr (ih _ _ (within_cons.mpr (.inr h)))

theorem within_freeInserts {p : Nat × Nat} (pages : List (Nat × Nat)) : ∀ l, p ∈ pages ∨ Within p l →
    Within p (pages.foldl (fun l p => freeInsert p.1 p.2 l) l) := by
  induction pages with
  | nil => exact fun l h => h.resolve_left List.not_mem_nil
  | cons q pages ih =>
    intro l h
    refine ih _ ?_
    obtain h | h := h
    · obtain rfl | h := List.mem_cons.mp h
      · exact .inr (within_freeInsert _ _ _ (within_cons.mpr (.inl ⟨le_rfl, le_rfl⟩)))
      · exact .inl h
    · exact .inr (within_freeInsert _ _ _ (within_cons.mpr (.inr h)))

theorem answerCtx_keeps {s : State} {lid rank : Nat} {v : W64} : (answerCtx s lid rank v).ms = s.ms ∧
    (answerCtx s lid rank v).tt = s.tt ∧ (answerCtx s lid rank v).ho = s.ho := by
  unfold answerCtx
  dsimp only
  split
  all_goals exact ⟨rfl, rfl, rfl⟩

theorem sendMsix_waiting {s : State} {v : Nat} : (sendMsix s v).ho.waiting = s.ho.waiting := by
  unfold sendMsix
  split
  all_goals rfl

/-- An answer to a request changes no memory, no table and no request that waits. -/
theorem respond_keeps {s : State} {q : Request} {status sub res0 : Nat} {body : List Byte} :
    (respond s q status sub res0 body).ms = s.ms ∧ (respond s q status sub res0 body).tt = s.tt ∧
      (respond s q status sub res0 body).ho.waiting = s.ho.waiting := by
  unfold respond
  split
  · exact ⟨sendMsix_ms _ _, sendMsix_tt _ _, sendMsix_waiting⟩
  · exact ⟨rfl, rfl, rfl⟩
  · obtain ⟨hms, htt, hho⟩ := answerCtx_keeps
    exact ⟨hms, htt, congrArg HostPort.waiting hho⟩
  · split
    all_goals exact ⟨rfl, rfl, rfl⟩

/-- R93, R201. Memory that is released is charged no more. -/
theorem releasePages_charge {s : State} {comp : Nat} {pages : List (Nat × Nat)} {k : Comp} (hk : tget s.tt.comps comp = some k) :
    tget (releasePages s comp pages).tt.comps comp =
      some { k with pages := k.pages - (pages.map fun p => p.2 / 4096).sum } := by
  unfold releasePages
  dsimp only
  rw [hk, List.sum_eq_foldl, List.foldl_map]
  exact tget_tput_same _ _ _

theorem endInval_busy {s : State} {comp : Nat} {i : Invalidation} (hi : s.ms.invals.find? (fun i => i.comp == comp) = some i)
    (hbusy : invalDone s i = false) : endInval s comp = s := by
  unfold endInval
  rw [hi]
  exact if_pos (by simp [hbusy])

/-- R93. An invalidation that completes leaves the memory and the tables with its pages released; of the requests that wait, at
most one, an UNMAP, goes. -/
theorem endInval_done {s : State} {comp : Nat} {i : Invalidation} (hi : s.ms.invals.find? (fun i => i.comp == comp) = some i)
    (hdone : invalDone s i = true) :
    (endInval s comp).ms = { s.ms with invals := s.ms.invals.erase i } ∧
      (endInval s comp).tt = (releasePages s comp i.pages).tt ∧
      ∀ q ∈ s.ho.waiting, q.code ≠ 6 → q ∈ (endInval s comp).ho.waiting := by
  unfold endInval
  rw [hi]
  dsimp only
  rw [if_neg (by simp [hdone])]
  split
  · exact ⟨rfl, rfl, fun _ hq _ => hq⟩
  next p hp =>
    obtain ⟨hms, htt, hwaiting⟩ := respond_keeps
    refine ⟨hms, htt, fun q hq hcode => ?_⟩
    rw [hwaiting]
    refine (List.mem_erase_of_ne ?_).mpr hq
    rintro rfl
    exact absurd (List.find?_some hp) (by simp [hcode])

/-- Settles O42: each clause is the lemma above about its event. -/
theorem translationsEnd : Obligations.TranslationsEnd := by
  unfold Obligations.TranslationsEnd
  intro s
  refine ⟨?_, ?_, fun hz => ⟨_, rfl, demandService_waits hz⟩, ?_, ?_⟩
  · intro w c low high level hw hctxs hc hans
    obtain ⟨hmem, hwalks⟩ := walkEnd_walks hw
    obtain ⟨hwalked, htlb, hother⟩ := walkEnd_context hw hctxs hc hans
    exact ⟨_, rfl, hwalks, hwalked, ⟨_, htlb, rfl, rfl, rfl, rfl, rfl⟩, hmem, hother⟩
  · intro w k hw hctxs hk
    obtain ⟨hmem, hwalks⟩ := walkEnd_walks hw
    obtain ⟨hothers, htlb, hcmd⟩ := walkEnd_command hw hctxs hk
    exact ⟨_, rfl, hwalks, hmem, hothers, htlb, hcmd⟩
  · intro hz hd low high bytes ta
    refine ⟨fun l h n hw => ?_, fun sub f hw => ⟨fun hno hwho => ?_, ?_⟩⟩
    · refine ⟨_, congrArg Host.Outcome.next (demandService_mapped hz hd hw), by rw [wakeDemand_ms], fun d hin => ?_⟩
      rintro ⟨hcomp, hpage⟩
      exact wakeDemand_demand d hin ⟨hcomp, by omega, by omega⟩
    · exact ⟨_, congrArg Host.Outcome.next (demandService_declined hz hd hw hno), declineDemand_context hwho hw⟩
    · intro k pa u v n word hyes hvalid hleaf hown hcharged hquota hline htaken hsound hput
      have hcan : CanInstall s s.ev.b ta low high k pa u v :=
        ⟨hvalid, hleaf, hown, hcharged, hquota, hline, htaken, hsound, hput⟩
      obtain ⟨t, ht, hmem, hpages⟩ := installPage_installs hcan
      refine ⟨_, congrArg Host.Outcome.next (demandService_installed hz hd hw hyes rfl rfl rfl ht), ?_, hcan.cleared, ?_,
        wakeDemand_demand⟩
      · rw [wakeDemand_ms, hmem]
      · rw [wakeDemand_tt, hpages]
        rfl
  · intro i hi
    refine ⟨_, rfl, endInval_busy hi, fun hdone => ?_⟩
    obtain ⟨hms, htt, hwaiting⟩ := endInval_done hi hdone
    rw [hms, htt]
    exact ⟨rfl, rfl, fun p hp => within_freeInserts _ _ (.inl hp), fun k hk => releasePages_charge hk, hwaiting⟩

end Sys2Proof.Machine
end

section
/-! SUPPORT. A bundle that a fence holds (R139), for O21. -/

namespace Sys2Proof.Machine

section
variable {o : Op} {m : Mv} {s s1 : State} {b : Wait}

/-- R265. A trigger that must wait holds its bundle; of what it has started while it waits, `s1` is left. -/
theorem issueOne_waits (hm : canMove m false s) (hdec : o.dec s.cx s.iss.slot = none)
    (hshape : o.shape (soleReq o m s) (fun _ => true) s = none) (hearly : o.early (soleReq o m s) s = [])
    (hhold : o.hold (soleReq o m s) s = some (b, s1)) (hb : b ≠ .none) :
    issueOne m (.trig o) s = .next (s1.holdBundle s.iss.ctx b) := by
  obtain ⟨hsound, hguard, hsource⟩ := hm
  have hreq : requests s s.iss.ctx s.iss.limm [solePart m (.trig o) s] = [(o, soleReq o m s)] := rfl
  have hactive : [solePart m (.trig o) s].filter (fun i => i.active s.cx) = [solePart m (.trig o) s] := by
    simp [sole_active m (.trig o) s hguard]
  have hdecode : ([solePart m (.trig o) s].filterMap fun i => i.decode s.cx) = [] := by
    simp [sole_decode m (.trig o) s hsound (fun o' ho => by cases ho; exact hdec)]
  have hread : firstTrap (fun i => i.readTrap s.cx s.cycle) [solePart m (.trig o) s] = none := by
    simp [firstTrap, sole_readTrap m (.trig o) s hsource]
  have hblock := sole_blocks m (.trig o) s ([solePart m (.trig o) s].filterMap Part.pops) hsource nofun
  have hnoTrap : earlyTrap [(o, soleReq o m s)] s = none := by simp [earlyTrap, hearly]
  have hwait : holdAll [(o, soleReq o m s)] s = (b, s1) := by simp [holdAll, hhold]
  refine congrArg Host.Outcome.next (?_ : issueItems s.iss.ctx s.iss.limm [solePart m (.trig o) s] s = _)
  unfold issueItems
  simp only [hactive, hdecode, sole_shape m o s hsource hshape, List.append_nil, leastCode, hread, firstBlock, hblock, hreq,
    hnoTrap, hwait]

end

/-! ### The memory operations by their rows (R320, R327, R329) -/

/-- R320. What a store writes, from `.a` of its unit, and the lanes that `stvm` takes of it, from `.b`. -/
def StoreRow.dataOf (r : StoreRow) (q : Req) (s : State) : Vec := r.data (lsA (lsUnit r.u) q s)
def StoreRow.maskOf (r : StoreRow) (q : Req) (s : State) : Option (BitVec 64) :=
  if r.lanes then some (toW (q.port s (if lsUnit r.u = 4 then 0x281 else 0x2A1))) else none

/-- R320. The operation of a store. -/
def StoreRow.op (r : StoreRow) : Op := opStore (lsUnit r.u) r.size r.vh r.dataOf r.maskOf

theorem exec_store {i : Instr} {r : StoreRow} {s : State} (h : storeRow i = some r) :
    exec i s = issueOne r.m (.trig r.op) s := by
  unfold storeRow at h
  split at h
  all_goals cases h
  all_goals rfl

theorem exec_atom {i : Instr} {r : AtomRow} {s : State} (h : atomRow i = some r) :
    exec i s = issueOne r.m (.trig (opAtom r.op r.ret)) s := by
  unfold atomRow at h
  split at h
  all_goals cases h
  all_goals rfl

/-! ### The fence (R139) -/

section
variable {r : Req} {s : State} (h : fenceHolds s r.c = true)
include h

theorem wordsHold_fence (rt : Route3) (words : List (Nat × Nat)) (sync : Bool) : wordsHold r s rt words sync = some (.fence, s) :=
  if_pos h

theorem opAtom_hold_fence (op : AtomOp) (ret : Bool) : (opAtom op ret).hold r s = some (.fence, s) := by
  simp only [opAtom, accessHold, wordsHold_fence h]

end

/-- R139. An access that a fence holds: its bundle waits, and nothing else changes. -/
theorem issueOne_fence {o : Op} {m : Mv} {s : State} (hm : canMove m false s) (hdec : o.dec s.cx s.iss.slot = none)
    (hshape : o.shape (soleReq o m s) (fun _ => true) s = none) (hearly : o.early (soleReq o m s) s = [])
    (hhold : o.hold (soleReq o m s) s = some (.fence, s)) :
    issueOne m (.trig o) s = .next (s.setCtx s.iss.ctx { s.cx with blocked := .fence }) :=
  issueOne_waits hm hdec hshape hearly hhold nofun

/-- Settles O21: every memory operation asks first whether a fence holds it. -/
theorem fencesHold : Obligations.FencesHold := by
  unfold Obligations.FencesHold
  intro i m s hi hm hout
  have hf : fenceHolds s s.iss.ctx = true := List.any_eq_true.mpr hout
  have htagged (op : Nat) : issueOne m (.trig (opTagged op)) s = .next (s.setCtx s.iss.ctx { s.cx with blocked := .fence }) :=
    issueOne_fence hm rfl rfl rfl (wordsHold_fence (r := soleReq (opTagged op) m s) hf _ _ _)
  rcases hi with ⟨r, hr, rfl⟩ | ⟨r, hr, rfl⟩ | ⟨r, hr, rfl⟩ | rfl | rfl | rfl | rfl
  · rw [exec_load hr]
    exact issueOne_fence hm rfl rfl rfl (wordsHold_fence (r := soleReq (opLoad _ r.post r.vh) r.m s) hf _ _ _)
  · rw [exec_store hr]
    exact issueOne_fence hm rfl rfl rfl (wordsHold_fence (r := soleReq r.op r.m s) hf _ _ _)
  · rw [exec_atom hr]
    exact issueOne_fence hm rfl rfl rfl (opAtom_hold_fence (r := soleReq (opAtom r.op r.ret) r.m s) hf _ _)
  · exact htagged 0
  · exact htagged 1
  · exact htagged 2
  · exact htagged 3

end Sys2Proof.Machine
end

section
/-! SUPPORT. An access that leaves its context (R125, R140, R251, R262), for O16 and O19. -/

namespace Sys2Proof.Machine

/-! ### A destination marked empty (R250, R251) -/

theorem tget_filter_key {α : Type} (p : Nat → Bool) (t : Tab α) (k : Nat) :
    tget (t.filter fun e => p e.1) k = if p k = true then tget t k else none := by
  induction t with
  | nil => exact (ite_self _).symm
  | cons e t ih =>
    obtain ⟨n, v⟩ := e
    by_cases hn : n = k
    · subst hn
      by_cases hp : p n = true <;> simp [hp, tget, ih]
    · by_cases hp : p n = true <;> simp [hp, tget, ih, hn]

theorem tget_unitsList (st : UnitSt) (k : Nat) : ∀ (n lo : Nat) (u : Tab UnitSt),
    tget (unitsList st lo n u) k = if lo ≤ k ∧ k < lo + n then some st else tget u k := by
  intro n
  induction n with
  | zero => intro lo u; rw [unitsList, if_neg (by omega)]
  | succ n ih =>
    intro lo u
    rw [unitsList, ih, tget_tput]
    by_cases hk : k = lo
    · rw [if_neg (by omega), if_pos hk, if_pos (by omega)]
    · rw [if_neg hk]
      exact if_congr (by omega) rfl rfl

/-- R250. The units of the range take the state, and every other unit keeps its own. -/
theorem tget_unitsSet (d : Dest) (st : UnitSt) (u : Tab UnitSt) (k : Nat) :
    tget (unitsSet d st u) k = if d.first / 2 ≤ k ∧ k < (d.first + d.size + 1) / 2 then some st else tget u k := by
  rw [unitsSet, tget_unitsList]
  by_cases hk : d.first / 2 ≤ k ∧ k < (d.first + d.size + 1) / 2
  · rw [if_pos (by omega), if_pos hk]
  · rw [if_neg (by omega), if_neg hk, unitsFull,
      tget_filter_key fun n => decide (n < d.first / 2 ∨ (d.first + d.size + 1) / 2 ≤ n), if_pos (by simp; omega)]

/-- R251. A context with a destination marked empty at a cycle. -/
def emptyAt (d : Option Dest) (cycle : Nat) (x : Ctx) : Ctx :=
  match d with
  | some e => noteWrite { x with units := unitsSet e .empty x.units } e cycle
  | none => x

theorem emptyAt_eq (d : Option Dest) (n : Nat) (x : Ctx) : emptyAt d n x = { x with
    units := (emptyAt d n x).units, wrote := (emptyAt d n x).wrote, wroteAt := (emptyAt d n x).wroteAt } := by
  cases d <;> rfl

theorem emptied_emptyAt (d : Option Dest) (n : Nat) (x : Ctx) : emptied d x (emptyAt d n x) := by
  intro u
  cases d with
  | none => rfl
  | some e => exact tget_unitsSet e .empty x.units u

theorem markEmpty_eq (s : State) (c : Nat) (d : Option Dest) : ∃ xs, markEmpty s c d = { s with ctxs := xs } := by
  cases d
  all_goals exact ⟨_, rfl⟩

theorem ctx_markEmpty_same (s : State) (c : Nat) (d : Option Dest) : (markEmpty s c d).ctx c = emptyAt d s.cycle (s.ctx c) := by
  cases d with
  | none => rfl
  | some e => exact ctx_modCtx_same _ _ _

theorem ctx_markEmpty_other (s : State) (c k : Nat) (d : Option Dest) (h : k ≠ c) : (markEmpty s c d).ctx k = s.ctx k := by
  cases d with
  | none => rfl
  | some e => exact ctx_modCtx_other _ _ _ _ h

/-! ### What a charge changes (R206, R210) -/

/-- Of a state only units used and units lent of the Timetable differ. -/
def SameButUnits (s t : State) : Prop :=
  ∃ budgets lent, t = { s with tt := { s.tt with budgets := budgets, lentOut := lent } }

theorem SameButUnits.refl (s : State) : SameButUnits s s := ⟨_, _, rfl⟩

theorem SameButUnits.trans {s t u : State} (h : SameButUnits s t) (g : SameButUnits t u) : SameButUnits s u := by
  obtain ⟨_, _, rfl⟩ := h
  obtain ⟨_, _, rfl⟩ := g
  exact ⟨_, _, rfl⟩

theorem sameButUnits_foldl {α : Type} {f : State → α → State} (hf : ∀ t a, SameButUnits t (f t a)) (l : List α) (s : State) :
    SameButUnits s (l.foldl f s) := by
  induction l generalizing s with
  | nil => exact .refl s
  | cons a l ih => exact (hf s a).trans (ih _)

theorem sameButUnits_takeUnits (s : State) (die cls res site n : Nat) : SameButUnits s (takeUnits s die cls res site n) := by
  have hlend : ∀ t : State, ∀ k, SameButUnits t (noteLent die cls res site k t) :=
    fun t _ => sameButUnits_foldl (fun _ _ => ⟨_, _, rfl⟩) _ t
  unfold takeUnits
  dsimp only
  split
  · exact hlend _ _
  · exact SameButUnits.trans ⟨_, _, rfl⟩ (hlend _ _)

theorem sameButUnits_chargeBlocks (s : State) (c : Nat) (l : List Nat) : SameButUnits s (chargeBlocks s c l) :=
  sameButUnits_foldl (fun _ _ => sameButUnits_takeUnits _ _ _ _ _ _) _ s

/-! ### What the checks of an address read (R75 to R90) -/

/-- Two states in which a context stands alike: the same teams, cores and translations, and the same bundle. -/
structure Alike (c : Nat) (s u : State) : Prop where
  slot : (u.ctx c).slot = (s.ctx c).slot
  walked : (u.ctx c).walked = (s.ctx c).walked
  bundles : (u.ctx c).bundles = (s.ctx c).bundles
  teams : u.tm = s.tm
  absent : u.cr.absent = s.cr.absent
  tlb : u.ms.tlb = s.ms.tlb

namespace Alike
variable {c : Nat} {s u : State} (h : Alike c s u)
include h

theorem board : u.board c = s.board c := board_congr s u c h.slot (by rw [h.teams])

theorem launchOf : u.launchOf c = s.launchOf c := by rw [State.launchOf, State.launchOf, h.board, h.teams]

theorem lookup : Machine.lookup u c = Machine.lookup s c := by
  funext comp page
  rw [Machine.lookup, Machine.lookup, h.walked, h.tlb]

theorem windowCheck (b : BitVec 512) (cluster core off size : Nat) :
    Machine.windowCheck u b cluster core off size = Machine.windowCheck s b cluster core off size := by
  rw [Machine.windowCheck, Machine.windowCheck, h.absent]

/-- R88. An address leads to the same place. -/
theorem route (va size align : Nat) (use : Use) (vh : Bool) :
    Machine.route u c va size align use vh = Machine.route s c va size align use vh := by
  have hglobal : globalCheck (Machine.lookup s c) u c va use = globalCheck (Machine.lookup s c) s c va use := by
    unfold globalCheck
    rw [h.board, h.launchOf]
  unfold Machine.route routeBy
  simp only [h.lookup, h.board, h.windowCheck, hglobal]

/-- R224. An access is the same one's. -/
theorem whoOf (slot : Nat) : Machine.whoOf u c slot = Machine.whoOf s c slot := by
  rw [Machine.whoOf, Machine.whoOf, h.board, h.bundles, State.rank, State.rank, h.board]

end Alike

/-- R75. A page is reached on a global path alone. -/
theorem pathOf_ne_three_of_page {s : State} {c va size align pa ta : Nat} {u : Use} {vh : Bool} {low high : W64}
    (hu : ¬ (u = .line ∨ u = .packet ∨ u = .handle)) (h : route s c va size align u vh = .page pa low high ta) :
    pathOf va ≠ 3 := by
  intro hp
  rw [route_clusterPath hp hu] at h
  split at h
  · cases h
  split at h
  · cases h
  split at h
  · cases h
  · rw [windowCheck_eq] at h
    split at h <;> cases h

/-! ### A bundle that has been charged and marks a destination empty -/

/-- R206, R251, R265. The bundle of a trigger on its way: charged, the accesses `as` noted and the destination `d` marked empty;
nothing else has changed but what every bundle changes before its operation starts. -/
structure Begun (o : Op) (m : Mv) (s : State) (as : List Acc) (d : Option Dest) (u : State) : Prop where
  rest : ∃ ctxs cores budgets lent, u = { s with
    ctxs := ctxs, cr := { s.cr with cores := cores }, ms := { s.ms with accs := s.ms.accs ++ as }
    tt := { s.tt with budgets := budgets, lentOut := lent }, nextId := s.nextId + as.length }
  own : u.ctx s.iss.ctx = emptyAt d s.cycle (midCtx o m s.cx s s.cycle)
  others : ∀ k, k ≠ s.iss.ctx → u.ctx k = s.ctx k

section
variable {o : Op} {m : Mv} {s u : State} {as : List Acc} {a : Acc} {d : Option Dest}

theorem eq_noMoreAccs (u : State) : u = { u with ms := { u.ms with accs := u.ms.accs ++ [] } } := by
  rw [List.append_nil]

theorem begun_charged (o : Op) (m : Mv) (s : State) (l : List Nat) :
    Begun o m s [] none (midState o m s (chargeBlocks s s.iss.ctx l)) := by
  obtain ⟨_, _, hcharged⟩ := sameButUnits_chargeBlocks s s.iss.ctx l
  rw [hcharged]
  exact ⟨⟨_, _, _, _, eq_noMoreAccs _⟩, midState_ctx _ _ _ _, fun k hk => midState_other _ _ _ _ _ hk⟩

/-- R101. The same where the access has been noted before the charge. -/
theorem begun_noted (o : Op) (m : Mv) (s : State) (a : Acc) (l : List Nat) :
    Begun o m s [{ a with id := s.nextId }] none (midState o m s (chargeBlocks (addAcc s a) s.iss.ctx l)) := by
  obtain ⟨_, _, hcharged⟩ := sameButUnits_chargeBlocks (addAcc s a) s.iss.ctx l
  rw [hcharged]
  exact ⟨⟨_, _, _, _, rfl⟩, midState_ctx _ _ _ _, fun k hk => midState_other _ _ _ _ _ hk⟩

theorem Begun.markEmpty (h : Begun o m s as none u) (d : Option Dest) : Begun o m s as d (markEmpty u s.iss.ctx d) where
  rest := by
    obtain ⟨_, hmark⟩ := markEmpty_eq u s.iss.ctx d
    obtain ⟨_, _, _, _, rfl⟩ := h.rest
    rw [hmark]
    exact ⟨_, _, _, _, rfl⟩
  own := by
    obtain ⟨_, _, _, _, hu⟩ := h.rest
    rw [ctx_markEmpty_same, h.own, hu]
    rfl
  others := fun k hk => (ctx_markEmpty_other _ _ _ _ hk).trans (h.others k hk)

theorem Begun.addAcc (h : Begun o m s [] d u) (a : Acc) : Begun o m s [{ a with id := s.nextId }] d (addAcc u a) where
  rest := by
    obtain ⟨ctxs, cores, budgets, lent, rfl⟩ := h.rest
    exact ⟨_, _, _, _, congrArg (fun l => Machine.addAcc { s with
      ctxs := ctxs, cr := { s.cr with cores := cores }, ms := { s.ms with accs := l }
      tt := { s.tt with budgets := budgets, lentOut := lent } } a) (List.append_nil s.ms.accs)⟩
  own := h.own
  others := h.others

theorem Begun.alike (h : Begun o m s as d u) : Alike s.iss.ctx s u := by
  obtain ⟨⟨_, _, _, _, hu⟩, hown, _⟩ := h
  rw [emptyAt_eq, midCtx_eq] at hown
  exact ⟨by rw [hown], by rw [hown], by rw [hown], by rw [hu], by rw [hu], by rw [hu]⟩

/-- R125. The record of an access, as it is noted. -/
theorem Begun.accOfReq (h : Begun o m s as d u) (kind : AccKind) (place : Place) (pa size : Nat) (data : Vec) (cmp : BitVec 32)
    (dest : Option Dest) :
    { accOfReq (soleReq o m s) u kind place pa size data cmp dest with id := s.nextId } =
      soleAcc m s kind place pa size data cmp dest := by
  have hwho := h.alike.whoOf s.iss.slot
  unfold Machine.accOfReq
  rw [show whoOf u (soleReq o m s).c (soleReq o m s).slot = _ from hwho]
  rfl

/-! ### An access on its way (R125, R140) -/

/-- An access has gone on its way: its bytes are counted, and the event that performs it is set. -/
def underWayFrom (u : State) (a : Acc) (cyc : Nat) (delays : List Nat) : State :=
  (({ u with delays := delays }).modCtx a.ctx fun x => { x with pend := pendAdd x.pend (accBytes a.kind a.size a.place) }).after
    cyc false (accRow (lidDet u a.lid) a.kind a.place) { a := a.id }

theorem underWayFrom_ctx (cyc : Nat) (delays : List Nat) : (underWayFrom u a cyc delays).ctx a.ctx =
    { u.ctx a.ctx with pend := pendAdd (u.ctx a.ctx).pend (accBytes a.kind a.size a.place) } := by
  rw [underWayFrom, ctx_after, ctx_modCtx_same]
  rfl

theorem underWayFrom_other (cyc : Nat) (delays : List Nat) {k : Nat} (h : k ≠ a.ctx) :
    (underWayFrom u a cyc delays).ctx k = u.ctx k := by
  rw [underWayFrom, ctx_after, ctx_modCtx_other _ _ _ _ h]
  rfl

/-- The latest access of a context starts, at a later cycle. -/
theorem startAcc_last {l : List Acc} (h : u.ms.accs = l ++ [a]) (wait : Nat) : ∃ n delays, 0 < n ∧
    startAcc u a.ctx a.num a.slot wait = underWayFrom u a (u.cycle + wait + n) delays := by
  have hfind : (u.ms.accs.reverse.find? fun b => b.ctx == a.ctx && b.num == a.num && b.slot == a.slot) = some a := by
    rw [h, List.reverse_append]
    simp
  have hpos := delay_pos u
  obtain ⟨n, delays, hdelay⟩ := delay_eq u
  rw [hdelay] at hpos
  refine ⟨n, delays, hpos, ?_⟩
  unfold startAcc
  rw [hfind]
  dsimp only
  rw [hdelay]
  rfl

theorem pendOf_pendAdd (p : Pend) (n scope : Nat) : pendOf (pendAdd p n) scope = pendOf p scope + BitVec.ofNat 56 n := by
  unfold pendOf
  split <;> rfl

/-- What the bundle of one trigger does that sends an access on its way: the register that waits for it is empty, its bytes
are counted, and the event that performs it is set. -/
def Leaves (m : Mv) (s t : State) (a : Acc) (d : Option Dest) (bytes : Nat) (row : Instr) (wait : Nat) : Prop :=
  onlySent s t a ∧ popsOnly m s.cx (t.ctx s.iss.ctx) ∧ emptied d s.cx (t.ctx s.iss.ctx) ∧
    pendRaised bytes s.cx (t.ctx s.iss.ctx) ∧ underWay s t row a.id wait

/-- R265. The end of a bundle whose access has been noted. -/
theorem Begun.leaves (h : Begun o m s [a] d u) (hctx : a.ctx = s.iss.ctx) (wait : Nat) :
    Leaves m s (finish s.iss.ctx s.cx.shadow (startAcc u a.ctx a.num a.slot wait)) a d
      (accBytes a.kind a.size a.place) (accRow (lidDet s a.lid) a.kind a.place) wait := by
  obtain ⟨⟨_, _, _, _, hu⟩, hown, hothers⟩ := h
  obtain ⟨n, delays, hpos, hstart⟩ := startAcc_last (u := u) (a := a) (by rw [hu]) wait
  have hlast := underWayFrom_ctx (u := u) (a := a) (u.cycle + wait + n) delays
  rw [hctx, hown] at hlast
  rw [hstart]
  refine ⟨⟨?_, fun k hk => ?_, ?_⟩, ?_, ?_, ?_, ?_⟩
  · rw [hu]
    rfl
  · rw [ctx_finish_other _ _ _ _ hk, underWayFrom_other _ _ (hctx ▸ hk)]
    exact hothers k hk
  · rw [ctx_finish, hlast, emptyAt_eq, midCtx_eq]
    refine ⟨?_, fun hshadow hloops hjump => ?_, ?_⟩
    · rw [onlyFlow, advance_eq]; rfl
    · rw [hshadow, advance_plain]
      · exact ⟨rfl, rfl, hloops⟩
      · exact hloops
      · exact hjump
    · rw [sends, advance_eq]
      exact (List.append_nil _).symm
  · rw [ctx_finish, hlast, emptyAt_eq, midCtx_eq, popsOnly, advance_eq]
    rfl
  · rw [ctx_finish, hlast, advance_eq]
    intro k
    refine (emptied_emptyAt d s.cycle (midCtx o m s.cx s s.cycle) k).trans ?_
    rw [midCtx_eq]
  · rw [ctx_finish, hlast, emptyAt_eq, midCtx_eq, advance_eq]
    exact fun scope => pendOf_pendAdd _ _ _
  · rw [hu]
    exact ⟨_, List.mem_append_right _ (List.mem_singleton_self _), rfl, rfl, Nat.lt_add_of_pos_right hpos, rfl⟩

end

end Sys2Proof.Machine
end

section
/-! SUPPORT. The accesses of the global paths as their operations send them (R125, R320, R329), for O16 and O19. -/

namespace Sys2Proof.Machine

section
variable {o : Op} {m : Mv} {s u : State} {d : Option Dest}

/-! ### What an operation reads once its bundle is charged -/

theorem port_charged (l : List Nat) (p : Nat) :
    (soleReq o m s).port (midState o m s (chargeBlocks s s.iss.ctx l)) p = opnd s.cx p := by
  rw [soleReq_port, chargeBlocks_ctx]

theorem wbDest_charged (unit : Nat) (l : List Nat) :
    wbDest unit (soleReq o m s) (midState o m s (chargeBlocks s s.iss.ctx l)) = wbReg unit s := by
  unfold wbDest wbSel wbReg
  rw [port_charged]
  change (if _ then some (resolve ((midState o m s _).ctx s.iss.ctx) _) else none) = _
  rw [midState_ctx, midCtx_resolve, chargeBlocks_ctx]

/-- R265, R125. A trigger that sends one access on its way from the state `u`, in which its destination is empty. -/
theorem trigger_access {kind : AccKind} {place : Place} {pa size wait : Nat} {data : Vec} {cmp : BitVec 32}
    (hm : canMove m false s) (hs : Starts o m s s) (hu : Begun o m s [] d u)
    (he : o.effect (soleReq o m s) (midState o m s (chargeBlocks s s.iss.ctx (o.blocks (soleReq o m s) s))) =
      sendAcc u (accOfReq (soleReq o m s) u kind place pa size data cmp d) wait) :
    ∃ t, issueOne m (.trig o) s = .next t ∧ Leaves m s t (soleAcc m s kind place pa size data cmp d) d
      (accBytes kind size place) (accRow (lidDet s (bLid (s.board s.iss.ctx))) kind place) wait := by
  have hleaves := (hu.addAcc (accOfReq (soleReq o m s) u kind place pa size data cmp d)).leaves rfl wait
  rw [hu.accOfReq] at hleaves
  have hsend : sendAcc u (accOfReq (soleReq o m s) u kind place pa size data cmp d) wait =
      startAcc (addAcc u (accOfReq (soleReq o m s) u kind place pa size data cmp d))
        (soleAcc m s kind place pa size data cmp d).ctx (soleAcc m s kind place pa size data cmp d).num
        (soleAcc m s kind place pa size data cmp d).slot wait := by
    rw [← hu.accOfReq]
    rfl
  refine ⟨_, issueOne_trigger m o s s hm hs, ?_⟩
  rw [issueNow_charged, he, hsend]
  exact hleaves

/-- R101, R125. A trigger whose access has been noted at its last check, and goes on its way as the bundle issues. -/
theorem trigger_noted {kind : AccKind} {place : Place} {pa size wait : Nat} {data : Vec} {cmp : BitVec 32} {a : Acc}
    (ha : a = accOfReq (soleReq o m s) s kind place pa size data cmp none) (hm : canMove m false s)
    (hs : Starts o m s (addAcc s a))
    (he : ∀ u, Alike s.iss.ctx s u → o.effect (soleReq o m s) u = startAcc u s.iss.ctx (u.ctx s.iss.ctx).bundles s.iss.slot wait) :
    ∃ t, issueOne m (.trig o) s = .next t ∧ Leaves m s t (soleAcc m s kind place pa size data cmp none) none
      (accBytes kind size place) (accRow (lidDet s (bLid (s.board s.iss.ctx))) kind place) wait := by
  subst ha
  have hbegun := begun_noted o m s (accOfReq (soleReq o m s) s kind place pa size data cmp none) (o.blocks (soleReq o m s)
    (addAcc s (accOfReq (soleReq o m s) s kind place pa size data cmp none)))
  have hleaves := hbegun.leaves rfl wait
  refine ⟨_, issueOne_trigger m o s _ hm hs, ?_⟩
  rw [issueNow_charged, he _ hbegun.alike, hbegun.alike.bundles]
  exact hleaves

/-- R323. A trigger alone in its bundle names one target core at most. -/
theorem splitTargets_sole : splitTargets (soleReq o m s) s = false := by
  unfold splitTargets
  rw [show (soleReq o m s).peers = [o.peer _ s] from rfl, List.filterMap_cons, List.filterMap_nil]
  split <;> simp [List.eraseDups_cons]

theorem clusterCommit_go {r : Req} {sync : Bool} (h : ¬ (sync = true ∧ pathOf r.va = 3)) : clusterCommit r s sync = .go s :=
  if_neg h

end

/-! ### Loads (R125, R251) -/

section
variable {unit pa ta : Nat} {p : Post} {vh : Bool} {r : Req} {s : State} {low high : W64}
  (h : route s r.c r.va p.size p.size .load vh = .page pa low high ta)
include h

theorem opLoad_last_page (hk : dKind low ≠ kLined) : (opLoad unit p vh).last r s = .go s := by
  simp only [opLoad, h, hk, if_false]

theorem opLoad_effect_page (hk : dKind low ≠ kLined) : (opLoad unit p vh).effect r s =
    let t := markEmpty s r.c (wbDest unit r s)
    sendAcc t (accOfReq r t (.load p) (.phys pa) pa p.size 0 0 (wbDest unit r s)) 0 := by
  simp only [opLoad, h, hk, if_false]

theorem opLoad_effect_lined (hk : dKind low = kLined) : ∃ v, (opLoad unit p vh).effect r s =
    let t := markEmpty s r.c (wbDest unit r s)
    sendAcc t (accOfReq r t (.chain p) (.line (lineKey high) (regionOff high ta)) pa p.size v 0 (wbDest unit r s)) 0 := by
  simp only [opLoad, h, hk, if_true]
  exact ⟨_, rfl⟩

end

/-- R122. The state of a LIVE line lets a read pass. -/
theorem lineReadCheck_live {r : Req} {s : State} {key : Nat} {l : Line} (hl : s.line key = some l) (hlive : l.st = .live)
    (hw : (s.ctx r.c).onLine = false) (hu : key ∉ (s.ctx r.c).unmade) : lineReadCheck r s key = .go s := by
  unfold lineReadCheck
  simp only [hl, hlive, hw, List.contains_iff_mem, hu, if_false, Bool.false_eq_true, false_and]

/-- R265. A trigger that its home Badger lets pass starts. -/
theorem ComesToBadger.starts {o : Op} {m : Mv} {s s0 s1 : State} (h : ComesToBadger o m s s0)
    (hl : o.last (soleReq o m s) s0 = .go s1) : Starts o m s s1 where
  dec := h.dec
  shape := h.shape
  early := h.early
  hold := h.hold
  adds := h.adds
  budget := h.budget
  checks := h.checks
  sent := ⟨s0, h.sent, hl⟩

section
variable {i : Instr} {r : LoadRow} {s : State} {pa ta : Nat} {low high : W64}
  (hi : loadRow i = some r) (hm : canMove r.m false s) (hw : wbOk (4 + r.u.toNat) s) (hq : MemQuiet s)
  (hr : route s s.iss.ctx (soleVa r.m s) r.post.size r.post.size .load r.vh = .page pa low high ta)
  (hb : blocksServed s s.iss.ctx (accessBlocks s (.page pa low high ta) r.post.size r.vh) = true)
include hi hm hw hq hr hb

theorem load_page_leaves (hk : dKind low ≠ kLined) :
    ∃ t, exec i s = .next t ∧
      Leaves r.m s t (soleAcc r.m s (.load r.post) (.phys pa) pa r.post.size 0 0 (wbReg (4 + r.u.toNat) s))
        (wbReg (4 + r.u.toNat) s) 0 .variableArrival 0 := by
  let o := opLoad (4 + r.u.toNat) r.post r.vh
  have hstarts : Starts o r.m s s := (load_comesToBadger hm hw hq hr hb).starts (opLoad_last_page (r := soleReq o r.m s) hr hk)
  have hbegun := begun_charged o r.m s (o.blocks (soleReq o r.m s) s)
  have heffect := opLoad_effect_page (unit := 4 + r.u.toNat) (r := soleReq o r.m s)
    ((hbegun.alike.route _ _ _ _ _).trans hr) hk
  rw [wbDest_charged] at heffect
  rw [exec_load hi]
  exact trigger_access hm hstarts (hbegun.markEmpty _) heffect

theorem load_lined_leaves (hk : dKind low = kLined) {l : Line} (hl : s.line (lineKey high) = some l) (hlive : l.st = .live)
    (hon : s.cx.onLine = false) (hu : lineKey high ∉ s.cx.unmade) :
    ∃ t v, exec i s = .next t ∧
      Leaves r.m s t (soleAcc r.m s (.chain r.post) (.line (lineKey high) (ta % 2 ^ (dXlog high + 1))) pa r.post.size v 0
        (wbReg (4 + r.u.toNat) s)) (wbReg (4 + r.u.toNat) s) 0 .chainRead 0 := by
  let o := opLoad (4 + r.u.toNat) r.post r.vh
  have hlast : o.last (soleReq o r.m s) s = .go s :=
    (opLoad_last_lined (r := soleReq o r.m s) hr hk).trans (lineReadCheck_live hl hlive hon hu)
  have hstarts : Starts o r.m s s := (load_comesToBadger hm hw hq hr hb).starts hlast
  have hbegun := begun_charged o r.m s (o.blocks (soleReq o r.m s) s)
  obtain ⟨v, heffect⟩ := opLoad_effect_lined (unit := 4 + r.u.toNat) (r := soleReq o r.m s)
    ((hbegun.alike.route _ _ _ _ _).trans hr) hk
  rw [wbDest_charged] at heffect
  rw [exec_load hi]
  obtain ⟨t, hexec, hleaves⟩ := trigger_access hm hstarts (hbegun.markEmpty _) heffect
  exact ⟨t, v, hexec, hleaves⟩

end

/-! ### Stores (R125, R130, R103) -/

/-- The mask of a store's lanes, if it takes one. -/
def StoreRow.lanesOf (r : StoreRow) (s : State) : Option (BitVec 64) := if r.lanes then some (r.mask s) else none

/-- The kind of a store's record: of the lanes that a mask takes, or as given. -/
def laneKind (kind : AccKind) (mask : Option (BitVec 64)) : AccKind :=
  match mask with
  | some m => .lanes m
  | none => kind

/-- The bytes that a store writes. -/
def storeBytes (size : Nat) (mask : Option (BitVec 64)) : Nat :=
  match mask with
  | some m => 4 * popBelow m.toNat 64
  | none => size

section
variable {unit size pa ta : Nat} {vh : Bool} {data : Req → State → Vec} {mask : Req → State → Option (BitVec 64)} {r : Req}
  {s : State} {low high : W64} (h : route s r.c r.va size size .store vh = .page pa low high ta)
include h

theorem opStore_hold_page (hf : fenceHolds s r.c = false) : (opStore unit size vh data mask).hold r s = none := by
  simp only [opStore, h, wordsHold, hf, if_false, Bool.false_eq_true]

theorem opStore_checks_page : (opStore unit size vh data mask).checks r s = [] := by
  simp only [opStore, h, routeTrap, List.append_nil]

theorem opStore_blocks_page :
    (opStore unit size vh data mask).blocks r s = storeBlocks s (.page pa low high ta) size vh (mask r s) := by
  simp only [opStore, h]

theorem opStore_adds_page : (opStore unit size vh data mask).adds r s = storeBytes size (mask r s) := by
  simp only [opStore, h, pageAdds]
  rfl

theorem opStore_last_page (hk : dKind low ≠ kLined) : (opStore unit size vh data mask).last r s = .go s := by
  simp only [opStore, h, hk, if_false]

theorem opStore_last_lined (hk : dKind low = kLined) : (opStore unit size vh data mask).last r s =
    patchWriteCheck r s (lineKey high) (accOfReq r s (laneKind .patch (mask r s)) (.line (lineKey high) (regionOff high ta)) pa
      size (data r s) 0 none) := by
  simp only [opStore, h, hk, if_true]
  rfl

theorem opStore_effect_page (hk : dKind low ≠ kLined) : (opStore unit size vh data mask).effect r s =
    sendAcc s (accOfReq r s (laneKind .store (mask r s)) (.phys pa) pa size (data r s) 0 none) 0 := by
  simp only [opStore, h, hk, if_false]
  rfl

theorem opStore_effect_lined (hk : dKind low = kLined) :
    (opStore unit size vh data mask).effect r s = startAcc s r.c (s.ctx r.c).bundles r.slot 0 := by
  simp only [opStore, h, hk, if_true]

end

/-- R103, R120. A write into an open patch that the pool has room for is noted. -/
theorem patchWriteCheck_open {r : Req} {s : State} {key : Nat} {a : Acc} {l : Line} (hl : s.line key = some l)
    (hlive : l.st = .live) (ho : l.opens.any (fun p => p.ctx == r.c) = true)
    (hp : poolUsed (addAcc s a) (key / 2 ^ 24) ≤ poolMax s (key / 2 ^ 24)) : patchWriteCheck r s key a = .go (addAcc s a) := by
  have hroom : poolShort s (addAcc s a) (key / 2 ^ 24) = false := by
    rw [poolShort, decide_eq_false (Nat.not_lt.mpr hp), Bool.and_false]
  unfold patchWriteCheck
  simp only [hl, hlive, ho, hroom, reduceCtorEq, not_true_eq_false, if_false, Bool.false_eq_true]

section
variable {r : StoreRow} {q : Req} {s v : State} (hport : ∀ p, q.port v p = opnd s.cx p)
include hport

theorem dataOf_eq : r.dataOf q v = r.a s := by
  unfold StoreRow.dataOf lsA StoreRow.a
  rw [hport]
  obtain h | h : r.u = 0 ∨ r.u = 1 := by
    generalize r.u = u
    revert u
    decide
  all_goals rw [h]
  all_goals rfl

theorem maskOf_eq : r.maskOf q v = r.lanesOf s := by
  unfold StoreRow.maskOf StoreRow.lanesOf StoreRow.mask
  rw [hport]
  obtain h | h : r.u = 0 ∨ r.u = 1 := by
    generalize r.u = u
    revert u
    decide
  all_goals rw [h]
  all_goals rfl

end

/-! What becomes of a store's kind: the row of its event, and the bytes that it counts (R140). -/

theorem laneKind_store (r : StoreRow) (s : State) : laneKind .store (r.lanesOf s) = r.kind s := by
  unfold StoreRow.lanesOf StoreRow.kind
  cases r.lanes <;> rfl

theorem laneKind_patch (r : StoreRow) (s : State) :
    laneKind .patch (r.lanesOf s) = if r.lanes then .lanes (r.mask s) else .patch := by
  unfold StoreRow.lanesOf
  cases r.lanes <;> rfl

theorem storeBytes_row (r : StoreRow) (s : State) :
    storeBytes r.size (r.lanesOf s) = if r.lanes then 4 * popBelow (r.mask s).toNat 64 else r.size := by
  unfold StoreRow.lanesOf
  cases r.lanes <;> rfl

section
variable (det : Bool) (mask : Option (BitVec 64)) (size pa key off : Nat)

theorem accRow_store : accRow det (laneKind .store mask) (.phys pa) = .globalWritePerformed := by cases mask <;> rfl

theorem accRow_patch : accRow det (laneKind .patch mask) (.line key off) = .patchWriteArrival := by cases mask <;> rfl

theorem accBytes_store : accBytes (laneKind .store mask) size (.phys pa) = storeBytes size mask := by cases mask <;> rfl

theorem accBytes_patch : accBytes (laneKind .patch mask) size (.line key off) = storeBytes size mask := by cases mask <;> rfl

end

/-- R265, R320. A store to a page that the checks pass comes to the home Badger of its line. -/
theorem store_comesToBadger {r : StoreRow} {s : State} {pa ta : Nat} {low high : W64} (hm : canMove r.m false s) (hq : MemQuiet s)
    (hr : route s s.iss.ctx (soleVa r.m s) r.size r.size .store r.vh = .page pa low high ta)
    (hb : blocksServed s s.iss.ctx (storeBlocks s (.page pa low high ta) r.size r.vh (r.lanesOf s)) = true)
    (hfit : pendFits s.cx.pend (storeBytes r.size (r.lanesOf s)) = true) : ComesToBadger r.op r.m s s := by
  have hmask : r.maskOf (soleReq r.op r.m s) s = r.lanesOf s := maskOf_eq (soleReq_port_at r.op r.m s)
  have hadds : r.op.adds (soleReq r.op r.m s) s = storeBytes r.size (r.lanesOf s) :=
    hmask ▸ opStore_adds_page (r := soleReq r.op r.m s) hr
  have hblocks : r.op.blocks (soleReq r.op r.m s) s = storeBlocks s (.page pa low high ta) r.size r.vh (r.lanesOf s) :=
    hmask ▸ opStore_blocks_page (r := soleReq r.op r.m s) hr
  have hcommit : r.op.commit (soleReq r.op r.m s) s = .go s := clusterCommit_go (by simp [splitTargets_sole])
  exact ⟨hm, rfl, rfl, rfl, opStore_hold_page (r := soleReq r.op r.m s) hr (fenceHolds_quiet hq), hadds ▸ hfit, hblocks ▸ hb,
    opStore_checks_page (r := soleReq r.op r.m s) hr, hcommit⟩

section
variable {i : Instr} {r : StoreRow} {s : State} {pa ta : Nat} {low high : W64}
  (hi : storeRow i = some r) (hm : canMove r.m false s) (hq : MemQuiet s)
  (hr : route s s.iss.ctx (soleVa r.m s) r.size r.size .store r.vh = .page pa low high ta)
  (hb : blocksServed s s.iss.ctx (storeBlocks s (.page pa low high ta) r.size r.vh (r.lanesOf s)) = true)
  (hfit : pendFits s.cx.pend (storeBytes r.size (r.lanesOf s)) = true)
include hi hm hq hr hb hfit

theorem store_page_leaves (hk : dKind low ≠ kLined) :
    ∃ t, exec i s = .next t ∧
      Leaves r.m s t (soleAcc r.m s (laneKind .store (r.lanesOf s)) (.phys pa) pa r.size (r.a s) 0 none) none
        (storeBytes r.size (r.lanesOf s)) .globalWritePerformed 0 := by
  have hstarts : Starts r.op r.m s s :=
    (store_comesToBadger hm hq hr hb hfit).starts (opStore_last_page (r := soleReq r.op r.m s) hr hk)
  let l := r.op.blocks (soleReq r.op r.m s) s
  have hbegun := begun_charged r.op r.m s l
  have heffect := opStore_effect_page (unit := lsUnit r.u) (data := r.dataOf) (mask := r.maskOf) (r := soleReq r.op r.m s)
    ((hbegun.alike.route _ _ _ _ _).trans hr) hk
  rw [maskOf_eq (port_charged l), dataOf_eq (port_charged l)] at heffect
  have hsent := trigger_access hm hstarts hbegun heffect
  rwa [accRow_store, accBytes_store, ← exec_store hi] at hsent

/-- R103. A write into an open patch is noted at the line-state check, and goes on its way as the bundle issues. -/
theorem store_lined_leaves (hk : dKind low = kLined) {l : Line} (hl : s.line (lineKey high) = some l) (hlive : l.st = .live)
    (ho : l.opens.any (fun p => p.ctx == s.iss.ctx) = true)
    (hp : poolUsed (addAcc s (soleAcc r.m s (laneKind .patch (r.lanesOf s)) (.line (lineKey high) (regionOff high ta)) pa r.size
      (r.a s) 0 none)) (lineKey high / 2 ^ 24) ≤ poolMax s (lineKey high / 2 ^ 24)) :
    ∃ t, exec i s = .next t ∧
      Leaves r.m s t (soleAcc r.m s (laneKind .patch (r.lanesOf s)) (.line (lineKey high) (regionOff high ta)) pa r.size (r.a s) 0
        none) none (storeBytes r.size (r.lanesOf s)) .patchWriteArrival 0 := by
  let a := accOfReq (soleReq r.op r.m s) s (laneKind .patch (r.lanesOf s)) (.line (lineKey high) (regionOff high ta)) pa r.size
    (r.a s) 0 none
  have hlast : r.op.last (soleReq r.op r.m s) s = .go (addAcc s a) := by
    have hcheck := opStore_last_lined (unit := lsUnit r.u) (data := r.dataOf) (mask := r.maskOf) (r := soleReq r.op r.m s) hr hk
    rw [maskOf_eq (soleReq_port_at r.op r.m s), dataOf_eq (soleReq_port_at r.op r.m s)] at hcheck
    exact hcheck.trans (patchWriteCheck_open hl hlive ho hp)
  have hstarts := (store_comesToBadger hm hq hr hb hfit).starts hlast
  have hsent := trigger_noted rfl hm hstarts (wait := 0) fun u hu => opStore_effect_lined ((hu.route _ _ _ _ _).trans hr) hk
  rwa [accRow_patch, accBytes_patch, ← exec_store hi] at hsent

end

/-- Settles O16: loads and stores, each to a page that is not LINED and to one that is. -/
theorem globalAccessesLeave : Obligations.GlobalAccessesLeave := by
  unfold Obligations.GlobalAccessesLeave
  constructor
  · intro i r s pa ta low high hi hm hw hq hr hb
    exact ⟨load_page_leaves hi hm hw hq hr hb, fun hk ⟨_, hl, hlive⟩ hon hu =>
      load_lined_leaves hi hm hw hq hr hb hk hl hlive hon hu⟩
  · intro i r s pa ta low high hi hm hq hr hb bytes hfit
    have hbytes : storeBytes r.size (r.lanesOf s) = bytes := storeBytes_row r s
    have hkind := laneKind_patch r s
    rw [← hbytes] at hfit ⊢
    constructor
    · intro hk
      have hleaves := store_page_leaves hi hm hq hr hb hfit hk
      rw [laneKind_store] at hleaves
      exact hleaves
    · rintro hk ⟨l, hl, hlive, ho⟩ a hp
      have hleaves := store_lined_leaves hi hm hq hr hb hfit hk hl hlive ho (hkind ▸ hp)
      rw [hkind] at hleaves
      exact hleaves

/-! ### Atomics (R135, R136, R329) -/

section
variable {op : AtomOp} {ret : Bool} {pa ta : Nat} {r : Req} {s : State} {low high : W64}

section
variable (h : route s r.c r.va 4 4 .atom false = .page pa low high ta)
include h

theorem opAtom_hold_page (hf : fenceHolds s r.c = false) : (opAtom op ret).hold r s = none := by
  simp only [opAtom, h, accessHold, wordsHold, hf, if_false, Bool.false_eq_true]

theorem opAtom_checks_page : (opAtom op ret).checks r s = if ret then wbCheck 10 r s else [] := by
  simp only [opAtom, h, routeTrap, List.append_nil]

theorem opAtom_adds_page : (opAtom op ret).adds r s = 4 := by
  simp only [opAtom, h, pageAdds]

theorem opAtom_blocks_page : (opAtom op ret).blocks r s = accessBlocks s (.page pa low high ta) 4 false := by
  simp only [opAtom, h]

end

/-- R135. The access of an atomic, once its destination has been marked empty. -/
theorem opAtom_effect_page {d : Option Dest} (hd : (if ret then wbDest 10 r s else none) = d)
    (h : route (markEmpty s r.c d) r.c r.va 4 4 .atom false = .page pa low high ta) : (opAtom op ret).effect r s =
      sendAcc (markEmpty s r.c d) (accOfReq r (markEmpty s r.c d) (.atom op ret) (.phys pa) pa 4
        (((syA r s).setWidth 32).setWidth 2048) ((syB r s).setWidth 32) d) 0 := by
  subst hd
  simp only [opAtom, h]

end

/-- R135, R136. Where an atomic on an ATOMIC page goes. -/
theorem accRow_atom {i : Instr} {r : AtomRow} (h : atomRow i = some r) (det : Bool) (pa : Nat) :
    accRow det (.atom r.op r.ret) (.phys pa) =
      if det ∧ r.ret = false then .reductionHold
      else if det ∧ r.op = .swap then .globalWritePerformed else .atomicQueuePerform := by
  unfold atomRow at h
  split at h
  all_goals cases h
  all_goals cases det <;> rfl

/-- R329. The low 32 bits of an operand of `sy`. -/
theorem toW_setWidth (v : Vec) : (toW v).setWidth 32 = v.setWidth 32 := BitVec.setWidth_setWidth_of_le v (by decide)

/-- Settles O19: an atomic marks its register empty and sends its record; its row says to which event. -/
theorem globalAtomicsLeave : Obligations.GlobalAtomicsLeave := by
  unfold Obligations.GlobalAtomicsLeave
  intro i r s pa ta low high hi hm hw hq hr hfit hb dest det
  let o := opAtom r.op r.ret
  have hpath : pathOf (soleReq o r.m s).va ≠ 3 := pathOf_ne_three_of_page (by decide) hr
  have hchecks : o.checks (soleReq o r.m s) s = [] := by
    rw [opAtom_checks_page (r := soleReq o r.m s) hr]
    split
    next hret => exact wbCheck_nil 10 o r.m s (hw hret)
    · rfl
  have hstarts : Starts o r.m s s :=
    ⟨rfl, rfl, rfl, opAtom_hold_page (r := soleReq o r.m s) hr (fenceHolds_quiet hq),
      opAtom_adds_page (op := r.op) (ret := r.ret) (r := soleReq o r.m s) hr ▸ hfit,
      opAtom_blocks_page (op := r.op) (ret := r.ret) (r := soleReq o r.m s) hr ▸ hb, hchecks, s,
      clusterCommit_go (fun h => hpath h.2), rfl⟩
  let l := o.blocks (soleReq o r.m s) s
  have hbegun := (begun_charged o r.m s l).markEmpty dest
  have heffect := opAtom_effect_page (op := r.op) (r := soleReq o r.m s) (d := dest) (by rw [wbDest_charged])
    ((hbegun.alike.route _ _ _ _ _).trans hr)
  rw [syA, syB, port_charged, port_charged, toW_setWidth, toW_setWidth] at heffect
  have hsent := trigger_access hm hstarts hbegun heffect
  rw [accRow_atom hi, ← exec_atom hi] at hsent
  exact hsent

end Sys2Proof.Machine
end

section
/-! SUPPORT. A tagged store beside a matrix call of another context (R327, R366, R368), for O17. -/

namespace Sys2Proof.Machine

/-- A call of the context 4, on the array of core 1. -/
def otherCall : Call :=
  { ctx := 4, slot := 0, rout := 9, mp0 := 0x2000000000000000, mp1 := 0, mp2 := 9, mp3 := 0x101, mp4 := 64, mp5 := 0, mp6 := 0
    mp7 := 0, step := 0, steps := 1, cyc := 64, begun := false, stop := false, wb := none, num := 0, stride := 0, flags := [] }

/-- Context 0 with the address of word 3 of its own scratchpad at the head of queue 0, while that call is on core 1. -/
def tagState : State :=
  let s := State.reset.withFetchWord 24 0x1807FE
  { s with
    ctxs := [(0, { s.ctx 0 with queues := [(0, [0x200000000000000C])] })]
    cr := { s.cr with calls := [(1, otherCall)] } }

/-- A trigger whose value is the head of queue 0. -/
def headMove : Mv := ⟨0, 0x380, false⟩

theorem canMove_headMove : canMove headMove false tagState :=
  ⟨⟨rfl, .inl rfl⟩, .inl rfl, fun h => absurd h (by decide), fun _ _ => by decide +kernel⟩

/-- The call is another context's, and nothing else is on its way. -/
theorem memQuiet_tagState : MemQuiet tagState where
  accs := by decide +kernel
  tags := by decide +kernel
  calls := by decide +kernel
  items := by decide +kernel
  holds := by decide +kernel
  maliasFree := fun h => absurd h (by decide +kernel)
  bad := by decide +kernel

/-- R366. The words of which an outcome keeps the former value for the loaders of calls. -/
def formerWords (o : Host.Outcome State Fault Refusal) : List Nat :=
  match o with
  | .next t => t.ms.former.map (·.word)
  | .fault _ => []
  | .refused _ => []

/-- R366, R368. The store of `stx` notes what word 3 held: the loaders of the call may have read it so. -/
theorem stx_notesFormer : formerWords (exec (.syStx headMove) tagState) = [3] := by decide +kernel

/-- Refutes O17, by its clause on `stx` on the own path: the clause lets the bundle change nothing of the memories but tags and
scratchpad bytes, but while a matrix call is on any array the write is noted for the call's loaders too, as `tagState` shows.
`MemQuiet` excludes calls of the context itself, and none of another context. -/
theorem not_taggedWords : ¬ Obligations.TaggedWords := by
  unfold Obligations.TaggedWords
  intro h
  have hclauses := h headMove tagState 12 0 canMove_headMove memQuiet_tagState (by decide +kernel) (by decide +kernel)
    (fun hpath => absurd hpath (by decide +kernel)) (by decide +kernel) (by decide +kernel) (by decide +kernel)
  obtain ⟨-, -, -, -, hstx, -⟩ := hclauses
  obtain ⟨t, hexec, -, -, -, hms, -⟩ := hstx (by decide +kernel)
  have hformer : t.ms.former = tagState.ms.former := congrArg (·.former) hms
  have hwords := stx_notesFormer
  rw [hexec, formerWords, hformer] at hwords
  exact absurd hwords (by decide +kernel)

end Sys2Proof.Machine
end

section
/-! SUPPORT. The end of a bundle whose operation has left its context with a flow of its own, and team barriers and crews
(R178, R179, R223, R333), for O22. -/

namespace Sys2Proof.Machine

/-! ### Tables written twice, and numbers that a set does not hold -/

theorem tput_tput {α : Type} (n : Nat) (v w : α) (t : Tab α) : tput n v (tput n w t) = tput n v t := by
  induction t with
  | nil => simp [tput]
  | cons e t ih =>
    obtain ⟨k, x⟩ := e
    by_cases hk : k = n
    · simp [tput, hk]
    · by_cases hlt : n < k
      · simp [tput, hk, hlt]
      · simp [tput, hk, hlt, ih]

theorem setCtx_setCtx (s : State) (c : Nat) (x y : Ctx) : (s.setCtx c y).setCtx c x = s.setCtx c x :=
  congrArg (fun t => { s with ctxs := t }) (tput_tput c x y s.ctxs)

theorem modCtx_modCtx (s : State) (c : Nat) (f g : Ctx → Ctx) :
    (s.modCtx c f).modCtx c g = s.modCtx c fun x => g (f x) := by
  rw [State.modCtx, ctx_modCtx_same]
  exact setCtx_setCtx _ _ _ _

theorem sdel_of_notMem {n : Nat} {l : List Nat} (h : n ∉ l) : sdel n l = l := by
  induction l with
  | nil => rfl
  | cons k t ih =>
    obtain ⟨hk, ht⟩ := not_or.mp (mt List.mem_cons.mpr h)
    rw [sdel, if_neg (Ne.symm hk), ih ht]

/-! ### The end of a bundle (R257, R260, R265) -/

section
variable {o : Op} {m : Mv} {s u : State}

/-- R265. The context of a bundle of one trigger once its operation has changed it to `z`, but for the flow of the program, and
sent the results `fs`. -/
def flowsTo (o : Op) (m : Mv) (s : State) (z : Ctx) (fs : List Flight) (y : Ctx) : Prop :=
  ∃ d, y = withFlow z { midCtx o m s.cx s s.cycle with dirty := d, flights := (midCtx o m s.cx s s.cycle).flights ++ fs }

/-- R265, R267, R270. What the end of such a bundle leaves of its context. -/
theorem finish_flow {z : Ctx} {fs : List Flight} (h : flowsTo o m s z fs (u.ctx s.iss.ctx)) (hb : z.bundles = s.cx.bundles) :
    let y := (finish s.iss.ctx s.cx.shadow u).ctx s.iss.ctx
    onlyFlow z y ∧ popsOnly m s.cx y ∧ goesOn s.cx y ∧ sends s.cx y s.cycle fs := by
  obtain ⟨d, hu⟩ := h
  rw [midCtx_eq] at hu
  intro y
  have hy : y = bumpCtx 2 1 (advance s.cx.shadow _) := (ctx_finish _ _ _).trans (by rw [hu])
  rw [hy]
  refine ⟨?_, ?_, fun hshadow hloops hjump => ?_, ?_⟩
  · rw [onlyFlow, advance_eq, hb]
    rfl
  · rw [popsOnly, advance_eq]
    rfl
  · rw [hshadow, advance_plain]
    · exact ⟨rfl, rfl, hloops⟩
    · exact hloops
    · exact hjump
  · rw [sends, advance_eq]
    rfl

/-- R265. The bundle of a trigger that charges nothing ends as its operation has left the state. -/
theorem issueOne_finish (hm : canMove m false s) (hs : Starts o m s s) (hb : o.blocks (soleReq o m s) s = []) :
    issueOne m (.trig o) s = .next (finish s.iss.ctx s.cx.shadow (o.effect (soleReq o m s) (midState o m s s))) :=
  (issueOne_trigger m o s s hm hs).trans (congrArg Host.Outcome.next (issueNow_trigger m o s s hb))

/-- R265. The bundle of a trigger that changes its own context alone, by `g`, and sends results. -/
theorem trigger_flows {g : Ctx → Ctx} {z : Ctx} {fs : List Flight} (hm : canMove m false s) (hs : Starts o m s s)
    (hb : o.blocks (soleReq o m s) s = [])
    (he : o.effect (soleReq o m s) (midState o m s s) = (midState o m s s).modCtx s.iss.ctx g)
    (hg : flowsTo o m s z fs (g (midCtx o m s.cx s s.cycle))) (hz : z.bundles = s.cx.bundles) :
    ∃ t, issueOne m (.trig o) s = .next t ∧ onlyCtx s.iss.ctx s t ∧ onlyFlow z (t.ctx s.iss.ctx) ∧
      popsOnly m s.cx (t.ctx s.iss.ctx) ∧ goesOn s.cx (t.ctx s.iss.ctx) ∧ sends s.cx (t.ctx s.iss.ctx) s.cycle fs := by
  refine ⟨_, issueOne_finish hm hs hb, finish_onlyCtx m o s g he, ?_⟩
  refine finish_flow (o := o) ?_ hz
  rw [he, ctx_modCtx_same, midState_ctx]
  exact hg

/-- R265. A trigger whose request is refused traps. -/
theorem issueOne_commitTrap {t : Trap} (hm : canMove m false s) (hdec : o.dec s.cx s.iss.slot = none)
    (hshape : o.shape (soleReq o m s) (fun _ => true) s = none) (hearly : o.early (soleReq o m s) s = [])
    (hhold : o.hold (soleReq o m s) s = none) (hadds : pendFits s.cx.pend (o.adds (soleReq o m s) s) = true)
    (hbudget : blocksServed s s.iss.ctx (o.blocks (soleReq o m s) s) = true) (hchecks : o.checks (soleReq o m s) s = [])
    (hcommit : o.commit (soleReq o m s) s = .trap t) : issueOne m (.trig o) s = .next (takeTrap s.iss.ctx t s) := by
  obtain ⟨hsound, hguard, hsource⟩ := hm
  have hreq : requests s s.iss.ctx s.iss.limm [solePart m (.trig o) s] = [(o, soleReq o m s)] := rfl
  have hactive : [solePart m (.trig o) s].filter (fun i => i.active s.cx) = [solePart m (.trig o) s] := by
    simp [sole_active m (.trig o) s hguard]
  have hdecode : ([solePart m (.trig o) s].filterMap fun i => i.decode s.cx) = [] := by
    simp [sole_decode m (.trig o) s hsound (fun o' ho => by cases ho; exact hdec)]
  have hread : firstTrap (fun i => i.readTrap s.cx s.cycle) [solePart m (.trig o) s] = none := by
    simp [firstTrap, sole_readTrap m (.trig o) s hsource]
  have hblock := sole_blocks m (.trig o) s ([solePart m (.trig o) s].filterMap Part.pops) hsource nofun
  have hnoTrap : earlyTrap [(o, soleReq o m s)] s = none := by simp [earlyTrap, hearly]
  have hgoes : holdAll [(o, soleReq o m s)] s = (.none, s) := by simp [holdAll, hhold]
  have hfit : addsFit [(o, soleReq o m s)] s s.iss.ctx = true := by simpa [addsFit] using hadds
  have hserved : blocksServed s s.iss.ctx (blocksOfAll [(o, soleReq o m s)] s) = true := by simpa [blocksOfAll] using hbudget
  have hcheck : leastTrap ([(o, soleReq o m s)].flatMap fun e => e.1.checks e.2 s) = none := by simp [hchecks, leastTrap]
  have htrap : commitAll [(o, soleReq o m s)] .none s = .trap t := by simp [commitAll, hcommit]
  refine congrArg Host.Outcome.next (?_ : issueItems s.iss.ctx s.iss.limm [solePart m (.trig o) s] s = _)
  unfold issueItems
  simp only [hactive, hdecode, sole_shape m o s hsource hshape, List.append_nil, leastCode, hread, firstBlock, hblock, hreq,
    hnoTrap, hgoes, hfit, hserved, hcheck, htrap, not_true_eq_false, if_false]

end

/-! ### Barriers in a handler of TEAMDOWN (R223) -/

section
variable {m : Mv} {s : State}

theorem downAgain_none (h : s.cx.down = none) : downAgain s s.iss.ctx = none := by
  rw [downAgain, h]

theorem barrierDown_trap {r : Req} {u : Trap} (h : downAgain s r.c = some u) : barrierDown r s = .trap u := by
  rw [barrierDown, h]

theorem barrierDown_go {r : Req} (h : downAgain s r.c = none) : barrierDown r s = .go s := by
  rw [barrierDown, h]

/-! ### The team barrier (R178) -/

theorem reached_iff {n : Nat} {x : Ctx} : reached n x = true ↔ n < x.bars ∨ (x.bars = n ∧ x.atTbar = true) := by
  simp [reached]

theorem tbarMet_iff {c : Nat} : tbarMet s c = true ↔
    ∀ k ∈ liveMembers s c, k ≠ c → (s.ctx c).bars < (s.ctx k).bars ∨ ((s.ctx k).bars = (s.ctx c).bars ∧ (s.ctx k).atTbar = true) := by
  simp only [tbarMet, List.all_eq_true, Bool.or_eq_true, beq_iff_eq, reached_iff, Classical.or_iff_not_imp_left, ne_eq]

theorem syTbar_again {u : Trap} (hm : canMove m false s) (hd : downAgain s s.iss.ctx = some u) :
    exec (.syTbar m) s = .next (takeTrap s.iss.ctx u s) :=
  issueOne_commitTrap (o := opSyTbar) hm rfl rfl rfl (if_pos (Option.isSome_of_eq_some hd)) (pendFits_zero _) rfl rfl
    (barrierDown_trap (r := soleReq opSyTbar m s) hd)

/-- R178. What holds `tbar` outside such a handler. -/
theorem opSyTbar_hold (hd : s.cx.down = none) : opSyTbar.hold (soleReq opSyTbar m s) s =
    if fenceOut s s.iss.ctx s.cx.bundles then some (.fence, s)
    else if tbarMet s s.iss.ctx then none
    else some (.tbar, s.modCtx s.iss.ctx fun x => { x with atTbar := true }) := by
  have hnone : ¬ (downAgain s s.iss.ctx).isSome = true := by simp [downAgain_none hd]
  exact if_neg hnone

theorem syTbar_fenced (hm : canMove m false s) (hd : s.cx.down = none) (hf : fenceOut s s.iss.ctx s.cx.bundles = true) :
    exec (.syTbar m) s = .next (s.setCtx s.iss.ctx { s.cx with blocked := .fence }) :=
  issueOne_waits (o := opSyTbar) (b := .fence) hm rfl rfl rfl ((opSyTbar_hold hd).trans (if_pos hf)) nofun

theorem syTbar_waits (hm : canMove m false s) (hd : s.cx.down = none) (hf : fenceOut s s.iss.ctx s.cx.bundles = false)
    (ht : tbarMet s s.iss.ctx = false) :
    exec (.syTbar m) s = .next (s.setCtx s.iss.ctx { s.cx with atTbar := true, blocked := .tbar }) := by
  have hhold := ((opSyTbar_hold (m := m) hd).trans (if_neg (by simp [hf]))).trans (if_neg (by simp [ht]))
  refine (issueOne_waits (o := opSyTbar) hm rfl rfl rfl hhold nofun).trans (congrArg Host.Outcome.next ?_)
  exact modCtx_modCtx s s.iss.ctx (fun x => { x with atTbar := true }) fun x => { x with blocked := .tbar }

theorem syTbar_passes (hm : canMove m false s) (hd : s.cx.down = none) (hf : fenceOut s s.iss.ctx s.cx.bundles = false)
    (ht : tbarMet s s.iss.ctx = true) : ∃ t, exec (.syTbar m) s = .next t ∧
      ownCtx m s t { s.cx with atTbar := false, bars := s.cx.bars + 1 } ∧ (t.ctx s.iss.ctx).dirty = false := by
  have hhold : opSyTbar.hold (soleReq opSyTbar m s) s = none := by rw [opSyTbar_hold hd, hf, ht]; rfl
  have hs : Starts opSyTbar m s s :=
    ⟨rfl, rfl, rfl, hhold, pendFits_zero _, rfl, rfl, s, barrierDown_go (downAgain_none hd), rfl⟩
  let g (x : Ctx) : Ctx := { x with atTbar := false, bars := x.bars + 1, dirty := false }
  have he : opSyTbar.effect (soleReq opSyTbar m s) (midState opSyTbar m s s) = (midState opSyTbar m s s).modCtx s.iss.ctx g := rfl
  have hg : flowsTo opSyTbar m s { s.cx with atTbar := false, bars := s.cx.bars + 1 } [] (g (midCtx opSyTbar m s.cx s s.cycle)) :=
    ⟨false, by rw [midCtx_eq, List.append_nil]; rfl⟩
  refine ⟨_, issueOne_finish hm hs rfl, ⟨finish_onlyCtx m opSyTbar s g he, finish_flow (o := opSyTbar) ?_ rfl⟩, ?_⟩
  · rw [he, ctx_modCtx_same, midState_ctx]
    exact hg
  · rw [he, ctx_finish, ctx_modCtx_same, advance_eq]
    rfl

/-! ### Crew barriers (R179) -/

/-- R261, R303. Where a result goes is told by the operand ports and the index bases alone. -/
theorem wbLand_of_alike {unit : Nat} {o : Op} {u : State} (v : Vec) (hopnd : opnd (u.ctx s.iss.ctx) = opnd s.cx)
    (hres : resolve (u.ctx s.iss.ctx) = resolve s.cx) : wbLand unit (soleReq o m s) u v = wbActs unit s v := by
  have hport : (soleReq o m s).port u (wbPort unit) = opnd s.cx (wbPort unit) := by
    rw [← hopnd]
    simp [Req.port, soleReq, tget]
  rw [wbActs_eq, wbLand, wbDest, wbSel, hport, wbReg]
  rw [← hres]
  rfl

theorem syCbar_again {u : Trap} (hm : canMove m false s) (hw : wbOk 10 s) (hd : downAgain s s.iss.ctx = some u) :
    exec (.syCbar m) s = .next (takeTrap s.iss.ctx u s) :=
  issueOne_commitTrap (o := opSyCbar) hm rfl rfl rfl (if_pos (.inl (Option.isSome_of_eq_some hd))) (pendFits_zero _) rfl
    (wbCheck_nil 10 _ m s hw) (barrierDown_trap (r := soleReq opSyCbar m s) hd)

/-- R179, R333. The crew that the trigger of a bundle names, and its key. -/
def soleCrew (m : Mv) (s : State) : Nat := (toW (soleValue m s)).toNat % 8
def soleCrewKey (m : Mv) (s : State) : Nat := s.cx.slot * 8 + soleCrew m s

/-- R179. A context does not arrive whose barrier has been completed, or that is outside the crew. -/
theorem cbarArrive_stays {c crew : Nat} (h : crew ∈ (s.ctx c).released ∨ c ∉ crewMembers s (crewKey s c crew)) :
    cbarArrive s c crew = s :=
  if_pos (by simpa using h)

theorem syCbar_outside (h : s.iss.ctx ∉ crewMembers s (soleCrewKey m s)) : opSyCbar.hold (soleReq opSyCbar m s) s = none :=
  if_pos (.inr fun hin => h (List.contains_iff_mem.mp hin))

/-- R179. Nothing but its own accesses holds a member whose barrier has been completed. -/
theorem syCbar_released (hd : s.cx.down = none) (hf : fenceOut s s.iss.ctx s.cx.bundles = false)
    (hin : s.iss.ctx ∈ crewMembers s (soleCrewKey m s)) (hdone : soleCrew m s ∈ s.cx.released) :
    opSyCbar.hold (soleReq opSyCbar m s) s = none := by
  have hcan : ¬ ((downAgain s s.iss.ctx).isSome = true ∨
      ¬ (crewMembers s (soleCrewKey m s)).contains s.iss.ctx = true) := by
    rw [downAgain_none hd]
    simp [hin]
  have hstays : cbarArrive s s.iss.ctx (soleCrew m s) = s := cbarArrive_stays (.inl hdone)
  refine (if_neg hcan).trans ((if_neg (by simp [soleReq, hf])).trans ?_)
  change (if ((cbarArrive s s.iss.ctx (soleCrew m s)).ctx s.iss.ctx).released.contains (soleCrew m s) = true then none else
    some (_, _)) = _
  rw [hstays]
  exact if_pos (List.contains_iff_mem.mpr hdone)

/-- R179. The bundle of a `cbar` that has nothing to wait for: its result tells whether the crew's barrier has been completed,
which it consumes. -/
theorem syCbar_passes {v : Vec} {now : List Nat} (hm : canMove m false s) (hw : wbOk 10 s) (hd : s.cx.down = none)
    (hstay : soleCrew m s ∈ s.cx.released ∨ s.iss.ctx ∉ crewMembers s (soleCrewKey m s))
    (hhold : opSyCbar.hold (soleReq opSyCbar m s) s = none)
    (hv : (if s.cx.released.contains (soleCrew m s) then 1 else 0) = v) (hnow : sdel (soleCrew m s) s.cx.released = now) :
    ∃ t, exec (.syCbar m) s = .next t ∧ onlyCtx s.iss.ctx s t ∧ onlyFlow { s.cx with released := now } (t.ctx s.iss.ctx) ∧
      popsOnly m s.cx (t.ctx s.iss.ctx) ∧ goesOn s.cx (t.ctx s.iss.ctx) ∧
      sends s.cx (t.ctx s.iss.ctx) s.cycle [⟨s.cycle + 1, 10, .port 0x2A0 v :: wbActs 10 s v⟩] := by
  subst hv hnow
  let o := opSyCbar
  let v : Vec := if s.cx.released.contains (soleCrew m s) then 1 else 0
  let f : Flight := ⟨s.cycle + 1, 10, .port 0x2A0 v :: wbActs 10 s v⟩
  have hs : Starts o m s s :=
    ⟨rfl, rfl, rfl, hhold, pendFits_zero _, rfl, wbCheck_nil 10 _ m s hw, s, barrierDown_go (downAgain_none hd), rfl⟩
  have hreleased : ((midState o m s s).ctx s.iss.ctx).released = s.cx.released := by rw [midState_ctx, midCtx_eq]
  have hkey : crewKey (midState o m s s) s.iss.ctx (soleCrew m s) = soleCrewKey m s := by
    rw [crewKey, midState_ctx, midCtx_eq]
    rfl
  have harrive : cbarArrive (midState o m s s) s.iss.ctx (soleCrew m s) = midState o m s s := by
    refine cbarArrive_stays ?_
    rw [hreleased, hkey]
    exact hstay
  have he : o.effect (soleReq o m s) (midState o m s s) = (midState o m s s).modCtx s.iss.ctx fun x =>
      { x with released := sdel (soleCrew m s) x.released, flights := x.flights ++ [f] } := by
    change landResult 10 1 0x2A0
      (if ((cbarArrive (midState o m s s) s.iss.ctx (soleCrew m s)).ctx s.iss.ctx).released.contains (soleCrew m s) then 1 else 0)
      (soleReq o m s) ((cbarArrive (midState o m s s) s.iss.ctx (soleCrew m s)).modCtx s.iss.ctx _) = _
    rw [harrive, hreleased]
    rw [landResult, wbLand_of_alike _ (by rw [ctx_modCtx_same, midState_ctx, midCtx_eq]; rfl)
      (by rw [ctx_modCtx_same, midState_ctx, midCtx_eq]; rfl)]
    exact modCtx_modCtx (midState o m s s) s.iss.ctx (fun x => { x with released := sdel (soleCrew m s) x.released })
      fun x => { x with flights := x.flights ++ [f] }
  refine trigger_flows hm hs rfl he ⟨s.cx.dirty || taints [(o, soleReq o m s)], ?_⟩ rfl
  rw [midCtx_eq]
  rfl

/-- R179. A context joins or leaves a crew: the bundle issues, and of the machine the members of that crew alone differ. -/
def crewChanges (m : Mv) (s t : State) (key : Nat) (now : Nat → Prop) : Prop :=
  onlyFlow s.cx (t.ctx s.iss.ctx) ∧ popsOnly m s.cx (t.ctx s.iss.ctx) ∧ goesOn s.cx (t.ctx s.iss.ctx) ∧ othersStay s t ∧
    t = { s with ctxs := t.ctxs, cr := { s.cr with cores := t.cr.cores }, tm := { s.tm with crews := t.tm.crews } } ∧
    (∀ k, k ∈ crewMembers t key ↔ now k) ∧ ∀ j, j ≠ key → crewMembers t j = crewMembers s j

/-- The bundle of a trigger that changes the crews alone, to the table `crews`. -/
theorem trigger_crews {o : Op} {crews : Tab (List Nat)} (hm : canMove m false s) (hs : Starts o m s s)
    (hb : o.blocks (soleReq o m s) s = [])
    (he : o.effect (soleReq o m s) (midState o m s s) =
      { midState o m s s with tm := { (midState o m s s).tm with crews := crews } }) :
    ∃ t, issueOne m (.trig o) s = .next t ∧ t.tm.crews = crews ∧ onlyFlow s.cx (t.ctx s.iss.ctx) ∧
      popsOnly m s.cx (t.ctx s.iss.ctx) ∧ goesOn s.cx (t.ctx s.iss.ctx) ∧ othersStay s t ∧
      t = { s with ctxs := t.ctxs, cr := { s.cr with cores := t.cr.cores }, tm := { s.tm with crews := t.tm.crews } } := by
  have hflow : flowsTo o m s s.cx [] ((midState o m s s).ctx s.iss.ctx) :=
    ⟨s.cx.dirty || taints [(o, soleReq o m s)], by rw [midState_ctx, midCtx_eq, List.append_nil]; rfl⟩
  refine ⟨_, issueOne_finish hm hs hb, ?_⟩
  rw [he]
  obtain ⟨hown, hpops, hgoes, -⟩ := finish_flow (o := o)
    (u := { midState o m s s with tm := { (midState o m s s).tm with crews := crews } }) hflow rfl
  refine ⟨rfl, hown, hpops, hgoes, fun k hk => ?_, rfl⟩
  exact (ctx_finish_other _ _ _ _ hk).trans (midState_other o m s s k hk)

theorem crewMembers_tput {t : State} {key j : Nat} {l : List Nat} (h : t.tm.crews = tput key l s.tm.crews) :
    crewMembers t j = if j = key then l else crewMembers s j := by
  rw [crewMembers, h, tget_tput]
  split <;> rfl

theorem syJoin_adds (hm : canMove m false s) : ∃ t, exec (.syJoin m) s = .next t ∧
    crewChanges m s t (soleCrewKey m s) fun k => k = s.iss.ctx ∨ k ∈ crewMembers s (soleCrewKey m s) := by
  have hkey : crewKey (midState opSyJoin m s s) s.iss.ctx (soleCrew m s) = soleCrewKey m s := by
    rw [crewKey, midState_ctx, midCtx_eq]
    rfl
  have he : opSyJoin.effect (soleReq opSyJoin m s) (midState opSyJoin m s s) =
      { midState opSyJoin m s s with tm := { (midState opSyJoin m s s).tm with
        crews := tput (soleCrewKey m s) (sins s.iss.ctx (crewMembers s (soleCrewKey m s))) s.tm.crews } } := by
    rw [← hkey]
    rfl
  obtain ⟨t, hx, hcrews, hown, hpops, hgoes, hothers, hframe⟩ :=
    trigger_crews hm ⟨rfl, rfl, rfl, rfl, pendFits_zero _, rfl, rfl, s, rfl, rfl⟩ rfl he
  refine ⟨t, hx, hown, hpops, hgoes, hothers, hframe, fun k => ?_, fun j hj => ?_⟩
  · rw [crewMembers_tput hcrews, if_pos rfl, mem_sins]
  · rw [crewMembers_tput hcrews, if_neg hj]

/-- A crew without one of its members. -/
def crewsWithout (key c : Nat) (t : Tab (List Nat)) : Tab (List Nat) :=
  match tget t key with
  | some l => tput key (sdel c l) t
  | none => t

theorem tget_crewsWithout (key c j : Nat) (t : Tab (List Nat)) :
    (tget (crewsWithout key c t) j).getD [] = if j = key then sdel c ((tget t key).getD []) else (tget t j).getD [] := by
  unfold crewsWithout
  split
  next l hl =>
    rw [tget_tput, hl]
    split <;> rfl
  next hl =>
    split
    next hj => rw [hj, hl]; rfl
    next => rfl

/-- R179. A context leaves a crew whose barrier is not open. -/
theorem leaveCrew_closed {c crew : Nat} (h : tget s.tm.crewOpen (crewKey s c crew) = none) :
    leaveCrew s c crew = { s with tm := { s.tm with crews := crewsWithout (crewKey s c crew) c s.tm.crews } } := by
  have hopen : crewsWithout (crewKey s c crew) c s.tm.crewOpen = s.tm.crewOpen := by rw [crewsWithout, h]
  change cbarCheck { s with tm := { s.tm with crews := crewsWithout _ c _, crewOpen := crewsWithout _ c _ } } _ = _
  rw [hopen, cbarCheck]
  dsimp only
  rw [h]

theorem syLeave_removes (hm : canMove m false s) (hclosed : tget s.tm.crewOpen (soleCrewKey m s) = none) :
    ∃ t, exec (.syLeave m) s = .next t ∧
      crewChanges m s t (soleCrewKey m s) fun k => k ≠ s.iss.ctx ∧ k ∈ crewMembers s (soleCrewKey m s) := by
  have hkey : crewKey (midState opSyLeave m s s) s.iss.ctx (soleCrew m s) = soleCrewKey m s := by
    rw [crewKey, midState_ctx, midCtx_eq]
    rfl
  have he : opSyLeave.effect (soleReq opSyLeave m s) (midState opSyLeave m s s) =
      { midState opSyLeave m s s with tm := { (midState opSyLeave m s s).tm with
        crews := crewsWithout (soleCrewKey m s) s.iss.ctx s.tm.crews } } := by
    rw [← hkey]
    exact leaveCrew_closed ((congrArg (tget s.tm.crewOpen) hkey).trans hclosed)
  obtain ⟨t, hx, hcrews, hown, hpops, hgoes, hothers, hframe⟩ :=
    trigger_crews hm ⟨rfl, rfl, rfl, rfl, pendFits_zero _, rfl, rfl, s, rfl, rfl⟩ rfl he
  have hmembers (j : Nat) : crewMembers t j =
      if j = soleCrewKey m s then sdel s.iss.ctx (crewMembers s (soleCrewKey m s)) else crewMembers s j := by
    rw [crewMembers, hcrews, tget_crewsWithout]
    rfl
  refine ⟨t, hx, hown, hpops, hgoes, hothers, hframe, fun k => ?_, fun j hj => ?_⟩
  · rw [hmembers, if_pos rfl, mem_sdel]
  · rw [hmembers, if_neg hj]

end

/-- Settles O22: what holds `tbar` and `cbar`, and what they do once nothing does; `join` and `leave` change the members of one
crew. -/
theorem barriersAndCrews : Obligations.BarriersAndCrews := by
  unfold Obligations.BarriersAndCrews
  refine ⟨fun m s hm => ?_, fun m s hm => ?_⟩
  · intro c
    refine ⟨fun u hu => ⟨syTbar_again hm hu, fun hw => syCbar_again hm hw hu⟩, ?_⟩
    intro arrived
    refine ⟨fun hd hf hall => ?_, fun hd hf hsome => ?_, fun hd hf => ?_⟩
    · exact syTbar_passes hm hd hf (tbarMet_iff.mpr hall)
    · have hmet : tbarMet s c = false := by
        rw [Bool.eq_false_iff, ne_eq, tbarMet_iff]
        exact fun hall => hsome.elim fun k hk => hk.2.2 (hall k hk.1 hk.2.1)
      exact syTbar_waits hm hd hf hmet
    · exact syTbar_fenced hm hd hf
  · intro c crew key
    refine ⟨fun hw hd hopen hout => ?_, fun hw hd hf hin hdone => ?_, syJoin_adds hm, syLeave_removes hm⟩
    · exact syCbar_passes hm hw hd (.inr hout) (syCbar_outside hout)
        (if_neg fun hin => hopen (List.contains_iff_mem.mp hin)) (sdel_of_notMem hopen)
    · exact syCbar_passes hm hw hd (.inl hdone) (syCbar_released hd hf hin hdone) (if_pos (List.contains_iff_mem.mpr hdone)) rfl

end Sys2Proof.Machine
end

section
/-! SUPPORT. What the tests of launches and crews change, and the end of a task (R166, R178, R179, R188, R403), for O38 and the
statements that follow it. -/

namespace Sys2Proof.Machine

/-! ### Marks of launches: TDONE, END and the end that is asked for (R166, R188, R226) -/

/-- A launch without the marks that a count of its teams or an end test sets. -/
def Launch.unmarked (l : Launch) : Launch := { l with tdone := 0, endCode := 0, ending := none }

/-- Of a machine only marks of launches and new events differ. -/
def marksLaunches (s t : State) : Prop :=
  t = { s with agenda := t.agenda, tm := { s.tm with launches := t.tm.launches } } ∧ (∀ d ∈ s.agenda, d ∈ t.agenda) ∧
    ∀ k, (tget t.tm.launches k).map Launch.unmarked = (tget s.tm.launches k).map Launch.unmarked

section
variable {s t u : State}

theorem marksLaunches.refl : marksLaunches s s := ⟨rfl, fun _ h => h, fun _ => rfl⟩

theorem marksLaunches.trans (h : marksLaunches s t) (g : marksLaunches t u) : marksLaunches s u := by
  obtain ⟨hstate, hagenda, hmarks⟩ := h
  obtain ⟨gstate, gagenda, gmarks⟩ := g
  refine ⟨?_, fun d hd => gagenda d (hagenda d hd), fun k => (gmarks k).trans (hmarks k)⟩
  rw [gstate, hstate]

theorem marksLaunches.ctx (h : marksLaunches s t) (k : Nat) : t.ctx k = s.ctx k := by rw [h.1]; rfl
theorem marksLaunches.ms (h : marksLaunches s t) : t.ms = s.ms := by rw [h.1]
theorem marksLaunches.boards (h : marksLaunches s t) : t.tm.boards = s.tm.boards := by rw [h.1]

theorem marksLaunches_ite {p : Prop} [Decidable p] {a b : State} (ha : marksLaunches s a) (hb : marksLaunches s b) :
    marksLaunches s (if p then a else b) := by
  split
  · exact ha
  · exact hb

theorem marksLaunches_after {n : Nat} {e : Bool} {r : Instr} {a : EvArg} : marksLaunches s (s.after n e r a) :=
  ⟨rfl, fun _ h => List.mem_append_left _ h, fun _ => rfl⟩

theorem marksLaunches_modLaunch {lid : Nat} {f : Launch → Launch} (hf : ∀ l, (f l).unmarked = l.unmarked) :
    marksLaunches s (s.modLaunch lid f) := by
  unfold State.modLaunch
  split
  next l hl =>
    refine ⟨rfl, fun _ h => h, fun k => ?_⟩
    rw [tget_tput]
    split
    next hk => rw [hk, hl]; exact congrArg some (hf l)
    next => rfl
  next => exact .refl

theorem marksLaunches_foldl {α : Type} {f : State → α → State} (hf : ∀ t a, marksLaunches t (f t a)) (l : List α) :
    marksLaunches s (l.foldl f s) := by
  induction l generalizing s with
  | nil => exact .refl
  | cons a l ih => exact (hf s a).trans ih

theorem marksLaunches_wakeSetts {lid : Nat} : marksLaunches s (wakeSetts s lid) :=
  marksLaunches_foldl (fun _ _ => marksLaunches_after) _

theorem marksLaunches_settEnd {lid code : Nat} : marksLaunches s (settEnd s lid code) := by
  unfold settEnd
  split
  · exact .refl
  · refine marksLaunches_ite .refl (marksLaunches.trans ?_ marksLaunches_wakeSetts)
    exact marksLaunches_modLaunch fun _ => rfl

theorem marksLaunches_settTest {lid : Nat} {conv : Bool} : marksLaunches s (settTest s lid conv) := by
  unfold settTest
  split
  · exact .refl
  · exact marksLaunches_ite (marksLaunches_ite marksLaunches_settEnd (marksLaunches_ite marksLaunches_settEnd marksLaunches_wakeSetts))
      .refl

theorem marksLaunches_countTeam {c : Nat} : marksLaunches s (countTeam s c) :=
  marksLaunches_ite (marksLaunches_modLaunch fun l => by split <;> rfl) .refl

theorem marksLaunches_divergeCheck {lid : Nat} : marksLaunches s (divergeCheck s lid) := by
  refine marksLaunches_ite (marksLaunches.trans ?_ marksLaunches_after) .refl
  exact marksLaunches_modLaunch fun _ => rfl

/-! ### Crews and their open barriers (R179) -/

/-- Of a machine only crews, their open barriers and what these complete differ. -/
def crewsMove (s t : State) : Prop :=
  t = { s with ctxs := t.ctxs, tm := { s.tm with crews := t.tm.crews, crewOpen := t.tm.crewOpen } } ∧
    ∀ k, t.ctx k = { s.ctx k with atCbar := (t.ctx k).atCbar, released := (t.ctx k).released }

theorem crewsMove.refl : crewsMove s s := ⟨rfl, fun _ => rfl⟩

theorem crewsMove.trans (h : crewsMove s t) (g : crewsMove t u) : crewsMove s u := by
  obtain ⟨hstate, hctx⟩ := h
  obtain ⟨gstate, gctx⟩ := g
  refine ⟨?_, fun k => ?_⟩
  · rw [gstate, hstate]
  · rw [gctx k, hctx k]

theorem crewsMove.ms (h : crewsMove s t) : t.ms = s.ms := by rw [h.1]
theorem crewsMove.boards (h : crewsMove s t) : t.tm.boards = s.tm.boards := by rw [h.1]

theorem crewsMove_ite {p : Prop} [Decidable p] {a b : State} (ha : crewsMove s a) (hb : crewsMove s b) :
    crewsMove s (if p then a else b) := by
  split
  · exact ha
  · exact hb

theorem crewsMove_foldl {α : Type} {f : State → α → State} (hf : ∀ t a, crewsMove t (f t a)) (l : List α) :
    crewsMove s (l.foldl f s) := by
  induction l generalizing s with
  | nil => exact .refl
  | cons a l ih => exact (hf s a).trans ih

theorem crewsMove_modCtx {c : Nat} {f : Ctx → Ctx}
    (hf : ∀ x, f x = { x with atCbar := (f x).atCbar, released := (f x).released }) : crewsMove s (s.modCtx c f) := by
  refine ⟨rfl, fun k => ?_⟩
  rw [ctx_modCtx]
  split
  next hk => rw [hk]; exact hf _
  next => rfl

theorem crewsMove_cbarCheck {key : Nat} : crewsMove s (cbarCheck s key) := by
  unfold cbarCheck
  split
  · exact .refl
  next l _ =>
    have hdone : crewsMove s (l.foldl
        (fun t m => t.modCtx m fun x => { x with atCbar := none, released := sins (key % 8) x.released }) s) :=
      crewsMove_foldl (fun _ _ => crewsMove_modCtx fun _ => rfl) l
    refine crewsMove_ite (crewsMove_ite ?_ ?_) .refl
    all_goals exact hdone.trans ⟨rfl, fun _ => rfl⟩

theorem crewsMove_leaveCrew {c crew : Nat} : crewsMove s (leaveCrew s c crew) :=
  crewsMove.trans (t := { s with tm := { s.tm with crews := _, crewOpen := _ } }) ⟨rfl, fun _ => rfl⟩ crewsMove_cbarCheck

/-! ### Items that return (R192) -/

/-- Of a machine only Setts, operations on their way and items in transit differ. -/
def settsOnly (s t : State) : Prop :=
  t = { s with tm := { s.tm with setts := t.tm.setts, settOps := t.tm.settOps, transits := t.tm.transits } }

theorem settsOnly_foldl {α : Type} {f : State → α → State} (hf : ∀ t a, settsOnly t (f t a)) (l : List α) :
    settsOnly s (l.foldl f s) := by
  induction l generalizing s with
  | nil => exact rfl
  | cons a l ih =>
    have hrest : settsOnly (f s a) _ := ih
    rw [settsOnly, List.foldl_cons, hrest, hf s a]

/-- R192. The items that a context holds return, and its pops are gone. -/
theorem releaseItems_eq {c : Nat} : ∃ v, settsOnly s v ∧
    marksLaunches (v.modCtx c fun x => { x with held := [] }) (releaseItems s c) := by
  have hback : settsOnly s
      ((s.ctx c).held.foldl (fun t i => modItem t (bLid (s.board c)) i fun x => { x with runner := none }) s) :=
    settsOnly_foldl (fun _ _ => by rw [settsOnly]; rfl) _
  refine ⟨_, ?_, marksLaunches_settTest⟩
  rw [hback]
  rfl

/-! ### A context ends (R178, R403) -/

theorem stopCall_other {c : Nat} (h : ∀ k ∈ s.cr.calls, k.2.ctx ≠ c) : stopCall s c = s := by
  unfold stopCall
  split
  · rfl
  next k hk => exact if_pos (h (coreOf c, k) (tget_mem hk))

/-- R403. Of a context that ends, without a call: how it ended, and its results in flight and items, which are gone. The rest
of its registers stays. -/
def endedCtx (x : Ctx) (run : Run) : Ctx :=
  { noArrival x with
    run := run, flights := [], replay := [], preempt := false, fences := [], reissue := none, pendTrap := none, held := [] }

theorem endContext_ended {c : Nat} {run : Run} (h : ∀ k ∈ s.cr.calls, k.2.ctx ≠ c) :
    let t := endContext s c run
    t.ms = (discardOpens (dropArrivals s c) c).ms ∧ t.tm.boards = s.tm.boards ∧
      ∀ k, ∃ atCbar released, t.ctx k =
        { (if k = c then endedCtx (s.ctx c) run else s.ctx k) with atCbar := atCbar, released := released } := by
  intro t
  let s1 := s.modCtx c fun x => { noArrival x with
    run := run, flights := [], replay := [], preempt := false, fences := [], reissue := none, pendTrap := none }
  let s2 := discardOpens (dropArrivals (stopCall s1 c) c) c
  let s3 := freeBanks (releaseItems s2 c) c
  let s4 := (List.range 8).foldl (fun t k => leaveCrew t c k) s3
  have hstop : s2 = discardOpens (dropArrivals s1 c) c := congrArg (fun u => discardOpens (dropArrivals u c) c) (stopCall_other h)
  obtain ⟨v, hv, hrelease⟩ := releaseItems_eq (s := s2) (c := c)
  have hcrews : crewsMove s3 s4 := crewsMove_foldl (fun _ _ => crewsMove_leaveCrew) _
  have hmarks : marksLaunches s4 t := marksLaunches_countTeam.trans marksLaunches_divergeCheck
  refine ⟨?_, ?_, fun k => ⟨(s4.ctx k).atCbar, (s4.ctx k).released, ?_⟩⟩
  · calc t.ms = s3.ms := hmarks.ms.trans hcrews.ms
      _ = v.ms := hrelease.ms
      _ = s2.ms := by rw [hv]
      _ = _ := by rw [hstop]; rfl
  · calc t.tm.boards = s3.tm.boards := hmarks.boards.trans hcrews.boards
      _ = v.tm.boards := hrelease.boards
      _ = s2.tm.boards := by rw [hv]
      _ = _ := by rw [hstop]; rfl
  · have hctx : s3.ctx k = if k = c then endedCtx (s.ctx c) run else s.ctx k := by
      calc s3.ctx k = (v.modCtx c fun x => { x with held := [] }).ctx k := hrelease.ctx k
        _ = if k = c then { v.ctx c with held := [] } else v.ctx k := ctx_modCtx _ _ _ _
        _ = if k = c then { s1.ctx c with held := [] } else s1.ctx k := by rw [hv, hstop]; rfl
        _ = _ := by
          split
          next => rw [ctx_modCtx_same]; rfl
          next hk => exact ctx_modCtx_other _ _ _ _ hk
    rw [hmarks.ctx, hcrews.2 k, hctx]

end

/-! ### `exit` (R178, R403) -/

section
variable {m : Mv} {s : State}

theorem exitChecks_nil (hdown : s.cx.down = none) (hdirty : s.cx.dirty = false) (hbars : s.cx.bars ≠ 0)
    (hbanks : ∀ e ∈ s.cr.banks, e.2.holder ≠ s.iss.ctx) : exitChecks (soleReq opSysExit m s) s = [] := by
  have hdel : ¬ downDelivered s.cx = true := by simp [downDelivered, hdown]
  have hheld : heldBanks s s.iss.ctx = [] := List.filter_eq_nil_iff.mpr fun e he => by simpa using hbanks e he
  refine (if_neg hdel).trans ?_
  change (if s.cx.dirty = true ∨ s.cx.bars = 0 then _ else _) ++ (if (heldBanks s s.iss.ctx).length ≠ 0 then _ else _) = _
  rw [if_neg (by simp [hdirty, hbars]), hheld]
  rfl

end

/-- Settles O38: a task without a call ends with what `endContext` leaves of it. -/
theorem tasksExit : Obligations.TasksExit := by
  unfold Obligations.TasksExit
  intro m s hm hdown hdirty hbars hbanks hcalls
  let o := opSysExit
  have hs : Starts o m s s :=
    ⟨rfl, rfl, rfl, rfl, pendFits_zero _, rfl, exitChecks_nil hdown hdirty hbars hbanks, s, rfl, rfl⟩
  let u := midState o m s s
  obtain ⟨hms, -, hctx⟩ := endContext_ended (s := u) (c := s.iss.ctx) (run := .exited) hcalls
  obtain ⟨cb, rel, hc⟩ := hctx s.iss.ctx
  have hms' : (finish s.iss.ctx s.cx.shadow (endContext u s.iss.ctx .exited)).ms = _ := hms
  have hc' := ctx_finish s.iss.ctx s.cx.shadow (endContext u s.iss.ctx .exited)
  rw [hc, if_pos rfl, advance_eq, midState_ctx, midCtx_eq] at hc'
  refine ⟨_, issueOne_finish hm hs rfl, (congrArg Ctx.run hc' :), (congrArg Ctx.flights hc' :), (congrArg Ctx.regs hc' :),
    fun a ha => ?_, fun q hq => ?_, fun e he p hp => ?_, (congrArg MemSt.mem hms' :), (congrArg MemSt.spad hms' :)⟩
  · have ha' : a ∈ s.ms.arrivals.filter fun a => a.ctx != s.iss.ctx := (congrArg (fun w : MemSt => a ∈ w.arrivals) hms').mp ha
    simpa using (List.mem_filter.mp ha').2
  · have hq' : q ∈ s.ms.tagq.filter fun q => q.ctx != s.iss.ctx := (congrArg (fun w : MemSt => q ∈ w.tagq) hms').mp hq
    simpa using (List.mem_filter.mp hq').2
  · have he' : e ∈ s.ms.lines.map _ := (congrArg (fun w : MemSt => e ∈ w.lines) hms').mp he
    obtain ⟨l, -, rfl⟩ := List.mem_map.mp he'
    simpa using (List.mem_filter.mp hp).2

end Sys2Proof.Machine
end

section
/-! SUPPORT. Operations of a Sett on their way, and as they arrive (R185 to R188, R337, R338), for O23. -/

namespace Sys2Proof.Machine

/-! ### An operation leaves (R337, R338) -/

section
variable {o : Op} {m : Mv} {s u : State}

/-- R337. An operation on its way: it arrives at a later cycle. -/
theorem sendSett_eq (u : State) (p : SettOp) : ∃ n delays, u.cycle < n ∧ sendSett u p = { u with
    delays := delays, nextId := u.nextId + 1
    tm := { u.tm with settOps := u.tm.settOps ++ [{ p with id := u.nextId, at_ := n }] }
    agenda := u.agenda ++ [{ cyc := n, early := false, ev := ⟨.settPopAnswer, { a := p.key, b := 1, c := u.nextId }⟩ }] } := by
  have hpos := delay_pos u
  obtain ⟨n, delays, hdelay⟩ := delay_eq u
  have hlate (l : List SettOp) : ∀ k, u.cycle < k → u.cycle < l.foldl (fun m q => max m q.at_) k := by
    induction l with
    | nil => exact fun _ h => h
    | cons q l ih => exact fun k h => ih _ (Nat.lt_of_lt_of_le h (Nat.le_max_left _ _))
  rw [hdelay] at hpos
  refine ⟨_, delays, hlate (u.tm.settOps.filter (settOrdered p)) (u.cycle + n) (Nat.lt_add_of_pos_right hpos), ?_⟩
  rw [sendSett, hdelay]
  rfl

theorem midState_alike (o : Op) (m : Mv) (s : State) : Alike s.iss.ctx s (midState o m s s) :=
  ⟨by rw [midState_ctx, midCtx_eq], by rw [midState_ctx, midCtx_eq], by rw [midState_ctx, midCtx_eq], rfl, rfl, rfl⟩

theorem Alike.settOp {c : Nat} (h : Alike c s u) (kind idx : Nat) (v : W64) (d : Option Dest) :
    settOp u c kind idx v d = settOp s c kind idx v d := by
  have hdie : settDie u c = settDie s c := by rw [settDie, settDie, h.launchOf, State.seenDie, State.seenDie, h.board]
  have hfor (lid : Nat) : settFor u lid idx = settFor s lid idx := by
    rw [settFor, settFor, settOfItem, settOfItem, h.teams]
  unfold Machine.settOp
  dsimp only
  rw [hdie, hfor, h.bundles, h.board]

/-- A context of which a Sett operation has changed the units, what was written in the cycle, and the items held. -/
def heldTo (x : Ctx) (units : Tab UnitSt) (wrote : List Dest) (wroteAt : Nat) (held : List Nat) : Ctx :=
  { x with units := units, wrote := wrote, wroteAt := wroteAt, held := held }

/-- R337. The bundle of a Sett operation: beside its context, `u` as it leaves it, it sends one operation. -/
theorem sendSett_issues {units : Tab UnitSt} {wrote : List Dest} {wroteAt : Nat} {held : List Nat} {p : SettOp}
    (hm : canMove m false s) (hs : Starts o m s s) (hb : o.blocks (soleReq o m s) s = [])
    (he : o.effect (soleReq o m s) (midState o m s s) = sendSett u p) (hu : onlyCtx s.iss.ctx s u)
    (hown : flowsTo o m s (heldTo s.cx units wrote wroteAt held) [] (u.ctx s.iss.ctx)) :
    ∃ t, issueOne m (.trig o) s = .next t ∧ syncDone m s t ∧ othersStay s t ∧ t.ms = s.ms ∧
      (t.ctx s.iss.ctx).units = units ∧ (t.ctx s.iss.ctx).held = held ∧ settSent s t { p with id := s.nextId } := by
  obtain ⟨hrest, hothers⟩ := hu
  obtain ⟨n, delays, hn, hsend⟩ := sendSett_eq u p
  obtain ⟨hflow, hpops, hgoes, hsends⟩ := finish_flow (o := o) (m := m) (s := s) (fs := [])
    (z := heldTo s.cx units wrote wroteAt held) (u := sendSett u p) (by rw [hsend]; exact hown) rfl
  have hnext : u.nextId = s.nextId := by rw [hrest]
  have hfin : finish s.iss.ctx s.cx.shadow (sendSett u p) = { s with
      ctxs := (finish s.iss.ctx s.cx.shadow (sendSett u p)).ctxs, cr := { s.cr with cores := u.cr.cores }, delays := delays
      nextId := s.nextId + 1
      tm := { s.tm with settOps := s.tm.settOps ++ [{ p with id := s.nextId, at_ := n }] }
      agenda := s.agenda ++ [{ cyc := n, early := false, ev := ⟨.settPopAnswer, { a := p.key, b := 1, c := s.nextId }⟩ }] } := by
    rw [hsend, hrest]
    rfl
  refine ⟨_, issueOne_finish hm hs hb, ?_⟩
  rw [he]
  refine ⟨⟨⟨?_, ?_⟩, hpops, hgoes, hsends⟩, fun k hk => ?_, ?_, ?_, ?_, n, ?_, ?_, ?_⟩
  · rw [hfin]
  · rw [hflow]
    exact ⟨rfl, rfl, rfl, rfl, rfl, rfl, rfl, rfl, rfl, rfl, rfl, rfl, rfl, rfl, rfl, rfl, rfl, rfl, rfl, rfl, rfl, rfl, rfl,
      rfl, rfl⟩
  · rw [ctx_finish_other _ _ _ _ hk, hsend]
    exact hothers k hk
  · rw [hfin]
  · rw [hflow]
    rfl
  · rw [hflow]
    rfl
  · rw [hrest] at hn
    exact hn
  · rw [hfin]
  · rw [hfin]
    exact ⟨_, List.mem_append_right _ (List.mem_singleton_self _), rfl, rfl⟩

/-! ### What a Sett operation checks (R338) -/

section
variable {l : Launch} {r : Req}

theorem settChecks_pop (hl : s.launchOf r.c = some l) (hg : modeGain l.mode = true)
    (hroom : (s.ctx r.c).held.length + (popsOut s r.c).length < 16) : settChecks false false true r s = [] := by
  unfold settChecks
  rw [hl]
  simp [hg, hroom]

theorem settChecks_item {done : Bool} (hl : s.launchOf r.c = some l) (hg : modeGain l.mode = true) (hi : syItem r s < l.nitems)
    (hdone : done = true → syItem r s ∈ (s.ctx r.c).held) : settChecks true done false r s = [] := by
  unfold settChecks
  rw [hl]
  simp only [hg, not_true_eq_false, if_false, Nat.not_le.mpr hi, and_false, List.contains_iff_mem]
  exact (if_neg fun h => h.2 (hdone h.1)).trans (if_neg nofun)

end

/-- A register is marked empty in the same way in contexts with the same units and writes. -/
theorem emptyAt_of_alike {x y : Ctx} {d : Option Dest} {n : Nat} (hunits : y.units = x.units) (hwrote : y.wrote = x.wrote)
    (hat : y.wroteAt = x.wroteAt) : emptyAt d n y = { y with
      units := (emptyAt d n x).units, wrote := (emptyAt d n x).wrote, wroteAt := (emptyAt d n x).wroteAt } := by
  cases d with
  | none =>
    change y = { y with units := x.units, wrote := x.wrote, wroteAt := x.wroteAt }
    rw [← hunits, ← hwrote, ← hat]
  | some e =>
    simp only [emptyAt, noteWrite, hunits, hwrote, hat]

/-- R186, R337. A pop or a poll leaves for the Sett of its die, its register empty from then on. -/
theorem opPop_issues {l : Launch} (poll : Bool) (hm : canMove m false s) (hl : s.launchOf s.iss.ctx = some l)
    (hg : modeGain l.mode = true) (hw : wbOk 10 s)
    (hroom : s.cx.held.length + (popsOut s s.iss.ctx).length < 16) :
    ∃ t, issueOne m (.trig (opPop poll)) s = .next t ∧ syncDone m s t ∧ othersStay s t ∧ t.ms = s.ms ∧
      emptied (wbReg 10 s) s.cx (t.ctx s.iss.ctx) ∧ (t.ctx s.iss.ctx).held = s.cx.held ∧
      settSent s t { settOp s s.iss.ctx (if poll then 4 else 3) 0 0 (wbReg 10 s) with id := s.nextId } := by
  let o := opPop poll
  let d := wbReg 10 s
  let z := emptyAt d s.cycle s.cx
  have hchecks : o.checks (soleReq o m s) s = [] := by
    have hsett : settChecks false false true (soleReq o m s) s = [] := settChecks_pop (r := soleReq o m s) hl hg hroom
    change wbCheck 10 (soleReq o m s) s ++ settChecks false false true (soleReq o m s) s = []
    rw [wbCheck_nil 10 o m s hw, hsett]
    rfl
  have hs : Starts o m s s := ⟨rfl, rfl, rfl, rfl, pendFits_zero _, rfl, hchecks, s, rfl, rfl⟩
  have he : o.effect (soleReq o m s) (midState o m s s) =
      sendSett (markEmpty (midState o m s s) s.iss.ctx d) (settOp s s.iss.ctx (if poll then 4 else 3) 0 0 d) := by
    have hd : wbDest 10 (soleReq o m s) (midState o m s s) = d := wbDest_mid 10 o m s
    have hop := (midState_alike o m s).settOp (if poll then 4 else 3) 0 0 d
    calc _ = sendSett (markEmpty (midState o m s s) s.iss.ctx (wbDest 10 (soleReq o m s) (midState o m s s)))
          (settOp (midState o m s s) s.iss.ctx (if poll then 4 else 3) 0 0 (wbDest 10 (soleReq o m s) (midState o m s s))) := rfl
      _ = _ := by rw [hd, hop]
  have hu : onlyCtx s.iss.ctx s (markEmpty (midState o m s s) s.iss.ctx d) := by
    obtain ⟨xs, hmark⟩ := markEmpty_eq (midState o m s s) s.iss.ctx d
    refine ⟨by rw [hmark]; rfl, fun k hk => ?_⟩
    rw [ctx_markEmpty_other _ _ _ _ hk, midState_other o m s s k hk]
  have hown : flowsTo o m s (heldTo s.cx z.units z.wrote z.wroteAt s.cx.held) []
      ((markEmpty (midState o m s s) s.iss.ctx d).ctx s.iss.ctx) := by
    refine ⟨s.cx.dirty || taints [(o, soleReq o m s)], ?_⟩
    have hsame : emptyAt d s.cycle (midCtx o m s.cx s s.cycle) = { midCtx o m s.cx s s.cycle with
        units := z.units, wrote := z.wrote, wroteAt := z.wroteAt } :=
      emptyAt_of_alike (by rw [midCtx_eq]) (by rw [midCtx_eq]) (by rw [midCtx_eq])
    rw [ctx_markEmpty_same, midState_ctx, show (midState o m s s).cycle = s.cycle from rfl, hsame, midCtx_eq, List.append_nil]
    rfl
  obtain ⟨t, hx, hsync, hothers, hms, hunits, hheld, hsent⟩ := sendSett_issues hm hs rfl he hu hown
  refine ⟨t, hx, hsync, hothers, hms, fun k => ?_, hheld, hsent⟩
  rw [hunits]
  exact emptied_emptyAt d s.cycle s.cx k

/-- R338. The low half of a port's low word is that of the port. -/
theorem toW_mod_item (v : Vec) : (toW v).toNat % 2 ^ 32 = v.toNat % 2 ^ 32 := by
  rw [toW, BitVec.toNat_setWidth, Nat.mod_mod_of_dvd _ (pow_dvd_pow 2 (by decide))]

/-- R185, R187, R338. An operation on an item leaves for the Sett that holds the item. -/
theorem opItem_issues {l : Launch} {kind : Nat} (hm : canMove m false s) (hl : s.launchOf s.iss.ctx = some l)
    (hg : modeGain l.mode = true) (hi : (opnd s.cx 0x380).toNat % 2 ^ 32 < l.nitems)
    (hdone : kind = 2 → (opnd s.cx 0x380).toNat % 2 ^ 32 ∈ s.cx.held) :
    ∃ t, issueOne m (.trig (opItem kind)) s = .next t ∧ syncDone m s t ∧ othersStay s t ∧ t.ms = s.ms ∧
      emptied none s.cx (t.ctx s.iss.ctx) ∧
      (t.ctx s.iss.ctx).held = (if kind = 2 then s.cx.held.erase ((opnd s.cx 0x380).toNat % 2 ^ 32) else s.cx.held) ∧
      settSent s t { settOp s s.iss.ctx kind ((opnd s.cx 0x380).toNat % 2 ^ 32) (toW (soleValue m s)) none with
        id := s.nextId } := by
  let o := opItem kind
  let i := (opnd s.cx 0x380).toNat % 2 ^ 32
  let u := if kind = 2 then (midState o m s s).modCtx s.iss.ctx fun x => { x with held := x.held.erase i } else midState o m s s
  have hchecks : o.checks (soleReq o m s) s = [] := by
    have hitem : syItem (soleReq o m s) s = i := toW_mod_item _
    refine settChecks_item (r := soleReq o m s) hl hg (by rw [hitem]; exact hi) fun hk => ?_
    rw [hitem]
    exact hdone (beq_iff_eq.mp hk)
  have hs : Starts o m s s := ⟨rfl, rfl, rfl, rfl, pendFits_zero _, rfl, hchecks, s, rfl, rfl⟩
  have he : o.effect (soleReq o m s) (midState o m s s) =
      sendSett u (settOp s s.iss.ctx kind i (toW (soleValue m s)) none) := by
    have hitem : syItem (soleReq o m s) (midState o m s s) = i := by
      rw [syItem, syA, soleReq_port]
      exact toW_mod_item _
    have hop := (midState_alike o m s).settOp kind i (toW (soleValue m s)) none
    calc _ = sendSett (if kind = 2 then (midState o m s s).modCtx s.iss.ctx fun x =>
            { x with held := x.held.erase (syItem (soleReq o m s) (midState o m s s)) } else midState o m s s)
          (settOp (midState o m s s) s.iss.ctx kind (syItem (soleReq o m s) (midState o m s s)) (toW (soleValue m s)) none) := rfl
      _ = _ := by rw [hitem, hop]
  have hu : onlyCtx s.iss.ctx s u := by
    unfold u
    split
    · refine ⟨rfl, fun k hk => ?_⟩
      rw [ctx_modCtx_other _ _ _ _ hk, midState_other o m s s k hk]
    · exact ⟨rfl, midState_other o m s s⟩
  have hown : flowsTo o m s (heldTo s.cx s.cx.units s.cx.wrote s.cx.wroteAt (if kind = 2 then s.cx.held.erase i else s.cx.held)) []
      (u.ctx s.iss.ctx) := by
    refine ⟨s.cx.dirty || taints [(o, soleReq o m s)], ?_⟩
    unfold u
    split
    · rw [ctx_modCtx_same, midState_ctx, midCtx_eq, List.append_nil]
      rfl
    · rw [midState_ctx, midCtx_eq, List.append_nil]
      rfl
  obtain ⟨t, hx, hsync, hothers, hms, hunits, hheld, hsent⟩ := sendSett_issues hm hs rfl he hu hown
  refine ⟨t, hx, hsync, hothers, hms, fun k => ?_, hheld, hsent⟩
  rw [hunits]

end

end Sys2Proof.Machine
end

section
/-! SUPPORT. Operations of a Sett as they arrive (R185 to R188, R337), for O23. -/

namespace Sys2Proof.Machine

/-! ### The item that a pop takes (R186) -/

/-- R186. An entry of a Sett stands before another: by gain, then by index, or they are equal in both. -/
def ranksBefore (e b : Nat × Item) : Prop := b.2.gain < e.2.gain ∨ (b.2.gain = e.2.gain ∧ e.1 ≤ b.1)

/-- R186. Of two entries the one that a pop prefers, the first if neither stands before the other. -/
def betterItem (b e : Nat × Item) : Nat × Item :=
  if b.2.gain < e.2.gain ∨ (b.2.gain = e.2.gain ∧ e.1 < b.1) then e else b

theorem betterItem_before (b e : Nat × Item) : ranksBefore (betterItem b e) b ∧ ranksBefore (betterItem b e) e := by
  unfold betterItem ranksBefore
  split <;> constructor <;> omega

theorem ranksBefore.trans {a b c : Nat × Item} (h : ranksBefore a b) (g : ranksBefore b c) : ranksBefore a c := by
  unfold ranksBefore at *
  omega

/-- One entry of a Sett as the search for the best meets it. -/
def searchItem (floor : Int) (best : Option (Nat × Item)) (e : Nat × Item) : Option (Nat × Item) :=
  if itemEligible floor e.2 then some (best.elim e fun b => betterItem b e) else best

theorem bestItem_eq (floor : Int) (items : Tab Item) : bestItem floor items = items.foldl (searchItem floor) none := by
  unfold bestItem
  congr 1
  funext best e
  unfold searchItem betterItem
  cases best with
  | none => rfl
  | some b =>
    dsimp only [Option.elim]
    split
    · split <;> rfl
    · rfl

theorem search_some (floor : Int) (items : Tab Item) (b : Nat × Item) :
    ∃ r, items.foldl (searchItem floor) (some b) = some r ∧ (r = b ∨ (r ∈ items ∧ itemEligible floor r.2 = true)) ∧
      ranksBefore r b ∧ ∀ e ∈ items, itemEligible floor e.2 = true → ranksBefore r e := by
  induction items generalizing b with
  | nil => exact ⟨b, rfl, .inl rfl, .inr ⟨rfl, Nat.le_refl _⟩, nofun⟩
  | cons e items ih =>
    by_cases he : itemEligible floor e.2 = true
    · obtain ⟨r, hr, hin, hb, hall⟩ := ih (betterItem b e)
      obtain ⟨hbb, hbe⟩ := betterItem_before b e
      refine ⟨r, by rw [List.foldl_cons, searchItem, if_pos he]; exact hr, ?_, hb.trans hbb, ?_⟩
      · rcases hin with hin | ⟨hin, hel⟩
        · rw [hin, betterItem]
          split
          · exact .inr ⟨List.mem_cons_self, he⟩
          · exact .inl rfl
        · exact .inr ⟨List.mem_cons_of_mem _ hin, hel⟩
      · intro x hx hxe
        rcases List.mem_cons.mp hx with rfl | hx
        · exact hb.trans hbe
        · exact hall x hx hxe
    · obtain ⟨r, hr, hin, hb, hall⟩ := ih b
      refine ⟨r, by rw [List.foldl_cons, searchItem, if_neg he]; exact hr, hin.imp_right fun h => ⟨List.mem_cons_of_mem _ h.1, h.2⟩, hb,
        ?_⟩
      intro x hx hxe
      rcases List.mem_cons.mp hx with rfl | hx
      · exact absurd hxe he
      · exact hall x hx hxe

/-- R186. No item is taken where none is eligible. -/
theorem bestItem_none {floor : Int} {items : Tab Item} (h : ∀ e ∈ items, itemEligible floor e.2 = false) :
    bestItem floor items = none := by
  rw [bestItem_eq]
  induction items with
  | nil => rfl
  | cons e items ih =>
    rw [List.foldl_cons, searchItem, if_neg (by simp [h e List.mem_cons_self])]
    exact ih fun x hx => h x (List.mem_cons_of_mem _ hx)

/-- R186. Where one is, the best of them is. -/
theorem bestItem_some {floor : Int} {items : Tab Item} {x : Nat × Item} (hx : x ∈ items) (he : itemEligible floor x.2 = true) :
    ∃ r, bestItem floor items = some r ∧ r ∈ items ∧ itemEligible floor r.2 = true ∧
      ∀ e ∈ items, itemEligible floor e.2 = true → ranksBefore r e := by
  rw [bestItem_eq]
  induction items with
  | nil => cases hx
  | cons e items ih =>
    by_cases hee : itemEligible floor e.2 = true
    · obtain ⟨r, hr, hin, hb, hall⟩ := search_some floor items e
      refine ⟨r, by rw [List.foldl_cons, searchItem, if_pos hee]; exact hr, ?_, ?_, ?_⟩
      · exact List.mem_cons.mpr (hin.imp_right And.left)
      · rcases hin with hin | hin
        · rw [hin]; exact hee
        · exact hin.2
      · intro y hy hye
        rcases List.mem_cons.mp hy with rfl | hy
        · exact hb
        · exact hall y hy hye
    · have hx' : x ∈ items := (List.mem_cons.mp hx).resolve_left fun h => hee (h ▸ he)
      obtain ⟨r, hr, hin, hel, hall⟩ := ih hx'
      refine ⟨r, by rw [List.foldl_cons, searchItem, if_neg hee]; exact hr, List.mem_cons_of_mem _ hin, hel, ?_⟩
      intro y hy hye
      rcases List.mem_cons.mp hy with rfl | hy
      · exact absurd hye hee
      · exact hall y hy hye

/-- R186. The item that a pop takes is the best one. -/
theorem bestItem_of_takes {floor : Int} {items : Tab Item} {i : Nat} {x : Item} (h : popTakes floor items i x) :
    ∃ y, bestItem floor items = some (i, y) := by
  obtain ⟨-, hin, hel, hbest⟩ := h
  obtain ⟨⟨j, y⟩, hr, hjin, hjel, hall⟩ := bestItem_some hin hel
  have hij := hall (i, x) hin hel
  have hji := hbest (j, y) hjin hjel
  have hj : j = i := by
    unfold ranksBefore at hij
    dsimp only at hij hji
    omega
  exact ⟨y, by rw [hr, hj]⟩

/-! ### An item changes (R185 to R187) -/

/-- The items of a Sett of which that of an index is changed. -/
def itemsWith (idx : Nat) (f : Item → Item) (t : Tab Item) : Tab Item := t.map fun e => (e.1, if e.1 = idx then f e.2 else e.2)

theorem tget_itemsWith (idx j : Nat) (f : Item → Item) (t : Tab Item) :
    tget (itemsWith idx f t) j = if j = idx then (tget t j).map f else tget t j := by
  refine (tget_map (fun n y => if n = idx then f y else y) t j).trans ?_
  split
  · rfl
  · exact Option.map_id'

theorem sett_modItem (s : State) (lid idx k : Nat) (f : Item → Item) : tget (modItem s lid idx f).tm.setts k =
    (tget s.tm.setts k).map fun e => if e.lid = lid then { e with items := itemsWith idx f e.items } else e :=
  tget_map (fun _ (e : Sett) => if e.lid = lid then { e with items := itemsWith idx f e.items } else e) _ _

/-- An item is found among tables whose items of its launch are changed as it was found before, changed. -/
theorem findSome?_changed {α : Type} {l : List α} {p : α → Bool} {g : α → α} {q : α → Option Item} {f : Item → Item}
    (hp : ∀ a, p (g a) = p a) (hq : ∀ a, p a = true → q (g a) = (q a).map f) :
    ((l.map g).filter p).findSome? q = ((l.filter p).findSome? q).map f := by
  induction l with
  | nil => rfl
  | cons a l ih =>
    rw [List.map_cons, List.filter_cons, List.filter_cons, hp]
    split
    next ha =>
      rw [List.findSome?_cons, List.findSome?_cons, hq a ha, ih]
      cases q a <;> rfl
    next => exact ih

theorem itemOf_modItem (s : State) (lid idx : Nat) (f : Item → Item) :
    itemOf (modItem s lid idx f) lid idx = (itemOf s lid idx).map f := by
  have hitems (t : Tab Item) : tget (itemsWith idx f t) idx = (tget t idx).map f := by rw [tget_itemsWith, if_pos rfl]
  have hsetts : (((modItem s lid idx f).tm.setts.filter fun e => e.2.lid == lid).findSome? fun e => tget e.2.items idx) =
      ((s.tm.setts.filter fun e => e.2.lid == lid).findSome? fun e => tget e.2.items idx).map f := by
    refine findSome?_changed (fun e => ?_) fun e he => ?_
    · dsimp only
      split <;> rfl
    · rw [if_pos (beq_iff_eq.mp he)]
      exact hitems _
  have htransits : (((modItem s lid idx f).tm.transits.filter fun t => t.lid == lid).findSome? fun t => tget t.items idx) =
      ((s.tm.transits.filter fun t => t.lid == lid).findSome? fun t => tget t.items idx).map f := by
    refine findSome?_changed (fun e => ?_) fun e he => ?_
    · split <;> rfl
    · rw [if_pos (beq_iff_eq.mp he)]
      exact hitems _
  rw [itemOf, hsetts, htransits, itemOf]
  cases (s.tm.setts.filter fun e => e.2.lid == lid).findSome? fun e => tget e.2.items idx <;> rfl

/-! ### A pop is answered (R186) -/

section
variable {s : State}

theorem settRecord_none {lid die : Nat} (h : replaying s lid die = false) : settRecord s lid die = none := by
  unfold replaying at h
  unfold settRecord
  cases hlog : s.log lid die with
  | none => rfl
  | some g =>
    have hnil : g.replay = [] := by simpa [hlog] using h
    simp [hnil]

theorem replaying_congr {u : State} (h : u.tm.logs = s.tm.logs) (lid die : Nat) : replaying u lid die = replaying s lid die := by
  rw [replaying, replaying, State.log, State.log, h]

theorem lidDet_of_mode {lid : Nat} {l : Launch} (hl : tget s.tm.launches lid = some l) (hmode : modeDet l.mode = false) :
    lidDet s lid = false := by
  rw [lidDet, hl]
  exact hmode

/-- R262. A value leaves for a register, to arrive at a later cycle. -/
theorem sendValue_eq (s : State) (c : Nat) (dest : Option Dest) (v : Option Vec) (addr : W64) (loc : Nat) :
    ∃ n delays, 0 < n ∧ sendValue s c dest v addr loc = { s with
      nextId := s.nextId + 1, delays := delays
      ms := { s.ms with arrivals := s.ms.arrivals ++ [{ id := s.nextId, ctx := c, dest := dest, val := v, addr := addr, loc := loc }] }
      agenda := s.agenda ++ [{ cyc := s.cycle + n, early := false, ev := ⟨.variableArrival, { a := s.nextId }⟩ }] } := by
  obtain ⟨n, delays, hdelay⟩ := delay_eq { s with nextId := s.nextId + 1 }
  have hpos : 0 < n := by
    have h := delay_pos { s with nextId := s.nextId + 1 }
    rwa [hdelay] at h
  refine ⟨n, delays, hpos, ?_⟩
  rw [sendValue, State.fresh]
  dsimp only
  rw [hdelay]
  rfl

/-- R186. The state from which the answer of a pop leaves, outside deterministic modes: an item that it takes runs, and is
held. -/
def taken (s : State) (key : Nat) (w : PopWait) (answer idx : Nat) : State :=
  if answer = 0 then
    (modItem s (key / 16) idx fun i => { i with runner := some w.ctx }).modCtx w.ctx fun x => { x with held := x.held ++ [idx] }
  else s

theorem answerPop_plain {key answer idx : Nat} {w : PopWait} (hrec : settRecord s (key / 16) (key % 16) = none)
    (hdet : lidDet s (key / 16) = false) :
    answerPop s key w answer idx = sendValue (taken s key w answer idx) w.ctx w.dest (some (ofW (popValue answer idx))) 0 0 := by
  unfold answerPop
  dsimp only
  rw [hrec, hdet]
  rfl

/-- R186. Of a Sett where no pop waits and no record orders one nothing is served. -/
theorem servePops_idle {key : Nat} {st : Sett} (n : Nat) (hsett : tget s.tm.setts key = some st) (hwaits : st.waits = [])
    (hrec : settRecord s (key / 16) (key % 16) = none) : servePops key n s = s := by
  cases n with
  | zero => rfl
  | succ n =>
    unfold servePops
    dsimp only
    split
    next t l ht hl =>
      obtain rfl : st = t := Option.some.inj (hsett.symm.trans ht)
      rw [hrec]
      dsimp only
      rw [hwaits]
    next => rfl

/-- R186. A pop that waits alone at a Sett without records is answered: with the best item, or, after the end, with none. -/
theorem servePops_first {key : Nat} {st : Sett} {l : Launch} {w : PopWait} {rest : List PopWait} (n : Nat)
    (hsett : tget s.tm.setts key = some st) (hl : tget s.tm.launches (key / 16) = some l) (hwaits : st.waits = w :: rest)
    (hrep : replaying s (key / 16) (key % 16) = false) :
    servePops key (n + 1) s =
      if l.endCode ≠ 0 then servePops key n (answerPop (s.setSett key { st with waits := rest }) key w 1 0)
      else match bestItem l.floor st.items with
        | some (i, _) => servePops key n (answerPop (s.setSett key { st with waits := rest }) key w 0 i)
        | none => match st.waits.find? fun v => v.poll with
          | some v => servePops key n (answerPop (s.setSett key { st with waits := st.waits.erase v }) key v 2 0)
          | none => s := by
  rw [servePops]
  dsimp only
  rw [hsett, hl, settRecord_none hrep]
  dsimp only
  rw [hwaits]
  dsimp only
  rw [hrep]
  rfl

/-- R186. The state in which an item has been taken: it runs for the context, which holds it. -/
def holdItem (i : Nat) (y : Ctx) : Ctx := { y with held := y.held ++ [i] }

def takenBy (s : State) (key : Nat) (w : PopWait) (i : Nat) : State :=
  (modItem s (key / 16) i fun y => { y with runner := some w.ctx }).modCtx w.ctx (holdItem i)

section
variable {key : Nat} {w : PopWait} {st : Sett}

theorem ctx_takenBy (i k : Nat) : (takenBy s key w i).ctx k = if k = w.ctx then holdItem i (s.ctx w.ctx) else s.ctx k :=
  ctx_modCtx _ _ _ _

theorem answerPop_takes (i : Nat) (hrec : settRecord s (key / 16) (key % 16) = none) (hdet : lidDet s (key / 16) = false) :
    answerPop s key w 0 i = sendValue (takenBy s key w i) w.ctx w.dest (some (ofW (BitVec.ofNat 64 i))) 0 0 := by
  unfold answerPop
  dsimp only
  rw [hrec, hdet]
  rfl

/-- R186. What the Sett is once an item of it has been taken, and nothing waits there. -/
theorem takenBy_serves {t : State} {i : Nat} {x : Item} (htm : t.tm = (takenBy s key w i).tm)
    (hsett : tget s.tm.setts key = some st) (hlid : st.lid = key / 16) (hwaits : st.waits = [])
    (hx : tget st.items i = some x) (hrep : replaying s (key / 16) (key % 16) = false) :
    (∃ st', tget t.tm.setts key = some st' ∧ st'.waits = [] ∧ tget st'.items i = some { x with runner := some w.ctx } ∧
      ∀ j, j ≠ i → tget st'.items j = tget st.items j) ∧ ∀ n, servePops key n t = t := by
  have hst : tget t.tm.setts key =
      some { st with items := itemsWith i (fun y => { y with runner := some w.ctx }) st.items } := by
    rw [htm]
    refine (sett_modItem s (key / 16) i key fun y => { y with runner := some w.ctx }).trans ?_
    rw [hsett]
    exact congrArg some (if_pos hlid)
  have hlogs : t.tm.logs = s.tm.logs := by rw [htm]; rfl
  refine ⟨⟨_, hst, hwaits, ?_, fun j hj => ?_⟩, fun n => servePops_idle n hst hwaits ?_⟩
  · rw [tget_itemsWith, if_pos rfl, hx]
    rfl
  · rw [tget_itemsWith, if_neg hj]
  · exact settRecord_none ((replaying_congr hlogs _ _).trans hrep)

end

/-! ### A pop arrives (R186, R337) -/

theorem settPopAnswer_of_due {o : SettOp} (h : SettOpDue s o) : exec .settPopAnswer s = .next (settArrive s s.ev.c) :=
  congrArg Host.Outcome.next (if_pos h.1)

/-- R186. As a pop or a poll arrives, it is off the operations on their way. -/
def withoutOp (s : State) (o : SettOp) : State := { s with tm := { s.tm with settOps := s.tm.settOps.erase o } }

theorem settArrive_pop {o : SettOp} (h : SettOpDue s o) (hk : o.kind = 3 ∨ o.kind = 4) :
    settArrive s s.ev.c = popArrive (withoutOp s o) o.key o.ctx o.dest (o.kind == 4) := by
  unfold settArrive
  rw [h.2]
  dsimp only
  split
  · omega
  · omega
  · omega
  · rfl

/-- R186, R262. The answer of a pop that has arrived is on its way to its register. -/
def popAnswered (s t : State) (o : SettOp) (v : W64) : Prop :=
  t.ms = { s.ms with arrivals := s.ms.arrivals ++
    [{ id := s.nextId, ctx := o.ctx, dest := o.dest, val := some (ofW v), addr := 0, loc := 0 }] } ∧
  (∃ d ∈ t.agenda, d.ev.row = .variableArrival ∧ d.ev.arg.a = s.nextId ∧ s.cycle < d.cyc) ∧
  t.tm.settOps = s.tm.settOps.erase o ∧ ∀ k, k ≠ o.ctx → t.ctx k = s.ctx k

/-- The pop as it waits at its Sett. -/
def popWait (o : SettOp) : PopWait := ⟨o.ctx, o.dest, o.kind == 4⟩

theorem sendValue_answers {u : State} {o : SettOp} {v : W64}
    (hu : u = { s with ctxs := u.ctxs, tm := { u.tm with settOps := s.tm.settOps.erase o } })
    (hctx : ∀ k, k ≠ o.ctx → u.ctx k = s.ctx k) :
    let t := sendValue u o.ctx o.dest (some (ofW v)) 0 0
    popAnswered s t o v ∧ t.ctxs = u.ctxs ∧ t.tm = u.tm := by
  intro t
  obtain ⟨n, delays, hn, ht⟩ := sendValue_eq u o.ctx o.dest (some (ofW v)) 0 0
  change t = _ at ht
  rw [ht]
  refine ⟨⟨?_, ?_, ?_, hctx⟩, rfl, rfl⟩
  · rw [hu]
  · refine ⟨_, List.mem_append_right _ (List.mem_singleton_self _), rfl, ?_, ?_⟩
    · rw [hu]
    · rw [hu]
      exact Nat.lt_add_of_pos_right hn
  · rw [hu]

section
variable {o : SettOp} {l : Launch} {st : Sett}

/-- The Sett of the pop once no pop waits there. -/
def popServed (s : State) (o : SettOp) (st : Sett) : State := (withoutOp s o).setSett o.key { st with waits := [] }

theorem PopArrives.replaying (h : PopArrives s o l st) {u : State} (hu : u.tm.logs = s.tm.logs) :
    replaying u (o.key / 16) (o.key % 16) = false := (replaying_congr hu _ _).trans h.log

theorem PopArrives.lidDet (h : PopArrives s o l st) {u : State} (hu : u.tm.launches = s.tm.launches) :
    lidDet u (o.key / 16) = false := lidDet_of_mode (hu ▸ h.launch) h.mode

theorem popServed_sett (h : st.waits = []) : tget (popServed s o st).tm.setts o.key = some st := by
  rw [popServed, State.setSett, tget_tput_same, ← h]

/-- R186. An answer that leaves no item running. -/
theorem popServed_answers (h : PopArrives s o l st) {answer : Nat} (hans : answer ≠ 0) :
    let t := answerPop (popServed s o st) o.key (popWait o) answer 0
    popAnswered s t o (popValue answer 0) ∧ t.ctxs = s.ctxs ∧ ∀ n, servePops o.key n t = t := by
  intro t
  have ht : t = sendValue (popServed s o st) o.ctx o.dest (some (ofW (popValue answer 0))) 0 0 := by
    have hplain := answerPop_plain (w := popWait o) (answer := answer) (idx := 0)
      (settRecord_none (h.replaying (u := popServed s o st) rfl)) (h.lidDet (u := popServed s o st) rfl)
    rw [taken, if_neg hans] at hplain
    exact hplain
  obtain ⟨hanswered, hctxs, htm⟩ := sendValue_answers (s := s) (u := popServed s o st) (o := o) (v := popValue answer 0) rfl
    fun _ _ => rfl
  rw [← ht] at hanswered hctxs htm
  refine ⟨hanswered, hctxs, fun n => servePops_idle n ?_ h.waits ?_⟩
  · rw [htm]
    exact popServed_sett h.waits
  · exact settRecord_none (h.replaying (by rw [htm]; rfl))

/-- R186. An answer that takes an item. -/
theorem popServed_takes (h : PopArrives s o l st) {i : Nat} {x : Item} (hx : tget st.items i = some x) :
    let t := answerPop (popServed s o st) o.key (popWait o) 0 i
    popAnswered s t o (BitVec.ofNat 64 i) ∧ t.ctx o.ctx = { s.ctx o.ctx with held := (s.ctx o.ctx).held ++ [i] } ∧
      (∃ st', tget t.tm.setts o.key = some st' ∧ st'.waits = [] ∧ tget st'.items i = some { x with runner := some o.ctx } ∧
        ∀ j, j ≠ i → tget st'.items j = tget st.items j) ∧
      ∀ n, servePops o.key n t = t := by
  have hrep : replaying (popServed s o st) (o.key / 16) (o.key % 16) = false := h.replaying rfl
  have hdet : lidDet (popServed s o st) (o.key / 16) = false := h.lidDet rfl
  have hsett := popServed_sett (s := s) (o := o) h.waits
  have hrest : popServed s o st = { s with tm := { (popServed s o st).tm with settOps := s.tm.settOps.erase o } } := rfl
  have hctx (k : Nat) : (popServed s o st).ctx k = s.ctx k := rfl
  generalize popServed s o st = u at hrep hdet hsett hrest hctx
  have htaken : takenBy u o.key (popWait o) i = { s with
      ctxs := (takenBy u o.key (popWait o) i).ctxs
      tm := { (takenBy u o.key (popWait o) i).tm with settOps := s.tm.settOps.erase o } } := by
    rw [takenBy, hrest]
    rfl
  have hown (k : Nat) : (takenBy u o.key (popWait o) i).ctx k =
      if k = o.ctx then holdItem i (u.ctx o.ctx) else u.ctx k := ctx_takenBy i k
  rw [answerPop_takes i (settRecord_none hrep) hdet]
  obtain ⟨hanswered, hctxs, htm⟩ := sendValue_answers (v := BitVec.ofNat 64 i) htaken fun k hk => by
    rw [hown, if_neg hk, hctx]
  obtain ⟨hserved, hidle⟩ := takenBy_serves htm hsett h.lid h.waits hx hrep
  refine ⟨hanswered, ?_, hserved, hidle⟩
  refine (congrArg (fun z : Tab Ctx => (tget z o.ctx).getD {}) hctxs).trans ((hown o.ctx).trans ?_)
  rw [if_pos rfl]
  exact congrArg (holdItem i) (hctx o.ctx)

/-- The Sett of the pop as it waits there. -/
def popWaiting (s : State) (o : SettOp) (st : Sett) : State := (withoutOp s o).setSett o.key { st with waits := [popWait o] }

/-- R186, R337. A pop that has arrived waits, unless it is a poll that finds no item before the end. -/
theorem popArrive_serves (h : PopArrives s o l st)
    (hitem : ¬ (o.kind = 4 ∧ l.endCode = 0 ∧ (bestItem l.floor st.items).isNone = true)) :
    ∃ n, popArrive (withoutOp s o) o.key o.ctx o.dest (o.kind == 4) = servePops o.key (n + 1) (popWaiting s o st) := by
  have hl : tget (withoutOp s o).tm.launches (o.key / 16) = some l := h.launch
  unfold popArrive
  rw [show tget (withoutOp s o).tm.setts o.key = _ from h.sett]
  dsimp only
  rw [hl]
  dsimp only
  rw [if_neg fun hpoll => hitem ⟨beq_iff_eq.mp hpoll.1, hpoll.2.2⟩, h.waits, List.nil_append]
  have hlen : ((tget (popWaiting s o st).tm.setts o.key).map (·.waits.length)).getD 0 = 1 := by
    rw [popWaiting, State.setSett, tget_tput_same]
    rfl
  change ∃ n, servePops o.key (((tget (popWaiting s o st).tm.setts o.key).map (·.waits.length)).getD 0 + _ + 1) _ = _
  rw [hlen]
  exact ⟨_, rfl⟩

/-- R337. A poll that finds no item before the end is answered at once. -/
theorem popArrive_polls (h : PopArrives s o l st) (hkind : o.kind = 4) (hend : l.endCode = 0)
    (hnone : bestItem l.floor st.items = none) : popArrive (withoutOp s o) o.key o.ctx o.dest (o.kind == 4) =
      sendValue (withoutOp s o) o.ctx o.dest (some (ofW 0xFFFFFFFE)) 0 0 := by
  have hl : tget (withoutOp s o).tm.launches (o.key / 16) = some l := h.launch
  have hplain := answerPop_plain (w := popWait o) (answer := 2) (idx := 0)
    (settRecord_none (h.replaying (u := withoutOp s o) rfl)) (h.lidDet (u := withoutOp s o) rfl)
  unfold popArrive
  rw [show tget (withoutOp s o).tm.setts o.key = _ from h.sett]
  dsimp only
  rw [hl]
  dsimp only
  rw [if_pos ⟨beq_iff_eq.mpr hkind, ne_true_of_eq_false (h.replaying (u := withoutOp s o) rfl), hend, by rw [hnone]; rfl⟩]
  exact hplain

theorem popWaiting_first (h : PopArrives s o l st) (n : Nat) : servePops o.key (n + 1) (popWaiting s o st) =
    if l.endCode ≠ 0 then servePops o.key n (answerPop (popServed s o st) o.key (popWait o) 1 0)
    else match bestItem l.floor st.items with
      | some (i, _) => servePops o.key n (answerPop (popServed s o st) o.key (popWait o) 0 i)
      | none => match [popWait o].find? fun v => v.poll with
        | some v => servePops o.key n (answerPop ((popWaiting s o st).setSett o.key { st with waits := [popWait o].erase v })
            o.key v 2 0)
        | none => popWaiting s o st := by
  have hsett : tget (popWaiting s o st).tm.setts o.key = some { st with waits := [popWait o] } := by
    rw [popWaiting, State.setSett, tget_tput_same]
  have hserved : (popWaiting s o st).setSett o.key { st with waits := [] } = popServed s o st :=
    congrArg (fun z => { s with tm := { s.tm with settOps := s.tm.settOps.erase o, setts := z } }) (tput_tput _ _ _ _)
  rw [servePops_first n hsett h.launch rfl (h.replaying rfl), hserved]

end

/-! ### An operation on an item arrives (R185, R187) -/

/-- R185, R187. What an operation that has been applied leaves: its item, the launch's residual, and SAT of its context. -/
def appliedTo (s : State) (o : SettOp) (sat : Bool) (residual : Nat) (item : Item) (t : State) : Prop :=
  t.ms = s.ms ∧ t.tm.settOps = s.tm.settOps.erase o ∧ (∀ k, k ≠ o.ctx → t.ctx k = s.ctx k) ∧
    (let y := s.ctx o.ctx
     t.ctx o.ctx = { y with flags := if sat then y.flags ||| fSAT.setWidth 32 else y.flags }) ∧
    (∃ l, tget t.tm.launches o.lid = some l ∧ l.residual = residual) ∧ itemOf t o.lid o.idx = some item

section
variable {o : SettOp} {l : Launch} {x item : Item} {t u : State} {sat : Bool} {residual : Nat}

theorem itemOf_congr (hsetts : t.tm.setts = s.tm.setts) (htransits : t.tm.transits = s.tm.transits) (lid idx : Nat) :
    itemOf t lid idx = itemOf s lid idx := by rw [itemOf, itemOf, hsetts, htransits]

theorem itemOf_withoutOp (lid idx : Nat) : itemOf (withoutOp s o) lid idx = itemOf s lid idx := itemOf_congr rfl rfl _ _

/-- The tests that follow an operation change nothing of this. -/
theorem appliedTo.marks (h : appliedTo s o sat residual item u) (g : marksLaunches u t) : appliedTo s o sat residual item t := by
  obtain ⟨hms, hops, hothers, hown, ⟨l, hl, hres⟩, hitem⟩ := h
  obtain ⟨hstate, -, hmarks⟩ := g
  have hmark := hmarks o.lid
  rw [hl] at hmark
  obtain ⟨l', hl', heq⟩ := Option.map_eq_some_iff.mp hmark
  have hctx (k : Nat) : t.ctx k = u.ctx k := by rw [hstate]; rfl
  refine ⟨?_, ?_, fun k hk => (hctx k).trans (hothers k hk), (hctx _).trans hown, ⟨l', hl', ?_⟩, ?_⟩
  · rw [hstate]
    exact hms
  · rw [hstate]
    exact hops
  · exact (congrArg Launch.residual heq :).trans hres
  · rw [← hitem]
    exact itemOf_congr (by rw [hstate]) (by rw [hstate]) _ _

theorem setSat_eq (s : State) (c : Nat) (on : Bool) : ∃ ctxs, setSat s c on = { s with ctxs := ctxs } := by
  cases on
  · exact ⟨_, rfl⟩
  · exact ⟨_, rfl⟩

theorem ctx_setSat_other {c k : Nat} (on : Bool) (h : k ≠ c) : (setSat s c on).ctx k = s.ctx k := by
  cases on
  · rfl
  · rw [setSat, if_pos rfl]
    exact ctx_modCtx_other _ _ _ _ h

theorem ctx_setSat_same (c : Nat) (on : Bool) : (setSat s c on).ctx c =
    (let y := s.ctx c
     { y with flags := if on then y.flags ||| fSAT.setWidth 32 else y.flags }) := by
  cases on
  · rfl
  · rw [setSat, if_pos rfl]
    exact ctx_modCtx_same _ _ _

theorem ctx_modItem (s : State) (lid idx k : Nat) (f : Item → Item) : (modItem s lid idx f).ctx k = s.ctx k := rfl

/-- An item is changed, and SAT enters the context. -/
theorem appliedTo_sat {f : Item → Item} (hl : tget s.tm.launches o.lid = some l) (hx : itemOf s o.lid o.idx = some x) :
    appliedTo s o sat l.residual (f x) (setSat (modItem (withoutOp s o) o.lid o.idx f) o.ctx sat) := by
  obtain ⟨ctxs, hset⟩ := setSat_eq (modItem (withoutOp s o) o.lid o.idx f) o.ctx sat
  have hitem : itemOf (modItem (withoutOp s o) o.lid o.idx f) o.lid o.idx = some (f x) := by
    rw [itemOf_modItem, itemOf_withoutOp, hx]
    rfl
  refine ⟨?_, ?_, fun k hk => ?_, ctx_setSat_same _ _, ⟨l, ?_, rfl⟩, ?_⟩
  · rw [hset]; rfl
  · rw [hset]; rfl
  · exact (ctx_setSat_other (s := modItem (withoutOp s o) o.lid o.idx f) sat hk).trans (ctx_modItem (withoutOp s o) _ _ _ _)
  · rw [hset]; exact hl
  · rw [← hitem, hset]; rfl

theorem appliedTo.concludes {p : Prop} [Decidable p] (h : appliedTo s o sat residual item t) (hp : p ↔ sat = true) :
    ∃ l, t.ms = s.ms ∧ t.tm.settOps = s.tm.settOps.erase o ∧ (∀ k, k ≠ o.ctx → t.ctx k = s.ctx k) ∧
      (let y := s.ctx o.ctx
       t.ctx o.ctx = { y with flags := if p then y.flags ||| fSAT.setWidth 32 else y.flags }) ∧
      tget t.tm.launches o.lid = some l ∧ l.residual = residual ∧ itemOf t o.lid o.idx = some item := by
  obtain ⟨hms, hops, hothers, hown, ⟨l, hl, hres⟩, hitem⟩ := h
  obtain rfl : sat = decide p := Bool.eq_iff_iff.mpr (by simp [hp])
  simp only [decide_eq_true_eq] at hown
  exact ⟨l, hms, hops, hothers, hown, hl, hres, hitem⟩

theorem settArrive_add (h : SettOpDue s o) (hk : o.kind = 0) (hl : tget s.tm.launches o.lid = some l)
    (hx : itemOf s o.lid o.idx = some x) :
    let sum := x.gain + o.val.toInt
    let lim := max (-(2 ^ 63 : Int)) (min (2 ^ 63 - 1) sum)
    appliedTo s o (decide (lim ≠ sum)) l.residual { x with gain := lim } (settArrive s s.ev.c) := by
  intro sum lim
  have harrive : settArrive s s.ev.c = countTeam (settAdd (withoutOp s o) o.ctx o.lid o.idx o.val.toInt) o.ctx := by
    unfold settArrive
    rw [h.2]
    dsimp only
    rw [hk]
    rfl
  have hadd : settAdd (withoutOp s o) o.ctx o.lid o.idx o.val.toInt =
      settTest (setSat (modItem (withoutOp s o) o.lid o.idx fun i => { i with gain := lim }) o.ctx (decide (lim ≠ sum))) o.lid
        false := by
    unfold settAdd
    rw [itemOf_withoutOp, hx]
  rw [harrive, hadd]
  exact (appliedTo_sat (f := fun i => { i with gain := lim }) hl hx).marks (marksLaunches_settTest.trans marksLaunches_countTeam)

theorem settArrive_set (h : SettOpDue s o) (hk : o.kind = 1) (hl : tget s.tm.launches o.lid = some l)
    (hx : itemOf s o.lid o.idx = some x) :
    appliedTo s o false l.residual { x with gain := o.val.toInt } (settArrive s s.ev.c) := by
  have harrive : settArrive s s.ev.c = countTeam (settSet (withoutOp s o) o.lid o.idx o.val.toInt) o.ctx := by
    unfold settArrive
    rw [h.2]
    dsimp only
    rw [hk]
    rfl
  rw [harrive]
  exact (appliedTo_sat (sat := false) (f := fun i => { i with gain := o.val.toInt }) hl hx).marks
    (marksLaunches_settTest.trans marksLaunches_countTeam)

/-- R187. The residual of a launch changes, too. -/
theorem settArrive_done (h : SettOpDue s o) (hk : o.kind = 2) (hl : tget s.tm.launches o.lid = some l)
    (hx : itemOf s o.lid o.idx = some x) :
    let r := residualOf (o.val.toNat % 2 ^ 32)
    appliedTo s o r.2 (l.residual - x.residual + r.1) { x with residual := r.1, runner := none } (settArrive s s.ev.c) := by
  intro r
  let done (i : Item) : Item := { i with residual := r.1, runner := none }
  let less (l : Launch) : Launch := { l with residual := l.residual - x.residual + r.1 }
  let v := setSat (withoutOp s o) o.ctx r.2
  have harrive : settArrive s s.ev.c = countTeam (settDone (withoutOp s o) o.ctx o.lid o.idx (o.val.toNat % 2 ^ 32)) o.ctx := by
    unfold settArrive
    rw [h.2]
    dsimp only
    rw [hk]
    rfl
  have hdone : settDone (withoutOp s o) o.ctx o.lid o.idx (o.val.toNat % 2 ^ 32) =
      settTest (modItem (v.modLaunch o.lid less) o.lid o.idx done) o.lid true := by
    unfold settDone
    rw [itemOf_withoutOp, hx]
  obtain ⟨ctxs, hv⟩ := setSat_eq (withoutOp s o) o.ctx r.2
  have hlaunch : v.modLaunch o.lid less = { v with tm := { v.tm with launches := tput o.lid (less l) v.tm.launches } } := by
    have hvl : tget v.tm.launches o.lid = some l := by
      unfold v
      rw [hv]
      exact hl
    unfold State.modLaunch
    rw [hvl]
  rw [harrive, hdone, hlaunch]
  refine appliedTo.marks ?_ (marksLaunches_settTest.trans marksLaunches_countTeam)
  have hitem : itemOf (modItem (withoutOp s o) o.lid o.idx done) o.lid o.idx = some (done x) := by
    rw [itemOf_modItem, itemOf_withoutOp, hx]
    rfl
  refine ⟨?_, ?_, fun k hk => (ctx_setSat_other (s := withoutOp s o) r.2 hk :), (ctx_setSat_same (s := withoutOp s o) o.ctx r.2 :),
    ⟨less l, tget_tput_same _ _ _, rfl⟩, ?_⟩
  · unfold v
    rw [hv]
    rfl
  · unfold v
    rw [hv]
    rfl
  · rw [← hitem]
    unfold v
    rw [hv]
    rfl

end

end

/-- Settles O23: the operations leave by `sendSett`; a pop that arrives takes the best item, and an operation on an item changes
it, its launch's residual and SAT. -/
theorem settPopsAndItems : Obligations.SettPopsAndItems := by
  unfold Obligations.SettPopsAndItems
  refine ⟨fun m s l hm hl hg => ?_, fun s o l st h => ?_, fun s o l x hdue hkind hl hx => ?_⟩
  · intro c lid i op
    refine ⟨fun poll hw hroom => ?_, fun hi => ⟨fun add => ?_, fun hheld => ?_⟩⟩
    · have hdie : settDie s c = if modeDet l.mode then l.sdie0 + s.seenDie c % max 1 l.sdies else dieOf c := by
        rw [settDie, hl]
      rw [← hdie]
      cases poll
      · exact opPop_issues false hm hl hg hw hroom
      · exact opPop_issues true hm hl hg hw hroom
    · cases add
      · exact opItem_issues (kind := 1) hm hl hg hi nofun
      · exact opItem_issues (kind := 0) hm hl hg hi nofun
    · exact opItem_issues (kind := 2) hm hl hg hi fun _ => hheld
  · intro answered
    rw [settPopAnswer_of_due h.due, settArrive_pop h.due h.kind]
    refine ⟨fun i x hend htakes => ?_, fun hend hnone => ⟨fun hpoll => ?_, fun hpop => ?_⟩, fun hend => ?_⟩
    · obtain ⟨y, hbest⟩ := bestItem_of_takes htakes
      obtain ⟨n, hserves⟩ := popArrive_serves h fun hpoll => by simp [hbest] at hpoll
      obtain ⟨hanswered, hown, ⟨st', hst, hwaits, hitem, hothers⟩, hidle⟩ := popServed_takes h htakes.1
      refine ⟨_, st', congrArg Host.Outcome.next ?_, hanswered, hown, hst, hwaits, hitem, hothers⟩
      rw [hserves, popWaiting_first h, if_neg (not_not_intro hend), hbest]
      exact hidle n
    · obtain ⟨hanswered, hctxs, -⟩ := sendValue_answers (s := s) (u := withoutOp s o) (o := o) (v := 0xFFFFFFFE) rfl
        fun _ _ => rfl
      exact ⟨_, congrArg Host.Outcome.next (popArrive_polls h hpoll hend (bestItem_none hnone)), hanswered, hctxs⟩
    · obtain ⟨n, hserves⟩ := popArrive_serves h fun hpoll => by omega
      refine ⟨popWaiting s o st, congrArg Host.Outcome.next ?_, rfl, rfl, ?_⟩
      · rw [hserves, popWaiting_first h, if_neg (not_not_intro hend), bestItem_none hnone]
        have hfind : [popWait o].find? (fun v => v.poll) = none := by simp [popWait, hpop]
        dsimp only
        rw [hfind]
      · rw [popWaiting, State.setSett, tget_tput_same, popWait, hpop]
        rfl
    · obtain ⟨n, hserves⟩ := popArrive_serves h fun hpoll => hend hpoll.2.1
      obtain ⟨hanswered, hctxs, hidle⟩ := popServed_answers h (answer := 1) nofun
      refine ⟨_, congrArg Host.Outcome.next ?_, hanswered, hctxs⟩
      rw [hserves, popWaiting_first h, if_pos hend]
      exact hidle n
  · intro sum lim r sat
    rw [settPopAnswer_of_due hdue]
    have hcases : o.kind = 0 ∨ o.kind = 1 ∨ o.kind = 2 := by omega
    rcases hcases with hk | hk | hk
    · obtain ⟨l', hall⟩ := (settArrive_add hdue hk hl hx).concludes (p := sat) (by simp [sat, hk, sum, lim])
      refine ⟨_, l', rfl, ?_⟩
      rw [if_neg (by omega), if_pos hk]
      exact hall
    · obtain ⟨l', hall⟩ := (settArrive_set hdue hk hl hx).concludes (p := sat) (by simp [sat, hk])
      refine ⟨_, l', rfl, ?_⟩
      rw [if_neg (by omega), if_neg (by omega), if_pos hk]
      exact hall
    · obtain ⟨l', hall⟩ := (settArrive_done hdue hk hl hx).concludes (p := sat) (by simp [sat, hk, r])
      refine ⟨_, l', rfl, ?_⟩
      rw [if_pos hk, if_neg (by omega), if_neg (by omega)]
      exact hall

end Sys2Proof.Machine
end

section
/-! SUPPORT. What a call that ends, a context that is withdrawn, and a change to each of many contexts leave (R180, R219, R227,
R370, R371), for O52 to O54. -/

namespace Sys2Proof.Machine

section
variable {s : State}

/-! ### A change to each of many contexts -/

theorem ctx_foldl_modCtx {f : Ctx → Ctx} (hf : ∀ x, f (f x) = f x) (l : List Nat) (k : Nat) :
    (l.foldl (fun t c => t.modCtx c f) s).ctx k = if k ∈ l then f (s.ctx k) else s.ctx k := by
  induction l generalizing s with
  | nil => rfl
  | cons c l ih =>
    rw [List.foldl_cons, ih, ctx_modCtx]
    by_cases hc : k = c
    · subst hc
      simp [hf]
    · simp [hc]

theorem foldl_modCtx_eq (f : Ctx → Ctx) (l : List Nat) :
    ∃ ctxs, l.foldl (fun (t : State) c => t.modCtx c f) s = { s with ctxs := ctxs } := by
  induction l generalizing s with
  | nil => exact ⟨_, rfl⟩
  | cons c l ih =>
    obtain ⟨ctxs, h⟩ := ih (s := s.modCtx c f)
    exact ⟨ctxs, h⟩

/-! ### Launches -/

theorem modLaunch_eq (s : State) (lid : Nat) (f : Launch → Launch) :
    ∃ launches, s.modLaunch lid f = { s with tm := { s.tm with launches := launches } } := by
  unfold State.modLaunch
  split
  · exact ⟨_, rfl⟩
  · exact ⟨_, rfl⟩

theorem tget_modLaunch (s : State) (lid k : Nat) (f : Launch → Launch) : tget (s.modLaunch lid f).tm.launches k =
    if k = lid then (tget s.tm.launches lid).map f else tget s.tm.launches k := by
  unfold State.modLaunch
  split
  next l hl => exact (tget_tput _ _ _ _).trans (by rw [hl]; rfl)
  next hl =>
    split
    next hk => rw [hk, hl]; rfl
    next => rfl

theorem marksLaunches.setts {t : State} (h : marksLaunches s t) : t.tm.setts = s.tm.setts := by rw [h.1]

/-- A launch whose marks change is there still. -/
theorem marksLaunches.launch {t : State} {k : Nat} {l : Launch} (h : marksLaunches s t) (hl : tget s.tm.launches k = some l) :
    ∃ l', tget t.tm.launches k = some l' ∧ l'.unmarked = l.unmarked := by
  have hmark := h.2.2 k
  rw [hl] at hmark
  exact Option.map_eq_some_iff.mp hmark

/-! ### A call ends, or is asked to (R370, R371) -/

/-- R370. The ports of a context whose call ends. -/
def callEnded (st : Nat) (row : W64) (x : Ctx) : Ctx :=
  let y := setRes (setRes x 0x280 (BitVec.ofNat 2048 st)) 0x281 (ofW row)
  if st = 2 then { y with callEnd := none } else y

theorem callEnded_eq (st : Nat) (row : W64) (x : Ctx) :
    callEnded st row x = { x with res := (callEnded st row x).res, callEnd := (callEnded st row x).callEnd } := by
  unfold callEnded
  dsimp only
  split <;> rfl

theorem endCall_eq (s : State) (core : Nat) (k : Call) (st : Nat) (row : W64) : ∃ arrivals former agenda nextId,
    endCall s core k st row = State.modCtx { s with
      cr := { s.cr with calls := tdel core s.cr.calls }, ms := { s.ms with arrivals := arrivals, former := former }
      agenda := agenda, nextId := nextId } k.ctx (callEnded st row) := by
  unfold endCall
  dsimp only
  split
  · exact ⟨_, _, _, _, rfl⟩
  · exact ⟨_, _, _, _, rfl⟩

/-- R371, R372. A context whose call has been stopped: it is to be issued again where the context is pre-empted. -/
def reissued (k : Call) (x : Ctx) : Ctx :=
  if x.preempt || x.run == .preempted then
    { x with reissue := some { rout := k.rout, slot := k.slot, wb := k.wb, num := k.num, ready := false } }
  else x

theorem stopAsked_eq (s : State) (core : Nat) (k : Call) : ∃ arrivals former agenda nextId,
    stopAsked s core k = State.modCtx { s with
      cr := { s.cr with calls := tdel core s.cr.calls }, ms := { s.ms with arrivals := arrivals, former := former }
      agenda := agenda, nextId := nextId } k.ctx fun x => reissued k (callEnded 2 (progressWord k) x) := by
  obtain ⟨arrivals, former, agenda, nextId, hend⟩ := endCall_eq s core k 2 (progressWord k)
  refine ⟨arrivals, former, agenda, nextId, ?_⟩
  rw [stopAsked, stopNow, hend]
  exact modCtx_modCtx _ _ _ _

section
variable {c : Nat} {k : Call}

theorem stopCall_calm (h : ∀ k, tget s.cr.calls (coreOf c) = some k → k.ctx ≠ c) : stopCall s c = s := by
  unfold stopCall
  split
  · rfl
  next k hk => exact if_pos (h k hk)

theorem stopCall_begun (h : tget s.cr.calls (coreOf c) = some k) (hc : k.ctx = c) (hb : k.begun = true) :
    stopCall s c = { s with cr := { s.cr with calls := tput (coreOf c) { k with stop := true } s.cr.calls } } := by
  unfold stopCall
  rw [h]
  exact (if_neg (not_not_intro hc)).trans (if_pos hb)

theorem stopCall_early (h : tget s.cr.calls (coreOf c) = some k) (hc : k.ctx = c) (hb : k.begun = false) :
    stopCall s c = stopAsked s (coreOf c) k := by
  unfold stopCall
  rw [h]
  exact (if_neg (not_not_intro hc)).trans (if_neg (by simp [hb]))

/-- R371. A stop of a call, by the state of the call. -/
theorem stopCall_cases (s : State) (c : Nat) :
    stopCall s c = s ∨
      (∃ k, tget s.cr.calls (coreOf c) = some k ∧ k.ctx = c ∧
        stopCall s c = { s with cr := { s.cr with calls := tput (coreOf c) { k with stop := true } s.cr.calls } }) ∨
      ∃ k, tget s.cr.calls (coreOf c) = some k ∧ k.ctx = c ∧ stopCall s c = stopAsked s (coreOf c) k := by
  cases h : tget s.cr.calls (coreOf c) with
  | none => exact .inl (stopCall_calm (by simp [h]))
  | some k =>
    by_cases hc : k.ctx = c
    · by_cases hb : k.begun = true
      · exact .inr (.inl ⟨k, rfl, hc, stopCall_begun h hc hb⟩)
      · exact .inr (.inr ⟨k, rfl, hc, stopCall_early h hc (Bool.eq_false_iff.mpr hb)⟩)
    · exact .inl (stopCall_calm fun k' hk' => by rw [h] at hk'; exact Option.some.inj hk' ▸ hc)

end

/-- R371. What a stop of a call may change: the call itself, and with a call that stops at once, of its context the ports and
what is to be issued again, and what is on its way to a register. -/
theorem stopCall_eq (s : State) (c : Nat) : ∃ calls arrivals former agenda nextId ctxs,
    stopCall s c = { s with
      cr := { s.cr with calls := calls }, ms := { s.ms with arrivals := arrivals, former := former }
      agenda := agenda, nextId := nextId, ctxs := ctxs } := by
  rcases stopCall_cases s c with h | ⟨k, -, -, h⟩ | ⟨k, -, -, h⟩
  · exact ⟨_, _, _, _, _, _, h⟩
  · exact ⟨_, _, _, _, _, _, h⟩
  · obtain ⟨arrivals, former, agenda, nextId, hasked⟩ := stopAsked_eq s (coreOf c) k
    exact ⟨_, _, _, _, _, _, h.trans hasked⟩

theorem stopCall_tm (s : State) (c : Nat) : (stopCall s c).tm = s.tm := by
  obtain ⟨_, _, _, _, _, _, h⟩ := stopCall_eq s c
  rw [h]

theorem reissued_eq (k : Call) (x : Ctx) : reissued k x = { x with reissue := (reissued k x).reissue } := by
  unfold reissued
  split <;> rfl

/-- R371. A stop of a call changes no other context. -/
theorem ctx_stopCall_other {c k : Nat} (h : k ≠ c) : (stopCall s c).ctx k = s.ctx k := by
  rcases stopCall_cases s c with hs | ⟨q, -, -, hs⟩ | ⟨q, -, hq, hs⟩
  · rw [hs]
  · rw [hs]
    rfl
  · obtain ⟨arrivals, former, agenda, nextId, hasked⟩ := stopAsked_eq s (coreOf c) q
    rw [hs, hasked, hq]
    exact ctx_modCtx_other _ _ _ _ h

/-- R371. Of its own it changes the ports, the interval of the call, and what is to be issued again. -/
theorem ctx_stopCall_same (s : State) (c : Nat) : ∃ res callEnd reissue,
    (stopCall s c).ctx c = { s.ctx c with res := res, callEnd := callEnd, reissue := reissue } := by
  rcases stopCall_cases s c with hs | ⟨q, -, -, hs⟩ | ⟨q, -, hq, hs⟩
  · rw [hs]
    exact ⟨_, _, _, rfl⟩
  · rw [hs]
    exact ⟨_, _, _, rfl⟩
  · obtain ⟨arrivals, former, agenda, nextId, hasked⟩ := stopAsked_eq s (coreOf c) q
    rw [hs, hasked, hq, ctx_modCtx_same, reissued_eq, callEnded_eq]
    exact ⟨_, _, _, rfl⟩

theorem run_stopCall (s : State) (c k : Nat) : ((stopCall s c).ctx k).run = (s.ctx k).run := by
  by_cases h : k = c
  · subst h
    obtain ⟨_, _, _, hctx⟩ := ctx_stopCall_same s k
    rw [hctx]
  · rw [ctx_stopCall_other h]

end

end Sys2Proof.Machine
end

section
/-! SUPPORT. Setts that are filled and served, and the boundaries of periods and steps (R184, R186, R190, R206, R227, R229), for
O54. -/

namespace Sys2Proof.Machine

section
variable {s : State}

/-! ### The Setts of a launch are filled (R184) -/

theorem touchPieces_of_noHolds (h : s.ms.holds = []) (ps : List (Nat × Nat)) : touchPieces s ps = some s := by
  unfold touchPieces
  induction ps with
  | nil => rfl
  | cons p ps ih => rw [List.foldl_cons, Option.bind_some, touch_of_noHolds h]; exact ih

/-- R184. The Setts of n dies from `die` on, as they are filled. -/
def settsFilled (s : State) (lid die n : Nat) (g : Nat → Sett) : State :=
  (List.range n).foldl (fun t j => t.setSett (settKey lid (die + j)) (g j)) s

theorem settsFilled_succ (lid die n : Nat) (g : Nat → Sett) :
    settsFilled s lid die (n + 1) g = (settsFilled s lid die n g).setSett (settKey lid (die + n)) (g n) := by
  rw [settsFilled, List.range_succ, List.foldl_append]
  rfl

theorem settsFilled_eq (lid die n : Nat) (g : Nat → Sett) :
    ∃ setts, settsFilled s lid die n g = { s with tm := { s.tm with setts := setts } } := by
  induction n with
  | zero => exact ⟨_, rfl⟩
  | succ n ih =>
    obtain ⟨setts, h⟩ := ih
    exact ⟨_, by rw [settsFilled_succ, h]; rfl⟩

theorem tget_settsFilled {lid die n j : Nat} (g : Nat → Sett) (hj : j < n) :
    tget (settsFilled s lid die n g).tm.setts (settKey lid (die + j)) = some (g j) := by
  induction n with
  | zero => omega
  | succ n ih =>
    rw [settsFilled_succ, State.setSett, tget_tput]
    split
    next h =>
      have hn : j = n := by unfold settKey at h; omega
      rw [hn]
    next h => exact ih (by by_contra; exact h (by rw [show j = n by omega]))

/-- R184. The gains of a launch, as its GAINS stand in memory. -/
def gainsOf (s : State) (l : Launch) (ps : List (Nat × Nat)) : List Int :=
  (List.range l.nitems).map fun i => sextInt (bytesNat (((readPieces s ps).drop (8 * i)).take 8)) 64

theorem fillSetts_fills {lid : Nat} {l : Launch} {ps : List (Nat × Nat)} (hl : tget s.tm.launches lid = some l)
    (hf : l.filled = false) (hh : s.ms.holds = [])
    (hps : taskPieces s l.ranges l.comp false [kAtomic, kConst] (cutRange (l.word 7) (8 * l.nitems)) = .ok ps) :
    let u := fillSetts s lid
    (∃ l', tget u.tm.launches lid = some l' ∧ l'.filled = true) ∧ u.ms = s.ms ∧
      ∀ j, j < l.sdies → tget u.tm.setts (settKey lid (l.sdie0 + j)) =
        some { lid := lid, items := settItems l (gainsOf s l ps) j, waits := [] } := by
  let g (j : Nat) : Sett := { lid := lid, items := settItems l (gainsOf s l ps) j, waits := [] }
  let v := settsFilled s lid l.sdie0 l.sdies g
  let fill (k : Launch) : Launch :=
    { k with filled := true, residual := (gainsOf s l ps).foldl (fun n g => n + g.natAbs * 2 ^ 32) 0 }
  let w := settTest (v.modLaunch lid fill) lid true
  have hfill : ∃ f : Launch → Launch, (∀ x, (f x).filled = x.filled) ∧ fillSetts s lid = w.modLaunch lid f := by
    refine ⟨fun l => { l with
      markSetts := w.tm.setts.filter fun e => e.2.lid == lid
      markResidual := ((tget w.tm.launches lid).map (·.residual)).getD 0
      markEnd := ((tget w.tm.launches lid).map (·.endCode)).getD 0 }, fun _ => rfl, ?_⟩
    unfold fillSetts
    rw [hl]
    dsimp only
    rw [if_neg (by simp [hf]), hps]
    dsimp only
    rw [touchPieces_of_noHolds hh]
    dsimp only
    rfl
  obtain ⟨f, hff, hu⟩ := hfill
  obtain ⟨setts, hv⟩ := settsFilled_eq (s := s) lid l.sdie0 l.sdies g
  change v = _ at hv
  obtain ⟨launches, hmod⟩ := modLaunch_eq v lid fill
  obtain ⟨launches', hmod'⟩ := modLaunch_eq w lid f
  have hmarks : marksLaunches (v.modLaunch lid fill) w := marksLaunches_settTest
  have hvl : tget (v.modLaunch lid fill).tm.launches lid = some (fill l) := by
    rw [tget_modLaunch, if_pos rfl, show v.tm.launches = s.tm.launches by rw [hv], hl]
    rfl
  obtain ⟨l', hl', heq⟩ := hmarks.launch hvl
  intro u
  have hu' : u = w.modLaunch lid f := hu
  refine ⟨⟨f l', ?_, ?_⟩, ?_, fun j hj => ?_⟩
  · rw [hu', tget_modLaunch, if_pos rfl, hl']
    rfl
  · rw [hff]
    exact (congrArg Launch.filled heq :)
  · rw [hu', hmod']
    calc w.ms = (v.modLaunch lid fill).ms := hmarks.ms
      _ = v.ms := by rw [hmod]
      _ = s.ms := by rw [hv]
  · rw [hu', hmod']
    calc tget w.tm.setts _ = tget (v.modLaunch lid fill).tm.setts _ := by rw [hmarks.setts]
      _ = tget v.tm.setts _ := by rw [hmod]
      _ = some (g j) := tget_settsFilled g hj

/-! ### A pop that waits, and items in transit (R186, R190) -/

/-- R186. A pop that waits alone takes the best item. -/
theorem serveSett_takes {key : Nat} {st : Sett} {l : Launch} {w : PopWait} {i : Nat} {x : Item}
    (hsett : tget s.tm.setts key = some st) (hl : tget s.tm.launches (key / 16) = some l) (hend : l.endCode = 0)
    (hmode : modeDet l.mode = false) (hrep : replaying s (key / 16) (key % 16) = false) (hlid : st.lid = key / 16)
    (hwaits : st.waits = [w]) (htakes : popTakes l.floor st.items i x) :
    let t := serveSett s key
    (∃ st', tget t.tm.setts key = some st' ∧ st'.waits = [] ∧ tget st'.items i = some { x with runner := some w.ctx }) ∧
      (t.ctx w.ctx).held = (s.ctx w.ctx).held ++ [i] ∧
      t.ms.arrivals = s.ms.arrivals ++
        [{ id := s.nextId, ctx := w.ctx, dest := w.dest, val := some (ofW (BitVec.ofNat 64 i)), addr := 0, loc := 0 }] := by
  let u := s.setSett key { st with waits := [] }
  have hrep' : replaying u (key / 16) (key % 16) = false := hrep
  have hu : tget u.tm.setts key = some { st with waits := [] } := tget_tput_same _ _ _
  obtain ⟨y, hbest⟩ := bestItem_of_takes htakes
  obtain ⟨n, delays, -, hsend⟩ := sendValue_eq (takenBy u key w i) w.ctx w.dest (some (ofW (BitVec.ofNat 64 i))) 0 0
  obtain ⟨⟨st', hst', hw', hx', -⟩, hidle⟩ := takenBy_serves (w := w)
    (t := sendValue (takenBy u key w i) w.ctx w.dest (some (ofW (BitVec.ofNat 64 i))) 0 0) (by rw [hsend]) hu hlid rfl htakes.1 hrep'
  have hserve : serveSett s key = sendValue (takenBy u key w i) w.ctx w.dest (some (ofW (BitVec.ofNat 64 i))) 0 0 := by
    refine (servePops_first _ hsett hl hwaits hrep).trans ?_
    rw [if_neg (not_not_intro hend), hbest]
    dsimp only
    rw [answerPop_takes i (settRecord_none hrep') (lidDet_of_mode (s := u) hl hmode)]
    exact hidle _
  intro t
  have ht : t = _ := hserve
  rw [ht]
  refine ⟨⟨st', hst', hw', hx'⟩, ?_, ?_⟩
  · rw [hsend]
    exact congrArg Ctx.held ((ctx_takenBy (s := u) (key := key) (w := w) i w.ctx).trans (if_pos rfl))
  · rw [hsend]
    rfl

/-- R190. Items in transit as they are inserted. -/
theorem insertItems_eq {lid : Nat} {tr : Transit} {r : Sett} (htr : s.tm.transits.find? (fun t => t.lid == lid) = some tr)
    (hr : tget s.tm.setts (settKey lid tr.receiver) = some r) :
    insertItems s lid = serveSett (settTest (State.setSett { s with tm := { s.tm with transits := s.tm.transits.erase tr } }
      (settKey lid tr.receiver) { r with
        items := tr.items.foldl (fun m (e : Nat × Item) => tput e.1 { e.2 with transit := false } m) r.items }) lid false)
      (settKey lid tr.receiver) := by
  unfold insertItems
  rw [htr]
  dsimp only
  rw [hr]

/-! ### The boundary of a period (R206) -/

/-- R206. An overdraft carries over. -/
theorem newPeriod_budgets (s : State) : ∀ b ∈ (newPeriod s).tt.budgets, ∃ o ∈ s.tt.budgets, o.left < 0 ∧
    b = { o with left := allot (newPeriod s) o.die o.cls o.res + o.left } := by
  intro b hb
  obtain ⟨o, ho, rfl⟩ := List.mem_map.mp hb
  obtain ⟨hin, hneg⟩ := List.mem_filter.mp ho
  exact ⟨o, hin, of_decide_eq_true hneg, rfl⟩

end

end Sys2Proof.Machine
end

section
/-! SUPPORT. The boundary of a step and its abandonment (R227 to R229), for O54. -/

namespace Sys2Proof.Machine

section
variable {s : State}

/-! ### The boundary of a step (R227, R410) -/

theorem drainLaunch_of_noHolds (h : s.ms.holds = []) (lid cause : Nat) : drainLaunch s lid cause = s := by
  rw [drainLaunch, h]
  rfl

theorem takeCkpts_none {lid : Nat} {saves : List Saved} (h : s.ho.waiting = []) :
    ∃ ho, takeCkpts s lid saves = { s with ho := ho } := by
  unfold takeCkpts ckptsAsked
  rw [h]
  dsimp only
  split
  · exact ⟨_, rfl⟩
  · exact ⟨_, rfl⟩

theorem logEvent_eq (s : State) (lid die kind : Nat) (site : W64) (es : List W64) :
    ∃ logs, logEvent s lid die kind site es = { s with tm := { s.tm with logs := logs } } := by
  unfold logEvent
  split
  · exact ⟨_, rfl⟩
  · exact ⟨_, rfl⟩

theorem foldl_logs {α : Type} {f : State → α → State}
    (hf : ∀ t a, ∃ logs, f t a = { t with tm := { t.tm with logs := logs } }) (l : List α) :
    ∃ logs, l.foldl f s = { s with tm := { s.tm with logs := logs } } := by
  induction l generalizing s with
  | nil => exact ⟨_, rfl⟩
  | cons a l ih =>
    obtain ⟨logs, h⟩ := hf s a
    obtain ⟨logs', h'⟩ := ih (s := f s a)
    refine ⟨logs', h'.trans ?_⟩
    rw [h]

theorem stepLogs_eq (s : State) (lid n : Nat) : ∃ logs, stepLogs s lid n = { s with tm := { s.tm with logs := logs } } := by
  obtain ⟨logs, h⟩ := foldl_logs (s := s) (fun t d => logEvent_eq t lid d 0x06 (BitVec.ofNat 64 n) [])
    ((s.tm.logs.filter fun g => g.lid == lid).map (·.die))
  unfold stepLogs
  dsimp only
  rw [h]
  exact ⟨_, rfl⟩

theorem stepMarks_eq (s : State) (lid : Nat) : ∃ lines launches, stepMarks s lid = { s with
    ms := { s.ms with lines := lines }, tm := { s.tm with launches := launches } } := by
  obtain ⟨launches, h⟩ := modLaunch_eq { s with ms := { s.ms with lines := s.ms.lines.map fun (e : Nat × Line) =>
    (e.1, { e.2 with
      written := sdel lid e.2.written
      startNames := if e.2.written.contains lid ∨ (tget e.2.startNames lid).isSome
        then tput lid (e.2.names.map fun (n : NameEnt) => n.name) e.2.startNames else e.2.startNames }) } } lid fun l => { l with
    journal := [], armed := true, noUndo := false, markSetts := s.tm.setts.filter fun e => e.2.lid == lid
    markTransits := s.tm.transits.filter fun t => t.lid == lid, markResidual := l.residual, markEnd := l.endCode }
  exact ⟨_, launches, h⟩

theorem stepMarks_launch {lid : Nat} {l : Launch} (hl : tget s.tm.launches lid = some l) :
    ∃ l', tget (stepMarks s lid).tm.launches lid = some l' ∧ l'.steps = l.steps ∧ l'.abandons = l.abandons := by
  unfold stepMarks
  refine ⟨_, (tget_modLaunch _ _ _ _).trans ((if_pos rfl).trans ((congrArg (Option.map _) hl))), rfl, rfl⟩

theorem passStep_twice (x : Ctx) : passStep (passStep x) = passStep x := by
  unfold passStep
  split
  · rfl
  · rfl

/-- R227. Of the launch at a boundary, and of the machine, what remains as it is until its members go on. -/
theorem boundary_eq {l : Launch} (hl : tget s.tm.launches l.lid = some l) (hh : s.ms.holds = []) (hw : s.ho.waiting = []) :
    ∃ v l', boundary s l = passAll v l.lid ∧ v.ctxs = s.ctxs ∧ v.tm.boards = s.tm.boards ∧ v.ms.mem = s.ms.mem ∧
      tget v.tm.launches l.lid = some l' ∧ l'.steps = l.steps + 1 ∧ l'.abandons = 0 := by
  let count (k : Launch) : Launch := { k with steps := k.steps + 1, abandons := 0 }
  let s1 := s.modLaunch l.lid count
  obtain ⟨launches, h1⟩ := modLaunch_eq s l.lid count
  have hl1 : tget s1.tm.launches l.lid = some (count l) := by
    rw [tget_modLaunch, if_pos rfl, hl]
    rfl
  let saves := stepSaves s1 l.lid
  obtain ⟨ho, h2⟩ := takeCkpts_none (s := s1) (lid := l.lid) (saves := saves) (by unfold s1; rw [h1]; exact hw)
  let s2 := takeCkpts s1 l.lid saves
  have hl2 : tget s2.tm.launches l.lid = some (count l) := by
    unfold s2
    rw [h2]
    exact hl1
  have hb : boundary s l = passAll (if modeDet l.mode then
      let v := stepMarks (stepLogs s2 l.lid (l.steps + 1)) l.lid
      { v with tm := { v.tm with stepAreas := (v.tm.stepAreas.filter fun v => v.lid != l.lid) ++ saves } } else s2) l.lid := by
    unfold boundary
    rw [drainLaunch_of_noHolds hh]
  have hkeep : s2.ctxs = s.ctxs ∧ s2.tm.boards = s.tm.boards ∧ s2.ms.mem = s.ms.mem := by
    unfold s2 s1
    rw [h2]
    unfold s1
    rw [h1]
    exact ⟨rfl, rfl, rfl⟩
  obtain ⟨hctxs, hboards, hmem⟩ := hkeep
  rw [hb]
  split
  · obtain ⟨logs, h3⟩ := stepLogs_eq s2 l.lid (l.steps + 1)
    have hl3 : tget (stepLogs s2 l.lid (l.steps + 1)).tm.launches l.lid = some (count l) := by rw [h3]; exact hl2
    obtain ⟨l', hl', hsteps, habandons⟩ := stepMarks_launch hl3
    obtain ⟨lines, launches', h4⟩ := stepMarks_eq (stepLogs s2 l.lid (l.steps + 1)) l.lid
    refine ⟨_, l', rfl, ?_, ?_, ?_, hl', hsteps, habandons⟩
    · rw [h4, h3]
      exact hctxs
    · rw [h4, h3]
      exact hboards
    · rw [h4, h3]
      exact hmem
  · exact ⟨s2, count l, rfl, hctxs, hboards, hmem, hl2, rfl, rfl⟩

/-- R227. The members of a launch's teams. -/
theorem passAll_ctx (s : State) (lid k : Nat) : (passAll s lid).ctx k =
    if k ∈ (boardsOf s lid).flatMap fun e => membersOf e.1 e.2 then passStep (s.ctx k) else s.ctx k :=
  ctx_foldl_modCtx passStep_twice _ _

theorem passAll_keeps (s : State) (lid : Nat) : (passAll s lid).ms = s.ms ∧ (passAll s lid).tm.launches = s.tm.launches := by
  obtain ⟨ctxs, h⟩ := foldl_modCtx_eq (s := s) passStep ((boardsOf s lid).flatMap fun e => membersOf e.1 e.2)
  unfold passAll
  rw [h]
  exact ⟨rfl, rfl⟩

/-! ### The tasks of a launch stop (R229) -/

/-- A Board word with SWAP clear. -/
def noSwap (b : BitVec 512) : BitVec 512 := b &&& ~~~((1 : BitVec 512) <<< 62)

theorem getLsbD_noSwap (b : BitVec 512) {i : Nat} (h : i ≠ 62) : (noSwap b).getLsbD i = b.getLsbD i := by
  rw [noSwap, BitVec.getLsbD_and, BitVec.getLsbD_not, BitVec.getLsbD_shiftLeft]
  by_cases hi : i < 512
  · simp [hi]
    intro _
    omega
  · rw [BitVec.getLsbD_of_ge _ _ (by omega)]
    rfl

theorem bV_noSwap (b : BitVec 512) : bV (noSwap b) = bV b := getLsbD_noSwap b (by decide)

theorem bword_noSwap (b : BitVec 512) {k : Nat} (h : 0 < k) : bword (noSwap b) k = bword b k := by
  have hshift : noSwap b >>> (64 * k) = b >>> (64 * k) := by
    apply BitVec.eq_of_getLsbD_eq
    intro i hi
    rw [BitVec.getLsbD_ushiftRight, BitVec.getLsbD_ushiftRight]
    exact getLsbD_noSwap b (by omega)
  rw [bword, bword, hshift]

theorem bLid_noSwap (b : BitVec 512) : bLid (noSwap b) = bLid b := by rw [bLid, bLid, bword_noSwap b (by decide)]

theorem membersOf_noSwap (key : Nat) (b : BitVec 512) : membersOf key (noSwap b) = membersOf key b := by
  have hmember : isMember (noSwap b) = isMember b := by
    funext i
    rw [isMember, isMember, bMemb, bMemb, bword_noSwap b (by decide)]
  rw [membersOf, membersOf, hmember]

/-- R229. What of a launch that stops being placed goes: its places, and SWAP of its Boards. -/
theorem stopPlacing_eq (s : State) (lid : Nat) : ∃ agenda placing reserved waiting leaving,
    stopPlacing s lid = { s with agenda := agenda, tm := { s.tm with
      placing := placing, reserved := reserved, waiting := waiting, leaving := leaving
      boards := s.tm.boards.map fun (e : Nat × BitVec 512) =>
        (e.1, if ((boardsOf s lid).map (·.1)).contains e.1 then noSwap e.2 else e.2) } } := by
  have hcancel (l : List (Nat × BitVec 512)) (t : State) :
      ∃ agenda, l.foldl (fun t e => (t.cancel .boardSlotWrite e.1).cancel .swapIn e.1) t = { t with agenda := agenda } := by
    induction l generalizing t with
    | nil => exact ⟨_, rfl⟩
    | cons e l ih =>
      obtain ⟨agenda, h⟩ := ih ((t.cancel .boardSlotWrite e.1).cancel .swapIn e.1)
      exact ⟨agenda, h⟩
  obtain ⟨agenda, h⟩ := hcancel (s.tm.placing.filter fun e => bLid e.2 == lid) s
  unfold stopPlacing
  dsimp only
  rw [h]
  exact ⟨_, _, _, _, _, rfl⟩

theorem mem_boardsOf {lid : Nat} {e : Nat × BitVec 512} : e ∈ boardsOf s lid ↔ e ∈ s.tm.boards ∧ bV e.2 = true ∧ bLid e.2 = lid := by
  simp [boardsOf]

/-- R229. A team's members stay those of its launch. -/
theorem mem_boardsOf_stopPlacing {lid : Nat} {e : Nat × BitVec 512} (h : e ∈ boardsOf s lid) :
    (e.1, noSwap e.2) ∈ boardsOf (stopPlacing s lid) lid := by
  obtain ⟨agenda, placing, reserved, waiting, leaving, hs⟩ := stopPlacing_eq s lid
  obtain ⟨hin, hv, hlid⟩ := mem_boardsOf.mp h
  refine mem_boardsOf.mpr ⟨?_, (bV_noSwap _).trans hv, (bLid_noSwap _).trans hlid⟩
  rw [hs]
  refine List.mem_map.mpr ⟨e, hin, ?_⟩
  rw [if_pos (List.contains_iff_mem.mpr (List.mem_map_of_mem h))]

/-- R229. One task stops. -/
def stoppedCtx (x : Ctx) : Ctx := { unhold x with run := .preempted, flights := [], replay := [], preempt := false, reissue := none }
def stopTask (t : State) (c : Nat) : State :=
  if (t.ctx c).run = .running ∨ (t.ctx c).run = .preempted then (withdraw (stopCall t c) c).modCtx c stoppedCtx else t

theorem stopTask_keeps (t : State) (c : Nat) :
    (stopTask t c).tm.launches = t.tm.launches ∧ (stopTask t c).ms.mem = t.ms.mem := by
  obtain ⟨_, _, _, _, _, _, h⟩ := stopCall_eq t c
  unfold stopTask
  split
  · rw [h]
    exact ⟨rfl, rfl⟩
  · exact ⟨rfl, rfl⟩

theorem stopTask_run (t : State) (c k : Nat) :
    ((stopTask t c).ctx k).run ≠ .running ↔ k = c ∨ (t.ctx k).run ≠ .running := by
  unfold stopTask
  split
  next h =>
    rw [ctx_modCtx]
    split
    next hk => simp [hk, stoppedCtx]
    next hk =>
      have hrun : ((withdraw (stopCall t c) c).ctx k).run = (t.ctx k).run := run_stopCall t c k
      simp [hk, hrun]
  next h =>
    constructor
    · exact .inr
    · rintro (rfl | hr)
      · exact fun hr => h (.inl hr)
      · exact hr

theorem stopTasks_run (l : List Nat) (t : State) (k : Nat) :
    ((l.foldl stopTask t).ctx k).run ≠ .running ↔ k ∈ l ∨ (t.ctx k).run ≠ .running := by
  induction l generalizing t with
  | nil => simp
  | cons c l ih => rw [List.foldl_cons, ih, stopTask_run, List.mem_cons, or_left_comm, or_assoc]

theorem stopTasks_stops {lid why : Nat} {l : Launch} (hl : tget s.tm.launches lid = some l) (hrun : mayRun l = true)
    (hdet : modeDet l.mode = true) :
    (∃ l', tget (stopTasks s lid why).tm.launches lid = some l' ∧ l'.aband = some why) ∧
      (stopTasks s lid why).ms.mem = s.ms.mem ∧
      ∀ e ∈ boardsOf s lid, ∀ c ∈ membersOf e.1 e.2, ((stopTasks s lid why).ctx c).run ≠ .running := by
  let ask (l : Launch) : Launch := { l with aband := some why }
  let v := s.modLaunch lid ask
  let u := stopPlacing v lid
  obtain ⟨launches, hv⟩ := modLaunch_eq s lid ask
  obtain ⟨_, _, _, _, _, hu⟩ := stopPlacing_eq v lid
  have hstop : stopTasks s lid why = ((boardsOf u lid).flatMap fun e => membersOf e.1 e.2).foldl stopTask u := by
    unfold stopTasks
    rw [hl]
    exact if_neg (by simp [hrun, hdet])
  have hkeep := foldl_keeps (g := fun t => (t.tm.launches, t.ms.mem)) (f := stopTask)
    (fun t c => Prod.ext (stopTask_keeps t c).1 (stopTask_keeps t c).2) ((boardsOf u lid).flatMap fun e => membersOf e.1 e.2) u
  obtain ⟨hlaunches, hmem⟩ := Prod.mk.inj hkeep
  rw [hstop]
  refine ⟨⟨ask l, ?_, rfl⟩, ?_, fun e he c hc => ?_⟩
  · rw [hlaunches]
    calc tget u.tm.launches lid = tget v.tm.launches lid := by unfold u; rw [hu]
      _ = _ := by rw [tget_modLaunch, if_pos rfl, hl]; rfl
  · rw [hmem]
    calc u.ms.mem = v.ms.mem := by unfold u; rw [hu]
      _ = _ := by unfold v; rw [hv]
  · refine (stopTasks_run _ _ _).mpr (.inl (List.mem_flatMap.mpr ⟨(e.1, noSwap e.2), ?_, ?_⟩))
    · refine mem_boardsOf_stopPlacing ?_
      unfold v
      rw [hv]
      exact he
    · rw [membersOf_noSwap]
      exact hc

/-! ### A step is abandoned (R229) -/

theorem undoPages_one {page : Nat} {bs : List Byte} (h : s.ms.failPorts = []) : ∃ failMem,
    undoPages s [(page, bs)] = { s with ms := { s.ms with mem := wrBytes (page * 4096) bs s.ms.mem, failMem := failMem } } := by
  have hport : ¬ portFailed s (page * 4096) = true := by simp [portFailed, h]
  exact ⟨_, if_neg hport⟩

theorem postNotice_eq (s : State) (kind subject word1 : Nat) : ∃ ho, postNotice s kind subject word1 = { s with ho := ho } := by
  unfold postNotice sendMsix
  dsimp only
  split
  · exact ⟨_, rfl⟩
  · exact ⟨_, rfl⟩

theorem bytesPut_wrBytes {m : Memory} {a : Nat} {bs : List Byte} (hm : memWf m = true) :
    bytesPut m (wrBytes a bs m) a bs.length fun k => bs.getD k 0 := by
  refine ⟨fun k hk => ?_, fun k hk => rdByte_wrBytes_other bs a k m hk⟩
  rw [rdByte_wrBytes_same bs a k m hm hk]
  exact (List.getD_eq_getElem _ _ hk).symm

/-- Bytes and launches, which teams that leave without being kept do not touch. -/
def memAndLaunches (s : State) : Memory × Tab Launch := (s.ms.mem, s.tm.launches)

theorem memAndLaunches_dropSlot (s : State) (key : Nat) : memAndLaunches (writeSlot s key 0) = memAndLaunches s := by
  have hv : ¬ bV 0 = true := by simp [bV]
  unfold writeSlot
  dsimp only
  rw [if_neg fun h => hv h.2.1]
  split
  · refine (foldl_keeps (g := memAndLaunches) ?_ _ _).trans (by simp only [memAndLaunches])
    exact fun _ _ => rfl
  · simp only [memAndLaunches]

theorem memAndLaunches_dropSaved (s : State) (v : Saved) : memAndLaunches (dropSaved s v) = memAndLaunches s :=
  foldl_keeps (g := memAndLaunches) (by intro _ e; exact foldl_keeps (g := memAndLaunches) (by intro _ _; rfl) e.2.held _)
    v.ctxs s

theorem memAndLaunches_dropTeams (s : State) (lid : Nat) : memAndLaunches (dropTeams s lid) = memAndLaunches s := by
  refine (foldl_keeps (g := memAndLaunches) memAndLaunches_dropSaved _ _).trans ?_
  refine foldl_keeps (g := memAndLaunches) (fun t e => ?_) _ _
  refine (memAndLaunches_dropSlot _ _).trans ?_
  exact foldl_keeps (g := memAndLaunches) (f := freeBanks) (fun _ _ => rfl) _ _

theorem memAndLaunches_respond (s : State) (q : Request) (status sub res0 : Nat) (body : List Byte) :
    memAndLaunches (respond s q status sub res0 body) = memAndLaunches s := by
  unfold respond
  split
  · exact congrArg₂ Prod.mk (congrArg MemSt.mem (sendMsix_ms _ _)) (congrArg Teams.launches (sendMsix_tm _ _))
  · rfl
  · unfold answerCtx
    dsimp only
    split
    all_goals rfl
  · split
    all_goals rfl

theorem memAndLaunches_answerAbandon (s : State) (lid : Nat) : memAndLaunches (answerAbandon s lid) = memAndLaunches s :=
  foldl_keeps (g := memAndLaunches) (fun _ _ => memAndLaunches_respond _ _ _ _ _ _) _ _

/-- R229. The launch stands at the boundary again. -/
theorem restart_launch {l k : Launch} (n : Nat) (hk : tget s.tm.launches l.lid = some k) :
    (∃ l', tget (restart s l n).tm.launches l.lid = some l' ∧ l'.abandons = n ∧ l'.aband = none ∧ l'.journal = []) ∧
      (restart s l n).ms = s.ms := by
  unfold restart
  refine ⟨⟨_, (tget_modLaunch _ _ _ _).trans ((if_pos rfl).trans (congrArg (Option.map _) hk)), ?_⟩, modLaunch_ms _ _ _⟩
  dsimp only
  split
  all_goals exact ⟨rfl, rfl, rfl⟩

theorem abandon_undoes {l : Launch} {why page : Nat} {bs : List Byte} (hl : tget s.tm.launches l.lid = some l)
    (hn : l.abandons < 7) (hundo : l.noUndo = false) (hj : l.journal = [(page, bs)]) (hports : s.ms.failPorts = [])
    (hmem : memWf s.ms.mem = true) :
    ∃ u l', abandon s l why = endHomeless (placementRun u) ∧ tget u.tm.launches l.lid = some l' ∧
      l'.abandons = l.abandons + 1 ∧ l'.aband = none ∧ l'.journal = [] ∧
      bytesPut s.ms.mem u.ms.mem (page * 4096) bs.length (fun k => bs.getD k 0) := by
  let v := postNotice s 2 l.lid l.steps
  obtain ⟨ho, hv⟩ := postNotice_eq s 2 l.lid l.steps
  let ms := (boardsOf v l.lid).flatMap fun e => membersOf e.1 e.2
  let away := (v.tm.swaps.filter fun w => w.lid == l.lid).flatMap fun w => w.ctxs.map fun e => awayKey w.lid w.team e.1
  let w := undoLines v l.lid (ms ++ away)
  obtain ⟨failMem, hw⟩ := undoPages_one (s := w) (page := page) (bs := bs) (by unfold w v; rw [hv]; exact hports)
  let x := dropTeams (undoPages w [(page, bs)]) l.lid
  obtain ⟨hxmem, hxlaunches⟩ := Prod.mk.inj (memAndLaunches_dropTeams (undoPages w [(page, bs)]) l.lid)
  have hwmem : (undoPages w [(page, bs)]).ms.mem = wrBytes (page * 4096) bs s.ms.mem := by
    rw [hw]
    unfold w v
    rw [hv]
    rfl
  have hwl : tget x.tm.launches l.lid = some l := by
    rw [hxlaunches, hw]
    unfold w v
    rw [hv]
    exact hl
  obtain ⟨⟨l', hl', habandons, haband, hjournal⟩, hrms⟩ := restart_launch (l := l) (l.abandons + 1) hwl
  let u := answerAbandon (restart x l (l.abandons + 1)) l.lid
  obtain ⟨humem, hulaunches⟩ := Prod.mk.inj (memAndLaunches_answerAbandon (restart x l (l.abandons + 1)) l.lid)
  refine ⟨u, l', ?_, ?_, habandons, haband, hjournal, ?_⟩
  · unfold abandon
    dsimp only
    rw [if_neg (by simp [hundo]; omega), hj]
  · rw [hulaunches]
    exact hl'
  · rw [humem, hrms, hxmem, hwmem]
    exact bytesPut_wrBytes hmem

end

/-- Settles O54: a Sett, a period and a step each by what its event does; an abandonment gives back every journalled page. -/
theorem boundariesAndSetts : Obligations.BoundariesAndSetts := by
  unfold Obligations.BoundariesAndSetts
  intro s
  refine ⟨fun l ps hl hf hh hps => ?_, ?_, fun tr r htr hr => ?_, ?_, fun l hl hlid => ?_, fun l hl hlid hc hz hrun hdet => ?_,
    fun l page bs hl hlid hc hready hn hundo hj hlen hports hmem => ?_⟩
  · obtain ⟨⟨l', hl', hfilled⟩, hms, hsetts⟩ := fillSetts_fills hl hf hh hps
    exact ⟨_, _, l', rfl, rfl, hl', hfilled, congrArg MemSt.mem hms, fun j hj => ⟨_, hsetts j hj, rfl, rfl⟩⟩
  · intro l st w i x key hb hsett hl hend hmode hrep hlid hwaits htakes
    obtain ⟨⟨st', hst', hw', hx'⟩, hheld, harrivals⟩ := serveSett_takes hsett hl hend hmode hrep hlid hwaits htakes
    exact ⟨_, st', congrArg Host.Outcome.next (if_neg hb), hst', hw', hx', hheld, harrivals⟩
  · refine ⟨_, _, _, rfl, insertItems_eq htr hr, rfl, tget_tput_same _ _ _, rfl, fun i x hi => ?_, rfl⟩
    rw [hi]
    exact ⟨tget_tput_same _ _ _, fun j hj => tget_tput_other _ _ _ _ hj⟩
  · refine ⟨_, newPeriod s, rfl, rfl, rfl, rfl, rfl, rfl, rfl, fun k b hcls => ?_, fun hcls => ?_, newPeriod_budgets s, rfl⟩
    · have hnew : (newPeriod s).tt.cls = tput k b s.tt.cls := by
        change overlay s.tt.clsNext s.tt.cls = _
        rw [hcls]
        rfl
      rw [hnew]
      exact ⟨tget_tput_same _ _ _, fun j hj => tget_tput_other _ _ _ _ hj⟩
    · change overlay s.tt.clsNext s.tt.cls = _
      rw [hcls]
      rfl
  · have hexec : exec .stepBoundary s = .next (if stepReady s l then boundary s l else s) := by
      change Host.Outcome.next _ = _
      rw [hl]
    refine ⟨_, hexec, fun hnot => if_neg (by simp [hnot]), fun hready hw hh => ?_⟩
    rw [← hlid] at hl ⊢
    rw [if_pos hready]
    obtain ⟨v, l', hb, hctxs, hboards, hmem, hl', hsteps, habandons⟩ := boundary_eq hl hh hw
    obtain ⟨hms, hlaunches⟩ := passAll_keeps v l.lid
    rw [hb]
    refine ⟨⟨l', hlaunches ▸ hl', hsteps, habandons⟩, (congrArg MemSt.mem hms).trans hmem, fun e he c hc hat => ?_⟩
    have hin : c ∈ (boardsOf v l.lid).flatMap fun e => membersOf e.1 e.2 := by
      rw [boardsOf, hboards]
      exact List.mem_flatMap.mpr ⟨e, he, hc⟩
    have hvc : v.ctx c = s.ctx c := by rw [State.ctx, hctxs]; rfl
    rw [passAll_ctx, if_pos hin, hvc, passStep, if_pos hat]
    exact ⟨rfl, rfl, rfl⟩
  · obtain ⟨⟨l', hl', haband⟩, hmem, hruns⟩ := stopTasks_stops (why := s.ev.b) hl hrun hdet
    exact ⟨_, l', congrArg Host.Outcome.next ((if_pos hc).trans (if_pos hz)), hl', haband, hmem, hruns⟩
  · have hexec : exec .stepAbandon s = .next (abandon s l s.ev.b) := by
      change Host.Outcome.next (if s.ev.c = 1 then _ else _) = _
      rw [if_neg (by omega), hl]
      exact congrArg Host.Outcome.next (if_pos hready)
    have hwf : memWf s.ms.mem = true := by
      simp only [memoriesOk, Bool.and_eq_true] at hmem
      exact hmem.1.1
    rw [← hlid] at hl ⊢
    obtain ⟨u, l', hu, hl', habandons, haband, hjournal, hput⟩ := abandon_undoes (why := s.ev.b) hl hn hundo hj hports hwf
    rw [hlen] at hput
    exact ⟨_, u, l', hexec, hu, hl', habandons, haband, hjournal, hput⟩

end Sys2Proof.Machine
end

section
/-! SUPPORT. What the end of a round of reductions changes beside the memories (R136, R138), for O52 and O53. -/

namespace Sys2Proof.Machine

/-- Of a machine only its memories and buffers, new events, logs, and what launches have journalled or are to end with
differ. -/
def drainsOnly (s t : State) : Prop :=
  t = { s with agenda := t.agenda, ms := t.ms, tm := { s.tm with launches := t.tm.launches, logs := t.tm.logs } } ∧
    ∀ k, (tget t.tm.launches k).isSome = (tget s.tm.launches k).isSome

section
variable {s t u : State}

theorem drainsOnly.refl : drainsOnly s s := ⟨rfl, fun _ => rfl⟩

theorem drainsOnly.trans (h : drainsOnly s t) (g : drainsOnly t u) : drainsOnly s u := by
  obtain ⟨hstate, hsome⟩ := h
  obtain ⟨gstate, gsome⟩ := g
  refine ⟨?_, fun k => (gsome k).trans (hsome k)⟩
  rw [gstate, hstate]

theorem drainsOnly_ite {p : Prop} [Decidable p] {a b : State} (ha : drainsOnly s a) (hb : drainsOnly s b) :
    drainsOnly s (if p then a else b) := by
  split
  · exact ha
  · exact hb

theorem drainsOnly_foldl {α : Type} {f : State → α → State} (hf : ∀ t a, drainsOnly t (f t a)) (l : List α) :
    drainsOnly s (l.foldl f s) := by
  induction l generalizing s with
  | nil => exact .refl
  | cons a l ih => exact (hf s a).trans ih

theorem drainsOnly_ms (ms : MemSt) : drainsOnly s { s with ms := ms } := ⟨rfl, fun _ => rfl⟩

theorem drainsOnly_journalFor {comp lid page : Nat} : drainsOnly s (journalFor s comp lid page) := by
  let note (n : Nat) (l : Launch) : Launch :=
    let l := if l.armed ∧ l.comp = comp ∧ (tget l.journal page).isNone then
      { l with journal := tput page (fwRead s (page * 4096) 4096) l.journal } else l
    if n = lid then { l with writtenPages := sins page l.writtenPages } else l
  refine ⟨rfl, fun k => ?_⟩
  rw [show tget (journalFor s comp lid page).tm.launches k = _ from tget_map note s.tm.launches k, Option.isSome_map]

theorem drainsOnly_physPut {a : Nat} {bs : List Byte} : drainsOnly s (physPut s a bs) :=
  drainsOnly_ite .refl (drainsOnly_ite .refl (drainsOnly_ms _))

theorem drainsOnly_pageWrite {comp lid a : Nat} {bs : List Byte} : drainsOnly s (pageWrite s comp lid a bs) :=
  drainsOnly_foldl (fun _ _ => drainsOnly_journalFor.trans drainsOnly_physPut) _

theorem drainsOnly_spadWrite {a : Nat} {bs : List Byte} : drainsOnly s (spadWrite s a bs) :=
  drainsOnly_foldl (fun _ _ => drainsOnly_ite .refl (drainsOnly_ms _)) _

theorem drainsOnly_wordWrite {lid : Nat} {p : Place} {v : BitVec 32} : drainsOnly s (wordWrite s lid p v) := by
  unfold wordWrite
  split
  · exact drainsOnly_pageWrite
  · exact drainsOnly_spadWrite
  · exact .refl

theorem drainsOnly_atomPerform {lid : Nat} {op : AtomOp} {p : Place} {a b : BitVec 32} :
    drainsOnly s (atomPerform s lid op p a b).2 := by
  unfold atomPerform
  split
  · exact drainsOnly_wordWrite
  · dsimp only
    split
    · exact drainsOnly_wordWrite
    · exact .refl

theorem drainsOnly_applyUpd {lid : Nat} {v : Upd} : drainsOnly s (applyUpd s lid v) := by
  have hword : drainsOnly s (atomPerform s lid v.op v.place v.data 0).2 := drainsOnly_atomPerform
  unfold applyUpd
  split
  · exact hword.trans (drainsOnly_ite .refl (drainsOnly_ms _))
  · exact hword
  · exact hword

theorem drainsOnly_applyUpds {lid : Nat} {l : List Upd} : drainsOnly s (applyUpds s lid l) :=
  drainsOnly_foldl (fun _ _ => drainsOnly_applyUpd) l

theorem drainsOnly_logEvent {lid die kind : Nat} {site : W64} {es : List W64} :
    drainsOnly s (logEvent s lid die kind site es) := by
  obtain ⟨logs, h⟩ := logEvent_eq s lid die kind site es
  rw [h]
  exact ⟨rfl, fun _ => rfl⟩

theorem drainsOnly_drain {key cause : Nat} : drainsOnly s (drain s key cause) := by
  unfold drain
  split
  · exact .refl
  next h _ =>
    have hupds (g : HoldBuf) : drainsOnly s (applyUpds (s.setBuf key g) h.lid (updSort h.held)) :=
      (drainsOnly_ms _).trans drainsOnly_applyUpds
    exact drainsOnly_ite (hupds _) ((hupds _).trans drainsOnly_logEvent)

theorem drainsOnly_leaveWindow {hit : Place → Bool} : drainsOnly s (leaveWindow s hit) :=
  drainsOnly_foldl (fun _ _ => drainsOnly_ite (drainsOnly_ite drainsOnly_drain (drainsOnly_ms _)) .refl) _

theorem drainsOnly_clearWindow {base size : Nat} : drainsOnly s (clearWindow s base size) :=
  drainsOnly_leaveWindow.trans (drainsOnly_ms _)

theorem leaveWindow_of_noHolds (h : s.ms.holds = []) (hit : Place → Bool) : leaveWindow s hit = s := by
  rw [leaveWindow, h]
  rfl

/-- R170. Windows that are cleared, where no round is open. -/
theorem clearWindow_of_noHolds (h : s.ms.holds = []) (base size : Nat) :
    (clearWindow s base size).ms.mem = s.ms.mem ∧ (clearWindow s base size).ms.holds = [] := by
  rw [clearWindow, leaveWindow_of_noHolds h]
  exact ⟨rfl, h⟩

/-- R169, R170, R176. The windows of cores cleared, and an image loaded there. -/
def windowsLoaded (s : State) (cores : List Nat) (window : Nat → Nat × Nat) (base : Nat) (bundles : List (BitVec 256)) : State :=
  cores.foldl (fun t k =>
    let t := clearWindow t (window k).1 (window k).2
    { t with cr := { t.cr with istore := loadImage k base bundles t.cr.istore } }) s

theorem windowsLoaded_eq (s : State) (cores : List Nat) (window : Nat → Nat × Nat) (base : Nat) (bundles : List (BitVec 256)) :
    ∃ agenda ms istore launches logs, windowsLoaded s cores window base bundles = { s with
      agenda := agenda, ms := ms, cr := { s.cr with istore := istore }
      tm := { s.tm with launches := launches, logs := logs } } ∧
      (s.ms.holds = [] → ms.mem = s.ms.mem ∧ ms.holds = []) := by
  induction cores generalizing s with
  | nil => exact ⟨_, _, _, _, _, rfl, fun h => ⟨rfl, h⟩⟩
  | cons k cores ih =>
    let t := clearWindow s (window k).1 (window k).2
    obtain ⟨hclear, -⟩ : drainsOnly s t := drainsOnly_clearWindow
    obtain ⟨agenda, ms, istore, launches, logs, h, hmem⟩ :=
      ih { t with cr := { t.cr with istore := loadImage k base bundles t.cr.istore } }
    refine ⟨agenda, ms, istore, launches, logs, ?_, fun hh => ?_⟩
    · refine Eq.trans h ?_
      rw [hclear]
    · obtain ⟨hm, hholds⟩ := clearWindow_of_noHolds hh (window k).1 (window k).2
      obtain ⟨hm', hholds'⟩ := hmem hholds
      exact ⟨hm'.trans hm, hholds'⟩

end

end Sys2Proof.Machine
end

section
/-! SUPPORT. Pre-emption, and teams that are saved and come back (R176, R219, R222, R371, R372), for O53. -/

namespace Sys2Proof.Machine

section
variable {s : State}

/-! ### A context is pre-empted (R219, R371) -/

/-- R219. A context whose waiting requests and pops are to queue anew. -/
def pulledCtx (reqs : List TagReq) (pops : List PopWait) (x : Ctx) : Ctx :=
  { x with pulled := x.pulled ++ reqs, pulledPops := x.pulledPops ++ pops }

/-- R219. A context that stops: its state kept, its results in flight captured. -/
def preemptedCtx (cycle : Nat) (x : Ctx) : Ctx :=
  { x with
    run := .preempted, preempt := false, psnap := some (capture x cycle), flights := [], replay := []
    tpc := if tact x then x.tpc else x.pc
    blocked := .none, tried := x.spentAt, clusterAt := none, early := none, walked := [], unmade := [], paid := [], onLine := false
    sent := x.sent && x.blocked == .launch
    answer := if x.blocked = .launch then x.answer else none }

/-- R219, R371. A context that is to stop, and its call with it. -/
def askedCtx (x : Ctx) : Ctx := { x with preempt := true }

theorem askStop_eq (s : State) (c : Nat) : askStop s c = stopCall (s.modCtx c askedCtx) c := rfl

theorem ctx_askStop_other {c k : Nat} (h : k ≠ c) : (askStop s c).ctx k = s.ctx k := by
  rw [askStop_eq, ctx_stopCall_other h, ctx_modCtx_other _ _ _ _ h]

theorem ctx_askStop_same (s : State) (c : Nat) : ∃ res callEnd reissue,
    (askStop s c).ctx c = { askedCtx (s.ctx c) with res := res, callEnd := callEnd, reissue := reissue } := by
  obtain ⟨res, callEnd, reissue, h⟩ := ctx_stopCall_same (s.modCtx c askedCtx) c
  exact ⟨res, callEnd, reissue, by rw [askStop_eq, h, ctx_modCtx_same]⟩

theorem storesOf_askStop (s : State) (c : Nat) : storesOf (askStop s c) = storesOf s := storesOf_stopCall

/-- R371. A call in its course stops with its next step. -/
theorem askStop_begun {c : Nat} {k : Call} (h : tget s.cr.calls (coreOf c) = some k) (hc : k.ctx = c) (hb : k.begun = true) :
    tget (askStop s c).cr.calls (coreOf c) = some { k with stop := true } := by
  rw [askStop_eq, stopCall_begun (s := s.modCtx c askedCtx) h hc hb]
  exact tget_tput_same _ _ _

/-- A word is its own low 8 bytes. -/
theorem lowBytes_ofW (w : W64) : lowBytes 8 (ofW w) = ofW w := by
  apply BitVec.eq_of_getLsbD_eq
  intro i hi
  rw [lowBytes, ofW, BitVec.getLsbD_and, BitVec.getLsbD_ushiftRight, BitVec.getLsbD_setWidth, BitVec.getLsbD_allOnes]
  by_cases h : i < 64
  · simp [h, hi]
    omega
  · rw [BitVec.getLsbD_of_ge w i (by omega)]
    simp

/-- R371, R372. One that has not begun stops at once, and is to be issued again. -/
theorem askStop_early {c : Nat} {k : Call} (h : tget s.cr.calls (coreOf c) = some k) (hc : k.ctx = c) (hb : k.begun = false) :
    tget (askStop s c).cr.calls (coreOf c) = none ∧
      tget ((askStop s c).ctx c).res 0x281 = some (ofW (progressWord k)) ∧
      ((askStop s c).ctx c).reissue = some ⟨k.rout, k.slot, k.wb, k.num, false⟩ := by
  obtain ⟨arrivals, former, agenda, nextId, hasked⟩ := stopAsked_eq (s.modCtx c askedCtx) (coreOf c) k
  have hstop : askStop s c = _ := (stopCall_early (s := s.modCtx c askedCtx) h hc hb).trans hasked
  have hctx : (askStop s c).ctx c = reissued k (callEnded 2 (progressWord k) (askedCtx (s.ctx c))) := by
    rw [hstop, hc, ctx_modCtx_same]
    refine congrArg (fun x => reissued k (callEnded 2 (progressWord k) x)) ?_
    exact ctx_modCtx_same s c askedCtx
  refine ⟨?_, ?_, ?_⟩
  · rw [hstop]
    exact tget_tdel_same _ _
  · rw [hctx, reissued_eq]
    exact (tget_tput_same _ _ _).trans (congrArg some (lowBytes_ofW _))
  · rw [hctx]
    exact congrArg Ctx.reissue (if_pos rfl)

theorem preemptCtx_stops {c : Nat} (hrun : (s.ctx c).run = .running) (hcan : canStop (s.ctx c) s.cycle = true) :
    preemptCtx s c = (pullWaits (askStop s c) c).modCtx c (preemptedCtx s.cycle) := by
  unfold preemptCtx
  rw [if_neg (not_not_intro hrun), if_neg (not_not_intro hcan)]
  rfl

theorem preemptCtx_asks {c : Nat} (hrun : (s.ctx c).run = .running) (hcan : canStop (s.ctx c) s.cycle = false) :
    preemptCtx s c = askStop s c := by
  unfold preemptCtx
  rw [if_neg (not_not_intro hrun), if_pos (by simp [hcan])]

theorem canStop_running {x : Ctx} {n : Nat} (h : canStop x n = true) : x.run = .running := by
  simp only [canStop, Bool.and_eq_true, beq_iff_eq] at h
  exact h.1.1

theorem ctx_pullWaits (s : State) (c k : Nat) : (pullWaits s c).ctx k =
    if k = c then pulledCtx (s.ms.tagq.filter fun q => q.ctx == c) (popsOut s c) (s.ctx c) else s.ctx k :=
  ctx_modCtx _ _ _ _

theorem storesOf_preemptCtx (s : State) (c : Nat) : storesOf (preemptCtx s c) = storesOf s := by
  unfold preemptCtx
  exact storesOf_ite rfl (storesOf_ite (storesOf_askStop s c) (storesOf_askStop s c))

theorem ctx_preemptCtx_other {c k : Nat} (h : k ≠ c) : (preemptCtx s c).ctx k = s.ctx k := by
  unfold preemptCtx
  split
  · rfl
  · split
    · exact ctx_askStop_other h
    · rw [ctx_modCtx_other _ _ _ _ h, ctx_pullWaits, if_neg h, ctx_askStop_other h]

/-- R219. The context that has stopped. -/
theorem ctx_preemptCtx_same {c : Nat} (hcan : canStop (s.ctx c) s.cycle = true) : ∃ reqs pops,
    (preemptCtx s c).ctx c = preemptedCtx s.cycle (pulledCtx reqs pops ((askStop s c).ctx c)) := by
  rw [preemptCtx_stops (canStop_running hcan) hcan, ctx_modCtx_same, ctx_pullWaits, if_pos rfl]
  exact ⟨_, _, rfl⟩

theorem askStop_calm {c : Nat} (h : ∀ k, tget s.cr.calls (coreOf c) = some k → k.ctx ≠ c) :
    askStop s c = s.modCtx c askedCtx := stopCall_calm (s := s.modCtx c askedCtx) h

/-- R371, R372. What becomes of a call as its context is pre-empted. -/
theorem preemptCtx_call {c : Nat} {k : Call} (hrun : (s.ctx c).run = .running) (h : tget s.cr.calls (coreOf c) = some k)
    (hc : k.ctx = c) :
    (k.begun = true → tget (preemptCtx s c).cr.calls (coreOf c) = some { k with stop := true }) ∧
      (k.begun = false → tget (preemptCtx s c).cr.calls (coreOf c) = none ∧
        tget ((preemptCtx s c).ctx c).res 0x281 = some (ofW (progressWord k)) ∧
        ((preemptCtx s c).ctx c).reissue = some ⟨k.rout, k.slot, k.wb, k.num, false⟩) := by
  have hcalls : (preemptCtx s c).cr.calls = (askStop s c).cr.calls := by
    unfold preemptCtx
    rw [if_neg (not_not_intro hrun)]
    split <;> rfl
  have hctx : ((preemptCtx s c).ctx c).res = ((askStop s c).ctx c).res ∧
      ((preemptCtx s c).ctx c).reissue = ((askStop s c).ctx c).reissue := by
    cases hcan : canStop (s.ctx c) s.cycle with
    | false => rw [preemptCtx_asks hrun hcan]; exact ⟨rfl, rfl⟩
    | true =>
      obtain ⟨_, _, hsame⟩ := ctx_preemptCtx_same hcan
      rw [hsame]
      exact ⟨rfl, rfl⟩
  rw [hcalls, hctx.1, hctx.2]
  exact ⟨askStop_begun h hc, askStop_early h hc⟩

/-! ### A team is saved (R176, R222) -/

/-- The memories and the buffers of held updates. -/
def memAndHolds (s : State) : Memory × Memory × Tab HoldBuf := (s.ms.mem, s.ms.spad, s.ms.holds)

theorem memAndHolds_parkCmds (s : State) (l : List Nat) : memAndHolds (parkCmds s l) = memAndHolds s := by
  refine foldl_keeps (g := memAndHolds) ?_ _ _
  exact fun _ _ => rfl

theorem memAndHolds_pulled (s : State) (l : List Nat) : memAndHolds (l.foldl pullWaits (parkCmds s l)) = memAndHolds s := by
  refine (foldl_keeps (g := memAndHolds) ?_ _ _).trans (memAndHolds_parkCmds s l)
  exact fun _ _ => rfl

/-- R359. The banks of contexts become free. -/
theorem freeBanks_foldl (l : List Nat) (s : State) : ∃ banks, l.foldl freeBanks s = { s with cr := { s.cr with banks := banks } } ∧
    ∀ e ∈ banks, e ∈ s.cr.banks ∧ e.2.holder ∉ l := by
  induction l generalizing s with
  | nil => exact ⟨_, rfl, fun e he => ⟨he, List.not_mem_nil⟩⟩
  | cons c l ih =>
    obtain ⟨banks, h, hmem⟩ := ih (freeBanks s c)
    refine ⟨banks, h, fun e he => ?_⟩
    obtain ⟨hin, hout⟩ := hmem e he
    obtain ⟨hin', hne⟩ := List.mem_filter.mp hin
    exact ⟨hin', fun hl => (List.mem_cons.mp hl).elim (fun heq => by simp [heq] at hne) hout⟩

/-- R168, R169. A Board slot that is cleared. -/
theorem clearedSlot_eq (s : State) (key : Nat) : ∃ ctxs resident, writeSlot s key 0 = { s with
    ctxs := ctxs, tm := { s.tm with
      boards := tdel key s.tm.boards, placing := tdel key s.tm.placing, resident := resident } } := by
  have hv : ¬ bV 0 = true := by simp [bV]
  unfold writeSlot
  dsimp only
  rw [if_neg fun h => hv h.2.1, if_pos rfl]
  split
  · obtain ⟨ctxs, h⟩ := foldl_modCtx_eq (s := { s with tm := { s.tm with
      boards := tdel key s.tm.boards, placing := tdel key s.tm.placing
      resident := s.tm.resident.filter fun r => r.key != key } }) (fun x => { x with run := .unbound })
      (membersOf key ((tget s.tm.boards key).getD 0))
    exact ⟨ctxs, _, h⟩
  · exact ⟨_, _, rfl⟩

theorem swapOut_saves {key : Nat} {b : BitVec 512} (hb : tget s.tm.boards key = some b) (hready : swapReady s key b = true) :
    ∃ u v, swapOut s key = placementRun u ∧ tget u.tm.boards key = none ∧ v ∈ u.tm.swaps ∧ v.lid = bLid b ∧
      v.team = bTeam b ∧ v.key = key ∧ v.word = b ∧ v.ctxs.map (·.1) = membersOf key b ∧
      (∃ w ∈ u.tm.waiting, w.lid = bLid b ∧ w.team = bTeam b) ∧ key ∉ u.tm.leaving ∧
      (∀ e ∈ u.cr.banks, e.2.holder ∉ membersOf key b) ∧
      (s.ms.holds = [] → u.ms.mem = s.ms.mem ∧ u.ms.spad = s.ms.spad) := by
  let ms := membersOf key b
  let s1 := ms.foldl pullWaits (parkCmds s ms)
  let s2 := leaveWindow s1 (windowHit key b)
  let v := { captureTeam s2 key b with held := heldUpdates s1 key b }
  obtain ⟨banks, hfree, hbanks⟩ := freeBanks_foldl ms s2
  let s3 := mapOpens (opensAway v.lid v.team ms) (ms.foldl freeBanks s2)
  obtain ⟨ctxs, resident, hclear⟩ := clearedSlot_eq s3 key
  let s4 := dropCrews (writeSlot s3 key 0) key
  let w : Waiting := { lid := v.lid, team := v.team, since := s4.tt.periods }
  let u : State := { s4 with tm := { s4.tm with
    leaving := sdel key s4.tm.leaving, swaps := s4.tm.swaps ++ [v], waiting := s4.tm.waiting ++ [w] } }
  have hout : swapOut s key = placementRun u := by
    unfold swapOut
    rw [hb]
    exact if_neg (not_not_intro hready)
  have hboards : s4.tm.boards = tdel key s3.tm.boards := by unfold s4; rw [hclear]; rfl
  have hcr : s4.cr.banks = banks := by unfold s4; rw [hclear]; unfold s3; rw [hfree]; rfl
  have hmem : s4.ms.mem = s2.ms.mem ∧ s4.ms.spad = s2.ms.spad := by
    unfold s4; rw [hclear]; unfold s3; rw [hfree]; exact ⟨rfl, rfl⟩
  refine ⟨u, v, hout, ?_, List.mem_append_right _ (List.mem_singleton_self _), rfl, rfl, rfl, rfl, ?_,
    ⟨w, List.mem_append_right _ (List.mem_singleton_self _), rfl, rfl⟩, ?_, fun e he => ?_, fun hh => ?_⟩
  · exact (congrArg (tget · key) hboards).trans (tget_tdel_same _ _)
  · exact (List.map_map ..).trans (List.map_id' _)
  · exact fun h => ((mem_sdel _ _ _).mp h).1 rfl
  · exact (hbanks e (hcr ▸ he)).2
  · obtain ⟨hm, hp, hholds⟩ : s1.ms.mem = s.ms.mem ∧ s1.ms.spad = s.ms.spad ∧ s1.ms.holds = s.ms.holds := by
      simpa [memAndHolds] using memAndHolds_pulled s ms
    have hleave : s2 = s1 := leaveWindow_of_noHolds (hholds.trans hh) _
    exact ⟨hmem.1.trans (hleave ▸ hm), hmem.2.trans (hleave ▸ hp)⟩

/-! ### A team comes back (R176, R182, R222) -/

/-- R182. A team of one member comes back to the member of its new placement. -/
theorem renOf_one {key c : Nat} {w : BitVec 512} {v : Saved} {x : Ctx} (hctxs : v.ctxs = [(c, x)]) (hw : membersOf key w = [c]) :
    (renOf key w v).ctx c = c := by
  simp [renOf, hctxs, hw, List.findIdx?_cons]

/-- R176. The windows, banks and crews of a team that comes back. -/
theorem restoreParts_eq (s : State) (key : Nat) (w : BitVec 512) (v : Saved) (r : Ren) :
    ∃ agenda ms cr launches logs crews crewOpen, restoreParts s key w v r = { s with
      agenda := agenda, ms := ms, cr := cr
      tm := { s.tm with launches := launches, logs := logs, crews := crews, crewOpen := crewOpen } } ∧
      (s.ms.holds = [] → ms.mem = s.ms.mem) := by
  obtain ⟨agenda, ms, istore, launches, logs, h, hmem⟩ := windowsLoaded_eq s (teamCores key w) (teamWindow w) (bIbase w)
    (((tget s.tm.launches v.lid).map imageBundles).getD [])
  unfold windowsLoaded at h
  dsimp only at h
  unfold restoreParts
  dsimp only
  rw [h]
  exact ⟨_, _, _, _, _, _, _, rfl, fun hh => (hmem hh).1⟩

/-- R222. The commands of a team that comes back are posted again. -/
theorem unparkCmds_eq (s : State) (lid team : Nat) : ∃ ctxs agenda en, unparkCmds s lid team =
    { s with ctxs := ctxs, agenda := agenda, en := en } ∧
      ∀ k, ∃ pend, (unparkCmds s lid team).ctx k = { s.ctx k with pend := pend } := by
  unfold unparkCmds
  generalize (s.en.cmds.filter fun k => k.lid == lid && k.team == team && k.away) = l
  induction l generalizing s with
  | nil => exact ⟨_, _, _, rfl, fun k => ⟨(s.ctx k).pend, rfl⟩⟩
  | cons q l ih =>
    let n := if q.withdrawn then q.len else 0
    let post (x : Ctx) : Ctx := { x with pend := pendAdd x.pend n }
    let t := (modCmd s q.id fun x => { x with withdrawn := false, parked := false }).modCtx q.ctx post
    obtain ⟨ctxs, agenda, en, h, hctx⟩ := ih (t.after t.cycle false .shuttleMatch { a := 2 ^ 20 + q.id })
    refine ⟨ctxs, agenda, en, h, fun k => ?_⟩
    obtain ⟨pend, hk⟩ := hctx k
    have hpost : ∃ p, t.ctx k = { s.ctx k with pend := p } := by
      unfold t
      rw [ctx_modCtx]
      split
      next hq => rw [hq]; exact ⟨_, rfl⟩
      next => exact ⟨(s.ctx k).pend, rfl⟩
    obtain ⟨p, hp⟩ := hpost
    refine ⟨pend, hk.trans ?_⟩
    rw [ctx_after, hp]

/-- R216, R219. A context that runs on, nothing of which is to queue anew. -/
theorem resumeCtx_plain {c : Nat} (hrun : (s.ctx c).run = .preempted) (hreqs : (s.ctx c).pulled = [])
    (hpops : (s.ctx c).pulledPops = []) : ∃ y, resumeCtx s c = s.setCtx c y ∧ y.run = .running ∧ y.slot = (s.ctx c).slot ∧
      y.regs = (s.ctx c).regs ∧ y.pc = (s.ctx c).pc ∧ y.flags = (s.ctx c).flags ∧ y.queues = (s.ctx c).queues := by
  let y := match (s.ctx c).psnap with | some p => restore (s.ctx c) p | none => s.ctx c
  have hy : y.slot = (s.ctx c).slot ∧ y.regs = (s.ctx c).regs ∧ y.pc = (s.ctx c).pc ∧ y.flags = (s.ctx c).flags ∧
      y.queues = (s.ctx c).queues := by
    unfold y
    split
    all_goals exact ⟨rfl, rfl, rfl, rfl, rfl⟩
  unfold resumeCtx
  dsimp only
  rw [if_neg (not_not_intro hrun), hreqs, hpops]
  exact ⟨_, rfl, rfl, hy⟩

/-- R182. What a saved team's updates reach where it stands again. -/
def placeBack (r : Ren) (v : Saved) (w : BitVec 512) (p : Place) : Place :=
  match p with
  | .spad a => .spad (r.byte v w a)
  | .phys a => .phys a
  | .line l o => .line l o

/-- R176. The state of a team of one member that comes back, before its member runs. -/
theorem swapIn_stands {key c : Nat} {w : BitVec 512} {v : Saved} {x : Ctx} (hw : tget s.tm.placing key = some w)
    (hz : s.rt.zitrum = true) (hv : s.tm.swaps.find? (fun v => v.lid == bLid w && v.team == bTeam w) = some v)
    (hmembers : membersOf key w = [c]) (hctxs : v.ctxs = [(c, x)]) :
    ∃ u tried pend, swapIn s key = resumeCtx u c ∧ tget u.tm.boards key = some w ∧ tget u.tm.placing key = none ∧
      (∀ z ∈ u.tm.swaps, ¬ (z.lid = v.lid ∧ z.team = v.team)) ∧ (s.ms.holds = [] → u.ms.mem = s.ms.mem) ∧
      ∃ pulled, (x.pulled = [] → pulled = []) ∧
        u.ctx c = { x with slot := key, pulled := pulled, tried := tried, pend := pend } := by
  let s1 : State := { s with tm := { s.tm with
    placing := tdel key s.tm.placing
    waiting := s.tm.waiting.filter fun e => !(e.lid == bLid w && e.team == bTeam w) } }
  let z := v.settle s1
  let r := renOf key w z
  have hr : r.ctx c = c := renOf_one (v := z) hctxs hmembers
  let s2 : State := { s1 with tm := { s1.tm with
    boards := tput key w s1.tm.boards, swaps := s1.tm.swaps.filter fun u => !(u.lid == z.lid && u.team == z.team) } }
  obtain ⟨agenda, ms, cr, launches, logs, crews, crewOpen, h3, hmem3⟩ := restoreParts_eq s2 key w z r
  let s3 := restoreParts s2 key w z r
  let s4 := holdBack s3 z.lid z.held (placeBack r z w)
  let s5 := z.ctxs.foldl (fun t e => t.bindCtx (r.ctx e.1) (ctxBack z key w r e.2)) s4
  have h5 : s5 = s4.bindCtx c (ctxBack z key w r x) := by
    unfold s5
    rw [show z.ctxs = [(c, x)] from hctxs, List.foldl_cons, hr]
    rfl
  let s6 := mapOpens (fun n => r.ctx (opensBack z.lid z.team (z.ctxs.map (·.1)) n)) s5
  let s7 : State := { s6 with en := { s6.en with cmds := s6.en.cmds.map fun (k : Cmd) =>
    if k.lid = z.lid ∧ k.team = z.team ∧ k.away then { k with ctx := r.ctx k.ctx } else k } }
  obtain ⟨ctxs, agenda', en, h8, hctx8⟩ := unparkCmds_eq s7 z.lid z.team
  obtain ⟨pend, hpend⟩ := hctx8 c
  have hin : swapIn s key = resumeCtx (noteResident (unparkCmds s7 z.lid z.team) key w) c := by
    unfold swapIn
    rw [hw]
    dsimp only
    rw [if_neg (not_not_intro hz), hv]
    dsimp only
    rw [hmembers]
    rfl
  have hkeep : (unparkCmds s7 z.lid z.team).tm = s5.tm ∧ (unparkCmds s7 z.lid z.team).ms.mem = s5.ms.mem := by
    rw [h8]
    exact ⟨rfl, rfl⟩
  have htm3 : s3.tm.boards = tput key w s.tm.boards ∧ s3.tm.placing = tdel key s.tm.placing ∧
      s3.tm.swaps = s.tm.swaps.filter fun u => !(u.lid == v.lid && u.team == v.team) := by
    unfold s3
    rw [h3]
    exact ⟨rfl, rfl, rfl⟩
  obtain ⟨hboards, hplacing, hswaps⟩ := htm3
  obtain ⟨htm, hmem⟩ := hkeep
  rw [h5] at htm hmem
  have htm' : (unparkCmds s7 z.lid z.team).tm = s3.tm := htm
  refine ⟨_, (s4.ctx c).spentAt, pend, hin, ?_, ?_, fun y hy => ?_, fun hh => ?_,
    x.pulled.map fun q => { q with ctx := r.ctx q.ctx, word := r.byte z w (4 * q.word) / 4 }, fun hnil => by rw [hnil]; rfl, ?_⟩
  · change tget (unparkCmds s7 z.lid z.team).tm.boards key = _
    rw [htm', hboards]
    exact tget_tput_same _ _ _
  · change tget (unparkCmds s7 z.lid z.team).tm.placing key = _
    rw [htm', hplacing]
    exact tget_tdel_same _ _
  · change y ∈ (unparkCmds s7 z.lid z.team).tm.swaps at hy
    rw [htm', hswaps] at hy
    exact fun ⟨hlid, hteam⟩ => by simp [hlid, hteam] at hy
  · refine hmem.trans ?_
    change s3.ms.mem = _
    unfold s3
    rw [h3]
    exact hmem3 hh
  · refine hpend.trans ?_
    have h7 : s7.ctx c = s5.ctx c := rfl
    rw [h7, h5, State.bindCtx, ctx_setCtx_same]
    rfl

end

/-- Settles O53: by the kinds of contexts that can stop, and that a team taken back is the state that was kept. -/
theorem swapsKeepTeams : Obligations.SwapsKeepTeams := by
  unfold Obligations.SwapsKeepTeams
  intro s
  refine ⟨?_, fun b hb hv hready => ?_, fun w hw hz => ?_, fun w v c x hw hz hv hmembers hctxs hrun hreqs hpops => ?_⟩
  · intro c x calm
    have hstores := storesOf_preemptCtx s c
    refine ⟨preemptCtx s c, rfl, congrArg (fun z => z.1) hstores, congrArg (fun z => z.2.1) hstores,
      fun k hk => ctx_preemptCtx_other hk, fun hrun => if_pos hrun, fun hrun hcan => ?_, fun hcan => ?_, fun k hk hc hrun =>
        preemptCtx_call hrun hk hc⟩
    · obtain ⟨res, callEnd, reissue, hctx⟩ := ctx_askStop_same s c
      rw [preemptCtx_asks hrun hcan, hctx]
      exact ⟨hrun, rfl, askStop_calm⟩
    · obtain ⟨reqs, pops, hctx⟩ := ctx_preemptCtx_same hcan
      obtain ⟨res, callEnd, reissue, hasked⟩ := ctx_askStop_same s c
      have hkept (hcalm : calm) : ((preemptCtx s c).ctx c).psnap = some (capture x s.cycle) := by
        rw [askStop_calm hcalm, ctx_modCtx_same] at hctx
        exact congrArg Ctx.psnap hctx
      refine ⟨?_, ?_, ?_, ?_, ?_, ?_, ?_, fun q hq => ?_, fun hcalm => ⟨hkept hcalm, ?_⟩⟩
      case refine_8 =>
        rw [preemptCtx_stops (canStop_running hcan) hcan] at hq
        simpa using (List.mem_filter.mp hq).2
      all_goals
        rw [hctx, hasked]
        rfl
  · obtain ⟨u, v, hout, hrest⟩ := swapOut_saves hb hready
    exact ⟨_, u, v, rfl, hout, hrest⟩
  · refine ⟨_, rfl, ?_⟩
    have hin : swapIn s s.ev.a = s.after (s.cycle + 1) false .swapIn { a := s.ev.a } := by
      unfold swapIn
      rw [hw]
      exact if_pos (by simp [hz])
    rw [hin]
    exact ⟨rfl, rfl, rfl⟩
  · obtain ⟨u, tried, pend, hin, hboards, hplacing, hswaps, hmem, pulled, hpulled, hctx⟩ :=
      swapIn_stands hw hz hv hmembers hctxs
    obtain ⟨y, hresume, hyrun, hyslot, hyregs, hypc, hyflags, hyqueues⟩ := resumeCtx_plain (s := u) (c := c)
      (by rw [hctx]; exact hrun) (by rw [hctx]; exact hpulled hreqs) (by rw [hctx]; exact hpops)
    have ht : exec .swapIn s = .next (u.setCtx c y) := congrArg Host.Outcome.next (hin.trans hresume)
    have hcy : (u.setCtx c y).ctx c = y := ctx_setCtx_same u c y
    rw [hctx] at hyslot hyregs hypc hyflags hyqueues
    refine ⟨_, ht, hboards, hplacing, hswaps, hmem, ?_⟩
    rw [hcy]
    exact ⟨hyrun, hyslot, hyregs, hypc, hyflags, hyqueues⟩

end Sys2Proof.Machine
end

section
/-! SUPPORT. What a context that ends leaves of the others, and what a completion record changes (R165, R166, R178, R192), for
O52. -/

namespace Sys2Proof.Machine

section
variable {s t u : State}

/-! ### A context that ends, whatever its call does (R178, R403) -/

/-- R178. Of the end of a context: the Boards stay, and how every context stands, but for its own. -/
theorem endContext_runs (s : State) (c : Nat) (run : Run) :
    (endContext s c run).tm.boards = s.tm.boards ∧
      ∀ k, ((endContext s c run).ctx k).run = if k = c then run else (s.ctx k).run := by
  let end_ (x : Ctx) : Ctx := { noArrival x with
    run := run, flights := [], replay := [], preempt := false, fences := [], reissue := none, pendTrap := none }
  let s1 := s.modCtx c end_
  let s2 := discardOpens (dropArrivals (stopCall s1 c) c) c
  let s3 := freeBanks (releaseItems s2 c) c
  let s4 := (List.range 8).foldl (fun t k => leaveCrew t c k) s3
  obtain ⟨v, hv, hrelease⟩ := releaseItems_eq (s := s2) (c := c)
  have hcrews : crewsMove s3 s4 := crewsMove_foldl (fun _ _ => crewsMove_leaveCrew) _
  have hmarks : marksLaunches s4 (endContext s c run) := marksLaunches_countTeam.trans marksLaunches_divergeCheck
  refine ⟨?_, fun k => ?_⟩
  · calc (endContext s c run).tm.boards = s3.tm.boards := hmarks.boards.trans hcrews.boards
      _ = v.tm.boards := hrelease.boards
      _ = s2.tm.boards := by rw [hv]
      _ = (stopCall s1 c).tm.boards := rfl
      _ = s.tm.boards := by rw [stopCall_tm]; rfl
  · have hheld : (s3.ctx k).run = (v.ctx k).run := by
      refine (congrArg Ctx.run (hrelease.ctx k)).trans ?_
      rw [ctx_modCtx]
      split
      next hk => rw [hk]
      next => rfl
    calc ((endContext s c run).ctx k).run = (s4.ctx k).run := congrArg Ctx.run (hmarks.ctx k)
      _ = (s3.ctx k).run := by rw [hcrews.2 k]
      _ = (v.ctx k).run := hheld
      _ = ((stopCall s1 c).ctx k).run := by rw [hv]; rfl
      _ = (s1.ctx k).run := run_stopCall s1 c k
      _ = if k = c then run else (s.ctx k).run := by
        rw [ctx_modCtx]
        split <;> rfl

/-- Contexts of a kind end one after another. -/
def endEach (p : Run → Prop) [DecidablePred p] (s : State) (l : List Nat) : State :=
  l.foldl (fun t c => if p (t.ctx c).run then endContext t c .stopped else t) s

section
variable {p : Run → Prop} [DecidablePred p]

theorem endEach_keeps (l : List Nat) (s : State) :
    storesOf (endEach p s l) = storesOf s ∧ (endEach p s l).tm.boards = s.tm.boards :=
  ⟨storesOf_foldl l fun _ _ => storesOf_ite storesOf_endContext rfl,
    foldl_keeps (g := fun t => t.tm.boards) (by
      intro t c
      split
      · exact (endContext_runs t c .stopped).1
      · rfl) l s⟩

/-- None of them is of that kind any more. -/
theorem endEach_run (hp : ¬ p .stopped) (l : List Nat) (s : State) (k : Nat) :
    ¬ p ((endEach p s l).ctx k).run ↔ k ∈ l ∨ ¬ p (s.ctx k).run := by
  induction l generalizing s with
  | nil => simp [endEach]
  | cons c l ih =>
    have hone : ¬ p ((if p (s.ctx c).run then endContext s c .stopped else s).ctx k).run ↔ k = c ∨ ¬ p (s.ctx k).run := by
      split
      next hc =>
        rw [(endContext_runs s c .stopped).2 k]
        split
        next hk => simp [hk, hp]
        next hk => simp [hk]
      next hc =>
        constructor
        · exact .inr
        · rintro (rfl | h)
          · exact hc
          · exact h
    refine (ih _).trans ?_
    rw [hone, List.mem_cons, or_left_comm, or_assoc]

end

/-! ### Writes to pages where no round is open (R165, R166, R192) -/

/-- Of a machine only bytes of memory, and what launches have journalled, differ. -/
def writesOnly (s t : State) : Prop :=
  t = { s with
    ms := { s.ms with mem := t.ms.mem, failMem := t.ms.failMem }, tm := { s.tm with launches := t.tm.launches } } ∧
    ∀ k, (tget t.tm.launches k).isSome = (tget s.tm.launches k).isSome

theorem writesOnly.refl : writesOnly s s := ⟨rfl, fun _ => rfl⟩

theorem writesOnly.trans (h : writesOnly s t) (g : writesOnly t u) : writesOnly s u := by
  obtain ⟨hstate, hsome⟩ := h
  obtain ⟨gstate, gsome⟩ := g
  refine ⟨?_, fun k => (gsome k).trans (hsome k)⟩
  rw [gstate, hstate]

theorem writesOnly.holds (h : writesOnly s t) : t.ms.holds = s.ms.holds := by rw [h.1]
theorem writesOnly.spad (h : writesOnly s t) : t.ms.spad = s.ms.spad := by rw [h.1]

theorem writesOnly_foldl {α : Type} {f : State → α → State} (hf : ∀ t a, writesOnly t (f t a)) (l : List α) :
    writesOnly s (l.foldl f s) := by
  induction l generalizing s with
  | nil => exact .refl
  | cons a l ih => exact (hf s a).trans ih

theorem writesOnly_journalFor {comp lid page : Nat} : writesOnly s (journalFor s comp lid page) :=
  ⟨rfl, drainsOnly_journalFor.2⟩

theorem writesOnly_physPut {a : Nat} {bs : List Byte} : writesOnly s (physPut s a bs) := by
  unfold physPut
  split
  · exact .refl
  · split
    · exact .refl
    · exact ⟨rfl, fun _ => rfl⟩

theorem writesOnly_pageWrite {comp lid a : Nat} {bs : List Byte} : writesOnly s (pageWrite s comp lid a bs) :=
  writesOnly_foldl (fun _ _ => writesOnly_journalFor.trans writesOnly_physPut) _

theorem touched_of_noHolds (h : s.ms.holds = []) (hit : Place → Bool) : (touch s hit).getD s = s := by
  rw [touch_of_noHolds h]
  rfl

theorem writesOnly_writePieces {comp lid : Nat} (ps : List (Nat × Nat)) (bs : List Byte) (h : s.ms.holds = []) :
    writesOnly s (writePieces comp lid ps bs s) := by
  induction ps generalizing s bs with
  | nil => exact .refl
  | cons p ps ih =>
    have hwrite : writesOnly s (pageWrite s comp lid p.1 (bs.take p.2)) := writesOnly_pageWrite
    rw [writePieces, touched_of_noHolds h]
    exact hwrite.trans (ih _ (hwrite.holds.trans h))

theorem writesOnly_writeList {l : Launch} {step : Nat} (ws : List (List Byte)) (va n : Nat) (bad : Bool)
    (h : s.ms.holds = []) : writesOnly s (writeList l step ws va (n, bad, s)).2.2 := by
  induction ws generalizing s va n bad with
  | nil => exact .refl
  | cons w ws ih =>
    unfold writeList
    split
    next u hu =>
      have hwrite : writesOnly s u := by
        unfold zitrumWrite at hu
        split at hu
        · cases hu
        · cases hu
          exact writesOnly_writePieces _ _ h
      exact hwrite.trans (ih _ _ _ (hwrite.holds.trans h))
    next => exact ih _ _ _ h

theorem writesOnly_writeBack {l : Launch} (h : s.ms.holds = []) : writesOnly s (writeBack s l).2.2.2 := by
  unfold writeBack
  split
  · exact .refl
  · have hgains := writesOnly_writeList (l := l) (step := 8)
      ((List.range l.nitems).map fun i => natBytes (((itemOf s l.lid i).map Item.gain).getD 0 % 2 ^ 64).toNat 8)
      (l.word 7) 0 false h
    exact hgains.trans (writesOnly_writeList _ _ _ _ (hgains.holds.trans h))

/-- R166. One word of a completion record. -/
def recordPut (lid comp pa : Nat) (ws : List W64) (t : State) (k : Nat) : State :=
  pageWrite ((touch t (hitPhys (pa + 8 * k) 8)).getD t) comp lid (pa + 8 * k) (natBytes ((ws.getD k 0).toNat) 8)

theorem writesOnly_recordPuts {lid comp pa : Nat} {ws : List W64} (l : List Nat) (h : s.ms.holds = []) :
    writesOnly s (l.foldl (recordPut lid comp pa ws) s) := by
  induction l generalizing s with
  | nil => exact .refl
  | cons k l ih =>
    have hput : writesOnly s (recordPut lid comp pa ws s k) := by
      rw [recordPut, touched_of_noHolds h]
      exact writesOnly_pageWrite
    exact hput.trans (ih (hput.holds.trans h))

theorem postNotice_host (s : State) (kind subject word1 : Nat) : ∃ ho, postNotice s kind subject word1 = { s with ho := ho } ∧
    ho.requests = s.ho.requests ∧ ho.slots = s.ho.slots := by
  unfold postNotice sendMsix
  dsimp only
  split
  · exact ⟨_, rfl, rfl, rfl⟩
  · exact ⟨_, rfl, rfl, rfl⟩

/-- R166, R440. A completion record, and its notice. -/
theorem writeRecord64_writes {lid comp compl : Nat} {ranges : List Range} {ws : List W64} (h : s.ms.holds = []) :
    ∃ v ho, writeRecord64 s lid comp ranges compl ws = { v with ho := ho } ∧ writesOnly s v ∧
      ho.requests = s.ho.requests ∧ ho.slots = s.ho.slots := by
  unfold writeRecord64
  split
  · exact ⟨s, s.ho, rfl, .refl, rfl, rfl⟩
  · split
    · exact ⟨s, s.ho, rfl, .refl, rfl, rfl⟩
    next p _ =>
      obtain ⟨ho, hnotice, hrequests, hslots⟩ := postNotice_host ((List.range 8).foldl (recordPut lid comp p.1 ws) s) 1 lid 0
      have hputs := writesOnly_recordPuts (lid := lid) (comp := comp) (pa := p.1) (ws := ws) (List.range 8) h
      have hho : ((List.range 8).foldl (recordPut lid comp p.1 ws) s).ho = s.ho := by rw [hputs.1]
      exact ⟨_, ho, hnotice, hputs, hrequests.trans (by rw [hho]), hslots.trans (by rw [hho])⟩

end

end Sys2Proof.Machine
end

section
/-! SUPPORT. Packets, Board slots and the ends of launches (R165, R166, R169, R170, R178, R180, R223), for O52. -/

namespace Sys2Proof.Machine

section
variable {s : State}

/-! ### A packet is accepted, or refused (R163, R165) -/

theorem packetTouch_of_noHolds (h : s.ms.holds = []) (q : Request) : packetTouch s q = some s := touchPieces_of_noHolds h _

/-- R165. The state from which the refusal of a packet is answered: its record stands where it translates. -/
def refusedState (s : State) (q : Request) (status sub : Nat) : State :=
  let p := packetBytes s q
  if pkComp p ≠ 0 ∧ (tget s.tt.comps (pkComp p)).isSome then
    writeRecord64 s 0 (pkComp p) (pkRanges p) (pword p 3) (recordWords 0 sub status 0 0 0 0 0 0)
  else s

theorem validate_refuses {q : Request} {status sub : Nat} (h : packetChecks s q.own (packetBytes s q) = .error (status, sub)) :
    validate s q = respond (refusedState s q status sub) q status sub 0 [] := by
  unfold validate
  dsimp only
  rw [h]
  rfl

theorem refusedState_writes {q : Request} {status sub : Nat} (h : s.ms.holds = []) :
    ∃ v ho, refusedState s q status sub = { v with ho := ho } ∧ writesOnly s v ∧
      ho.requests = s.ho.requests ∧ ho.slots = s.ho.slots := by
  unfold refusedState
  dsimp only
  split
  · exact writeRecord64_writes h
  · exact ⟨s, s.ho, rfl, .refl, rfl, rfl⟩

theorem acceptPacket_number (s : State) (q : Request) (p image : List Byte) : (acceptPacket s q p image).1 = freshLid s := by
  simp only [acceptPacket]

theorem validate_accepts {q : Request} {image : List Byte} (h : packetChecks s q.own (packetBytes s q) = .ok image) :
    validate s q = placementRun (respond (acceptPacket s q (packetBytes s q) image).2 q 0 0 (freshLid s) []) := by
  unfold validate
  dsimp only
  rw [h]
  dsimp only
  rw [acceptPacket_number]

/-- Launches, their count, and the bytes of memory. -/
def launchView (s : State) : Tab Launch × Nat × Memory := (s.tm.launches, s.tm.accepted, s.ms.mem)

theorem launchView_setPool {comp n : Nat} : launchView (setPool s comp n) = launchView s := by
  unfold setPool
  split <;> rfl

theorem launchView_makeLines {comp : Nat} {b : List Byte} : launchView (makeLines s comp b) = launchView s := by
  refine foldl_keeps (g := launchView) (fun t r => ?_) _ _
  dsimp only
  split <;> rfl

theorem launchView_measure {comp : Nat} {d : BitVec 512} : launchView (measure s comp d) = launchView s := by
  unfold measure
  split <;> rfl

theorem launchView_reserveLogs {l : Launch} : launchView (reserveLogs s l) = launchView s := by
  unfold reserveLogs
  split <;> rfl

/-- R163, R165. The launch that an accepted packet begins. -/
theorem acceptPacket_launch (s : State) (q : Request) (p image : List Byte) :
    launchView (acceptPacket s q p image).2 =
      (tput (freshLid s) (launchOfPacket s p image (freshLid s) q.route) s.tm.launches, s.tm.accepted + 1, s.ms.mem) := by
  let l := launchOfPacket s p image (freshLid s) q.route
  let s1 := setPool s l.comp (poolKept s l.comp + l.poolUnits)
  let s2 : State := { s1 with tm := { s1.tm with
    launches := tput (freshLid s) l s1.tm.launches, accepted := s1.tm.accepted + 1, nextLid := freshLid s % 65535 + 1 } }
  have hpool : launchView s1 = launchView s := launchView_setPool
  obtain ⟨hlaunches, haccepted, hmem⟩ :
      s1.tm.launches = s.tm.launches ∧ s1.tm.accepted = s.tm.accepted ∧ s1.ms.mem = s.ms.mem := by
    simpa [launchView] using hpool
  have hlogs : launchView (reserveLogs (measure (makeLines s2 l.comp image) l.comp l.digest) l) = launchView s2 :=
    launchView_reserveLogs.trans (launchView_measure.trans launchView_makeLines)
  have hlast : launchView (acceptPacket s q p image).2 =
      launchView (reserveLogs (measure (makeLines s2 l.comp image) l.comp l.digest) l) := by
    unfold acceptPacket
    dsimp only
    generalize reserveLogs (measure _ _ _) _ = u
    split
    · split
      all_goals rfl
    all_goals rfl
  rw [hlast, hlogs]
  exact Prod.ext (congrArg (tput (freshLid s) l) hlaunches) (Prod.ext (congrArg (· + 1) haccepted) hmem)

/-! ### A Board slot binds a team, or is cleared (R168, R169, R170) -/

theorem foldl_bindCtx_eq (x : Ctx) (l : List Nat) (s : State) :
    ∃ ctxs, l.foldl (fun (t : State) c => t.bindCtx c x) s = { s with ctxs := ctxs } := by
  induction l generalizing s with
  | nil => exact ⟨_, rfl⟩
  | cons c l ih =>
    obtain ⟨ctxs, h⟩ := ih (s.bindCtx c x)
    exact ⟨ctxs, h⟩

/-- R170. Every member is bound to the same state, but for its core's use of the cycle. -/
theorem ctx_foldl_bindCtx (x : Ctx) (l : List Nat) (s : State) (k : Nat) :
    (∃ tried, (s.ctx k) = { x with tried := tried }) ∨ k ∈ l →
      ∃ tried, (l.foldl (fun (t : State) c => t.bindCtx c x) s).ctx k = { x with tried := tried } := by
  induction l generalizing s with
  | nil => exact fun h => h.resolve_right List.not_mem_nil
  | cons c l ih =>
    intro h
    refine ih (s.bindCtx c x) ?_
    by_cases hk : k = c
    · left
      rw [hk]
      exact ⟨_, ctx_setCtx_same s c _⟩
    · rcases h with h | h
      · left
        rw [State.bindCtx, ctx_setCtx_other _ _ _ _ hk]
        exact h
      · exact .inr ((List.mem_cons.mp h).resolve_left hk)

/-- R169, R170. A slot word binds its team. -/
theorem writeSlot_binds {key : Nat} {w : BitVec 512} {l : Launch} (hfree : tget s.tm.boards key = none) (hv : bV w = true)
    (hswap : bSwap w = false) (hl : tget s.tm.launches (bLid w) = some l) :
    tget (writeSlot s key w).tm.boards key = some w ∧ (s.ms.holds = [] → (writeSlot s key w).ms.mem = s.ms.mem) ∧
      ∀ c ∈ membersOf key w, ∃ tried, (writeSlot s key w).ctx c = { boundCtx l key with tried := tried } := by
  have hw : w ≠ 0 := by
    rintro rfl
    simp [bV] at hv
  let s1 : State := { s with tm := { s.tm with boards := tput key w s.tm.boards, placing := tdel key s.tm.placing } }
  have hbind : writeSlot s key w = bindTeam s1 key w := by
    unfold writeSlot
    dsimp only
    rw [hfree, if_pos ⟨by simp [bV], hv, by simp [hswap]⟩, if_neg hw]
  obtain ⟨agenda, ms, istore, launches, logs, h2, hmem⟩ := windowsLoaded_eq s1 (teamCores key w) (teamWindow w) (bIbase w)
    (imageBundles l)
  let s2 := windowsLoaded s1 (teamCores key w) (teamWindow w) (bIbase w) (imageBundles l)
  let s3 := (membersOf key w).foldl (fun (t : State) c => t.bindCtx c (boundCtx l key)) s2
  have hteam : bindTeam s1 key w = noteResident { s3 with tm := { s3.tm with
      crews := s3.tm.crews.filter fun e => e.1 / 8 != key
      crewOpen := s3.tm.crewOpen.filter fun e => e.1 / 8 != key } } key w := by
    unfold bindTeam
    rw [show tget s1.tm.launches (bLid w) = _ from hl]
    rfl
  obtain ⟨ctxs, h3⟩ := foldl_bindCtx_eq (boundCtx l key) (membersOf key w) s2
  have hkeep : s3.tm.boards = s1.tm.boards ∧ s3.ms = ms := by
    unfold s3
    rw [h3]
    unfold s2
    rw [h2]
    exact ⟨rfl, rfl⟩
  rw [hbind, hteam]
  refine ⟨?_, fun hh => (congrArg MemSt.mem hkeep.2).trans (hmem hh).1, fun c hc => ?_⟩
  · exact (congrArg (tget · key) hkeep.1).trans (tget_tput_same _ _ _)
  · exact ctx_foldl_bindCtx (boundCtx l key) (membersOf key w) s2 c (.inr hc)

theorem clearedSlot_runs {key : Nat} {b : BitVec 512} (hb : tget s.tm.boards key = some b) (hv : bV b = true) :
    ∀ c ∈ membersOf key b, ((writeSlot s key 0).ctx c).run = .unbound := by
  intro c hc
  have hzero : ¬ bV 0 = true := by simp [bV]
  unfold writeSlot
  dsimp only
  rw [hb, if_neg fun h => hzero h.2.1, if_pos ⟨hv, hzero⟩]
  refine congrArg Ctx.run ((ctx_foldl_modCtx (f := fun x => { x with run := .unbound }) (fun _ => rfl) _ _).trans (if_pos hc))

/-- R169. The slot of a team that has ended. -/
theorem clearSlot_frees {key : Nat} {b : BitVec 512} (hb : tget s.tm.boards key = some b) (hv : bV b = true) :
    ∃ u, clearSlot s key b = placementRun u ∧ tget u.tm.boards key = none ∧ u.ms.mem = s.ms.mem ∧ u.ms.spad = s.ms.spad ∧
      ∀ c ∈ membersOf key b, (u.ctx c).run = .unbound := by
  let s1 := endEach (fun r => r = .stopped) s (membersOf key b)
  obtain ⟨hstores, hboards⟩ := endEach_keeps (p := fun r => r = .stopped) (membersOf key b) s
  obtain ⟨ctxs, resident, hclear⟩ := clearedSlot_eq s1 key
  refine ⟨dropCrews (writeSlot s1 key 0) key, rfl, ?_, ?_, ?_, fun c hc => ?_⟩
  · rw [hclear]
    exact tget_tdel_same _ _
  · rw [hclear]
    exact congrArg (fun z => z.1) hstores
  · rw [hclear]
    exact congrArg (fun z => z.2.1) hstores
  · exact clearedSlot_runs (s := s1) ((congrArg (tget · key) hboards).trans hb) hv c hc

/-! ### A launch completes (R166, R192) -/

theorem ms_answerWaiting (s : State) (lid : Nat) : (answerWaiting s lid).ms = s.ms := by
  refine foldl_keeps (g := State.ms) (fun t q => ?_) _ _
  split
  · exact respond_keeps.1
  · exact respond_keeps.1

theorem spad_leaveLines (s : State) (lid : Nat) (done : Bool) : (leaveLines s lid done).ms.spad = s.ms.spad := by
  refine foldl_keeps (g := fun t => t.ms.spad) ?_ _ _
  exact fun _ _ => rfl

theorem endPool_eq (s : State) (comp : Nat) : ∃ tt, endPool s comp = { s with tt := tt } := by
  unfold endPool setPool
  dsimp only
  split
  · exact ⟨_, rfl⟩
  · exact ⟨_, rfl⟩

theorem ms_holdLog (s : State) (l : Launch) : (holdLog s l).ms = s.ms := by
  unfold holdLog
  split <;> rfl

/-- R192. What goes with the record of a launch. -/
def launchGone (s : State) (l : Launch) : State := { s with tm := { s.tm with
  launches := tdel l.lid s.tm.launches
  logs := s.tm.logs.filter fun g => g.lid != l.lid
  setts := s.tm.setts.filter fun e => e.2.lid != l.lid
  transits := s.tm.transits.filter fun e => e.lid != l.lid
  stepAreas := s.tm.stepAreas.filter fun v => v.lid != l.lid } }

theorem complete_removes (s : State) (l : Launch) :
    ∃ u, complete s l = placementRun u ∧ tget u.tm.launches l.lid = none ∧ (∀ g ∈ u.tm.logs, g.lid ≠ l.lid) ∧
      (∀ e ∈ u.tm.setts, e.2.lid ≠ l.lid) ∧ (s.ms.holds = [] → u.ms.spad = s.ms.spad) := by
  let s1 := (writeBack (drainLaunch s l.lid 2) l).2.2.2
  obtain ⟨lid, comp, ranges, compl, ws, done, hcomplete⟩ : ∃ lid comp ranges compl ws done, complete s l = placementRun (
      endPool (launchGone (leaveLines (answerWaiting (holdLog (writeRecord64 s1 lid comp ranges compl ws) l) l.lid) l.lid done) l)
        l.comp) := ⟨_, _, _, _, _, _, rfl⟩
  let s2 := writeRecord64 s1 lid comp ranges compl ws
  let s3 := leaveLines (answerWaiting (holdLog s2 l) l.lid) l.lid done
  obtain ⟨tt, hpool⟩ := endPool_eq (launchGone s3 l) l.comp
  refine ⟨_, hcomplete, ?_, ?_, ?_, fun hh => ?_⟩
  all_goals rw [hpool]
  · exact tget_tdel_same _ _
  · exact fun g hg => by simpa using (List.mem_filter.mp hg).2
  · exact fun e he => by simpa using (List.mem_filter.mp he).2
  · have hdrain : drainLaunch s l.lid 2 = s := drainLaunch_of_noHolds hh _ _
    have hback : writesOnly s s1 := by
      unfold s1
      rw [hdrain]
      exact writesOnly_writeBack hh
    obtain ⟨v, ho, hrecord, hv, -, -⟩ := writeRecord64_writes (lid := lid) (comp := comp) (compl := compl) (ranges := ranges)
      (ws := ws) (hback.holds.trans hh)
    calc s3.ms.spad = (answerWaiting (holdLog s2 l) l.lid).ms.spad := spad_leaveLines _ _ _
      _ = s2.ms.spad := by rw [ms_answerWaiting, ms_holdLog]
      _ = v.ms.spad := by unfold s2; rw [hrecord]
      _ = s.ms.spad := hv.spad.trans hback.spad

end

end Sys2Proof.Machine
end

section
/-! SUPPORT. The end of a launch's teams by Zitrum, and the end of the wait for them (R180, R223, R234), for O52. -/

namespace Sys2Proof.Machine

section
variable {s : State}

/-! ### The teams of a launch end (R180, R223) -/

theorem stopCalls_calm (lid : Nat) (h : s.cr.calls = []) : stopCalls s lid = s := by
  have hcalm (c : Nat) : stopCall s c = s := stopCall_calm fun k hk => absurd (h ▸ hk) (by simp [tget])
  have hfold (l : List Nat) : l.foldl (fun t c => if (t.ctx c).run = .stopped then stopCall t c else t) s = s := by
    induction l with
    | nil => rfl
    | cons c l ih => rw [List.foldl_cons, hcalm, ite_self, ih]
  exact hfold _

theorem stopCalls_noBoards {lid : Nat} (h : boardsOf s lid = []) : stopCalls s lid = s := by
  unfold stopCalls
  rw [h]
  rfl

/-- Waiting teams, Boards, launches, bytes and the cycle, which states that are dropped do not touch. -/
def placesView (s : State) : List Waiting × Tab (BitVec 512) × Tab Launch × Memory × Nat :=
  (s.tm.waiting, s.tm.boards, s.tm.launches, s.ms.mem, s.cycle)

theorem placesView_dropSaved (s : State) (v : Saved) : placesView (dropSaved s v) = placesView s :=
  foldl_keeps (g := placesView) (by intro _ e; exact foldl_keeps (g := placesView) (by intro _ _; rfl) e.2.held _) v.ctxs s

theorem waiting_stopPlacing (s : State) (lid : Nat) : ∀ w ∈ (stopPlacing s lid).tm.waiting, w.lid ≠ lid :=
  fun w hw => by simpa using (List.mem_filter.mp hw).2

/-- R229. Where no team of the launch has a slot, its places go and every Board stays as it is. -/
theorem stopPlacing_noBoards {lid : Nat} (h : boardsOf s lid = []) :
    (stopPlacing s lid).tm.boards = s.tm.boards ∧ (stopPlacing s lid).tm.launches = s.tm.launches ∧
      (stopPlacing s lid).ms.mem = s.ms.mem ∧ (stopPlacing s lid).cycle = s.cycle := by
  obtain ⟨agenda, placing, reserved, waiting, leaving, hstop⟩ := stopPlacing_eq s lid
  rw [hstop]
  refine ⟨?_, rfl, rfl, rfl⟩
  rw [h]
  exact List.map_id _

/-- R180. What of a launch without a team on a Board is given up. -/
theorem giveUp_noBoards {lid : Nat} (h : boardsOf s lid = []) :
    (∀ w ∈ (giveUp s lid).tm.waiting, w.lid ≠ lid) ∧ (∀ v ∈ (giveUp s lid).tm.swaps, v.lid ≠ lid) ∧
      boardsOf (giveUp s lid) lid = [] ∧ (giveUp s lid).tm.launches = s.tm.launches ∧
      (giveUp s lid).ms.mem = s.ms.mem ∧ (giveUp s lid).cycle = s.cycle := by
  have hview : placesView (giveUp s lid) = placesView (stopPlacing s lid) :=
    foldl_keeps (g := placesView) placesView_dropSaved _ _
  obtain ⟨hwaiting, hrest⟩ := Prod.ext_iff.mp hview
  obtain ⟨hboards, hrest⟩ := Prod.ext_iff.mp hrest
  obtain ⟨hlaunches, hrest⟩ := Prod.ext_iff.mp hrest
  obtain ⟨hmem, hcycle⟩ := Prod.ext_iff.mp hrest
  obtain ⟨sboards, slaunches, smem, scycle⟩ := stopPlacing_noBoards h
  refine ⟨fun w hw => ?_, fun v hv => ?_, ?_, hlaunches.trans slaunches, hmem.trans smem, hcycle.trans scycle⟩
  · exact waiting_stopPlacing s lid w ((congrArg (w ∈ ·) hwaiting).mp hw)
  · simpa using (List.mem_filter.mp hv).2
  · have hall : (giveUp s lid).tm.boards = s.tm.boards := hboards.trans sboards
    rw [boardsOf, hall]
    exact h

theorem marksLaunches.down {t : State} {k n : Nat} (h : marksLaunches s t) (hd : (tget s.tm.launches k).bind (·.down) = some n) :
    (tget t.tm.launches k).bind (·.down) = some n := by
  obtain ⟨l, hl, hdown⟩ := Option.bind_eq_some_iff.mp hd
  obtain ⟨l', hl', hmark⟩ := h.launch hl
  rw [hl']
  exact (congrArg Launch.down hmark :).trans hdown

/-- R180, R223. The teams of a launch that has none on a Board end. -/
theorem endLaunch_noBoards {lid : Nat} {l : Launch} (info0 info1 : W64) (hl : tget s.tm.launches lid = some l) (hd : l.down = none)
    (hb : boardsOf s lid = []) :
    ∃ u : State, endLaunch s lid info0 info1 = u.after (s.cycle + 16384) false .teamdownTimeout { a := lid } ∧
      (tget u.tm.launches lid).bind (·.down) = some s.cycle ∧ (∀ w ∈ u.tm.waiting, w.lid ≠ lid) ∧
      (∀ v ∈ u.tm.swaps, v.lid ≠ lid) ∧ u.ms.mem = s.ms.mem := by
  let s1 := s.modLaunch lid fun l => { l with down := some s.cycle, aband := none }
  let s2 := settEnd s1 lid 3
  have hmarks : marksLaunches s1 s2 := marksLaunches_settEnd
  have hdown : (tget s1.tm.launches lid).bind (·.down) = some s.cycle := by
    unfold s1
    rw [tget_modLaunch, if_pos rfl, hl]
    rfl
  have hboards : boardsOf s2 lid = [] := by
    obtain ⟨launches, hmod⟩ := modLaunch_eq s lid fun l => { l with down := some s.cycle, aband := none }
    rw [boardsOf, hmarks.boards, show s1 = _ from hmod]
    exact hb
  obtain ⟨hwaiting, hswaps, hnone, hlaunches, hmem, hcycle⟩ := giveUp_noBoards hboards
  refine ⟨giveUp s2 lid, ?_, ?_, hwaiting, hswaps, hmem.trans (by rw [hmarks.ms, modLaunch_ms])⟩
  · have hsince : (giveUp s2 lid).cycle = s.cycle := by
      rw [hcycle, hmarks.1]
      exact modLaunch_cycle _ _ _
    have hmembers (d : Down) : ((boardsOf (giveUp s2 lid) lid).flatMap fun e => membersOf e.1 e.2).foldl (downMember d)
        (giveUp s2 lid) = giveUp s2 lid := by rw [hnone]; rfl
    unfold endLaunch
    rw [hl]
    refine (if_neg (by simp [hd])).trans ?_
    refine (congrArg (fun u : State => u.after (u.cycle + 16384) false .teamdownTimeout { a := lid }) (hmembers _)).trans ?_
    rw [hsince]
  · rw [hlaunches]
    exact hmarks.down hdown

/-- R180. How Zitrum ends the teams of a launch that has none on a Board. -/
theorem teamEnd_noBoards {e : EvArg} {l : Launch} (hz : s.rt.zitrum = true) (hl : tget s.tm.launches e.a = some l)
    (hd : l.down = none) (hb : boardsOf s e.a = []) :
    ∃ u : State, teamEnd s e = u.after (s.cycle + 16384) false .teamdownTimeout { a := e.a } ∧
      (tget u.tm.launches e.a).bind (·.down) = some s.cycle ∧ (∀ w ∈ u.tm.waiting, w.lid ≠ e.a) ∧
      (∀ v ∈ u.tm.swaps, v.lid ≠ e.a) ∧ u.ms.mem = s.ms.mem := by
  let ended (l : Launch) : Launch := { l with ending := l.ending <|> some { status := 5, sub := e.c } }
  let s1 := if e.d = 2 then s.modLaunch e.a ended else s
  have hmarks : marksLaunches s s1 := marksLaunches_ite (marksLaunches_modLaunch fun _ => rfl) .refl
  obtain ⟨l', hl', hmark⟩ := hmarks.launch hl
  have hboards : boardsOf s1 e.a = [] := by
    rw [boardsOf, hmarks.boards]
    exact hb
  have hcycle : s1.cycle = s.cycle := by rw [hmarks.1]
  have hend (info0 info1 : W64) := endLaunch_noBoards info0 info1 hl' ((congrArg Launch.down hmark :).trans hd) hboards
  obtain ⟨info0, info1, hwhich⟩ : ∃ info0 info1, (if e.d = 0 then endLaunch s1 e.a (BitVec.ofNat 64 e.b) (BitVec.ofNat 64 e.c)
      else endLaunch s1 e.a (BitVec.allOnes 64) 0) = endLaunch s1 e.a info0 info1 := by
    split
    · exact ⟨_, _, rfl⟩
    · exact ⟨_, _, rfl⟩
  have hrun : teamEnd s e = endLaunch s1 e.a info0 info1 := by
    unfold teamEnd
    rw [stopCalls_noBoards hb]
    exact (if_neg (not_not_intro hz)).trans hwhich
  rw [hrun, ← hcycle, ← hmarks.ms]
  exact hend info0 info1

/-- R234. Without a Zitrum the end of the teams waits. -/
theorem teamEnd_waits {e : EvArg} (hz : s.rt.zitrum = false) (hc : s.cr.calls = []) :
    teamEnd s e = s.after (s.cycle + 1) false .teamEnd e := by
  unfold teamEnd
  rw [stopCalls_calm _ hc]
  exact if_pos (by simp [hz])

/-! ### The wait for the handlers of TEAMDOWN ends (R180) -/

section
variable {lid since : Nat}

theorem downTimeout_early (h : (tget s.tm.launches lid).bind (·.down) = some since) (ht : s.cycle < since + 16384) :
    downTimeout s lid = s := by
  unfold downTimeout
  rw [h]
  exact if_pos ht

theorem downTimeout_waits (h : (tget s.tm.launches lid).bind (·.down) = some since) (ht : since + 16384 ≤ s.cycle)
    (hz : s.rt.zitrum = false) : downTimeout s lid = s.after (s.cycle + 1) false .teamdownTimeout { a := lid } := by
  unfold downTimeout
  rw [h]
  exact (if_neg (Nat.not_lt.mpr ht)).trans (if_pos (by simp [hz]))

theorem downTimeout_ends (h : (tget s.tm.launches lid).bind (·.down) = some since) (ht : since + 16384 ≤ s.cycle)
    (hz : s.rt.zitrum = true) : downTimeout s lid =
      endEach (fun r => r = .running ∨ r = .preempted) s ((boardsOf s lid).flatMap fun e => membersOf e.1 e.2) := by
  unfold downTimeout
  rw [h]
  exact (if_neg (Nat.not_lt.mpr ht)).trans (if_neg (not_not_intro hz))

end

end

end Sys2Proof.Machine
end

section
/-! SUPPORT. Launches begin and end (R165, R166, R169, R170, R178, R180, R223, R234): O52. -/

namespace Sys2Proof.Machine

section
variable {s : State}

/-- R165. The packet at the head of the queue is taken. -/
theorem execLaunchAcceptance_head {q : Request} {rest : List Request} (hq : s.ho.requests = q :: rest) (hh : s.ms.holds = []) :
    exec .launchAcceptance s = .next (validate { s with ho := { s.ho with requests := rest } } q) := by
  change execLaunchAcceptance s = _
  unfold execLaunchAcceptance
  rw [hq]
  refine congrArg Host.Outcome.next ?_
  dsimp only
  rw [packetTouch_of_noHolds hh]

/-- R165. A packet that a check refuses. -/
theorem validate_refusal {q : Request} {status sub : Nat} (hh : s.ms.holds = [])
    (h : packetChecks s q.own (packetBytes s q) = .error (status, sub)) :
    ∃ v, validate s q = respond v q status sub 0 [] ∧ v.tm = { s.tm with launches := v.tm.launches } ∧ v.ctxs = s.ctxs ∧
      v.ho.requests = s.ho.requests ∧ v.ho.slots = s.ho.slots ∧
      ∀ k, (tget (validate s q).tm.launches k).isSome = (tget s.tm.launches k).isSome := by
  obtain ⟨v, ho, hstate, ⟨hv, hsome⟩, hrequests, hslots⟩ := refusedState_writes (q := q) (status := status) (sub := sub) hh
  have hans : (respond (refusedState s q status sub) q status sub 0 []).tm.launches = (refusedState s q status sub).tm.launches :=
    congrArg Prod.snd (memAndLaunches_respond _ _ _ _ _ _)
  refine ⟨refusedState s q status sub, validate_refuses h, ?_, ?_, ?_, ?_, fun k => ?_⟩
  · rw [hstate, hv]
  · rw [hstate, hv]
  · rw [hstate]
    exact hrequests
  · rw [hstate]
    exact hslots
  · rw [validate_refuses h, hans, hstate]
    exact hsome k

/-- R163, R165. A packet that passes every check. -/
theorem validate_acceptance {q : Request} {image : List Byte} (h : packetChecks s q.own (packetBytes s q) = .ok image) :
    ∃ v l, validate s q = placementRun (respond v q 0 0 (freshLid s) []) ∧ tget v.tm.launches (freshLid s) = some l ∧
      l.lid = freshLid s ∧ l.accept = s.tm.accepted + 1 ∧ l.image = measured image ∧
      l.digest = shake64 (measured image) ∧ l.nteams = pkNteams (packetBytes s q) ∧ l.tdone = 0 ∧
      v.ms.mem = s.ms.mem ∧ v.tm.accepted = s.tm.accepted + 1 := by
  have hview := acceptPacket_launch s q (packetBytes s q) image
  have hrun := validate_accepts h
  generalize freshLid s = lid at hview hrun ⊢
  obtain ⟨hlaunches, hrest⟩ := Prod.ext_iff.mp hview
  obtain ⟨haccepted, hmem⟩ := Prod.ext_iff.mp hrest
  refine ⟨(acceptPacket s q (packetBytes s q) image).2, launchOfPacket s (packetBytes s q) image lid q.route, hrun, ?_, rfl, rfl,
    rfl, rfl, rfl, rfl, hmem, haccepted⟩
  exact (congrArg (tget · lid) hlaunches).trans (tget_tput_same _ _ _)

/-- R169. A slot word for a slot that holds none. -/
theorem execBoardSlotWrite_empty (h : tget s.tm.boards s.ev.a = none) :
    exec .boardSlotWrite s = .next (writeSlot s s.ev.a (BitVec.ofNat 512 (bytesNat s.ev.body))) := by
  change execBoardSlotWrite s = _
  unfold execBoardSlotWrite
  dsimp only
  rw [h]

/-- R169. A slot word without a team for the slot of a team. -/
theorem execBoardSlotWrite_ended {b : BitVec 512} (h : tget s.tm.boards s.ev.a = some b) (hv : bV b = true)
    (hw : BitVec.ofNat 512 (bytesNat s.ev.body) = 0) : exec .boardSlotWrite s = .next (clearSlot s s.ev.a b) := by
  have hzero : ¬ bV 0 = true := by simp [bV]
  change execBoardSlotWrite s = _
  unfold execBoardSlotWrite
  dsimp only
  rw [h, hw]
  exact congrArg Host.Outcome.next (if_pos ⟨hv, hzero⟩)

end

/-- Settles O52: a packet's record, a slot word, a completion and the end of teams each by the rule of its operation. -/
theorem launchesBeginAndEnd : Obligations.LaunchesBeginAndEnd := by
  unfold Obligations.LaunchesBeginAndEnd
  intro s
  refine ⟨?_, ?_, ?_, ?_, ?_, ?_⟩
  · intro q rest hq u hh
    refine ⟨_, execLaunchAcceptance_head hq hh, fun st sub h => validate_refusal hh h,
      fun image h => ⟨?_, validate_acceptance h⟩⟩
    exact freshLid_free u
  · intro l w hfree hv hswap hl
    obtain ⟨hboard, hmem, hctx⟩ := writeSlot_binds (key := s.ev.a) hfree hv hswap hl
    refine ⟨_, ?_, hboard, hmem, fun c hc => ?_⟩
    · exact execBoardSlotWrite_empty hfree
    · obtain ⟨tried, h⟩ := hctx c hc
      rw [h]
      exact ⟨rfl, rfl, rfl, rfl, rfl⟩
  · intro b w hb hv hw
    obtain ⟨u, hclear, hnone, hmem, hspad, hrun⟩ := clearSlot_frees hb hv
    exact ⟨_, u, execBoardSlotWrite_ended hb hv hw, hclear, hnone, hmem, hspad, hrun⟩
  · intro l hl hlid
    refine ⟨if completionReady s l then complete s l else s, ?_, fun h => ?_, fun h => ?_⟩
    · change execLaunchCompletion s = _
      unfold execLaunchCompletion
      rw [hl]
    · exact if_neg (by simp [h])
    · rw [if_pos h]
      exact complete_removes s l
  · refine ⟨teamEnd s s.ev, rfl, fun hz hc => ?_, fun l hz hl hd hb => ?_⟩
    · rw [teamEnd_waits hz hc]
      exact ⟨rfl, rfl, rfl⟩
    · obtain ⟨u, hend, hdown, hwaiting, hswaps, hmem⟩ := teamEnd_noBoards hz hl hd hb
      rw [hend]
      exact ⟨hdown, hwaiting, hswaps, hmem, _, List.mem_append_right _ (List.mem_singleton.mpr rfl), rfl, rfl, rfl⟩
  · intro since hd
    refine ⟨downTimeout s s.ev.a, rfl, downTimeout_early hd, fun ht hz => ?_, fun ht hz => ?_⟩
    · rw [downTimeout_waits hd ht hz]
      exact ⟨rfl, rfl, rfl, _, List.mem_append_right _ (List.mem_singleton.mpr rfl), rfl, rfl, rfl⟩
    · rw [downTimeout_ends hd ht hz]
      refine ⟨congrArg (fun z => z.1) (endEach_keeps _ s).1, fun e he c hc => ?_⟩
      have hnot : ¬ (Run.stopped = .running ∨ Run.stopped = .preempted) := by simp
      have hall := endEach_run (p := fun r => r = .running ∨ r = .preempted) hnot
        ((boardsOf s s.ev.a).flatMap fun e => membersOf e.1 e.2) s c
      exact not_or.mp (hall.mpr (.inl (List.mem_flatMap.mpr ⟨e, he, hc⟩)))

end Sys2Proof.Machine
end

section
/-! SUPPORT. The boot and the fuses, `rt`, through branches, folds and the answers of the machine's functions (R195). -/

namespace Sys2Proof.Machine

section
variable {s t : State} {ρ : Rot} {α β : Type}

@[simp] theorem ite_rt {c : Prop} [Decidable c] {a b : State} : (if c then a else b).rt = if c then a.rt else b.rt :=
  apply_ite State.rt c a b

@[simp] theorem foldl_rt {f : State → α → State} {l : List α} (h : ∀ t a, (f t a).rt = t.rt) :
    (l.foldl f s).rt = s.rt :=
  foldl_keeps h l s

@[simp] theorem onSome_none_iff {P : α → Prop} : OnSome P none ↔ True := iff_of_true onSome_none trivial

@[simp] theorem onSome_some_iff {P : α → Prop} {a : α} : OnSome P (some a) ↔ P a :=
  ⟨fun h => h a rfl, onSome_some⟩

@[simp] theorem onSome_ite_iff {P : α → Prop} {c : Prop} [Decidable c] {a b : Option α} :
    OnSome P (if c then a else b) ↔ if c then OnSome P a else OnSome P b := by
  split <;> rfl

@[simp] theorem onSome_map_iff {P : β → Prop} {f : α → β} {o : Option α} :
    OnSome P (o.map f) ↔ OnSome (fun a => P (f a)) o := by
  cases o <;> simp

@[simp] theorem getD_rt {o : Option State} (h : OnSome (fun t => t.rt = s.rt) o) : (o.getD s).rt = s.rt :=
  onSome_getD h rfl

/-- What holds of the states that a request leaves. -/
def OnCommit (P : State → Prop) : Commit → Prop
  | .go s => P s
  | .held _ s => P s
  | .trap _ => True
  | .refuse _ s => P s

/-- What holds of the value of an engine's access, and of a state in which it waits. -/
def OnEng (P : State → Prop) (Q : α → Prop) : Eng α → Prop
  | .ok v => Q v
  | .fail _ => True
  | .wait s => P s

/-- What holds of the state of a service's answer. -/
def OnSvc (P : State → Prop) : Svc → Prop
  | .answer _ s => P s
  | .demand _ _ => True
  | .wait => True

/-- What holds of the next state of an outcome. -/
def OnNext (P : State → Prop) (o : Host.Outcome State Fault Refusal) : Prop := ∀ t, o = .next t → P t

section
variable {P : State → Prop} {Q : α → Prop} {c : Prop} [Decidable c]

@[simp] theorem onCommit_go : OnCommit P (.go s) ↔ P s := Iff.rfl
@[simp] theorem onCommit_held {b : Wait} : OnCommit P (.held b s) ↔ P s := Iff.rfl
@[simp] theorem onCommit_trap {t : Trap} : OnCommit P (.trap t) := trivial
@[simp] theorem onCommit_refuse {t : Trap} : OnCommit P (.refuse t s) ↔ P s := Iff.rfl
@[simp] theorem onCommit_ite {a b : Commit} :
    OnCommit P (if c then a else b) ↔ if c then OnCommit P a else OnCommit P b := by
  split <;> rfl
@[simp] theorem onEng_ok {v : α} : OnEng P Q (.ok v) ↔ Q v := Iff.rfl
@[simp] theorem onEng_fail {f : Fail} : OnEng P Q (.fail f) := trivial
@[simp] theorem onEng_wait : OnEng P Q (.wait s) ↔ P s := Iff.rfl
@[simp] theorem onEng_ite {a b : Eng α} : OnEng P Q (if c then a else b) ↔ if c then OnEng P Q a else OnEng P Q b := by
  split <;> rfl
@[simp] theorem onSvc_answer {v : W64} : OnSvc P (.answer v s) ↔ P s := Iff.rfl
@[simp] theorem onSvc_demand {a b : Nat} : OnSvc P (.demand a b) := trivial
@[simp] theorem onSvc_wait : OnSvc P .wait := trivial
@[simp] theorem onSvc_ite {a b : Svc} : OnSvc P (if c then a else b) ↔ if c then OnSvc P a else OnSvc P b := by
  split <;> rfl
@[simp] theorem onNext_next : OnNext P (.next s) ↔ P s := ⟨fun h => h s rfl, fun h t e => by cases e; exact h⟩
@[simp] theorem onNext_fault {f : Fault} : OnNext P (.fault f) := by
  intro t h
  cases h
@[simp] theorem onNext_ite {a b : Host.Outcome State Fault Refusal} :
    OnNext P (if c then a else b) ↔ if c then OnNext P a else OnNext P b := by
  split <;> rfl

end

theorem OnCommit.go {P : State → Prop} {o : Commit} (h : OnCommit P o) (e : o = .go s) : P s := by
  subst e
  exact h

theorem OnCommit.held {P : State → Prop} {o : Commit} {b : Wait} (h : OnCommit P o) (e : o = .held b s) : P s := by
  subst e
  exact h

theorem OnCommit.refuse {P : State → Prop} {o : Commit} {t : Trap} (h : OnCommit P o) (e : o = .refuse t s) : P s := by
  subst e
  exact h

theorem OnEng.ok {P : State → Prop} {Q : α → Prop} {o : Eng α} {v : α} (h : OnEng P Q o) (e : o = .ok v) : Q v := by
  subst e
  exact h

theorem OnEng.wait {P : State → Prop} {Q : α → Prop} {o : Eng α} (h : OnEng P Q o) (e : o = .wait s) : P s := by
  subst e
  exact h

theorem OnSvc.answer {P : State → Prop} {o : Svc} {v : W64} (h : OnSvc P o) (e : o = .answer v s) : P s := by
  subst e
  exact h

@[simp] theorem onSome_bind_iff {P : β → Prop} {f : α → Option β} {o : Option α} :
    OnSome P (o.bind f) ↔ OnSome (fun a => OnSome P (f a)) o := by
  cases o <;> simp

/-- A state's `rt` by a predicate of the state: where the kernel would else evaluate what a function's `match` is of. -/
theorem rt_of_all (h : ∀ P : State → Prop, (∀ u, u.rt = ρ → P u) → P t) : t.rt = ρ :=
  h (fun u => u.rt = ρ) fun _ hu => hu

end

end Sys2Proof.Machine
end

section
/-! SUPPORT. Every function of the machine but those of boots and hand-overs leaves the boot and the fuses alone (R195): one
rule for each, in the order of the machine's files. A rule that holds by computation has its `rfl` in parentheses: else
`simp` would take it for a definition's unfolding, which it does not use under a fold. -/

namespace Sys2Proof.Machine

section
-- One proof after another: as many at once as this section holds would each take a thread's stack.
set_option Elab.async false
variable {s : State} {ρ : Rot}

/-! ### Machine/Ops -/

@[simp] theorem bindCtx_rt {c x} : (s.bindCtx c x).rt = s.rt := (rfl)

@[simp] theorem pick_rt : s.pick.2.rt = s.rt := by
  unfold State.pick
  split <;> simp

@[simp] theorem fatal_rt {c t} : (s.fatal c t).rt = s.rt := by simp [State.fatal]

@[simp] theorem takeTrap_rt {c t} : (takeTrap c t s).rt = s.rt := by simp [takeTrap]

@[simp] theorem postNotice_rt {kind subject word1} : (postNotice s kind subject word1).rt = s.rt := by simp [postNotice]

/-! ### Machine/Budget -/

@[simp] theorem lendUnits_rt {die k res site n} : (lendUnits s die k res site n).rt = s.rt := (rfl)

@[simp] theorem noteLent_rt {die cls res site n} : (noteLent die cls res site n s).rt = s.rt := by simp [noteLent]

@[simp] theorem takeUnits_rt {die cls res site n} : (takeUnits s die cls res site n).rt = s.rt := by simp [takeUnits]

@[simp] theorem charge_rt {die cls res site n} : (charge s die cls res site n).rt = s.rt := by simp [charge]

@[simp] theorem chargeAll_rt {die cls l} : (chargeAll s die cls l).rt = s.rt := by simp [chargeAll]

@[simp] theorem waitFor_rt {die cls who l} : (s.waitFor die cls who l).rt = s.rt := (rfl)

@[simp] theorem payNeeds_rt {die cls c l} : (payNeeds die cls c l s).rt = s.rt := by simp [payNeeds]

@[simp] theorem holdBlocks_rt {c blocks} : (holdBlocks s c blocks).rt = s.rt := by simp [holdBlocks]

@[simp] theorem chargeBlocks_rt {c blocks} : (chargeBlocks s c blocks).rt = s.rt := by simp [chargeBlocks]

/-! ### Machine/Issue -/

@[simp] theorem landResult_rt {unit lat port v r} : (landResult unit lat port v r s).rt = s.rt := (rfl)

/-! ### Machine/Trans -/

@[simp] theorem startWalkBy_rt {d c comp page} : (startWalkBy s d c comp page).rt = s.rt := by
  unfold startWalkBy
  split <;> simp

@[simp] theorem startWalk_rt {c comp page} : (startWalk s c comp page).rt = s.rt := by simp [startWalk]

@[simp] theorem startDemand_rt {c comp page} : (startDemand s c comp page).rt = s.rt := by simp [startDemand]

@[simp] theorem routeHold_rt {c r} (h : s.rt = ρ) : OnSome (fun q => q.2.rt = ρ) (routeHold s c r) := by
  unfold routeHold
  split <;> simp [h]

/-! ### Machine/Lines -/

@[simp] theorem modLog_rt {lid die f} : (s.modLog lid die f).rt = s.rt := (rfl)

@[simp] theorem logAppend_rt {lid die kind site entries} : (logAppend s lid die kind site entries).rt = s.rt := (rfl)

@[simp] theorem replayed_rt {lid die kind site} : (replayed s lid die kind site).rt = s.rt := (rfl)

@[simp] theorem logEvent_rt {lid die kind site entries} :
    (logEvent s lid die kind site entries).rt = s.rt := by simp [logEvent]

@[simp] theorem diverge_rt {lid} : (diverge s lid).rt = s.rt := by simp [diverge]

/-! ### Machine/Mem -/

@[simp] theorem journalFor_rt {comp lid page} : (journalFor s comp lid page).rt = s.rt := (rfl)

@[simp] theorem physPut_rt {a bs} : (physPut s a bs).rt = s.rt := by simp [physPut]

@[simp] theorem pageWrite_rt {comp lid a bs} : (pageWrite s comp lid a bs).rt = s.rt := by simp [pageWrite]

@[simp] theorem physWrite_rt {lid a bs} : (physWrite s lid a bs).rt = s.rt := by simp [physWrite]

@[simp] theorem spadPut_rt {a bs} : (spadPut s a bs).rt = s.rt := by simp [spadPut]

@[simp] theorem spadWrite_rt {a bs} : (spadWrite s a bs).rt = s.rt := by simp [spadWrite]

@[simp] theorem wordWrite_rt {lid p v} : (wordWrite s lid p v).rt = s.rt := by
  unfold wordWrite
  split <;> simp

@[simp] theorem atomPerform_rt {lid op p a b} : (atomPerform s lid op p a b).2.rt = s.rt := by
  unfold atomPerform
  (repeat' split) <;> simp

@[simp] theorem seeOwn_rt {mine words} : (seeOwn s mine words).rt = s.rt := by simp [seeOwn]

@[simp] theorem applyUpd_rt {lid u} : (applyUpd s lid u).rt = s.rt := by
  unfold applyUpd
  split <;> simp

@[simp] theorem applyUpds_rt {lid l} : (applyUpds s lid l).rt = s.rt := by simp [applyUpds]

@[simp] theorem setBuf_rt {key b} : (s.setBuf key b).rt = s.rt := (rfl)

@[simp] theorem drain_rt {key cause} : (drain s key cause).rt = s.rt := by
  unfold drain
  split <;> simp

@[simp] theorem touch_rt {hit} (h : s.rt = ρ) : OnSome (fun t => t.rt = ρ) (touch s hit) := by
  refine onSome_foldl _ (onSome_some h) fun acc e ho => ?_
  split
  · simp
  · have ht := ho _ rfl
    split
    · split <;> simp [ht]
    · exact ho

@[simp] theorem leaveWindow_rt {hit} : (leaveWindow s hit).rt = s.rt := by simp [leaveWindow]

@[simp] theorem startFallback_rt {key h} : (startFallback s key h).rt = s.rt := by simp [startFallback]

@[simp] theorem closeFallback_rt {key} : (closeFallback s key).rt = s.rt := by
  unfold closeFallback
  (repeat' split) <;> simp

@[simp] theorem logReturn_rt {w p} (h : s.rt = ρ) : OnSome (fun t => t.rt = ρ) (logReturn s w p) := by
  unfold logReturn
  (repeat' split) <;> simp [h]

@[simp] theorem holdOwn_rt {w op p v} (h : s.rt = ρ) : OnSome (fun t => t.rt = ρ) (holdOwn s w op p v) := by
  unfold holdOwn
  dsimp only
  split <;> simp [h]

@[simp] theorem holdUpdate_rt {w op p v} (h : s.rt = ρ) : OnSome (fun t => t.rt = ρ) (holdUpdate s w op p v) := by
  unfold holdUpdate
  (repeat' split) <;> simp [h]

@[simp] theorem drainLaunch_rt {lid cause} : (drainLaunch s lid cause).rt = s.rt := by simp [drainLaunch]

@[simp] theorem atomArrive_rt {w op p a b} (h : s.rt = ρ) : OnSome (fun q => q.2.rt = ρ) (atomArrive s w op p a b) := by
  unfold atomArrive
  split
  · simp [h]
  · split
    · exact onSome_none
    next heq => simp [h, touch_rt rfl _ heq]

@[simp] theorem addAcc_rt {a} : (addAcc s a).rt = s.rt := (rfl)

@[simp] theorem startAcc_rt {c num slot wait} : (startAcc s c num slot wait).rt = s.rt := by
  unfold startAcc
  split <;> simp

@[simp] theorem sendAcc_rt {a wait} : (sendAcc s a wait).rt = s.rt := by simp [sendAcc]

@[simp] theorem accDone_rt {a} : (accDone s a).rt = s.rt := by
  unfold accDone
  split <;> simp

@[simp] theorem accRetry_rt {a row} : (accRetry s a row).rt = s.rt := (rfl)

@[simp] theorem sendValue_rt {c dest v addr loc} : (sendValue s c dest v addr loc).rt = s.rt := by simp [sendValue]

@[simp] theorem markEmpty_rt {c dest} : (markEmpty s c dest).rt = s.rt := by
  unfold markEmpty
  split <;> simp

@[simp] theorem swapPiece_rt {w p} (h : s.rt = ρ) : OnSome (fun t => t.rt = ρ) (swapPiece s w p) := by
  unfold swapPiece
  split
  · exact onSome_none
  next heq => simp [h, touch_rt rfl _ heq]

@[simp] theorem spadStore_rt {ps} (h : s.rt = ρ) : OnSome (fun t => t.rt = ρ) (spadStore s ps) := by
  refine onSome_foldl _ (onSome_some h) fun acc e ho => ?_
  split
  · simp
  · simp [ho _ rfl]

@[simp] theorem nextWord325_rt {a} : (nextWord325 s a).rt = s.rt := by simp [nextWord325]

@[simp] theorem performWrite_rt {a} : (performWrite s a).rt = s.rt := by
  unfold performWrite
  split
  · simp
  · split
    · split
      · simp
      next heq => simpa using atomArrive_rt rfl _ heq
    · split
      · simp
      · split
        · simp
        next heq => simp [swapPiece_rt rfl _ heq]
    · simp

@[simp] theorem performAtomic_rt {a row} : (performAtomic s a row).rt = s.rt := by
  unfold performAtomic
  split
  · simp
  · split
    · split
      · simp
      next heq => simpa using atomArrive_rt rfl _ heq
    · simp

@[simp] theorem performLoad_rt {a} : (performLoad s a).rt = s.rt := by
  unfold performLoad
  split
  · simp
  · split
    next heq => simp [touch_rt rfl _ heq]
    · simp
    · simp

@[simp] theorem performChain_rt {a} : (performChain s a).rt = s.rt := by
  unfold performChain
  split <;> simp

@[simp] theorem performPatch_rt {a} : (performPatch s a).rt = s.rt := by
  unfold performPatch
  (repeat' split) <;> simp

@[simp] theorem setTag_rt {a on} : (setTag s a on).rt = s.rt := (rfl)

@[simp] theorem dropReqs_rt {gone} : (dropReqs s gone).rt = s.rt := (rfl)

@[simp] theorem serveLoad_rt {s0 : State} {q} : (serveLoad s0 q).rt = s0.rt := by simp [serveLoad]

@[simp] theorem serveStore_rt {s0 : State} {q} : (serveStore s0 q).rt = s0.rt := by simp [serveStore]

@[simp] theorem replayTag_rt {lid die site n} : (replayTag s lid die site n).rt = s.rt := (rfl)

@[simp] theorem serveTag_rt {a fuel} : (serveTag a fuel s).rt = s.rt := by
  induction fuel generalizing s with
  | zero => rfl
  | succ fuel ih =>
    unfold serveTag
    dsimp only
    split
    · rfl
    · split
      · rfl
      · split <;> simp [ih] <;> split <;> simp

@[simp] theorem serveWord_rt {a} : (serveWord s a).rt = s.rt := by simp [serveWord]

@[simp] theorem tagArrive_rt {q} : (tagArrive s q).rt = s.rt := by simp [tagArrive]

@[simp] theorem tagStale_rt {q} : (tagStale s q).rt = s.rt := by
  unfold tagStale
  dsimp only
  (repeat' split) <;> simp

@[simp] theorem performCluster_rt {a} : (performCluster s a).rt = s.rt := by
  unfold performCluster
  split
  · simp
  · split
    · split
      · split
        · simp
        next heq => simpa using atomArrive_rt rfl _ heq
      · simp
      · split
        · simp
        next heq => simp [spadStore_rt rfl _ heq]
    · simp

/-! ### Machine/Ls -/

@[simp] theorem spadHold_rt {r a core words sync} (h : s.rt = ρ) :
    OnSome (fun q => q.2.rt = ρ) (spadHold r s a core words sync) := by simp [spadHold, h]

@[simp] theorem wordsHold_rt {r rt words sync} (h : s.rt = ρ) :
    OnSome (fun q => q.2.rt = ρ) (wordsHold r s rt words sync) := by
  unfold wordsHold
  (repeat' split) <;> simp [h]

@[simp] theorem accessHold_rt {r rt size sync} (h : s.rt = ρ) :
    OnSome (fun q => q.2.rt = ρ) (accessHold r s rt size sync) := by simp [accessHold, h]

@[simp] theorem clusterCommit_rt {r sync} (h : s.rt = ρ) : OnCommit (fun t => t.rt = ρ) (clusterCommit r s sync) := by
  unfold clusterCommit
  dsimp only
  (repeat' split) <;> simp [h]

@[simp] theorem loadCommit_rt {r a size} (h : s.rt = ρ) : OnCommit (fun t => t.rt = ρ) (loadCommit r s a size) := by
  unfold loadCommit
  split
  · split
    next heq _ => simp [h, (clusterCommit_rt rfl).go heq]
    next heq _ => simp [h, (clusterCommit_rt rfl).go heq]
  next heq => simp [h, (clusterCommit_rt rfl).held heq]
  · trivial
  next heq => simp [h, (clusterCommit_rt rfl).refuse heq]

@[simp] theorem lineReadCheck_rt {r key} (h : s.rt = ρ) : OnCommit (fun t => t.rt = ρ) (lineReadCheck r s key) := by
  unfold lineReadCheck
  (repeat' split) <;> simp [h]

@[simp] theorem patchWriteCheck_rt {r key a} (h : s.rt = ρ) :
    OnCommit (fun t => t.rt = ρ) (patchWriteCheck r s key a) := by
  unfold patchWriteCheck
  split <;> simp [h]

/-! ### Machine/Mx -/

@[simp] theorem putRow_rt {core g ex es} : (putRow s core g ex es).rt = s.rt := by
  unfold putRow
  split <;> simp

@[simp] theorem takeBanks_rt {holder e core} :
    ∀ {first n : Nat} {s : State}, (takeBanks holder e core first n s).rt = s.rt
  | _, 0, _ => rfl
  | _, n + 1, _ => takeBanks_rt (n := n)

@[simp] theorem dropBanks_rt {core} : ∀ {first n : Nat} {s : State}, (dropBanks core first n s).rt = s.rt
  | _, 0, _ => rfl
  | _, n + 1, _ => dropBanks_rt (n := n)

@[simp] theorem rowHold_rt {r} (h : s.rt = ρ) : OnSome (fun q => q.2.rt = ρ) (rowHold r s) := by simp [rowHold, h]

@[simp] theorem rowFlags_rt {c f} : (rowFlags s c f).rt = s.rt := (rfl)

@[simp] theorem landWb_rt {c d v} : (landWb s c d v).rt = s.rt := (rfl)

@[simp] theorem endCall_rt {core k st row} : (endCall s core k st row).rt = s.rt := by
  unfold endCall
  split <;> simp

@[simp] theorem stopNow_rt {core k} : (stopNow s core k).rt = s.rt := by simp [stopNow]

@[simp] theorem stopAsked_rt {core k} : (stopAsked s core k).rt = s.rt := by simp [stopAsked]

@[simp] theorem stopCall_rt {c} : (stopCall s c).rt = s.rt := by
  unfold stopCall
  split <;> simp

@[simp] theorem startCall_rt {c slot num dest rout p0 p1 p2 p3 p4 p5 p6 p7} :
    (startCall s c slot num dest rout p0 p1 p2 p3 p4 p5 p6 p7).rt = s.rt := by
  unfold startCall
  split <;> simp

@[simp] theorem mxHold_rt {c cost} (h : s.rt = ρ) :
    OnSome (fun q => q.2.rt = ρ) (mxHold s c cost) := by simp [mxHold, h]

@[simp] theorem enterQuad_rt {core a j minus} : ∀ {i : Nat} {A B : Rows} {s : State},
    (enterQuad s core a i j minus A B).1.rt = s.rt
  | _, [], _, _ => rfl
  | _, _ :: A, _, _ => (enterQuad_rt (A := A)).trans putRow_rt

@[simp] theorem clampQuad_rt {core a j} : ∀ {i n : Nat} {s : State}, (clampQuad core a i j n s).1.rt = s.rt
  | _, 0, _ => rfl
  | _, n + 1, _ => (clampQuad_rt (n := n)).trans putRow_rt

@[simp] theorem enterProduct_rt {core a i0 j0 A B l} : (enterProduct core a i0 j0 A B l s).1.rt = s.rt := by
  induction l generalizing s with
  | nil => rfl
  | cons _ _ ih => simp [enterProduct, ih]

@[simp] theorem recombine_rt {core a i0 j0 n minA minB A B l} :
    (recombine core a i0 j0 n minA minB A B l s).1.rt = s.rt := by
  induction l generalizing s with
  | nil => rfl
  | cons _ _ ih => simp [recombine, ih]

@[simp] theorem classical_rt {core a i0 j0 A B l} : (classical core a i0 j0 A B l s).1.rt = s.rt := by
  induction l generalizing s with
  | nil => rfl
  | cons _ _ ih => simp [classical, ih]

@[simp] theorem maskQuad_rt {core a base stride j} : ∀ {i n : Nat} {s : State},
    (maskQuad core a base stride i j n s).1.rt = s.rt
  | _, 0, _ => rfl
  | _, n + 1, _ => (maskQuad_rt (n := n)).trans putRow_rt

@[simp] theorem maskTile_rt {core a base stride l} : (maskTile core a base stride l s).1.rt = s.rt := by
  induction l generalizing s with
  | nil => rfl
  | cons _ _ ih =>
    unfold maskTile
    exact ih.trans maskQuad_rt

@[simp] theorem gemmStep_rt {k core a r p} : (gemmStep s k core a r p).1.rt = s.rt := by
  unfold gemmStep
  dsimp only
  split <;> simp

@[simp] theorem accLoad_rt {core a x j} : ∀ {i n : Nat} {s : State}, (accLoad core a x i j n s).1.rt = s.rt
  | _, 0, _ => rfl
  | _, n + 1, _ => (accLoad_rt (n := n)).trans putRow_rt

@[simp] theorem accNormRows_rt {core a j} : ∀ {i n : Nat} {s : State}, (accNormRows core a i j n s).1.rt = s.rt
  | _, 0, _ => rfl
  | _, n + 1, _ => (accNormRows_rt (n := n)).trans putRow_rt

@[simp] theorem accZeroRows_rt {core a j} : ∀ {i n : Nat} {s : State}, (accZeroRows core a i j n s).1.rt = s.rt
  | _, 0, _ => rfl
  | _, n + 1, _ => (accZeroRows_rt (n := n)).trans putRow_rt

@[simp] theorem runStep_rt {core k} : (runStep s core k).1.rt = s.rt := by
  unfold runStep
  dsimp only
  (repeat' split) <;> simp

@[simp] theorem stepTouch_rt {k} (h : s.rt = ρ) : OnSome (fun t => t.rt = ρ) (stepTouch s k) := by simp [stepTouch, h]

@[simp] theorem runSeen_rt {core k fs} : (runSeen s core k fs).1.rt = s.rt := by
  unfold runSeen
  dsimp only
  split <;> simp

@[simp] theorem putStores_rt {late l} : (putStores late l s).2.rt = s.rt := by
  induction l generalizing late s with
  | nil => rfl
  | cons _ _ ih =>
    unfold putStores
    split
    next u heq =>
      have hu : u.rt = s.rt := onSome_ite onSome_none (spadStore_rt rfl) u heq
      simp [ih, hu]
    · simp [ih]

@[simp] theorem performStores_rt {core all} : (performStores s core all).rt = s.rt := by
  unfold performStores
  dsimp only
  (repeat' split) <;> simp

@[simp] theorem beginStep_rt {core k fs} : (beginStep s core k fs).rt = s.rt := by
  unfold beginStep
  dsimp only
  split <;> simp

@[simp] theorem execMatrixStepBegin_rt (h : s.rt = ρ) : OnNext (fun t => t.rt = ρ) (execMatrixStepBegin s) := by
  unfold execMatrixStepBegin
  dsimp only
  split
  · simp [h]
  · split
    · simp [h]
    · split
      · simp [h]
      · split
        · simp [h]
        · split
          next heq _ _ _ _ => simp [h, stepTouch_rt rfl _ heq]
          next heq _ _ => simp [h, stepTouch_rt rfl _ heq]

@[simp] theorem endStep_rt {core k} : (endStep s core k).rt = s.rt := by
  unfold endStep
  dsimp only
  split <;> simp

@[simp] theorem execMatrixStepEnd_rt (h : s.rt = ρ) : OnNext (fun t => t.rt = ρ) (execMatrixStepEnd s) := by
  unfold execMatrixStepEnd
  dsimp only
  (repeat' split) <;> simp [h]

@[simp] theorem reissueCall_rt {c} : (reissueCall c s).rt = s.rt := by
  unfold reissueCall
  dsimp only
  split
  · rfl
  · split
    · simp
    · split
      · simp
      · split
        · simp
        · split
          next heq => simpa using mxHold_rt rfl _ heq
          · simp

/-! ### Machine/Sett -/

@[simp] theorem wakeSetts_rt {lid} : (wakeSetts s lid).rt = s.rt := foldl_rt fun _ _ => after_rt ..

@[simp] theorem settEnd_rt {lid code} : (settEnd s lid code).rt = s.rt := by
  unfold settEnd
  split <;> simp

@[simp] theorem settTest_rt {lid conv} : (settTest s lid conv).rt = s.rt := by
  unfold settTest
  split <;> simp

@[simp] theorem setSat_rt {c on} : (setSat s c on).rt = s.rt := by simp [setSat]

@[simp] theorem settAdd_rt {c lid idx delta} : (settAdd s c lid idx delta).rt = s.rt := by
  unfold settAdd
  split <;> simp

@[simp] theorem settSet_rt {lid idx gain} : (settSet s lid idx gain).rt = s.rt := by simp [settSet]

@[simp] theorem settDone_rt {c lid idx code} : (settDone s c lid idx code).rt = s.rt := by
  unfold settDone
  split <;> simp

@[simp] theorem dropSettRecord_rt {lid die} : (dropSettRecord s lid die).rt = s.rt := (rfl)

@[simp] theorem answerPop_rt {key w answer idx} : (answerPop s key w answer idx).rt = s.rt := by simp [answerPop]

@[simp] theorem settMove_rt {lid donor receiver idxs fresh} : (settMove s lid donor receiver idxs fresh).rt = s.rt := by
  unfold settMove
  split <;> simp

@[simp] theorem servePops_rt {key fuel} : (servePops key fuel s).rt = s.rt := by
  induction fuel generalizing s with
  | zero => rfl
  | succ fuel ih =>
    unfold servePops
    dsimp only
    split
    · split
      · split
        · simp [ih]
        · split
          · rfl
          · simp [ih]
      · split
        · rfl
        · split
          · simp
          · split
            · simp [ih]
            · split
              · simp [ih]
              · split
                · simp [ih]
                · rfl
    · rfl

@[simp] theorem serveSett_rt {key} : (serveSett s key).rt = s.rt := by simp [serveSett]

@[simp] theorem popArrive_rt {key c dest poll} : (popArrive s key c dest poll).rt = s.rt := by
  unfold popArrive
  dsimp only
  split <;> simp

@[simp] theorem sendSett_rt {o} : (sendSett s o).rt = s.rt := by simp [sendSett]

@[simp] theorem countTeam_rt {c} : (countTeam s c).rt = s.rt := by simp [countTeam]

@[simp] theorem settArrive_rt {id} : (settArrive s id).rt = s.rt := by
  unfold settArrive
  (repeat' split) <;> simp

@[simp] theorem releaseItems_rt {c} : (releaseItems s c).rt = s.rt := by
  unfold releaseItems
  simp only [settTest_rt, modCtx_rt]
  exact foldl_rt fun _ _ => modItem_rt ..

/-! ### Machine/Replay -/

@[simp] theorem divergeCheck_rt {lid} : (divergeCheck s lid).rt = s.rt := by simp [divergeCheck]

/-! ### Machine/Badger -/

@[simp] theorem walkGate_rt {r key n} {f : State → Commit} (h : s.rt = ρ)
    (hf : ∀ t, OnCommit (fun u => u.rt = t.rt) (f t)) : OnCommit (fun t => t.rt = ρ) (walkGate r s key n f) := by
  unfold walkGate
  subst h
  dsimp only
  split
  · simpa using hf (takeUnits s _ _ _ _ _)
  · simp

@[simp] theorem doPopen_rt {r} (h : s.rt = ρ) : OnCommit (fun t => t.rt = ρ) (doPopen r s) := by
  unfold doPopen
  dsimp only
  (repeat' split) <;> simp [h]

@[simp] theorem ownWritesIn_rt {c key} : (ownWritesIn s c key).rt = s.rt := by simp [ownWritesIn]

@[simp] theorem doPclose_rt {s0 : State} {r } (h : s0.rt = ρ) : OnCommit (fun t => t.rt = ρ) (doPclose r s0) := by
  unfold doPclose
  dsimp only
  (repeat' split) <;> simp [h]

@[simp] theorem doPcomm_rt {r} (h : s.rt = ρ) : OnCommit (fun t => t.rt = ρ) (doPcomm r s) := by
  unfold doPcomm
  dsimp only
  (repeat' split) <;> simp [h]

@[simp] theorem doPinv_rt {r} (h : s.rt = ρ) : OnCommit (fun t => t.rt = ρ) (doPinv r s) := by
  unfold doPinv
  dsimp only
  (repeat' split) <;> simp [h]

@[simp] theorem doPfork_rt {r} (h : s.rt = ρ) : OnCommit (fun t => t.rt = ρ) (doPfork r s) := by
  unfold doPfork
  dsimp only
  (repeat' split) <;> simp [h]

@[simp] theorem doPxpl_rt {r} (h : s.rt = ρ) : OnCommit (fun t => t.rt = ρ) (doPxpl r s) := by
  unfold doPxpl
  dsimp only
  (repeat' split) <;> simp [h]

@[simp] theorem doPfold_rt {r} (h : s.rt = ρ) : OnCommit (fun t => t.rt = ρ) (doPfold r s) := by
  unfold doPfold
  dsimp only
  (repeat' split) <;> simp [h]

@[simp] theorem markNoUndo_rt {lid} : (markNoUndo s lid).rt = s.rt := by simp [markNoUndo]

@[simp] theorem markLost_rt {lid l} : (markLost s lid l).rt = s.rt := by simp [markLost]

@[simp] theorem doPsq_rt {r} (h : s.rt = ρ) : OnCommit (fun t => t.rt = ρ) (doPsq r s) := by simp [doPsq, h]

@[simp] theorem doPreg_rt {r} (h : s.rt = ρ) : OnCommit (fun t => t.rt = ρ) (doPreg r s) := by
  unfold doPreg
  split <;> simp [h]

@[simp] theorem doPdrop_rt {r} (h : s.rt = ρ) : OnCommit (fun t => t.rt = ρ) (doPdrop r s) := by simp [doPdrop, h]

@[simp] theorem discardOpens_rt {c} : (discardOpens s c).rt = s.rt := (rfl)

/-! ### Machine/Engine -/

@[simp] theorem cmdPerformed_rt {id c n m} : (cmdPerformed s id c n m).rt = s.rt := (rfl)

@[simp] theorem cmdStop_rt {id f} : (cmdStop s id f).rt = s.rt := (rfl)

@[simp] theorem mapOpens_rt {f} : (mapOpens f s).rt = s.rt := (rfl)

@[simp] theorem inSaved_rt {v} {f : State → State} (hf : ∀ t, (f t).rt = t.rt) : (inSaved s v f).rt = s.rt := by
  simp [inSaved, hf]

@[simp] theorem withTeam_rt {k} {f : State → State} (hf : ∀ t, (f t).rt = t.rt) : (withTeam s k f).rt = s.rt := by
  unfold withTeam
  split
  · split
    · exact inSaved_rt hf
    · exact hf s
  · exact hf s

@[simp] theorem cmdGone_rt {k} : (cmdGone s k).rt = s.rt := by
  unfold cmdGone
  dsimp only
  (repeat' split) <;> simp

@[simp] theorem pushEntries_rt {c q l} : (pushEntries s c q l).1.rt = s.rt := by
  induction l generalizing s with
  | nil => rfl
  | cons _ _ ih =>
    unfold pushEntries
    split
    · rfl
    · simp [ih]

@[simp] theorem postStatus_rt {k entries} : (postStatus s k entries).rt = s.rt := by simp [postStatus]

@[simp] theorem retireCmd_rt {id} : (retireCmd s id).rt = s.rt := by
  unfold retireCmd
  (repeat' split) <;> simp

@[simp] theorem retryStatus_rt {id} : (retryStatus s id).rt = s.rt := by
  unfold retryStatus
  split <;> simp

@[simp] theorem engWalk_rt {k comp page} : (engWalk s k comp page).rt = s.rt := by simp [engWalk]

@[simp] theorem engDropped_rt {k key va l} (h : s.rt = ρ) :
    OnEng (fun t => t.rt = ρ) (fun _ => True) (engDropped s k key va l) := by simp [engDropped, h]

@[simp] theorem engRead_rt {k va size rt read beside} (h : s.rt = ρ) :
    OnEng (fun t => t.rt = ρ) (fun _ => True) (engRead s k va size rt read beside) := by
  unfold engRead
  dsimp only
  (repeat' split) <;> simp [h]

@[simp] theorem engTouch_rt {rt size} : (engTouch s rt size).rt = s.rt := by
  unfold engTouch
  split <;> simp

@[simp] theorem addWrite_rt {k place bs gs fill count} : (addWrite s k place bs gs fill count).rt = s.rt := (rfl)

@[simp] theorem fillWord_rt {w} : (fillWord s w).rt = s.rt := by simp [fillWord]

@[simp] theorem fillOrLeave_rt {cmd id t x} : (fillOrLeave cmd id t x).rt = t.rt := by
  unfold fillOrLeave
  dsimp only
  split <;> simp

@[simp] theorem fillWords_rt {w} : (fillWords w s).rt = s.rt := by simp [fillWords]

@[simp] theorem writeStep_rt {w} (h : s.rt = ρ) : OnSome (fun q => q.1.rt = ρ) (writeStep s w) := by
  unfold writeStep
  (repeat' split) <;> simp [h]

@[simp] theorem writeDone_rt {w} : (writeDone s w).rt = s.rt := (rfl)

@[simp] theorem writeLater_rt {id n} : (writeLater s id n).rt = s.rt := (rfl)

@[simp] theorem performEng_rt {id fuel} : (performEng id fuel s).rt = s.rt := by
  induction fuel generalizing s with
  | zero => rfl
  | succ fuel ih =>
    unfold performEng
    split
    · rfl
    · split
      · simp
      · split
        · simp
        next heq => simpa using writeStep_rt rfl _ heq
        next heq => simpa [ih] using writeStep_rt rfl _ heq

@[simp] theorem startWrite_rt {id} : (startWrite s id).rt = s.rt := by simp [startWrite]

@[simp] theorem performWriteOf_rt {id} : (performWriteOf s id).rt = s.rt := by
  unfold performWriteOf
  split
  · simp
  · split <;> simp

@[simp] theorem engTarget_rt {k va bs rt grans} (h : s.rt = ρ) :
    OnEng (fun t => t.rt = ρ) (fun _ => True) (engTarget s k va bs rt grans) := by
  unfold engTarget
  split <;> simp [h]

@[simp] theorem engWrite_rt {k va bs rt grans fill count} (h : s.rt = ρ) :
    OnEng (fun t => t.rt = ρ) (fun t => t.rt = ρ) (engWrite s k va bs rt grans fill count) := by
  unfold engWrite
  split
  · trivial
  next heq => simp [h, (engTarget_rt rfl).wait heq]
  · simp [h]

@[simp] theorem takePlaces_rt {k} : (takePlaces s k).1.rt = s.rt := (rfl)

@[simp] theorem acceptCmd_rt {op r} : (acceptCmd op r s).rt = s.rt := by
  unfold acceptCmd
  split <;> simp

/-! ### Machine/Freight -/

@[simp] theorem fillCut_rt {k n} : (fillCut s k n).rt = s.rt := by simp [fillCut]

@[simp] theorem elemSource_rt {k n} (h : s.rt = ρ) :
    OnEng (fun t => t.rt = ρ) (fun q => q.2.rt = ρ) (elemSource s k n) := by
  unfold elemSource
  dsimp only
  split
  · simp [h]
  · split
    · trivial
    · split
      · simp [h]
      · trivial
      next heq => simp [h, (engRead_rt rfl).wait heq]

@[simp] theorem elemMove_rt {k n} (h : s.rt = ρ) : OnEng (fun t => t.rt = ρ) (fun t => t.rt = ρ) (elemMove s k n) := by
  unfold elemMove
  dsimp only
  split
  · trivial
  next heq => exact (elemSource_rt h).wait heq
  next heq =>
    have h1 := (elemSource_rt h).ok heq
    split
    · trivial
    · split
      · trivial
      next heq => exact (engWrite_rt h1).wait heq
      next heq => simpa using (engWrite_rt h1).ok heq

@[simp] theorem readAside_rt {k base a size} (h : s.rt = ρ) :
    OnEng (fun t => t.rt = ρ) (fun q => q.2.rt = ρ) (readAside s k base a size) := by
  unfold readAside
  dsimp only
  split
  · trivial
  · split
    · trivial
    next heq => simp [h, (engRead_rt rfl).wait heq]
    · simp [h]

@[simp] theorem asidePart_rt {k n j a bs} (h : s.rt = ρ) :
    OnEng (fun t => t.rt = ρ) (fun _ => True) (asidePart s k n j a bs) := by
  unfold asidePart
  dsimp only
  split
  · trivial
  · split
    · trivial
    next heq => simp [h, (engTarget_rt rfl).wait heq]
    · trivial

@[simp] theorem blockSource_rt {k n va band rt} (h : s.rt = ρ) :
    OnEng (fun t => t.rt = ρ) (fun q => q.2.2.2.rt = ρ) (blockSource s k n va band rt) := by
  unfold blockSource
  dsimp only
  split
  · trivial
  next heq => exact (engRead_rt h).wait heq
  · split
    · simpa using h
    · split
      · trivial
      next heq => exact (readAside_rt (by simpa using h)).wait heq
      next heq =>
        have ht := (readAside_rt (ρ := ρ) (by simpa using h)).ok heq
        split
        · split
          · trivial
          next heq => exact (readAside_rt ht).wait heq
          next heq => exact (readAside_rt ht).ok heq
        · exact ht

@[simp] theorem sideParts_rt {k n sc band} (h : s.rt = ρ) :
    OnEng (fun t => t.rt = ρ) (fun _ => True) (sideParts s k n sc band) := by
  unfold sideParts
  split
  · trivial
  next heq => simp [h, (asidePart_rt rfl).wait heq]
  · split
    · trivial
    · split
      · trivial
      next heq => simp [h, (asidePart_rt rfl).wait heq]
      · trivial

@[simp] theorem issueParts_rt {k l} : (issueParts k l s).rt = s.rt := by simp [issueParts]

@[simp] theorem blockMove_rt {k n} (h : s.rt = ρ) :
    OnEng (fun t => t.rt = ρ) (fun t => t.rt = ρ) (blockMove s k n) := by
  unfold blockMove
  dsimp only
  split
  · trivial
  · split
    · trivial
    · split
      · split
        next heq => exact (engTarget_rt h).wait heq
        · trivial
        · simpa using h
      · split
        · trivial
        next heq => exact (blockSource_rt h).wait heq
        next heq =>
          have ht := (blockSource_rt h).ok heq
          split
          · trivial
          · split
            · split
              · trivial
              next heq => exact (engWrite_rt ht).wait heq
              next heq => simpa using (engWrite_rt ht).ok heq
            · split
              · trivial
              next heq => exact (sideParts_rt ht).wait heq
              · split
                · trivial
                next heq => exact (engTarget_rt ht).wait heq
                · simpa using ht

@[simp] theorem burstEnds_rt {id} : (burstEnds s id).rt = s.rt := (rfl)

@[simp] theorem moveElems_rt {id fuel} : (moveElems id fuel s).rt = s.rt := by
  induction fuel generalizing s with
  | zero => rfl
  | succ fuel ih =>
    unfold moveElems
    split
    · rfl
    next k _ =>
      split
      · rfl
      · have hk : OnEng (fun t => t.rt = s.rt) (fun t => t.rt = s.rt)
            (if k.block then blockMove s k k.next else elemMove s k k.next) := by simp
        split
        · simp
        next heq => exact hk.wait heq
        next heq => simpa [ih] using hk.ok heq

@[simp] theorem burstOf_rt {k} : (burstOf s k).rt = s.rt := by simp [burstOf]

@[simp] theorem freightBurstOf_rt {eng} : (freightBurstOf s eng).rt = s.rt := by
  unfold freightBurstOf
  dsimp only
  split <;> simp

/-! ### Machine/Shuttle -/

@[simp] theorem readRange_rt {k l} (h : s.rt = ρ) :
    OnEng (fun t => t.rt = ρ) (fun q => q.2.rt = ρ) (readRange s k l) := by
  induction l generalizing s with
  | nil => exact h
  | cons e l ih =>
    unfold readRange
    split
    · trivial
    · dsimp only
      split
      · trivial
      next heq =>
        split at heq
        · nomatch heq
        · exact (engRead_rt h).wait heq
      · split
        · trivial
        · split
          next heq => exact ((ih (by simpa using h)).ok heq :)
          · trivial
          next heq => exact ((ih (by simpa using h)).wait heq :)

@[simp] theorem planWrites_rt {k l bs ws} (h : s.rt = ρ) :
    OnEng (fun t => t.rt = ρ) (fun _ => True) (planWrites s k l bs ws) := by
  induction l generalizing bs ws with
  | nil => trivial
  | cons e l ih =>
    unfold planWrites
    split
    · trivial
    · dsimp only
      split
      · trivial
      next heq =>
        split at heq
        · nomatch heq
        · exact ((engTarget_rt (s := { s with en := { s.en with writes := s.en.writes ++ ws } }) h).wait heq :)
      · split
        · trivial
        · exact ih

@[simp] theorem writeWhole_rt {w} (h : s.rt = ρ) : OnSome (fun t => t.rt = ρ) (writeWhole s w) := by
  unfold writeWhole
  split
  · exact onSome_foldl _ (onSome_some h) fun _ _ ho => onSome_bind ho fun _ ht => swapPiece_rt ht
  · simp [h]
  · simp [h]

@[simp] theorem planAdds_rt {k fuel e bs} (h : s.rt = ρ) :
    OnEng (fun t => t.rt = ρ) (fun _ => True) (planAdds s k fuel e bs) := by
  induction fuel generalizing e bs with
  | zero => trivial
  | succ fuel ih =>
    unfold planAdds
    extract_lets
    split
    · trivial
    · split
      · trivial
      · extract_lets
        split
        · trivial
        · split
          · trivial
          next heq => exact (engRead_rt h).wait heq
          · split
            · trivial
            next heq => exact ih.wait heq
            · trivial

@[simp] theorem writeAdds_rt {k l} (h : s.rt = ρ) : OnSome (fun t => t.rt = ρ) (writeAdds s k l) :=
  onSome_foldl _ (onSome_some h) fun _ _ ho => onSome_bind ho fun _ ht => by
    split <;> simp [ht]

@[simp] theorem payChunk_rt {send c fuel k} : (payChunk send c fuel s k).2.rt = s.rt := by
  induction fuel generalizing s k with
  | zero => rfl
  | succ fuel ih =>
    unfold payChunk
    extract_lets _ _ _ uses paid t
    have ht : t.rt = s.rt := by simp [t]
    split
    · rfl
    · split
      · simp [ih, ht]
      · simp

@[simp] theorem portStatus_rt {p st peer pport lanes} :
    (portStatus s p st peer pport lanes).rt = s.rt := by simp [portStatus]

@[simp] theorem sendBytes_rt {k bs} : (sendBytes s k bs).rt = s.rt := (rfl)

@[simp] theorem shuttleRetry_rt {id} : (shuttleRetry s id).rt = s.rt := (rfl)

@[simp] theorem shuttleDone_rt {id} : (shuttleDone s id).rt = s.rt := by
  unfold shuttleDone
  split <;> simp

@[simp] theorem sendChunk_rt {k} : (sendChunk s k).rt = s.rt := by
  unfold sendChunk
  split
  · rfl
  next c _ =>
    have hp : (payChunk true c 5 s k).2.rt = s.rt := payChunk_rt
    split
    · simp
    · split
      next heq => simpa [heq] using hp
      next heq =>
        rw [heq] at hp
        split
        · simpa using hp
        next heq => simpa using (readRange_rt hp).wait heq
        next heq => simpa using (readRange_rt hp).ok heq

@[simp] theorem findMatches_rt {k} : (findMatches s k).rt = s.rt := by
  unfold findMatches
  dsimp only
  split <;> simp

@[simp] theorem shuttleGo_rt {id} : (shuttleGo s id).rt = s.rt := by
  unfold shuttleGo
  dsimp only
  (repeat' split) <;> simp

@[simp] theorem peerPosts_rt {e} : (peerPosts s e).rt = s.rt := by simp [peerPosts]

@[simp] theorem lostDone_rt {id} : (lostDone s id).rt = s.rt := by
  unfold lostDone
  split <;> simp

@[simp] theorem putChunk_rt {k c body} (h : s.rt = ρ) :
    OnEng (fun t => t.rt = ρ) (OnSome fun t => t.rt = ρ) (putChunk s k c body) := by
  unfold putChunk
  split
  · split
    · trivial
    next heq => exact (planAdds_rt h).wait heq
    · simp [h]
  · split
    · trivial
    next heq => exact (planWrites_rt h).wait heq
    · exact onSome_foldl _ (onSome_some h) fun _ _ ho => onSome_bind ho fun _ ht => writeWhole_rt ht

@[simp] theorem noteArrival_rt {k c} : (noteArrival s k c).rt = s.rt := by simp [noteArrival]

@[simp] theorem landChunk_rt {id c body e} : (landChunk s id c body e).rt = s.rt := by
  unfold landChunk
  split
  · rfl
  next k _ =>
    have hp : (payChunk false c 5 s k).2.rt = s.rt := payChunk_rt
    split
    · simp
    · split
      next heq => simpa [heq] using hp
      next heq =>
        rw [heq] at hp
        split
        · simpa using hp
        next heq => simpa using (putChunk_rt hp).wait heq
        · simpa using hp
        next heq => simpa using (putChunk_rt hp).ok heq _ rfl

@[simp] theorem chunkArrives_rt {e} : (chunkArrives s e).rt = s.rt := by
  unfold chunkArrives
  (repeat' split) <;> simp

@[simp] theorem chunkWritten_rt {k c} : (chunkWritten s k c).rt = s.rt := by simp [chunkWritten]

@[simp] theorem chunkAcked_rt {e} : (chunkAcked s e).rt = s.rt := by
  unfold chunkAcked
  split <;> simp

@[simp] theorem portsDown_rt {peer} : (portsDown s peer).rt = s.rt := by simp [portsDown]

@[simp] theorem losePeer_rt {peer} : (losePeer s peer).rt = s.rt := by
  unfold losePeer
  split <;> simp

@[simp] theorem parkCmds_rt {mine} : (parkCmds s mine).rt = s.rt := foldl_rt fun _ _ => rfl

@[simp] theorem unparkCmds_rt {lid team} : (unparkCmds s lid team).rt = s.rt := foldl_rt fun _ _ => rfl

/-! ### Machine/Report -/

@[simp] theorem touchPieces_rt {l} (h : s.rt = ρ) : OnSome (fun t => t.rt = ρ) (touchPieces s l) :=
  onSome_foldl _ (onSome_some h) fun _ _ ho => onSome_bind ho fun _ ht => touch_rt ht

@[simp] theorem writePieces_rt {comp lid l bs} : (writePieces comp lid l bs s).rt = s.rt := by
  induction l generalizing bs s with
  | nil => rfl
  | cons _ _ ih => simp [writePieces, ih]

@[simp] theorem putWindow_rt {e w comp n hoff pages} : (putWindow s e w comp n hoff pages).rt = s.rt := (rfl)

@[simp] theorem dropWindow_rt {e} : (dropWindow s e).rt = s.rt := (rfl)

@[simp] theorem svcBad_rt {x} (h : s.rt = ρ) : OnSvc (fun t => t.rt = ρ) (svcBad x s) := by
  unfold svcBad
  split <;> simp [h]

@[simp] theorem svcReport_rt {c a b} (h : s.rt = ρ) : OnSvc (fun t => t.rt = ρ) (svcReport s c a b) := by
  unfold svcReport
  split
  · exact svcBad_rt h
  · split
    · trivial
    next u heq =>
      have hu := touchPieces_rt h _ heq
      dsimp only
      split
      · exact hu
      · split
        · exact svcBad_rt hu
        · split
          · trivial
          next v heq =>
            have hv := touchPieces_rt hu _ heq
            split
            · exact hv
            · split
              · exact svcBad_rt hv
              · split
                · trivial
                next heq => simpa using touchPieces_rt hv _ heq

@[simp] theorem svcShare_rt {c a b} (h : s.rt = ρ) : OnSvc (fun t => t.rt = ρ) (svcShare s c a b) := by
  unfold svcShare
  dsimp only
  (repeat' split) <;> simp [h]

@[simp] theorem svcUnshare_rt {c a} (h : s.rt = ρ) : OnSvc (fun t => t.rt = ρ) (svcUnshare s c a) := by
  unfold svcUnshare
  split <;> simp [h]

@[simp] theorem service_rt {c code a b} (h : s.rt = ρ) : OnSvc (fun t => t.rt = ρ) (service s c code a b) := by
  unfold service
  split <;> simp [h]

/-! ### Machine/Sy -/

@[simp] theorem cbarCheck_rt {key} : (cbarCheck s key).rt = s.rt := by
  unfold cbarCheck
  split
  · rfl
  next l _ =>
    have hl (f : Ctx → Ctx) : (l.foldl (fun t m => t.modCtx m f) s).rt = s.rt := foldl_rt fun _ _ => modCtx_rt ..
    simp [hl]

@[simp] theorem leaveCrew_rt {c crew} : (leaveCrew s c crew).rt = s.rt := by simp [leaveCrew]

@[simp] theorem barrierDown_rt {r} (h : s.rt = ρ) : OnCommit (fun t => t.rt = ρ) (barrierDown r s) := by
  unfold barrierDown
  split <;> simp [h]

@[simp] theorem cbarArrive_rt {c crew} : (cbarArrive s c crew).rt = s.rt := by
  unfold cbarArrive
  dsimp only
  (repeat' split) <;> simp

/-! ### Machine/Sys -/

@[simp] theorem freeBanks_rt {c} : (freeBanks s c).rt = s.rt := (rfl)

@[simp] theorem dropArrivals_rt {c} : (dropArrivals s c).rt = s.rt := (rfl)

@[simp] theorem endContext_rt {c run} : (endContext s c run).rt = s.rt := by simp [endContext]

@[simp] theorem postLaunch_rt {c va} : (postLaunch s c va).rt = s.rt := (rfl)

@[simp] theorem serviceOfReq_rt {r} (h : s.rt = ρ) :
    OnSvc (fun t => t.rt = ρ) (serviceOfReq r s) := by simp [serviceOfReq, h]

/-! ### Machine/Place -/

@[simp] theorem clearWindow_rt {base size} : (clearWindow s base size).rt = s.rt := by simp [clearWindow]

@[simp] theorem noteResident_rt {key b} : (noteResident s key b).rt = s.rt := (rfl)

@[simp] theorem bindTeam_rt {key b} : (bindTeam s key b).rt = s.rt := by
  unfold bindTeam
  split <;> simp

@[simp] theorem writeSlot_rt {key w} : (writeSlot s key w).rt = s.rt := by
  unfold writeSlot
  extract_lets old t
  split
  · exact bindTeam_rt
  · split
    · exact foldl_rt fun _ _ => modCtx_rt ..
    · rfl

@[simp] theorem mapTeam_rt {c cl} : (mapTeam s c cl).rt = s.rt := by simp [mapTeam]

@[simp] theorem placeIn_rt {saved key w} : (placeIn s saved key w).rt = s.rt := by simp [placeIn]

@[simp] theorem placeCand_rt {c cl key w} : (placeCand s c cl key w).rt = s.rt := by simp [placeCand]

@[simp] theorem askStop_rt {m} : (askStop s m).rt = s.rt := by simp [askStop]

@[simp] theorem beginSwap_rt {key} : (beginSwap s key).rt = s.rt := by
  unfold beginSwap
  split <;> simp

@[simp] theorem reserveSetts_rt {l} : (reserveSetts s l).rt = s.rt := foldl_rt fun _ _ => setSett_rt ..

@[simp] theorem makeRoom_rt {l c cl vs} (h : s.rt = ρ) : OnSome (fun t => t.rt = ρ) (makeRoom s l c cl vs) := by
  unfold makeRoom
  split <;> simp [h]

@[simp] theorem placeLoop_rt {fuel} : (placeLoop fuel s).rt = s.rt := by
  induction fuel generalizing s with
  | zero => rfl
  | succ fuel ih =>
    unfold placeLoop
    dsimp only
    split
    · rfl
    · split
      · rfl
      · split
        · rfl
        · split
          · simp
          · split
            · simp [ih]
            · split
              next heq =>
                refine ih.trans ?_
                exact onSome_findSome (P := fun t => t.rt = s.rt) _
                  (fun _ => onSome_bind_of_forall fun _ => makeRoom_rt rfl) _ heq
              · rfl

@[simp] theorem bindReserved_rt {r} : (bindReserved s r).rt = s.rt := by simp [bindReserved]

@[simp] theorem placementRun_rt : (placementRun s).rt = s.rt := by simp [placementRun]

@[simp] theorem unplace_rt {core} : (unplace s core).rt = s.rt := by simp [unplace]

/-! ### Machine/Launch -/

@[simp] theorem setPool_rt {comp n} : (setPool s comp n).rt = s.rt := by
  unfold setPool
  split <;> simp

@[simp] theorem endPool_rt {comp} : (endPool s comp).rt = s.rt := by simp [endPool]

@[simp] theorem setSlot_rt {n h} : (setSlot s n h).rt = s.rt := (rfl)

@[simp] theorem answerCtx_rt {lid rank v} : (answerCtx s lid rank v).rt = s.rt := by
  unfold answerCtx
  dsimp only
  split <;> simp

@[simp] theorem producerEnds_rt {key ok} : (producerEnds s key ok).rt = s.rt := (rfl)

@[simp] theorem respond_rt {q status sub res0 body} : (respond s q status sub res0 body).rt = s.rt := by
  unfold respond
  split <;> simp

@[simp] theorem writeRecord64_rt {lid comp ranges compl ws} :
    (writeRecord64 s lid comp ranges compl ws).rt = s.rt := by
  unfold writeRecord64
  split
  · rfl
  · split
    · rfl
    · dsimp only
      rw [postNotice_rt]
      exact foldl_rt fun _ _ => pageWrite_rt.trans (getD_rt (touch_rt rfl))

@[simp] theorem makeLines_rt {comp b} : (makeLines s comp b).rt = s.rt := by simp [makeLines]

@[simp] theorem measure_rt {comp digest} : (measure s comp digest).rt = s.rt := by
  unfold measure
  split <;> simp

@[simp] theorem reserveLogs_rt {l} : (reserveLogs s l).rt = s.rt := by simp [reserveLogs]

@[simp] theorem acceptPacket_rt {q p image} : (acceptPacket s q p image).2.rt = s.rt := by
  unfold acceptPacket
  dsimp only
  (repeat' split) <;> simp

@[simp] theorem packetTouch_rt {q} (h : s.rt = ρ) :
    OnSome (fun t => t.rt = ρ) (packetTouch s q) := by simp [packetTouch, h]

@[simp] theorem validate_rt {q} : (validate s q).rt = s.rt := by
  unfold validate
  dsimp only
  split <;> simp

@[simp] theorem execLaunchAcceptance_rt (h : s.rt = ρ) : OnNext (fun t => t.rt = ρ) (execLaunchAcceptance s) := by
  unfold execLaunchAcceptance
  split
  · simpa using h
  · refine onNext_next.mpr ?_
    split
    next heq => simpa using packetTouch_rt h _ heq
    · exact h

@[simp] theorem fillSetts_rt {lid} : (fillSetts s lid).rt = s.rt := by
  unfold fillSetts
  split
  · rfl
  · split
    · rfl
    · split
      · simp
      · split
        · simp
        next t heq =>
          have ht : t.rt = s.rt := touchPieces_rt rfl _ heq
          have hf (l : List Nat) (f : Nat → Nat × Sett) : (l.foldl (fun u j => u.setSett (f j).1 (f j).2) t).rt = s.rt :=
            (foldl_rt fun _ _ => setSett_rt ..).trans ht
          simpa using hf _ fun j => (_, _)

/-! ### Machine/Access -/

@[simp] theorem onAcc_rt {f : State → Acc → State} (h : s.rt = ρ) (hf : ∀ t a, (f t a).rt = t.rt) :
    OnNext (fun t => t.rt = ρ) (onAcc f s) := by
  unfold onAcc
  split <;> simp [hf, h]

@[simp] theorem execGlobalWritePerformed_rt (h : s.rt = ρ) :
    OnNext (fun t => t.rt = ρ) (execGlobalWritePerformed s) := by simp [execGlobalWritePerformed, h]

@[simp] theorem execAtomicQueuePerform_rt (h : s.rt = ρ) :
    OnNext (fun t => t.rt = ρ) (execAtomicQueuePerform s) := by simp [execAtomicQueuePerform, h]

@[simp] theorem execReductionHold_rt (h : s.rt = ρ) :
    OnNext (fun t => t.rt = ρ) (execReductionHold s) := by simp [execReductionHold, h]

@[simp] theorem execChainRead_rt (h : s.rt = ρ) :
    OnNext (fun t => t.rt = ρ) (execChainRead s) := by simp [execChainRead, h]

@[simp] theorem execPatchWriteArrival_rt (h : s.rt = ρ) :
    OnNext (fun t => t.rt = ρ) (execPatchWriteArrival s) := by simp [execPatchWriteArrival, h]

@[simp] theorem execClusterAccessAccept_rt (h : s.rt = ρ) :
    OnNext (fun t => t.rt = ρ) (execClusterAccessAccept s) := by simp [execClusterAccessAccept, h]

@[simp] theorem arrive_rt {id} : (arrive s id).rt = s.rt := by
  unfold arrive
  split <;> simp

@[simp] theorem execVariableArrival_rt (h : s.rt = ρ) : OnNext (fun t => t.rt = ρ) (execVariableArrival s) := by
  unfold execVariableArrival
  split <;> simp [h]

@[simp] theorem startNext_rt {die} : (startNext s die).rt = s.rt := by
  unfold startNext
  split <;> simp

@[simp] theorem walkEnd_rt {id} : (walkEnd s id).rt = s.rt := by
  unfold walkEnd
  dsimp only
  (repeat' split) <;> simp

@[simp] theorem insertItems_rt {lid} : (insertItems s lid).rt = s.rt := by
  unfold insertItems
  dsimp only
  (repeat' split) <;> simp

@[simp] theorem failAt_rt {kind at_ c} : (failAt s kind at_ c).rt = s.rt := by
  unfold failAt
  split <;> simp

@[simp] theorem reloadBundle_rt {at_} : (reloadBundle s at_).rt = s.rt := (rfl)

/-! ### Machine/Swap -/

@[simp] theorem withdraw_rt {c} : (withdraw s c).rt = s.rt := (rfl)

@[simp] theorem pullWaits_rt {c} : (pullWaits s c).rt = s.rt := (rfl)

@[simp] theorem preemptCtx_rt {c} : (preemptCtx s c).rt = s.rt := by simp [preemptCtx]

@[simp] theorem resumeCtx_rt {c} : (resumeCtx s c).rt = s.rt := by simp [resumeCtx]

@[simp] theorem holdBack_rt {lid l place} : (holdBack s lid l place).rt = s.rt := (rfl)

@[simp] theorem dropCrews_rt {key} : (dropCrews s key).rt = s.rt := (rfl)

@[simp] theorem swapOut_rt {key} : (swapOut s key).rt = s.rt := by
  unfold swapOut
  split <;> simp

@[simp] theorem restoreParts_rt {key w v r} : (restoreParts s key w v r).rt = s.rt := by simp [restoreParts]

@[simp] theorem swapIn_rt {key} : (swapIn s key).rt = s.rt := by
  unfold swapIn
  dsimp only
  (repeat' split) <;> simp

@[simp] theorem clearSlot_rt {key b} : (clearSlot s key b).rt = s.rt := by simp [clearSlot]

@[simp] theorem execBoardSlotWrite_rt (h : s.rt = ρ) : OnNext (fun t => t.rt = ρ) (execBoardSlotWrite s) := by
  unfold execBoardSlotWrite
  dsimp only
  split <;> simp [h]

@[simp] theorem takeDown_rt {c d} : (takeDown s c d).rt = s.rt := by simp [takeDown]

@[simp] theorem downMember_rt {d c} : (downMember d s c).rt = s.rt := by
  unfold downMember
  (repeat' split) <;> simp

@[simp] theorem dropSaved_rt {v} : (dropSaved s v).rt = s.rt :=
  foldl_rt fun _ _ => foldl_rt fun _ _ => modItem_rt ..

@[simp] theorem stopPlacing_rt {lid} : (stopPlacing s lid).rt = s.rt := foldl_rt fun _ _ => rfl

@[simp] theorem giveUp_rt {lid} : (giveUp s lid).rt = s.rt := by simp [giveUp]

@[simp] theorem endLaunch_rt {lid info0 info1} : (endLaunch s lid info0 info1).rt = s.rt := by
  unfold endLaunch
  split <;> simp

@[simp] theorem stopCalls_rt {lid} : (stopCalls s lid).rt = s.rt := by simp [stopCalls]

@[simp] theorem teamEnd_rt {e} : (teamEnd s e).rt = s.rt := by simp [teamEnd]

@[simp] theorem downTimeout_rt {lid} : (downTimeout s lid).rt = s.rt := by
  unfold downTimeout
  split <;> simp

@[simp] theorem zitrumWrite_rt {l va bs} (h : s.rt = ρ) : OnSome (fun t => t.rt = ρ) (zitrumWrite s l va bs) := by
  unfold zitrumWrite
  split <;> simp [h]

@[simp] theorem writeList_rt {l step bss va} {q : Nat × Bool × State} :
    (writeList l step bss va q).2.2.rt = q.2.2.rt := by
  induction bss generalizing va q with
  | nil => rfl
  | cons _ _ ih =>
    obtain ⟨n, bad, s⟩ := q
    unfold writeList
    split
    next heq => exact ih.trans (zitrumWrite_rt rfl _ heq)
    · exact ih

@[simp] theorem writeBack_rt {l} : (writeBack s l).2.2.2.rt = s.rt := by
  unfold writeBack
  split <;> simp

@[simp] theorem completionTouch_rt {l} (h : s.rt = ρ) :
    OnSome (fun t => t.rt = ρ) (completionTouch s l) := by simp [completionTouch, h]

@[simp] theorem holdLog_rt {l} : (holdLog s l).rt = s.rt := by simp [holdLog]

@[simp] theorem answerWaiting_rt {lid} : (answerWaiting s lid).rt = s.rt := by simp [answerWaiting]

@[simp] theorem leaveLines_rt {lid done} : (leaveLines s lid done).rt = s.rt := by simp [leaveLines]

@[simp] theorem complete_rt {l} : (complete s l).rt = s.rt := by simp [complete]

@[simp] theorem execLaunchCompletion_rt (h : s.rt = ρ) : OnNext (fun t => t.rt = ρ) (execLaunchCompletion s) := by
  unfold execLaunchCompletion
  split <;> simp [h]

/-! ### Machine/Ckpt -/

@[simp] theorem takeCkpt_rt {l saves q} : (takeCkpt s l saves q).rt = s.rt := by
  apply rt_of_all
  intro P hP
  -- Unfolded as a function: against the applied term, the kernel would evaluate what its `match` is of.
  generalize hf : takeCkpt = f
  delta takeCkpt at hf
  subst hf
  beta_reduce
  extract_lets dest room man area wr
  have hwr {at_ b t} : (wr at_ b t).rt = t.rt := by
    unfold wr
    split <;> simp
  clear_value dest room man area wr
  split
  · dsimp only
    split
    · exact hP _ respond_rt
    · exact hP _ (respond_rt.trans (hwr.trans hwr))
  · exact hP _ respond_rt

@[simp] theorem ckptTouch_rt {l q} : (ckptTouch s l q).rt = s.rt := by
  unfold ckptTouch
  split <;> simp

theorem foldl_takeCkpt_rt {l saves} {qs : List Request} :
    (qs.foldl (fun t q => takeCkpt (ckptTouch t l q) l saves q) s).rt = s.rt := by
  induction qs generalizing s with
  | nil => rfl
  | cons q qs ih => rw [List.foldl_cons, ih, takeCkpt_rt, ckptTouch_rt]

@[simp] theorem takeCkpts_rt {lid saves} : (takeCkpts s lid saves).rt = s.rt := by
  unfold takeCkpts
  extract_lets qs _ t
  have ht : t.rt = s.rt := rfl
  clear_value t qs
  split
  · exact ht
  · exact foldl_takeCkpt_rt.trans ht

/-! ### Machine/Steps -/

@[simp] theorem stepLogs_rt {lid n} : (stepLogs s lid n).rt = s.rt := by simp [stepLogs]

@[simp] theorem stepMarks_rt {lid} : (stepMarks s lid).rt = s.rt := by simp [stepMarks]

@[simp] theorem passAll_rt {lid} : (passAll s lid).rt = s.rt := foldl_rt fun _ _ => modCtx_rt ..

@[simp] theorem boundary_rt {l} : (boundary s l).rt = s.rt := by simp [boundary]

@[simp] theorem execStepBoundary_rt (h : s.rt = ρ) : OnNext (fun t => t.rt = ρ) (execStepBoundary s) := by
  unfold execStepBoundary
  split <;> simp [h]

@[simp] theorem stopTasks_rt {lid why} : (stopTasks s lid why).rt = s.rt := by
  unfold stopTasks
  split <;> simp

@[simp] theorem undoLines_rt {lid ms} : (undoLines s lid ms).rt = s.rt := (rfl)

@[simp] theorem undoPages_rt {pages} : (undoPages s pages).rt = s.rt := by simp [undoPages]

@[simp] theorem dropTeams_rt {lid} : (dropTeams s lid).rt = s.rt := by simp [dropTeams]

@[simp] theorem restart_rt {l n} : (restart s l n).rt = s.rt := by simp [restart]

@[simp] theorem answerAbandon_rt {lid} : (answerAbandon s lid).rt = s.rt := by simp [answerAbandon]

@[simp] theorem abandonEnds_rt {lid why} : (abandonEnds s lid why).rt = s.rt := by simp [abandonEnds]

@[simp] theorem endHomeless_rt : (endHomeless s).rt = s.rt := foldl_rt fun _ _ => after_rt ..

@[simp] theorem abandon_rt {l why} : (abandon s l why).rt = s.rt := by simp [abandon]

@[simp] theorem execStepAbandon_rt (h : s.rt = ρ) : OnNext (fun t => t.rt = ρ) (execStepAbandon s) := by
  unfold execStepAbandon
  dsimp only
  (repeat' split) <;> simp [h]

@[simp] theorem teamLoses_rt {core e} : (teamLoses core s e).rt = s.rt := by
  unfold teamLoses
  dsimp only
  split
  · exact foldl_rt fun _ _ => modCtx_rt ..
  · simp

@[simp] theorem failCore_rt {core} : (failCore s core).rt = s.rt := by simp [failCore]

@[simp] theorem substitute_rt {core} : (substitute s core).rt = s.rt := by simp [substitute]

/-! ### Machine/Tables -/

@[simp] theorem zeroMem_rt {a n} : (zeroMem s a n).rt = s.rt := by simp [zeroMem]

@[simp] theorem takePages_rt {tier2 n size count} (h : s.rt = ρ) :
    OnSome (fun q => q.2.rt = ρ) (takePages s tier2 n size count) := by
  unfold takePages
  dsimp only
  (repeat' split) <;> simp [h]

@[simp] theorem takeTable_rt (h : s.rt = ρ) : OnSome (fun q => q.2.rt = ρ) (takeTable s) := by simp [takeTable, h]

@[simp] theorem putDesc_rt {at_ low high} : (putDesc s at_ low high).rt = s.rt := (rfl)

@[simp] theorem tableFor_rt {ta target fuel table level} (h : s.rt = ρ) :
    OnSome (fun q => q.2.rt = ρ) (tableFor ta target fuel table level s) := by
  induction fuel generalizing table level s with
  | zero => exact onSome_none
  | succ fuel ih =>
    rw [tableFor]
    split
    · exact onSome_some h
    · extract_lets
      split
      · exact onSome_ite onSome_none (ih h)
      · split
        · exact onSome_none
        next heq => exact ih (putDesc_rt.trans (takeTable_rt h _ heq))

@[simp] theorem putLeaf_rt {root ta size low high} (h : s.rt = ρ) :
    OnSome (fun t => t.rt = ρ) (putLeaf s root ta size low high) := by
  unfold putLeaf
  split
  · simp
  next t u heq =>
    have hu : u.rt = ρ := tableFor_rt h _ heq
    simp [hu]

@[simp] theorem dropLeaf_rt {root ta size} (h : s.rt = ρ) : OnSome (fun q => q.2.rt = ρ) (dropLeaf s root ta size) :=
  onSome_map_of_forall fun _ => (foldl_rt fun _ _ => putDesc_rt).trans h

@[simp] theorem bearLine_rt {high} : (bearLine s high).rt = s.rt := by simp [bearLine]

@[simp] theorem mapPages_rt {root size bytes low high n ta pa} (h : s.rt = ρ) :
    OnSome (fun t => t.rt = ρ) (mapPages root size bytes low high n ta pa s) := by
  induction n generalizing ta pa s with
  | zero => exact onSome_some h
  | succ n ih =>
    unfold mapPages
    split
    · exact onSome_none
    next heq => exact ih (putLeaf_rt h _ heq)

@[simp] theorem invalidate_rt {comp pages} : (invalidate s comp pages).rt = s.rt := (rfl)

@[simp] theorem releasePages_rt {comp pages} : (releasePages s comp pages).rt = s.rt := (rfl)

@[simp] theorem endInval_rt {comp} : (endInval s comp).rt = s.rt := by
  unfold endInval
  dsimp only
  (repeat' split) <;> simp

@[simp] theorem wakeDemand_rt {comp ta bytes} : (wakeDemand s comp ta bytes).rt = s.rt := by simp [wakeDemand]

@[simp] theorem installPage_rt {comp ta low high} (h : s.rt = ρ) :
    OnSome (fun t => t.rt = ρ) (installPage s comp ta low high) := by
  unfold installPage
  dsimp only
  split
  · simp
  · split
    · simp
    · split
      · simp
      next pa u heq =>
        have hu : u.rt = ρ := takePages_rt h _ heq
        simp [hu]

@[simp] theorem declineDemand_rt {who comp page} : (declineDemand s who comp page).rt = s.rt := by simp [declineDemand]

@[simp] theorem demandService_rt {e} : (demandService s e).rt = s.rt := by
  unfold demandService
  dsimp only
  split
  · simp
  · split
    · rfl
    · split
      · simp
      · split
        next heq => simpa using onSome_ite (installPage_rt rfl) onSome_none _ heq
        · simp

@[simp] theorem launchProducer_rt {key} : (launchProducer s key).rt = s.rt := by
  unfold launchProducer
  (repeat' split) <;> simp

@[simp] theorem endProducer_rt {key ok} : (endProducer s key ok).rt = s.rt := by
  unfold endProducer
  split <;> simp

/-! ### Machine/Requests -/

@[simp] theorem withdrawSlot_rt {n} : (withdrawSlot s n).rt = s.rt := (rfl)

@[simp] theorem writeState_rt {n v} : (writeState s n v).rt = s.rt := by simp [writeState]

@[simp] theorem takeReq_rt {q} : (takeReq s q).2.rt = s.rt := by
  unfold takeReq
  split <;> simp

@[simp] theorem onRequest_rt {code masks reads} {f : Request → State → State} (h : s.rt = ρ)
    (hf : ∀ q t, (f q t).rt = t.rt) : OnNext (fun t => t.rt = ρ) (onRequest code masks reads f s) := by
  unfold onRequest
  refine onNext_next.mpr ?_
  split
  · exact h
  · simp [hf, h]

@[simp] theorem waitForRequest_rt {q} : (waitFor s q).rt = s.rt := (rfl)

@[simp] theorem execSlotBadState_rt (h : s.rt = ρ) : OnNext (fun t => t.rt = ρ) (execSlotBadState s) := by
  unfold execSlotBadState
  dsimp only
  (repeat' split) <;> simp [h]

@[simp] theorem mgmtArrives_rt {port d} : (mgmtArrives s port d).rt = s.rt := by simp [mgmtArrives]

@[simp] theorem execLaunch_rt (h : s.rt = ρ) : OnNext (fun t => t.rt = ρ) (execLaunch s) := by
  unfold execLaunch
  split <;> simp [h]

@[simp] theorem killLaunch_rt {lid sub} : (killLaunch s lid sub).rt = s.rt := by simp [killLaunch]

@[simp] theorem execKill_rt (h : s.rt = ρ) : OnNext (fun t => t.rt = ρ) (execKill s) := by simp [execKill, h]

@[simp] theorem execAbandon_rt (h : s.rt = ρ) : OnNext (fun t => t.rt = ρ) (execAbandon s) :=
  onRequest_rt h fun _ _ => by split <;> simp

@[simp] theorem execCkpt_rt (h : s.rt = ρ) : OnNext (fun t => t.rt = ρ) (execCkpt s) :=
  onRequest_rt h fun _ _ => by
    dsimp only
    split
    · simp
    · split <;> simp

@[simp] theorem execLogrel_rt (h : s.rt = ρ) : OnNext (fun t => t.rt = ρ) (execLogrel s) := by simp [execLogrel, h]

@[simp] theorem makeComp_rt {q} : (makeComp q s).rt = s.rt := by
  unfold makeComp
  split
  next heq => simpa using takeTable_rt rfl _ heq
  · simp

@[simp] theorem execMkcomp_rt (h : s.rt = ρ) : OnNext (fun t => t.rt = ρ) (execMkcomp s) := by simp [execMkcomp, h]

@[simp] theorem destroyComp_rt {comp} : (destroyComp s comp).rt = s.rt := by simp [destroyComp]

@[simp] theorem execRmcomp_rt (h : s.rt = ρ) : OnNext (fun t => t.rt = ρ) (execRmcomp s) := by
  unfold execRmcomp
  (repeat' split) <;> simp [h]

@[simp] theorem mapRequest_rt {q} : (mapRequest q s).rt = s.rt := by
  unfold mapRequest
  extract_lets high w2 ta count size low bytes comp lineBad
  split
  · simp
  · split
    · simp
    · split
      · simp
      · split
        · simp
        next heq =>
          dsimp only
          split
          · simp
          next heq1 => simpa using mapPages_rt (takePages_rt rfl _ heq) _ heq1

@[simp] theorem execMap_rt (h : s.rt = ρ) : OnNext (fun t => t.rt = ρ) (execMap s) := by simp [execMap, h]

/-! ### Machine/Tables -/

@[simp] theorem unmapPages_rt {root size bytes n ta} {q : List (Nat × Nat) × State} :
    (unmapPages root size bytes n ta q).2.rt = q.2.rt := by
  induction n generalizing ta q with
  | zero => rfl
  | succ n ih =>
    obtain ⟨l, s⟩ := q
    unfold unmapPages
    split
    next heq => exact ih.trans (dropLeaf_rt rfl _ heq)
    · exact ih

/-! ### Machine/Requests -/

@[simp] theorem unmapNow_rt {q} : (unmapNow q s).rt = s.rt := by
  unfold unmapNow
  dsimp only
  split <;> simp

@[simp] theorem unmapRequest_rt {q} : (unmapRequest q s).rt = s.rt := by simp [unmapRequest]

@[simp] theorem execUnmap_rt (h : s.rt = ρ) : OnNext (fun t => t.rt = ρ) (execUnmap s) := by
  unfold execUnmap
  (repeat' split) <;> simp [h]

@[simp] theorem budgetRequest_rt {q} : (budgetRequest q s).rt = s.rt := by
  unfold budgetRequest
  dsimp only
  (repeat' split) <;> simp

@[simp] theorem execBudget_rt (h : s.rt = ρ) : OnNext (fun t => t.rt = ρ) (execBudget s) := by simp [execBudget, h]

@[simp] theorem reportRequest_rt {q} : (reportRequest q s).rt = s.rt := by simp [reportRequest]

@[simp] theorem execReport_rt (h : s.rt = ρ) : OnNext (fun t => t.rt = ρ) (execReport s) := by simp [execReport, h]

@[simp] theorem execPkgnum_rt (h : s.rt = ρ) : OnNext (fun t => t.rt = ρ) (execPkgnum s) := by simp [execPkgnum, h]

@[simp] theorem execWinlist_rt (h : s.rt = ρ) : OnNext (fun t => t.rt = ρ) (execWinlist s) := by simp [execWinlist, h]

@[simp] theorem restoreLine_rt {comp e} : (restoreLine comp s e).rt = s.rt := (rfl)

@[simp] theorem restoreTeams_rt {k lid comp} : (restoreTeams s k lid comp).rt = s.rt := by simp [restoreTeams]

@[simp] theorem restorePage_rt {comp e} : (restorePage comp s e).rt = s.rt := by
  unfold restorePage
  split <;> simp

@[simp] theorem restoreCkpt_rt {q comp k parts} : (restoreCkpt q comp k parts s).rt = s.rt := by
  have hu : (k.pages.foldl (restorePage comp) (parts.foldl (restoreLine comp) s)).rt = s.rt :=
    (foldl_rt fun _ _ => restorePage_rt).trans (foldl_rt fun _ _ => restoreLine_rt)
  apply rt_of_all
  intro P hP
  -- Unfolded as a function: against the applied term, the kernel would evaluate what its `match` is of.
  generalize hf : restoreCkpt = f
  delta restoreCkpt at hf
  subst hf
  beta_reduce
  extract_lets u p
  replace hu : u.rt = s.rt := hu
  clear_value u p
  split
  · exact hP _ (respond_rt.trans hu)
  · exact hP _ (by simp [hu])

@[simp] theorem restoreNow_rt {q} : (restoreNow q s).rt = s.rt := by
  unfold restoreNow
  dsimp only
  split
  · split
    · simp
    · split
      · simp
      · exact restoreCkpt_rt
  · simp

@[simp] theorem restoreRequest_rt {q} : (restoreRequest q s).rt = s.rt := by
  unfold restoreRequest
  dsimp only
  split
  · simp
  · split
    · simp
    · split
      next heq => simp [touchPieces_rt rfl _ heq]
      · simp

@[simp] theorem execRestore_rt (h : s.rt = ρ) : OnNext (fun t => t.rt = ρ) (execRestore s) := by
  unfold execRestore
  (repeat' split) <;> simp [h]

@[simp] theorem hostWritePiece_rt {comp pa bs} : (hostWritePiece comp s pa bs).rt = s.rt := by simp [hostWritePiece]

@[simp] theorem hostWritePieces_rt {comp l bs} : (hostWritePieces comp l bs s).rt = s.rt := by
  induction l generalizing bs s with
  | nil => rfl
  | cons _ _ ih => simp [hostWritePieces, ih]

@[simp] theorem hostReadPiece_rt {q : List Byte × State} {p} : (hostReadPiece q p).2.rt = q.2.rt := by
  unfold hostReadPiece
  split
  · rfl
  · exact List.foldlRecOn (motive := fun t : List Byte × State => t.2.rt = q.2.rt) _ _ rfl fun _ ht _ _ => ht

@[simp] theorem windowAccess_rt {e} : (windowAccess s e).rt = s.rt := by
  unfold windowAccess
  split
  · simp
  · split
    · rfl
    · split
      · rfl
      next t heq =>
        have ht : t.rt = s.rt := touchPieces_rt rfl _ heq
        split
        · simpa using ht
        · exact List.foldlRecOn (motive := fun q : List Byte × State => q.2.rt = s.rt) _ hostReadPiece ht
            fun _ hq _ _ => hostReadPiece_rt.trans hq

/-! ### Machine/Handover -/

end

end Sys2Proof.Machine
end

section
/-! SUPPORT. Boots and hand-overs keep the fused floor, or raise it (R195, R197, R235); and what the package does next. -/

namespace Sys2Proof.Machine

section
set_option Elab.async false
variable {s t : State} {ρ : Rot}

/-! ### The fused floor through boots and hand-overs -/

@[simp] theorem ite_floor {c : Prop} [Decidable c] {a b : Rot} :
    (if c then a else b).floor = if c then a.floor else b.floor :=
  apply_ite Rot.floor c a b

@[simp] theorem installRecord_rt {q} : (installRecord q s).rt = s.rt := (rfl)

@[simp] theorem dropRecord_floor : (dropRecord s).rt.floor = s.rt.floor := by
  unfold dropRecord
  split <;> simp

@[simp] theorem placeRecord_floor {b} : (placeRecord b s).rt.floor = s.rt.floor := by
  unfold placeRecord
  split
  next pa t heq =>
    have ht : t.rt = s.rt := onSome_findSome (P := fun q => q.2.rt = s.rt) _ (fun _ => takePages_rt rfl) _ heq
    simp [ht]
  · rfl

@[simp] theorem putRecord_floor {h} : (putRecord s h).rt.floor = s.rt.floor := by simp [putRecord]

@[simp] theorem resumeRecord_floor {h} : (resumeRecord s h).rt.floor = s.rt.floor := by
  unfold resumeRecord
  dsimp only
  split <;> simp

@[simp] theorem bootFail_floor {code} : (bootFail s code).rt.floor = s.rt.floor := bootFrame_bootFail.floor

@[simp] theorem bootAttempt_floor {st src} : (bootAttempt s st src).rt.floor = s.rt.floor := bootFrame_bootAttempt.floor

@[simp] theorem bootStep_floor {b ms row} : (bootStep s b ms row).rt.floor = s.rt.floor := bootFrame_bootStep.floor

@[simp] theorem startBody_floor {source b} : (startBody s source b).rt.floor = s.rt.floor := (rfl)

@[simp] theorem takeSource_floor {source} : (takeSource s source).rt.floor = s.rt.floor := bootFrame_takeSource.floor

@[simp] theorem bootImage_floor {source b} : (bootImage s source b).rt.floor = s.rt.floor := bootFrame_bootImage.floor

@[simp] theorem bootStaged_floor : (bootStaged s).rt.floor = s.rt.floor := bootFrame_bootStaged.floor

@[simp] theorem bootVerified_floor {source b} : (bootVerified s source b).rt.floor = s.rt.floor := by
  unfold bootVerified
  split <;> simp

@[simp] theorem powerOn_floor : (powerOn s).rt.floor = s.rt.floor := by simp [powerOn]

@[simp] theorem fetchTimeout_floor : (fetchTimeout s).rt.floor = s.rt.floor := by
  unfold fetchTimeout
  split <;> simp

@[simp] theorem imageArrives_floor {e} : (imageArrives s e).rt.floor = s.rt.floor := by
  unfold imageArrives
  split <;> simp

@[simp] theorem imageVerified_floor : (imageVerified s).rt.floor = s.rt.floor := by
  unfold imageVerified
  split <;> simp

@[simp] theorem linkUp_floor : (linkUp s).rt.floor = s.rt.floor := by
  unfold linkUp
  dsimp only
  split <;> simp

@[simp] theorem bootLost_floor {source} : (bootLost s source).rt.floor = s.rt.floor := by simp [bootLost]

theorem floor_le_bootCommit : s.rt.floor ≤ (bootCommit s).rt.floor := Nat.le_max_left ..

@[simp] theorem handState_floor {st fail kind seq} : (handState s st fail kind seq).rt.floor = s.rt.floor := by
  simp [handState]

@[simp] theorem handFail_floor {code} : (handFail s code).rt.floor = s.rt.floor := (rfl)

@[simp] theorem stageImage_floor {q} : (stageImage q s).rt.floor = s.rt.floor := by
  unfold stageImage
  dsimp only
  split <;> simp

@[simp] theorem goSet_floor : (goSet s).rt.floor = s.rt.floor := by
  unfold goSet
  dsimp only
  split <;> simp

@[simp] theorem handRevert_floor {h code} : (handRevert s h code).rt.floor = s.rt.floor := by simp [handRevert]

theorem floor_le_handCommit {h} : s.rt.floor ≤ (handCommit s h).rt.floor := by
  unfold handCommit
  dsimp only
  split <;> simp

@[simp] theorem handSwitch_floor : (handSwitch s).rt.floor = s.rt.floor := by
  unfold handSwitch
  split
  · rfl
  · split
    · rfl
    · dsimp only
      split
      · split <;> simp
      · simp

theorem floor_le_handDeadline : s.rt.floor ≤ (handDeadline s).rt.floor := by
  unfold handDeadline
  split
  · split
    · exact le_rfl
    · split
      · exact floor_le_handCommit
      · simp
  · exact le_rfl

@[simp] theorem alivePosted_floor {svn} : (alivePosted s svn).rt.floor = s.rt.floor := by
  unfold alivePosted
  dsimp only
  split
  · split <;> rfl
  · rfl

@[simp] theorem watchdog_floor : (watchdog s).rt.floor = s.rt.floor := by
  unfold watchdog
  split
  · split <;> simp
  · split <;> simp

@[simp] theorem regByte_rt {a b} : (regByte s a b).rt = s.rt := by simp [regByte]

@[simp] theorem regBytes_rt {bs a} : (regBytes a bs s).rt = s.rt := by
  induction bs generalizing a s with
  | nil => rfl
  | cons _ _ ih => simp [regBytes, ih]

@[simp] theorem registerWrite_floor {a bs} : (registerWrite s a bs).rt.floor = s.rt.floor := by
  simp [registerWrite]

@[simp] theorem newPeriod_rt : (newPeriod s).rt = s.rt := (rfl)

@[simp] theorem rebalance_rt {l} : (rebalance s l).rt = s.rt := by
  unfold rebalance
  (repeat' split) <;> simp

@[simp] theorem zitrumPeriod_rt : (zitrumPeriod s).rt = s.rt := by
  unfold zitrumPeriod
  split
  · rfl
  · refine placementRun_rt.trans (foldl_rt fun t n => ?_)
    split
    · simp
    · rfl

@[simp] theorem periodBoundary_floor : (periodBoundary s).rt.floor = s.rt.floor := by simp [periodBoundary]

@[simp] theorem linkTrain_rt {e} : (linkTrain s e).rt = s.rt := by simp [linkTrain]

@[simp] theorem sessionUp_rt {e} : (sessionUp s e).rt = s.rt := by simp [sessionUp]

@[simp] theorem execSessionRekey_rt (h : s.rt = ρ) : OnNext (fun t => t.rt = ρ) (execSessionRekey s) := by
  unfold execSessionRekey
  split <;> simp [h]

/-! ### Machine/Bundle and Machine/Next -/

@[simp] theorem askReload_rt {key} : (askReload s key).rt = s.rt := by simp [askReload]

@[simp] theorem execFairnessLimit_rt (h : s.rt = ρ) : OnNext (fun t => t.rt = ρ) (execFairnessLimit s) := by
  unfold execFairnessLimit
  dsimp only
  split <;> simp [h]

@[simp] theorem todo_rt {row arg} : (todo s row arg).st.rt = s.rt := (rfl)

@[simp] theorem takeDue_rt {d} : (takeDue s d).st.rt = s.rt := (rfl)

@[simp] theorem turn_rt {c} : (turn s c).st.rt = s.rt := by
  unfold turn
  dsimp only
  (repeat' split) <;> simp

@[simp] theorem beforeIssue_rt : OnSome (fun t => t.st.rt = s.rt) (beforeIssue s) := by
  unfold beforeIssue
  split
  · simp
  · split
    · simp
    · split
      · simp
      · split
        · simp
        · exact onSome_map_of_forall fun _ => todo_rt

@[simp] theorem boardDue_rt : OnSome (fun t => t.st.rt = s.rt) (boardDue s) :=
  onSome_ite onSome_none <| onSome_findSome _ fun _ => by simp

@[simp] theorem launchDue_rt : OnSome (fun t => t.st.rt = s.rt) (launchDue s) :=
  onSome_ite onSome_none <| onSome_findSome _ fun _ => by
    dsimp only
    split
    · simp
    · split
      · simp
      · split <;> simp

@[simp] theorem requestDue_rt : OnSome (fun t => t.st.rt = s.rt) (requestDue s) := by
  unfold requestDue
  (repeat' split) <;> simp

@[simp] theorem upkeepDue_rt : OnSome (fun t => t.st.rt = s.rt) (upkeepDue s) := by
  unfold upkeepDue
  split
  · simp
  · split
    · simp
    · exact onSome_map_of_forall fun _ => todo_rt

@[simp] theorem hostDue_rt : OnSome (fun t => t.st.rt = s.rt) (hostDue s) := by
  unfold hostDue
  split <;> simp

@[simp] theorem afterIssue_rt : OnSome (fun t => t.st.rt = s.rt) (afterIssue s) := by
  unfold afterIssue
  split
  · simp
  · exact onSome_orElse hostDue_rt <| onSome_orElse boardDue_rt <| onSome_orElse launchDue_rt <|
      onSome_orElse requestDue_rt upkeepDue_rt

@[simp] theorem nextTodo_rt : OnSome (fun t => t.st.rt = s.rt) (nextTodo s) := by
  unfold nextTodo
  split
  next heq => exact onSome_some (beforeIssue_rt _ heq)
  · split
    · refine onSome_some ?_
      split <;> simp
    · exact afterIssue_rt

@[simp] theorem inputTodo_rt {e rest} : OnSome (fun t => t.st.rt = s.rt) (inputTodo s e rest) := by simp [inputTodo]

end

end Sys2Proof.Machine
end

section
/-! SUPPORT. The operations of a bundle leave the boot and the fuses alone (R195). -/

namespace Sys2Proof.Machine

section
set_option Elab.async false
variable {s : State}

/-! ### Operations -/

/-- An operation leaves the boot and the fuses alone: in what its hold starts, in what it sends while its bundle is held,
in what it does at a home Badger, and in its effect. -/
structure KeepsRt (o : Op) : Prop where
  hold : ∀ {r s}, OnSome (fun q => q.2.rt = s.rt) (o.hold r s) := by exact onSome_none
  commit : ∀ {r s}, OnCommit (fun t => t.rt = s.rt) (o.commit r s) := by exact rfl
  last : ∀ {r s}, OnCommit (fun t => t.rt = s.rt) (o.last r s) := by exact rfl
  effect : ∀ {r s}, (o.effect r s).rt = s.rt

theorem keepsRt_result {unit lat port f} : KeepsRt (opResult unit lat port f) where
  effect := landResult_rt

theorem keepsRt_amWide {f} : KeepsRt (opAmWide f) where
  effect := rfl

theorem keepsRt_amBase {view} : KeepsRt (opAmBase view) where
  effect := rfl

theorem keepsRt_branch {taken} : KeepsRt (opBranch taken) where
  effect := rfl

theorem keepsRt_brJmp : KeepsRt opBrJmp where
  effect := rfl

theorem keepsRt_brCall : KeepsRt opBrCall where
  effect := rfl

theorem keepsRt_brRet : KeepsRt opBrRet where
  effect := rfl

theorem keepsRt_brLoop : KeepsRt opBrLoop where
  effect := rfl

theorem keepsRt_brLbrk : KeepsRt opBrLbrk where
  effect := rfl

theorem keepsRt_brLkset : KeepsRt opBrLkset where
  effect := rfl

theorem keepsRt_vec {unit lat p f} : KeepsRt (opVec unit lat p f) where
  effect := rfl

theorem keepsRt_load {unit p vh} : KeepsRt (opLoad unit p vh) where
  hold := accessHold_rt rfl
  commit {r s} := by
    unfold opLoad
    dsimp only
    split
    · exact loadCommit_rt rfl
    all_goals rfl
  last {r s} := by
    unfold opLoad
    dsimp only
    split
    · split
      · exact lineReadCheck_rt rfl
      · rfl
    all_goals rfl
  effect {r s} := by
    unfold opLoad
    dsimp only
    split
    · simp
    · split <;> simp
    all_goals rfl

theorem keepsRt_store {unit size vh data mask} : KeepsRt (opStore unit size vh data mask) where
  hold := wordsHold_rt rfl
  commit := clusterCommit_rt rfl
  last {r s} := by
    unfold opStore
    dsimp only
    split
    · split
      · exact patchWriteCheck_rt rfl
      · rfl
    all_goals rfl
  effect {r s} := by
    unfold opStore
    dsimp only
    split
    · split
      next heq => exact onSome_ite (spadStore_rt rfl) onSome_none _ heq
      · simp
    · split <;> simp
    all_goals rfl

theorem keepsRt_mxAlloc : KeepsRt opMxAlloc where
  effect := takeBanks_rt

theorem keepsRt_mxFree : KeepsRt opMxFree where
  hold := by simp [opMxFree]
  effect := dropBanks_rt

theorem keepsRt_mxNorm : KeepsRt opMxNorm where
  hold := rowHold_rt rfl
  effect := rowFlags_rt.trans putRow_rt

theorem keepsRt_mxRd : KeepsRt opMxRd where
  hold := rowHold_rt rfl
  effect := rowFlags_rt.trans landResult_rt

theorem keepsRt_mxWr : KeepsRt opMxWr where
  hold := rowHold_rt rfl
  effect := rowFlags_rt.trans putRow_rt

theorem keepsRt_mxCall : KeepsRt opMxCall where
  hold := by simp [opMxCall]
  effect := startCall_rt

theorem keepsRt_patch {operands acq rel} {f : Req → State → Commit}
    (hf : ∀ {r s}, OnCommit (fun t => t.rt = s.rt) (f r s)) : KeepsRt (opPatch operands acq rel f) where
  hold := onSome_ite (onSome_some rfl) (onSome_findSome _ fun _ => routeHold_rt rfl)
  last {r s} := by
    unfold opPatch
    dsimp only
    split
    · rfl
    · exact hf
  effect := landResult_rt

theorem keepsRt_data {op} : KeepsRt (opData op) where
  hold := by simp [opData]
  effect := acceptCmd_rt

theorem keepsRt_tagged {op} : KeepsRt (opTagged op) where
  hold := accessHold_rt rfl
  commit {r s} := by
    unfold opTagged
    dsimp only
    split
    · split
      · trivial
      · exact clusterCommit_rt rfl
    all_goals rfl
  effect {r s} := by
    unfold opTagged
    dsimp only
    split
    · simp
    all_goals simp

theorem keepsRt_atom {op ret} : KeepsRt (opAtom op ret) where
  hold {r s} := by
    unfold opAtom
    dsimp only
    split
    next heq => exact heq ▸ accessHold_rt rfl
    · split <;> simp
  commit := clusterCommit_rt rfl
  effect {r s} := by
    unfold opAtom
    dsimp only
    split
    · split
      next heq =>
        have ht := onSome_ite (P := fun q => q.2.rt = s.rt) (atomArrive_rt markEmpty_rt) onSome_none _ heq
        simpa using ht
      · simp
    all_goals simp

theorem keepsRt_tbar : KeepsRt opSyTbar where
  hold := by simp [opSyTbar]
  commit := barrierDown_rt rfl
  effect := rfl

theorem keepsRt_cbar : KeepsRt opSyCbar where
  hold := by simp [opSyCbar]
  commit := barrierDown_rt rfl
  effect := by simp [opSyCbar]

theorem keepsRt_join : KeepsRt opSyJoin where
  effect := rfl

theorem keepsRt_leave : KeepsRt opSyLeave where
  effect := leaveCrew_rt

theorem keepsRt_fence : KeepsRt opSyFence where
  effect := rfl

theorem keepsRt_pwait : KeepsRt opSyPwait where
  hold := by simp [opSyPwait]
  effect := rfl

theorem keepsRt_queue {peek} : KeepsRt (opQueue peek) where
  effect := rfl

theorem keepsRt_pop {poll} : KeepsRt (opPop poll) where
  effect := by simp [opPop]

theorem keepsRt_item {kind} : KeepsRt (opItem kind) where
  effect := by simp [opItem]

theorem keepsRt_sysExit : KeepsRt opSysExit where
  effect := endContext_rt

theorem keepsRt_sysVec : KeepsRt opSysVec where
  effect := rfl

theorem keepsRt_sysTrw : KeepsRt opSysTrw where
  effect := rfl

theorem keepsRt_sysTret : KeepsRt opSysTret where
  effect := by simp [opSysTret]

theorem keepsRt_view {view} : KeepsRt (opView view) where
  effect := rfl

theorem keepsRt_sysFlwr : KeepsRt opSysFlwr where
  effect := rfl

theorem keepsRt_sysLaunch : KeepsRt opSysLaunch where
  hold {r s} := by
    unfold opSysLaunch
    dsimp only
    refine onSome_ite onSome_none ?_
    split
    next heq => exact heq ▸ routeHold_rt rfl
    · simp
  commit {r s} := by
    unfold opSysLaunch
    dsimp only
    split
    · rfl
    · split
      · rfl
      · split
        · rfl
        · exact postLaunch_rt
  effect := landResult_rt

theorem keepsRt_sysStepb : KeepsRt opSysStepb where
  hold := by simp [opSysStepb]
  commit := barrierDown_rt rfl
  effect := by simp [opSysStepb]

theorem keepsRt_sysSvc : KeepsRt opSysSvc where
  hold {r s} := by
    unfold opSysSvc
    dsimp only
    refine onSome_ite (onSome_some rfl) (onSome_ite (onSome_some rfl) ?_)
    split
    · exact onSome_none
    · exact onSome_some startDemand_rt
    · exact onSome_some rfl
  last {r s} := by
    unfold opSysSvc
    dsimp only
    split
    next heq => simpa using (serviceOfReq_rt rfl).answer heq
    · exact startDemand_rt
    · rfl
  effect := landResult_rt

theorem keepsRt_sysCtrcfg : KeepsRt opSysCtrcfg where
  effect := rfl

theorem keepsRt_sysYield : KeepsRt opSysYield where
  effect := rfl

theorem KeepsRt.of_eq {o o' : Op} (ho : KeepsRt o) (h : some (Act.trig o) = some (.trig o')) : KeepsRt o' := by
  cases h
  exact ho

/-- Every trigger of the opcode table is an operation that leaves the boot and the fuses alone. -/
theorem keepsRt_of_actOf {i : Instr} {o : Op} (h : actOf i = some (.trig o)) : KeepsRt o := by
  cases i with
  | iaAdd | iaSub | iaAnd | iaOr | iaXor | iaAndn | iaShl | iaShr | iaSar | iaRotl | iaMin | iaMax | iaMinu | iaMaxu
    | iaEq | iaNe | iaLt | iaLtu | iaLe | iaLeu | iaSel | iaExt | iaClz | iaPopc | amAdd | amSub | amLsa | amWrap |
    sysVwrd | sysFlrd | sysLogc | sysCtrrd =>
    exact keepsRt_result.of_eq h
  | amMul | amMulu | amMad | amMadu => exact keepsRt_amWide.of_eq h
  | amWxs | amWxd | amWxv | amWxh => exact keepsRt_amBase.of_eq h
  | brJmp => exact keepsRt_brJmp.of_eq h
  | brCall => exact keepsRt_brCall.of_eq h
  | brRet => exact keepsRt_brRet.of_eq h
  | brLoop => exact keepsRt_brLoop.of_eq h
  | brJz | brJnz | brJeq | brJne | brJlt | brJge | brJltu | brJgeu =>
    exact keepsRt_branch.of_eq h
  | brLbrk => exact keepsRt_brLbrk.of_eq h
  | brLkset => exact keepsRt_brLkset.of_eq h
  | lsLd8 | lsLd8s | lsLd16 | lsLd16s | lsLd32 | lsLd32s | lsLd64 | lsLd128 | lsLdvh | lsLdv | lsLdbc =>
    exact keepsRt_load.of_eq h
  | lsSt8 | lsSt16 | lsSt32 | lsSt64 | lsSt128 | lsStvh | lsStv | lsStvm | lsStz =>
    exact keepsRt_store.of_eq h
  | vxAdd | vxSub | vxMul | vxFma | vxFms | vxFnma | vxMin | vxMax | vxAbs | vxNeg | vxAddsat | vxSubsat | vxMulhi |
    vxAnd | vxOr | vxXor | vxAndn | vxShl | vxShr | vxSar | vxCeq | vxCne | vxClt | vxCle | vxCltu | vxCleu | vxSel
    | vxClamp | vxCopysign | vxAbsd | vxPopc | vxAvg | vxBcast | vxIota | vxDot4 | vxDot2 | vsLut3 | vsFsl | vsFsr |
    vsVrot | vsVshl | vsVshr | vsPerm | vsBperm | vsCompress | vsExpand | vsCvt | vsCvtzb4 | vsCvtmx | vsRedsum |
    vsRedmax | vsRedmin | vsRedand | vsRedor | vsRedxor | vsPack | vsUnpack | vsTbl | vsScan | vsZip | vsUnzip |
    vsBcastl | vsExtr | vsInsr | vsPcnt | vsRev =>
    exact keepsRt_vec.of_eq h
  | mxAlloc => exact keepsRt_mxAlloc.of_eq h
  | mxFree => exact keepsRt_mxFree.of_eq h
  | mxNorm => exact keepsRt_mxNorm.of_eq h
  | mxRd => exact keepsRt_mxRd.of_eq h
  | mxWr => exact keepsRt_mxWr.of_eq h
  | mmB4 | mmF8 | mmI8 | mmI16 | mmH | mmTn | mmS | mmS3 | accLd | accSt | accNorm | accZero =>
    exact keepsRt_mxCall.of_eq h
  | ecPopen => exact (keepsRt_patch (doPopen_rt rfl)).of_eq h
  | ecPclose => exact (keepsRt_patch (doPclose_rt rfl)).of_eq h
  | ecPcomm => exact (keepsRt_patch (doPcomm_rt rfl)).of_eq h
  | ecPinv => exact (keepsRt_patch (doPinv_rt rfl)).of_eq h
  | ecPfork => exact (keepsRt_patch (doPfork_rt rfl)).of_eq h
  | ecPxpl => exact (keepsRt_patch (doPxpl_rt rfl)).of_eq h
  | ecPfold => exact (keepsRt_patch (doPfold_rt rfl)).of_eq h
  | ecPsq => exact (keepsRt_patch (doPsq_rt rfl)).of_eq h
  | ecPreg => exact (keepsRt_patch (doPreg_rt rfl)).of_eq h
  | ecPdrop => exact (keepsRt_patch (doPdrop_rt rfl)).of_eq h
  | ecCopy | ecTcopy | ecFill | ecSend | ecRecv | ecRecva | ecStep =>
    exact keepsRt_data.of_eq h
  | syLdf | syLdk | syStf | syStx => exact keepsRt_tagged.of_eq h
  | sySwap | syCas | syFadd | syFaddf | syRadd | syRaddf | syRmax | syRmin | syRmaxf | syRand | syRor | syRxor =>
    exact keepsRt_atom.of_eq h
  | syFence => exact keepsRt_fence.of_eq h
  | syPwait => exact keepsRt_pwait.of_eq h
  | syTbar => exact keepsRt_tbar.of_eq h
  | syCbar => exact keepsRt_cbar.of_eq h
  | syJoin => exact keepsRt_join.of_eq h
  | syLeave => exact keepsRt_leave.of_eq h
  | syQlen | syQpeek => exact keepsRt_queue.of_eq h
  | sySpop | sySpoll => exact keepsRt_pop.of_eq h
  | sySgadd | sySgset | sySdone => exact keepsRt_item.of_eq h
  | sysExit => exact keepsRt_sysExit.of_eq h
  | sysStepb => exact keepsRt_sysStepb.of_eq h
  | sysLaunch => exact keepsRt_sysLaunch.of_eq h
  | sysTret => exact keepsRt_sysTret.of_eq h
  | sysVec => exact keepsRt_sysVec.of_eq h
  | sysTrw => exact keepsRt_sysTrw.of_eq h
  | sysWvws | sysWvwd | sysWvwv | sysWvwh => exact keepsRt_view.of_eq h
  | sysFlwr => exact keepsRt_sysFlwr.of_eq h
  | sysSvcReport | sysSvcShare | sysSvcUnshare => exact keepsRt_sysSvc.of_eq h
  | sysCtrcfg => exact keepsRt_sysCtrcfg.of_eq h
  | sysYield => exact keepsRt_sysYield.of_eq h
  | _ => cases h

/-! ### The issue of a bundle -/

/-- The triggers of a bundle leave the boot and the fuses alone. -/
def PartsKeepRt (l : List Part) : Prop := ∀ i ∈ l, ∀ o, i.act = .trig o → KeepsRt o

/-- The operations of requests leave the boot and the fuses alone. -/
def ReqsKeepRt (l : List (Op × Req)) : Prop := ∀ e ∈ l, KeepsRt e.1

theorem reqsKeepRt_requests {c limm l} (h : PartsKeepRt l) : ReqsKeepRt (requests s c limm l) := by
  intro e he
  obtain ⟨i, hi, hie⟩ := List.mem_filterMap.mp he
  split at hie
  next o ho =>
    cases hie
    exact h i hi o ho
  · cases hie

theorem partsKeepRt_partsOf {b} : PartsKeepRt (partsOf b) := by
  intro i hi o ho
  obtain ⟨k, _, hk⟩ := List.mem_filterMap.mp hi
  obtain ⟨a, ha, rfl⟩ := Option.map_eq_some_iff.mp hk
  obtain ⟨j, _, hj⟩ := Option.bind_eq_some_iff.mp ha
  exact keepsRt_of_actOf (hj.trans (congrArg some ho))

theorem holdAll_rt {l} (hl : ReqsKeepRt l) : (holdAll l s).2.rt = s.rt := by
  induction l generalizing s with
  | nil => rfl
  | cons e l ih =>
    obtain ⟨he, hl⟩ := List.forall_mem_cons.mp hl
    unfold holdAll
    split
    next heq => exact (ih hl).trans (he.hold _ heq)
    · exact ih hl

theorem commitAll_rt {l b} (hl : ReqsKeepRt l) : OnCommit (fun t => t.rt = s.rt) (commitAll l b s) := by
  induction l generalizing b s with
  | nil => cases b <;> rfl
  | cons e l ih =>
    obtain ⟨he, hl⟩ := List.forall_mem_cons.mp hl
    unfold commitAll
    split
    next heq => exact he.commit.go heq ▸ ih hl
    next heq => exact he.commit.held heq ▸ ih hl
    all_goals trivial

theorem lastAll_rt {s0 l} (hl : ReqsKeepRt l) (hs : s.rt = s0.rt) :
    OnCommit (fun t => t.rt = s0.rt) (lastAll s0 l s) := by
  induction l generalizing s with
  | nil => exact hs
  | cons e l ih =>
    obtain ⟨he, hl⟩ := List.forall_mem_cons.mp hl
    unfold lastAll
    split
    next heq => exact ih hl ((he.last.go heq).trans hs)
    · trivial
    · refine onCommit_held.mpr ?_
      split
      next heq => exact he.last.held heq
      all_goals rfl
    · refine onCommit_refuse.mpr ?_
      split
      next heq => exact he.last.refuse heq
      all_goals rfl

theorem effectAll_rt {l} (hl : ReqsKeepRt l) : (effectAll l s).rt = s.rt := by
  refine List.foldlRecOn (motive := fun t : State => t.rt = s.rt) _ _ rfl fun t ht e he => ?_
  obtain ⟨k, _, hk⟩ := List.mem_flatMap.mp he
  exact (hl e (List.mem_filter.mp hk).1).effect.trans ht

theorem issueNow_rt {c limm active rs} (hr : ReqsKeepRt rs) : (issueNow c limm active rs s).rt = s.rt :=
  (effectAll_rt hr).trans chargeBlocks_rt

theorem issueItems_rt {c limm items} (hi : PartsKeepRt items) : (issueItems c limm items s).rt = s.rt := by
  have hr : ReqsKeepRt (requests s c limm (items.filter fun i => i.active (s.ctx c))) :=
    reqsKeepRt_requests fun i hm => hi i (List.mem_filter.mp hm).1
  unfold issueItems
  dsimp only
  split
  · simp
  · split
    · simp
    · split
      · split
        · simp
        · split
          · split
            · simp
            · split
              · simp
              · split
                · simp
                · split
                  · simp
                  · simp
                  next heq => simpa using (commitAll_rt hr).held heq
                  next s1 heq =>
                    have h1 : s1.rt = s.rt := (commitAll_rt hr).go heq
                    split
                    · simpa using h1
                    next heq => simpa using ((lastAll_rt hr rfl).refuse heq).trans h1
                    next heq => simpa using ((lastAll_rt hr rfl).held heq).trans h1
                    next heq => exact (issueNow_rt hr).trans (((lastAll_rt hr rfl).go heq).trans h1)
          next heq =>
            have h1 := holdAll_rt (s := s) hr
            rw [heq] at h1
            simpa using h1
      · simp

@[simp] theorem issueBundle_rt {c b} : (issueBundle c b s).rt = s.rt := by
  unfold issueBundle
  split
  · simp
  · exact issueItems_rt partsKeepRt_partsOf

theorem issueOne_rt {m a} (ha : ∀ o, a = .trig o → KeepsRt o) : OnNext (fun t => t.rt = s.rt) (issueOne m a s) :=
  onNext_next.mpr (issueItems_rt (by simpa [PartsKeepRt] using ha))

@[simp] theorem bundleIssue_rt {c} : (bundleIssue s c).rt = s.rt := by
  unfold bundleIssue
  split
  · rfl
  · split
    · simp
    · split
      · simp
      · split
        · simp
        · simp

end

end Sys2Proof.Machine
end

section
/-! SUPPORT. No step lowers the fused floor (R195, R235): O59. -/

namespace Sys2Proof.Machine

section
variable {s t : State}

/-! ### A step -/

theorem floor_le_of_rt {o : Host.Outcome State Fault Refusal} (h : OnNext (fun t => t.rt = s.rt) o) :
    OnNext (fun t => s.rt.floor ≤ t.rt.floor) o :=
  fun t ht => (congrArg Rot.floor (h t ht)).ge

theorem floor_le_next_of_rt (h : t.rt = s.rt) : OnNext (fun t => s.rt.floor ≤ t.rt.floor) (.next t) :=
  floor_le_of_rt (onNext_next.mpr h)

theorem floor_le_next (h : t.rt.floor = s.rt.floor) : OnNext (fun t => s.rt.floor ≤ t.rt.floor) (.next t) :=
  onNext_next.mpr h.ge

theorem floor_le_execMove {i d m a} (h : moveOf i = some (d, m)) (ha : actOf i = some a) :
    OnNext (fun t => s.rt.floor ≤ t.rt.floor) (exec i s) := by
  rw [exec_move i d m a s h ha]
  exact floor_le_of_rt (issueOne_rt fun _ ho => keepsRt_of_actOf (ha.trans (congrArg some ho)))

theorem floor_le_execBootCommitDeadline : OnNext (fun t => s.rt.floor ≤ t.rt.floor) (execBootCommitDeadline s) := by
  unfold execBootCommitDeadline
  split
  · split
    · exact onNext_next.mpr floor_le_bootCommit
    · exact floor_le_next bootLost_floor
  all_goals exact floor_le_next rfl

/-- A request served by a function that keeps the floor keeps it. -/
theorem floor_le_onRequest {code masks reads} {f : Request → State → State} (hf : ∀ q t, (f q t).rt.floor = t.rt.floor) :
    OnNext (fun t => s.rt.floor ≤ t.rt.floor) (onRequest code masks reads f s) := by
  unfold onRequest
  refine onNext_next.mpr ?_
  split
  · exact le_rfl
  · simp [hf]

theorem floor_le_execStage : OnNext (fun t => s.rt.floor ≤ t.rt.floor) (execStage s) :=
  floor_le_onRequest fun _ _ => by simp

theorem floor_le_exec {i} : OnNext (fun t => s.rt.floor ≤ t.rt.floor) (exec i s) := by
  cases i with
  | powerUp => exact floor_le_next powerOn_floor
  | bootFetchTimeout => exact floor_le_next fetchTimeout_floor
  | bootRetryWait => exact floor_le_next (by simp)
  | alivePost => exact floor_le_next alivePosted_floor
  | bootCommitDeadline => exact floor_le_execBootCommitDeadline
  | stationmasterWatchdog => exact floor_le_next watchdog_floor
  | hostLinkUp => exact floor_le_next linkUp_floor
  | stageGo => exact floor_le_next goSet_floor
  | hostWindowAccess => exact floor_le_next_of_rt windowAccess_rt
  | hostRegisterWrite => exact floor_le_next registerWrite_floor
  | slotPost => exact floor_le_next_of_rt writeState_rt
  | slotFree => exact floor_le_next_of_rt writeState_rt
  | slotBadState => exact floor_le_of_rt (execSlotBadState_rt rfl)
  | launch => exact floor_le_of_rt (execLaunch_rt rfl)
  | kill => exact floor_le_of_rt (execKill_rt rfl)
  | mkcomp => exact floor_le_of_rt (execMkcomp_rt rfl)
  | rmcomp => exact floor_le_of_rt (execRmcomp_rt rfl)
  | map => exact floor_le_of_rt (execMap_rt rfl)
  | unmap => exact floor_le_of_rt (execUnmap_rt rfl)
  | budget => exact floor_le_of_rt (execBudget_rt rfl)
  | report => exact floor_le_of_rt (execReport_rt rfl)
  | stage => exact floor_le_execStage
  | ckpt => exact floor_le_of_rt (execCkpt_rt rfl)
  | abandon => exact floor_le_of_rt (execAbandon_rt rfl)
  | logrel => exact floor_le_of_rt (execLogrel_rt rfl)
  | pkgnum => exact floor_le_of_rt (execPkgnum_rt rfl)
  | winlist => exact floor_le_of_rt (execWinlist_rt rfl)
  | restore => exact floor_le_of_rt (execRestore_rt rfl)
  | mgmtRequest => exact floor_le_next_of_rt mgmtArrives_rt
  | launchAcceptance => exact floor_le_of_rt (execLaunchAcceptance_rt rfl)
  | settFill => exact floor_le_next_of_rt (placementRun_rt.trans fillSetts_rt)
  | timetablePeriodBoundary => exact floor_le_next periodBoundary_floor
  | handoverDeadline =>
    refine onNext_next.mpr ?_
    split
    · split <;> exact le_rfl
    · exact floor_le_handDeadline
  | boardSlotWrite => exact floor_le_of_rt (execBoardSlotWrite_rt rfl)
  | swapOut => exact floor_le_next_of_rt swapOut_rt
  | swapIn => exact floor_le_next_of_rt swapIn_rt
  | preempt => exact floor_le_next_of_rt preemptCtx_rt
  | matrixCallReissue => exact floor_le_next_of_rt ((modCtx_rt ..).trans reissueCall_rt)
  | teamEnd => exact floor_le_next_of_rt teamEnd_rt
  | teamdownTimeout => exact floor_le_next_of_rt downTimeout_rt
  | launchCompletion => exact floor_le_of_rt (execLaunchCompletion_rt rfl)
  | settPopAnswer => exact floor_le_next_of_rt (by simp)
  | stepBoundary => exact floor_le_of_rt (execStepBoundary_rt rfl)
  | stepAbandon => exact floor_le_of_rt (execStepAbandon_rt rfl)
  | demandMapService => exact floor_le_next_of_rt demandService_rt
  | compartmentInvalidation => exact floor_le_next_of_rt endInval_rt
  | producerLaunch => exact floor_le_next_of_rt launchProducer_rt
  | producerComplete => exact floor_le_next_of_rt endProducer_rt
  | ibundleEccReload => exact floor_le_next_of_rt reloadBundle_rt
  | coreSubstitute => exact floor_le_next_of_rt substitute_rt
  | coreFailure => exact floor_le_next_of_rt failCore_rt
  | bundleIssue => exact floor_le_next_of_rt bundleIssue_rt
  | fairnessLimit => exact floor_le_of_rt (execFairnessLimit_rt rfl)
  | resultLanding => exact floor_le_next_of_rt (modCtx_rt ..)
  | variableArrival => exact floor_le_of_rt (execVariableArrival_rt rfl)
  | ephemeralExpiry => exact floor_le_next_of_rt (modCtx_rt ..)
  | clusterAccessAccept => exact floor_le_of_rt (execClusterAccessAccept_rt rfl)
  | globalWritePerformed => exact floor_le_of_rt (execGlobalWritePerformed_rt rfl)
  | atomicQueuePerform => exact floor_le_of_rt (execAtomicQueuePerform_rt rfl)
  | reductionHold => exact floor_le_of_rt (execReductionHold_rt rfl)
  | chainRead => exact floor_le_of_rt (execChainRead_rt rfl)
  | patchWriteArrival => exact floor_le_of_rt (execPatchWriteArrival_rt rfl)
  | freightBurst => exact floor_le_next_of_rt (by simp)
  | dataCommandRetire => exact floor_le_next_of_rt retireCmd_rt
  | statusPushWait => exact floor_le_next_of_rt retryStatus_rt
  | shuttleMatch => exact floor_le_next_of_rt (by simp)
  | shuttleChunkArrival => exact floor_le_next_of_rt chunkArrives_rt
  | shuttleChunkAck => exact floor_le_next_of_rt chunkAcked_rt
  | peerLost => exact floor_le_next_of_rt losePeer_rt
  | matrixStepBegin => exact floor_le_of_rt (execMatrixStepBegin_rt rfl)
  | matrixStepEnd => exact floor_le_of_rt (execMatrixStepEnd_rt rfl)
  | nimmetLinkTrain => exact floor_le_next_of_rt linkTrain_rt
  | nimmetSessionSetup => exact floor_le_next_of_rt sessionUp_rt
  | sessionRekey => exact floor_le_of_rt (execSessionRekey_rt rfl)
  | nimmetFrameReceive => exact floor_le_next_of_rt (by simp)
  | nimmetFrameResend => exact floor_le_next_of_rt (by simp)
  | secondTierPortFail => exact floor_le_next_of_rt rfl
  | thermalWarning => exact floor_le_next_of_rt postNotice_rt
  | thermalShutdown => exact floor_le_next rfl
  | tftpImageArrival => exact floor_le_next (by simp)
  | translationWalkEnd => exact floor_le_next_of_rt walkEnd_rt
  | receiverInsertsItems => exact floor_le_next_of_rt insertItems_rt
  | uncorrectableError => exact floor_le_next_of_rt failAt_rt
  | powerRemoved => exact floor_le_next rfl
  | _ => exact floor_le_execMove rfl rfl

theorem floor_le_runTodo {t : Todo} (h : t.st.rt = s.rt) : OnNext (fun u => s.rt.floor ≤ u.rt.floor) (runTodo t) :=
  h ▸ floor_le_exec

theorem floor_le_step : OnNext (fun t => s.rt.floor ≤ t.rt.floor) (step s) := by
  unfold step
  split
  · split
    next heq => exact floor_le_runTodo (inputTodo_rt _ heq)
    · exact floor_le_next rfl
  · split
    · exact onNext_fault
    · split
      next heq => exact floor_le_runTodo (nextTodo_rt _ heq)
      · exact floor_le_next rfl

end

/-- Settles O59. Every function of the machine but those of boots and hand-overs leaves `rt` alone; those keep its floor,
or raise it to an SVN that commits. -/
theorem fusesOnlyRise : Obligations.FusesOnlyRise := by
  unfold Obligations.FusesOnlyRise
  exact fun _ t => floor_le_step t

end Sys2Proof.Machine
end

section
/-! SUPPORT. Hand-overs and their record (R197, R233 to R236, R435), for O47. -/

namespace Sys2Proof.Machine

section
variable {s t : State}

/-! ### The bytes of a record (R233) -/

theorem getElem_sectionOffsets (l : List (List Byte)) (n k : Nat) (h : k < l.length) :
    (sectionOffsets n l)[k]? = some (n + ((l.take k).flatMap id).length) := by
  induction l generalizing n k with
  | nil => cases h
  | cons b l ih =>
    cases k with
    | zero => rfl
    | succ k =>
      rw [sectionOffsets, List.getElem?_cons_succ, ih _ _ (Nat.lt_of_succ_lt_succ h)]
      simp [Nat.add_assoc]

theorem drop_sections (l : List (List Byte)) (k : Nat) :
    (l.flatMap id).drop ((l.take k).flatMap id).length = (l.drop k).flatMap id := by
  conv_lhs => rw [← List.take_append_drop k l, List.flatMap_append]
  simp

/-- A section that begins with a value is read back from its offset. -/
theorem sectionAt_sectionOffsets {α : Type} (c : Codec α) {v : α} {u : List Byte} {l : List (List Byte)} {k : Nat}
    (h : l[k]? = some (c.put v ++ u)) :
    sectionAt c (sectionOffsets 0 l) k (l.flatMap id) = some (v, u ++ (l.drop (k + 1)).flatMap id) := by
  obtain ⟨hk, hl⟩ := List.getElem?_eq_some_iff.mp h
  rw [sectionAt, getElem_sectionOffsets l 0 k hk, Option.bind_some, Nat.zero_add, drop_sections,
    List.drop_eq_getElem_cons hk, hl]
  simp [c.law]

theorem sectionAt_whole {α : Type} (c : Codec α) {v : α} {l : List (List Byte)} {k : Nat} (h : l[k]? = some (c.put v)) :
    sectionAt c (sectionOffsets 0 l) k (l.flatMap id) = some (v, (l.drop (k + 1)).flatMap id) :=
  sectionAt_sectionOffsets c (u := []) (by rw [h, List.append_nil])

theorem recordOf_recordData (r : HandRec) : recordOf (recordData r) = some r := by
  have h0 : sectionAt codecBoards (sectionOffsets 0 (recordSections r)) 0 ((recordSections r).flatMap id) = some (_, _) :=
    sectionAt_whole codecBoards rfl
  have h1 : sectionAt codecLaunches (sectionOffsets 0 (recordSections r)) 1 ((recordSections r).flatMap id) = some (_, _) :=
    sectionAt_sectionOffsets codecLaunches rfl
  have h2 : sectionAt codecSetts (sectionOffsets 0 (recordSections r)) 2 ((recordSections r).flatMap id) = some (_, _) :=
    sectionAt_whole codecSetts rfl
  have h3 : sectionAt codecTimetable (sectionOffsets 0 (recordSections r)) 3 ((recordSections r).flatMap id) = some (_, _) :=
    sectionAt_whole codecTimetable rfl
  have h4 : sectionAt codecRoutes (sectionOffsets 0 (recordSections r)) 4 ((recordSections r).flatMap id) = some (_, _) :=
    sectionAt_whole codecRoutes rfl
  unfold recordOf recordData
  simp only [codecHeader.law, codecComps.law, Option.bind_some, h0, h1, h2, h3, h4, Option.map_some]

/-! ### The hand-over status (R236) -/

theorem handState_rt {st fail kind seq : Nat} : (handState s st fail kind seq).rt = { s.rt with
    handStatus := BitVec.ofNat 64 (st * 2 ^ 24 + fail * 2 ^ 16 + kind * 2 ^ 8 + seq % 256) } := postNotice_rt

theorem handSt_of_status {st fail kind seq : Nat} (h : t.rt.handStatus =
    BitVec.ofNat 64 (st * 2 ^ 24 + fail * 2 ^ 16 + kind * 2 ^ 8 + seq % 256)) (hst : st < 256) (hf : fail < 256)
    (hk : kind < 256) : handSt t = st := by
  simp only [handSt, h, fld, BitVec.toNat_ofNat, Nat.shiftRight_eq_div_pow]
  norm_num
  omega

theorem handFailCode_of_status {st fail kind seq : Nat} (h : t.rt.handStatus =
    BitVec.ofNat 64 (st * 2 ^ 24 + fail * 2 ^ 16 + kind * 2 ^ 8 + seq % 256)) (hf : fail < 256)
    (hk : kind < 256) : handFailCode t = fail := by
  simp only [handFailCode, h, fld, BitVec.toNat_ofNat, Nat.shiftRight_eq_div_pow]
  norm_num
  omega

/-! ### What a record's memory changes of the boot and the fuses (R233) -/

/-- Two states differ in `rt` at most in where the hand-over record stands. -/
def RecordOnly (s t : State) : Prop := ∃ o, t.rt = { s.rt with record := o }

theorem RecordOnly.trans {u : State} (h : RecordOnly s t) (h' : RecordOnly t u) : RecordOnly s u := by
  obtain ⟨_, h⟩ := h
  obtain ⟨o, h'⟩ := h'
  exact ⟨o, by rw [h', h]⟩

theorem recordOnly_of_rt (h : t.rt = s.rt) : RecordOnly s t := ⟨s.rt.record, h⟩

theorem recordOnly_dropRecord : RecordOnly s (dropRecord s) := by
  unfold dropRecord
  split
  · exact ⟨none, rfl⟩
  · exact recordOnly_of_rt rfl

theorem recordOnly_placeRecord {b : List Byte} : RecordOnly s (placeRecord b s) := by
  unfold placeRecord
  split
  next pa t heq =>
    have ht : t.rt = s.rt := onSome_findSome (P := fun q => q.2.rt = s.rt) _ (fun _ => takePages_rt rfl) _ heq
    exact ⟨some (pa, b.length), by simp [ht]⟩
  · exact recordOnly_of_rt rfl

theorem recordOnly_resumeRecord {h : Hand} : RecordOnly s (resumeRecord s h) := by
  have hput : RecordOnly s (putRecord s h) := recordOnly_dropRecord.trans recordOnly_placeRecord
  unfold resumeRecord
  dsimp only
  split
  · exact hput.trans (recordOnly_of_rt rfl)
  · exact hput

/-! ### How a hand-over ends (R235) -/

theorem handState_rt_of_recordOnly {st fail kind seq : Nat} (h : RecordOnly s t) :
    ∃ o, (handState t st fail kind seq).rt = { s.rt with
      record := o, handStatus := BitVec.ofNat 64 (st * 2 ^ 24 + fail * 2 ^ 16 + kind * 2 ^ 8 + seq % 256) } := by
  obtain ⟨o, ho⟩ := h
  exact ⟨o, by rw [handState_rt, ho]⟩

theorem handRevert_rt {h : Hand} {code : Nat} : ∃ o seq, (handRevert s h code).rt = { s.rt with
    hand := none, zitrum := true, firmware := tput h.kind h.old s.rt.firmware, record := o
    handStatus := BitVec.ofNat 64 (4 * 2 ^ 24 + code * 2 ^ 16 + h.kind * 2 ^ 8 + seq % 256) } := by
  obtain ⟨o, ho⟩ := handState_rt_of_recordOnly (recordOnly_resumeRecord.trans recordOnly_dropRecord)
  exact ⟨o, _, ho⟩

theorem handRevert_reverts {h : Hand} {code : Nat} (hk : h.kind < 256) (hc : code < 256) :
    let t := handRevert s h code
    t.rt.hand = none ∧ t.rt.zitrum = true ∧ handSt t = 4 ∧ handFailCode t = code ∧ firmwareOf t h.kind = h.old ∧
      floorOf t h.kind = floorOf s h.kind := by
  obtain ⟨o, seq, ht⟩ := handRevert_rt (s := s) (h := h) (code := code)
  refine ⟨by rw [ht], by rw [ht], handSt_of_status (by rw [ht]) (by decide) hc hk, handFailCode_of_status (by rw [ht]) hc hk,
    ?_, ?_⟩
  · rw [firmwareOf, ht, tget_tput_same]
    rfl
  · rw [floorOf, floorOf, ht]

theorem handCommit_commits {h : Hand} (hk : h.kind < 256) :
    let t := handCommit s h
    t.rt.hand = none ∧ t.rt.zitrum = true ∧ handSt t = 3 ∧ t.rt.firmware = s.rt.firmware ∧
      floorOf t h.kind = max (floorOf s h.kind) h.image.svn := by
  obtain ⟨o, hu⟩ := handState_rt_of_recordOnly (st := 3) (fail := 0) (kind := h.kind) (seq := handSeq s)
    (recordOnly_dropRecord (s := { s with rt := { s.rt with hand := none, zitrum := true } }))
  dsimp only
  unfold handCommit
  dsimp only
  generalize handState _ 3 0 h.kind (handSeq s) = u at hu ⊢
  have hst : handSt u = 3 := handSt_of_status (by rw [hu]) (by decide) (by decide) hk
  split
  next h1 => exact ⟨by simp [hu], by simp [hu], hst, by simp [hu], by simp [floorOf, h1, hu]⟩
  next h1 => exact ⟨by simp [hu], by simp [hu], hst, by simp [hu], by simp [floorOf, h1, hu, tget_tput_same]⟩

theorem alivePosted_switched {h : Hand} {svn : Nat} (hh : s.rt.hand = some h) (hs : h.switched = true) :
    (alivePosted s svn).rt.alive = some svn ∧
      (alivePosted s svn).rt.hand = some { h with alive := svn == h.image.svn } := by
  simp [alivePosted, hh, hs]

theorem handDeadline_switched {h : Hand} (hh : s.rt.hand = some h) (hs : h.switched = true) :
    handDeadline s = if h.alive then handCommit s h else handRevert s h 0x10 := by
  simp [handDeadline, hh, hs]

theorem watchdog_switched {h : Hand} (hh : s.rt.hand = some h) (hs : h.switched = true) :
    watchdog s = handRevert s h 0x12 := by
  simp [watchdog, hh, hs]

theorem execHandoverDeadline_ends (h : s.ev.b ≠ 1) : exec .handoverDeadline s = .next (handDeadline s) :=
  congrArg Host.Outcome.next (if_neg h)

theorem execHandoverDeadline_sets (h : s.ev.b = 1) : exec .handoverDeadline s = .next
    { s with rt := { s.rt with deadline := if 1 ≤ s.ev.a ∧ s.ev.a ≤ 1000 then s.ev.a else s.rt.deadline } } := by
  refine congrArg Host.Outcome.next ((if_pos h).trans ?_)
  split <;> rfl

theorem goSet_sets (hb : ∀ n, s.rt.boot ≠ .hostImage n) (hw : ∀ q ∈ s.ho.waiting, q.code ≠ 9) :
    goSet s = { s with ho := { s.ho with stageGo := true } } := by
  have hnone : s.ho.waiting.find? (fun q => q.code == 9) = none :=
    List.find?_eq_none.mpr fun q hq => by simpa using hw q hq
  unfold goSet
  rw [bootStaged_of_ne (by exact hb)]
  simp only [hnone]

end

/-- Settles O47: each event by the rule of its operation, the record's bytes by `recordOf_recordData`. -/
theorem handOvers : Obligations.HandOvers := by
  unfold Obligations.HandOvers
  intro s
  refine ⟨fun hn => ⟨_, rfl, ?_⟩, fun h hh hs hk => ⟨?_, fun hb ha => ?_, fun hb ha => ?_, ?_⟩, recordOf_recordData,
    fun hb => ⟨_, execHandoverDeadline_sets hb, rfl⟩, fun hb hw => ⟨_, rfl, goSet_sets hb hw⟩⟩
  · simp [alivePosted, hn]
  · exact ⟨_, rfl, alivePosted_switched hh hs⟩
  · refine ⟨_, execHandoverDeadline_ends hb, ?_⟩
    rw [handDeadline_switched hh hs, if_pos ha]
    exact handCommit_commits hk
  · refine ⟨_, execHandoverDeadline_ends hb, ?_⟩
    rw [handDeadline_switched hh hs, if_neg (by simp [ha])]
    exact handRevert_reverts hk (by decide)
  · refine ⟨_, rfl, ?_⟩
    rw [watchdog_switched hh hs]
    obtain ⟨hnone, _, hst, hfail, hfw, _⟩ := handRevert_reverts (s := s) (code := 0x12) hk (by decide)
    exact ⟨hnone, hst, hfail, hfw⟩

end Sys2Proof.Machine
end

section
/-! SUPPORT. Ports, sessions, frames and notices (R204, R440 to R445), for O48. -/

namespace Sys2Proof.Machine

section
variable {s : State}

/-! ### A notice to the host (R440) -/

theorem postNotice_posts (kind subject word1 : Nat) : postNotice s kind subject word1 = { s with ho := { s.ho with
    ncount := s.ho.ncount + 1
    notices := tput (s.ho.ncount % 256) (BitVec.ofNat 64 (kind + subject * 2 ^ 16), BitVec.ofNat 64 word1) s.ho.notices
    msix := if s.ho.hostLink then s.ho.msix ++ [1] else s.ho.msix } } := by
  unfold postNotice sendMsix
  split <;> rfl

/-! ### The status of a port (R443) -/

/-- The word of a port's status. -/
def portWord (s : State) (p st peer pport lanes : Nat) : W64 :=
  BitVec.ofNat 64 (peer % 2 ^ 13 * 2 ^ 35 + pport % 16 * 2 ^ 31 + lanes % 16 * 2 ^ 27 + st * 2 ^ 24 +
    fld (nimmetPort s p).status.toNat 23 0)

/-- A state with another status of a port. -/
def withPortWord (s : State) (p : Nat) (w : W64) : State :=
  { s with en := { s.en with nimmet := tput p { nimmetPort s p with status := w } s.en.nimmet } }

/-- A port's status changes the port, and posts a notice at most. -/
theorem portStatus_eq (p st peer pport lanes : Nat) : ∃ ho,
    portStatus s p st peer pport lanes = { withPortWord s p (portWord s p st peer pport lanes) with ho := ho } := by
  unfold portStatus
  dsimp only
  split
  · exact ⟨_, rfl⟩
  · exact ⟨_, postNotice_posts 3 p st⟩

variable (p st peer pport lanes : Nat)

theorem portStatus_ms : (portStatus s p st peer pport lanes).ms = s.ms := by
  obtain ⟨ho, h⟩ := portStatus_eq (s := s) p st peer pport lanes
  rw [h, withPortWord]

theorem portStatus_ctxs : (portStatus s p st peer pport lanes).ctxs = s.ctxs := by
  obtain ⟨ho, h⟩ := portStatus_eq (s := s) p st peer pport lanes
  rw [h, withPortWord]

theorem portStatus_sessions : (portStatus s p st peer pport lanes).en.sessions = s.en.sessions := by
  obtain ⟨ho, h⟩ := portStatus_eq (s := s) p st peer pport lanes
  rw [h, withPortWord]

theorem nimmetPort_portStatus : nimmetPort (portStatus s p st peer pport lanes) p =
    { nimmetPort s p with status := portWord s p st peer pport lanes } := by
  obtain ⟨ho, h⟩ := portStatus_eq (s := s) p st peer pport lanes
  simp only [h, withPortWord, nimmetPort, tget_tput_same, Option.getD_some]

theorem portSt_portStatus (h : st < 8) : portSt (portStatus s p st peer pport lanes) p = st := by
  simp only [portSt, nimmetPort_portStatus, portWord, fld_eq_div_mod, BitVec.toNat_ofNat]
  omega

theorem peer_portStatus (h : st < 8) :
    fld (nimmetPort (portStatus s p st peer pport lanes) p).status.toNat 47 35 = peer % 2 ^ 13 := by
  simp only [nimmetPort_portStatus, portWord, fld_eq_div_mod, BitVec.toNat_ofNat]
  omega

/-! ### Training (R443) -/

/-- STATE after a port has trained. -/
def trainedSt (s : State) (e : EvArg) : Nat :=
  if e.b = 2 then (if ¬ s.ho.pkginfo.getLsbD 31 then 1 else if e.c = pkgNumber s then 4 else 2) else e.b % 8

theorem trainedSt_lt {e : EvArg} : trainedSt s e < 8 := by
  unfold trainedSt
  split
  · split
    · decide
    · split <;> decide
  · omega

theorem linkTrain_eq {e : EvArg} : linkTrain s e = if trainedSt s e = 0 then portStatus s e.a 0 0 0 0
    else portStatus s e.a (trainedSt s e) e.c (e.d / 16) (e.d % 16) :=
  rfl

theorem linkTrain_ms {e : EvArg} : (linkTrain s e).ms = s.ms := by
  rw [linkTrain_eq]; split <;> exact portStatus_ms _ _ _ _ _

theorem linkTrain_ctxs {e : EvArg} : (linkTrain s e).ctxs = s.ctxs := by
  rw [linkTrain_eq]; split <;> exact portStatus_ctxs _ _ _ _ _

theorem portSt_linkTrain {e : EvArg} : portSt (linkTrain s e) e.a = trainedSt s e := by
  rw [linkTrain_eq]
  split
  next h => rw [h]; exact portSt_portStatus _ _ _ _ _ (by decide)
  next => exact portSt_portStatus _ _ _ _ _ trainedSt_lt

theorem trainedSt_ne_zero {e : EvArg} (h : e.b = 2) : trainedSt s e ≠ 0 := by
  rw [trainedSt, if_pos h]
  split
  · decide
  · split <;> decide

theorem peer_linkTrain {e : EvArg} (h : e.b = 2) :
    fld (nimmetPort (linkTrain s e) e.a).status.toNat 47 35 = e.c % 2 ^ 13 := by
  rw [linkTrain_eq, if_neg (trainedSt_ne_zero h)]
  exact peer_portStatus _ _ _ _ _ trainedSt_lt

/-! ### Sessions (R204) -/

theorem sessionUp_sessions {e : EvArg} (h : e.c = 1) : (sessionUp s e).en.sessions = tput e.a
    { peer := e.a, up := true, key := s.nextId, counter := 0, tags := tagsOf 64 e.body } s.en.sessions := by
  simp only [sessionUp, h, ne_eq, not_true_eq_false, if_false]
  split
  · exact portStatus_sessions _ _ _ _ _
  · rfl

/-! ### Frames (R442, R443) -/

theorem nimmetPort_tput (n : Nimmet) :
    nimmetPort { s with en := { s.en with nimmet := tput p n s.en.nimmet } } p = n := by
  simp only [nimmetPort, tget_tput_same, Option.getD_some]

/-- The count of frames sent again is the low field of the status, and the other fields stay. -/
theorem resent_count (w : W64) (k : Nat) (h : k < 2 ^ 24) :
    fld (BitVec.ofNat 64 (w.toNat - fld w.toNat 23 0 + k)).toNat 23 0 = k := by
  have hw := w.isLt
  simp only [fld_eq_div_mod, BitVec.toNat_ofNat]
  omega

/-! ### The second tier (R441) -/

theorem physRead_failPorts {pa n : Nat} {l : List Nat} (h : pa < 2 ^ 44) :
    physRead { s with ms := { s.ms with failPorts := l } } pa n = physRead s pa n := by
  simp only [physRead, portFailed, Nat.not_le.mpr h, decide_false, Bool.false_and]

theorem fld_port {a off : Nat} (ha : a < 16) (ho : off < 2 ^ 40) : fld (2 ^ 44 + a * 2 ^ 40 + off) 43 40 = a := by
  rw [fld_eq_div_mod]
  omega

theorem physRead_failed_port {a off n : Nat} (ha : a < 16) (ho : off < 2 ^ 40) :
    physRead { s with ms := { s.ms with failPorts := sins a s.ms.failPorts } } (2 ^ 44 + a * 2 ^ 40 + off) n = none := by
  have hp : 2 ^ 44 ≤ 2 ^ 44 + a * 2 ^ 40 + off := by omega
  simp only [physRead, portFailed, hp, decide_true, fld_port ha ho, contains_sins, Bool.and_true, true_or, if_true]

end

/-- Settles O48: a port's status is one word with its fields, a session that is set up or re-keyed takes the next
identifier as its key, and what a failed port or a notice changes is one list of the state. -/
theorem linksAndHeat : Obligations.LinksAndHeat := by
  intro s
  refine ⟨⟨_, rfl, linkTrain_ms, linkTrain_ctxs, fun h => ?_, fun h => ?_, peer_linkTrain⟩, fun h => ?_, fun n hn => ?_,
    ⟨_, rfl, ?_⟩, fun h => ?_, ⟨_, rfl, rfl, fun off n ha ho => physRead_failed_port ha ho, fun pa n hp =>
      physRead_failPorts hp⟩, ⟨_, rfl, ?_⟩⟩
  · rw [portSt_linkTrain, trainedSt, if_neg (by omega)]
    omega
  · rw [portSt_linkTrain, trainedSt, if_pos h]
    simp only [Bool.not_eq_true]
  · refine ⟨_, _, rfl, by rw [sessionUp_sessions h, tget_tput_same], rfl, rfl, rfl, rfl, fun p hp => ?_⟩
    rw [sessionUp_sessions h, tget_tput_other _ _ _ _ hp]
  · refine ⟨_, rfl, ?_, ?_⟩
    · simp only [hn, tget_tput_same]
    · simp only [hn]
  · dsimp only
    split
    · rw [nimmetPort_tput]
    · rfl
  · have hne : (nimmetPort s s.ev.a).unacked.isEmpty = false := by simpa using h
    refine ⟨_, rfl, ?_, ?_⟩
    · simp only [hne, Bool.false_eq_true, if_false, nimmetPort_tput]
    · simp only [hne, Bool.false_eq_true, if_false, nimmetPort_tput]
      exact resent_count _ _ (by omega)
  · rw [postNotice_posts]
    exact ⟨rfl, tget_tput_same _ _ _, rfl, rfl⟩

end Sys2Proof.Machine
end

section
/-! SUPPORT. Windows, registers and slots of the host port (R203, R433 to R437, R444), for O49. -/

namespace Sys2Proof.Machine

section
variable {s t : State}

/-! ### Undisturbed memory (R217, R447) -/

theorem portFailed_of_none (h : s.ms.failPorts = []) (pa : Nat) : portFailed s pa = false := by
  simp [portFailed, h]

theorem physRead_of_undisturbed (hp : s.ms.failPorts = []) (hm : s.ms.failMem = []) (pa n : Nat) :
    physRead s pa n = some (rdBytes s.ms.mem pa n) := by
  simp [physRead, portFailed_of_none hp, hm]

theorem physPut_ms (hp : s.ms.failPorts = []) (hm : s.ms.failMem = []) (a : Nat) (bs : List Byte) :
    (physPut s a bs).ms = { s.ms with mem := wrBytes a bs s.ms.mem } := by
  simp only [physPut, portFailed_of_none hp, hm, Bool.false_eq_true, if_false, List.contains_nil, false_and, sdel]

theorem wrBytes_append (l k : List Byte) (a : Nat) (m : Memory) :
    wrBytes a (l ++ k) m = wrBytes (a + l.length) k (wrBytes a l m) := by
  induction l generalizing a m with
  | nil => rfl
  | cons b l ih => rw [List.cons_append, wrBytes, ih, wrBytes, List.length_cons, Nat.add_assoc, Nat.add_comm 1]

theorem wrBytes_take_drop (n : Nat) (bs : List Byte) (a : Nat) (m : Memory) :
    wrBytes (a + n) (bs.drop n) (wrBytes a (bs.take n) m) = wrBytes a bs m := by
  conv_rhs => rw [← List.take_append_drop n bs, wrBytes_append, List.length_take]
  by_cases hn : n ≤ bs.length
  · rw [Nat.min_eq_left hn]
  · rw [List.drop_eq_nil_of_le (by omega)]; rfl

/-- Bytes that are cut at word boundaries, and written word by word. -/
theorem chunkWrites_ms {comp lid : Nat} (fuel : Nat) : ∀ (a : Nat) (bs : List Byte) (s : State), bs.length ≤ fuel →
    s.ms.failPorts = [] → s.ms.failMem = [] →
    ((chunkWords fuel a bs).foldl (fun t w => physPut (journalFor t comp lid (w.1 / 4096)) w.1 w.2) s).ms =
      { s.ms with mem := wrBytes a bs s.ms.mem } := by
  induction fuel with
  | zero =>
    intro a bs s hl _ _
    obtain rfl := List.eq_nil_of_length_eq_zero (Nat.le_zero.mp hl)
    rfl
  | succ fuel ih =>
    intro a bs s hl hp hm
    cases bs with
    | nil => rfl
    | cons b bs =>
      let n := 4 - a % 4
      have hput := physPut_ms (s := journalFor s comp lid (a / 4096)) hp hm a ((b :: bs).take n)
      have hrest : ((b :: bs).drop n).length ≤ fuel := by
        rw [List.length_drop]; simp only [n]; omega
      rw [chunkWords, List.foldl_cons, ih _ _ _ hrest (by rw [hput]; exact hp) (by rw [hput]; exact hm), hput]
      exact congrArg (fun m : Memory => { s.ms with mem := m }) (wrBytes_take_drop n (b :: bs) a s.ms.mem)

theorem pageWrite_ms (hp : s.ms.failPorts = []) (hm : s.ms.failMem = []) (comp lid a : Nat) (bs : List Byte) :
    (pageWrite s comp lid a bs).ms = { s.ms with mem := wrBytes a bs s.ms.mem } :=
  chunkWrites_ms _ a bs s le_rfl hp hm

/-! ### Windows (R203, R433) -/

theorem windowTarget_none {e : EvArg} (h : windowAt s e.a (hostBytes e) = none) : windowTarget s e = none := by
  rw [windowTarget, h]; rfl

theorem windowTarget_some {e : EvArg} {w pages o ps} (h : windowAt s e.a (hostBytes e) = some (w, pages, o))
    (hp : windowPieces pages o (hostBytes e) = some ps) : windowTarget s e = some (w, ps) := by
  simp only [windowTarget, h, Option.bind_some, hp, Option.map_some]

theorem windowAccess_unsupported {e : EvArg} (h : windowTarget s e = none) : windowAccess s e =
    if e.b = 1 then s else { s with ho := { s.ho with readback := List.replicate (hostBytes e) 0xFF } } := by
  rw [windowAccess, h]

theorem windowAccess_refused {e : EvArg} {w ps} (h : windowTarget s e = some (w, ps)) (hb : e.b = 1) (hw : wW w = false) :
    windowAccess s e = s := by
  rw [windowAccess, h]
  exact if_pos ⟨hb, by rw [hw]; decide⟩

theorem windowAccess_write {e : EvArg} {w pa n} (h : windowTarget s e = some (w, [(pa, n)])) (hb : e.b = 1)
    (hw : wW w = true) (hh : s.ms.holds = []) :
    windowAccess s e = pageWrite s (wComp w) 0 pa (e.body.take n) := by
  simp only [windowAccess, h, hb, hw, touchPieces_of_noHolds hh, if_true, not_true_eq_false, and_false, if_false]
  rfl

theorem windowAccess_read {e : EvArg} {w pa n} (h : windowTarget s e = some (w, [(pa, n)])) (hb : e.b ≠ 1)
    (hs : Undisturbed s) : windowAccess s e = { s with ho := { s.ho with readback := rdBytes s.ms.mem pa n } } := by
  simp only [windowAccess, h, hb, touchPieces_of_noHolds hs.holds, false_and, if_false, List.foldl_cons, List.foldl_nil,
    hostReadPiece, physRead_of_undisturbed hs.ports hs.mem, List.nil_append]

/-! ### The registers of BAR0 (R435 to R437) -/

/-- The memories and the contexts, which no register of BAR0 but GO changes. -/
def memAndCtxs (s : State) : MemSt × Tab Ctx := (s.ms, s.ctxs)

theorem memAndCtxs_writeState {n v : Nat} : memAndCtxs (writeState s n v) = memAndCtxs s := by
  unfold writeState
  dsimp only
  split
  · split <;> rfl
  · split
    · split
      · rfl
      · split <;> rfl
    · split
      · rfl
      · simp [memAndCtxs, setSlot, withdrawSlot]

theorem memAndCtxs_regByte {a : Nat} {b : Byte} : memAndCtxs (regByte s a b) = memAndCtxs s := by
  unfold regByte
  dsimp only
  split
  · split <;> rfl
  · split <;> rfl

/-- Where STATE of a slot stands in BAR0. -/
def stateAt (n : Nat) : Nat := 0x100000 + 0x4000 * n + 7

theorem registerWrite_byte {a : Nat} (b : Byte) (ha : a ≠ 0x10) : registerWrite s a [b] =
    (List.range 64).foldl (fun t n => if a = stateAt n then writeState t n b.toNat else t) (regByte s a b) := by
  have hgo : ¬ (a ≤ 0x10 ∧ 0x10 < a + 1 ∧ ([b].getD (0x10 - a) 0).getLsbD 0 = true) := fun ⟨h1, h2, _⟩ => by omega
  unfold registerWrite
  dsimp only [regBytes, List.length_singleton]
  rw [if_neg hgo]
  congr 1
  funext t n
  by_cases h : a = stateAt n
  · rw [if_pos h, if_pos (by unfold stateAt at h; omega), h]
    simp [stateAt]
  · rw [if_neg h, if_neg (by unfold stateAt at h; omega)]

theorem memAndCtxs_registerWrite {a : Nat} {b : Byte} (ha : a ≠ 0x10) :
    memAndCtxs (registerWrite s a [b]) = memAndCtxs s := by
  rw [registerWrite_byte b ha]
  refine (foldl_keeps (g := memAndCtxs) (fun t n => ?_) _ _).trans memAndCtxs_regByte
  split
  · exact memAndCtxs_writeState
  · rfl

theorem foldl_eq_self {α : Type} {f : State → α → State} (l : List α) (h : ∀ x ∈ l, f s x = s) : l.foldl f s = s := by
  induction l with
  | nil => rfl
  | cons x l ih =>
    rw [List.foldl_cons, h x List.mem_cons_self]
    exact ih fun y hy => h y (List.mem_cons_of_mem _ hy)

/-- A byte outside the slots, and not GO, is written by its own rule alone. -/
theorem registerWrite_outside_slots {a : Nat} (b : Byte) (ha : a ≠ 0x10) (hs : a < 0x100000 ∨ 0x200000 ≤ a) :
    registerWrite s a [b] = regByte s a b := by
  rw [registerWrite_byte b ha]
  refine foldl_eq_self _ fun n hn => if_neg ?_
  have := List.mem_range.mp hn
  unfold stateAt
  omega

theorem regByte_low {a : Nat} {b : Byte} (h : a < 0x100000) : regByte s a b = s := by
  unfold regByte
  rw [if_neg (by omega), if_neg (by omega)]

theorem regByte_staging {a : Nat} {b : Byte} (h : 0x1000000 ≤ a) (h' : a < 0x6000000) : regByte s a b =
    { s with ho := { s.ho with staging := wrByte (a - 0x1000000) b s.ho.staging } } := by
  unfold regByte
  rw [if_neg (by omega), if_pos ⟨h, h'⟩]

/-! ### Slots (R436, R437) -/

theorem slotState_withState (h : HostSlot) {v : Nat} (hv : v < 256) : slotState (withState h v) = v := by
  simp only [slotState, withState, slotHdr, List.getD_cons_zero, fld_eq_div_mod, BitVec.toNat_ofNat]
  omega

theorem hostSlot_of_slots {n : Nat} {h : HostSlot} (ht : t.ho.slots = tput n h s.ho.slots) : hostSlot t n = h := by
  rw [hostSlot, ht, tget_tput_same, Option.getD_some]

theorem slotState_of_slots {n v : Nat} {h : HostSlot} (ht : t.ho.slots = tput n (withState h v) s.ho.slots) (hv : v < 256) :
    slotState (hostSlot t n) = v := by
  rw [hostSlot_of_slots ht, slotState_withState h hv]

theorem writeState_post {n : Nat} (h : slotState (hostSlot s n) = 0 ∨ slotState (hostSlot s n) = 3) : writeState s n 1 =
    { setSlot s n (withState (hostSlot s n) 1) with ho := { (setSlot s n (withState (hostSlot s n) 1)).ho with
      requests := s.ho.requests ++ [{ route := .host n, code := 0, ticket := 0, len := 0, body := [] }] } } := by
  unfold writeState
  rw [if_pos rfl, if_pos h]
  rfl

theorem writeState_withdraw {n : Nat} (h : slotState (hostSlot s n) = 1) : writeState s n 0 =
    setSlot (withdrawSlot s n) n (withState (hostSlot s n) 0) := by
  unfold writeState
  rw [if_neg (by decide), if_pos rfl, if_pos h]

theorem writeState_clear {n : Nat} (h : slotState (hostSlot s n) = 3) : writeState s n 0 =
    setSlot s n (withState (hostSlot s n) 0) := by
  unfold writeState
  rw [if_neg (by decide), if_pos rfl, if_neg (by omega), if_pos h]

/-- The header of a slot that is answered BADREQ, with the subcode of a bad STATE. -/
def badHdr (h : HostSlot) : W64 := hdrWord 3 (fld (slotHdr h 0).toNat 55 48) 0x10 1 (fld (slotHdr h 0).toNat 31 0)

theorem writeState_bad {n v : Nat} (h : slotState (hostSlot s n) ≠ 2) (hv : 2 ≤ v) : writeState s n v =
    sendMsix (setSlot (withdrawSlot s n) n
      { hostSlot s n with hdr := badHdr (hostSlot s n) :: (hostSlot s n).hdr.drop 1 }) 0 := by
  unfold writeState
  rw [if_neg (by omega), if_neg (by omega), if_neg h]
  rfl

theorem sendMsix_slots {v : Nat} : (sendMsix s v).ho.slots = s.ho.slots := by
  unfold sendMsix
  split <;> rfl

theorem hostSlot_sendMsix {n v : Nat} : hostSlot (sendMsix s v) n = hostSlot s n := by
  rw [hostSlot, sendMsix_slots, hostSlot]

theorem hdrWord_fields {state code status sub ticket : Nat} (h1 : state < 256) (h2 : status < 256) (h3 : sub < 256) :
    fld (hdrWord state code status sub ticket).toNat 63 56 = state ∧
      fld (hdrWord state code status sub ticket).toNat 47 40 = status ∧
      fld (hdrWord state code status sub ticket).toNat 39 32 = sub := by
  simp only [hdrWord, fld_eq_div_mod, BitVec.toNat_ofNat]
  omega

theorem mem_withdrawSlot {n : Nat} {q : Request} (h : q ∈ (withdrawSlot s n).ho.requests) (hq : q.route = .host n) :
    q.taken = true := by
  have := List.of_mem_filter h
  simpa [hq] using this

/-! ### Datagrams (R444) -/

theorem zitrumStarted_iff {r : Rot} : zitrumStarted r = true ↔
    r.zitrum = true ∨ r.hand.isSome = true ∨ ∃ n, r.boot = .started n := by
  unfold zitrumStarted
  cases r.boot <;> simp

theorem mgmtArrives_refused {port d} (h : zitrumStarted s.rt = false) : mgmtArrives s port d = s := by
  unfold mgmtArrives
  rw [if_pos (by rw [h]; decide)]

theorem mgmtArrives_queued {port d} (h : zitrumStarted s.rt = true) : mgmtArrives s port d =
    { s with ho := { s.ho with requests := s.ho.requests ++
      [{ route := .mgmt port (fld (bytesNat (d.take 8)) 31 0), code := fld (bytesNat (d.take 8)) 55 48,
         ticket := fld (bytesNat (d.take 8)) 31 0, len := fld (bytesNat ((d.drop 8).take 8)) 13 0,
         body := d.drop 64 }] } } := by
  unfold mgmtArrives
  rw [if_neg (not_not_intro h)]

end

/-- Settles O49: a host access is cut into pieces of a window, a register write into bytes, and each part of the host port
answers by a rule of its own. -/
theorem hostPort : Obligations.HostPort := by
  intro s
  refine ⟨fun h => ?_, fun w pages o pa h hp hs => ?_, fun b hb ha hs => ?_, ⟨fun h => ?_, fun h => ?_, fun hv hv' h => ?_⟩,
    _, rfl, fun h1 h2 h3 => ?_, fun h => ?_⟩
  · have := windowAccess_unsupported (windowTarget_none h)
    refine ⟨_, rfl, ?_, fun hb => ?_, fun hb => ?_⟩
    · rw [this]; split <;> rfl
    · rw [this, if_neg hb, hostBytes, if_neg hb]
    · rw [this, if_pos hb]
  · have ht : windowTarget s s.ev = some (w, [(pa, hostBytes s.ev)]) := windowTarget_some h hp
    by_cases hb : s.ev.b = 1
    · cases hw : wW w with
      | true =>
        have hacc := windowAccess_write ht hb hw hs.holds
        have hms := pageWrite_ms hs.ports hs.mem (wComp w) 0 pa s.ev.body
        have hwf : memWf s.ms.mem = true := by
          have := hs.ok
          simp only [memoriesOk, Bool.and_eq_true] at this
          exact this.1.1
        rw [hostBytes, if_pos hb, List.take_length] at hacc
        refine ⟨_, rfl, ?_, ?_, fun h => absurd hb h, fun _ _ => ?_, fun _ h => by cases h⟩
        · rw [hacc, hms]
        · rw [hacc, writesOnly_pageWrite.1]
        · rw [hacc, hms, if_pos hb]
          exact bytesPut_wrBytes hwf
      | false =>
        have hacc := windowAccess_refused ht hb hw
        exact ⟨_, rfl, by rw [hacc], by rw [hacc], fun h => absurd hb h, (fun _ h => by cases h), fun _ _ => hacc⟩
    · have hacc := windowAccess_read ht hb hs
      refine ⟨_, rfl, by rw [hacc], by rw [hacc], fun _ => ⟨by rw [hacc], ?_⟩, fun h => absurd h hb, fun h => absurd h hb⟩
      rw [hacc, hostBytes]
  · have hkeep : memAndCtxs (registerWrite s s.ev.a [b]) = memAndCtxs s := memAndCtxs_registerWrite ha
    obtain ⟨hms, hctxs⟩ := Prod.mk.inj hkeep
    have hexec : exec .hostRegisterWrite s = .next (registerWrite s s.ev.a [b]) := hb ▸ rfl
    refine ⟨_, hexec, hms, hctxs, fun h h' => ?_, fun h => ?_⟩
    · rw [registerWrite_outside_slots b ha (by omega), regByte_staging h h']
      have hwf : memWf s.ho.staging = true := by
        simp only [memoriesOk, Bool.and_eq_true] at hs
        exact hs.2
      exact ⟨fun k hk => by
        rw [Nat.lt_one_iff.mp hk, Nat.add_zero]
        exact rdByte_wrByte_same _ 0 _ _ hwf, fun k hk => rdByte_wrByte_other _ _ _ _ (by omega)⟩
    · rw [registerWrite_outside_slots b ha (by omega), regByte_low (by omega)]
  · refine ⟨_, rfl, ?_⟩
    rw [writeState_post h]
    exact ⟨slotState_of_slots rfl (by decide), by rw [hostSlot_of_slots rfl]; rfl, rfl⟩
  · refine ⟨_, rfl, ?_⟩
    rcases h with h | h
    · rw [writeState_withdraw h]
      exact ⟨slotState_of_slots rfl (by decide), fun _ q hq hr => mem_withdrawSlot hq hr, fun h' => by omega⟩
    · rw [writeState_clear h]
      exact ⟨slotState_of_slots rfl (by decide), fun h' => by omega, fun _ => rfl⟩
  · refine ⟨writeState s (s.ev.a % 64) s.ev.b, ?_, ?_⟩
    · show execSlotBadState s = _
      rw [execSlotBadState, if_neg (by omega), Nat.mod_eq_of_lt hv']
    · rw [writeState_bad h hv, hostSlot_sendMsix, hostSlot_of_slots rfl]
      exact hdrWord_fields (by decide) (by decide) (by decide)
  · have hstart : ¬ zitrumStarted s.rt = true := by
      rw [zitrumStarted_iff]
      rintro (hz | hz | ⟨n, hz⟩)
      · rw [h1] at hz; cases hz
      · rw [h2] at hz; cases hz
      · exact h3 n hz
    exact mgmtArrives_refused (Bool.eq_false_iff.mpr hstart)
  · have hstart : zitrumStarted s.rt = true := zitrumStarted_iff.mpr h
    exact ⟨_, mgmtArrives_queued hstart, rfl, rfl, rfl, rfl, rfl⟩

end Sys2Proof.Machine
end

section
/-! SUPPORT. Requests as they are taken and answered, and those on compartments, pages and budgets (R202, R205, R207,
R437, R438), for O50. -/

namespace Sys2Proof.Machine

section
variable {s t u : State} {q : Request}

/-! ### Taking a request (R437, R438) -/

theorem onRequest_taken {code : Nat} {masks : Request → List Nat} {reads : Request → Nat} {f : Request → State → State}
    (h : Taken code s q u) (hb : wellFormedBody q (masks q) (reads q)) : onRequest code masks reads f s = .next (f q u) := by
  obtain ⟨q0, rest, hreq, hcode, htake, hlen⟩ := h
  obtain ⟨hreads, hmasks⟩ := hb
  simp only [onRequest, hreq, hcode, ne_eq, not_true_eq_false, if_false, htake, Nat.not_lt.mpr hlen, Nat.not_lt.mpr hreads,
    hmasks, Bool.false_eq_true]

theorem onRequest_taken_fixed {code reads : Nat} {masks : List Nat} {f : Request → State → State} (h : Taken code s q u)
    (hb : wellFormedBody q masks reads) : onRequest code (fun _ => masks) (fun _ => reads) f s = .next (f q u) :=
  onRequest_taken (masks := fun _ => masks) (reads := fun _ => reads) h hb

/-! ### Answers (R433, R437, R439, R444) -/

section
variable {status sub res0 : Nat} {body : List Byte}

theorem respond_ms : (respond s q status sub res0 body).ms = s.ms := respond_keeps.1

theorem respond_tt : (respond s q status sub res0 body).tt = s.tt := respond_keeps.2.1

theorem answerCtx_heldLogs {lid rank : Nat} {v : W64} : (answerCtx s lid rank v).tm.heldLogs = s.tm.heldLogs := by
  unfold answerCtx
  dsimp only
  split <;> rfl

theorem sendMsix_windows {v : Nat} : (sendMsix s v).ho.windows = s.ho.windows := by
  unfold sendMsix
  split <;> rfl

theorem respond_heldLogs : (respond s q status sub res0 body).tm.heldLogs = s.tm.heldLogs := by
  unfold respond
  split
  · rw [sendMsix_tm]; rfl
  · rfl
  · exact answerCtx_heldLogs
  · split <;> rfl

theorem respond_windows : (respond s q status sub res0 body).ho.windows = s.ho.windows := by
  unfold respond
  split
  · exact sendMsix_windows
  · rfl
  · exact congrArg HostPort.windows answerCtx_keeps.2.2
  · split <;> rfl

end

theorem compNamed_mod {n : Nat} (h : 1 ≤ n % 64) : compNamed (n % 64) = true := by
  simp only [compNamed, decide_eq_true_eq]
  omega

theorem not_isNone_of_isSome {α : Type} {o : Option α} (h : o.isSome = true) : ¬ o.isNone = true := by
  rw [← Option.not_isSome, h]
  decide

/-! ### MKCOMP (R202) -/

theorem zeroMem_tt {a n : Nat} : (zeroMem s a n).tt = s.tt := by
  unfold zeroMem
  split <;> rfl

/-- R202. A table takes no more than memory. -/
theorem takeTable_comps {root : Nat} (h : takeTable s = some (root, t)) : t.tt.comps = s.tt.comps := by
  unfold takeTable at h
  dsimp only at h
  split at h
  · cases h
  · rw [← (Prod.mk.inj (Option.some.inj h)).2, zeroMem_tt]

/-- The lowest free number of a compartment. -/
theorem freeNumber_eq {k : Nat} (hk : k < 63) (hfree : tget s.tt.comps (k + 1) = none)
    (hlow : ∀ j, j < k → tget s.tt.comps (j + 1) ≠ none) :
    ((List.range 63).find? fun k => (tget s.tt.comps (k + 1)).isNone) = some k := by
  rw [List.find?_range_eq_some]
  refine ⟨by rw [hfree]; rfl, List.mem_range.mpr hk, fun j hj => ?_⟩
  simpa [Option.isSome_iff_ne_none] using hlow j hj

/-- The record of a new compartment. -/
def newComp (q : Request) (root key : Nat) : Comp :=
  { isol := (bodyWord q 0).testBit 0, poolmax := BitVec.ofNat 64 (bodyWord q 1), quota := BitVec.ofNat 64 (bodyWord q 2)
    tag := BitVec.ofNat 256 (bytesNat ((q.body.drop 24).take 32)), kchain := 0, kcount := 0, root := root, pages := 0
    pool := 0, key := key }

theorem makeComp_makes {k root : Nat}
    (hk : ((List.range 63).find? fun k => (tget s.tt.comps (k + 1)).isNone) = some k)
    (ht : takeTable s = some (root, t)) : makeComp q s = respond { t with tt := { t.tt with
      comps := tput (k + 1) (newComp q root t.tt.nextKey) t.tt.comps, nextKey := t.tt.nextKey + 1 } } q 0 0 (k + 1) [] := by
  rw [makeComp, hk, ht]
  rfl

/-! ### RMCOMP (R202, R203) -/

theorem mem_tdel {α : Type} {n : Nat} {l : Tab α} {e : Nat × α} (h : e ∈ tdel n l) : e ∈ l ∧ e.1 ≠ n := by
  induction l with
  | nil => cases h
  | cons x l ih =>
    obtain ⟨k, w⟩ := x
    rw [tdel] at h
    split at h
    · exact ⟨List.mem_cons_of_mem _ (ih h).1, (ih h).2⟩
    next hk =>
      rcases List.mem_cons.mp h with rfl | h
      · exact ⟨List.mem_cons_self, hk⟩
      · exact ⟨List.mem_cons_of_mem _ (ih h).1, (ih h).2⟩

theorem dropWindows_state (l : Tab (BitVec 128)) (s : State) :
    ∃ ho, l.foldl (fun t e => dropWindow t e.1) s = { s with ho := ho } := by
  induction l generalizing s with
  | nil => exact ⟨_, rfl⟩
  | cons e l ih =>
    obtain ⟨ho, h⟩ := ih (dropWindow s e.1)
    exact ⟨ho, h⟩

theorem mem_dropWindows {l : Tab (BitVec 128)} {e : Nat × BitVec 128}
    (h : e ∈ (l.foldl (fun t e => dropWindow t e.1) s).ho.windows) : e ∈ s.ho.windows ∧ ∀ x ∈ l, e.1 ≠ x.1 := by
  induction l generalizing s with
  | nil => exact ⟨h, fun x hx => by cases hx⟩
  | cons x l ih =>
    obtain ⟨hmem, hrest⟩ := ih h
    obtain ⟨hmem, hne⟩ := mem_tdel hmem
    exact ⟨hmem, List.forall_mem_cons.mpr ⟨hne, hrest⟩⟩

/-- A compartment that is gone has no record, and leaves no window, line, log or translation. -/
theorem destroyComp_destroys (s : State) (comp : Nat) : (destroyComp s comp).tt.comps = tdel comp s.tt.comps ∧
    (destroyComp s comp).ms.mem = s.ms.mem ∧ (∀ e ∈ (destroyComp s comp).ms.lines, e.1 / 2 ^ 24 ≠ comp) ∧
    (∀ h ∈ (destroyComp s comp).tm.heldLogs, h.comp ≠ comp) ∧ (∀ e ∈ (destroyComp s comp).ho.windows, wComp e.2 ≠ comp) ∧
    ∀ e ∈ (destroyComp s comp).ms.tlb, e.comp ≠ comp := by
  have hwin : ∀ e ∈ (destroyComp s comp).ho.windows, wComp e.2 ≠ comp := fun e he hc => by
    obtain ⟨hmem, hne⟩ := mem_dropWindows he
    exact hne e (List.mem_filter.mpr ⟨hmem, beq_iff_eq.mpr hc⟩) rfl
  obtain ⟨ho, h⟩ := dropWindows_state (s.ho.windows.filter fun e => wComp e.2 == comp) s
  refine ⟨?_, ?_, fun e he => ?_, fun g hg => ?_, hwin, fun e he => ?_⟩
  · simp only [destroyComp, h]
  · simp only [destroyComp, h]
  · exact bne_iff_ne.mp (List.mem_filter.mp he).2
  · exact bne_iff_ne.mp (List.mem_filter.mp hg).2
  · exact bne_iff_ne.mp (List.mem_filter.mp he).2

/-! ### MAP (R81 to R87, R438) -/

theorem bearLine_mem {high : W64} : (bearLine s high).ms.mem = s.ms.mem := by
  obtain ⟨lines, h⟩ := bearLine_eq s high
  rw [h]

theorem bearLine_bears {high : W64} : ∃ l, (bearLine s high).line (lineKey high) = some l := by
  unfold bearLine
  dsimp only
  split
  next h => exact Option.isSome_iff_exists.mp h.1
  · exact ⟨_, tget_tput_same _ _ _⟩

/-! ### UNMAP (R93, R438) -/

/-- Pages that are removed change bytes of memory alone. -/
def onlyMem (s t : State) : Prop := t = { s with ms := { s.ms with mem := t.ms.mem } }

theorem onlyMem.refl : onlyMem s s := rfl

theorem onlyMem.trans (h : onlyMem s t) (g : onlyMem t u) : onlyMem s u := by
  unfold onlyMem at *
  rw [g, h]

theorem onlyMem.waiting (h : onlyMem s t) : t.ho.waiting = s.ho.waiting := by rw [h]
theorem onlyMem.invals (h : onlyMem s t) : t.ms.invals = s.ms.invals := by rw [h]

theorem onlyMem_putDesc {a : Nat} {low high : W64} : onlyMem s (putDesc s a low high) := by
  unfold onlyMem putDesc
  dsimp only

theorem onlyMem_putDescs {α : Type} (f : α → Nat) (l : List α) (s : State) :
    onlyMem s (l.foldl (fun u a => putDesc u (f a) 0 0) s) := by
  induction l generalizing s with
  | nil => exact onlyMem.refl
  | cons a l ih => exact onlyMem_putDesc.trans (ih _)

theorem onlyMem_dropLeaf {root ta size pa : Nat} (h : dropLeaf s root ta size = some (pa, t)) : onlyMem s t := by
  obtain ⟨r, _, hr⟩ := Option.map_eq_some_iff.mp h
  cases hr
  exact onlyMem_putDescs _ _ _

theorem onlyMem_unmapPages {root size bytes : Nat} (n : Nat) : ∀ (ta : Nat) (l : List (Nat × Nat)) (s : State),
    onlyMem s (unmapPages root size bytes n ta (l, s)).2 := by
  induction n with
  | zero => exact fun _ _ _ => onlyMem.refl
  | succ n ih =>
    intro ta l s
    rw [unmapPages]
    split
    next h => exact (onlyMem_dropLeaf h).trans (ih _ _ _)
    · exact ih _ _ _

theorem onlyMem_of_unmapPages {root size bytes n ta : Nat} {l : List (Nat × Nat)}
    (h : unmapPages root size bytes n ta ([], s) = (l, t)) : onlyMem s t := by
  have := onlyMem_unmapPages (root := root) (size := size) (bytes := bytes) n ta [] s
  rwa [h] at this

/-- A context that forgets its translations of a compartment. -/
def forgets (comp : Nat) (x : Ctx) : Ctx := { x with walked := x.walked.filter fun w => w.1 != comp }

theorem waiting_unmapped {comp : Nat} {l : List (Nat × Nat)} :
    (waitFor (invalidate s comp l) q).ho.waiting = s.ho.waiting ++ [q] := rfl

theorem mem_walked_invalidate {comp c : Nat} {l : List (Nat × Nat)} :
    ∀ w ∈ ((invalidate s comp l).ctx c).walked, w.1 ≠ comp := by
  have hctx : (invalidate s comp l).ctx c = forgets comp (s.ctx c) := by
    have := tget_map (fun _ => forgets comp) s.ctxs c
    rw [State.ctx, State.ctx]
    refine (congrArg (fun o : Option Ctx => o.getD {}) this).trans ?_
    cases tget s.ctxs c <;> rfl
  rw [hctx]
  exact fun w hw => bne_iff_ne.mp (List.mem_filter.mp hw).2

end

section
variable {s t u v : State} {q : Request}

/-! ### BUDGET (R205, R207) -/

theorem any_congr_of_mem {α : Type} {f g : α → Bool} {l : List α} (h : ∀ a ∈ l, f a = g a) : l.any f = l.any g := by
  induction l with
  | nil => rfl
  | cons a l ih =>
    rw [List.any_cons, List.any_cons, h a List.mem_cons_self, ih fun b hb => h b (List.mem_cons_of_mem _ hb)]

/-- Two machines whose class blocks are to be the same. -/
def sameBlocks (s t : State) : Prop := ∀ d c, d < 16 → c < 64 → clsWritten s d c = clsWritten t d c

theorem sumField_congr (h : sameBlocks s t) {dies : List Nat} (hd : ∀ d ∈ dies, d < 16) (hi lo : Nat) :
    sumField s dies hi lo = sumField t dies hi lo :=
  List.foldl_ext _ _ 0 fun n d hmem => List.foldl_ext _ _ n fun n c hc => by
    rw [h d c (hd d hmem) (List.mem_range.mp hc)]

/-- What is judged of the limits is the class blocks as they are to be, and the control words. -/
theorem limitBroken_congr (h : sameBlocks s t) (hctl : ∀ d, ctlWritten s d = ctlWritten t d) :
    limitBroken s = limitBroken t := by
  have hall (hi lo : Nat) : sumField s (List.range 16) hi lo = sumField t (List.range 16) hi lo :=
    sumField_congr h (fun d hd => List.mem_range.mp hd) hi lo
  have hdie (hi lo limit : Nat) : ((List.range 16).any fun d => decide (limit < sumField s [d] hi lo * 64)) =
      (List.range 16).any fun d => decide (limit < sumField t [d] hi lo * 64) := any_congr_of_mem fun d hd => by
    rw [sumField_congr h fun e he => by rw [List.mem_singleton.mp he]; exact List.mem_range.mp hd]
  have hbase (hi lo limit : Nat) :
      ((List.range 4).any fun b => decide (limit < sumField s [4 * b, 4 * b + 1, 4 * b + 2, 4 * b + 3] hi lo * 64)) =
        (List.range 4).any fun b => decide (limit < sumField t [4 * b, 4 * b + 1, 4 * b + 2, 4 * b + 3] hi lo * 64) :=
    any_congr_of_mem fun b hb => by
      rw [sumField_congr h fun e he => by
        have := List.mem_range.mp hb
        simp only [List.mem_cons, List.not_mem_nil, or_false] at he
        omega]
  have hper : per256 s = per256 t := by rw [per256, per256, hctl]
  unfold limitBroken
  simp only [hctl, hper, hall, hdie, hbase]

/-- The blocks of a class on some dies. -/
def putBlocks (dies : List Nat) (target : Nat) (block : BitVec 256) (t : Tab (BitVec 256)) : Tab (BitVec 256) :=
  dies.foldl (fun t d => tput (d * 64 + target) block t) t

theorem tget_putBlocks {target c d : Nat} {block : BitVec 256} (dies : List Nat) (l : Tab (BitVec 256)) (ht : target < 64)
    (hc : c < 64) : tget (putBlocks dies target block l) (d * 64 + c) =
      if c = target ∧ d ∈ dies then some block else tget l (d * 64 + c) := by
  induction dies generalizing l with
  | nil => simp [putBlocks]
  | cons e dies ih =>
    rw [putBlocks, List.foldl_cons, ← putBlocks, ih, tget_tput]
    have hkey : d * 64 + c = e * 64 + target ↔ c = target ∧ d = e := by omega
    simp only [hkey, List.mem_cons]
    split
    next h => rw [if_pos ⟨h.1, .inr h.2⟩]
    next h =>
      by_cases he : c = target ∧ d = e
      · rw [if_pos he, if_pos ⟨he.1, .inl he.2⟩]
      · rw [if_neg he, if_neg fun ⟨h1, h2⟩ => h2.elim (fun h3 => he ⟨h1, h3⟩) fun h3 => h ⟨h1, h3⟩]

/-- The class block of a BUDGET's body. -/
def newBlock (q : Request) : BitVec 256 := BitVec.ofNat 256 (bytesNat ((q.body.drop 8).take 32))

/-- The dies that a BUDGET names. -/
def namedDies (q : Request) : List Nat := (List.range 16).filter fun d => (bodyWord q 0).testBit d

/-- The class blocks that a BUDGET asks for. -/
def withBlocks (q : Request) (s : State) : State :=
  { s with tt := { s.tt with
    clsNext := putBlocks (namedDies q) (fld (bodyWord q 0) 23 16) (newBlock q) s.tt.clsNext } }

theorem budgetRequest_class (ht : fld (bodyWord q 0) 23 16 < 64) (h1 : fld (bodyWord q 1) 55 32 % 4096 = 0)
    (h2 : fld (bodyWord q 2) 23 0 % 64 = 0) : budgetRequest q s = match limitBroken (withBlocks q s) with
      | some r => respond s q 0x11 r 0 []
      | none => respond (withBlocks q s) q 0 0 0 [] := by
  unfold budgetRequest
  dsimp only
  rw [if_pos ht, if_neg (by rw [h1, h2]; simp)]
  rfl

theorem tget_withBlocks {d c : Nat} (hd : d < 16) (hc : c < 64) (ht : fld (bodyWord q 0) 23 16 < 64) :
    tget (withBlocks q s).tt.clsNext (d * 64 + c) =
      if c = fld (bodyWord q 0) 23 16 ∧ (bodyWord q 0).testBit d = true then
        some (newBlock q) else tget s.tt.clsNext (d * 64 + c) := by
  have hmem : d ∈ namedDies q ↔ (bodyWord q 0).testBit d = true := by
    simp [namedDies, hd]
  refine (tget_putBlocks _ _ ht hc).trans ?_
  simp only [hmem]

end

section
variable {s u : State} {q : Request}

theorem exec_rmcomp (ha : s.ev.a ≠ 1) (h : Taken 4 s q u) (hb : wellFormedBody q [maskOf 5 0] 8)
    (hc : 1 ≤ bodyWord q 0 % 64) (hsome : (tget u.tt.comps (bodyWord q 0 % 64)).isSome = true)
    (hbusy : compBusy u (bodyWord q 0 % 64) = false) :
    exec .rmcomp s = .next (respond (destroyComp u (bodyWord q 0 % 64)) q 0 0 0 []) := by
  change execRmcomp s = _
  rw [execRmcomp, if_neg ha, onRequest_taken_fixed h hb]
  dsimp only
  rw [if_neg (not_not_intro (compNamed_mod hc)), if_neg (not_isNone_of_isSome hsome), if_pos (by rw [hbusy]; decide)]

/-! The words of a MAP's body: the high word of its descriptors, the low one, and how many pages of which size (R438). -/

def mapHigh (q : Request) : W64 := BitVec.ofNat 64 (bodyWord q 0)
def mapCount (q : Request) : Nat := fld (bodyWord q 2) 31 0
def mapSize (q : Request) : Nat := fld (bodyWord q 2) 34 32
def mapLow (q : Request) : W64 := BitVec.ofNat 64
  (3 + (if (bodyWord q 2).testBit 37 then 64 else 0) + fld (bodyWord q 2) 36 35 * 128 + fld (bodyWord q 2) 34 32 * 512)

/-- The pages of a line agree with what stands of it, and lie in one region. -/
def mapLineFits (q : Request) (s : State) : Prop :=
  dKind (mapLow q) = kLined → lineAgrees s (mapHigh q) (bodyWord q 1) = true ∧
    lineAgrees s (mapHigh q) (bodyWord q 1 + (mapCount q - 1) * pageBytes (mapSize q)) = true ∧
    bodyWord q 1 / 2 ^ (dXlog (mapHigh q) + 1) =
      (bodyWord q 1 + (mapCount q - 1) * pageBytes (mapSize q)) / 2 ^ (dXlog (mapHigh q) + 1)

/-- A compartment's record with the pages of a MAP charged. -/
def mapCharged (q : Request) (k : Comp) : Comp := { k with pages := k.pages + mapCount q * (pageBytes (mapSize q) / 4096) }

/-- What a MAP leaves, but for its answer: the pages in the tables, the line that they name, and the charge. -/
def mapped (q : Request) (k : Comp) (s : State) : State :=
  let s := if dKind (mapLow q) = kLined then bearLine s (mapHigh q) else s
  { s with tt := { s.tt with comps := tput (dComp (mapHigh q)) (mapCharged q k) s.tt.comps } }

theorem mapped_mem {k : Comp} : (mapped q k s).ms.mem = s.ms.mem := by
  unfold mapped
  dsimp only
  split
  · exact bearLine_mem
  · rfl

theorem tget_mapped {k : Comp} : tget (mapped q k s).tt.comps (dComp (mapHigh q)) = some (mapCharged q k) :=
  tget_tput_same _ _ _

theorem mapped_unlined {k : Comp} (h : dKind (mapLow q) ≠ kLined) : (mapped q k s).ms.lines = s.ms.lines := by
  unfold mapped
  rw [if_neg h]

theorem mapped_lined {k : Comp} (h : dKind (mapLow q) = kLined) :
    ∃ l, (mapped q k s).line (lineKey (mapHigh q)) = some l := by
  unfold mapped
  rw [if_pos h]
  exact bearLine_bears

theorem mapRequest_maps {k : Comp} {pa : Nat} {u1 u2 : State} (hc : dComp (mapHigh q) ≠ 0) (hsize : mapSize q < 4)
    (hcount : mapCount q ≠ 0) (hal : bodyWord q 1 % pageBytes (mapSize q) = 0)
    (hend : bodyWord q 1 + mapCount q * pageBytes (mapSize q) ≤ 2 ^ 56)
    (hdesc : badDesc (mapLow q) (mapHigh q) (leafLevel (mapSize q)) = false)
    (hk : tget u.tt.comps (dComp (mapHigh q)) = some k) (hline : mapLineFits q u)
    (hquota : pagesUsed u (dComp (mapHigh q)) + mapCount q * (pageBytes (mapSize q) / 4096) ≤
      quotaPages u (dComp (mapHigh q)))
    (htake : takePages u ((bodyWord q 2).testBit 38) (fld (bodyWord q 2) 42 39) (pageBytes (mapSize q)) (mapCount q) =
      some (pa, u1))
    (hmap : mapPages k.root (mapSize q) (pageBytes (mapSize q)) (mapLow q) (mapHigh q) (mapCount q) (bodyWord q 1) pa u1 =
      some u2) : mapRequest q u = respond (mapped q k u2) q 0 0 pa [] := by
  have hgood : ¬ (dComp (mapHigh q) = 0 ∨ 4 ≤ mapSize q ∨ mapCount q = 0 ∨ bodyWord q 1 % pageBytes (mapSize q) ≠ 0 ∨
      2 ^ 56 < bodyWord q 1 + mapCount q * pageBytes (mapSize q) ∨
      badDesc (mapLow q) (mapHigh q) (leafLevel (mapSize q)) = true ∨
      (dKind (mapLow q) = kLined ∧ (¬ lineAgrees u (mapHigh q) (bodyWord q 1) = true ∨
        ¬ lineAgrees u (mapHigh q) (bodyWord q 1 + (mapCount q - 1) * pageBytes (mapSize q)) = true ∨
        bodyWord q 1 / 2 ^ (dXlog (mapHigh q) + 1) ≠
          (bodyWord q 1 + (mapCount q - 1) * pageBytes (mapSize q)) / 2 ^ (dXlog (mapHigh q) + 1)))) := by
    rintro (h | h | h | h | h | h | ⟨hl, h⟩)
    · exact hc h
    · exact Nat.not_le.mpr hsize h
    · exact hcount h
    · exact h hal
    · exact Nat.not_le.mpr h hend
    · rw [hdesc] at h; cases h
    · obtain ⟨h1, h2, h3⟩ := hline hl
      exact h.elim (fun h => h h1) fun h => h.elim (fun h => h h2) fun h => h h3
  refine (if_neg hgood).trans ?_
  simp only [mapHigh, mapCount, mapSize, mapLow] at hk hquota htake hmap
  rw [hk]
  refine (if_neg (Nat.not_lt.mpr hquota)).trans ?_
  rw [htake]
  dsimp only
  rw [hmap]
  rfl

/-- What an UNMAP leaves: the pages gone, the translations dropped, and the invalidation to be waited for. -/
theorem unmapNow_removes {k : Comp} {l : List (Nat × Nat)} {v : State} {size : Nat} (hsize : fld (bodyWord q 2) 34 32 = size)
    (hk : tget u.tt.comps (bodyWord q 0 % 64) = some k)
    (hpages : unmapPages k.root size (pageBytes size) (fld (bodyWord q 2) 31 0) (bodyWord q 1) ([], u) = (l, v)) :
    unmapNow q u = waitFor (invalidate v (bodyWord q 0 % 64) l) { q with own := some (bodyWord q 0 % 64) } := by
  subst hsize
  rw [unmapNow, hk]
  simp only [hpages]

theorem exec_unmap {size n : Nat} (hs : fld (bodyWord q 2) 34 32 = size) (hn : fld (bodyWord q 2) 31 0 = n)
    (ha : s.ev.a ≠ 1) (h : Taken 6 s q u) (hb : wellFormedBody q [maskOf 5 0, maskOf 55 0, maskOf 34 0] 24)
    (hc : 1 ≤ bodyWord q 0 % 64) (hsize : size < 4) (hcount : n ≠ 0) (hal : bodyWord q 1 % pageBytes size = 0)
    (hend : bodyWord q 1 + n * pageBytes size ≤ 2 ^ 56) (hsome : (tget u.tt.comps (bodyWord q 0 % 64)).isSome = true) :
    exec .unmap s = .next (if pagesKept u (bodyWord q 0 % 64) (bodyWord q 1) (n * pageBytes size) = true then waitFor u q
      else unmapNow q u) := by
  subst hs hn
  change execUnmap s = _
  rw [execUnmap, if_neg ha, onRequest_taken_fixed h hb, unmapRequest]
  rw [if_neg, if_neg (not_isNone_of_isSome hsome)]
  rintro (h | h | h | h | h)
  · exact h (compNamed_mod hc)
  · exact Nat.not_le.mpr hsize h
  · exact hcount h
  · exact h hal
  · exact Nat.not_lt.mpr hend h

theorem exec_unmap_waited (ha : s.ev.a = 1) (hwait : s.ho.waiting = [q]) (hdue : unmapWaits s q = true) :
    exec .unmap s = .next (unmapNow q { s with ho := { s.ho with waiting := [] } }) := by
  change execUnmap s = _
  rw [execUnmap, if_pos ha, hwait, List.find?_cons_of_pos hdue]
  simp only [List.erase_cons_head]

end

/-- Settles O50: each request is taken from the queue, and what its body then asks for passes every check. -/
theorem compartmentRequests : Obligations.CompartmentRequests := by
  intro s u q
  refine ⟨fun k root u' h hb hk hfree hlow ht => ?_, fun ha h hb hc hsome hbusy => ?_,
    fun k pa u1 u2 h hb hc hsize hcount hal hend hdesc hk hline hquota htake hmap => ?_,
    fun k ha h hb hc hsize hcount hal hend hk => ?_, fun q ha hwait hdue hsome => ?_,
    fun v h hb ht h1 h2 hv hcls => ?_⟩
  · have hexec : exec .mkcomp s = .next (makeComp q u) := onRequest_taken_fixed h hb
    refine ⟨_, newComp q root u'.tt.nextKey, hexec, ?_⟩
    rw [makeComp_makes (freeNumber_eq hk hfree hlow) ht]
    simp only [respond_tt, takeTable_comps ht]
    exact ⟨tget_tput_same _ _ _, rfl, rfl, rfl, rfl, rfl, rfl, rfl, rfl, rfl, rfl,
      fun j hj => tget_tput_other _ _ _ _ hj, trivial, trivial⟩
  · obtain ⟨hcomps, hmem, hlines, hlogs, hwin, htlb⟩ := destroyComp_destroys u (bodyWord q 0 % 64)
    refine ⟨_, exec_rmcomp ha h hb hc hsome hbusy, ?_⟩
    rw [respond_tt, respond_ms, respond_heldLogs, respond_windows, hcomps]
    exact ⟨tget_tdel_same _ _, hmem, hlines, hlogs, hwin, htlb, fun k hk => tget_tdel_other _ _ _ hk⟩
  · have hexec : exec .map s = .next (mapRequest q u) := onRequest_taken_fixed h hb
    rw [mapRequest_maps hc hsize hcount hal hend hdesc hk hline hquota htake hmap] at hexec
    exact ⟨_, _, hexec, rfl, mapped_mem, tget_mapped, mapped_unlined, mapped_lined⟩
  · have hexec := exec_unmap rfl rfl ha h hb hc hsize hcount hal hend (Option.isSome_of_eq_some hk)
    refine ⟨_, hexec, fun hkept => if_pos hkept, fun hkept l v hpages => ?_⟩
    have hmem : onlyMem u v := onlyMem_of_unmapPages hpages
    rw [if_neg (by rw [hkept]; decide), unmapNow_removes rfl hk hpages]
    refine ⟨?_, rfl, fun e he => bne_iff_ne.mp (List.mem_filter.mp he).2, fun c => mem_walked_invalidate (l := l), ?_⟩
    · rw [waiting_unmapped, hmem.waiting]
    · rw [← hmem.invals]; rfl
  · obtain ⟨k, hk⟩ := Option.isSome_iff_exists.mp hsome
    rw [exec_unmap_waited ha hwait hdue]
    cases hpages : unmapPages k.root (fld (bodyWord q 2) 34 32) (pageBytes (fld (bodyWord q 2) 34 32))
      (fld (bodyWord q 2) 31 0) (bodyWord q 1) ([], { s with ho := { s.ho with waiting := [] } }) with
    | mk l v =>
      have hmem := onlyMem_of_unmapPages hpages
      refine ⟨_, rfl, ?_⟩
      rw [unmapNow_removes (u := { s with ho := { s.ho with waiting := [] } }) rfl hk hpages]
      exact ⟨by rw [waiting_unmapped, hmem.waiting]; rfl, fun e he => bne_iff_ne.mp (List.mem_filter.mp he).2⟩
  · have hexec : exec .budget s = .next (budgetRequest q u) := onRequest_taken h hb
    rw [budgetRequest_class ht h1 h2] at hexec
    have hsame : ∀ d c, d < 16 → c < 64 →
        tget (withBlocks q u).tt.clsNext (d * 64 + c) = tget v.tt.clsNext (d * 64 + c) := fun d c hd hc => by
      rw [hcls d c hd hc]
      exact tget_withBlocks hd hc ht
    have hlimit : limitBroken (withBlocks q u) = limitBroken v := by
      refine limitBroken_congr (fun d c hd hc => ?_) fun d => ?_
      · rw [clsWritten, hsame d c hd hc, clsWritten, hv]; rfl
      · rw [hv]; rfl
    rw [hlimit] at hexec
    refine ⟨_, hexec, fun hnone d c hd hc => ?_, fun r hr => ?_⟩
    · rw [hnone, respond_tt]
      exact hsame d c hd hc
    · rw [hr]

end Sys2Proof.Machine
end

section
/-! SUPPORT. Requests on launches, checkpoints, reports and firmware (R199, R224, R231, R233, R438), for O51. -/

namespace Sys2Proof.Machine

section
variable {s t u : State} {q : Request}

/-! ### Launches and checkpoints (R438) -/

theorem exec_launch (h : Taken 1 s q u) (hb : wellFormedBody q [] (192 + 32 * pkNrange q.body))
    (hnew : ∀ q0 rest, s.ho.requests = q0 :: rest → q0.taken = false) :
    exec .launch s = .next { u with ho := { u.ho with requests := q :: u.ho.requests } } := by
  have htaken := onRequest_taken (masks := fun _ => []) (reads := fun q => 192 + 32 * pkNrange q.body)
    (f := fun q s => { s with ho := { s.ho with requests := q :: s.ho.requests } }) h hb
  obtain ⟨q0, rest, hreq, -⟩ := h
  change execLaunch s = _
  rw [execLaunch, hreq]
  dsimp only
  rw [if_neg (by rw [hnew q0 rest hreq]; decide)]
  exact htaken

theorem exec_kill {l : Launch} (h : Taken 2 s q u) (hb : wellFormedBody q [maskOf 15 0] 8)
    (hl : tget u.tm.launches (reqLid q) = some l) : exec .kill s = .next (waitFor (killLaunch u (reqLid q) 1) q) := by
  change execKill s = _
  rw [execKill, onRequest_taken_fixed h hb, hl]
  rfl

theorem tget_killLaunch {lid sub : Nat} {l : Launch} (hl : tget s.tm.launches lid = some l) :
    tget (killLaunch s lid sub).tm.launches lid =
      some { l with ending := l.ending <|> some { status := 7, sub := sub } } := by
  refine (tget_modLaunch s lid lid _).trans ?_
  rw [if_pos rfl, hl]
  rfl

theorem killLaunch_waiting {lid sub : Nat} : (killLaunch s lid sub).ho.waiting = s.ho.waiting := by
  unfold killLaunch State.modLaunch
  dsimp only
  split <;> rfl

theorem mem_after {cyc : Nat} {early : Bool} {row : Instr} {arg : EvArg} :
    { cyc := cyc, early := early, ev := { row := row, arg := arg } } ∈ (s.after cyc early row arg).agenda :=
  List.mem_append_right _ (List.mem_singleton_self _)

theorem exec_abandon {l : Launch} (h : Taken 0x0B s q u) (hb : wellFormedBody q [maskOf 15 0, maskOf 63 0] 16)
    (hl : tget u.tm.launches (reqLid q) = some l) (hdet : modeDet l.mode = true) (hrun : mayRun l = true)
    (hstep : l.steps = bodyWord q 1) : exec .abandon s = .next ((waitFor u q).askAbandon l.lid 0) := by
  change execAbandon s = _
  rw [execAbandon, onRequest_taken_fixed h hb]
  simp only [hl, hdet, hrun, hstep, and_self, if_true]

theorem exec_ckpt {l : Launch} (h : Taken 0x0A s q u)
    (hb : wellFormedBody q [maskOf 5 0 + maskOf 31 16, maskOf 63 0, maskOf 63 0] 24) (hc : 1 ≤ bodyWord q 0 % 64)
    (hal : bodyWord q 1 % 4096 = 0) (hta : bodyWord q 1 < 2 ^ 56) (hend : bodyWord q 1 + bodyWord q 2 ≤ 2 ^ 56)
    (hl : tget u.tm.launches (reqLid q) = some l) (hcomp : l.comp = bodyWord q 0 % 64) (hrun : mayRun l = true) :
    exec .ckpt s = .next (waitFor u q) := by
  change execCkpt s = _
  rw [execCkpt, onRequest_taken_fixed h hb]
  have hgood : ¬ (¬ compNamed (bodyWord q 0 % 64) = true ∨ bodyWord q 1 % 4096 ≠ 0 ∨ 2 ^ 56 ≤ bodyWord q 1 ∨
      2 ^ 56 < bodyWord q 1 + bodyWord q 2) := by
    rintro (h | h | h | h)
    · exact h (compNamed_mod hc)
    · exact h hal
    · exact Nat.not_le.mpr hta h
    · exact Nat.not_lt.mpr hend h
  refine (congrArg Host.Outcome.next (if_neg hgood)).trans ?_
  rw [hl]
  dsimp only
  rw [if_pos ⟨hcomp, hrun⟩]

/-! ### Held logs, numbers, windows and reports (R199, R224, R438) -/

/-- Whether a held log is the one that a LOGREL names. -/
def namedLog (q : Request) (h : HeldLog) : Bool := h.comp == bodyWord q 0 % 64 && h.lid == reqLid q

theorem exec_logrel (h : Taken 0x0C s q u) (hb : wellFormedBody q [maskOf 5 0 + maskOf 31 16] 8)
    (hc : 1 ≤ bodyWord q 0 % 64) (hheld : ∃ h ∈ u.tm.heldLogs, namedLog q h = true) :
    exec .logrel s = .next (respond { u with tm := { u.tm with
      heldLogs := u.tm.heldLogs.filter fun h => !namedLog q h } } q 0 0 0 []) := by
  have hany : u.tm.heldLogs.any (namedLog q) = true := List.any_eq_true.mpr hheld
  change execLogrel s = _
  rw [execLogrel, onRequest_taken_fixed h hb]
  refine (congrArg Host.Outcome.next (if_neg (not_not_intro (compNamed_mod hc)))).trans ?_
  exact congrArg Host.Outcome.next (if_neg (not_not_intro hany))

theorem exec_pkgnum (h : Taken 0x0D s q u) (hb : wellFormedBody q [maskOf 12 0 + maskOf 28 16] 8) :
    exec .pkgnum s = .next (if u.ho.pkginfo.getLsbD 31 = true then respond u q 0x12 0 0 []
      else respond { u with ho := { u.ho with pkginfo := BitVec.ofNat 64 (2 ^ 31 + bodyWord q 0) } } q 0 0 0 []) := by
  change execPkgnum s = _
  rw [execPkgnum, onRequest_taken_fixed h hb]

theorem sendMsix_pkginfo {v : Nat} : (sendMsix s v).ho.pkginfo = s.ho.pkginfo := by
  unfold sendMsix
  split <;> rfl

theorem respond_pkginfo {status sub res0 : Nat} {body : List Byte} :
    (respond s q status sub res0 body).ho.pkginfo = s.ho.pkginfo := by
  unfold respond
  split
  · exact sendMsix_pkginfo
  · rfl
  · exact congrArg HostPort.pkginfo answerCtx_keeps.2.2
  · split <;> rfl

theorem exec_winlist {k : Nat} (h : Taken 0x0E s q u) (hb : wellFormedBody q [maskOf 7 0 + maskOf 16 8] 8)
    (hn : fld (bodyWord q 0) 16 8 ≠ 0) (hn' : fld (bodyWord q 0) 16 8 ≤ 256)
    (hk : k = min (fld (bodyWord q 0) 16 8) (256 - fld (bodyWord q 0) 7 0)) :
    exec .winlist s = .next (respond u q 0 0 k
      ((List.range k).flatMap fun j => natBytes ((tget u.ho.windows (fld (bodyWord q 0) 7 0 + j)).getD 0).toNat 16)) := by
  subst hk
  change execWinlist s = _
  rw [execWinlist, onRequest_taken_fixed h hb]
  exact congrArg Host.Outcome.next (if_neg fun h => h.elim hn (Nat.not_lt.mpr hn'))

/-- The lines that a REPORT names. -/
def reportNums (q : Request) : List Nat :=
  (List.range (fld (bodyWord q 0) 24 16)).map fun k => bytesNat ((q.body.drop (40 + 4 * k)).take 4)

theorem exec_report {b : List Byte} (h : Taken 8 s q u)
    (hb : wellFormedBody q [maskOf 5 0 + maskOf 24 16, maskOf 63 0, maskOf 63 0, maskOf 63 0, maskOf 63 0]
      (40 + 4 * fld (bodyWord q 0) 24 16)) (hnums : ∀ x ∈ reportNums q, x < 2 ^ 24) (hn : fld (bodyWord q 0) 24 16 ≤ 256)
    (hc : 1 ≤ bodyWord q 0 % 64) (hsome : (tget u.tt.comps (bodyWord q 0 % 64)).isSome = true)
    (hbytes : b = reportBytes u (bodyWord q 0 % 64) ((q.body.drop 8).take 32) (reportNums q)) :
    exec .report s = .next (respond u q 0 0 b.length b) := by
  subst hbytes
  have hnum : ¬ ((reportNums q).any fun x => decide (2 ^ 24 ≤ x)) = true := by
    rw [List.any_eq_true]
    rintro ⟨x, hx, hle⟩
    exact Nat.not_le.mpr (hnums x hx) (of_decide_eq_true hle)
  change execReport s = _
  rw [execReport, onRequest_taken (masks := fun _ => _) (reads := fun q => 40 + 4 * fld (bodyWord q 0) 24 16) h hb]
  refine congrArg Host.Outcome.next ((if_neg hnum).trans ((if_neg ?_).trans (if_neg (not_isNone_of_isSome hsome))))
  rintro (h | h)
  · exact h (compNamed_mod hc)
  · exact Nat.not_lt.mpr hn h

/-! ### STAGE (R233, R435) -/

theorem sendMsix_stageGo {v : Nat} : (sendMsix s v).ho.stageGo = s.ho.stageGo := by
  unfold sendMsix
  split <;> rfl

theorem respond_stageGo {status sub res0 : Nat} {body : List Byte} :
    (respond s q status sub res0 body).ho.stageGo = s.ho.stageGo := by
  unfold respond
  split
  · exact sendMsix_stageGo
  · rfl
  · exact congrArg HostPort.stageGo answerCtx_keeps.2.2
  · split <;> rfl

theorem handState_stageGo {st fail kind seq : Nat} : (handState s st fail kind seq).ho.stageGo = s.ho.stageGo :=
  sendMsix_stageGo

/-- The hand-over that a STAGE begins. -/
def stagedHand (q : Request) (s : State) : Hand :=
  { kind := bodyWord q 0 % 8, image := firmwareIn (stagedImage s), old := firmwareOf s (bodyWord q 0 % 8), switched := false
    alive := false }

/-- GO is taken back as the image is copied out. -/
def goTaken (s : State) : State := { s with ho := { s.ho with stageGo := false } }

theorem stageImage_passes (h : verifyImage (bodyWord q 0 % 8) (floorOf s (bodyWord q 0 % 8)) (stagedImage s) = 0) :
    stageImage q s = respond (handState { goTaken s with rt := { s.rt with hand := some (stagedHand q s) } } 1 0
      (bodyWord q 0 % 8) (handSeq s + 1)) q 0 0 0 [] := by
  unfold stageImage
  dsimp only
  split
  · rfl
  next hne => exact absurd h hne

theorem stageImage_fails (h : verifyImage (bodyWord q 0 % 8) (floorOf s (bodyWord q 0 % 8)) (stagedImage s) ≠ 0) :
    stageImage q s = respond (handFail (goTaken s)
      (verifyImage (bodyWord q 0 % 8) (floorOf s (bodyWord q 0 % 8)) (stagedImage s))) q 0x15
        (verifyImage (bodyWord q 0 % 8) (floorOf s (bodyWord q 0 % 8)) (stagedImage s)) 0 [] := by
  unfold stageImage
  dsimp only
  split
  next heq => exact absurd heq h
  · rfl

theorem exec_stage (h : Taken 9 s q u) (hb : wellFormedBody q [7] 8) (hk : 1 ≤ bodyWord q 0 % 8)
    (hk' : bodyWord q 0 % 8 ≤ 4) (hhand : u.rt.hand = none) (hnone : ∀ p ∈ u.ho.waiting, p.code ≠ 9) :
    exec .stage s = .next (if u.ho.stageGo = true then stageImage q u else waitFor u q) := by
  have hfree : ¬ (u.rt.hand.isSome = true ∨ (u.ho.waiting.any fun p => p.code == 9) = true) := by
    rw [hhand, List.any_eq_true]
    rintro (h | ⟨p, hp, h⟩)
    · cases h
    · exact hnone p hp (beq_iff_eq.mp h)
  change execStage s = _
  rw [execStage, onRequest_taken_fixed h hb]
  refine congrArg Host.Outcome.next ((if_neg ?_).trans (if_neg hfree))
  rintro (h | h)
  · omega
  · exact Nat.not_lt.mpr hk' h

/-! ### RESTORE (R231) -/

theorem exec_restore (ha : s.ev.a ≠ 1) (h : Taken 0x0F s q u)
    (hb : wellFormedBody q [maskOf 5 0, maskOf 63 0, maskOf 63 0, maskOf 63 0] 32) (hc : 1 ≤ bodyWord q 0 % 64)
    (hman : bodyWord q 1 < 2 ^ 56) (htab : bodyWord q 2 + bodyWord q 3 ≤ 2 ^ 56) (hholds : u.ms.holds = [])
    (hsome : (tget u.tt.comps (bodyWord q 0 % 64)).isSome = true) : exec .restore s = .next (restoreNow q u) := by
  change execRestore s = _
  rw [execRestore, if_neg ha, onRequest_taken_fixed h hb, restoreRequest, touchPieces_of_noHolds hholds]
  refine congrArg Host.Outcome.next ((if_neg ?_).trans (if_neg (not_isNone_of_isSome hsome)))
  rintro (h | h | h)
  · exact h (compNamed_mod hc)
  · exact Nat.not_le.mpr hman h
  · exact Nat.not_lt.mpr htab h

/-- The state from which a restored launch is placed, but for its answer. -/
def restored (s : State) (q : Request) (comp : Nat) (k : Ckpt) (image : List Byte) : State :=
  restoreTeams (acceptPacket s q (packetFor comp k.packet) image).2 k (freshLid s) comp

theorem restoreCkpt_restores {comp : Nat} {k : Ckpt} {parts : List (CkptLine × Memory × List Patch)} {image : List Byte}
    (hpages : k.pages = [])
    (hok : packetChecks (parts.foldl (restoreLine comp) s) none (packetFor comp k.packet) = .ok image) :
    restoreCkpt q comp k parts s = placementRun (respond (restored (parts.foldl (restoreLine comp) s) q comp k image) q 0 0
      (freshLid (parts.foldl (restoreLine comp) s)) []) := by
  -- Unfolded as a function: against the applied term, the kernel would evaluate what its `match` is of.
  generalize hf : restoreCkpt = f
  delta restoreCkpt at hf
  subst hf
  beta_reduce
  extract_lets u p
  have hu : u = parts.foldl (restoreLine comp) s := by
    change k.pages.foldl (restorePage comp) _ = _
    rw [hpages, List.foldl_nil]
  have hp : p = packetFor comp k.packet := rfl
  clear_value u p
  subst hu hp
  rw [hok]
  simp only [acceptPacket_number]
  rfl

/-- The word of a team under another launch and in another compartment. -/
def restoredWord (lid comp : Nat) (w : BitVec 512) : BitVec 512 :=
  (w &&& ~~~((BitVec.ofNat 512 (2 ^ 16 - 1) <<< 192) ||| (BitVec.ofNat 512 63 <<< 56))) |||
    (BitVec.ofNat 512 lid <<< 192) ||| (BitVec.ofNat 512 comp <<< 56)

/-- A saved team under another launch and in another compartment. -/
def restoredTeam (lid comp : Nat) (v : Saved) : Saved := { v with lid := lid, word := restoredWord lid comp v.word }

/-- A log whose records are gone. -/
def emptyLog (lid : Nat) (g : Log) : Log :=
  if g.lid = lid then { g with recs := [], replay := [], markRecs := [], markReplay := [] } else g

/-- What a launch that is restored sets of its record. -/
def restoredLaunch (k : Ckpt) (l : Launch) : Launch :=
  { l with
    nextTeam := l.nteams, skipped := [], steps := k.step
    tdone := l.nteams - (k.teams.filter fun v => v.ctxs.any fun e => e.2.run != .exited).length }

/-- The teams of a checkpoint, swapped out and waiting. -/
def restoredTeams (s : State) (k : Ckpt) (lid comp : Nat) : State :=
  { s with tm := { s.tm with
    swaps := s.tm.swaps ++ k.teams.map (restoredTeam lid comp)
    waiting := s.tm.waiting ++ k.teams.map fun v : Saved => { lid := lid, team := v.team, since := s.tt.periods }
    stepAreas := s.tm.stepAreas ++ k.teams.map (restoredTeam lid comp)
    logs := s.tm.logs.map (emptyLog lid) } }

theorem restoreTeams_eq {k : Ckpt} {lid comp : Nat} :
    restoreTeams s k lid comp = (restoredTeams s k lid comp).modLaunch lid (restoredLaunch k) := rfl

theorem restoredTeams_launches {k : Ckpt} {lid comp : Nat} :
    (restoredTeams s k lid comp).tm.launches = s.tm.launches := rfl

theorem restoreTeams_mem {k : Ckpt} {lid comp : Nat} : (restoreTeams s k lid comp).ms.mem = s.ms.mem := by
  obtain ⟨launches, h⟩ := modLaunch_eq (restoredTeams s k lid comp) lid (restoredLaunch k)
  rw [restoreTeams_eq, h]
  rfl

theorem restoreLines_mem {comp : Nat} (parts : List (CkptLine × Memory × List Patch)) :
    (parts.foldl (restoreLine comp) s).ms.mem = s.ms.mem :=
  foldl_keeps (g := fun t : State => t.ms.mem) (f := restoreLine comp) (fun _ _ => rfl) parts s

theorem restored_mem {comp : Nat} {k : Ckpt} {image : List Byte} : (restored s q comp k image).ms.mem = s.ms.mem :=
  restoreTeams_mem.trans (congrArg (fun v => v.2.2) (acceptPacket_launch s q (packetFor comp k.packet) image))

/-- Every team of the checkpoint is swapped out under the new launch. -/
theorem mem_restoreTeams_swaps {k : Ckpt} {lid comp : Nat} {e : Saved} (he : e ∈ k.teams) :
    ∃ v ∈ (restoreTeams s k lid comp).tm.swaps, v.lid = lid ∧ v.team = e.team ∧ v.ctxs = e.ctxs := by
  obtain ⟨launches, h⟩ := modLaunch_eq (restoredTeams s k lid comp) lid (restoredLaunch k)
  rw [restoreTeams_eq, h]
  exact ⟨restoredTeam lid comp e, List.mem_append_right _ (List.mem_map_of_mem he), rfl, rfl, rfl⟩

theorem restored_launch {comp : Nat} {k : Ckpt} {image : List Byte} :
    ∃ l, tget (restored s q comp k image).tm.launches (freshLid s) = some l ∧ l.steps = k.step ∧
      l.tdone = l.nteams - (k.teams.filter fun v => v.ctxs.any fun e => e.2.run != .exited).length := by
  have hl : tget (acceptPacket s q (packetFor comp k.packet) image).2.tm.launches (freshLid s) =
      some (launchOfPacket s (packetFor comp k.packet) image (freshLid s) q.route) := by
    have := congrArg Prod.fst (acceptPacket_launch s q (packetFor comp k.packet) image)
    exact (congrArg (tget · (freshLid s)) this).trans (tget_tput_same _ _ _)
  have hnew := tget_modLaunch (restoredTeams (acceptPacket s q (packetFor comp k.packet) image).2 k (freshLid s) comp)
    (freshLid s) (freshLid s) (restoredLaunch k)
  rw [if_pos rfl, restoredTeams_launches, hl] at hnew
  exact ⟨_, hnew, rfl, rfl⟩

end

/-- Settles O51: each request is taken from the queue, and what its body then asks for passes every check. -/
theorem otherRequests : Obligations.OtherRequests := by
  intro s u q
  refine ⟨fun h _ hb hnew => ⟨_, exec_launch h hb hnew, rfl⟩, fun l h hb hl => ?_, fun l h hb hl hdet hrun hstep => ?_,
    fun l h hb hc hal hta hend hl hcomp hrun => ⟨_, exec_ckpt h hb hc hal hta hend hl hcomp hrun, rfl⟩,
    fun h hb hc hheld => ⟨_, exec_logrel h hb hc hheld, rfl⟩, fun h hb => ?_,
    fun h hb hn hn' => ⟨_, exec_winlist h hb hn hn' rfl, rfl⟩,
    fun h hb hnums hn hc hsome => ⟨_, _, exec_report h hb hnums hn hc hsome rfl, rfl, rfl⟩, fun h hb hk hk' hhand hnone => ?_,
    fun ha h hb hc hman htab hholds hsome => ?_⟩
  · refine ⟨_, _, exec_kill h hb hl, congrArg (· ++ [q]) killLaunch_waiting, tget_killLaunch hl, rfl, _, mem_after,
      rfl, rfl, rfl⟩
  · exact ⟨_, exec_abandon h hb hl hdet hrun hstep, rfl, rfl, _, mem_after, rfl, rfl, rfl⟩
  · refine ⟨_, exec_pkgnum h hb, fun hv => if_pos hv, fun hv => ?_⟩
    rw [if_neg (by rw [hv]; decide), respond_pkginfo]
    exact ⟨rfl, rfl⟩
  · refine ⟨_, exec_stage h hb hk hk' hhand hnone, fun hgo => if_neg (by rw [hgo]; decide), fun hgo => ?_⟩
    rw [if_pos hgo]
    by_cases hcode : verifyImage (bodyWord q 0 % 8) (floorOf u (bodyWord q 0 % 8)) (stagedImage u) = 0
    · rw [stageImage_passes hcode]
      have hrt := (respond_rt (s := handState { goTaken u with rt := { u.rt with hand := some (stagedHand q u) } } 1 0
        (bodyWord q 0 % 8) (handSeq u + 1)) (q := q) (status := 0) (sub := 0) (res0 := 0) (body := [])).trans handState_rt
      refine ⟨respond_stageGo.trans handState_stageGo, by rw [hrt], ?_⟩
      rw [if_pos hcode]
      exact ⟨handSt_of_status (by rw [hrt]) (by decide) (by decide) (by omega), _, by rw [hrt], rfl, rfl, rfl, rfl⟩
    · rw [stageImage_fails hcode]
      refine ⟨respond_stageGo, by rw [respond_rt]; rfl, ?_⟩
      rw [if_neg hcode, respond_rt]
      exact ⟨hhand, rfl, rfl⟩
  · refine ⟨_, exec_restore ha h hb hc hman htab hholds hsome, ?_⟩
    unfold restoreNow
    dsimp only
    cases hk : findManifest u (bodyWord q 0 % 64) (bodyWord q 1) with
    | none => rfl
    | some k =>
      cases harea : readTable u (bodyWord q 0 % 64) (bodyWord q 2) (bodyWord q 3) with
      | none => rfl
      | some area =>
        refine ⟨fun hfit => if_pos (by rw [hfit]; decide), fun hfit => ?_⟩
        dsimp only
        rw [if_neg (not_not_intro hfit)]
        cases hparts : k.lines.mapM (lineParts (objsAt area.length area).1) with
        | none => rfl
        | some parts =>
          dsimp only
          intro hpages image hok
          exact ⟨_, _, restoreCkpt_restores hpages hok, restored_mem.trans (restoreLines_mem parts),
            fun e he => mem_restoreTeams_swaps he, restored_launch⟩

end Sys2Proof.Machine
end
